-- ==== Sys2Proof/Word.lean ====
section
/-! DEFINITION. The word types of the FJ-8: 64-bit scalar words, bytes, and 1,024-bit vector registers of 32 lanes. -/
namespace Sys2Proof

/-- A scalar register, an address or a descriptor word (R15, R104). -/
abbrev Word := BitVec 64

/-- One byte of memory. -/
abbrev Byte := BitVec 8

/-- The bits of a vector register: 32 lanes of 32 bits, lane j at bits 32j + 31 to 32j (R46). -/
abbrev VBits := BitVec 1024

/-- One 32-bit lane, scratch word, scale word or accumulator element. -/
abbrev Lane := BitVec 32

end Sys2Proof
end

