-- ==== Sys2Proof/Syntax.lean ====
section
/-! DEFINITION. The instructions and events of the FJ-8, one constructor for each row of the opcode table. The first
246 are encoded instructions (R74, R76, R77, R82, R176, R202, R211); the rest are the device's own events, which no
word encodes and which the machine's agents perform. Register fields hold register numbers; a field that R81 limits
(k0-k7, m0-m15, a0-a3) has exactly the width of its class, so that a value beyond it cannot be written. -/
namespace Sys2Proof

/-- What an uncorrectable flit carried, which decides what its receiver does (R268). -/
inductive FlitCargo where
  /-- Tokens of the line, the given token message (an index into the messages in flight). -/
  | tokens (message : Nat)
  /-- Only a soft-directory hint. -/
  | hint
  /-- A request, the given transient request. -/
  | request (message : Nat)
  /-- The header itself cannot be read: the sender's retry record names these lines. -/
  | header (lines : List Nat)
  deriving DecidableEq, Repr

/-- Where a storage error was found (R384, R387). -/
inductive ErrorPlace where
  /-- A word of memory, by its place key. -/
  | memory (key : Nat)
  /-- A scalar register of a context. -/
  | gReg (core slot reg : Nat)
  /-- A vector register of a context. -/
  | vReg (core slot reg : Nat)
  /-- An operand slot. -/
  | slot (core slot : Nat)
  /-- A row of an accumulator. -/
  | accumulator (core acc row : Nat)
  /-- A word of the sum-product engine scratch. -/
  | scratch (core word : Nat)
  /-- The reduction result register. -/
  | rres (core : Nat)
  /-- A context's masks, system registers, program counter or window bases. -/
  | control (core slot : Nat)
  /-- A core's issue or rotation state. -/
  | issue (core : Nat)
  /-- A line's tag, token count or persistent-request entry. -/
  | tokens (line : Nat)
  /-- A line of an L1 data cache. -/
  | l1Line (core line : Nat)
  /-- A line of a cache slice that is clean, so that it is fetched again. -/
  | cleanSlice (line : Nat)
  /-- A line of an L1 instruction cache, dropped and fetched again. -/
  | icacheLine (core line : Nat)
  /-- A TLB entry, dropped and walked again: the one that translates an address of a VF in a cluster. -/
  | tlbEntry (cluster vf : Nat) (addr : Word)
  /-- Die-wide state. -/
  | die (die : Nat)
  deriving DecidableEq, Repr

/-- What the patrol scrubber found in a word (R384). -/
inductive ScrubFinding where
  | clean
  | corrected
  | uncorrectable
  deriving DecidableEq, Repr

/-- How a UCIe lane failure on the host port ends (R375). -/
inductive LaneOutcome where
  | repaired
  | halved
  | disabled
  deriving DecidableEq, Repr

/-- One constructor per row of the opcode table. -/
inductive Instr where
  /-- ADD (R106): Adds gA and gB mod 2^64 into gD. -/
  | add (sa : Bool) (b : BitVec 7) (a : BitVec 7) (d : BitVec 7)
  /-- SUB (R106): Subtracts gB from gA into gD. -/
  | sub (sa : Bool) (b : BitVec 7) (a : BitVec 7) (d : BitVec 7)
  /-- AND (R106): Bitwise AND of gA and gB into gD. -/
  | and (sa : Bool) (b : BitVec 7) (a : BitVec 7) (d : BitVec 7)
  /-- OR (R106): Bitwise OR of gA and gB into gD. -/
  | or (sa : Bool) (b : BitVec 7) (a : BitVec 7) (d : BitVec 7)
  /-- XOR (R106): Bitwise XOR of gA and gB into gD. -/
  | xor (sa : Bool) (b : BitVec 7) (a : BitVec 7) (d : BitVec 7)
  /-- SLL (R106): Shifts gA left by gB[5:0]. -/
  | sll (sa : Bool) (b : BitVec 7) (a : BitVec 7) (d : BitVec 7)
  /-- SRL (R106): Logical right shift of gA by gB[5:0]. -/
  | srl (sa : Bool) (b : BitVec 7) (a : BitVec 7) (d : BitVec 7)
  /-- SRA (R106): Arithmetic right shift of gA by gB[5:0]. -/
  | sra (sa : Bool) (b : BitVec 7) (a : BitVec 7) (d : BitVec 7)
  /-- ADDW (R106): 32-bit add, sign-extended into gD. -/
  | addw (sa : Bool) (b : BitVec 7) (a : BitVec 7) (d : BitVec 7)
  /-- SUBW (R106): 32-bit subtract, sign-extended into gD. -/
  | subw (sa : Bool) (b : BitVec 7) (a : BitVec 7) (d : BitVec 7)
  /-- SLLW (R106): 32-bit left shift, sign-extended. -/
  | sllw (sa : Bool) (b : BitVec 7) (a : BitVec 7) (d : BitVec 7)
  /-- SRLW (R106): 32-bit logical right shift, sign-extended. -/
  | srlw (sa : Bool) (b : BitVec 7) (a : BitVec 7) (d : BitVec 7)
  /-- SRAW (R106): 32-bit arithmetic right shift, sign-extended. -/
  | sraw (sa : Bool) (b : BitVec 7) (a : BitVec 7) (d : BitVec 7)
  /-- SLT (R106): Sets gD to 1 if gA < gB signed. -/
  | slt (sa : Bool) (b : BitVec 7) (a : BitVec 7) (d : BitVec 7)
  /-- SLTU (R106): Sets gD to 1 if gA < gB unsigned. -/
  | sltu (sa : Bool) (b : BitVec 7) (a : BitVec 7) (d : BitVec 7)
  /-- ANDN (R106): gA AND NOT gB into gD. -/
  | andn (sa : Bool) (b : BitVec 7) (a : BitVec 7) (d : BitVec 7)
  /-- MIN (R106): Signed minimum of gA and gB. -/
  | min (sa : Bool) (b : BitVec 7) (a : BitVec 7) (d : BitVec 7)
  /-- MAX (R106): Signed maximum of gA and gB. -/
  | max (sa : Bool) (b : BitVec 7) (a : BitVec 7) (d : BitVec 7)
  /-- MINU (R106): Unsigned minimum of gA and gB. -/
  | minu (sa : Bool) (b : BitVec 7) (a : BitVec 7) (d : BitVec 7)
  /-- MAXU (R106): Unsigned maximum of gA and gB. -/
  | maxu (sa : Bool) (b : BitVec 7) (a : BitVec 7) (d : BitVec 7)
  /-- CLZ (R106): Counts leading zero bits of gA. -/
  | clz (sa : Bool) (a : BitVec 7) (d : BitVec 7)
  /-- CTZ (R106): Counts trailing zero bits of gA. -/
  | ctz (sa : Bool) (a : BitVec 7) (d : BitVec 7)
  /-- POPC (R106): Counts one bits of gA. -/
  | popc (sa : Bool) (a : BitVec 7) (d : BitVec 7)
  /-- BREV (R106): Reverses the bits of gA. -/
  | brev (sa : Bool) (a : BitVec 7) (d : BitVec 7)
  /-- MUL (R106): Low 64 bits of signed product. -/
  | mul (sa : Bool) (b : BitVec 7) (a : BitVec 7) (d : BitVec 7)
  /-- MULH (R106): High 64 bits of signed product. -/
  | mulh (sa : Bool) (b : BitVec 7) (a : BitVec 7) (d : BitVec 7)
  /-- MULHU (R106): High 64 bits of unsigned product. -/
  | mulhu (sa : Bool) (b : BitVec 7) (a : BitVec 7) (d : BitVec 7)
  /-- MULW (R106): 32-bit product, sign-extended. -/
  | mulw (sa : Bool) (b : BitVec 7) (a : BitVec 7) (d : BitVec 7)
  /-- SEXB (R106): Sign-extends gA[7:0]. -/
  | sexb (sa : Bool) (a : BitVec 7) (d : BitVec 7)
  /-- SEXH (R106): Sign-extends gA[15:0]. -/
  | sexh (sa : Bool) (a : BitVec 7) (d : BitVec 7)
  /-- SEXW (R106): Sign-extends gA[31:0]. -/
  | sexw (sa : Bool) (a : BitVec 7) (d : BitVec 7)
  /-- ZEXW (R106): Zero-extends gA[31:0]. -/
  | zexw (sa : Bool) (a : BitVec 7) (d : BitVec 7)
  /-- ADDI (R107): Adds a sign-extended 10-bit immediate to gA. -/
  | addi (sa : Bool) (imm : BitVec 10) (a : BitVec 7) (d : BitVec 7)
  /-- ANDI (R107): ANDs gA with the immediate. -/
  | andi (sa : Bool) (imm : BitVec 10) (a : BitVec 7) (d : BitVec 7)
  /-- ORI (R107): ORs gA with the immediate. -/
  | ori (sa : Bool) (imm : BitVec 10) (a : BitVec 7) (d : BitVec 7)
  /-- XORI (R107): XORs gA with the immediate. -/
  | xori (sa : Bool) (imm : BitVec 10) (a : BitVec 7) (d : BitVec 7)
  /-- SLTI (R107): Signed compare of gA with the immediate. -/
  | slti (sa : Bool) (imm : BitVec 10) (a : BitVec 7) (d : BitVec 7)
  /-- SLTIU (R107): Unsigned compare of gA with the immediate. -/
  | sltiu (sa : Bool) (imm : BitVec 10) (a : BitVec 7) (d : BitVec 7)
  /-- SLLI (R108): Left shift of gA by an immediate amount. -/
  | slli (sa : Bool) (sh : BitVec 6) (a : BitVec 7) (d : BitVec 7)
  /-- SRLI (R108): Logical right shift by an immediate amount. -/
  | srli (sa : Bool) (sh : BitVec 6) (a : BitVec 7) (d : BitVec 7)
  /-- SRAI (R108): Arithmetic right shift by an immediate amount. -/
  | srai (sa : Bool) (sh : BitVec 6) (a : BitVec 7) (d : BitVec 7)
  /-- SLLWI (R108): 32-bit left shift by an immediate amount. -/
  | sllwi (sa : Bool) (sh : BitVec 5) (a : BitVec 7) (d : BitVec 7)
  /-- SRLWI (R108): 32-bit logical right shift by an immediate amount. -/
  | srlwi (sa : Bool) (sh : BitVec 5) (a : BitVec 7) (d : BitVec 7)
  /-- SRAWI (R108): 32-bit arithmetic right shift by an immediate amount. -/
  | srawi (sa : Bool) (sh : BitVec 5) (a : BitVec 7) (d : BitVec 7)
  /-- LUI (R109): Loads sext(IMM18) times 1,024 into gD. -/
  | lui (imm : BitVec 18) (d : BitVec 7)
  /-- AUIPC (R109): Adds sext(IMM18) times 1,024 to its own address. -/
  | auipc (imm : BitVec 18) (d : BitVec 7)
  /-- JAL (R110): Jumps PC-relative and writes the return address. -/
  | jal (imm : BitVec 18) (d : BitVec 7)
  /-- JALR (R110): Jumps to gA plus offset and writes the return address. -/
  | jalr (sa : Bool) (imm : BitVec 10) (a : BitVec 7) (d : BitVec 7)
  /-- BEQ (R111): Branches when gA equals gB. -/
  | beq (off : BitVec 11) (a : BitVec 7) (b : BitVec 7)
  /-- BNE (R111): Branches when gA differs from gB. -/
  | bne (off : BitVec 11) (a : BitVec 7) (b : BitVec 7)
  /-- BLT (R111): Branches when gA < gB signed. -/
  | blt (off : BitVec 11) (a : BitVec 7) (b : BitVec 7)
  /-- BGE (R111): Branches when gA >= gB signed. -/
  | bge (off : BitVec 11) (a : BitVec 7) (b : BitVec 7)
  /-- BLTU (R111): Branches when gA < gB unsigned. -/
  | bltu (off : BitVec 11) (a : BitVec 7) (b : BitVec 7)
  /-- BGEU (R111): Branches when gA >= gB unsigned. -/
  | bgeu (off : BitVec 11) (a : BitVec 7) (b : BitVec 7)
  /-- DIV (R113): Signed divide, result written 40 cy after issue. -/
  | div (la : BitVec 4) (b : BitVec 7) (a : BitVec 7) (d : BitVec 7)
  /-- DIVU (R113): Unsigned divide, long-latency. -/
  | divu (la : BitVec 4) (b : BitVec 7) (a : BitVec 7) (d : BitVec 7)
  /-- REM (R113): Signed remainder, long-latency. -/
  | rem (la : BitVec 4) (b : BitVec 7) (a : BitVec 7) (d : BitVec 7)
  /-- REMU (R113): Unsigned remainder, long-latency. -/
  | remu (la : BitVec 4) (b : BitVec 7) (a : BitVec 7) (d : BitVec 7)
  /-- LB (R125): Loads a sign-extended byte. -/
  | lb (la : BitVec 4) (sc : BitVec 2) (str : Bool) (a : BitVec 7) (d : BitVec 7)
  /-- LBZ (R125): Loads a zero-extended byte. -/
  | lbz (la : BitVec 4) (sc : BitVec 2) (str : Bool) (a : BitVec 7) (d : BitVec 7)
  /-- LH (R125): Loads a sign-extended halfword. -/
  | lh (la : BitVec 4) (sc : BitVec 2) (str : Bool) (a : BitVec 7) (d : BitVec 7)
  /-- LHZ (R125): Loads a zero-extended halfword. -/
  | lhz (la : BitVec 4) (sc : BitVec 2) (str : Bool) (a : BitVec 7) (d : BitVec 7)
  /-- LW (R125): Loads a sign-extended word. -/
  | lw (la : BitVec 4) (sc : BitVec 2) (str : Bool) (a : BitVec 7) (d : BitVec 7)
  /-- LWZ (R125): Loads a zero-extended word. -/
  | lwz (la : BitVec 4) (sc : BitVec 2) (str : Bool) (a : BitVec 7) (d : BitVec 7)
  /-- LD (R125): Loads a doubleword. -/
  | ld (la : BitVec 4) (sc : BitVec 2) (str : Bool) (a : BitVec 7) (d : BitVec 7)
  /-- LV (R125): Loads 128 bytes into a vector register tagged RAW. -/
  | lv (la : BitVec 4) (sc : BitVec 2) (str : Bool) (a : BitVec 7) (d : BitVec 7)
  /-- LV_S32 (R125): Vector load tagged S32. -/
  | lvS32 (la : BitVec 4) (sc : BitVec 2) (str : Bool) (a : BitVec 7) (d : BitVec 7)
  /-- LV_Z32 (R125): Vector load tagged Z32. -/
  | lvZ32 (la : BitVec 4) (sc : BitVec 2) (str : Bool) (a : BitVec 7) (d : BitVec 7)
  /-- LV_F32 (R125): Vector load tagged F32. -/
  | lvF32 (la : BitVec 4) (sc : BitVec 2) (str : Bool) (a : BitVec 7) (d : BitVec 7)
  /-- LV_BF16 (R125): Vector load tagged BF16. -/
  | lvBf16 (la : BitVec 4) (sc : BitVec 2) (str : Bool) (a : BitVec 7) (d : BitVec 7)
  /-- LV_F16 (R125): Vector load tagged F16. -/
  | lvF16 (la : BitVec 4) (sc : BitVec 2) (str : Bool) (a : BitVec 7) (d : BitVec 7)
  /-- LV_S8 (R125): Vector load tagged S8. -/
  | lvS8 (la : BitVec 4) (sc : BitVec 2) (str : Bool) (a : BitVec 7) (d : BitVec 7)
  /-- LV_Z8 (R125): Vector load tagged Z8. -/
  | lvZ8 (la : BitVec 4) (sc : BitVec 2) (str : Bool) (a : BitVec 7) (d : BitVec 7)
  /-- LV_SP32 (R125): Vector load tagged SP32. -/
  | lvSp32 (la : BitVec 4) (sc : BitVec 2) (str : Bool) (a : BitVec 7) (d : BitVec 7)
  /-- SB (R126): Posts a byte store of gD. -/
  | sb (sc : BitVec 2) (str : Bool) (a : BitVec 7) (d : BitVec 7)
  /-- SH (R126): Posts a halfword store of gD. -/
  | sh (sc : BitVec 2) (str : Bool) (a : BitVec 7) (d : BitVec 7)
  /-- SW (R126): Posts a word store of gD. -/
  | sw (sc : BitVec 2) (str : Bool) (a : BitVec 7) (d : BitVec 7)
  /-- SD (R126): Posts a doubleword store of gD. -/
  | sd (sc : BitVec 2) (str : Bool) (a : BitVec 7) (d : BitVec 7)
  /-- SV (R126): Posts a 128-byte store of vD. -/
  | sv (sc : BitVec 2) (str : Bool) (a : BitVec 7) (d : BitVec 7)
  /-- LVS_E4 (R128): Loads 128 E4M3 bytes and a scale word into vD. -/
  | lvsE4 (la : BitVec 4) (b : BitVec 7) (a : BitVec 7) (d : BitVec 7)
  /-- LVS_E5 (R128): Loads 128 E5M2 bytes and a scale word into vD. -/
  | lvsE5 (la : BitVec 4) (b : BitVec 7) (a : BitVec 7) (d : BitVec 7)
  /-- SVS (R128): Stores vD's data and its scale word. -/
  | svs (b : BitVec 7) (a : BitVec 7) (d : BitVec 7)
  /-- LDX (R129): Loads two MXFP4 blocks expanded to BF16 at the home slice. -/
  | ldx (la : BitVec 4) (b : BitVec 7) (a : BitVec 7) (d : BitVec 7)
  /-- LDF (R130): Full/empty load with optional consume and try, at the owning port. -/
  | ldf (la : BitVec 4) (sc : BitVec 2) (tryIt : Bool) (consume : Bool) (a : BitVec 7) (d : BitVec 7)
  /-- STF (R132): Full/empty store that sets the word full, optionally waiting until empty. -/
  | stf (sc : BitVec 2) (e : Bool) (a : BitVec 7) (d : BitVec 7)
  /-- AMO_SWAP (R134): Atomic swap at the owning port. -/
  | amoSwap (la : BitVec 4) (sc : BitVec 2) (wide : Bool) (a : BitVec 7) (d : BitVec 7)
  /-- AMO_ADD (R134): Atomic add at the owning port. -/
  | amoAdd (la : BitVec 4) (sc : BitVec 2) (wide : Bool) (a : BitVec 7) (d : BitVec 7)
  /-- AMO_AND (R134): Atomic AND at the owning port. -/
  | amoAnd (la : BitVec 4) (sc : BitVec 2) (wide : Bool) (a : BitVec 7) (d : BitVec 7)
  /-- AMO_OR (R134): Atomic OR at the owning port. -/
  | amoOr (la : BitVec 4) (sc : BitVec 2) (wide : Bool) (a : BitVec 7) (d : BitVec 7)
  /-- AMO_XOR (R134): Atomic XOR at the owning port. -/
  | amoXor (la : BitVec 4) (sc : BitVec 2) (wide : Bool) (a : BitVec 7) (d : BitVec 7)
  /-- AMO_MIN (R134): Atomic signed minimum. -/
  | amoMin (la : BitVec 4) (sc : BitVec 2) (wide : Bool) (a : BitVec 7) (d : BitVec 7)
  /-- AMO_MAX (R134): Atomic signed maximum. -/
  | amoMax (la : BitVec 4) (sc : BitVec 2) (wide : Bool) (a : BitVec 7) (d : BitVec 7)
  /-- AMO_MINU (R134): Atomic unsigned minimum. -/
  | amoMinu (la : BitVec 4) (sc : BitVec 2) (wide : Bool) (a : BitVec 7) (d : BitVec 7)
  /-- AMO_MAXU (R134): Atomic unsigned maximum. -/
  | amoMaxu (la : BitVec 4) (sc : BitVec 2) (wide : Bool) (a : BitVec 7) (d : BitVec 7)
  /-- AMO_CAS (R134): Atomic compare-and-swap with expected value in g(D+1). -/
  | amoCas (la : BitVec 4) (sc : BitVec 2) (wide : Bool) (a : BitVec 7) (d : BitVec 7)
  /-- FENCE_FULL (R137): Parks until every earlier access has performed at the scope. -/
  | fenceFull (sc : BitVec 2)
  /-- FENCE_ACQ (R137): Parks until every earlier read has its value. -/
  | fenceAcq (sc : BitVec 2)
  /-- FENCE_REL (R137): Orders earlier accesses before later writes at the scope. -/
  | fenceRel (sc : BitVec 2)
  /-- FENCE_ENGINE (R137): Orders earlier accesses before later engine requests. -/
  | fenceEngine (sc : BitVec 2)
  /-- FENCE_STRINGS (R137): Parks until every earlier OPASS has delivered. -/
  | fenceStrings (sc : BitVec 2)
  /-- TLD (R141): Loads a 1 KiB tile line into vD..vD+7. -/
  | tld (la : BitVec 4) (b : BitVec 7) (a : BitVec 7) (d : BitVec 7)
  /-- TST (R141): Stores vD..vD+7 as a tile line. -/
  | tst (b : BitVec 7) (a : BitVec 7) (d : BitVec 7)
  /-- MARM (R138): Arms the context's monitor on a word. -/
  | marm (sc : BitVec 2) (a : BitVec 7) (d : BitVec 7)
  /-- FLUSH (R143): Writes back and drops every cached copy of a line. -/
  | flush (sa : Bool) (a : BitVec 7)
  /-- CLEAN (R143): Writes dirty copies of a line to memory. -/
  | clean (sa : Bool) (a : BitVec 7)
  /-- INVAL (R143): Drops a line from this core's L1 caches. -/
  | inval (sa : Bool) (a : BitVec 7)
  /-- PREF (R143): Prefetch hint for a line. -/
  | pref (sa : Bool) (a : BitVec 7)
  /-- TLBINV (R144): Queues invalidation of translations. -/
  | tlbinv (sa : Bool) (b : BitVec 7) (a : BitVec 7)
  /-- TLBSYNC (R144): Parks until earlier TLBINVs are applied everywhere. -/
  | tlbsync (d : BitVec 7)
  /-- MIGR (R145): Requests migration of a page to another die. -/
  | migr (sa : Bool) (b : BitVec 7) (a : BitVec 7) (d : BitVec 7)
  /-- TDREG (R140): Registers or deregisters a tensor. -/
  | tdreg (sa : Bool) (a : BitVec 7) (d : BitVec 7)
  /-- MFS (R115): Reads a system register into gD. -/
  | mfs (sys : BitVec 11) (d : BitVec 7)
  /-- MTS (R115): Writes gA to a system register that has no behaviour of its own. -/
  | mts (sys : BitVec 11) (a : BitVec 7)
  /-- WAITC (R213): Sleeps for a count of own-core cycles. -/
  | waitc (sa : Bool) (a : BitVec 7) (d : BitVec 7)
  /-- WAITW (R213): Sleeps until a wall instant. -/
  | waitw (sa : Bool) (a : BitVec 7) (d : BitVec 7)
  /-- SLEEPM (R213): Sleeps until the monitor fires, a deposit or a TWAKE. -/
  | sleepm (d : BitVec 7)
  /-- WAITK (R213): Sleeps until a masked slot is stopped. -/
  | waitk (sa : Bool) (a : BitVec 7) (d : BitVec 7)
  /-- RDRES (R28): Waits for a reduction's sequence number in RRES and takes it. -/
  | rdres (sa : Bool) (a : BitVec 7) (d : BitVec 7)
  /-- TSPAWN (R215): Creates a context in a slot of the core. -/
  | tspawn (sa : Bool) (b : BitVec 7) (a : BitVec 7) (d : BitVec 7)
  /-- TREAP (R217): Reaps a stopped slot once its work has drained. -/
  | treap (sa : Bool) (a : BitVec 7) (d : BitVec 7)
  /-- TKILL (R218): Stops a context at once. -/
  | tkill (sa : Bool) (a : BitVec 7) (d : BitVec 7)
  /-- TWAKE (R218): Wakes a sleeping context or sets its wake-pending bit. -/
  | twake (sa : Bool) (a : BitVec 7) (d : BitVec 7)
  /-- TEXIT (R216): Stops the context with an exit code. -/
  | texit (sa : Bool) (a : BitVec 7)
  /-- MCLASS (R219): Binds or unbinds a message class to a register. -/
  | mclass (sa : Bool) (a : BitVec 7) (d : BitVec 7)
  /-- TSTAT (R218): Reads a slot's state. -/
  | tstat (sa : Bool) (a : BitVec 7) (d : BitVec 7)
  /-- MSEND (R220): Sends one word to a message class of a core. -/
  | msend (sa : Bool) (b : BitVec 7) (a : BitVec 7)
  /-- MSEND2 (R220): Sends two words to consecutive classes. -/
  | msend2 (sa : Bool) (b : BitVec 7) (a : BitVec 7)
  /-- MDRAIN (R222): Discards a class's waiting deposits. -/
  | mdrain (sa : Bool) (a : BitVec 7) (d : BitVec 7)
  /-- BAR (R224): Releases, arrives at a group barrier and waits for the phase. -/
  | bar (sa : Bool) (a : BitVec 7) (d : BitVec 7)
  /-- BARA (R224): Releases and arrives at a barrier without waiting. -/
  | bara (sa : Bool) (a : BitVec 7) (d : BitVec 7)
  /-- BARW (R224): Waits until a barrier phase has passed. -/
  | barw (sa : Bool) (b : BitVec 7) (a : BitVec 7) (d : BitVec 7)
  /-- GQRY (R224): Reads a group's barrier word. -/
  | gqry (sa : Bool) (a : BitVec 7) (d : BitVec 7)
  /-- WLPUSH (R225): Appends an item to the core's work list. -/
  | wlpush (sa : Bool) (a : BitVec 7) (d : BitVec 7)
  /-- WLPOP (R225): Removes the head item of the work list. -/
  | wlpop (d : BitVec 7)
  /-- WLSTAT (R225): Reads and clears the work-list counters. -/
  | wlstat (d : BitVec 7)
  /-- WLDONE (R225): Decrements the launch work count. -/
  | wldone (d : BitVec 7)
  /-- BIND (R228): Binds a g or v register to a stream generator. -/
  | bind (sa : Bool) (v : Bool) (a : BitVec 7) (d : BitVec 7)
  /-- UNBIND (R229): Ends a stream binding. -/
  | unbind (sa : Bool) (a : BitVec 7) (d : BitVec 7)
  /-- SGDEF (R227): Defines a stream generator from a descriptor. -/
  | sgdef (sa : Bool) (b : BitVec 7) (a : BitVec 7) (d : BitVec 7)
  /-- SSTAT (R229): Reads a generator's status or fault address. -/
  | sstat (sa : Bool) (e : Bool) (a : BitVec 7) (d : BitVec 7)
  /-- SDRAIN (R229): Waits until a write stream's elements have performed. -/
  | sdrain (sa : Bool) (a : BitVec 7) (d : BitVec 7)
  /-- CPOST (R231): Posts a packet into a copy queue. -/
  | cpost (sa : Bool) (b : BitVec 7) (a : BitVec 7) (d : BitVec 7)
  /-- SACQ (R234): Waits on a semaphore count and subtracts it. -/
  | sacq (sa : Bool) (b : BitVec 7) (a : BitVec 7) (d : BitVec 7)
  /-- SADD (R234): Adds to a local or remote semaphore. -/
  | sadd (sa : Bool) (b : BitVec 7) (a : BitVec 7) (d : BitVec 7)
  /-- SSET (R234): Sets a semaphore. -/
  | sset (sa : Bool) (b : BitVec 7) (a : BitVec 7)
  /-- SRD (R234): Reads a semaphore. -/
  | srd (sa : Bool) (a : BitVec 7) (d : BitVec 7)
  /-- CBGET (R235): Waits for the oldest filled circular-buffer entry and takes it. -/
  | cbget (sa : Bool) (a : BitVec 7) (d : BitVec 7)
  /-- CBPUT (R235): Claims a circular-buffer entry and copies into it. -/
  | cbput (sa : Bool) (b : BitVec 7) (a : BitVec 7) (d : BitVec 7)
  /-- CBFREE (R235): Frees the oldest taken circular-buffer entry. -/
  | cbfree (sa : Bool) (a : BitVec 7)
  /-- VADD (R150): Element-wise add of vA and vB. -/
  | vadd (sa : Bool) (b : BitVec 7) (a : BitVec 7) (d : BitVec 7)
  /-- VSUB (R150): Element-wise subtract. -/
  | vsub (sa : Bool) (b : BitVec 7) (a : BitVec 7) (d : BitVec 7)
  /-- VMUL (R150): Element-wise multiply. -/
  | vmul (sa : Bool) (b : BitVec 7) (a : BitVec 7) (d : BitVec 7)
  /-- VFMA (R150): Fused multiply-add with vD as addend. -/
  | vfma (sa : Bool) (b : BitVec 7) (a : BitVec 7) (d : BitVec 7)
  /-- VFMS (R150): Fused multiply-subtract with vD. -/
  | vfms (sa : Bool) (b : BitVec 7) (a : BitVec 7) (d : BitVec 7)
  /-- VMIN (R150): Element-wise minimum. -/
  | vmin (sa : Bool) (b : BitVec 7) (a : BitVec 7) (d : BitVec 7)
  /-- VMAX (R150): Element-wise maximum. -/
  | vmax (sa : Bool) (b : BitVec 7) (a : BitVec 7) (d : BitVec 7)
  /-- VDIFF (R150): Element-wise absolute difference. -/
  | vdiff (sa : Bool) (b : BitVec 7) (a : BitVec 7) (d : BitVec 7)
  /-- VAND (R154): Bitwise AND of vector registers. -/
  | vand (sa : Bool) (b : BitVec 7) (a : BitVec 7) (d : BitVec 7)
  /-- VOR (R154): Bitwise OR of vector registers. -/
  | vor (sa : Bool) (b : BitVec 7) (a : BitVec 7) (d : BitVec 7)
  /-- VXOR (R154): Bitwise XOR of vector registers. -/
  | vxor (sa : Bool) (b : BitVec 7) (a : BitVec 7) (d : BitVec 7)
  /-- VSHL (R155): Element-wise left shift. -/
  | vshl (sa : Bool) (b : BitVec 7) (a : BitVec 7) (d : BitVec 7)
  /-- VSRL (R155): Element-wise logical right shift. -/
  | vsrl (sa : Bool) (b : BitVec 7) (a : BitVec 7) (d : BitVec 7)
  /-- VSRA (R155): Element-wise arithmetic right shift. -/
  | vsra (sa : Bool) (b : BitVec 7) (a : BitVec 7) (d : BitVec 7)
  /-- VSEL (R156): Selects lanes of vA or vB under k1. -/
  | vsel (sa : Bool) (b : BitVec 7) (a : BitVec 7) (d : BitVec 7)
  /-- VRELU (R154): Element-wise rectifier. -/
  | vrelu (sa : Bool) (a : BitVec 7) (d : BitVec 7)
  /-- VMOV (R157): Copies vS with its tag and scale to vD. -/
  | vmov (s : BitVec 5) (d : BitVec 6)
  /-- VADD_C16 (R76): 16-bit form of VADD with A = D. -/
  | vaddC16 (s : BitVec 5) (d : BitVec 6)
  /-- VSUB_C16 (R76): 16-bit form of VSUB. -/
  | vsubC16 (s : BitVec 5) (d : BitVec 6)
  /-- VMUL_C16 (R76): 16-bit form of VMUL. -/
  | vmulC16 (s : BitVec 5) (d : BitVec 6)
  /-- VMIN_C16 (R76): 16-bit form of VMIN. -/
  | vminC16 (s : BitVec 5) (d : BitVec 6)
  /-- VMAX_C16 (R76): 16-bit form of VMAX. -/
  | vmaxC16 (s : BitVec 5) (d : BitVec 6)
  /-- VAND_C16 (R76): 16-bit form of VAND. -/
  | vandC16 (s : BitVec 5) (d : BitVec 6)
  /-- VOR_C16 (R76): 16-bit form of VOR. -/
  | vorC16 (s : BitVec 5) (d : BitVec 6)
  /-- VXOR_C16 (R76): 16-bit form of VXOR. -/
  | vxorC16 (s : BitVec 5) (d : BitVec 6)
  /-- VSHL_C16 (R76): 16-bit form of VSHL. -/
  | vshlC16 (s : BitVec 5) (d : BitVec 6)
  /-- VSRL_C16 (R76): 16-bit form of VSRL. -/
  | vsrlC16 (s : BitVec 5) (d : BitVec 6)
  /-- VSRA_C16 (R76): 16-bit form of VSRA. -/
  | vsraC16 (s : BitVec 5) (d : BitVec 6)
  /-- VNEG (R157): Negates each element of vS into vD. -/
  | vneg (s : BitVec 5) (d : BitVec 6)
  /-- VABS (R157): Absolute value of each element of vS. -/
  | vabs (s : BitVec 5) (d : BitVec 6)
  /-- VRELU_C16 (R76): 16-bit form of VRELU with A = S. -/
  | vreluC16 (s : BitVec 5) (d : BitVec 6)
  /-- VSWAP (R157): Exchanges two vector registers with tags, scales and full bits. -/
  | vswap (s : BitVec 5) (d : BitVec 6)
  /-- VCEQ (R158): Sets mask bits where lanes are equal. -/
  | vceq (sa : Bool) (b : BitVec 7) (a : BitVec 7) (d : BitVec 3)
  /-- VCNE (R158): Sets mask bits where lanes differ. -/
  | vcne (sa : Bool) (b : BitVec 7) (a : BitVec 7) (d : BitVec 3)
  /-- VCLT (R158): Sets mask bits where vA < vB. -/
  | vclt (sa : Bool) (b : BitVec 7) (a : BitVec 7) (d : BitVec 3)
  /-- VCLE (R158): Sets mask bits where vA <= vB. -/
  | vcle (sa : Bool) (b : BitVec 7) (a : BitVec 7) (d : BitVec 3)
  /-- KAND (R158): ANDs two masks. -/
  | kand (b : BitVec 3) (a : BitVec 3) (d : BitVec 3)
  /-- KOR (R158): ORs two masks. -/
  | kor (b : BitVec 3) (a : BitVec 3) (d : BitVec 3)
  /-- KNOT (R158): Inverts a mask. -/
  | knot (a : BitVec 3) (d : BitVec 3)
  /-- VCVT_RNE (R159): Converts elements to a target tag, round to nearest even. -/
  | vcvtRne (sa : Bool) (tag : BitVec 4) (a : BitVec 7) (d : BitVec 7)
  /-- VCVT_RTZ (R159): Converts elements, round toward zero. -/
  | vcvtRtz (sa : Bool) (tag : BitVec 4) (a : BitVec 7) (d : BitVec 7)
  /-- VCVT_RDN (R159): Converts elements, round down. -/
  | vcvtRdn (sa : Bool) (tag : BitVec 4) (a : BitVec 7) (d : BitVec 7)
  /-- VCVT_RUP (R159): Converts elements, round up. -/
  | vcvtRup (sa : Bool) (tag : BitVec 4) (a : BitVec 7) (d : BitVec 7)
  /-- VCVT_SR (R159): Converts elements with stochastic rounding. -/
  | vcvtSr (sa : Bool) (tag : BitVec 4) (a : BitVec 7) (d : BitVec 7)
  /-- VCVT_SATRNE (R159): Converts elements, saturating round to nearest. -/
  | vcvtSatrne (sa : Bool) (tag : BitVec 4) (a : BitVec 7) (d : BitVec 7)
  /-- VEXP2 (R160): Correctly rounded 2^x per element. -/
  | vexp2 (sa : Bool) (a : BitVec 7) (d : BitVec 7)
  /-- VLOG2 (R160): Correctly rounded log2 per element. -/
  | vlog2 (sa : Bool) (a : BitVec 7) (d : BitVec 7)
  /-- VRCP (R160): Correctly rounded reciprocal per element. -/
  | vrcp (sa : Bool) (a : BitVec 7) (d : BitVec 7)
  /-- VRSQ (R160): Correctly rounded reciprocal square root. -/
  | vrsq (sa : Bool) (a : BitVec 7) (d : BitVec 7)
  /-- VSQRT (R160): Correctly rounded square root. -/
  | vsqrt (sa : Bool) (a : BitVec 7) (d : BitVec 7)
  /-- VTANH (R160): Correctly rounded tanh. -/
  | vtanh (sa : Bool) (a : BitVec 7) (d : BitVec 7)
  /-- VEXP (R160): Correctly rounded e^x. -/
  | vexp (sa : Bool) (a : BitVec 7) (d : BitVec 7)
  /-- VSIGM (R160): Correctly rounded logistic sigmoid. -/
  | vsigm (sa : Bool) (a : BitVec 7) (d : BitVec 7)
  /-- VRSUM (R163): Lane reduction sum in a fixed tree, result to RRES. -/
  | vrsum (sa : Bool) (b : BitVec 3) (a : BitVec 7) (d : BitVec 7)
  /-- VRMAX (R164): Lane reduction maximum to RRES. -/
  | vrmax (sa : Bool) (b : BitVec 3) (a : BitVec 7) (d : BitVec 7)
  /-- VRMIN (R164): Lane reduction minimum to RRES. -/
  | vrmin (sa : Bool) (b : BitVec 3) (a : BitVec 7) (d : BitVec 7)
  /-- VRAMX (R164): Lane reduction argmax to RRES. -/
  | vramx (sa : Bool) (b : BitVec 3) (a : BitVec 7) (d : BitVec 7)
  /-- VSCAN (R165): Inclusive running sum across elements. -/
  | vscan (sa : Bool) (b : BitVec 3) (a : BitVec 7) (d : BitVec 7)
  /-- VPERM (R166): Permutes lanes of vA by indices in vB. -/
  | vperm (sa : Bool) (b : BitVec 7) (a : BitVec 7) (d : BitVec 7)
  /-- VSORT (R167): Sorts lanes and writes their original indices. -/
  | vsort (sa : Bool) (b : BitVec 3) (a : BitVec 7) (d : BitVec 7)
  /-- VSPLAT (R168): Replicates gA into every element with a tag. -/
  | vsplat (sa : Bool) (tag : BitVec 4) (a : BitVec 7) (d : BitVec 7)
  /-- VINS (R168): Inserts gA into one element of vD. -/
  | vins (sa : Bool) (b : BitVec 7) (a : BitVec 7) (d : BitVec 7)
  /-- VEXT (R168): Extracts one element of vA into gD. -/
  | vext (sa : Bool) (b : BitVec 7) (a : BitVec 7) (d : BitVec 7)
  /-- VIDX (R168): Writes an index sequence starting at gA. -/
  | vidx (sa : Bool) (tag : BitVec 4) (a : BitVec 7) (d : BitVec 7)
  /-- VTAG (R168): Copies vA's bits under a new tag. -/
  | vtag (sa : Bool) (tag : BitVec 4) (a : BitVec 7) (d : BitVec 7)
  /-- VQNT (R169): Quantises an activation vector to FP8 with a shared scale. -/
  | vqnt (sa : Bool) (tag : BitVec 4) (a : BitVec 7) (d : BitVec 7)
  /-- KPOP (R168): Counts the one bits of a mask. -/
  | kpop (a : BitVec 3) (d : BitVec 7)
  /-- KMOV_TO_MASK (R168): Moves gA[31:0] into a mask. -/
  | kmovToMask (sa : Bool) (a : BitVec 7) (d : BitVec 3)
  /-- KMOV_FROM_MASK (R168): Moves a mask into gD. -/
  | kmovFromMask (a : BitVec 3) (d : BitVec 7)
  /-- MMA (R183): Multiplies two operand slots into an accumulator and parks until done. -/
  | mma (b : BitVec 4) (a : BitVec 4) (d : BitVec 2)
  /-- MMZ (R183): Clears an accumulator and multiplies into it. -/
  | mmz (b : BitVec 4) (a : BitVec 4) (d : BitVec 2)
  /-- AREAD (R185): Reads an accumulator row into vector registers. -/
  | aread (b : BitVec 7) (a : BitVec 2) (d : BitVec 7)
  /-- AZERO (R185): Queues clearing of an accumulator. -/
  | azero (d : BitVec 2)
  /-- OCLM (R177): Claims an operand slot for fill or receipt. -/
  | oclm (dir : BitVec 3) (d : BitVec 4)
  /-- OREL (R178): Frees an owned operand slot after its work ends. -/
  | orel (d : BitVec 4)
  /-- OFILL (R179): Posts a fill of an operand slot from memory. -/
  | ofill (sa : Bool) (b : BitVec 7) (a : BitVec 7) (d : BitVec 4)
  /-- OPASS (R181): Posts a send of a slot's operand down an operand string. -/
  | opass (dir : BitVec 3) (a : BitVec 4)
  /-- SPUP (R200): Evaluates a subtree upward into the scratch. -/
  | spup (sa : Bool) (b : BitVec 7) (a : BitVec 7) (d : BitVec 7)
  /-- SPDN (R201): Carries adjoints down a subtree. -/
  | spdn (sa : Bool) (b : BitVec 7) (a : BitVec 7) (d : BitVec 7)
  /-- SPLD (R203): Loads 32 scratch words into vD. -/
  | spld (sa : Bool) (a : BitVec 7) (d : BitVec 7)
  /-- SPST (R203): Stores vD into 32 scratch words. -/
  | spst (sa : Bool) (a : BitVec 7) (d : BitVec 7)
  /-- SPGET (R204): Reads one scratch word into gD. -/
  | spget (sa : Bool) (a : BitVec 7) (d : BitVec 7)
  /-- SPPUT (R204): Writes one scratch word. -/
  | spput (sa : Bool) (b : BitVec 7) (a : BitVec 7)
  /-- SPCLR (R205): Clears 1 to 64 scratch words. -/
  | spclr (sa : Bool) (b : BitVec 7) (a : BitVec 7)
  /-- SPWAIT (R206): Waits for earlier SPE work and returns the conflict count. -/
  | spwait (d : BitVec 7)
  /-- BQGET (R192): Draws the next block index from a block queue. -/
  | bqget (sa : Bool) (a : BitVec 7) (d : BitVec 7)
  /-- BADDQ (R193): Adds two scaled E4M3 blocks and requantises. -/
  | baddq (sa : Bool) (b : BitVec 7) (a : BitVec 7) (d : BitVec 7)
  /-- BQDONE (R192): Counts one finished block of a queue. -/
  | bqdone (sa : Bool) (a : BitVec 7) (d : BitVec 7)
  /-- BQINIT (R192): Initialises a block queue. -/
  | bqinit (sa : Bool) (b : BitVec 7) (a : BitVec 7) (d : BitVec 7)
  /-- RAND (R170): Computes Mix32 of key and counter into gD. -/
  | rand (sa : Bool) (b : BitVec 7) (a : BitVec 7) (d : BitVec 7)
  /-- VRAND (R170): Computes Mix32 per lane into vD. -/
  | vrand (sa : Bool) (b : BitVec 7) (a : BitVec 7) (d : BitVec 7)
  /-- MARM_OFF (R138): Disarms the context's monitor. -/
  | marmOff
  /-- ECALL (R120): Raises ECALL. -/
  | ecall
  /-- BRK (R120): Raises BRK. -/
  | brk
  /-- RETT (R120): Returns from a trap handler to TRAPPC. -/
  | rett
  /-- HALT (R120): Waits for pending results, then stops the context. -/
  | halt
  /-- YIELD (R120): Takes a pending pre-emption, otherwise no effect. -/
  | yield
  /-- SAVE_CONTEXT (R367): PRECMD SAVE with SCOPE 0 saves one context to its area. -/
  | saveContext (n : Nat)
  /-- SAVE_CORE (R371): PRECMD SAVE with SCOPE 1 saves a whole core. -/
  | saveCore (n : Nat)
  /-- RESTORE_CONTEXT (R370): PRECMD RESTORE with SCOPE 0 restores one context. -/
  | restoreContext (n : Nat)
  /-- RESTORE_CORE (R371): PRECMD RESTORE with SCOPE 1 restores a whole core. -/
  | restoreCore (n : Nat)
  /-- FQANS (R356): An MTS of FQANS answers a fault-queue entry and readies its context. -/
  | fqans (part : Nat) (entry : BitVec 32)
  /-- MIGPOOL (R352): An MTS of MIGPOOL adds a frame to a die's migration pool. -/
  | migpool (part : Nat) (frame : Word)
  /-- LONG_LATENCY_RESULT (R24): A pending long-latency result arrives and is written as an ordinary write. -/
  | longLatencyResult (n : Nat)
  /-- MESSAGE_ARRIVAL (R21): A message reaches the core's interface and is deposited, held or spilled. -/
  | messageArrival (n : Nat)
  /-- DEPOSIT_RETRY (R21): A waiting deposit is applied once its full bit clears or class is bound. -/
  | depositRetry (core : Nat)
  /-- REDUCTION_COMPLETE (R27): A lane reduction completes and writes RRES or holds its result. -/
  | reductionComplete (core : Nat)
  /-- TRAP_ENTRY (R119): After pending results arrive, the trap registers are written and the handler entered or the context stopped. -/
  | trapEntry (core slot : Nat)
  /-- WAITLIM_EXPIRY (R38): A wait bounded by WLIM passes its expiry instant and traps. -/
  | waitlimExpiry (core slot : Nat)
  /-- DEADLINE_EXPIRY (R38): A wait bounded by DLINE passes its deadline and traps. -/
  | deadlineExpiry (core slot : Nat)
  /-- WAITC_EXPIRY (R37): A cycle-counted wait ends and the context becomes ready. -/
  | waitcExpiry (core slot : Nat)
  /-- WAITW_EXPIRY (R37): A wall-time wait reaches its instant and the context becomes ready. -/
  | waitwExpiry (core slot : Nat)
  /-- CLOCK_HALT (R40): A core's supply falls below 0.60 V and its clock stops. -/
  | clockHalt (core : Nat)
  /-- CLOCK_RESUME (R41): The clock restarts and passed deadlines are taken in order. -/
  | clockResume (core : Nat)
  /-- ACCESS_PERFORM (R251): An access arrives at its owning port and performs there. -/
  | accessPerform (n piece : Nat)
  /-- PORT_WITHDRAWAL (R131): At the end of wall ns E an unserved synchronising request is withdrawn at the port. -/
  | portWithdrawal (n : Nat)
  /-- WITHDRAWAL_ARRIVAL (R131): The withdrawal reaches the core and the LDF or STF.E traps. -/
  | withdrawalArrival (n : Nat)
  /-- MONITOR_FIRE (R139): A monitor's fire reaches its context and wakes SLEEPM. -/
  | monitorFire (n : Nat)
  /-- FENCE_MARKER (R259): A fence marker reaches a die and is held until the counted writes arrive. -/
  | fenceMarker (n : Nat)
  /-- FENCE_MARKER_ACK (R259): A marker acknowledgement reaches the fencing core. -/
  | fenceMarkerAck (n : Nat)
  /-- TRANSIENT_REQUEST (R255): A transient token request reaches the home, which answers and asks holders. -/
  | transientRequest (n : Nat)
  /-- TRANSIENT_RETRY (R255): An unsatisfied transient request is retried after 250 ns. -/
  | transientRetry (n : Nat)
  /-- PERSISTENT_REQUEST (R256): An escalated request enters the home die's persistent-request table. -/
  | persistentRequest (n : Nat)
  /-- PERSISTENT_DEACTIVATION (R256): After the requester performs, its entry is deactivated and freed. -/
  | persistentDeactivation (die n : Nat)
  /-- TOKEN_MESSAGE (R254): A message carrying tokens, and possibly data, reaches a holder. -/
  | tokenMessage (n : Nat)
  /-- SOFT_DIRECTORY_HINT (R255): A hint flit updates a home's soft directory. -/
  | softDirectoryHint (line core : Nat)
  /-- WRITE_BACK (R257): A dirty line with its owner token returns to its home slice. -/
  | writeBack (core line : Nat)
  /-- WRITE_BACK_BUFFER_DRAIN (R257): An entry of the slice write-back buffer drains to the memory controller. -/
  | writeBackBufferDrain (slice : Nat)
  /-- LINK_SLEEP (R266): An idle die link is put to sleep by firmware's power policy. -/
  | linkSleep (die far : Nat)
  /-- LINK_WAKE (R266): A request to a sleeping link starts its wake. -/
  | linkWake (die far : Nat)
  /-- LINK_WAKE_COMPLETE (R266): A waking link becomes active. -/
  | linkWakeComplete (die far : Nat)
  /-- HEARTBEAT (R266): A die sends or receives a link heartbeat. -/
  | heartbeat (die far : Nat)
  /-- DIE_LOST (R388): 64 µs without heartbeat declares a die lost. -/
  | dieLost (die : Nat)
  /-- FLIT_UNCORRECTABLE (R268): A flit fails after link-level retry and its receiver acts on its contents. -/
  | flitUncorrectable (carried : FlitCargo) (link : Nat) (seq : BitVec 12)
  /-- RECOUNT_REPLY (R269): Holder replies arrive and the line is restored or poisoned. -/
  | recountReply (line : Nat)
  /-- LANDING_REQUEST (R263): A landing request reaches the anchor die and reserves a slot. -/
  | landingRequest (n : Nat)
  /-- LANDING (R262): The shipped state arrives and the context resumes on the landing core. -/
  | landing (n : Nat)
  /-- FAULT_SWEEP (R355): Run-ahead stops, writes the batch to the fault queue and parks the context. `runAhead` is the batch, the page
  words that run-ahead has found. -/
  | faultSweep (core slot : Nat) (runAhead : List Word)
  /-- COPY_NOTIFICATION (R303): A notification for a queue index reaches its copy engine. -/
  | copyNotification (n : Nat)
  /-- PACKET_START (R233): A copy engine starts the next packet of a queue. -/
  | packetStart (cluster queue : Nat)
  /-- PACKET_COMPLETE (R233): A packet completes: record, signal, RDIDX advance. -/
  | packetComplete (n : Nat)
  /-- FILL_COMPLETE (R179): An operand-slot fill ends, making the slot FULL or FAULTED. -/
  | fillComplete (n : Nat)
  /-- STRING_MATCH (R181): A send is matched to the neighbour's oldest RECV claim. -/
  | stringMatch (core : Nat) (dir : BitVec 3)
  /-- STRING_DELIVERY (R182): A matched string transfer completes and fills the receiving slot. -/
  | stringDelivery (n : Nat)
  /-- ARRAY_ENTRY_START (R183): The array begins a queued entry once its slots are FULL. -/
  | arrayEntryStart (core : Nat)
  /-- ARRAY_ENTRY_COMPLETE (R183): The array finishes an entry and readies its issuer. -/
  | arrayEntryComplete (core : Nat)
  /-- SPE_ENGINE_FINISH (R208): A sum-product engine instruction finishes its engine cycles. -/
  | speEngineFinish (core n : Nat)
  /-- SEMAPHORE_SIGNAL (R234): A SADD or completion signal arrives at a semaphore and serves waiters. -/
  | semaphoreSignal (n : Nat)
  /-- STREAM_ELEMENT_FETCH (R227): A read generator fetches an element ahead of its pops. -/
  | streamElementFetch (core gen : Nat)
  /-- STREAM_ELEMENT_WRITE (R227): A write generator's appended element performs or faults. -/
  | streamElementWrite (core gen : Nat)
  /-- WINNOW_SAMPLE (R226): At each levelling interval cores sample counts and ship work items. -/
  | winnowSample (launch : Nat)
  /-- WINNOW_SHIPMENT_ARRIVAL (R302): Shipped work items are appended at the neighbour's tail. -/
  | winnowShipmentArrival (n : Nat)
  /-- BARRIER_ARRIVAL (R223): An arrival or member stop reaches a group's barrier word. -/
  | barrierArrival (n : Nat)
  /-- BLOCK_QUEUE_REQUEST (R192): A BQINIT, BQGET or BQDONE request is served at its queue. -/
  | blockQueueRequest (n : Nat)
  /-- FLIT_INJECTION (R304): At an owned TDM slot a port sends its partition's oldest flit. -/
  | flitInjection (cluster : Nat)
  /-- FLIT_DELIVERY (R45): An on-die flit reaches its destination interface. -/
  | flitDelivery (n : Nat)
  /-- MIGRATION (R361): An accepted page migration runs its sequence to completion or abort. -/
  | migration (n : Nat) (verified : Bool)
  /-- METER_WINDOW (R340): A meter window boundary admits waiting requests of a VF. -/
  | meterWindow (vf : Nat)
  /-- LAUNCH_START (R343): The dispatcher takes a queue head and starts its launch. -/
  | launchStart (part : Nat)
  /-- LAUNCH_END (R346): A launch ends, its contexts are stopped and reaped. -/
  | launchEnd (part launch : Nat)
  /-- DEFERRED_REAP (R346): A reap deferred for in-flight copies completes. -/
  | deferredReap (core slot : Nat)
  /-- CREATE (R333): Partition-control OP 1 creates a partition. -/
  | create
  /-- GROW (R333): Partition-control OP 2 adds units. -/
  | grow
  /-- SHRINK (R333): Partition-control OP 3 removes units. -/
  | shrink
  /-- DESTROY (R337): Partition-control OP 4 ends a partition and clears its state. -/
  | destroy
  /-- VFMAP (R333): Partition-control OP 5 adds or removes a VF. -/
  | vfmap
  /-- VFMETER (R339): Partition-control OP 6 sets a VF's meters. -/
  | vfmeter
  /-- KILL (R346): Partition-control OP 7 ends a launch. -/
  | kill
  /-- CHECKPOINT (R393): Partition-control OP 8 writes a consistent image to the granary. -/
  | checkpoint
  /-- RESTORE (R394): Partition-control OP 9 restores a partition from the granary. -/
  | restore
  /-- CFGRD (R376): Host configuration register read. -/
  | cfgrd (addr : Word)
  /-- CFGWR (R376): Host configuration register write. -/
  | cfgwr (addr value : Word)
  /-- CAPABILITY_READ (R329): MGMT function 1 returns capability table bytes. -/
  | capabilityRead (offset length : Nat)
  /-- CONTROL_POST (R332): MGMT function 2 posts a partition-control command. -/
  | controlPost (packet : List Word)
  /-- ATTESTATION (R400): MGMT function 3 returns a signed quote over the measurements. -/
  | attestation (nonce : BitVec 384)
  /-- ERROR_LOG_READ (R390): MGMT function 4 returns package-log records. -/
  | errorLogRead (first : Word) (count : BitVec 32)
  /-- MGMT_REFUSED (R380): An MGMT with an unknown function code is refused with 0xFD. -/
  | mgmtRefused (code : Word)
  /-- POST (R376): A host POST claims a queue slot and writes a packet. -/
  | post (vf : Nat) (queue : Word) (packet : List Word)
  /-- HMRD_COMPLETION (R376): Host memory read data returns to the device. -/
  | hmrdCompletion (addr : Word) (data : List Byte)
  /-- HMWR_COMPLETION (R376): The host completes a host memory write. -/
  | hmwrCompletion (n : Nat)
  /-- HAMO_ANSWER (R377): The host returns the old value of a host atomic. -/
  | hamoAnswer (n : Nat) (old : Word)
  /-- TGRANT (R378): The host grants a line state to the host proxy. -/
  | tgrant (line : Nat) (exclusive : Bool)
  /-- TSNP (R378): A host snoop makes the proxy collect tokens and lower its grant. -/
  | tsnp (line : Nat) (exclusive : Bool)
  /-- XINV (R379): A host broadcast invalidation is applied as TLBINV. -/
  | xinv (vf : Nat) (addr : Word) (size : BitVec 2)
  /-- XSYNC (R379): A host synchronisation is answered with XSYNCACK once earlier XINVs apply. -/
  | xsync (number : Word)
  /-- PEER_FLIT (R381): A peer-link flit is received and accepted in SEQ order. -/
  | peerFlit (link : Nat) (header : Word) (payload : List Byte) (crcGood : Bool)
  /-- NACK (R382): A NACK makes the sender replay from ACKSEQ + 1. -/
  | nack (link : Nat) (ackSeq : BitVec 12)
  /-- LINK_RETRAIN (R382): After 8 failed replays a peer link retrains. -/
  | linkRetrain (link : Nat) (delivered : Bool)
  /-- LINK_DOWN (R382): A peer link silent for 64 µs is declared down. -/
  | linkDown (link : Nat)
  /-- SOFT_ERROR (R384): A correctable error is corrected in place and logged. -/
  | softError (store : BitVec 8) (where_ : ErrorPlace)
  /-- UNCORRECTABLE_ERROR (R384): An uncorrectable storage error poisons data or stops a context or core. -/
  | uncorrectableError (store : BitVec 8) (where_ : ErrorPlace)
  /-- PATROL_SCRUB (R384): The patrol scrubber reads and corrects a word. -/
  | patrolScrub (key : Nat) (found : ScrubFinding)
  /-- PACKAGE_RESET (R401): Reset release runs bring-up with measurement and training. -/
  | packageReset (images : List (BitVec 384)) (signed : List Bool) (standby : Bool)
  /-- ILLEGAL_ENCODING (R87): A fetched encoding that is not an instruction raises ILLEGAL at the context's turn and has no other effect. -/
  | illegalEncoding (word : BitVec 32)
  /-- CORE_RAIL_LOSS (R391): The core rail is lost while the 48 V input stays present, and the granary's LPDDR6 holds its contents in self-refresh on the standby rail. -/
  | coreRailLoss
  /-- LANE_REPAIR (R375): A UCIe lane failure on the host port is repaired with a redundant lane, or its module falls to 32 lanes or is disabled. -/
  | laneRepair (module_ : Nat) (outcome : LaneOutcome)
  /-- FQRD (R352): An MTS of FQRD consumes fault-queue entries and lets a waiting entry be written into the freed room. -/
  | fqrd (part : Nat) (value : BitVec 32)
  /-- TRRD (R395): An MTS of TRRD consumes trace records and releases accesses held at ports by a full trace ring. -/
  | trrd (part : Nat) (value : BitVec 32)
  /-- KRRD (R397): An MTS of KRRD consumes Krovton records and releases inputs held, and protocol credit withheld, by a full ring. -/
  | krrd (part : Nat) (value : BitVec 32)
  deriving DecidableEq, Repr

end Sys2Proof
end

