-- ==== Sys2Proof/WellFormed.lean ====
section
/-! DEFINITION. What the type of an instruction does not already say about its legal encodings (R81, R86, R87, R157,
R176): the checks of step 3 of R89 that depend on a field's value. -/
namespace Sys2Proof

/-- System register numbers below 0x100 that some chapter's register table assigns (R115, R195, R260). -/
def assignedLow (n : Nat) : Bool := n ≤ 0x18 || n == 0x20

/-- Of those, the registers a program may only read (R33, R115, R260). -/
def readOnlyLow (n : Nat) : Bool :=
  n ≤ 3 || n == 6 || n == 7 || n == 8 || n == 9 || n == 0xF || n == 0x10 || n == 0x11 || n == 0x18

/-- MFS: ILLEGAL by its bits for an unassigned number below 0x100 (R86). -/
def mfsNumber (n : Nat) : Bool := 0x100 ≤ n || assignedLow n

/-- MTS: ILLEGAL by its bits for an unassigned or a read-only number below 0x100 (R86). -/
def mtsNumber (n : Nat) : Bool := 0x100 ≤ n || (assignedLow n && !readOnlyLow n)

/-- Whether the instruction's field values form a legal encoding. Everything else R87 refuses cannot be written as an
`Instr` at all; an event has no encoding and no such check. -/
def Instr.wellFormed : Instr → Bool
  | .vmov s d => !(s == 0 && d == 0)
  | .mfs sys _ => mfsNumber sys.toNat
  | .mts sys _ => mtsNumber sys.toNat
  | .oclm dir _ => decide (dir.toNat ≤ 4)
  | .opass dir _ => decide (1 ≤ dir.toNat) && decide (dir.toNat ≤ 4)
  | _ => true

end Sys2Proof
end

