-- ==== Sys2Proof/Decode.lean ====
section
/-! DEFINITION. Decoding (R71, R74 to R87), total on any bytes, and the encoder written from the same encodings.
A refused encoding is one that R87 makes ILLEGAL; the reason is named. Words are natural numbers here, bit n of the
word being bit n of the number, so that a field [hi:lo] is w / 2^lo mod 2^(hi - lo + 1). -/
namespace Sys2Proof

/-- Why a halfword or word is not an instruction (R87). -/
inductive DecodeError where
  /-- Halfword 0x0000. -/
  | zeroHalfword
  /-- OP 0 or OP 61 to 63. -/
  | noOpcode
  /-- An FN, WX, AOP or KIND value marked illegal in R77 to R80. -/
  | noFunction
  /-- A field that must be zero is not, a register number lies beyond its class (R81), SA is 1 where R83 forbids it,
  LA is nonzero on a major of R84, or a system register number R86 refuses at step 3. -/
  | badField
  /-- Fewer bytes than the instruction has. -/
  | truncated
  deriving DecidableEq, Repr

/-- The n-bit field of w whose lowest bit is bit lo, as a number. -/
def field (lo n w : Nat) : Nat := w / 2^lo % 2^n

/-- The n-bit field of w whose lowest bit is bit lo, as bits. -/
def bits (n lo w : Nat) : BitVec n := BitVec.ofNat n (w / 2^lo)

/-- Bit lo of w. -/
def bitOf (lo w : Nat) : Bool := w / 2^lo % 2 == 1

/-- A field value standing at bit lo of a word. -/
def place (lo x : Nat) : Nat := x * 2^lo

/-- Major ALU, OP 1 (R77). -/
def decodeAlu (w : Nat) : Except DecodeError Instr :=
  match field 28 3 w with
  | 0 => .ok (.add (bitOf 31 w) (bits 7 21 w) (bits 7 14 w) (bits 7 7 w))
  | 1 => .ok (.sub (bitOf 31 w) (bits 7 21 w) (bits 7 14 w) (bits 7 7 w))
  | 2 => .ok (.and (bitOf 31 w) (bits 7 21 w) (bits 7 14 w) (bits 7 7 w))
  | 3 => .ok (.or (bitOf 31 w) (bits 7 21 w) (bits 7 14 w) (bits 7 7 w))
  | 4 => .ok (.xor (bitOf 31 w) (bits 7 21 w) (bits 7 14 w) (bits 7 7 w))
  | 5 => .ok (.sll (bitOf 31 w) (bits 7 21 w) (bits 7 14 w) (bits 7 7 w))
  | 6 => .ok (.srl (bitOf 31 w) (bits 7 21 w) (bits 7 14 w) (bits 7 7 w))
  | 7 => .ok (.sra (bitOf 31 w) (bits 7 21 w) (bits 7 14 w) (bits 7 7 w))
  | _ => .error .noFunction

/-- Major ALUW, OP 2 (R77). -/
def decodeAluw (w : Nat) : Except DecodeError Instr :=
  match field 28 3 w with
  | 0 => .ok (.addw (bitOf 31 w) (bits 7 21 w) (bits 7 14 w) (bits 7 7 w))
  | 1 => .ok (.subw (bitOf 31 w) (bits 7 21 w) (bits 7 14 w) (bits 7 7 w))
  | 2 => .ok (.sllw (bitOf 31 w) (bits 7 21 w) (bits 7 14 w) (bits 7 7 w))
  | 3 => .ok (.srlw (bitOf 31 w) (bits 7 21 w) (bits 7 14 w) (bits 7 7 w))
  | 4 => .ok (.sraw (bitOf 31 w) (bits 7 21 w) (bits 7 14 w) (bits 7 7 w))
  | 5 => .ok (.slt (bitOf 31 w) (bits 7 21 w) (bits 7 14 w) (bits 7 7 w))
  | 6 => .ok (.sltu (bitOf 31 w) (bits 7 21 w) (bits 7 14 w) (bits 7 7 w))
  | 7 => .ok (.andn (bitOf 31 w) (bits 7 21 w) (bits 7 14 w) (bits 7 7 w))
  | _ => .error .noFunction

/-- Major ALUX, OP 3 (R77). -/
def decodeAlux (w : Nat) : Except DecodeError Instr :=
  match field 28 3 w with
  | 0 => .ok (.min (bitOf 31 w) (bits 7 21 w) (bits 7 14 w) (bits 7 7 w))
  | 1 => .ok (.max (bitOf 31 w) (bits 7 21 w) (bits 7 14 w) (bits 7 7 w))
  | 2 => .ok (.minu (bitOf 31 w) (bits 7 21 w) (bits 7 14 w) (bits 7 7 w))
  | 3 => .ok (.maxu (bitOf 31 w) (bits 7 21 w) (bits 7 14 w) (bits 7 7 w))
  | 4 => if field 21 7 w = 0 then .ok (.clz (bitOf 31 w) (bits 7 14 w) (bits 7 7 w)) else .error .badField
  | 5 => if field 21 7 w = 0 then .ok (.ctz (bitOf 31 w) (bits 7 14 w) (bits 7 7 w)) else .error .badField
  | 6 => if field 21 7 w = 0 then .ok (.popc (bitOf 31 w) (bits 7 14 w) (bits 7 7 w)) else .error .badField
  | 7 => if field 21 7 w = 0 then .ok (.brev (bitOf 31 w) (bits 7 14 w) (bits 7 7 w)) else .error .badField
  | _ => .error .noFunction

/-- Major MULX, OP 4 (R77). -/
def decodeMulx (w : Nat) : Except DecodeError Instr :=
  match field 28 3 w with
  | 0 => .ok (.mul (bitOf 31 w) (bits 7 21 w) (bits 7 14 w) (bits 7 7 w))
  | 1 => .ok (.mulh (bitOf 31 w) (bits 7 21 w) (bits 7 14 w) (bits 7 7 w))
  | 2 => .ok (.mulhu (bitOf 31 w) (bits 7 21 w) (bits 7 14 w) (bits 7 7 w))
  | 3 => .ok (.mulw (bitOf 31 w) (bits 7 21 w) (bits 7 14 w) (bits 7 7 w))
  | 4 => if field 21 7 w = 0 then .ok (.sexb (bitOf 31 w) (bits 7 14 w) (bits 7 7 w)) else .error .badField
  | 5 => if field 21 7 w = 0 then .ok (.sexh (bitOf 31 w) (bits 7 14 w) (bits 7 7 w)) else .error .badField
  | 6 => if field 21 7 w = 0 then .ok (.sexw (bitOf 31 w) (bits 7 14 w) (bits 7 7 w)) else .error .badField
  | 7 => if field 21 7 w = 0 then .ok (.zexw (bitOf 31 w) (bits 7 14 w) (bits 7 7 w)) else .error .badField
  | _ => .error .noFunction

/-- Major SHI, OP 9 (R77). -/
def decodeShi (w : Nat) : Except DecodeError Instr :=
  match field 28 3 w with
  | 0 => if field 27 1 w = 0 then .ok (.slli (bitOf 31 w) (bits 6 21 w) (bits 7 14 w) (bits 7 7 w)) else .error .badField
  | 1 => if field 27 1 w = 0 then .ok (.srli (bitOf 31 w) (bits 6 21 w) (bits 7 14 w) (bits 7 7 w)) else .error .badField
  | 2 => if field 27 1 w = 0 then .ok (.srai (bitOf 31 w) (bits 6 21 w) (bits 7 14 w) (bits 7 7 w)) else .error .badField
  | 3 => if field 26 2 w = 0 then .ok (.sllwi (bitOf 31 w) (bits 5 21 w) (bits 7 14 w) (bits 7 7 w)) else .error .badField
  | 4 => if field 26 2 w = 0 then .ok (.srlwi (bitOf 31 w) (bits 5 21 w) (bits 7 14 w) (bits 7 7 w)) else .error .badField
  | 5 => if field 26 2 w = 0 then .ok (.srawi (bitOf 31 w) (bits 5 21 w) (bits 7 14 w) (bits 7 7 w)) else .error .badField
  | _ => .error .noFunction

/-- Major LOAD, OP 26 (R77). -/
def decodeLoad (w : Nat) : Except DecodeError Instr :=
  match field 21 4 w with
  | 0 => .ok (.lb (bits 4 28 w) (bits 2 26 w) (bitOf 25 w) (bits 7 14 w) (bits 7 7 w))
  | 1 => .ok (.lbz (bits 4 28 w) (bits 2 26 w) (bitOf 25 w) (bits 7 14 w) (bits 7 7 w))
  | 2 => .ok (.lh (bits 4 28 w) (bits 2 26 w) (bitOf 25 w) (bits 7 14 w) (bits 7 7 w))
  | 3 => .ok (.lhz (bits 4 28 w) (bits 2 26 w) (bitOf 25 w) (bits 7 14 w) (bits 7 7 w))
  | 4 => .ok (.lw (bits 4 28 w) (bits 2 26 w) (bitOf 25 w) (bits 7 14 w) (bits 7 7 w))
  | 5 => .ok (.lwz (bits 4 28 w) (bits 2 26 w) (bitOf 25 w) (bits 7 14 w) (bits 7 7 w))
  | 6 => .ok (.ld (bits 4 28 w) (bits 2 26 w) (bitOf 25 w) (bits 7 14 w) (bits 7 7 w))
  | 7 => .ok (.lv (bits 4 28 w) (bits 2 26 w) (bitOf 25 w) (bits 7 14 w) (bits 7 7 w))
  | 8 => .ok (.lvS32 (bits 4 28 w) (bits 2 26 w) (bitOf 25 w) (bits 7 14 w) (bits 7 7 w))
  | 9 => .ok (.lvZ32 (bits 4 28 w) (bits 2 26 w) (bitOf 25 w) (bits 7 14 w) (bits 7 7 w))
  | 10 => .ok (.lvF32 (bits 4 28 w) (bits 2 26 w) (bitOf 25 w) (bits 7 14 w) (bits 7 7 w))
  | 11 => .ok (.lvBf16 (bits 4 28 w) (bits 2 26 w) (bitOf 25 w) (bits 7 14 w) (bits 7 7 w))
  | 12 => .ok (.lvF16 (bits 4 28 w) (bits 2 26 w) (bitOf 25 w) (bits 7 14 w) (bits 7 7 w))
  | 13 => .ok (.lvS8 (bits 4 28 w) (bits 2 26 w) (bitOf 25 w) (bits 7 14 w) (bits 7 7 w))
  | 14 => .ok (.lvZ8 (bits 4 28 w) (bits 2 26 w) (bitOf 25 w) (bits 7 14 w) (bits 7 7 w))
  | 15 => .ok (.lvSp32 (bits 4 28 w) (bits 2 26 w) (bitOf 25 w) (bits 7 14 w) (bits 7 7 w))
  | _ => .error .noFunction

/-- Major STORE, OP 27 (R77). -/
def decodeStore (w : Nat) : Except DecodeError Instr :=
  match field 21 4 w with
  | 0 => if field 28 4 w = 0 then .ok (.sb (bits 2 26 w) (bitOf 25 w) (bits 7 14 w) (bits 7 7 w)) else .error .badField
  | 1 => if field 28 4 w = 0 then .ok (.sh (bits 2 26 w) (bitOf 25 w) (bits 7 14 w) (bits 7 7 w)) else .error .badField
  | 2 => if field 28 4 w = 0 then .ok (.sw (bits 2 26 w) (bitOf 25 w) (bits 7 14 w) (bits 7 7 w)) else .error .badField
  | 3 => if field 28 4 w = 0 then .ok (.sd (bits 2 26 w) (bitOf 25 w) (bits 7 14 w) (bits 7 7 w)) else .error .badField
  | 4 => if field 28 4 w = 0 then .ok (.sv (bits 2 26 w) (bitOf 25 w) (bits 7 14 w) (bits 7 7 w)) else .error .badField
  | _ => .error .noFunction

/-- Major AMO, OP 34 (R77). -/
def decodeAmo (w : Nat) : Except DecodeError Instr :=
  match field 21 4 w with
  | 0 => .ok (.amoSwap (bits 4 28 w) (bits 2 26 w) (bitOf 25 w) (bits 7 14 w) (bits 7 7 w))
  | 1 => .ok (.amoAdd (bits 4 28 w) (bits 2 26 w) (bitOf 25 w) (bits 7 14 w) (bits 7 7 w))
  | 2 => .ok (.amoAnd (bits 4 28 w) (bits 2 26 w) (bitOf 25 w) (bits 7 14 w) (bits 7 7 w))
  | 3 => .ok (.amoOr (bits 4 28 w) (bits 2 26 w) (bitOf 25 w) (bits 7 14 w) (bits 7 7 w))
  | 4 => .ok (.amoXor (bits 4 28 w) (bits 2 26 w) (bitOf 25 w) (bits 7 14 w) (bits 7 7 w))
  | 5 => .ok (.amoMin (bits 4 28 w) (bits 2 26 w) (bitOf 25 w) (bits 7 14 w) (bits 7 7 w))
  | 6 => .ok (.amoMax (bits 4 28 w) (bits 2 26 w) (bitOf 25 w) (bits 7 14 w) (bits 7 7 w))
  | 7 => .ok (.amoMinu (bits 4 28 w) (bits 2 26 w) (bitOf 25 w) (bits 7 14 w) (bits 7 7 w))
  | 8 => .ok (.amoMaxu (bits 4 28 w) (bits 2 26 w) (bitOf 25 w) (bits 7 14 w) (bits 7 7 w))
  | 9 => .ok (.amoCas (bits 4 28 w) (bits 2 26 w) (bitOf 25 w) (bits 7 14 w) (bits 7 7 w))
  | _ => .error .noFunction

/-- Major FENCE, OP 35 (R77). -/
def decodeFence (w : Nat) : Except DecodeError Instr :=
  match field 23 3 w with
  | 0 => if field 7 14 w = 0 ∧ field 26 6 w = 0 then .ok (.fenceFull (bits 2 21 w)) else .error .badField
  | 1 => if field 7 14 w = 0 ∧ field 26 6 w = 0 then .ok (.fenceAcq (bits 2 21 w)) else .error .badField
  | 2 => if field 7 14 w = 0 ∧ field 26 6 w = 0 then .ok (.fenceRel (bits 2 21 w)) else .error .badField
  | 3 => if field 7 14 w = 0 ∧ field 26 6 w = 0 then .ok (.fenceEngine (bits 2 21 w)) else .error .badField
  | 4 => if field 7 14 w = 0 ∧ field 26 6 w = 0 then .ok (.fenceStrings (bits 2 21 w)) else .error .badField
  | _ => .error .noFunction

/-- Major MARM, OP 38 (R77). -/
def decodeMarm (w : Nat) : Except DecodeError Instr :=
  match field 21 4 w with
  | 0 => if field 25 1 w = 0 ∧ field 28 4 w = 0 then .ok (.marm (bits 2 26 w) (bits 7 14 w) (bits 7 7 w)) else .error .badField
  | 1 => if field 7 14 w = 0 ∧ field 25 7 w = 0 then .ok .marmOff else .error .badField
  | _ => .error .noFunction

/-- Major CACHE, OP 39 (R77). -/
def decodeCache (w : Nat) : Except DecodeError Instr :=
  match field 28 3 w with
  | 0 => if field 7 7 w = 0 ∧ field 21 7 w = 0 then .ok (.flush (bitOf 31 w) (bits 7 14 w)) else .error .badField
  | 1 => if field 7 7 w = 0 ∧ field 21 7 w = 0 then .ok (.clean (bitOf 31 w) (bits 7 14 w)) else .error .badField
  | 2 => if field 7 7 w = 0 ∧ field 21 7 w = 0 then .ok (.inval (bitOf 31 w) (bits 7 14 w)) else .error .badField
  | 3 => if field 7 7 w = 0 ∧ field 21 7 w = 0 then .ok (.pref (bitOf 31 w) (bits 7 14 w)) else .error .badField
  | 4 => if field 7 7 w = 0 then .ok (.tlbinv (bitOf 31 w) (bits 7 21 w) (bits 7 14 w)) else .error .badField
  | 5 => if field 14 14 w = 0 ∧ field 31 1 w = 0 then .ok (.tlbsync (bits 7 7 w)) else .error .badField
  | 6 => .ok (.migr (bitOf 31 w) (bits 7 21 w) (bits 7 14 w) (bits 7 7 w))
  | 7 => if field 21 7 w = 0 then .ok (.tdreg (bitOf 31 w) (bits 7 14 w) (bits 7 7 w)) else .error .badField
  | _ => .error .noFunction

/-- Major TRAP, OP 42 (R77). -/
def decodeTrap (w : Nat) : Except DecodeError Instr :=
  match field 28 3 w with
  | 0 => if field 7 21 w = 0 ∧ field 31 1 w = 0 then .ok .ecall else .error .badField
  | 1 => if field 7 21 w = 0 ∧ field 31 1 w = 0 then .ok .brk else .error .badField
  | 2 => if field 7 21 w = 0 ∧ field 31 1 w = 0 then .ok .rett else .error .badField
  | 3 => if field 7 21 w = 0 ∧ field 31 1 w = 0 then .ok .halt else .error .badField
  | 4 => if field 7 21 w = 0 ∧ field 31 1 w = 0 then .ok .yield else .error .badField
  | _ => .error .noFunction

/-- Major WAIT, OP 43 (R77). -/
def decodeWait (w : Nat) : Except DecodeError Instr :=
  match field 28 3 w with
  | 0 => if field 21 7 w = 0 then .ok (.waitc (bitOf 31 w) (bits 7 14 w) (bits 7 7 w)) else .error .badField
  | 1 => if field 21 7 w = 0 then .ok (.waitw (bitOf 31 w) (bits 7 14 w) (bits 7 7 w)) else .error .badField
  | 2 => if field 14 14 w = 0 ∧ field 31 1 w = 0 then .ok (.sleepm (bits 7 7 w)) else .error .badField
  | 3 => if field 21 7 w = 0 then .ok (.waitk (bitOf 31 w) (bits 7 14 w) (bits 7 7 w)) else .error .badField
  | 4 => if field 21 7 w = 0 then .ok (.rdres (bitOf 31 w) (bits 7 14 w) (bits 7 7 w)) else .error .badField
  | _ => .error .noFunction

/-- Major THREAD, OP 44 (R77). -/
def decodeThread (w : Nat) : Except DecodeError Instr :=
  match field 28 3 w with
  | 0 => .ok (.tspawn (bitOf 31 w) (bits 7 21 w) (bits 7 14 w) (bits 7 7 w))
  | 1 => if field 21 7 w = 0 then .ok (.treap (bitOf 31 w) (bits 7 14 w) (bits 7 7 w)) else .error .badField
  | 2 => if field 21 7 w = 0 then .ok (.tkill (bitOf 31 w) (bits 7 14 w) (bits 7 7 w)) else .error .badField
  | 3 => if field 21 7 w = 0 then .ok (.twake (bitOf 31 w) (bits 7 14 w) (bits 7 7 w)) else .error .badField
  | 4 => if field 7 7 w = 0 ∧ field 21 7 w = 0 then .ok (.texit (bitOf 31 w) (bits 7 14 w)) else .error .badField
  | 5 => if field 21 7 w = 0 then .ok (.mclass (bitOf 31 w) (bits 7 14 w) (bits 7 7 w)) else .error .badField
  | 6 => if field 21 7 w = 0 then .ok (.tstat (bitOf 31 w) (bits 7 14 w) (bits 7 7 w)) else .error .badField
  | _ => .error .noFunction

/-- Major MSG, OP 45 (R77). -/
def decodeMsg (w : Nat) : Except DecodeError Instr :=
  match field 28 3 w with
  | 0 => if field 7 7 w = 0 then .ok (.msend (bitOf 31 w) (bits 7 21 w) (bits 7 14 w)) else .error .badField
  | 1 => if field 7 7 w = 0 then .ok (.msend2 (bitOf 31 w) (bits 7 21 w) (bits 7 14 w)) else .error .badField
  | 2 => if field 21 7 w = 0 then .ok (.mdrain (bitOf 31 w) (bits 7 14 w) (bits 7 7 w)) else .error .badField
  | _ => .error .noFunction

/-- Major GROUP, OP 46 (R77). -/
def decodeGroup (w : Nat) : Except DecodeError Instr :=
  match field 28 3 w with
  | 0 => if field 21 7 w = 0 then .ok (.bar (bitOf 31 w) (bits 7 14 w) (bits 7 7 w)) else .error .badField
  | 1 => if field 21 7 w = 0 then .ok (.bara (bitOf 31 w) (bits 7 14 w) (bits 7 7 w)) else .error .badField
  | 2 => .ok (.barw (bitOf 31 w) (bits 7 21 w) (bits 7 14 w) (bits 7 7 w))
  | 3 => if field 21 7 w = 0 then .ok (.gqry (bitOf 31 w) (bits 7 14 w) (bits 7 7 w)) else .error .badField
  | _ => .error .noFunction

/-- Major LEVEL, OP 47 (R77). -/
def decodeLevel (w : Nat) : Except DecodeError Instr :=
  match field 28 3 w with
  | 0 => if field 21 7 w = 0 then .ok (.wlpush (bitOf 31 w) (bits 7 14 w) (bits 7 7 w)) else .error .badField
  | 1 => if field 14 14 w = 0 ∧ field 31 1 w = 0 then .ok (.wlpop (bits 7 7 w)) else .error .badField
  | 2 => if field 14 14 w = 0 ∧ field 31 1 w = 0 then .ok (.wlstat (bits 7 7 w)) else .error .badField
  | 3 => if field 14 14 w = 0 ∧ field 31 1 w = 0 then .ok (.wldone (bits 7 7 w)) else .error .badField
  | _ => .error .noFunction

/-- Major STREAM, OP 48 (R77). -/
def decodeStream (w : Nat) : Except DecodeError Instr :=
  match field 28 3 w with
  | 0 => if field 22 6 w = 0 then .ok (.bind (bitOf 31 w) (bitOf 21 w) (bits 7 14 w) (bits 7 7 w)) else .error .badField
  | 1 => if field 21 7 w = 0 then .ok (.unbind (bitOf 31 w) (bits 7 14 w) (bits 7 7 w)) else .error .badField
  | 2 => .ok (.sgdef (bitOf 31 w) (bits 7 21 w) (bits 7 14 w) (bits 7 7 w))
  | 3 => if field 22 6 w = 0 then .ok (.sstat (bitOf 31 w) (bitOf 21 w) (bits 7 14 w) (bits 7 7 w)) else .error .badField
  | 4 => if field 21 7 w = 0 then .ok (.sdrain (bitOf 31 w) (bits 7 14 w) (bits 7 7 w)) else .error .badField
  | _ => .error .noFunction

/-- Major COPY, OP 49 (R77). -/
def decodeCopy (w : Nat) : Except DecodeError Instr :=
  match field 28 3 w with
  | 0 => .ok (.cpost (bitOf 31 w) (bits 7 21 w) (bits 7 14 w) (bits 7 7 w))
  | 1 => .ok (.sacq (bitOf 31 w) (bits 7 21 w) (bits 7 14 w) (bits 7 7 w))
  | 2 => .ok (.sadd (bitOf 31 w) (bits 7 21 w) (bits 7 14 w) (bits 7 7 w))
  | 3 => if field 7 7 w = 0 then .ok (.sset (bitOf 31 w) (bits 7 21 w) (bits 7 14 w)) else .error .badField
  | 4 => if field 21 7 w = 0 then .ok (.srd (bitOf 31 w) (bits 7 14 w) (bits 7 7 w)) else .error .badField
  | 5 => if field 21 7 w = 0 then .ok (.cbget (bitOf 31 w) (bits 7 14 w) (bits 7 7 w)) else .error .badField
  | 6 => .ok (.cbput (bitOf 31 w) (bits 7 21 w) (bits 7 14 w) (bits 7 7 w))
  | 7 => if field 7 7 w = 0 ∧ field 21 7 w = 0 then .ok (.cbfree (bitOf 31 w) (bits 7 14 w)) else .error .badField
  | _ => .error .noFunction

/-- Major VA, OP 50 (R77). -/
def decodeVa (w : Nat) : Except DecodeError Instr :=
  match field 28 3 w with
  | 0 => .ok (.vadd (bitOf 31 w) (bits 7 21 w) (bits 7 14 w) (bits 7 7 w))
  | 1 => .ok (.vsub (bitOf 31 w) (bits 7 21 w) (bits 7 14 w) (bits 7 7 w))
  | 2 => .ok (.vmul (bitOf 31 w) (bits 7 21 w) (bits 7 14 w) (bits 7 7 w))
  | 3 => .ok (.vfma (bitOf 31 w) (bits 7 21 w) (bits 7 14 w) (bits 7 7 w))
  | 4 => .ok (.vfms (bitOf 31 w) (bits 7 21 w) (bits 7 14 w) (bits 7 7 w))
  | 5 => .ok (.vmin (bitOf 31 w) (bits 7 21 w) (bits 7 14 w) (bits 7 7 w))
  | 6 => .ok (.vmax (bitOf 31 w) (bits 7 21 w) (bits 7 14 w) (bits 7 7 w))
  | 7 => .ok (.vdiff (bitOf 31 w) (bits 7 21 w) (bits 7 14 w) (bits 7 7 w))
  | _ => .error .noFunction

/-- Major VB, OP 51 (R77). -/
def decodeVb (w : Nat) : Except DecodeError Instr :=
  match field 28 3 w with
  | 0 => .ok (.vand (bitOf 31 w) (bits 7 21 w) (bits 7 14 w) (bits 7 7 w))
  | 1 => .ok (.vor (bitOf 31 w) (bits 7 21 w) (bits 7 14 w) (bits 7 7 w))
  | 2 => .ok (.vxor (bitOf 31 w) (bits 7 21 w) (bits 7 14 w) (bits 7 7 w))
  | 3 => .ok (.vshl (bitOf 31 w) (bits 7 21 w) (bits 7 14 w) (bits 7 7 w))
  | 4 => .ok (.vsrl (bitOf 31 w) (bits 7 21 w) (bits 7 14 w) (bits 7 7 w))
  | 5 => .ok (.vsra (bitOf 31 w) (bits 7 21 w) (bits 7 14 w) (bits 7 7 w))
  | 6 => .ok (.vsel (bitOf 31 w) (bits 7 21 w) (bits 7 14 w) (bits 7 7 w))
  | 7 => if field 21 7 w = 0 then .ok (.vrelu (bitOf 31 w) (bits 7 14 w) (bits 7 7 w)) else .error .badField
  | _ => .error .noFunction

/-- Major VC, OP 52 (R77). -/
def decodeVc (w : Nat) : Except DecodeError Instr :=
  match field 28 3 w with
  | 0 => if field 7 7 w < 8 then .ok (.vceq (bitOf 31 w) (bits 7 21 w) (bits 7 14 w) (bits 3 7 w)) else .error .badField
  | 1 => if field 7 7 w < 8 then .ok (.vcne (bitOf 31 w) (bits 7 21 w) (bits 7 14 w) (bits 3 7 w)) else .error .badField
  | 2 => if field 7 7 w < 8 then .ok (.vclt (bitOf 31 w) (bits 7 21 w) (bits 7 14 w) (bits 3 7 w)) else .error .badField
  | 3 => if field 7 7 w < 8 then .ok (.vcle (bitOf 31 w) (bits 7 21 w) (bits 7 14 w) (bits 3 7 w)) else .error .badField
  | 4 => if field 31 1 w = 0 ∧ field 21 7 w < 8 ∧ field 14 7 w < 8 ∧ field 7 7 w < 8 then .ok (.kand (bits 3 21 w) (bits 3 14 w) (bits 3 7 w)) else .error .badField
  | 5 => if field 31 1 w = 0 ∧ field 21 7 w < 8 ∧ field 14 7 w < 8 ∧ field 7 7 w < 8 then .ok (.kor (bits 3 21 w) (bits 3 14 w) (bits 3 7 w)) else .error .badField
  | 6 => if field 21 7 w = 0 ∧ field 31 1 w = 0 ∧ field 14 7 w < 8 ∧ field 7 7 w < 8 then .ok (.knot (bits 3 14 w) (bits 3 7 w)) else .error .badField
  | _ => .error .noFunction

/-- Major VCVT, OP 53 (R77). -/
def decodeVcvt (w : Nat) : Except DecodeError Instr :=
  match field 28 3 w with
  | 0 => if field 25 3 w = 0 then .ok (.vcvtRne (bitOf 31 w) (bits 4 21 w) (bits 7 14 w) (bits 7 7 w)) else .error .badField
  | 1 => if field 25 3 w = 0 then .ok (.vcvtRtz (bitOf 31 w) (bits 4 21 w) (bits 7 14 w) (bits 7 7 w)) else .error .badField
  | 2 => if field 25 3 w = 0 then .ok (.vcvtRdn (bitOf 31 w) (bits 4 21 w) (bits 7 14 w) (bits 7 7 w)) else .error .badField
  | 3 => if field 25 3 w = 0 then .ok (.vcvtRup (bitOf 31 w) (bits 4 21 w) (bits 7 14 w) (bits 7 7 w)) else .error .badField
  | 4 => if field 25 3 w = 0 then .ok (.vcvtSr (bitOf 31 w) (bits 4 21 w) (bits 7 14 w) (bits 7 7 w)) else .error .badField
  | 5 => if field 25 3 w = 0 then .ok (.vcvtSatrne (bitOf 31 w) (bits 4 21 w) (bits 7 14 w) (bits 7 7 w)) else .error .badField
  | _ => .error .noFunction

/-- Major VFN, OP 54 (R77). -/
def decodeVfn (w : Nat) : Except DecodeError Instr :=
  match field 28 3 w with
  | 0 => if field 21 7 w = 0 then .ok (.vexp2 (bitOf 31 w) (bits 7 14 w) (bits 7 7 w)) else .error .badField
  | 1 => if field 21 7 w = 0 then .ok (.vlog2 (bitOf 31 w) (bits 7 14 w) (bits 7 7 w)) else .error .badField
  | 2 => if field 21 7 w = 0 then .ok (.vrcp (bitOf 31 w) (bits 7 14 w) (bits 7 7 w)) else .error .badField
  | 3 => if field 21 7 w = 0 then .ok (.vrsq (bitOf 31 w) (bits 7 14 w) (bits 7 7 w)) else .error .badField
  | 4 => if field 21 7 w = 0 then .ok (.vsqrt (bitOf 31 w) (bits 7 14 w) (bits 7 7 w)) else .error .badField
  | 5 => if field 21 7 w = 0 then .ok (.vtanh (bitOf 31 w) (bits 7 14 w) (bits 7 7 w)) else .error .badField
  | 6 => if field 21 7 w = 0 then .ok (.vexp (bitOf 31 w) (bits 7 14 w) (bits 7 7 w)) else .error .badField
  | 7 => if field 21 7 w = 0 then .ok (.vsigm (bitOf 31 w) (bits 7 14 w) (bits 7 7 w)) else .error .badField
  | _ => .error .noFunction

/-- Major VRED, OP 55 (R77). -/
def decodeVred (w : Nat) : Except DecodeError Instr :=
  match field 28 3 w with
  | 0 => if field 21 7 w < 8 then .ok (.vrsum (bitOf 31 w) (bits 3 21 w) (bits 7 14 w) (bits 7 7 w)) else .error .badField
  | 1 => if field 21 7 w < 8 then .ok (.vrmax (bitOf 31 w) (bits 3 21 w) (bits 7 14 w) (bits 7 7 w)) else .error .badField
  | 2 => if field 21 7 w < 8 then .ok (.vrmin (bitOf 31 w) (bits 3 21 w) (bits 7 14 w) (bits 7 7 w)) else .error .badField
  | 3 => if field 21 7 w < 8 then .ok (.vramx (bitOf 31 w) (bits 3 21 w) (bits 7 14 w) (bits 7 7 w)) else .error .badField
  | 4 => if field 21 7 w < 8 then .ok (.vscan (bitOf 31 w) (bits 3 21 w) (bits 7 14 w) (bits 7 7 w)) else .error .badField
  | 5 => .ok (.vperm (bitOf 31 w) (bits 7 21 w) (bits 7 14 w) (bits 7 7 w))
  | 6 => if field 21 7 w < 8 then .ok (.vsort (bitOf 31 w) (bits 3 21 w) (bits 7 14 w) (bits 7 7 w)) else .error .badField
  | _ => .error .noFunction

/-- Major VM, OP 56 (R77). -/
def decodeVm (w : Nat) : Except DecodeError Instr :=
  match field 28 3 w with
  | 0 => if field 25 3 w = 0 then .ok (.vsplat (bitOf 31 w) (bits 4 21 w) (bits 7 14 w) (bits 7 7 w)) else .error .badField
  | 1 => .ok (.vins (bitOf 31 w) (bits 7 21 w) (bits 7 14 w) (bits 7 7 w))
  | 2 => .ok (.vext (bitOf 31 w) (bits 7 21 w) (bits 7 14 w) (bits 7 7 w))
  | 3 => if field 25 3 w = 0 then .ok (.vidx (bitOf 31 w) (bits 4 21 w) (bits 7 14 w) (bits 7 7 w)) else .error .badField
  | 4 => if field 25 3 w = 0 then .ok (.vtag (bitOf 31 w) (bits 4 21 w) (bits 7 14 w) (bits 7 7 w)) else .error .badField
  | 5 => if field 25 3 w = 0 then .ok (.vqnt (bitOf 31 w) (bits 4 21 w) (bits 7 14 w) (bits 7 7 w)) else .error .badField
  | 6 => if field 21 7 w = 0 ∧ field 31 1 w = 0 ∧ field 14 7 w < 8 then .ok (.kpop (bits 3 14 w) (bits 7 7 w)) else .error .badField
  | 7 => match field 21 7 w with
    | 0 => if field 7 7 w < 8 then .ok (.kmovToMask (bitOf 31 w) (bits 7 14 w) (bits 3 7 w)) else .error .badField
    | 1 => if field 31 1 w = 0 ∧ field 14 7 w < 8 then .ok (.kmovFromMask (bits 3 14 w) (bits 7 7 w)) else .error .badField
    | _ => .error .badField
  | _ => .error .noFunction

/-- Major MTX, OP 57 (R77). -/
def decodeMtx (w : Nat) : Except DecodeError Instr :=
  match field 28 3 w with
  | 0 => if field 31 1 w = 0 ∧ field 21 7 w < 16 ∧ field 14 7 w < 16 ∧ field 7 7 w < 4 then .ok (.mma (bits 4 21 w) (bits 4 14 w) (bits 2 7 w)) else .error .badField
  | 1 => if field 31 1 w = 0 ∧ field 21 7 w < 16 ∧ field 14 7 w < 16 ∧ field 7 7 w < 4 then .ok (.mmz (bits 4 21 w) (bits 4 14 w) (bits 2 7 w)) else .error .badField
  | 2 => if field 31 1 w = 0 ∧ field 14 7 w < 4 then .ok (.aread (bits 7 21 w) (bits 2 14 w) (bits 7 7 w)) else .error .badField
  | 3 => if field 14 14 w = 0 ∧ field 31 1 w = 0 ∧ field 7 7 w < 4 then .ok (.azero (bits 2 7 w)) else .error .badField
  | 4 => if field 14 7 w = 0 ∧ field 31 1 w = 0 ∧ field 21 7 w < 5 ∧ field 7 7 w < 16 then .ok (.oclm (bits 3 21 w) (bits 4 7 w)) else .error .badField
  | 5 => if field 14 14 w = 0 ∧ field 31 1 w = 0 ∧ field 7 7 w < 16 then .ok (.orel (bits 4 7 w)) else .error .badField
  | 6 => if field 7 7 w < 16 then .ok (.ofill (bitOf 31 w) (bits 7 21 w) (bits 7 14 w) (bits 4 7 w)) else .error .badField
  | 7 => if field 7 7 w = 0 ∧ field 31 1 w = 0 ∧ 1 ≤ field 21 7 w ∧ field 21 7 w < 5 ∧ field 14 7 w < 16 then .ok (.opass (bits 3 21 w) (bits 4 14 w)) else .error .badField
  | _ => .error .noFunction

/-- Major SPE, OP 58 (R77). -/
def decodeSpe (w : Nat) : Except DecodeError Instr :=
  match field 28 3 w with
  | 0 => .ok (.spup (bitOf 31 w) (bits 7 21 w) (bits 7 14 w) (bits 7 7 w))
  | 1 => .ok (.spdn (bitOf 31 w) (bits 7 21 w) (bits 7 14 w) (bits 7 7 w))
  | 2 => if field 21 7 w = 0 then .ok (.spld (bitOf 31 w) (bits 7 14 w) (bits 7 7 w)) else .error .badField
  | 3 => if field 21 7 w = 0 then .ok (.spst (bitOf 31 w) (bits 7 14 w) (bits 7 7 w)) else .error .badField
  | 4 => if field 21 7 w = 0 then .ok (.spget (bitOf 31 w) (bits 7 14 w) (bits 7 7 w)) else .error .badField
  | 5 => if field 7 7 w = 0 then .ok (.spput (bitOf 31 w) (bits 7 21 w) (bits 7 14 w)) else .error .badField
  | 6 => if field 7 7 w = 0 then .ok (.spclr (bitOf 31 w) (bits 7 21 w) (bits 7 14 w)) else .error .badField
  | 7 => if field 14 14 w = 0 ∧ field 31 1 w = 0 then .ok (.spwait (bits 7 7 w)) else .error .badField
  | _ => .error .noFunction

/-- Major GLN, OP 59 (R77). -/
def decodeGln (w : Nat) : Except DecodeError Instr :=
  match field 28 3 w with
  | 0 => if field 21 7 w = 0 then .ok (.bqget (bitOf 31 w) (bits 7 14 w) (bits 7 7 w)) else .error .badField
  | 1 => .ok (.baddq (bitOf 31 w) (bits 7 21 w) (bits 7 14 w) (bits 7 7 w))
  | 2 => if field 21 7 w = 0 then .ok (.bqdone (bitOf 31 w) (bits 7 14 w) (bits 7 7 w)) else .error .badField
  | 3 => .ok (.bqinit (bitOf 31 w) (bits 7 21 w) (bits 7 14 w) (bits 7 7 w))
  | _ => .error .noFunction

/-- Major RNG, OP 60 (R77). -/
def decodeRng (w : Nat) : Except DecodeError Instr :=
  match field 28 3 w with
  | 0 => .ok (.rand (bitOf 31 w) (bits 7 21 w) (bits 7 14 w) (bits 7 7 w))
  | 1 => .ok (.vrand (bitOf 31 w) (bits 7 21 w) (bits 7 14 w) (bits 7 7 w))
  | _ => .error .noFunction

/-- A 32-bit word (R74, R77): by its major opcode OP in bits [6:1]. -/
def decodeWord (w : Nat) : Except DecodeError Instr :=
  match field 1 6 w with
  | 1 => decodeAlu w
  | 2 => decodeAluw w
  | 3 => decodeAlux w
  | 4 => decodeMulx w
  | 5 => .ok (.addi (bitOf 31 w) (bits 10 21 w) (bits 7 14 w) (bits 7 7 w))
  | 6 => .ok (.andi (bitOf 31 w) (bits 10 21 w) (bits 7 14 w) (bits 7 7 w))
  | 7 => .ok (.ori (bitOf 31 w) (bits 10 21 w) (bits 7 14 w) (bits 7 7 w))
  | 8 => .ok (.xori (bitOf 31 w) (bits 10 21 w) (bits 7 14 w) (bits 7 7 w))
  | 10 => .ok (.slti (bitOf 31 w) (bits 10 21 w) (bits 7 14 w) (bits 7 7 w))
  | 11 => .ok (.sltiu (bitOf 31 w) (bits 10 21 w) (bits 7 14 w) (bits 7 7 w))
  | 9 => decodeShi w
  | 12 => .ok (.lui (bits 18 14 w) (bits 7 7 w))
  | 13 => .ok (.auipc (bits 18 14 w) (bits 7 7 w))
  | 14 => .ok (.jal (bits 18 14 w) (bits 7 7 w))
  | 15 => .ok (.jalr (bitOf 31 w) (bits 10 21 w) (bits 7 14 w) (bits 7 7 w))
  | 16 => .ok (.beq (bits 11 21 w) (bits 7 14 w) (bits 7 7 w))
  | 17 => .ok (.bne (bits 11 21 w) (bits 7 14 w) (bits 7 7 w))
  | 18 => .ok (.blt (bits 11 21 w) (bits 7 14 w) (bits 7 7 w))
  | 19 => .ok (.bge (bits 11 21 w) (bits 7 14 w) (bits 7 7 w))
  | 20 => .ok (.bltu (bits 11 21 w) (bits 7 14 w) (bits 7 7 w))
  | 21 => .ok (.bgeu (bits 11 21 w) (bits 7 14 w) (bits 7 7 w))
  | 22 => .ok (.div (bits 4 28 w) (bits 7 21 w) (bits 7 14 w) (bits 7 7 w))
  | 23 => .ok (.divu (bits 4 28 w) (bits 7 21 w) (bits 7 14 w) (bits 7 7 w))
  | 24 => .ok (.rem (bits 4 28 w) (bits 7 21 w) (bits 7 14 w) (bits 7 7 w))
  | 25 => .ok (.remu (bits 4 28 w) (bits 7 21 w) (bits 7 14 w) (bits 7 7 w))
  | 26 => decodeLoad w
  | 27 => decodeStore w
  | 28 => .ok (.lvsE4 (bits 4 28 w) (bits 7 21 w) (bits 7 14 w) (bits 7 7 w))
  | 29 => .ok (.lvsE5 (bits 4 28 w) (bits 7 21 w) (bits 7 14 w) (bits 7 7 w))
  | 30 => if field 28 4 w = 0 then .ok (.svs (bits 7 21 w) (bits 7 14 w) (bits 7 7 w)) else .error .badField
  | 31 => .ok (.ldx (bits 4 28 w) (bits 7 21 w) (bits 7 14 w) (bits 7 7 w))
  | 32 => if field 23 3 w = 0 then .ok (.ldf (bits 4 28 w) (bits 2 26 w) (bitOf 22 w) (bitOf 21 w) (bits 7 14 w) (bits 7 7 w)) else .error .badField
  | 33 => if field 22 4 w = 0 ∧ field 28 4 w = 0 then .ok (.stf (bits 2 26 w) (bitOf 21 w) (bits 7 14 w) (bits 7 7 w)) else .error .badField
  | 34 => decodeAmo w
  | 35 => decodeFence w
  | 36 => .ok (.tld (bits 4 28 w) (bits 7 21 w) (bits 7 14 w) (bits 7 7 w))
  | 37 => if field 28 4 w = 0 then .ok (.tst (bits 7 21 w) (bits 7 14 w) (bits 7 7 w)) else .error .badField
  | 38 => decodeMarm w
  | 39 => decodeCache w
  | 40 => if field 14 7 w = 0 ∧ mfsNumber (field 21 11 w) = true then .ok (.mfs (bits 11 21 w) (bits 7 7 w)) else .error .badField
  | 41 => if field 7 7 w = 0 ∧ mtsNumber (field 21 11 w) = true then .ok (.mts (bits 11 21 w) (bits 7 14 w)) else .error .badField
  | 42 => decodeTrap w
  | 43 => decodeWait w
  | 44 => decodeThread w
  | 45 => decodeMsg w
  | 46 => decodeGroup w
  | 47 => decodeLevel w
  | 48 => decodeStream w
  | 49 => decodeCopy w
  | 50 => decodeVa w
  | 51 => decodeVb w
  | 52 => decodeVc w
  | 53 => decodeVcvt w
  | 54 => decodeVfn w
  | 55 => decodeVred w
  | 56 => decodeVm w
  | 57 => decodeMtx w
  | 58 => decodeSpe w
  | 59 => decodeGln w
  | 60 => decodeRng w
  | _ => .error .noOpcode

/-- A C16 halfword (R76): S in [15:11], D in [10:5], OP4 in [4:1]. -/
def decodeHalf (w : Nat) : Except DecodeError Instr :=
  match field 1 4 w with
  | 0 => if field 5 11 w = 0 then .error .zeroHalfword else .ok (.vmov (bits 5 11 w) (bits 6 5 w))
  | 1 => .ok (.vaddC16 (bits 5 11 w) (bits 6 5 w))
  | 2 => .ok (.vsubC16 (bits 5 11 w) (bits 6 5 w))
  | 3 => .ok (.vmulC16 (bits 5 11 w) (bits 6 5 w))
  | 4 => .ok (.vminC16 (bits 5 11 w) (bits 6 5 w))
  | 5 => .ok (.vmaxC16 (bits 5 11 w) (bits 6 5 w))
  | 6 => .ok (.vandC16 (bits 5 11 w) (bits 6 5 w))
  | 7 => .ok (.vorC16 (bits 5 11 w) (bits 6 5 w))
  | 8 => .ok (.vxorC16 (bits 5 11 w) (bits 6 5 w))
  | 9 => .ok (.vshlC16 (bits 5 11 w) (bits 6 5 w))
  | 10 => .ok (.vsrlC16 (bits 5 11 w) (bits 6 5 w))
  | 11 => .ok (.vsraC16 (bits 5 11 w) (bits 6 5 w))
  | 12 => .ok (.vneg (bits 5 11 w) (bits 6 5 w))
  | 13 => .ok (.vabs (bits 5 11 w) (bits 6 5 w))
  | 14 => .ok (.vreluC16 (bits 5 11 w) (bits 6 5 w))
  | 15 => .ok (.vswap (bits 5 11 w) (bits 6 5 w))
  | _ => .error .noFunction

/-- Decode from a byte stream, lowest address first (R71): a halfword whose bit 0 is 0 is a C16 form, otherwise the
32-bit word is cat(second halfword, first halfword). Answers the instruction and the bytes after it. -/
def decode : List Byte → Except DecodeError (Instr × List Byte)
  | b0 :: b1 :: rest =>
    if b0.toNat % 2 = 0 then
      match decodeHalf (b0.toNat + 256 * b1.toNat) with
      | .ok i => .ok (i, rest)
      | .error e => .error e
    else
      match rest with
      | b2 :: b3 :: rest' =>
        match decodeWord (b0.toNat + 256 * b1.toNat + 65536 * b2.toNat + 16777216 * b3.toNat) with
        | .ok i => .ok (i, rest')
        | .error e => .error e
      | _ => .error .truncated
  | _ => .error .truncated

/-- The low bytes of a number, lowest first: the order halfwords and words lie in memory (R46, R71). -/
def leBytes : Nat → Nat → List Byte
  | 0, _ => []
  | n + 1, w => BitVec.ofNat 8 w :: leBytes n (w / 256)

/-- The instruction the decoder reads from the opcode table's numbering of its bits; bits the table does not give are
zero. -/
def decodeTableWord (nbits w : Nat) : Option Instr :=
  match decode (leBytes 4 (w % 2^nbits)) with
  | .ok (i, _) => some i
  | .error _ => none

/-- The 32-bit word of an instruction of the R, I, U, J, M, MB, AT and S formats; none for a C16 form or an event. -/
def encodeWord : Instr → Option Nat
  | .add sa b a d => some (0x3 + place 31 sa.toNat + place 21 b.toNat + place 14 a.toNat + place 7 d.toNat)
  | .sub sa b a d => some (0x10000003 + place 31 sa.toNat + place 21 b.toNat + place 14 a.toNat + place 7 d.toNat)
  | .and sa b a d => some (0x20000003 + place 31 sa.toNat + place 21 b.toNat + place 14 a.toNat + place 7 d.toNat)
  | .or sa b a d => some (0x30000003 + place 31 sa.toNat + place 21 b.toNat + place 14 a.toNat + place 7 d.toNat)
  | .xor sa b a d => some (0x40000003 + place 31 sa.toNat + place 21 b.toNat + place 14 a.toNat + place 7 d.toNat)
  | .sll sa b a d => some (0x50000003 + place 31 sa.toNat + place 21 b.toNat + place 14 a.toNat + place 7 d.toNat)
  | .srl sa b a d => some (0x60000003 + place 31 sa.toNat + place 21 b.toNat + place 14 a.toNat + place 7 d.toNat)
  | .sra sa b a d => some (0x70000003 + place 31 sa.toNat + place 21 b.toNat + place 14 a.toNat + place 7 d.toNat)
  | .addw sa b a d => some (0x5 + place 31 sa.toNat + place 21 b.toNat + place 14 a.toNat + place 7 d.toNat)
  | .subw sa b a d => some (0x10000005 + place 31 sa.toNat + place 21 b.toNat + place 14 a.toNat + place 7 d.toNat)
  | .sllw sa b a d => some (0x20000005 + place 31 sa.toNat + place 21 b.toNat + place 14 a.toNat + place 7 d.toNat)
  | .srlw sa b a d => some (0x30000005 + place 31 sa.toNat + place 21 b.toNat + place 14 a.toNat + place 7 d.toNat)
  | .sraw sa b a d => some (0x40000005 + place 31 sa.toNat + place 21 b.toNat + place 14 a.toNat + place 7 d.toNat)
  | .slt sa b a d => some (0x50000005 + place 31 sa.toNat + place 21 b.toNat + place 14 a.toNat + place 7 d.toNat)
  | .sltu sa b a d => some (0x60000005 + place 31 sa.toNat + place 21 b.toNat + place 14 a.toNat + place 7 d.toNat)
  | .andn sa b a d => some (0x70000005 + place 31 sa.toNat + place 21 b.toNat + place 14 a.toNat + place 7 d.toNat)
  | .min sa b a d => some (0x7 + place 31 sa.toNat + place 21 b.toNat + place 14 a.toNat + place 7 d.toNat)
  | .max sa b a d => some (0x10000007 + place 31 sa.toNat + place 21 b.toNat + place 14 a.toNat + place 7 d.toNat)
  | .minu sa b a d => some (0x20000007 + place 31 sa.toNat + place 21 b.toNat + place 14 a.toNat + place 7 d.toNat)
  | .maxu sa b a d => some (0x30000007 + place 31 sa.toNat + place 21 b.toNat + place 14 a.toNat + place 7 d.toNat)
  | .clz sa a d => some (0x40000007 + place 31 sa.toNat + place 14 a.toNat + place 7 d.toNat)
  | .ctz sa a d => some (0x50000007 + place 31 sa.toNat + place 14 a.toNat + place 7 d.toNat)
  | .popc sa a d => some (0x60000007 + place 31 sa.toNat + place 14 a.toNat + place 7 d.toNat)
  | .brev sa a d => some (0x70000007 + place 31 sa.toNat + place 14 a.toNat + place 7 d.toNat)
  | .mul sa b a d => some (0x9 + place 31 sa.toNat + place 21 b.toNat + place 14 a.toNat + place 7 d.toNat)
  | .mulh sa b a d => some (0x10000009 + place 31 sa.toNat + place 21 b.toNat + place 14 a.toNat + place 7 d.toNat)
  | .mulhu sa b a d => some (0x20000009 + place 31 sa.toNat + place 21 b.toNat + place 14 a.toNat + place 7 d.toNat)
  | .mulw sa b a d => some (0x30000009 + place 31 sa.toNat + place 21 b.toNat + place 14 a.toNat + place 7 d.toNat)
  | .sexb sa a d => some (0x40000009 + place 31 sa.toNat + place 14 a.toNat + place 7 d.toNat)
  | .sexh sa a d => some (0x50000009 + place 31 sa.toNat + place 14 a.toNat + place 7 d.toNat)
  | .sexw sa a d => some (0x60000009 + place 31 sa.toNat + place 14 a.toNat + place 7 d.toNat)
  | .zexw sa a d => some (0x70000009 + place 31 sa.toNat + place 14 a.toNat + place 7 d.toNat)
  | .addi sa imm a d => some (0xB + place 31 sa.toNat + place 21 imm.toNat + place 14 a.toNat + place 7 d.toNat)
  | .andi sa imm a d => some (0xD + place 31 sa.toNat + place 21 imm.toNat + place 14 a.toNat + place 7 d.toNat)
  | .ori sa imm a d => some (0xF + place 31 sa.toNat + place 21 imm.toNat + place 14 a.toNat + place 7 d.toNat)
  | .xori sa imm a d => some (0x11 + place 31 sa.toNat + place 21 imm.toNat + place 14 a.toNat + place 7 d.toNat)
  | .slti sa imm a d => some (0x15 + place 31 sa.toNat + place 21 imm.toNat + place 14 a.toNat + place 7 d.toNat)
  | .sltiu sa imm a d => some (0x17 + place 31 sa.toNat + place 21 imm.toNat + place 14 a.toNat + place 7 d.toNat)
  | .slli sa sh a d => some (0x13 + place 31 sa.toNat + place 21 sh.toNat + place 14 a.toNat + place 7 d.toNat)
  | .srli sa sh a d => some (0x10000013 + place 31 sa.toNat + place 21 sh.toNat + place 14 a.toNat + place 7 d.toNat)
  | .srai sa sh a d => some (0x20000013 + place 31 sa.toNat + place 21 sh.toNat + place 14 a.toNat + place 7 d.toNat)
  | .sllwi sa sh a d => some (0x30000013 + place 31 sa.toNat + place 21 sh.toNat + place 14 a.toNat + place 7 d.toNat)
  | .srlwi sa sh a d => some (0x40000013 + place 31 sa.toNat + place 21 sh.toNat + place 14 a.toNat + place 7 d.toNat)
  | .srawi sa sh a d => some (0x50000013 + place 31 sa.toNat + place 21 sh.toNat + place 14 a.toNat + place 7 d.toNat)
  | .lui imm d => some (0x19 + place 14 imm.toNat + place 7 d.toNat)
  | .auipc imm d => some (0x1B + place 14 imm.toNat + place 7 d.toNat)
  | .jal imm d => some (0x1D + place 14 imm.toNat + place 7 d.toNat)
  | .jalr sa imm a d => some (0x1F + place 31 sa.toNat + place 21 imm.toNat + place 14 a.toNat + place 7 d.toNat)
  | .beq off a b => some (0x21 + place 21 off.toNat + place 14 a.toNat + place 7 b.toNat)
  | .bne off a b => some (0x23 + place 21 off.toNat + place 14 a.toNat + place 7 b.toNat)
  | .blt off a b => some (0x25 + place 21 off.toNat + place 14 a.toNat + place 7 b.toNat)
  | .bge off a b => some (0x27 + place 21 off.toNat + place 14 a.toNat + place 7 b.toNat)
  | .bltu off a b => some (0x29 + place 21 off.toNat + place 14 a.toNat + place 7 b.toNat)
  | .bgeu off a b => some (0x2B + place 21 off.toNat + place 14 a.toNat + place 7 b.toNat)
  | .div la b a d => some (0x2D + place 28 la.toNat + place 21 b.toNat + place 14 a.toNat + place 7 d.toNat)
  | .divu la b a d => some (0x2F + place 28 la.toNat + place 21 b.toNat + place 14 a.toNat + place 7 d.toNat)
  | .rem la b a d => some (0x31 + place 28 la.toNat + place 21 b.toNat + place 14 a.toNat + place 7 d.toNat)
  | .remu la b a d => some (0x33 + place 28 la.toNat + place 21 b.toNat + place 14 a.toNat + place 7 d.toNat)
  | .lb la sc str a d => some (0x35 + place 28 la.toNat + place 26 sc.toNat + place 25 str.toNat + place 14 a.toNat + place 7 d.toNat)
  | .lbz la sc str a d => some (0x200035 + place 28 la.toNat + place 26 sc.toNat + place 25 str.toNat + place 14 a.toNat + place 7 d.toNat)
  | .lh la sc str a d => some (0x400035 + place 28 la.toNat + place 26 sc.toNat + place 25 str.toNat + place 14 a.toNat + place 7 d.toNat)
  | .lhz la sc str a d => some (0x600035 + place 28 la.toNat + place 26 sc.toNat + place 25 str.toNat + place 14 a.toNat + place 7 d.toNat)
  | .lw la sc str a d => some (0x800035 + place 28 la.toNat + place 26 sc.toNat + place 25 str.toNat + place 14 a.toNat + place 7 d.toNat)
  | .lwz la sc str a d => some (0xA00035 + place 28 la.toNat + place 26 sc.toNat + place 25 str.toNat + place 14 a.toNat + place 7 d.toNat)
  | .ld la sc str a d => some (0xC00035 + place 28 la.toNat + place 26 sc.toNat + place 25 str.toNat + place 14 a.toNat + place 7 d.toNat)
  | .lv la sc str a d => some (0xE00035 + place 28 la.toNat + place 26 sc.toNat + place 25 str.toNat + place 14 a.toNat + place 7 d.toNat)
  | .lvS32 la sc str a d => some (0x1000035 + place 28 la.toNat + place 26 sc.toNat + place 25 str.toNat + place 14 a.toNat + place 7 d.toNat)
  | .lvZ32 la sc str a d => some (0x1200035 + place 28 la.toNat + place 26 sc.toNat + place 25 str.toNat + place 14 a.toNat + place 7 d.toNat)
  | .lvF32 la sc str a d => some (0x1400035 + place 28 la.toNat + place 26 sc.toNat + place 25 str.toNat + place 14 a.toNat + place 7 d.toNat)
  | .lvBf16 la sc str a d => some (0x1600035 + place 28 la.toNat + place 26 sc.toNat + place 25 str.toNat + place 14 a.toNat + place 7 d.toNat)
  | .lvF16 la sc str a d => some (0x1800035 + place 28 la.toNat + place 26 sc.toNat + place 25 str.toNat + place 14 a.toNat + place 7 d.toNat)
  | .lvS8 la sc str a d => some (0x1A00035 + place 28 la.toNat + place 26 sc.toNat + place 25 str.toNat + place 14 a.toNat + place 7 d.toNat)
  | .lvZ8 la sc str a d => some (0x1C00035 + place 28 la.toNat + place 26 sc.toNat + place 25 str.toNat + place 14 a.toNat + place 7 d.toNat)
  | .lvSp32 la sc str a d => some (0x1E00035 + place 28 la.toNat + place 26 sc.toNat + place 25 str.toNat + place 14 a.toNat + place 7 d.toNat)
  | .sb sc str a d => some (0x37 + place 26 sc.toNat + place 25 str.toNat + place 14 a.toNat + place 7 d.toNat)
  | .sh sc str a d => some (0x200037 + place 26 sc.toNat + place 25 str.toNat + place 14 a.toNat + place 7 d.toNat)
  | .sw sc str a d => some (0x400037 + place 26 sc.toNat + place 25 str.toNat + place 14 a.toNat + place 7 d.toNat)
  | .sd sc str a d => some (0x600037 + place 26 sc.toNat + place 25 str.toNat + place 14 a.toNat + place 7 d.toNat)
  | .sv sc str a d => some (0x800037 + place 26 sc.toNat + place 25 str.toNat + place 14 a.toNat + place 7 d.toNat)
  | .lvsE4 la b a d => some (0x39 + place 28 la.toNat + place 21 b.toNat + place 14 a.toNat + place 7 d.toNat)
  | .lvsE5 la b a d => some (0x3B + place 28 la.toNat + place 21 b.toNat + place 14 a.toNat + place 7 d.toNat)
  | .svs b a d => some (0x3D + place 21 b.toNat + place 14 a.toNat + place 7 d.toNat)
  | .ldx la b a d => some (0x3F + place 28 la.toNat + place 21 b.toNat + place 14 a.toNat + place 7 d.toNat)
  | .ldf la sc tryIt consume a d => some (0x41 + place 28 la.toNat + place 26 sc.toNat + place 22 tryIt.toNat + place 21 consume.toNat + place 14 a.toNat + place 7 d.toNat)
  | .stf sc e a d => some (0x43 + place 26 sc.toNat + place 21 e.toNat + place 14 a.toNat + place 7 d.toNat)
  | .amoSwap la sc wide a d => some (0x45 + place 28 la.toNat + place 26 sc.toNat + place 25 wide.toNat + place 14 a.toNat + place 7 d.toNat)
  | .amoAdd la sc wide a d => some (0x200045 + place 28 la.toNat + place 26 sc.toNat + place 25 wide.toNat + place 14 a.toNat + place 7 d.toNat)
  | .amoAnd la sc wide a d => some (0x400045 + place 28 la.toNat + place 26 sc.toNat + place 25 wide.toNat + place 14 a.toNat + place 7 d.toNat)
  | .amoOr la sc wide a d => some (0x600045 + place 28 la.toNat + place 26 sc.toNat + place 25 wide.toNat + place 14 a.toNat + place 7 d.toNat)
  | .amoXor la sc wide a d => some (0x800045 + place 28 la.toNat + place 26 sc.toNat + place 25 wide.toNat + place 14 a.toNat + place 7 d.toNat)
  | .amoMin la sc wide a d => some (0xA00045 + place 28 la.toNat + place 26 sc.toNat + place 25 wide.toNat + place 14 a.toNat + place 7 d.toNat)
  | .amoMax la sc wide a d => some (0xC00045 + place 28 la.toNat + place 26 sc.toNat + place 25 wide.toNat + place 14 a.toNat + place 7 d.toNat)
  | .amoMinu la sc wide a d => some (0xE00045 + place 28 la.toNat + place 26 sc.toNat + place 25 wide.toNat + place 14 a.toNat + place 7 d.toNat)
  | .amoMaxu la sc wide a d => some (0x1000045 + place 28 la.toNat + place 26 sc.toNat + place 25 wide.toNat + place 14 a.toNat + place 7 d.toNat)
  | .amoCas la sc wide a d => some (0x1200045 + place 28 la.toNat + place 26 sc.toNat + place 25 wide.toNat + place 14 a.toNat + place 7 d.toNat)
  | .fenceFull sc => some (0x47 + place 21 sc.toNat)
  | .fenceAcq sc => some (0x800047 + place 21 sc.toNat)
  | .fenceRel sc => some (0x1000047 + place 21 sc.toNat)
  | .fenceEngine sc => some (0x1800047 + place 21 sc.toNat)
  | .fenceStrings sc => some (0x2000047 + place 21 sc.toNat)
  | .tld la b a d => some (0x49 + place 28 la.toNat + place 21 b.toNat + place 14 a.toNat + place 7 d.toNat)
  | .tst b a d => some (0x4B + place 21 b.toNat + place 14 a.toNat + place 7 d.toNat)
  | .marm sc a d => some (0x4D + place 26 sc.toNat + place 14 a.toNat + place 7 d.toNat)
  | .marmOff => some 0x20004D
  | .flush sa a => some (0x4F + place 31 sa.toNat + place 14 a.toNat)
  | .clean sa a => some (0x1000004F + place 31 sa.toNat + place 14 a.toNat)
  | .inval sa a => some (0x2000004F + place 31 sa.toNat + place 14 a.toNat)
  | .pref sa a => some (0x3000004F + place 31 sa.toNat + place 14 a.toNat)
  | .tlbinv sa b a => some (0x4000004F + place 31 sa.toNat + place 21 b.toNat + place 14 a.toNat)
  | .tlbsync d => some (0x5000004F + place 7 d.toNat)
  | .migr sa b a d => some (0x6000004F + place 31 sa.toNat + place 21 b.toNat + place 14 a.toNat + place 7 d.toNat)
  | .tdreg sa a d => some (0x7000004F + place 31 sa.toNat + place 14 a.toNat + place 7 d.toNat)
  | .mfs sys d => some (0x51 + place 21 sys.toNat + place 7 d.toNat)
  | .mts sys a => some (0x53 + place 21 sys.toNat + place 14 a.toNat)
  | .ecall => some 0x55
  | .brk => some 0x10000055
  | .rett => some 0x20000055
  | .halt => some 0x30000055
  | .yield => some 0x40000055
  | .waitc sa a d => some (0x57 + place 31 sa.toNat + place 14 a.toNat + place 7 d.toNat)
  | .waitw sa a d => some (0x10000057 + place 31 sa.toNat + place 14 a.toNat + place 7 d.toNat)
  | .sleepm d => some (0x20000057 + place 7 d.toNat)
  | .waitk sa a d => some (0x30000057 + place 31 sa.toNat + place 14 a.toNat + place 7 d.toNat)
  | .rdres sa a d => some (0x40000057 + place 31 sa.toNat + place 14 a.toNat + place 7 d.toNat)
  | .tspawn sa b a d => some (0x59 + place 31 sa.toNat + place 21 b.toNat + place 14 a.toNat + place 7 d.toNat)
  | .treap sa a d => some (0x10000059 + place 31 sa.toNat + place 14 a.toNat + place 7 d.toNat)
  | .tkill sa a d => some (0x20000059 + place 31 sa.toNat + place 14 a.toNat + place 7 d.toNat)
  | .twake sa a d => some (0x30000059 + place 31 sa.toNat + place 14 a.toNat + place 7 d.toNat)
  | .texit sa a => some (0x40000059 + place 31 sa.toNat + place 14 a.toNat)
  | .mclass sa a d => some (0x50000059 + place 31 sa.toNat + place 14 a.toNat + place 7 d.toNat)
  | .tstat sa a d => some (0x60000059 + place 31 sa.toNat + place 14 a.toNat + place 7 d.toNat)
  | .msend sa b a => some (0x5B + place 31 sa.toNat + place 21 b.toNat + place 14 a.toNat)
  | .msend2 sa b a => some (0x1000005B + place 31 sa.toNat + place 21 b.toNat + place 14 a.toNat)
  | .mdrain sa a d => some (0x2000005B + place 31 sa.toNat + place 14 a.toNat + place 7 d.toNat)
  | .bar sa a d => some (0x5D + place 31 sa.toNat + place 14 a.toNat + place 7 d.toNat)
  | .bara sa a d => some (0x1000005D + place 31 sa.toNat + place 14 a.toNat + place 7 d.toNat)
  | .barw sa b a d => some (0x2000005D + place 31 sa.toNat + place 21 b.toNat + place 14 a.toNat + place 7 d.toNat)
  | .gqry sa a d => some (0x3000005D + place 31 sa.toNat + place 14 a.toNat + place 7 d.toNat)
  | .wlpush sa a d => some (0x5F + place 31 sa.toNat + place 14 a.toNat + place 7 d.toNat)
  | .wlpop d => some (0x1000005F + place 7 d.toNat)
  | .wlstat d => some (0x2000005F + place 7 d.toNat)
  | .wldone d => some (0x3000005F + place 7 d.toNat)
  | .bind sa v a d => some (0x61 + place 31 sa.toNat + place 21 v.toNat + place 14 a.toNat + place 7 d.toNat)
  | .unbind sa a d => some (0x10000061 + place 31 sa.toNat + place 14 a.toNat + place 7 d.toNat)
  | .sgdef sa b a d => some (0x20000061 + place 31 sa.toNat + place 21 b.toNat + place 14 a.toNat + place 7 d.toNat)
  | .sstat sa e a d => some (0x30000061 + place 31 sa.toNat + place 21 e.toNat + place 14 a.toNat + place 7 d.toNat)
  | .sdrain sa a d => some (0x40000061 + place 31 sa.toNat + place 14 a.toNat + place 7 d.toNat)
  | .cpost sa b a d => some (0x63 + place 31 sa.toNat + place 21 b.toNat + place 14 a.toNat + place 7 d.toNat)
  | .sacq sa b a d => some (0x10000063 + place 31 sa.toNat + place 21 b.toNat + place 14 a.toNat + place 7 d.toNat)
  | .sadd sa b a d => some (0x20000063 + place 31 sa.toNat + place 21 b.toNat + place 14 a.toNat + place 7 d.toNat)
  | .sset sa b a => some (0x30000063 + place 31 sa.toNat + place 21 b.toNat + place 14 a.toNat)
  | .srd sa a d => some (0x40000063 + place 31 sa.toNat + place 14 a.toNat + place 7 d.toNat)
  | .cbget sa a d => some (0x50000063 + place 31 sa.toNat + place 14 a.toNat + place 7 d.toNat)
  | .cbput sa b a d => some (0x60000063 + place 31 sa.toNat + place 21 b.toNat + place 14 a.toNat + place 7 d.toNat)
  | .cbfree sa a => some (0x70000063 + place 31 sa.toNat + place 14 a.toNat)
  | .vadd sa b a d => some (0x65 + place 31 sa.toNat + place 21 b.toNat + place 14 a.toNat + place 7 d.toNat)
  | .vsub sa b a d => some (0x10000065 + place 31 sa.toNat + place 21 b.toNat + place 14 a.toNat + place 7 d.toNat)
  | .vmul sa b a d => some (0x20000065 + place 31 sa.toNat + place 21 b.toNat + place 14 a.toNat + place 7 d.toNat)
  | .vfma sa b a d => some (0x30000065 + place 31 sa.toNat + place 21 b.toNat + place 14 a.toNat + place 7 d.toNat)
  | .vfms sa b a d => some (0x40000065 + place 31 sa.toNat + place 21 b.toNat + place 14 a.toNat + place 7 d.toNat)
  | .vmin sa b a d => some (0x50000065 + place 31 sa.toNat + place 21 b.toNat + place 14 a.toNat + place 7 d.toNat)
  | .vmax sa b a d => some (0x60000065 + place 31 sa.toNat + place 21 b.toNat + place 14 a.toNat + place 7 d.toNat)
  | .vdiff sa b a d => some (0x70000065 + place 31 sa.toNat + place 21 b.toNat + place 14 a.toNat + place 7 d.toNat)
  | .vand sa b a d => some (0x67 + place 31 sa.toNat + place 21 b.toNat + place 14 a.toNat + place 7 d.toNat)
  | .vor sa b a d => some (0x10000067 + place 31 sa.toNat + place 21 b.toNat + place 14 a.toNat + place 7 d.toNat)
  | .vxor sa b a d => some (0x20000067 + place 31 sa.toNat + place 21 b.toNat + place 14 a.toNat + place 7 d.toNat)
  | .vshl sa b a d => some (0x30000067 + place 31 sa.toNat + place 21 b.toNat + place 14 a.toNat + place 7 d.toNat)
  | .vsrl sa b a d => some (0x40000067 + place 31 sa.toNat + place 21 b.toNat + place 14 a.toNat + place 7 d.toNat)
  | .vsra sa b a d => some (0x50000067 + place 31 sa.toNat + place 21 b.toNat + place 14 a.toNat + place 7 d.toNat)
  | .vsel sa b a d => some (0x60000067 + place 31 sa.toNat + place 21 b.toNat + place 14 a.toNat + place 7 d.toNat)
  | .vrelu sa a d => some (0x70000067 + place 31 sa.toNat + place 14 a.toNat + place 7 d.toNat)
  | .vceq sa b a d => some (0x69 + place 31 sa.toNat + place 21 b.toNat + place 14 a.toNat + place 7 d.toNat)
  | .vcne sa b a d => some (0x10000069 + place 31 sa.toNat + place 21 b.toNat + place 14 a.toNat + place 7 d.toNat)
  | .vclt sa b a d => some (0x20000069 + place 31 sa.toNat + place 21 b.toNat + place 14 a.toNat + place 7 d.toNat)
  | .vcle sa b a d => some (0x30000069 + place 31 sa.toNat + place 21 b.toNat + place 14 a.toNat + place 7 d.toNat)
  | .kand b a d => some (0x40000069 + place 21 b.toNat + place 14 a.toNat + place 7 d.toNat)
  | .kor b a d => some (0x50000069 + place 21 b.toNat + place 14 a.toNat + place 7 d.toNat)
  | .knot a d => some (0x60000069 + place 14 a.toNat + place 7 d.toNat)
  | .vcvtRne sa tag a d => some (0x6B + place 31 sa.toNat + place 21 tag.toNat + place 14 a.toNat + place 7 d.toNat)
  | .vcvtRtz sa tag a d => some (0x1000006B + place 31 sa.toNat + place 21 tag.toNat + place 14 a.toNat + place 7 d.toNat)
  | .vcvtRdn sa tag a d => some (0x2000006B + place 31 sa.toNat + place 21 tag.toNat + place 14 a.toNat + place 7 d.toNat)
  | .vcvtRup sa tag a d => some (0x3000006B + place 31 sa.toNat + place 21 tag.toNat + place 14 a.toNat + place 7 d.toNat)
  | .vcvtSr sa tag a d => some (0x4000006B + place 31 sa.toNat + place 21 tag.toNat + place 14 a.toNat + place 7 d.toNat)
  | .vcvtSatrne sa tag a d => some (0x5000006B + place 31 sa.toNat + place 21 tag.toNat + place 14 a.toNat + place 7 d.toNat)
  | .vexp2 sa a d => some (0x6D + place 31 sa.toNat + place 14 a.toNat + place 7 d.toNat)
  | .vlog2 sa a d => some (0x1000006D + place 31 sa.toNat + place 14 a.toNat + place 7 d.toNat)
  | .vrcp sa a d => some (0x2000006D + place 31 sa.toNat + place 14 a.toNat + place 7 d.toNat)
  | .vrsq sa a d => some (0x3000006D + place 31 sa.toNat + place 14 a.toNat + place 7 d.toNat)
  | .vsqrt sa a d => some (0x4000006D + place 31 sa.toNat + place 14 a.toNat + place 7 d.toNat)
  | .vtanh sa a d => some (0x5000006D + place 31 sa.toNat + place 14 a.toNat + place 7 d.toNat)
  | .vexp sa a d => some (0x6000006D + place 31 sa.toNat + place 14 a.toNat + place 7 d.toNat)
  | .vsigm sa a d => some (0x7000006D + place 31 sa.toNat + place 14 a.toNat + place 7 d.toNat)
  | .vrsum sa b a d => some (0x6F + place 31 sa.toNat + place 21 b.toNat + place 14 a.toNat + place 7 d.toNat)
  | .vrmax sa b a d => some (0x1000006F + place 31 sa.toNat + place 21 b.toNat + place 14 a.toNat + place 7 d.toNat)
  | .vrmin sa b a d => some (0x2000006F + place 31 sa.toNat + place 21 b.toNat + place 14 a.toNat + place 7 d.toNat)
  | .vramx sa b a d => some (0x3000006F + place 31 sa.toNat + place 21 b.toNat + place 14 a.toNat + place 7 d.toNat)
  | .vscan sa b a d => some (0x4000006F + place 31 sa.toNat + place 21 b.toNat + place 14 a.toNat + place 7 d.toNat)
  | .vperm sa b a d => some (0x5000006F + place 31 sa.toNat + place 21 b.toNat + place 14 a.toNat + place 7 d.toNat)
  | .vsort sa b a d => some (0x6000006F + place 31 sa.toNat + place 21 b.toNat + place 14 a.toNat + place 7 d.toNat)
  | .vsplat sa tag a d => some (0x71 + place 31 sa.toNat + place 21 tag.toNat + place 14 a.toNat + place 7 d.toNat)
  | .vins sa b a d => some (0x10000071 + place 31 sa.toNat + place 21 b.toNat + place 14 a.toNat + place 7 d.toNat)
  | .vext sa b a d => some (0x20000071 + place 31 sa.toNat + place 21 b.toNat + place 14 a.toNat + place 7 d.toNat)
  | .vidx sa tag a d => some (0x30000071 + place 31 sa.toNat + place 21 tag.toNat + place 14 a.toNat + place 7 d.toNat)
  | .vtag sa tag a d => some (0x40000071 + place 31 sa.toNat + place 21 tag.toNat + place 14 a.toNat + place 7 d.toNat)
  | .vqnt sa tag a d => some (0x50000071 + place 31 sa.toNat + place 21 tag.toNat + place 14 a.toNat + place 7 d.toNat)
  | .kpop a d => some (0x60000071 + place 14 a.toNat + place 7 d.toNat)
  | .kmovToMask sa a d => some (0x70000071 + place 31 sa.toNat + place 14 a.toNat + place 7 d.toNat)
  | .kmovFromMask a d => some (0x70200071 + place 14 a.toNat + place 7 d.toNat)
  | .mma b a d => some (0x73 + place 21 b.toNat + place 14 a.toNat + place 7 d.toNat)
  | .mmz b a d => some (0x10000073 + place 21 b.toNat + place 14 a.toNat + place 7 d.toNat)
  | .aread b a d => some (0x20000073 + place 21 b.toNat + place 14 a.toNat + place 7 d.toNat)
  | .azero d => some (0x30000073 + place 7 d.toNat)
  | .oclm dir d => some (0x40000073 + place 21 dir.toNat + place 7 d.toNat)
  | .orel d => some (0x50000073 + place 7 d.toNat)
  | .ofill sa b a d => some (0x60000073 + place 31 sa.toNat + place 21 b.toNat + place 14 a.toNat + place 7 d.toNat)
  | .opass dir a => some (0x70000073 + place 21 dir.toNat + place 14 a.toNat)
  | .spup sa b a d => some (0x75 + place 31 sa.toNat + place 21 b.toNat + place 14 a.toNat + place 7 d.toNat)
  | .spdn sa b a d => some (0x10000075 + place 31 sa.toNat + place 21 b.toNat + place 14 a.toNat + place 7 d.toNat)
  | .spld sa a d => some (0x20000075 + place 31 sa.toNat + place 14 a.toNat + place 7 d.toNat)
  | .spst sa a d => some (0x30000075 + place 31 sa.toNat + place 14 a.toNat + place 7 d.toNat)
  | .spget sa a d => some (0x40000075 + place 31 sa.toNat + place 14 a.toNat + place 7 d.toNat)
  | .spput sa b a => some (0x50000075 + place 31 sa.toNat + place 21 b.toNat + place 14 a.toNat)
  | .spclr sa b a => some (0x60000075 + place 31 sa.toNat + place 21 b.toNat + place 14 a.toNat)
  | .spwait d => some (0x70000075 + place 7 d.toNat)
  | .bqget sa a d => some (0x77 + place 31 sa.toNat + place 14 a.toNat + place 7 d.toNat)
  | .baddq sa b a d => some (0x10000077 + place 31 sa.toNat + place 21 b.toNat + place 14 a.toNat + place 7 d.toNat)
  | .bqdone sa a d => some (0x20000077 + place 31 sa.toNat + place 14 a.toNat + place 7 d.toNat)
  | .bqinit sa b a d => some (0x30000077 + place 31 sa.toNat + place 21 b.toNat + place 14 a.toNat + place 7 d.toNat)
  | .rand sa b a d => some (0x79 + place 31 sa.toNat + place 21 b.toNat + place 14 a.toNat + place 7 d.toNat)
  | .vrand sa b a d => some (0x10000079 + place 31 sa.toNat + place 21 b.toNat + place 14 a.toNat + place 7 d.toNat)
  | _ => none

/-- The halfword of a C16 form (R76); none for every other instruction. -/
def encodeHalf : Instr → Option Nat
  | .vmov s d => some (0 + place 11 s.toNat + place 5 d.toNat)
  | .vaddC16 s d => some (2 + place 11 s.toNat + place 5 d.toNat)
  | .vsubC16 s d => some (4 + place 11 s.toNat + place 5 d.toNat)
  | .vmulC16 s d => some (6 + place 11 s.toNat + place 5 d.toNat)
  | .vminC16 s d => some (8 + place 11 s.toNat + place 5 d.toNat)
  | .vmaxC16 s d => some (10 + place 11 s.toNat + place 5 d.toNat)
  | .vandC16 s d => some (12 + place 11 s.toNat + place 5 d.toNat)
  | .vorC16 s d => some (14 + place 11 s.toNat + place 5 d.toNat)
  | .vxorC16 s d => some (16 + place 11 s.toNat + place 5 d.toNat)
  | .vshlC16 s d => some (18 + place 11 s.toNat + place 5 d.toNat)
  | .vsrlC16 s d => some (20 + place 11 s.toNat + place 5 d.toNat)
  | .vsraC16 s d => some (22 + place 11 s.toNat + place 5 d.toNat)
  | .vneg s d => some (24 + place 11 s.toNat + place 5 d.toNat)
  | .vabs s d => some (26 + place 11 s.toNat + place 5 d.toNat)
  | .vreluC16 s d => some (28 + place 11 s.toNat + place 5 d.toNat)
  | .vswap s d => some (30 + place 11 s.toNat + place 5 d.toNat)
  | _ => none

/-- The bytes of an encoded instruction, lowest address first; none for a device event, which no word encodes. -/
def encode (i : Instr) : Option (List Byte) :=
  match encodeWord i with
  | some w => some (leBytes 4 w)
  | none =>
    match encodeHalf i with
    | some h => some (leBytes 2 h)
    | none => none

/-- The number a refused encoding stands for in TRAPVAL (R90): the halfword, or the 32-bit word, zero-extended. -/
def refusedWord (b0 b1 b2 b3 : Byte) : BitVec 32 :=
  if b0.toNat % 2 = 0 then BitVec.ofNat 32 (b0.toNat + 256 * b1.toNat)
  else BitVec.ofNat 32 (b0.toNat + 256 * b1.toNat + 65536 * b2.toNat + 16777216 * b3.toNat)

end Sys2Proof
end

