-- ==== Sys2Proof/Machine/Formats.lean ====
section
/-! DEFINITION. Number formats, exact values and rounding (R46 to R66, R402). A finite value is ±m × 2^e, exact unless
`sticky` says that the true magnitude lies strictly between m and m + 1 in that unit; m then has at least 80 bits. -/
namespace Sys2Proof.Machine

/-- The floating formats (R48, R50). -/
inductive Fmt where
  | f32
  | bf16
  | f16
  | e5m2
  | e4m3
  | sp32
  deriving DecidableEq, Repr

/-- Fraction bits. -/
def Fmt.fbits : Fmt → Nat
  | .f32 => 23
  | .bf16 => 7
  | .f16 => 10
  | .e5m2 => 2
  | .e4m3 => 3
  | .sp32 => 16

/-- Exponent bits. -/
def Fmt.ebits : Fmt → Nat
  | .f32 => 8
  | .bf16 => 8
  | .f16 => 5
  | .e5m2 => 5
  | .e4m3 => 4
  | .sp32 => 16

/-- Exponent bias. -/
def Fmt.bias : Fmt → Nat
  | .f32 => 127
  | .bf16 => 127
  | .f16 => 15
  | .e5m2 => 15
  | .e4m3 => 7
  | .sp32 => 32767

/-- Total width in bits; SP32 has no sign bit. -/
def Fmt.width : Fmt → Nat
  | .f32 => 32
  | .bf16 => 16
  | .f16 => 16
  | .e5m2 => 8
  | .e4m3 => 8
  | .sp32 => 32

/-- Canonical NaN (R48, R50). -/
def Fmt.nan : Fmt → Nat
  | .f32 => 0x7FC00000
  | .bf16 => 0x7FC0
  | .f16 => 0x7E00
  | .e5m2 => 0x7E
  | .e4m3 => 0x7F
  | .sp32 => 0xFFFF8000

/-- Bits of the largest finite magnitude. -/
def Fmt.maxBits : Fmt → Nat
  | .f32 => 0x7F7FFFFF
  | .bf16 => 0x7F7F
  | .f16 => 0x7BFF
  | .e5m2 => 0x7B
  | .e4m3 => 0x7E
  | .sp32 => 0xFFFEFFFF

/-- The sign bit's weight; SP32 has none. -/
def Fmt.signBit (f : Fmt) : Nat := if f = .sp32 then 0 else 2^(f.width - 1)

/-- Significand of the largest finite value, with its hidden bit. -/
def Fmt.maxSig (f : Fmt) : Nat := if f = .e4m3 then 14 else 2^(f.fbits + 1) - 1

/-- Exponent of the unit in the last place of the largest finite value. -/
def Fmt.maxUnit (f : Fmt) : Int :=
  (if f = .e4m3 then 15 else (2^f.ebits - 2 : Nat) : Int) - f.bias - f.fbits

/-- Exponent of the smallest normal value. -/
def Fmt.minExp (f : Fmt) : Int := 1 - (f.bias : Int)

/-- A number: NaN, an infinity, or a finite value (a zero has a sign). -/
inductive Num where
  | nan
  | inf (neg : Bool)
  | fin (neg : Bool) (m : Nat) (e : Int) (sticky : Bool)
  deriving DecidableEq, Repr

/-- The value of an encoding (R48, R50). -/
def decodeNum (f : Fmt) (x : Nat) : Num :=
  let fr := x % 2^f.fbits
  let ex := x / 2^f.fbits % 2^f.ebits
  let neg := f ≠ .sp32 && x / 2^(f.width - 1) % 2 == 1
  match f with
  | .sp32 =>
    if ex = 0 then .fin false 0 0 false
    else if ex = 0xFFFF then (if fr = 0 then .inf false else .nan)
    else .fin false (2^16 + fr) ((ex : Int) - 32767 - 16) false
  | .e4m3 =>
    if ex = 15 ∧ fr = 7 then .nan
    else if ex = 0 then .fin neg fr (f.minExp - 3) false
    else .fin neg (8 + fr) ((ex : Int) - 7 - 3) false
  | _ =>
    if ex = 2^f.ebits - 1 then (if fr = 0 then .inf neg else .nan)
    else if ex = 0 then .fin neg fr (f.minExp - f.fbits) false
    else .fin neg (2^f.fbits + fr) ((ex : Int) - f.bias - f.fbits) false

/-- Rounding modes (R60). -/
inductive RMode where
  | rne
  | rtz
  | rdn
  | rup
  | sr
  | satrne
  deriving DecidableEq, Repr

/-- The mode an FRM code names (R60). -/
def RMode.ofCode : Nat → RMode
  | 0 => .rne
  | 1 => .rtz
  | 2 => .rdn
  | 3 => .rup
  | 4 => .sr
  | _ => .satrne

/-- FFLAGS bits (R64). -/
abbrev Flags := BitVec 6
def flagNX : Flags := 1
def flagUF : Flags := 2
def flagOF : Flags := 4
def flagDZ : Flags := 8
def flagNV : Flags := 16
def flagSAT : Flags := 32

/-- The hash of R62. -/
def mix32 (key counter : BitVec 32) : BitVec 32 :=
  let x := (key ^^^ counter) * 0x2C1B3C6D
  let x := x ^^^ (x >>> 12)
  let x := x * 0x297A2D39
  x ^^^ (x >>> 15)

/-- How a value is rounded: the mode, and for SR the hash drawn for the element (R63). -/
structure Rnd where
  mode : RMode
  draw : Nat := 0
  deriving DecidableEq, Repr

/-- Number of bits of a natural number. -/
def bitLen (m : Nat) : Nat := if m = 0 then 0 else Nat.log2 m + 1

/-- Whether the magnitude m × 2^e (with sticky) exceeds, equals or is below M × 2^q. -/
def cmpMag (m : Nat) (e : Int) (sticky : Bool) (M : Nat) (q : Int) : Ordering :=
  if m = 0 then (if M = 0 then (if sticky then .gt else .eq) else .lt)
  else if M = 0 then .gt
  else
    let a := e + bitLen m
    let b := q + bitLen M
    if a < b then .lt else if b < a then .gt
    else
      let u := min e q
      let x := m * 2^(e - u).toNat
      let y := M * 2^(q - u).toNat
      if x < y then .lt else if y < x then .gt else if sticky then .gt else .eq

/-- Rounds the magnitude m × 2^e to a multiple of 2^q: the multiple, and whether it was inexact (R60, R63). -/
def roundUnit (r : Rnd) (neg : Bool) (m : Nat) (e : Int) (sticky : Bool) (q : Int) : Nat × Bool :=
  if q ≤ e then
    (m * 2^(e - q).toNat, sticky)
  else
    let sh := (q - e).toNat
    let cap := min sh (bitLen m + 72)
    let sig := m / 2^cap
    let rem := m % 2^cap
    let inexact := rem ≠ 0 || sticky
    let up :=
      match r.mode with
      | .rne => 2^cap < 2 * rem || (2 * rem == 2^cap && (sticky || sig % 2 == 1))
      | .satrne => 2^cap < 2 * rem || (2 * rem == 2^cap && (sticky || sig % 2 == 1))
      | .rtz => false
      | .rdn => neg && inexact
      | .rup => !neg && inexact
      | .sr =>
        inexact &&
        (if neg then
          !(decide (r.draw < ((2^cap - rem) * 2^32 - (if sticky then 1 else 0)) / 2^cap))
        else decide (r.draw < rem * 2^32 / 2^cap))
    (if up then sig + 1 else sig, inexact)

/-- The overflow result and its flags (R61, R402). -/
def overflowTo (f : Fmt) (mode : RMode) (neg : Bool) : Nat × Flags :=
  let s := if neg then f.signBit else 0
  let infinity := if f = .e4m3 then f.nan else s + (2^f.ebits - 1) * 2^f.fbits
  let top := s + f.maxBits
  let nv := if f = .e4m3 then flagNV else 0
  match mode with
  | .satrne => (top, flagOF ||| flagNX ||| flagSAT)
  | .rne => (infinity, flagOF ||| flagNX ||| nv)
  | .sr => (infinity, flagOF ||| flagNX ||| nv)
  | .rtz => (top, flagOF ||| flagNX)
  | .rdn => if neg then (infinity, flagOF ||| flagNX ||| nv) else (top, flagOF ||| flagNX)
  | .rup => if neg then (top, flagOF ||| flagNX) else (infinity, flagOF ||| flagNX ||| nv)

/-- Whether a magnitude overflows the format under a mode (R61). -/
def overflows (f : Fmt) (r : Rnd) (neg : Bool) (m : Nat) (e : Int) (sticky : Bool) : Bool :=
  match r.mode with
  | .rne => cmpMag m e sticky (2 * f.maxSig + 1) (f.maxUnit - 1) != .lt
  | .satrne => cmpMag m e sticky (2 * f.maxSig + 1) (f.maxUnit - 1) != .lt
  | .sr =>
    cmpMag m e sticky (f.maxSig + 1) f.maxUnit != .lt ||
    (cmpMag m e sticky f.maxSig f.maxUnit == .gt && decide (f.maxSig < (roundUnit r neg m e sticky f.maxUnit).1))
  | _ => cmpMag m e sticky f.maxSig f.maxUnit == .gt

/-- A finite nonzero value rounded to a format in a mode, with the flags it raises (R52, R60 to R64, R402). -/
def roundFin (f : Fmt) (r : Rnd) (neg : Bool) (m : Nat) (e : Int) (sticky : Bool) : Nat × Flags :=
  let s := if neg then f.signBit else 0
  if f = .sp32 ∧ neg then (f.nan, flagNV)
  else if overflows f r neg m e sticky then overflowTo f r.mode neg
  else
    let top := e + bitLen m - 1
    let p := f.fbits + 1
    if f = .sp32 ∧ top < f.minExp then
      -- R52: the neighbours below the smallest value are zero and 2^-32766
      let carries := decide (2^p ≤ (roundUnit r neg m e sticky (top + 1 - p)).1) && top == f.minExp - 1
      let fl := if carries then flagNX else flagNX ||| flagUF
      ((roundUnit r neg m e sticky f.minExp).1 * 0x00010000, fl)
    else
      let q := max (top + 1 - p) (f.minExp - f.fbits)
      let (sig, inexact) := roundUnit r neg m e sticky q
      let below := decide (top < f.minExp)
      let carries := decide (2^p ≤ (roundUnit r neg m e sticky (top + 1 - p)).1) && top == f.minExp - 1
      let fl : Flags := if inexact then (if below && !carries then flagNX ||| flagUF else flagNX) else 0
      -- a subnormal or normal significand: the exponent field follows from the unit
      let field := (q - (f.minExp - f.fbits)).toNat
      let bits := if sig < 2^f.fbits then sig else field * 2^f.fbits + sig
      (s + bits, fl)

/-- A number rounded to a format (R49, R61, R402). -/
def roundNum (f : Fmt) (r : Rnd) : Num → Nat × Flags
  | .nan => (f.nan, 0)
  | .inf neg =>
    let s := if neg then f.signBit else 0
    match f with
    | .sp32 =>
      if neg then (f.nan, flagNV)
      else if r.mode = .satrne then (f.maxBits, flagSAT) else (0xFFFF0000, 0)
    | .e4m3 =>
      match r.mode with
      | .rne => (f.nan, flagNV)
      | .sr => (f.nan, flagNV)
      | .rtz => (s + f.maxBits, flagSAT)
      | .satrne => (s + f.maxBits, flagSAT)
      | .rdn => if neg then (f.nan, flagNV) else (f.maxBits, flagSAT)
      | .rup => if neg then (s + f.maxBits, flagSAT) else (f.nan, flagNV)
    | _ => if r.mode = .satrne then (s + f.maxBits, flagSAT) else (s + (2^f.ebits - 1) * 2^f.fbits, 0)
  | .fin neg m e sticky =>
    if m = 0 ∧ sticky = false then (if neg then f.signBit else 0, 0) else roundFin f r neg m e sticky

/-- Rounds a number to nearest even, for helpers that never set flags. -/
def rne (f : Fmt) (x : Num) : Nat := (roundNum f ⟨.rne, 0⟩ x).1

/-- Whether a number is a finite zero. -/
def Num.isZero : Num → Bool
  | .fin _ 0 _ false => true
  | _ => false

/-- Sign of a number; NaN has none. -/
def Num.neg : Num → Bool
  | .nan => false
  | .inf n => n
  | .fin n _ _ _ => n

/-- The number with its sign inverted. -/
def Num.negate : Num → Num
  | .nan => .nan
  | .inf n => .inf (!n)
  | .fin n m e s => .fin (!n) m e s

/-- The number with its sign cleared. -/
def Num.abs : Num → Num
  | .nan => .nan
  | .inf _ => .inf false
  | .fin _ m e s => .fin false m e s

/-- Exact product (R49, R51): 0 × ∞ is NaN. -/
def Num.mul : Num → Num → Num
  | .nan, _ => .nan
  | _, .nan => .nan
  | .inf a, .inf b => .inf (a != b)
  | .inf a, .fin b m _ _ => if m = 0 then .nan else .inf (a != b)
  | .fin b m _ _, .inf a => if m = 0 then .nan else .inf (a != b)
  | .fin a m e _, .fin b n g _ => .fin (a != b) (m * n) (e + g) false

/-- Exact sum through the alignment window of R65; an exact zero of opposite signs is +0, or −0 when the mode is RDN
(R49). -/
def Num.add (mode : RMode) : Num → Num → Num
  | .nan, _ => .nan
  | _, .nan => .nan
  | .inf a, .inf b => if a = b then .inf a else .nan
  | .inf a, .fin _ _ _ _ => .inf a
  | .fin _ _ _ _, .inf b => .inf b
  | .fin a m e _, .fin b n g _ =>
    if m = 0 ∧ n = 0 then .fin (if a = b then a else decide (mode = .rdn)) 0 0 false
    else if n = 0 then .fin a m e false
    else if m = 0 then .fin b n g false
    else
      let swap := cmpMag m e false n g == .lt
      let (sb, mb, eb) := if swap then (b, n, g) else (a, m, e)
      let (ss, ms, es) := if swap then (a, m, e) else (b, n, g)
      let q : Int := eb + bitLen mb - 1
      -- kept: |small| truncated to a multiple of 2^(q - 63)
      let cut := q - 63
      let drop := (cut - es).toNat
      let kept := if cut ≤ es then ms * 2^(es - cut).toNat else ms / 2^drop
      let st := if cut ≤ es then 0 else if ms % 2^drop = 0 then 0 else 1
      let u := min eb (q - 64)
      let x : Int := mb * 2^(eb - u).toNat
      let y : Int := kept * 2^(cut - u).toNat + st * 2^(q - 64 - u).toNat
      let t : Int := if sb = ss then x + y else x - y
      if t = 0 then .fin (decide (mode = .rdn)) 0 0 false
      else .fin (if t < 0 then !sb else sb) t.natAbs u false

/-- Exact sum of two numbers, with no window (R200); special values as R65's sum gives them. -/
def Num.addExact (x y : Num) : Num :=
  match x, y with
  | .fin a m e _, .fin b n g _ =>
    if m = 0 ∨ n = 0 then x.add .rne y
    else
      let u := min e g
      let t : Int := (if a then -1 else 1) * (m * 2^(e - u).toNat : Nat) + (if b then -1 else 1) * (n * 2^(g - u).toNat : Nat)
      .fin (decide (t < 0)) t.natAbs u false
  | _, _ => x.add .rne y

/-- Exact quotient with 128 further bits and a sticky bit, for a scaled target (R69): 0/0 and ∞/∞ are NaN. -/
def Num.div : Num → Num → Num
  | .nan, _ => .nan
  | _, .nan => .nan
  | .inf _, .inf _ => .nan
  | .inf a, .fin b _ _ _ => .inf (a != b)
  | .fin a _ _ _, .inf b => .fin (a != b) 0 0 false
  | .fin a m e _, .fin b n g _ =>
    if n = 0 then (if m = 0 then .nan else .inf (a != b))
    else if m = 0 then .fin (a != b) 0 0 false
    else
      let k := bitLen n + 128
      let x := m * 2^k
      .fin (a != b) (x / n) (e - g - k) (x % n ≠ 0)

/-- Numeric order with −0 below +0; NaN is not ordered and answers none. -/
def Num.order : Num → Num → Option Ordering
  | .nan, _ => none
  | _, .nan => none
  | .inf a, .inf b => some (if a = b then .eq else if a then .lt else .gt)
  | .inf a, .fin _ _ _ _ => some (if a then .lt else .gt)
  | .fin _ _ _ _, .inf b => some (if b then .gt else .lt)
  | .fin a m e s, .fin b n g t =>
    if a ≠ b then some (if a then .lt else .gt)
    else
      let c := cmpMag m e s n g
      some (if a then (match c with
        | .lt => .gt
        | .gt => .lt
        | .eq => if t then .gt else .eq) else (if c == .eq && t then .lt else c))

/-- Numeric order by value: the two zeros are equal (R158). -/
def Num.compare (x y : Num) : Option Ordering :=
  if x.isZero && y.isZero then some .eq else x.order y

/-- Tags (R55). -/
inductive Tag where
  | raw
  | int (signed : Bool) (width : Nat)
  | float (f : Fmt)
  | reserved
  deriving DecidableEq, Repr

/-- The format of a tag code (R55). -/
def tagOf (c : BitVec 4) : Tag :=
  match c.toNat with
  | 0 => .raw
  | 1 => .int true 32
  | 2 => .int false 32
  | 3 => .float .f32
  | 4 => .float .bf16
  | 5 => .float .f16
  | 6 => .int true 8
  | 7 => .int false 8
  | 8 => .float .e4m3
  | 9 => .float .e5m2
  | 10 => .float .sp32
  | 11 => .int true 16
  | 12 => .int false 16
  | _ => .reserved

/-- Element width of a tag; RAW and reserved codes count as 32 (R55, R147). -/
def Tag.width : Tag → Nat
  | .int _ w => w
  | .float f => f.width
  | _ => 32

/-- Elements of a register (R55, R147). -/
def Tag.count (t : Tag) : Nat := 1024 / t.width

/-- Element e of register bits with width w, as a number (R46). -/
def elemAt (x : VBits) (w e : Nat) : Nat := x.toNat / 2^(w * e) % 2^w

/-- A register from its elements, element 0 lowest (R46). -/
def packElems (w : Nat) (es : List Nat) : VBits :=
  BitVec.ofNat 1024 (es.foldr (fun x acc => x % 2^w + 2^w * acc) 0)

/-- The signed or unsigned value of an integer element. -/
def intVal (signed : Bool) (w x : Nat) : Int :=
  if signed && decide (2^(w - 1) ≤ x) then (x : Int) - 2^w else x

/-- The least and greatest value of an integer format (R47). -/
def intRange (signed : Bool) (w : Nat) : Int × Int :=
  if signed then (-(2^(w - 1) : Nat), (2^(w - 1) : Nat) - 1) else (0, (2^w : Nat) - 1)

/-- `Sat` of R7 to an integer format: the element bits and SAT when the value changed (R148). -/
def satInt (signed : Bool) (w : Nat) (x : Int) : Nat × Flags :=
  let (lo, hi) := intRange signed w
  let y := max lo (min hi x)
  ((y % (2^w : Nat)).toNat, if y = x then 0 else flagSAT)

/-- A number as an exact integer value rounded to unit 1 (R69); the flag says inexact. -/
def roundToInt (r : Rnd) (neg : Bool) (m : Nat) (e : Int) (sticky : Bool) : Int × Bool :=
  let (k, ix) := roundUnit r neg m e sticky 0
  (if neg then -(k : Int) else k, ix)

/-- The exact value of an integer. -/
def Num.ofInt (x : Int) : Num := .fin (decide (x < 0)) x.natAbs 0 false

/-- The value of an element of a tag, unscaled; RAW elements read as unsigned integers. -/
def elemNum (t : Tag) (x : Nat) : Num :=
  match t with
  | .int s w => .ofInt (intVal s w x)
  | .float f => decodeNum f x
  | _ => .fin false x 0 false

/-- The value of an element under its register's scale word (R56). -/
def elemValue (t : Tag) (scale : Lane) (x : Nat) : Num :=
  match t with
  | .float .e4m3 => (decodeNum .e4m3 x).mul (decodeNum .f32 scale.toNat)
  | .float .e5m2 => (decodeNum .e5m2 x).mul (decodeNum .f32 scale.toNat)
  | t => elemNum t x

end Sys2Proof.Machine
end

