-- ==== Sys2Proof/Config.lean ====
section
/-! DEFINITION. What an implementation fixes and what the spec leaves open: the place keys of memory, the physical map
of the dies (assumption 3), and the free values, constants with no body of which no proof can see a value. -/
namespace Sys2Proof.Config

/-- Free Boolean choices the spec leaves open, the k-th drawn by `Device.freeCtr` (assumption 2). -/
opaque freeBit : Nat → Bool

/-- Free 64-bit values the spec leaves open, the k-th drawn by `Device.freeCtr` (assumption 2). -/
opaque freeWord : Nat → BitVec 64

/-- The ECDSA P-384 signature (r, s) of the module's identity key over a 384-bit hash at a boot (R399, R400; assumption 30). -/
opaque signature : BitVec 384 → Nat → BitVec 768

/-- The value of a host configuration register that the spec does not describe (R376; assumption 31). -/
opaque cfgValue : BitVec 64 → BitVec 64

/-- Address of the host configuration register that holds the number of a failed bring-up step (R401; assumption 31). -/
opaque stepRegister : BitVec 64

/-- Whether a file marks the word at an address offset of a section as one of a `.fill` whose value is `empty` (R97, R103): R102
gives the mark no place, so it is a free function of the one field of the section's entry that R102 gives no meaning
(assumption 57). -/
opaque fillEmpty : Nat → Nat → Bool

/-- Femtoseconds in a wall nanosecond: device instants are counted in femtoseconds (R5, R35). -/
def fsPerNs : Nat := 1000000

/-- Length of a cycle that no move of the agenda fixes: ratio 1.0 (R2, R31; assumption 4). -/
def nominalPeriod : Nat := 1000000

/-- Least length of a cycle: ratio 1.25 (R32). -/
def leastPeriod : Nat := 800000

/-- Greatest length of a cycle of a core whose clock runs: ratio 0.55 (R32, R44). -/
def mostPeriod : Nat := 1818181

/-- First physical address of a compute die's memory (assumption 3). -/
def dieBase (die : Nat) : Nat := die * 2^42

/-- Bytes of memory behind all channels of a compute die (R331). -/
def dieBytes (die : Nat) : Nat := if die < 4 then 3072000000000 else if die < 8 then 256000000000 else 0

/-- Channels of a compute die and the channels assigned together (R327, R331). -/
def dieChannels (die : Nat) : Nat × Nat := if die < 4 then (96, 1) else (384, 8)

/-- 64 KiB frames behind one group of channels (R330). -/
def groupFrames (die : Nat) : Nat :=
  dieBytes die * (dieChannels die).2 / (dieChannels die).1 / 65536

/-- Place keys: one natural number names every byte of the machine (R271, assumption 5). Device memory is its own
physical address, below this key. -/
def hostBase : Nat := 2^58
/-- Memory of peer modules, reached through the peer aperture (R382). -/
def peerBase : Nat := 2^59
/-- Scratchpads: 512 KiB for each core (R236, R237). -/
def scratchpadBase : Nat := 2^60
/-- Lane slices: 128 KiB for each core, slice after slice (R122, R236). -/
def laneBase : Nat := 2^61
/-- Die scratch: 512 KiB for each slice (R240). -/
def dieScratchBase : Nat := 2^62

/-- Tokens of a coherent line (R253). -/
def tokensPerLine : Nat := 16384

end Sys2Proof.Config
end

