-- ==== Sys2Proof/Machine/State.lean ====
section
/-! DEFINITION. Every piece of state the spec gives the FJ-8 module, as plain data, and the machine right after
bring-up (R401). Registers, flags and descriptor words that software reads whole are bit vectors; queues are lists,
oldest first; counts, cycles and instants are natural numbers. -/
namespace Sys2Proof.Machine

/-- Why the machine stops. No meaning of this model stops: every trap of the spec is taken, and a happening that is not
enabled changes nothing. -/
inductive Fault where
  /-- Raised by nobody: kept so that a stop has a name. Safe, since no step reaches it. -/
  | unreachable
  deriving DecidableEq, Repr

/-- Why an instruction has no meaning. -/
inductive Refusal where
  /-- An instruction of the opcode table that the model does not give a meaning: raised only by a refused arm of
  `exec`. Safe: the machine stops where the hardware goes on. -/
  | notModelled (mnemonic : String)
  deriving DecidableEq, Repr

/-- Memory (R46, R122, R127, R133, R385): the bytes that are not zero, the aligned 8-byte words whose full bit is
clear, and the aligned 8-byte words that are poisoned, each list strictly rising by place key. -/
structure Memory where
  cells : List Host.Cell := []
  empties : List Nat := []
  poisoned : List Nat := []
  deriving DecidableEq, Repr

/-- One change of memory. A word is named by its place key divided by 8. -/
inductive Edit where
  | byte (key : Nat) (value : Byte)
  | full (word : Nat) (isFull : Bool)
  | poison (word : Nat) (isPoisoned : Bool)
  /-- Writes zero, full and unpoisoned over the words from lo up to, not including, hi (R403). -/
  | clear (lo hi : Nat)
  deriving DecidableEq, Repr

/-- A register of a context's windows (R15). -/
inductive Reg where
  | g (n : Nat)
  | v (n : Nat)
  deriving DecidableEq, Repr

/-- A scalar register with its full bit and poison mark (R18, R384). -/
structure GReg where
  val : Word := 0
  full : Bool := false
  poison : Bool := false
  deriving DecidableEq, Repr

/-- A vector register with its tag, scale word, full bit and poison mark (R18, R55, R384). -/
structure VReg where
  bits : VBits := 0
  tag : BitVec 4 := 0
  scale : Lane := 0x3F800000
  full : Bool := false
  poison : Bool := false
  deriving DecidableEq, Repr

/-- The per-context system registers (R115, R260, R365). -/
structure SysRegs where
  wlim : Word := 0
  dline : Word := 0
  srseed : Word := 0
  trapcause : BitVec 8 := 0
  trappc : Word := 0
  trapval : Word := 0
  trapvec : Word := 0
  fflags : BitVec 6 := 0
  frm : BitVec 3 := 0
  srctr : BitVec 32 := 0
  trapscr : Word := 0
  inh : Bool := false
  pin : Bool := false
  shipcnt : BitVec 32 := 0
  presel : Word := 0
  prearea : Word := 0
  deriving DecidableEq, Repr

/-- What an instruction of a context reads and writes of its own: the registers a checkpoint holds (R8, R25). -/
structure Regs where
  g : Vector GReg 128 := Vector.replicate 128 (GReg.mk 0 false false)
  v : Vector VReg 64 := Vector.replicate 64 (VReg.mk 0 0 0x3F800000 false false)
  k : Vector (BitVec 32) 8 := Vector.replicate 8 0
  sys : SysRegs := SysRegs.mk 0 0 0 0 0 0 0 0 0 0 0 false false 0 0 0
  pc : Word := 0
  conflict : BitVec 32 := 0
  wakePending : Bool := false
  deriving DecidableEq, Repr

/-- What a parked or sleeping context waits for (R9, R13). -/
inductive WaitKind where
  /-- The instruction at the pc is tried again at each turn until it can complete. -/
  | retry
  /-- A synchronised read found its register empty: tried again at each turn, and made ready by a deposit (R19, R22). -/
  | sync (r : Reg)
  /-- A request of the context stands in a queue of another unit, whose answer completes the instruction. -/
  | queued
  /-- An STF.E stands at its owning port (R132). -/
  | port
  /-- An entry of the array queue belongs to the context (R183 to R185). -/
  | array
  /-- BARW until a group's phase has advanced past one: tried again at each turn, and made ready by the advance (R224, R299). -/
  | phase (group : Nat) (phase : BitVec 32)
  /-- BAR after its arrival: the phase arrived in of a group (R224). -/
  | barrier (group : Nat) (phase : BitVec 32)
  /-- WLPUSH after its append, with the number of its increment (R225). -/
  | pushed (increment : Nat)
  /-- A landing request stands at the anchor die (R262). -/
  | landing
  /-- WAITC until a cycle of the core (R37, R213). -/
  | cycle (until_ : Nat)
  /-- WAITW until a wall instant in ns (R37, R213). -/
  | wall (until_ : Nat)
  /-- SLEEPM (R213). -/
  | monitor
  /-- WAITK on the slots of the mask (R213). -/
  | slots (mask : BitVec 16)
  deriving DecidableEq, Repr

/-- A wait: what for, since which wall ns, its expiry instant and cause if it is bounded (R38), and the register its
completion writes. -/
structure Wait where
  kind : WaitKind
  t0 : Nat
  expiry : Option (Nat × BitVec 8)
  dest : Nat
  deriving DecidableEq, Repr

/-- A message waiting in a core's network interface (R21). -/
structure Deposit where
  cls : Nat
  payload : Word
  sender : BitVec 32
  id : Nat := 0
  /-- The first word of an MSEND2, whose deposit comes before this one (R220). -/
  follows : Option Nat := none
  deriving DecidableEq, Repr

/-- What an instruction has taken of the operands it read and, while it waits, still gives back if it never completes (R8):
the full bit of a synchronised read, or an element popped from a generator. -/
inductive Taken where
  /-- With what a deposit that has refilled the register since wrote over, and that deposit (R20, R21). -/
  | full (r : Reg) (under : Option (Word × Deposit))
  | element (gen : Nat) (value : Option VBits)
  deriving DecidableEq, Repr

/-- Run-ahead behind a translation fault (R354, R355). -/
structure Ahead where
  /-- The shadow registers, with the address that run-ahead has come to. -/
  regs : Regs
  /-- Registers that read as unknown. -/
  unknown : List Reg := []
  /-- An unknown value may stand in a mask, in FFLAGS, in SRCTR or in CONFLICT. -/
  hidden : Bool := false
  /-- Unknown registers that the result of an access or a divide, named by its number, will make known. -/
  awaited : List (Nat × Reg) := []
  /-- The page words of the batch, the checkpointed access's first (R357). -/
  pages : List Word := []
  /-- Instructions issued in run-ahead. -/
  issued : Nat := 0
  stopped : Bool := false
  deriving DecidableEq, Repr

/-- The state of a context slot that is not empty (R13). A stalled context is ready. -/
inductive Phase where
  | ready
  | parked (w : Wait)
  | sleeping (w : Wait)
  /-- Stopped, with HOW, the exit code and the trap cause of R217. -/
  | stopped (how : BitVec 8) (code : BitVec 16) (cause : BitVec 8)
  /-- A trap waits for the pending results (R119). -/
  | trapping (cause : BitVec 8) (val pc : Word)
  /-- A translation fault was met; the context runs ahead in its turns, and its batch is not yet written to the fault queue (R354). -/
  | faulted (cls : Nat) (addr : Word) (need : BitVec 3) (ahead : Ahead)
  /-- Parked for firmware's answer to entry `entry` of the fault queue (R356). -/
  | swept (entry : Nat)
  deriving DecidableEq, Repr

/-- The context's monitor (R138, R139). -/
structure Monitor where
  addr : Word
  key : Nat
  fired : Bool
  /-- The registration's own number, and whether it has reached the owning port. -/
  reg : Nat
  registered : Bool
  deriving DecidableEq, Repr

/-- A long-latency result that has not been retired (R24). -/
structure Pending where
  id : Nat
  dests : List Reg
  left : Nat
  arrived : Bool
  /-- The instruction can still fault or trap, so that its window may be rolled back. -/
  mayFault : Bool
  /-- A divide: the cycle its result is written and the value (R114). -/
  due : Option (Nat × Word)
  /-- The places reserved in write streams for stream-bound destinations: register, generator and append number (R26). -/
  reserved : List (Reg × Nat × Nat)
  deriving DecidableEq, Repr

/-- A context slot's context. -/
structure Context where
  tid : BitVec 32 := 0
  launch : Nat := 0
  part : Nat := 0
  vf : Nat := 0
  priv : Bool := false
  groups : List Nat := []
  gBase : Nat := 0
  gCount : Nat := 8
  vBase : Nat := 0
  vCount : Nat := 0
  regs : Regs := {}
  phase : Phase := .ready
  pending : List Pending := []
  monitor : Option Monitor := none
  /-- Number of the next memory event in the thread's program order (R272). -/
  seq : Nat := 0
  /-- Sequence numbers of lane reductions issued and not yet taken (R261, R369). -/
  reductions : List (BitVec 32) := []
  /-- Wall ns of the first turn at which the instruction at the pc could not complete by a stream stall or a park (R38). -/
  stallSince : Option Nat := none
  /-- The context's latest turn was a stream stall, which WLIM and DLINE bound (R13, R38). -/
  stalled : Bool := false
  /-- What the instruction the context waits in gives back if it never completes (R8). -/
  taken : List Taken := []
  /-- Accesses below this number used a translation that a TLBINV of the context dropped (R144). -/
  tlbMark : Nat := 0
  /-- Releasing fences that the context passed before their condition held: number of the first later access, and scope. Later
  writes wait for it, later loads do not (R137, R275). -/
  rels : List (Nat × BitVec 2) := []
  /-- A fault-queue answer was taken: the next translation fault at the address raises XLATE (R356). -/
  answered : Option Word := none
  /-- The instruction of the context's latest turn: one that parked is tried again without another fetch (R13). -/
  held : Option Instr := none
  /-- Number of the context's latest PRECMD (R365). -/
  command : Option Nat := none
  /-- Number of the next access when the fence that the context is parked in was first tried (R377). -/
  fence : Option Nat := none
  deriving DecidableEq, Repr

/-- An entry of the spill ring (R372). -/
inductive Spill where
  | deposit (d : Deposit)
  | transfer (slot tag : Nat) (bits : BitVec 65536) (scales : BitVec 2048) (poison : Bool) (fault : Option (BitVec 8 × Word))
  deriving DecidableEq, Repr

/-- A lane reduction that has issued and whose value has not reached RRES (R27). -/
structure Reduction where
  seq : BitVec 32
  value : Word
  slot : Nat
  /-- It has completed and is held behind an untaken result. -/
  held : Bool
  launch : Nat
  /-- The TID of its issuer, and whether an expiry has ended the park behind it for good (R27). -/
  tid : BitVec 32 := 0
  released : Bool := false
  /-- Cycle of its issue (R12). -/
  at_ : Nat := 0
  deriving DecidableEq, Repr

/-- A SACQ waiting at a semaphore (R234). -/
structure SemWaiter where
  sem : Nat
  need : BitVec 32
  slot : Nat
  deriving DecidableEq, Repr

/-- A circular buffer of a core (R235, R249): its claims, the claims that are filled, taken and freed, by running
count. -/
structure CircBuf where
  base : Word
  entries : Nat
  bytes : Nat
  claimed : Nat := 0
  filled : Nat := 0
  /-- Claims whose copies are done but stand behind an earlier unfilled claim. -/
  ready : List Nat := []
  taken : Nat := 0
  freed : Nat := 0
  deriving DecidableEq, Repr

/-- A stream generator (R26, R227, R228). -/
structure Gen where
  defined : Bool := false
  write : Bool := false
  sext : Bool := false
  scope : BitVec 2 := 0
  width : Nat := 0
  count : Nat := 0
  stride : Int := 0
  base : Word := 0
  /-- Elements popped or appended since SGDEF. -/
  position : Nat := 0
  bound : Option (Nat × Reg) := none
  /-- Read: elements fetched and not popped. Write: elements appended and not performed; none is a place reserved. -/
  queue : List (Option VBits) := []
  /-- Write: number of the append at the head of the queue. -/
  performed : Nat := 0
  /-- Read: the latest elements popped, newest first, which a roll-back of the popping instructions gives back (R25). -/
  spent : List (Option VBits) := []
  /-- Write: appends that a roll-back may still take back: append number, and the access after which it was made (R25). -/
  holds : List (Nat × Nat) := []
  /-- Write: numbers of places whose results were discarded: no element is written there (R218). -/
  gaps : List Nat := []
  fault : Option (BitVec 8 × Word) := none
  /-- A fetch or write that waits for an answer to its fault-queue entry (R358). -/
  waiting : Option Nat := none
  /-- The address whose fault-queue entry firmware answered. -/
  answered : Option Word := none
  /-- Read: a pop has reached the faulted element (R228). -/
  reached : Bool := false
  owner : Nat := 0
  vf : Nat := 0
  /-- Write: earlier owners that have elements left: slot, VF and the number of the first append that is not theirs (R217). -/
  prior : List (Nat × Nat × Nat) := []
  /-- Address of the SGDEF (R357). -/
  pc : Word := 0
  /-- Words of a 128-byte element in progress that have performed, by number, with the data read (R121, R250). -/
  part : List (Nat × Word) := []
  deriving DecidableEq, Repr

/-- An operand slot's state (R174). -/
inductive SlotState where
  | free
  | local_
  | recv (dir : BitVec 3)
  | full
  | faulted (cause : BitVec 8) (addr : Word)
  deriving DecidableEq, Repr

/-- An operand slot (R173, R174). -/
structure OpSlot where
  state : SlotState := .free
  owner : Nat := 0
  tag : Nat := 0
  bits : BitVec 65536 := 0
  scales : BitVec 2048 := 0
  poison : Bool := false
  /-- Order of RECV claims (R177). -/
  claim : Nat := 0
  /-- Fills issued into the slot that have not ended, and the first fault among those since it left FREE or FULL. -/
  fills : Nat := 0
  firstFault : Option (BitVec 8 × Word) := none
  matched : Bool := false
  /-- Instant, in fs, at which it last became FULL or FAULTED: the array takes note from the next cycle on (R183). -/
  fullAt : Nat := 0
  deriving DecidableEq, Repr

/-- A matrix-array operation (R183 to R185). -/
inductive ArrayOp where
  | mma (acc a b : Nat)
  | mmz (acc a b : Nat)
  | azero (acc : Nat)
  | aread (dest acc row form : Nat)
  deriving DecidableEq, Repr

/-- An entry of the array queue (R184). -/
structure ArrayEntry where
  op : ArrayOp
  slot : Nat
  started : Bool := false
  /-- The first cycle after its array time, once started. -/
  until_ : Nat := 0
  /-- Row groups done before a save, and whether it has begun, so that nothing bounds its issuer's wait any more (R183, R371). -/
  groups : Nat := 0
  begun : Bool := false
  deriving DecidableEq, Repr

/-- A send waiting at a string port (R181). -/
structure Send where
  slot : Nat
  dir : BitVec 3
  owner : Nat
  /-- The source holds what the send carries: it was FULL, or its awaited fill or transfer has ended (R181). -/
  ready : Bool := false
  matched : Bool := false
  deriving DecidableEq, Repr

/-- A sleep that a deposit (code 1) or TWAKE (code 2) has ended in the cycle in progress: an event of the same cycle with a lower
code still decides what gD holds (R213, R299). -/
structure Woken where
  slot : Nat
  kind : WaitKind
  dest : Nat
  code : Nat
  deriving DecidableEq, Repr

/-- A tag of a core's L1 data cache (R242 to R244): the VFID and the virtual address bits [56:7] under which it holds a physical
line, and the leaf, with its level, that the miss was translated by. It holds a copy while the core has a token of the line. -/
structure L1Tag where
  vf : Nat
  va : Nat
  line : Nat
  tile : Bool
  level : Nat
  entry : Word
  deriving DecidableEq, Repr

/-- One compute or gleaner core with everything it owns. -/
structure Core where
  /-- CYC: the cycle whose turn is being taken, and between turns the cycle that begins next (R34). -/
  cyc : Nat := 0
  /-- Recent finished cycles, newest first: begin and end in femtoseconds (R35). -/
  cycles : List (Nat × Nat) := []
  /-- Begin of the current cycle. -/
  begun : Nat := 0
  halted : Bool := false
  haltAt : Nat := 0
  fenced : Bool := false
  /-- Slots whose passed deadlines are still to be taken after a resume, in order (R41). -/
  overdue : List Nat := []
  slots : List (Option Context) := List.replicate 16 none
  /-- Earlier spawns into each slot in this launch (R215). -/
  spawns : List Nat := List.replicate 16 0
  classes : List (Option (Nat × Reg)) := List.replicate 16 none
  waiting : List Deposit := []
  /-- The deposit applied in the cycle in progress: slot, register and payload (R20, R23). -/
  lastDeposit : Option (Nat × Reg × Word) := none
  /-- The waiting deposits that could be applied when the present cycle began (R21). -/
  dueNow : List Deposit := []
  /-- Sleeps ended in the cycle in progress (R213, R299). -/
  woke : List Woken := []
  /-- A cycle to come whose turn has been used before it began: a context woken in its own turn's cycle waits (R14). -/
  used : Option Nat := none
  /-- Accesses and divides whose results reached the core while its clock was halted, in order of arrival (R40). -/
  inbound : List Nat := []
  /-- Instant from which the length of the present cycle is bounded: its begin, or the resume of the clock (R32). -/
  runSince : Nat := 0
  spill : List Spill := []
  /-- Entries of the ring that have been written to the area of the saved core (R372, R373). -/
  spilt : Nat := 0
  /-- Slots whose core-tied contexts were saved and whose resources the core still holds (R368). -/
  tied : List Nat := []
  /-- The core is being held by a per-core SAVE (R371). -/
  saved : Bool := false
  rres : Word := 0
  rresSeq : BitVec 32 := 0xFFFFFFFF
  rresTaken : Bool := true
  rresPoison : Bool := false
  redCtr : BitVec 32 := 0
  reductions : List Reduction := []
  sems : List (BitVec 32) := List.replicate 64 0
  semWaiters : List SemWaiter := []
  /-- Save area holding the semaphore image of a saved core (R374). -/
  semImage : Option Nat := none
  bufs : List (Option CircBuf) := List.replicate 8 none
  bufWaiters : List (Nat × Nat) := []
  gens : List Gen := List.replicate 16 {}
  workList : List Word := []
  shippedOut : Nat := 0
  receivedIn : Nat := 0
  opSlots : List OpSlot := List.replicate 16 {}
  claims : Nat := 0
  /-- Accumulator rows that are not zero: 64 × accumulator + row, 64 elements of 32 bits. -/
  acc : List (Nat × BitVec 2048) := []
  accPoison : List Nat := []
  arrayQ : List ArrayEntry := []
  sends : List Send := []
  /-- Tags of the L1 data cache, oldest first (R242, R243). -/
  l1 : List L1Tag := []
  spcfg : BitVec 13 := 0
  /-- Sum-product engine scratch words that are not zero (R194). -/
  scratch : List (Nat × Lane) := []
  scratchPoison : List Nat := []
  /-- Cycles at which the busy trees become free (R208). -/
  trees : List Nat := []
  leafPort : Nat := 0
  /-- Engine instructions that have not finished: issuing slot and last cycle (R206). -/
  engine : List (Nat × Nat) := []
  /-- Writes sent to each die, and of those the writes that the die has received, modulo 2^32 (R259). -/
  sent : List (Nat × BitVec 32) := []
  got : List (Nat × BitVec 32) := []
  /-- Halfwords held by the L1 instruction cache: place key and value fetched (R73). -/
  icache : List (Nat × BitVec 16) := []
  /-- Lines that an INVAL named and that the next FENCE.FULL of the core makes fetches read anew (R73). -/
  stale : List Nat := []
  launch : Nat := 0
  part : Nat := 0
  deriving DecidableEq, Repr

/-- A kind of access (R121). -/
inductive AccessKind where
  | load (signed : Bool) (bytes : Nat)
  | loadV (tag : BitVec 4)
  | loadScaled (tag : BitVec 4)
  | loadX
  | tileLoad (tag : BitVec 4)
  | store
  | tileStore
  | ldf (consume tryIt : Bool)
  | stf (wait : Bool)
  | amo (op : Nat) (wide : Bool) (expected : Word)
  | flush
  | clean
  | marm (reg : Nat)
  deriving DecidableEq, Repr

/-- Where an access performs (R122): the owning port. -/
inductive Port where
  | scratchpad (core : Nat)
  | lane (core : Nat)
  | bank (core : Nat)
  | dieScratch (slice : Nat)
  | slice (slice line : Nat)
  | host (line : Nat)
  | peer (link : Nat)
  deriving DecidableEq, Repr

/-- One single-copy-atomic part of an access: at most 8 bytes of one aligned word (R121, R270). -/
structure Piece where
  port : Port
  key : Nat
  bytes : Nat
  data : Word := 0
  /-- The address it was issued with, where the instruction gives this part an address of its own (R128, R129). -/
  own : Option Word := none
  /-- It lies in a tile line of 1 KiB (R141, R244). -/
  tile : Bool := false
  done : Bool := false
  /-- It waits at its port for the word's state, since this arrival number (R131, R133). -/
  waiting : Option Nat := none
  deriving DecidableEq, Repr

/-- An access in flight between its issue and its completion (R146, R251, R272). -/
structure Access where
  id : Nat
  core : Nat
  slot : Nat
  tid : BitVec 32
  part : Nat
  vf : Nat
  launch : Nat
  seq : Nat
  kind : AccessKind
  addr : Word
  scope : BitVec 2
  strong : Bool
  pieces : List Piece
  /-- The registers as they stood before the instruction (R8, R25). -/
  before : Option Regs := none
  /-- Positions of the context's generators before the instruction: generator and elements popped or appended (R8, R25). -/
  streams : List (Nat × Nat) := []
  /-- The releasing fences passed before it whose condition did not hold at its issue (R275). -/
  after : List (Nat × BitVec 2) := []
  /-- The context's monitor before the instruction (R8). -/
  monitor : Option Monitor := none
  /-- Deposits made since to registers that were full before the instruction, oldest first: a roll-back gives them back to the
  interface (R20, R21, R25). -/
  displaced : List Deposit := []
  dest : Option Reg
  expiry : Option (Nat × BitVec 8) := none
  /-- The port withdrew it at the end of its wait (R131). -/
  withdrawn : Bool := false
  /-- It can no longer fault: a part of it, or an effect of a later instruction of the thread, has performed (R8, R124). -/
  passed : Bool := false
  /-- Dies that have received it (R259). -/
  landed : List Nat := []
  /-- Its fault, if its owning port met one (R124). -/
  fault : Option (BitVec 8 × Word) := none
  /-- The access has been handed over by a landed or restored context or its context is gone: its result is dropped. -/
  orphan : Bool := false
  /-- A host transaction of the access that the host has not answered (R376). -/
  hostPending : Bool := false
  deriving DecidableEq, Repr

/-- A line's tokens that are not all at its home (R253, R254). -/
structure LineState where
  home : Nat := 16384
  homeOwner : Bool := true
  homeDirty : Bool := false
  /-- L1 holders: core, tokens, owner token, dirty. -/
  holders : List (Nat × Nat × Bool × Bool) := []
  lost : Bool := false
  /-- Soft directory: dies whose L1s were last sent tokens, latest first (R255). -/
  directory : List Nat := []
  /-- The line is a tile line of 1 KiB, named by its first 128 bytes (R244). -/
  tile : Bool := false
  deriving DecidableEq, Repr

/-- A message that carries tokens (R254). -/
structure TokenMsg where
  line : Nat
  tokens : Nat
  owner : Bool
  dirty : Bool
  /-- The core it goes to; none is the home. -/
  to_ : Option Nat
  from_ : Nat
  /-- The core whose write count a write-back belongs to (R259). -/
  owed : Option Nat := none
  deriving DecidableEq, Repr

/-- A transient token request (R255). -/
structure TokenReq where
  line : Nat
  core : Option Nat
  write : Bool
  tries : Nat := 0
  /-- Wall ns of its first and of its latest sending. -/
  first : Nat
  sentAt : Nat
  /-- Of an engine's access or a stream element, which has no number (R246, R250). -/
  engine : Bool := false
  deriving DecidableEq, Repr

/-- An entry of a home die's persistent-request table or one waiting for room (R256). -/
structure PersistReq where
  die : Nat
  line : Nat
  core : Option Nat
  write : Bool
  active : Bool := false
  admitted : Bool := false
  engine : Bool := false
  /-- Once it is deactivated, the dies that have not acknowledged it: it then frees. -/
  closing : Option (List Nat) := none
  deriving DecidableEq, Repr

/-- The state of a die link (R266). -/
inductive LinkState where
  | active
  | asleep
  | waking
  | lost
  deriving DecidableEq, Repr

/-- A die link that has not always been active: two dies and its state. -/
structure DieLink where
  a : Nat
  b : Nat
  state : LinkState := .active
  /-- Wall ns at which its wake began (R266). -/
  since : Nat := 0
  deriving DecidableEq, Repr

/-- A message on its way (R220, R304): handed to its source port, injected, or at the destination. -/
structure Message where
  from_ : Nat
  sender : BitVec 32
  part : Nat
  to_ : Nat
  cls : Nat
  payload : Word
  /-- The slot it was sent from, and the cycle of its core at which the core has handed it to its interface (R45, R304). -/
  slot : Nat := 0
  handAt : Nat := 0
  /-- Wall ns it reached its source port, once it has. -/
  atPort : Option Nat := none
  /-- Wall ns of its delivery once injected; dies with no bound deliver when the agenda says. -/
  due : Option Nat := none
  delivered : Bool := false
  /-- Wall ns it left its source port (R304). -/
  injected : Option Nat := none
  /-- Flits of other kinds that stand before it at its source port (R304). -/
  ahead : Nat := 0
  id : Nat := 0
  follows : Option Nat := none
  deriving DecidableEq, Repr

/-- A fence marker (R259). -/
structure Marker where
  core : Nat
  slot : Nat
  die : Nat
  /-- The core's count of writes to the die, which must have reached it. -/
  count : BitVec 32
  arrived : Bool := false
  acked : Bool := false
  /-- Of a releasing fence that the context has passed: the number of the first later access (R137). -/
  rel : Option Nat := none
  deriving DecidableEq, Repr

/-- A monitor's fire on its way (R258): the partition, launch and TID it follows, and the registration that fired. -/
structure Fire where
  part : Nat
  tid : BitVec 32
  launch : Nat
  reg : Nat
  deriving DecidableEq, Repr

/-- A landing request, and after its reservation the slot it holds (R262, R263). -/
structure Landing where
  core : Nat
  slot : Nat
  die : Nat
  line : Nat
  /-- It has reached the die. -/
  arrived : Bool := false
  reserved : Option (Nat × Nat × Nat × Nat) := none
  deriving DecidableEq, Repr

/-- A PRECMD that runs (R365). -/
structure Command where
  save : Bool
  presel : Word
  prearea : Word
  core : Nat
  slot : Nat
  vf : Nat
  part : Nat
  /-- Accesses of the issuer below this number must have performed. -/
  after : Nat
  /-- Its own number; the writes its core had sent to each die when it was given, for which it waits too; and whether it has reached
  the core it names (R259, R365, R367). -/
  id : Nat := 0
  sent : List (Nat × BitVec 32) := []
  reached : Bool := false
  deriving DecidableEq, Repr

/-- A registered tensor (R140). -/
structure Tensor where
  id : Nat
  base : Word
  tag : BitVec 4
  rows : Nat
  cols : Nat
  vf : Nat
  launch : Nat
  deriving DecidableEq, Repr

/-- An entry of a fault queue that has not been answered, or that waits for room (R357). -/
structure FaultEntry where
  index : Option Nat
  words : List Word
  deriving DecidableEq, Repr

/-- A group's barrier word and member list (R223, R300). -/
structure Group where
  id : Nat
  members : List (BitVec 32)
  generation : BitVec 32 := 0
  arrived : List (BitVec 32) := []
  /-- Members that stopped and no longer count. -/
  gone : List (BitVec 32) := []
  /-- Arrivals of members that stopped after arriving, counted in this phase only. -/
  leaving : List (BitVec 32) := []
  deriving DecidableEq, Repr

/-- A live or saved launch (R342 to R346). -/
structure Launch where
  id : Nat
  part : Nat
  vf : Nat
  queue : Word
  index : Nat
  prio : Nat
  /-- Wall ns of its packet's notification, and the packet's slot (R343, R345). -/
  at_ : Nat := 0
  slotAddr : Word := 0
  trace : Bool
  cores : List Nat
  groups : List Group := []
  workCount : Nat := 0
  interval : Nat := 1
  started : Nat := 0
  /-- Levelling samples taken (R302). -/
  sampled : Nat := 0
  preempted : Bool := false
  /-- Set when the launch has ended: END, CORE and CAUSE of R345; reaps may still be deferred. -/
  ended : Option (Nat × Nat × Nat) := none
  psubs : List (Nat × Nat) := []
  deriving DecidableEq, Repr

/-- A virtual function (R338 to R341). -/
structure Vf where
  part : Option Nat := none
  root : Word := 0
  /-- Its launch queue once a launch packet has been posted to one: the header's address and place key (R341). -/
  queue : Option (Word × Nat) := none
  memLim : Nat := 0
  fabLim : Nat := 0
  window : Nat := 1
  /-- Metered bytes of the current window, one count for each meter point. -/
  used : List (Nat × Nat) := []
  /-- Number of the window that the counts belong to (R340). -/
  windowNo : Nat := 0
  deriving DecidableEq, Repr

/-- A launch packet notified to the dispatcher, waiting at the head or behind it (R341, R343). -/
structure QueuedLaunch where
  vf : Nat
  queue : Word
  index : Nat
  at_ : Nat
  /-- The packet as posted and the address of its slot. -/
  words : List Word := []
  slotAddr : Word := 0
  deriving DecidableEq, Repr

/-- An input from outside that a partition holds (R393, R397). -/
inductive Input where
  | post (vf : Nat) (queue : Word) (packet : List Word)
  | control (packet : List Word)
  | capability (offset length : Nat)
  | attestation (nonce : BitVec 384)
  | errorLog (first : Word) (count : BitVec 32)
  | hmrd (addr : Word) (data : List Byte)
  | hamo (n : Nat) (old : Word)
  | peer (link : Nat) (header : Word) (payload : List Byte) (crcGood : Bool)
  deriving DecidableEq, Repr

/-- A partition (R328, R334, R352, R390, R391, R395, R397). -/
structure Partition where
  blocks : List Nat := []
  /-- Memory channels: die, first channel, count. -/
  channels : List (Nat × Nat × Nat) := []
  /-- TDM slots of each die, as a mask. -/
  tdm : List (Nat × BitVec 64) := []
  /-- Die-scratch granules of each die. -/
  granules : List (Nat × Nat) := []
  links : List (Nat × Nat) := []
  fqbase : Word := 0
  fqwr : BitVec 32 := 0
  fqrd : BitVec 32 := 0
  fqans : BitVec 32 := 0
  /-- Entries written and not answered, then entries that wait for room. -/
  faults : List FaultEntry := []
  xvfsel : BitVec 9 := 0
  pool : List (Nat × Nat) := []
  elbase : Word := 0
  elwr : Word := 0
  elrd : BitVec 32 := 0
  trbase : Word := 0
  trwr : BitVec 32 := 0
  trrd : BitVec 32 := 0
  trplay : Word := 0
  trpcnt : BitVec 32 := 0
  /-- Records of the replayed trace already performed, for each port (R398). -/
  replayed : List Nat := []
  krbase : Word := 0
  krwr : BitVec 32 := 0
  krrd : BitVec 32 := 0
  /-- Inputs that a full Krovton ring or a checkpoint holds, each with the wall ns of its arrival (R393, R397). -/
  held : List (Nat × Input) := []
  grbase : Word := 0
  tensors : List Tensor := []
  launches : Nat := 0
  queued : List QueuedLaunch := []
  /-- Launch packets that ended while an earlier one of their queue has not: VF, header, index (R345). -/
  finished : List (Nat × Word × Nat) := []
  /-- A CHECKPOINT with HOLD keeps the launches saved and holds inputs (R392, R393). -/
  holding : Bool := false
  krseq : Nat := 0
  deriving DecidableEq, Repr

/-- A notification on its way to a copy engine (R303). -/
structure Notice where
  cluster : Nat
  vf : Nat
  header : Word
  ring : Word
  log2n : Nat
  index : Nat
  privileged : Bool
  /-- The packet as posted. -/
  words : List Word
  /-- The launch and TID of the posting context, which it keeps wherever it goes (R117); none for the host or a peer. -/
  poster : Option (Nat × Nat)
  /-- The core relative to which the poster's own window addresses, those of the header and the ring, are taken (R236). -/
  home : Nat := 0
  deriving DecidableEq, Repr

/-- A copy queue known to an engine's ring: its VF, header address, next index to start (R303). -/
structure CopyQueue where
  vf : Nat
  header : Word
  ring : Word
  log2n : Nat
  /-- Notifications arrived whose packets have not started, in index order. -/
  waiting : List Notice := []
  notified : Nat
  started : Nat
  done : List Nat := []
  read : Nat
  /-- The core in whose own window the header lies; 0 where its address is no such window (R236). -/
  home : Nat := 0
  deriving DecidableEq, Repr

/-- A packet in progress in a copy engine (R233, R246). -/
structure Packet where
  cluster : Nat
  queue : Nat
  vf : Nat
  index : Nat
  slotAddr : Word
  words : List Word
  privileged : Bool
  poster : Option (Nat × Nat)
  /-- It has ended with this STATUS, and its completion record or RDIDX is still to be written. -/
  status : Option Nat := none
  /-- Its record is written and its signal given: RDIDX remains (R233). -/
  recorded : Bool := false
  /-- The circular-buffer claim it fills. -/
  claim : Option Nat := none
  /-- A CBPUT copy, which has no ring slot (R235). -/
  cbput : Bool := false
  /-- TARGET: the core relative to which window addresses are taken (R232); the source of a CBPUT lies in its issuer's own window
  (R235, R236). -/
  origin : Nat := 0
  from_ : Nat := 0
  /-- The core in whose own window its queue's header lies, and that of its slot (R236). -/
  home : Nat := 0
  slotHome : Nat := 0
  waiting : Option Nat := none
  answered : Option Word := none
  /-- Bytes of the destination already written, in whole chunks (R246). -/
  chunks : Nat := 0
  /-- Writes of the chunk in progress that have not performed: a place and its bytes within one word, or no bytes for the full bit of
  a range set (R246, R251). -/
  rest : List (Nat × List Byte) := []
  /-- It has started; a CBPUT copy waits while 16 packets are in progress (R303). -/
  started : Bool := true
  /-- A migration the packet started (R360). -/
  migrating : Bool := false
  deriving DecidableEq, Repr

/-- A fill of an operand slot in progress (R179). -/
structure Fill where
  core : Nat
  slot : Nat
  op : Nat
  addr : Word
  desc : Word
  pc : Word
  vf : Nat
  part : Nat
  waiting : Option Nat := none
  answered : Option Word := none
  /-- Units of its tile and scales that it has read, by number (R133, R251). -/
  got : List (Nat × List Byte) := []
  deriving DecidableEq, Repr

/-- A matched string transfer (R181, R182). -/
structure Transfer where
  from_ : Nat
  source : Nat
  to_ : Nat
  target : Nat
  due : Nat
  spilled : Bool := false
  deriving DecidableEq, Repr

/-- A request that a meter has refused and that waits there (R340): its VF, the meter point, and which request it is: an access and
its part (0), a packet's queue and index (1), a fill's core and slot (2), a stream's core and generator (3), a migration's frame (4). -/
structure MeterWait where
  vf : Nat
  point : Nat
  who : Nat × Nat × Nat
  deriving DecidableEq, Repr

/-- A semaphore operation on its way (R234). -/
structure Signal where
  core : Nat
  sem : Nat
  add : BitVec 32
  deriving DecidableEq, Repr

/-- A barrier arrival (kind 0) or a change of the work count (2 WLPUSH, 3 WLDONE) on its way to a home (R223, R225). -/
structure Arrival where
  launch : Nat
  kind : Nat
  group : Nat
  tid : BitVec 32
  core : Nat
  slot : Nat
  waits : Bool
  /-- Number of a WLPUSH's increment (R225). -/
  id : Nat := 0
  deriving DecidableEq, Repr

/-- A block queue (R191). -/
structure BlockQueue where
  id : Nat
  n : BitVec 32
  next : BitVec 32 := 0
  done : BitVec 32 := 0
  owner : Nat
  deriving DecidableEq, Repr

/-- A block-queue request on its way (R192): 0 BQGET, 2 BQDONE, 3 BQINIT. -/
structure BlockReq where
  kind : Nat
  q : Word
  n : BitVec 32
  core : Nat
  slot : Nat
  part : Nat
  deriving DecidableEq, Repr

/-- Work items on their way to a neighbour (R226, R302). -/
structure Shipment where
  from_ : Nat
  to_ : Nat
  items : List Word
  deriving DecidableEq, Repr

/-- A page migration in progress (R361). -/
structure Migration where
  part : Nat
  vf : Nat
  page : Word
  entryKey : Nat
  entry : Word
  source : Nat
  target : Nat
  sourceDie : Nat
  targetDie : Nat
  /-- The semaphore MIGR named, or none for a packet. -/
  sem : Option (Nat × Nat)
  /-- Of a migration packet: its cluster, queue, VF and index (R361). -/
  packet : Option (Nat × Nat × Nat × Nat)
  /-- Packed name of MIGR's context, or of the packet's engine (R357). -/
  asker : Nat := 0
  /-- Lines of the page whose copies the meters have admitted (R340). -/
  copied : Nat := 0
  deriving DecidableEq, Repr

/-- A cached translation (R350, R351). -/
structure TlbEntry where
  cluster : Nat
  vf : Nat
  base : Word
  level : Nat
  entry : Word
  deriving DecidableEq, Repr

/-- A partition-control command in its slot of the control queue (R332). -/
structure Control where
  packet : List Word
  index : Nat := 0
  /-- Of a CHECKPOINT that has begun: the partitions that were held before (R392, R393). -/
  kept : Option (List Nat) := none
  deriving DecidableEq, Repr

/-- What the device has sent to the host or a management requester (R376, R380). -/
inductive HostOut where
  | cfgData (addr value : Word)
  | cfgDone (addr : Word)
  | slotIndex (index : Word)
  | capability (bytes : List Byte)
  | accepted
  | refusedCode (code : Word)
  | quote (m : List (BitVec 384)) (nonce : BitVec 384) (wall boot : Word) (signature : BitVec 768)
  | records (rs : List (List Word))
  | hmrd (addr : Word) (bytes : Nat)
  | hamo (access : Nat) (key op : Nat) (operand expected : Word)
  | treq (line : Nat) (exclusive : Bool)
  | tret (line : Nat)
  | snoopAnswer (line grant : Nat)
  | hmwr (addr : Word) (data : List Byte)
  | xsyncAck (number : Word)
  deriving DecidableEq, Repr

/-- A request to a peer module's memory (R382): whose it is, which of that unit's requests, and the place it names: an access and its
part (0), a packet's read (1) or write (2), a fill (3), a stream element (4), a fetch (5), and what the dispatcher reads (6). -/
structure PeerReq where
  unit : Nat
  who : Nat × Nat
  key : Nat
  deriving DecidableEq, Repr

/-- A flit kept for replay (R381, R382): its sequence number, its header, the request it carries, and how often it was NACKed. -/
structure Flit where
  seq : BitVec 12
  header : Word
  req : Option PeerReq
  fails : Nat := 0
  deriving DecidableEq, Repr

/-- A Zarrel peer link (R381, R382). -/
structure PeerLink where
  id : Nat
  expect : BitVec 12 := 0
  nextSeq : BitVec 12 := 0
  sent : List Flit := []
  /-- Requests whose flits the peer has acknowledged and whose answers have not been taken. -/
  reports : List PeerReq := []
  /-- Credits returned by the peer, 8 bits for each traffic class. -/
  credit : BitVec 32 := 0
  nackSent : Option (BitVec 12) := none
  down : Bool := false
  heard : Nat := 0
  /-- Wall ns at which the latest flit left. -/
  beat : Nat := 0
  deriving DecidableEq, Repr

/-- An answer of a peer's memory that the Krovton recorder is still to record (R397). -/
structure PeerInput where
  part : Nat
  link : Nat
  addr : Word
  payload : List Byte
  deriving DecidableEq, Repr

/-- A request for a host line that waits at the host proxy (R378): its partition, which request it is (as of `MeterWait`, 8 an L1's and 9
any other), whether it needs the line exclusively, and the wall ns of its arrival there. -/
structure HostAsk where
  line : Nat
  part : Nat
  who : Nat × Nat × Nat
  exclusive : Bool
  since : Nat
  deriving DecidableEq, Repr

/-- A host snoop that stands at the proxy (R378): whether it takes the line, and the wall ns of its arrival. -/
structure Snoop where
  line : Nat
  exclusive : Bool
  since : Nat
  deriving DecidableEq, Repr

/-- An agent's next move: a core's cycle, or an event of the device, at an instant in femtoseconds. -/
inductive Move where
  | cycle (core at_ : Nat)
  | event (e : Instr) (at_ : Nat)
  /-- The next chunk of a packet in progress, by its place in the list of packets (R246). -/
  | chunk (n at_ : Nat)
  /-- A fill in progress reads a unit of its tile or scales, by their places in the lists of fills and units (R179). -/
  | fillRead (n unit at_ : Nat)
  /-- An input that arrived at a wall ns and was held comes in again (R393, R397). -/
  | input (e : Input) (arrived at_ : Nat)
  /-- A core's L1 instruction cache takes in the line of a place ahead of its use (R73; assumption 80). -/
  | fetchAhead (core key at_ : Nat)
  deriving DecidableEq, Repr

/-- A context or core taken from its hardware, as its save area holds it (R369, R373; assumption 21). -/
structure Saved where
  area : Nat
  core : Nat
  slot : Nat
  whole : Bool
  ctx : Option Context
  unit : Option Core
  /-- Expiry instant and cause of a withdrawn wait (R39). -/
  expiry : Option (Nat × BitVec 8) := none
  tied : Bool := false
  /-- The trap that a queued multiply of the saved context has met (R183, R370). -/
  trap : Option (BitVec 8 × Word) := none
  /-- Address of the area and the VF it was written through (R365, R372). -/
  addr : Word := 0
  vf : Nat := 0
  /-- Of a core that the dispatcher took: its launch and partition, and whether another launch has the core (R344). -/
  launch : Nat := 0
  part : Nat := 0
  aside : Bool := false
  /-- The contexts of a whole core. -/
  ctxs : List (Nat × Context × Option (Nat × BitVec 8)) := []
  /-- Scratchpad and lane slices of a core that the dispatcher took (R344). -/
  cells : List Host.Cell := []
  empties : List Nat := []
  poisoned : List Nat := []
  deriving DecidableEq, Repr

/-- A checkpoint of a partition in its granary (R391 to R394; assumption 22). -/
structure Image where
  part : Nat
  base : Nat
  wall : Nat
  shape : List (Nat × Nat)
  /-- The partition's field blocks in order, its cores as they were taken, and what the dispatcher and the engines held. -/
  blocks : List Nat
  cores : List Saved
  launches : List Launch
  started : Nat
  tensors : List Tensor
  engines : List (Nat × List CopyQueue)
  /-- The spans copied, mapped HBM4E frames and die scratch: place, bytes, and place of the copy in the granary. -/
  copies : List (Nat × Nat × Nat)
  /-- Places in the granary of the save areas that were written. -/
  areas : List Nat
  size : Nat := 0
  /-- Contexts and cores that firmware had saved (R394). -/
  kept : List Saved := []
  deriving DecidableEq, Repr

/-- The device's own state beside memory. -/
structure Device where
  /-- Femtoseconds since package reset release: WALL is this in whole ns (R33). -/
  now : Nat := 0
  /-- The core whose cycle comes next when the agenda is empty. -/
  focus : Nat := 0
  /-- The core and slot whose turn it is. -/
  core : Nat := 0
  slot : Nat := 0
  /-- The moves of all agents to come, in their order (assumption 1). -/
  agenda : List Move := []
  /-- The model's own counter of free values drawn (assumption 2). -/
  freeCtr : Nat := 0
  /-- Cores that are not as bring-up left them. -/
  cores : List (Nat × Core) := []
  parts : List (Nat × Partition) := []
  vfs : List (Nat × Vf) := []
  launches : List Launch := []
  accesses : List Access := []
  nextAccess : Nat := 0
  lines : List (Nat × LineState) := []
  tokenMsgs : List TokenMsg := []
  tokenReqs : List TokenReq := []
  persist : List PersistReq := []
  /-- Soft-directory hints on their way: line and the die whose L1s hold no token of it any more (R255). -/
  hints : List (Nat × Nat) := []
  /-- Write-back buffers of the home slices: slice and line (R257). -/
  writeBacks : List (Nat × Nat) := []
  dieLinks : List DieLink := []
  /-- Wall ns of the last heartbeat of each die; one not listed was last heard at 0. -/
  heard : List (Nat × Nat) := []
  lostDies : List Nat := []
  messages : List Message := []
  markers : List Marker := []
  fires : List Fire := []
  landings : List Landing := []
  commands : List Command := []
  saved : List Saved := []
  /-- Restored contexts whose RESTORE waits for their multiply: core, slot and command (R370). -/
  restoring : List (Nat × Nat × Nat) := []
  images : List Image := []
  /-- Copy engines: cluster and its ring of queues. -/
  engines : List (Nat × List CopyQueue) := []
  packets : List Packet := []
  notices : List Notice := []
  fills : List Fill := []
  transfers : List Transfer := []
  signals : List Signal := []
  /-- Requests that wait at meters, in order of arrival (R340). -/
  meterQueue : List MeterWait := []
  arrivals : List Arrival := []
  blockQueues : List BlockQueue := []
  blockReqs : List BlockReq := []
  shipments : List Shipment := []
  migrations : List Migration := []
  tlb : List TlbEntry := []
  /-- Package log, newest first, each record eight dwords (R389, R390). -/
  log : List (List Word) := []
  logSeq : Nat := 1
  control : List Control := []
  /-- Slots of the control queue whose packets have completed, with STATUS in w7 (R332). -/
  controlDone : List Control := []
  /-- WRIDX, RDIDX and LOG2N of the control queue's header (R230, R332). -/
  controlWr : Nat := 0
  controlRd : Nat := 0
  controlLog2n : Nat := 12
  /-- Granary regions that lie in self-refresh while the package is reset or its core rail is lost (R391, R401). -/
  granaries : List (Nat × Nat) := []
  cfg : List (Word × Word) := []
  hostOut : List HostOut := []
  /-- Grants the host proxy holds: line and 1 shared, 2 exclusive (R378); 4 more once HMRD has brought the line's data; where it asked
  for the line's halves, 32 more, and 8 or 16 once the lower or the upper one has come (R376). -/
  grants : List (Nat × Nat) := []
  snoops : List Snoop := []
  /-- Requests that wait at the proxy for a grant or its data (R378, R397). -/
  hostAsks : List HostAsk := []
  /-- TREQs the host has not granted: line, and whether exclusive (R378). -/
  treqs : List (Nat × Bool) := []
  /-- HMWRs the host has not completed: number and line (R377). -/
  hmwrs : List (Nat × Nat) := []
  /-- XINVs that no XSYNC has covered: VF, and the first access number after it (R379). -/
  xinvs : List (Nat × Nat) := []
  /-- XSYNCs not yet answered, oldest first: number, and how many of the XINVs it covers (R379). -/
  xsyncs : List (Word × Nat) := []
  peers : List PeerLink := []
  inputs : List PeerInput := []
  /-- Arrival, in wall ns, of the held input that is coming in again (R397). -/
  entering : Option Nat := none
  /-- UCIe modules: data lanes in use (R375). -/
  lanes : List Nat := [64, 64, 64, 64]
  measurements : List (BitVec 384) := [0, 0, 0, 0]
  bootCount : Nat := 0
  /-- The step of R401 at which bring-up stopped; 0 when it passed. -/
  failedStep : Nat := 0
  railLost : Bool := false
  /-- Reaps deferred for copies in flight: launch, core, slot (R346). -/
  deferred : List (Nat × Nat × Nat) := []
  deriving DecidableEq, Repr

/-- The machine: memory, and the device beside it. -/
structure State where
  mem : Memory
  dev : Device
  deriving DecidableEq, Repr

/-- The machine after step 7 of bring-up (R401): WALL 0, no partition, every context slot empty, all memory zero, full
and unpoisoned. -/
def State.reset : State := ⟨{}, {}⟩

end Sys2Proof.Machine
end

