-- ==== Sys2Proof/Machine/Memory.lean ====
section
/-! DEFINITION. Named operations over memory: sorted lists of cells and words, reads little-endian from the lowest
address (R46), edits, and the canonical form every edit keeps. -/
namespace Sys2Proof.Machine

/-- Strictly rising keys of an association list. -/
def rising : List Nat → Bool
  | a :: b :: r => decide (a < b) && rising (b :: r)
  | _ => true

/-- The canonical form: cells strictly rising and not zero, word lists strictly rising (assumption 6). -/
def Memory.wf (m : Memory) : Bool :=
  rising (m.cells.map Prod.fst) && m.cells.all (fun c => decide (c.2 ≠ 0)) && rising m.empties && rising m.poisoned

/-- The byte at a key in a cell list; an unlisted byte reads zero (R401, R403). -/
def cellAt (k : Nat) : List Host.Cell → Byte
  | [] => 0
  | (a, x) :: r => if a = k then x else if k < a then 0 else cellAt k r

/-- Puts a byte at a key, removing the entry when the byte is zero. -/
def cellPut (k : Nat) (x : Byte) : List Host.Cell → List Host.Cell
  | [] => if x = 0 then [] else [(k, x)]
  | (a, y) :: r =>
    if a = k then (if x = 0 then r else (k, x) :: r)
    else if k < a then (if x = 0 then (a, y) :: r else (k, x) :: (a, y) :: r)
    else (a, y) :: cellPut k x r

/-- Adds a key to a rising list. -/
def keyAdd (k : Nat) : List Nat → List Nat
  | [] => [k]
  | a :: r => if a = k then a :: r else if k < a then k :: a :: r else a :: keyAdd k r

/-- Removes a key from a rising list. -/
def keyDrop (k : Nat) : List Nat → List Nat
  | [] => []
  | a :: r => if a = k then r else a :: keyDrop k r

/-- The byte at a place key. -/
def Memory.byte (m : Memory) (k : Nat) : Byte := cellAt k m.cells

/-- Whether the aligned word holding a key is full (R130); a word no list names is full (R403). -/
def Memory.isFull (m : Memory) (k : Nat) : Bool := !(m.empties.contains (k / 8))

/-- Whether the aligned word holding a key is poisoned (R385). -/
def Memory.isPoisoned (m : Memory) (k : Nat) : Bool := m.poisoned.contains (k / 8)

/-- The n bytes from a key as a number, least significant byte first. -/
def Memory.nat (m : Memory) (k : Nat) : Nat → Nat
  | 0 => 0
  | n + 1 => (m.byte k).toNat + 256 * m.nat (k + 1) n

/-- The aligned or unaligned 8 bytes from a key. -/
def Memory.word (m : Memory) (k : Nat) : Word := BitVec.ofNat 64 (m.nat k 8)

/-- One edit. -/
def Memory.edit (m : Memory) : Edit → Memory
  | .byte k x => { m with cells := cellPut k x m.cells }
  | .full w true => { m with empties := keyDrop w m.empties }
  | .full w false => { m with empties := keyAdd w m.empties }
  | .poison w true => { m with poisoned := keyAdd w m.poisoned }
  | .poison w false => { m with poisoned := keyDrop w m.poisoned }
  | .clear lo hi =>
    { cells := m.cells.filter fun c => c.1 < 8 * lo || 8 * hi ≤ c.1
      empties := m.empties.filter fun w => w < lo || hi ≤ w
      poisoned := m.poisoned.filter fun w => w < lo || hi ≤ w }

/-- Edits in their order. -/
def Memory.apply (m : Memory) (es : List Edit) : Memory := es.foldl Memory.edit m

/-- The edits that store the n low bytes of x at a key, lowest first. -/
def storeEdits (k : Nat) : Nat → Nat → List Edit
  | 0, _ => []
  | n + 1, x => .byte k (BitVec.ofNat 8 x) :: storeEdits (k + 1) n (x / 256)

/-- A store at a port (R127, R385): a store of a whole aligned word clears its poison; a narrower store to a poisoned
word is discarded. -/
def portStore (m : Memory) (k n x : Nat) : List Edit :=
  if m.isPoisoned k then
    if n = 8 ∧ k % 8 = 0 then storeEdits k n x ++ [.poison (k / 8) false] else []
  else storeEdits k n x

/-- One engine write of bytes within one aligned word (R246, R385): the word becomes full; bytes that cover only part
of a poisoned word are discarded. -/
def engineWord (m : Memory) (k n x : Nat) : List Edit :=
  portStore m k n x ++ [.full (k / 8) true]

/-- An engine write of a byte string, word by word (R246); `fuel` bounds the words. -/
def engineWrite (m : Memory) (k : Nat) (bs : List Byte) : List Edit :=
  go (bs.length + 1) k bs
where
  /-- The part of the string from key k. -/
  go : Nat → Nat → List Byte → List Edit
  | 0, _, _ => []
  | _, _, [] => []
  | f + 1, k, bs =>
    let n := min (8 - k % 8) bs.length
    let x := (bs.take n).foldr (fun b a => b.toNat + 256 * a) 0
    engineWord m k n x ++ go f (k + n) (bs.drop n)

/-- The n bytes from a key. -/
def Memory.bytes (m : Memory) (k n : Nat) : List Byte := (List.range n).map fun i => m.byte (k + i)

/-- An engine write of one dword. -/
def engineDword (m : Memory) (k : Nat) (x : Word) : List Edit := engineWrite m k ((List.range 8).map fun i => BitVec.ofNat 8 (x.toNat / 256^i))

/-- The word an edit touches. -/
def Edit.word : Edit → Nat
  | .byte k _ => k / 8
  | .full w _ => w
  | .poison w _ => w
  | .clear lo _ => lo

end Sys2Proof.Machine
end

