-- ==== Sys2Proof/Machine/Ops.lean ====
section
/-! DEFINITION. The named operations over the device: cores, contexts, registers with their stream bindings, waits,
taking a trap and returning from one. -/
namespace Sys2Proof.Machine

/-- What a meaning answers. -/
abbrev Out := Host.Outcome State Fault Refusal

/-- The value an association list gives a key. -/
def assocGet {α : Type} (k : Nat) : List (Nat × α) → Option α
  | [] => none
  | (a, x) :: r => if a = k then some x else assocGet k r

/-- Sets the value of a key in a list kept rising by key. -/
def assocPut {α : Type} (k : Nat) (x : α) : List (Nat × α) → List (Nat × α)
  | [] => [(k, x)]
  | (a, y) :: r => if a = k then (k, x) :: r else if k < a then (k, x) :: (a, y) :: r else (a, y) :: assocPut k x r

/-- Removes a key. -/
def assocDrop {α : Type} (k : Nat) (l : List (Nat × α)) : List (Nat × α) := l.filter fun p => p.1 != k

/-- Trap causes (R118). -/
def cILLEGAL : BitVec 8 := 0x01
def cPRIV : BitVec 8 := 0x02
def cWINDOW : BitVec 8 := 0x03
def cTAG : BitVec 8 := 0x04
def cALIGN : BitVec 8 := 0x05
def cXLATE : BitVec 8 := 0x06
def cPROT : BitVec 8 := 0x07
def cVIEW : BitVec 8 := 0x08
def cAMOTYPE : BitVec 8 := 0x09
def cWAITLIM : BitVec 8 := 0x0A
def cDEADLINE : BitVec 8 := 0x0B
def cPOISON : BitVec 8 := 0x0C
def cCOHLOSS : BitVec 8 := 0x0D
def cSLOT : BitVec 8 := 0x0E
def cSTREAM : BitVec 8 := 0x0F
def cSPSHAPE : BitVec 8 := 0x10
def cECALL : BitVec 8 := 0x11
def cBRK : BitVec 8 := 0x12
def cLOOKAHEAD : BitVec 8 := 0x13
def cBIND : BitVec 8 := 0x14
def cANCHOR : BitVec 8 := 0x15

/-- All ones: the answer "none" of many instructions. -/
def allOnes : Word := 0xFFFFFFFFFFFFFFFF

/-- WALL in whole ns (R33). -/
def Device.wall (d : Device) : Nat := d.now / Config.fsPerNs

/-- A core; one that nothing has touched is as bring-up left it. -/
def Device.coreAt (d : Device) (c : Nat) : Core := (assocGet c d.cores).getD {}

/-- Replaces a core. -/
def Device.setCore (d : Device) (c : Nat) (k : Core) : Device := { d with cores := assocPut c k d.cores }

/-- Changes a core. -/
def Device.onCore (d : Device) (c : Nat) (f : Core → Core) : Device := d.setCore c (f (d.coreAt c))

/-- The context in a slot; none for an empty slot. -/
def Core.ctx (k : Core) (slot : Nat) : Option Context := (k.slots[slot]?).join

/-- Puts a context, or none, into a slot. -/
def Core.setCtx (k : Core) (slot : Nat) (c : Option Context) : Core := { k with slots := k.slots.set slot c }

/-- The context in a slot of a core. -/
def Device.ctxAt (d : Device) (c slot : Nat) : Option Context := (d.coreAt c).ctx slot

/-- Replaces the context in a slot of a core. -/
def Device.setCtx (d : Device) (c slot : Nat) (x : Context) : Device := d.onCore c fun k => k.setCtx slot (some x)

/-- Changes the context in a slot of a core, if there is one. -/
def Device.onCtx (d : Device) (c slot : Nat) (f : Context → Context) : Device :=
  match d.ctxAt c slot with
  | some x => d.setCtx c slot (f x)
  | none => d

/-- The core whose turn it is. -/
def Device.me (d : Device) : Core := d.coreAt d.core

/-- Changes the core whose turn it is. -/
def Device.onMe (d : Device) (f : Core → Core) : Device := d.onCore d.core f

/-- The context whose turn it is. -/
def Device.cur (d : Device) : Option Context := d.ctxAt d.core d.slot

/-- Changes the context whose turn it is. -/
def Device.onCur (d : Device) (f : Context → Context) : Device := d.onCtx d.core d.slot f

/-- Draws a free Boolean (assumption 2). -/
def Device.drawBit (d : Device) : Bool × Device := (Config.freeBit d.freeCtr, { d with freeCtr := d.freeCtr + 1 })

/-- Draws a free word (assumption 2). -/
def Device.drawWord (d : Device) : Word × Device := (Config.freeWord d.freeCtr, { d with freeCtr := d.freeCtr + 1 })

/-- The state after a device and its memory edits: the one way a meaning changes memory. -/
def conclude (s : State) (d : Device) (es : List Edit) : Out := .next ⟨s.mem.apply es, d⟩

/-- Die of a core number: cores are numbered by their packed name without the slot (R115). -/
def dieOfCore (c : Nat) : Nat := c / 1024
/-- Cluster of a core: packed name without core and slot. -/
def clusterOf (c : Nat) : Nat := c / 4
/-- Column of a core's cluster. -/
def cxOf (c : Nat) : Nat := c / 4 % 16
/-- Row of a core's cluster. -/
def cyOf (c : Nat) : Nat := c / 64 % 16
/-- A core that exists: dies 0 to 7 whole, gleaner cores on dies 8 and 9 with cy = 0 (R1, R239). -/
def coreExists (c : Nat) : Bool := decide (dieOfCore c < 8) || (decide (dieOfCore c < 10) && cyOf c == 0)
/-- A gleaner core (R1). -/
def isGleaner (c : Nat) : Bool := decide (8 ≤ dieOfCore c)
/-- A matrix-die core (R1). -/
def isMatrixDie (c : Nat) : Bool := decide (dieOfCore c < 4)
/-- Package number of the field block of a core (R327). -/
def blockOf (c : Nat) : Nat := dieOfCore c * 16 + cyOf c / 4 * 4 + cxOf c / 4
/-- The cores of a field block, ascending. -/
def blockCores (b : Nat) : List Nat :=
  ((List.range 4).map fun y => (List.range 4).map fun x => (List.range 4).map fun k =>
    b / 16 * 1024 + (b % 16 / 4 * 4 + y) * 64 + (b % 4 * 4 + x) * 4 + k).flatten.flatten
/-- Packed context name (R115). -/
def packName (c slot : Nat) : Nat := c * 16 + slot
/-- Core number of a context zero's core within a launch (R103). -/
def Launch.coreNumber (l : Launch) (c : Nat) : Nat := (l.cores.filter fun x => x < c).length

/-- A partition; one that does not exist has nothing. -/
def Device.partAt (d : Device) (p : Nat) : Partition := (assocGet p d.parts).getD {}
def Device.onPart (d : Device) (p : Nat) (f : Partition → Partition) : Device :=
  match assocGet p d.parts with
  | some x => { d with parts := assocPut p (f x) d.parts }
  | none => d
/-- A virtual function. -/
def Device.vfAt (d : Device) (v : Nat) : Vf := (assocGet v d.vfs).getD {}
def Device.onVf (d : Device) (v : Nat) (f : Vf → Vf) : Device := { d with vfs := assocPut v (f (d.vfAt v)) d.vfs }
/-- The launch of an id in a partition. -/
def Device.launchAt (d : Device) (p id : Nat) : Option Launch := d.launches.find? fun l => l.part == p && l.id == id
def Device.onLaunch (d : Device) (p id : Nat) (f : Launch → Launch) : Device :=
  { d with launches := d.launches.map fun l => if l.part == p && l.id == id then f l else l }

/-- Whether a core belongs to a partition: its field block does, or on a hub die its peer link (R220, R327, R383). -/
def Partition.hasCore (p : Partition) (c : Nat) : Bool :=
  coreExists c && (if isGleaner c then p.links.contains (dieOfCore c, cxOf c / 2) else p.blocks.contains (blockOf c))

/-- Clusters whose slices a partition owns on a die, in ascending order of cy, then cx (R240, R241). -/
def Partition.slices (p : Partition) (die : Nat) : List Nat :=
  ((List.range 256).map fun i => die * 256 + i).filter fun cl => p.blocks.contains (blockOf (cl * 4))

/-- Scalar register i of the context's window; g0 reads zero and full (R17). -/
def Context.getG (x : Context) (i : Nat) : GReg :=
  if i = 0 then ⟨0, true, false⟩ else (x.regs.g[i]?).getD {}
/-- Vector register i of the context's window. -/
def Context.getV (x : Context) (i : Nat) : VReg := (x.regs.v[i]?).getD {}
/-- Mask register i; k0 reads all ones (R17, R149). -/
def Context.getK (x : Context) (i : Nat) : BitVec 32 := if i = 0 then 0xFFFFFFFF else (x.regs.k[i]?).getD 0
/-- Changes the registers of a context. -/
def Context.onRegs (x : Context) (f : Regs → Regs) : Context := { x with regs := f x.regs }
/-- Changes the system registers of a context. -/
def Context.onSys (x : Context) (f : SysRegs → SysRegs) : Context :=
  { x with regs := { x.regs with sys := f x.regs.sys } }
/-- Replaces scalar register i; a write of g0 is discarded (R17). -/
def Context.putG (x : Context) (i : Nat) (r : GReg) : Context :=
  if i = 0 then x else { x with regs := { x.regs with g := x.regs.g.setIfInBounds i r } }
/-- Replaces vector register i. -/
def Context.putV (x : Context) (i : Nat) (r : VReg) : Context :=
  { x with regs := { x.regs with v := x.regs.v.setIfInBounds i r } }
/-- An ordinary write of a scalar register: the full bit stays and the poison mark is cleared (R18, R385). -/
def Context.writeG (x : Context) (i : Nat) (w : Word) : Context :=
  x.putG i { val := w, full := (x.getG i).full, poison := false }
/-- An ordinary write of a vector register with tag and scale word. -/
def Context.writeV (x : Context) (i : Nat) (b : VBits) (tag : BitVec 4) (scale : Lane) : Context :=
  x.putV i { bits := b, tag := tag, scale := scale, full := (x.getV i).full, poison := false }
/-- A write of a mask register; k0 is discarded (R149). -/
def Context.writeK (x : Context) (i : Nat) (w : BitVec 32) : Context :=
  if i = 0 then x else { x with regs := { x.regs with k := x.regs.k.setIfInBounds i w } }
/-- ORs flags into FFLAGS (R64). -/
def Context.orFlags (x : Context) (f : Flags) : Context := x.onSys fun y => { y with fflags := y.fflags ||| f }
/-- Sets the program counter. -/
def Context.setPc (x : Context) (pc : Word) : Context := { x with regs := { x.regs with pc := pc } }

/-- A value read from or written to a register. -/
inductive Val where
  | w (x : Word)
  | r (x : VReg)
  deriving DecidableEq, Repr

/-- The scalar at position n of the operands read. -/
def wordAt (vs : List Val) (n : Nat) : Word :=
  match vs[n]? with
  | some (.w x) => x
  | _ => 0
/-- The vector at position n of the operands read. -/
def vecAt (vs : List Val) (n : Nat) : VReg :=
  match vs[n]? with
  | some (.r x) => x
  | _ => {}

/-- The stream generator a register of the context in a slot is bound to (R26). -/
def Core.bindingOf (k : Core) (slot : Nat) (r : Reg) : Option Nat :=
  k.gens.findIdx? fun g => g.bound == some (slot, r)
/-- Generator n of a core. -/
def Core.gen (k : Core) (n : Nat) : Gen := (k.gens[n]?).getD {}
/-- Replaces a generator. -/
def Core.setGen (k : Core) (n : Nat) (g : Gen) : Core := { k with gens := k.gens.set n g }

/-- Number of a register as TRAPVAL gives it (R16). -/
def Reg.report : Reg → Word
  | .g n => if n < 128 then BitVec.ofNat 64 n else BitVec.ofNat 64 (0x100 + (n - 128))
  | .v n => BitVec.ofNat 64 (0x80 + n)

/-- Whether a register lies in the context's windows (R16): none of v64 and above does, nor of g128 and above. -/
def Context.inWindow (x : Context) : Reg → Bool
  | .g n => decide (n < x.gCount) && decide (n < 128)
  | .v n => decide (n < x.vCount) && decide (n < 64)

/-- Reads a register's own content, popping nothing. -/
def Context.peek (x : Context) : Reg → Val
  | .g n => .w (x.getG n).val
  | .v n => .r (x.getV n)

/-- Whether a register's content is poisoned (R385). -/
def Context.poisonedReg (x : Context) : Reg → Bool
  | .g n => (x.getG n).poison
  | .v n => (x.getV n).poison

/-- TRAPVAL of a POISON from a register (R386). -/
def Reg.poisonVal : Reg → Word
  | .g n => BitVec.ofNat 64 (0xFD * 2^56 + 1 * 2^12 + n)
  | .v n => BitVec.ofNat 64 (0xFD * 2^56 + 2 * 2^12 + n)

/-- The element a pop of a generator takes. -/
def Gen.head (g : Gen) : Option VBits := g.queue.head?.join

/-- A generator after a pop (R26). -/
def Gen.pop (g : Gen) : Gen :=
  { g with queue := g.queue.tail, position := g.position + 1, spent := g.head :: g.spent }

/-- A generator to which the last element popped has been given back (R8, R25). -/
def Gen.unpop (g : Gen) (e : Option VBits) : Gen :=
  { g with queue := e :: g.queue, position := g.position - 1, spent := g.spent.tail }

/-- A generator after an append, or after a place in it has been reserved (R26); `hold` names an earlier access of the context
that may still take the append back (R25). -/
def Gen.append (g : Gen) (e : Option VBits) (hold : Option Nat) : Gen :=
  { g with
    queue := g.queue ++ [e]
    position := g.position + 1
    holds := match hold with
      | some a => g.holds ++ [(g.position, a)]
      | none => g.holds }

/-- The latest long-latency access of a context that can still fault and roll back what came after it (R25). -/
def Context.unsettled (x : Context) : Option Nat :=
  ((x.pending.filter fun p => p.mayFault && !p.arrived).map Pending.id).max?

/-- The latest access of the context in a slot that can still fault and roll back what came after it, a posted one too (R25,
R124). -/
def Device.unsettled (d : Device) (core slot : Nat) : Option Nat :=
  ((d.accesses.filter fun a => a.core == core && a.slot == slot && !a.orphan && !a.passed).map Access.id ++
    ((d.ctxAt core slot).bind Context.unsettled).toList).max?

/-- Reads one operand: a register bound to a read generator pops the next element (R26), which fills the bits of a
vector register and leaves its tag and scale word (R57). -/
def readOperand (k : Core) (x : Context) (slot : Nat) (r : Reg) : Val × Core :=
  match k.bindingOf slot r with
  | none => (x.peek r, k)
  | some n =>
    let e : VBits := (k.gen n).head.getD 0
    let k' := k.setGen n (k.gen n).pop
    match r with
    | .g _ => (.w (e.setWidth 64), k')
    | .v i => (.r { x.getV i with bits := e }, k')

/-- Reads operands in order (R26). -/
def readOperands (k : Core) (x : Context) (slot : Nat) : List Reg → List Val × Core
  | [] => ([], k)
  | r :: rs =>
    let (v, k1) := readOperand k x slot r
    let (vs, k2) := readOperands k1 x slot rs
    (v :: vs, k2)

/-- Bits of a value, as a stream element. -/
def Val.bits : Val → VBits
  | .w x => x.setWidth 1024
  | .r x => x.bits

/-- Writes one result of the context in a slot: an ordinary write, or an append to a write generator (R26). -/
def Device.writeReg (d : Device) (c slot : Nat) (r : Reg) (v : Val) : Device :=
  let k := d.coreAt c
  match k.bindingOf slot r with
  | some n => d.setCore c (k.setGen n ((k.gen n).append (some v.bits) (d.unsettled c slot)))
  | none =>
    d.onCtx c slot fun x =>
      match r, v with
      | .g i, .w y => x.writeG i y
      | .v i, .r y => x.writeV i y.bits y.tag y.scale
      | .g i, .r y => x.writeG i (y.bits.setWidth 64)
      | .v i, .w y => x.writeV i (y.setWidth 1024) 0 0x3F800000

/-- Writes a deposit's payload and sets the full bit (R20, R23). -/
def putDeposit (x : Context) (r : Reg) (payload : Word) : Context :=
  match r with
  | .g n => x.putG n ⟨payload, true, false⟩
  | .v n =>
    let v := x.getV n
    x.putV n { v with bits := BitVec.ofNat 1024 (v.bits.toNat / 2^64 * 2^64 + payload.toNat), full := true }

/-- The deposit that a core's interface applied in the present cycle to a register of a slot (R20). -/
def Core.justDeposited (k : Core) (slot : Nat) (r : Reg) : Option Word :=
  match k.lastDeposit with
  | some (q, r', payload) => if q = slot ∧ r' = r then some payload else none
  | none => none

/-- A deposit of the present cycle stands over a write of its register that comes after it in the cycle (R20, R30). -/
def Device.underDeposit (d : Device) (c slot : Nat) (r : Reg) : Device :=
  match (d.coreAt c).justDeposited slot r with
  | some payload => d.onCtx c slot fun x => putDeposit x r payload
  | none => d

/-- Writes a scalar result of the context whose turn it is. -/
def Device.putG (d : Device) (n : Nat) (x : Word) : Device := d.writeReg d.core d.slot (.g n) (.w x)
/-- Writes a vector result of the context whose turn it is. -/
def Device.putV (d : Device) (n : Nat) (b : VBits) (tag : BitVec 4) (scale : Lane) : Device :=
  d.writeReg d.core d.slot (.v n) (.r { bits := b, tag := tag, scale := scale })

/-- Scale word 1.0 (R57). -/
def scaleOne : Lane := 0x3F800000

/-- The expiry instant and cause of a wait that begins now (R38). -/
def expiryOf (x : SysRegs) (t0 : Nat) : Option (Nat × BitVec 8) :=
  let eW := if x.wlim = 0 then none else some (t0 + x.wlim.toNat)
  let eD := if x.dline = 0 then none else some x.dline.toNat
  match eW, eD with
  | none, none => none
  | some w, none => some (w, cWAITLIM)
  | none, some e => some (e, cDEADLINE)
  | some w, some e => if e ≤ w then some (e, cDEADLINE) else some (w, cWAITLIM)

/-- Whether a pending result of the context has not arrived. -/
def Context.awaits (x : Context) : Bool := x.pending.any fun p => !p.arrived

/-- Completes the instruction a context waits in: its result is written, the program goes on after it, and the context
becomes ready (R14, R212). -/
def completeWait (d : Device) (c slot : Nat) (result : Option (Nat × Word)) : Device :=
  let d1 := match result with
    | some (n, w) => (d.writeReg c slot (.g n) (.w w)).underDeposit c slot (.g n)
    | none => d
  d1.onCtx c slot fun x => { x.setPc (x.regs.pc + 4) with phase := .ready, stallSince := none, stalled := false, taken := [] }

/-- The wait a context is in. -/
def Context.wait? (x : Context) : Option Wait :=
  match x.phase with
  | .parked w => some w
  | .sleeping w => some w
  | _ => none

/-- Whether an expiry instant has passed: all of wall ns E belongs to the wait (R38). -/
def expired (e : Option (Nat × BitVec 8)) (wall : Nat) : Option (Nat × BitVec 8) :=
  match e with
  | some (t, c) => if t < wall then some (t, c) else none
  | none => none

/-- Completes a wait that has not expired (R38): a condition that comes to hold after wall ns E is too late. -/
def Device.wake (d : Device) (core slot : Nat) (result : Option (Nat × Word)) : Device :=
  match d.ctxAt core slot with
  | none => d
  | some x =>
    match x.wait? with
    | none => d
    | some w => if (expired w.expiry d.wall).isSome then d else completeWait d core slot result

/-- Rewrites the result that a context's latest completion wrote: the register, or the element it appended. -/
def Device.rewrite (d : Device) (c slot n : Nat) (w : Word) : Device :=
  match (d.coreAt c).bindingOf slot (.g n) with
  | some i => d.onCore c fun k => k.setGen i { k.gen i with queue := (k.gen i).queue.dropLast ++ [some (w.setWidth 1024)] }
  | none => (d.onCtx c slot fun x => x.writeG n w).underDeposit c slot (.g n)

/-- A deposit (code 1) or TWAKE (code 2) ends the sleep of a context (R213). -/
def Device.endSleep (d : Device) (c slot code : Nat) : Device :=
  match d.ctxAt c slot with
  | none => d
  | some x =>
    match x.phase with
    | .sleeping w =>
      if (expired w.expiry d.wall).isSome then d
      else (completeWait d c slot (some (w.dest, BitVec.ofNat 64 code))).onCore c fun k =>
        { k with woke := ⟨slot, w.kind, w.dest, code⟩ :: k.woke }
    | _ => d

/-- A deposit to a context whose sleep TWAKE has ended in this cycle: code 1 wins (R213). -/
def Device.recode (d : Device) (c slot : Nat) : Device :=
  match (d.coreAt c).woke.find? fun q => q.slot == slot && q.code == 2 with
  | some q =>
    (d.rewrite c slot q.dest 1).onCore c fun k =>
      { k with woke := { q with code := 1 } :: k.woke.filter fun r => r.slot != slot }
  | none => d

/-- The own event of a sleeping form that a deposit or TWAKE has ended in this cycle: code 0 wins, or the slot of a WAITK, and
the wake of a TWAKE is not consumed (R213). -/
def Device.ownEvent (d : Device) (c slot : Nat) (own : WaitKind → Bool) (value : Word) : Device :=
  match (d.coreAt c).woke.find? fun q => q.slot == slot && own q.kind with
  | some q =>
    let d1 := (d.rewrite c slot q.dest value).onCore c fun k => { k with woke := k.woke.filter fun r => r.slot != slot }
    if q.code = 2 then d1.onCtx c slot fun x => x.onRegs fun r => { r with wakePending := true } else d1
  | none => d

/-- Replaces the full bit of a register; g0 stays full (R17, R18). -/
def Context.setFull (x : Context) (r : Reg) (b : Bool) : Context :=
  match r with
  | .g n => x.putG n { x.getG n with full := b }
  | .v n => x.putV n { x.getV n with full := b }

/-- Whether a register's full bit is set (R18). -/
def Context.isFull (x : Context) : Reg → Bool
  | .g n => (x.getG n).full
  | .v n => (x.getV n).full

/-- The low 64 bits of a register: what a deposit writes (R20, R23). -/
def Context.lowWord (x : Context) : Reg → Word
  | .g n => (x.getG n).val
  | .v n => (x.getV n).bits.setWidth 64

/-- Deposits return to the head of a core's waiting deposits, in their order: the reads that made room for them have not happened
(R8, R21, R25). -/
def Device.undeposit (d : Device) (c : Nat) (qs : List Deposit) : Device :=
  if qs.isEmpty then d else d.onCore c fun k => { k with waiting := qs ++ k.waiting }

/-- A deposit is no longer one that the accesses of a slot give back: its latest. -/
def Device.undisplace (d : Device) (c slot : Nat) (q : Deposit) : Device :=
  { d with accesses := d.accesses.map fun a =>
      if a.core == c && a.slot == slot && a.displaced.getLast? == some q then { a with displaced := a.displaced.dropLast } else a }

/-- Gives back what the instruction a context waits in took of its operands (R8): elements return to the heads of their
generators, and the full bit of a synchronised read is set again, over a deposit that came since, which waits again. -/
def giveBack (d : Device) (c slot : Nat) (ts : List Taken) : Device :=
  ts.foldr (fun t d =>
    match t with
    | .full r none => d.onCtx c slot fun x => x.setFull r true
    | .full r (some (old, q)) =>
      ((d.onCtx c slot fun x => putDeposit x r old).undisplace c slot q).undeposit c [q]
    | .element n e => d.onCore c fun k => k.setGen n ((k.gen n).unpop e)) d

/-- The context in a slot gives back what the instruction it waits in took (R8). -/
def Device.untake (d : Device) (c slot : Nat) : Device :=
  match d.ctxAt c slot with
  | none => d
  | some x => (giveBack d c slot x.taken).onCtx c slot fun y => { y with taken := [] }

/-- The stop of a context ends the WAITK of the context in a slot whose mask names it (R213). -/
def wakeSlot (c stopped : Nat) (d : Device) (slot : Nat) : Device :=
  match d.ctxAt c slot with
  | some x =>
    match x.phase with
    | .sleeping ⟨.slots mask, _, _, dest⟩ =>
      if mask.getLsbD stopped then d.wake c slot (some (dest, BitVec.ofNat 64 stopped)) else d
    | _ => d.ownEvent c slot (fun k => match k with
        | .slots mask => mask.getLsbD stopped
        | _ => false) (BitVec.ofNat 64 stopped)
  | none => d

/-- Context slots of a core that sleep in WAITK on a mask with the slot are woken by its stop, unless their expiry instant has
passed or the core's clock is halted (R38, R40, R213). -/
def wakeOnStop (d : Device) (c stopped : Nat) : Device :=
  if (d.coreAt c).halted then d else (List.range 16).foldl (wakeSlot c stopped) d

/-- Changes a group of a launch. -/
def Launch.onGroup (l : Launch) (id : Nat) (f : Group → Group) : Launch :=
  { l with groups := l.groups.map fun g => if g.id = id then f g else g }

/-- X of a group (R223). -/
def Group.expected (g : Group) : Nat := g.members.length - g.gone.length

/-- The phase of a group ends (R223): G advances, and stops after arriving count from now on. -/
def Group.advance (g : Group) : Group :=
  { g with generation := g.generation + 1, arrived := [], gone := g.gone ++ g.leaving, leaving := [] }

/-- A member of a group stops (R223, R301): X drops at once, or from the next phase where it has arrived in this one. -/
def Group.loses (g : Group) (tid : BitVec 32) : Group :=
  if g.arrived.contains tid then { g with leaving := g.leaving ++ [tid] } else { g with gone := g.gone ++ [tid] }

/-- A context parked in BARW whose phase a group's advance ends: it is tried at its next turn (R14, R224, R299). -/
def Context.phased (x : Context) (part launch group : Nat) (generation : BitVec 32) (wall : Nat) : Context :=
  match x.phase with
  | .parked ⟨.phase g p, t0, e, _⟩ =>
    if x.part = part ∧ x.launch = launch ∧ g = group ∧ (generation - p - 1).toNat < 2^31 ∧ (expired e wall).isNone then
      { x with phase := .ready, stallSince := some t0, stalled := false }
    else x
  | _ => x

/-- Readies the contexts of a launch that wait in BARW for a phase that a group has reached, but those of a core whose clock is
halted. -/
def readyPhase (d : Device) (part launch group : Nat) (generation : BitVec 32) : Device :=
  { d with cores := d.cores.map fun c =>
      (c.1, if c.2.halted then c.2
        else { c.2 with slots := c.2.slots.map fun o => o.map fun x => x.phased part launch group generation d.wall }) }

/-- Readies the contexts of a launch that wait in BAR for a phase of a group (R224), but those of a core whose clock is
halted. -/
def wakeBarrier (d : Device) (part launch group : Nat) (phase : BitVec 32) : Device :=
  let l := (d.cores.map fun c => (c.2.slots.zipIdx.filterMap fun q =>
    match q.1 with
    | some x =>
      match x.phase with
      | .parked ⟨.barrier g p, _, _, dest⟩ =>
        if x.part = part ∧ x.launch = launch ∧ g = group ∧ p = phase ∧ c.2.halted = false then some (c.1, q.2, dest) else none
      | _ => none
    | none => none)).flatten
  l.foldl (fun d q => d.wake q.1 q.2.1 (some (q.2.2, phase.setWidth 64))) d

/-- Completes a group's phase when its arrivals have reached X (R223). -/
def completePhase (d : Device) (part launch group : Nat) : Device :=
  match (d.launchAt part launch).bind fun l => l.groups.find? fun g => g.id == group with
  | none => d
  | some g =>
    if g.expected ≤ g.arrived.length then
      readyPhase (wakeBarrier (d.onLaunch part launch fun l => l.onGroup group Group.advance) part launch group g.generation)
        part launch group (g.generation + 1)
    else d

/-- A member's stop counts in its groups at once, and may complete their phases (R223, R301). -/
def leaveGroups (d : Device) (x : Context) : Device :=
  x.groups.foldl (fun d g =>
    completePhase (d.onLaunch x.part x.launch fun l => l.onGroup g fun q => q.loses x.tid) x.part x.launch g) d

/-- The core and slot that a save or restore command names (R365). -/
def Command.target (c : Command) : Nat × Nat := (c.presel.toNat / 16 % 2^14, c.presel.toNat % 16)

/-- Whether a command names a whole core (R365). -/
def Command.whole (c : Command) : Bool := c.presel.getLsbD 18

/-- The save that has reached the context in a slot, or its whole core: the context takes no more turns (R367, R371). -/
def Device.savingOf (d : Device) (core slot : Nat) : Option Command :=
  d.commands.find? fun c => c.save && c.reached && c.target.1 == core && (c.whole || c.target.2 == slot)

/-- A context becomes ready, or a slot's context is made, in the cycle after the present turn's: where that is the slot's own turn, it
waits for its next (R14, R215, R218). -/
def Device.readyNext (d : Device) (core slot : Nat) : Device :=
  d.onCore core fun k => if slot = (k.cyc + 1) % 16 then { k with used := some (k.cyc + 1) } else k

/-- The accesses of the context in a slot that were sent before number `upto` have been passed by an effect outside its registers,
or by its stop: they can no longer fault (R25, R124). -/
def Device.passed (d : Device) (core slot : Nat) (tid : BitVec 32) (upto : Nat) : Device :=
  { d with accesses := d.accesses.map fun a =>
      if a.core == core && a.slot == slot && a.tid == tid && decide (a.id < upto) then { a with passed := true } else a }

/-- The results that the context in a slot awaits from accesses that have been passed can no longer be faults (R25). -/
def Device.passedPending (d : Device) (core slot upto : Nat) : Device :=
  d.onCtx core slot fun x => { x with pending := x.pending.map fun p => if p.id < upto ∧ p.due = none then { p with mayFault := false } else p }

/-- Stops a context (R216): its memberships drop, sleepers on the slot wake, its state waits for TREAP. -/
def stopCtx (d : Device) (c slot : Nat) (how : BitVec 8) (code : BitVec 16) (cause : BitVec 8) : Device :=
  match d.ctxAt c slot with
  | none => d
  | some x =>
    let d1 := d.setCtx c slot { x with phase := .stopped how code cause }
    leaveGroups (wakeOnStop (d1.passed c slot x.tid d1.nextAccess) c slot) x

/-- TAKING A TRAP once every pending result has arrived (R119): the trap registers are written; the context stops when
it has no handler or a handler runs, and otherwise goes on at TRAPVEC with TRAPST[0] set. -/
def enterTrap (d0 : Device) (c slot : Nat) (cause : BitVec 8) (val pc : Word) : Device :=
  match d0.ctxAt c slot with
  | none => d0
  | some x =>
    -- R41: the next overdue context follows once this one has entered
    let d := d0.onCore c fun k => { k with overdue := k.overdue.filter (· != slot) }
    let y := x.onSys fun r => { r with trapcause := cause, trappc := pc, trapval := val }
    let y := { y with pending := [], stallSince := none, stalled := false, taken := [], fence := none }
    if x.regs.sys.trapvec = 0 ∨ x.regs.sys.inh = true then
      stopCtx (d.setCtx c slot y) c slot 3 0 cause
    else
      d.setCtx c slot { (y.onSys fun r => { r with inh := true }).setPc x.regs.sys.trapvec with phase := .ready }

/-- A trap of the context in a slot: taken at once when nothing is pending, otherwise once the pending results have
arrived (R25, R119); all lookahead windows end. WLIM and DLINE do not bound that wait: whether they would is open
(assumption 77, DESIGN CHOICE). -/
def takeTrap (d : Device) (c slot : Nat) (cause : BitVec 8) (val pc : Word) : Device :=
  match d.ctxAt c slot with
  | none => d
  | some x =>
    if x.awaits then
      d.setCtx c slot { x with phase := .trapping cause val pc, stallSince := none, stalled := false, taken := [], fence := none }
    else enterTrap d c slot cause val pc

/-- RETURN FROM A TRAP (R120): TRAPST[0] is cleared and the program goes on at TRAPPC. -/
def returnTrap (x : Context) : Context :=
  { (x.onSys fun r => { r with inh := false }).setPc x.regs.sys.trappc with phase := .ready }

/-- Writes a value into a register of the context itself (R18). -/
def Context.wrote (x : Context) (r : Reg) (v : Val) : Context :=
  match r, v with
  | .g i, .w y => x.writeG i y
  | .v i, .r y => x.writeV i y.bits y.tag y.scale
  | _, _ => x

/-- Run-ahead comes to know the value of a register of its context (R354). -/
def Ahead.knows (a : Ahead) (x : Context) (r : Reg) (v : Val) : Ahead :=
  { a with
    regs := (({ x with regs := a.regs } : Context).wrote r v).regs
    unknown := a.unknown.filter (· != r)
    awaited := a.awaited.filter fun q => q.2 != r }

/-- Registers read as unknown from now on (R354), until the result of the number given comes. -/
def Ahead.loses (a : Ahead) (rs : List Reg) (result : Option Nat) : Ahead :=
  let rs := rs.filter (· != .g 0)
  { a with
    unknown := (a.unknown ++ rs).eraseDups
    awaited := (a.awaited.filter fun q => !rs.contains q.2) ++ (match result with
      | some n => rs.map fun r => (n, r)
      | none => []) }

/-- Run-ahead ends (R355). -/
def Ahead.stop (a : Ahead) : Ahead := { a with stopped := true }

/-- One more instruction has issued in run-ahead, which goes on at an address unless it has issued 64 or met 16 pages (R355). -/
def Ahead.goesOn (a : Ahead) (pc : Word) : Ahead :=
  { a with
    regs := { a.regs with pc := pc }
    issued := a.issued + 1
    stopped := decide (64 ≤ a.issued + 1) || decide (16 ≤ a.pages.length) }

/-- The result of a number comes to a context that runs ahead: the registers that still await it are known (R354). -/
def Context.shadowed (x : Context) (n : Nat) (vs : List (Reg × Val)) : Context :=
  match x.phase with
  | .faulted cls addr need a =>
    let a1 := vs.foldl (fun (a : Ahead) q => if a.awaited.contains (n, q.1) then a.knows x q.1 q.2 else a) a
    { x with phase := .faulted cls addr need a1 }
  | _ => x

/-- A wait whose instruction is tried again at each turn. -/
def WaitKind.retried : WaitKind → Bool
  | .retry => true
  | .sync _ => true
  | .phase _ _ => true
  | _ => false

/-- Whether a context can use its turn for its instruction: it is ready, or parked in an instruction that is tried
again at each turn. -/
def Context.issues (x : Context) : Bool :=
  match x.phase with
  | .ready => true
  | .parked w => w.kind.retried
  | _ => false

end Sys2Proof.Machine
end

