-- ==== Sys2Proof/Machine/Place.lean ====
section
/-! DEFINITION. Where an address lies: the on-chip window (R236 to R240), the page walk (R348 to R350), permissions,
anchors, views and the owning port (R121 to R124, R241, R261, R377, R382). -/
namespace Sys2Proof.Machine

/-- What an address names. -/
inductive PlaceKind where
  | chip
  | device
  | host
  | peer
  deriving DecidableEq, Repr

/-- The owning port, the place key of the address and what it names (R122). -/
structure Place where
  port : Port
  key : Nat
  kind : PlaceKind
  /-- It lies in a tile line of 1 KiB (R244). -/
  tile : Bool := false
  deriving DecidableEq, Repr

/-- A word of a core's scratchpad: its upper half belongs to the bank port (R237, R238). -/
def scratchPlace (core off : Nat) : Place :=
  { port := if off < 0x40000 then .scratchpad core else .bank core, key := Config.scratchpadBase + core * 2^19 + off, kind := .chip }

/-- Byte o of the cluster-shared memory of a core's cluster (R237). -/
def sharedPlace (core o : Nat) : Place :=
  scratchPlace (clusterOf core * 4 + o / 256 % 4) (0x40000 + o / 1024 * 256 + o % 256)

/-- Granules of die scratch per slice (R240). -/
def Partition.granulesOn (p : Partition) (die : Nat) : Nat := (assocGet die p.granules).getD 0

/-- Byte o of a die's die scratch (R240). -/
def dieScratchPlace (p : Partition) (die o : Nat) : Option Place :=
  let l := p.slices die
  if o < p.granulesOn die * 65536 * l.length then
    let sl := l.getD (o / 1024 % l.length) 0
    some { port := .dieScratch sl, key := Config.dieScratchBase + sl * 2^19 + o / 1024 / l.length * 1024 + o % 1024, kind := .chip }
  else none

/-- An address with bits [63:56] = 0xFE (R236). -/
def isWindow (a : Word) : Bool := a.toNat / 2^56 == 0xFE

/-- The place of an on-chip window address seen from a core (R236 to R239); none is PROT. `vector` marks a lane-relative
access of the lane-slice window, whose place is that of lane 0. -/
def windowPlace (p : Partition) (core : Nat) (a : Word) (vector : Bool) : Option Place :=
  let n := a.toNat
  let off := n % 2^48
  match n / 2^48 with
  | 0xFE00 => if off < 2^19 then some (scratchPlace core off) else none
  | 0xFE01 => if off < 2^20 then some (sharedPlace core off) else none
  | 0xFE02 => dieScratchPlace p (dieOfCore core) off
  | 0xFE03 =>
    if off < (if vector then 4093 else 2^17) then some { port := .lane core, key := Config.laneBase + core * 2^17 + off, kind := .chip }
    else none
  | _ =>
    if n / 2^52 = 0xFE1 then
      let die := n / 2^40 % 16
      let cy := n / 2^36 % 16
      let cx := n / 2^32 % 16
      let c := die * 1024 + cy * 64 + cx * 4 + n / 2^24 % 4
      if n / 2^44 % 256 = 0 ∧ n / 2^26 % 64 = 0 ∧ n / 2^19 % 32 = 0 ∧ p.hasCore c = true then
        some (scratchPlace c (n % 2^19))
      else none
    else none

/-- Die whose memory holds a physical address; 8 and above is none. -/
def dieOfPa (pa : Nat) : Nat := pa / 2^42

/-- Whether a physical address is in a partition's memory: behind one of its channels (R328, R330; assumption 3). -/
def Partition.owns (p : Partition) (pa : Nat) : Bool :=
  let die := dieOfPa pa
  let g := (pa - Config.dieBase die) / 65536 / Config.groupFrames die
  let per := (Config.dieChannels die).2
  decide (die < 8) && p.channels.any fun c => c.1 == die && decide (c.2.1 ≤ g * per) && decide ((g + 1) * per ≤ c.2.1 + c.2.2)

/-- The home slice of a physical line (R241). -/
def Partition.homeOf (p : Partition) (pa : Nat) : Nat :=
  let x := pa / 128
  let h := Nat.xor (Nat.xor (Nat.xor (x % 4096) (x / 2^12 % 4096)) (Nat.xor (x / 2^24 % 4096) (x / 2^36 % 4096))) (x / 2^48 % 4)
  let l := p.slices (dieOfPa pa)
  l.getD (h % l.length) 0

/-- Permissions an access needs, as bits X, W, RD of [2:0] (R357). -/
def needR : BitVec 3 := 1
def needW : BitVec 3 := 2
def needRW : BitVec 3 := 3
def needX : BitVec 3 := 4

/-- Bit n of a table entry. -/
def eBit (e : Word) (n : Nat) : Bool := e.getLsbD n
/-- A leaf has RD, W or X set (R349). -/
def isLeaf (e : Word) : Bool := eBit e 1 || eBit e 2 || eBit e 3
/-- FRAME, or the next table's address, of an entry. -/
def frameOf (e : Word) : Nat := e.toNat % 2^57 / 65536 * 65536
def tableOf (e : Word) : Nat := e.toNat % 2^57 / 4096 * 4096
def entryAdie (e : Word) : Nat := e.toNat / 2^6 % 16

/-- Page size of a level's leaf (R348). -/
def pageSize (level : Nat) : Nat := if level = 2 then 2^30 else if level = 3 then 2^21 else 2^16

/-- Whether an entry with V = 1 read at a level is malformed (R349, R350). A leaf spans at most two channel groups, so that its ends
say whether all of it is the partition's. -/
def malformed (p : Partition) (level : Nat) (e : Word) : Bool :=
  let n := e.toNat
  decide (n / 2^57 ≠ 0) || eBit e 10 ||
  (if isLeaf e then
    decide (level < 2) || decide (n / 2^12 % 16 ≠ 0) || decide (frameOf e % pageSize level ≠ 0) ||
    (eBit e 4 && eBit e 5) ||
    (!eBit e 5 && decide (entryAdie e ≠ 0)) ||
    (!eBit e 4 && !(p.owns (frameOf e) && p.owns (frameOf e + (pageSize level - 65536)))) ||
    (eBit e 5 && decide (entryAdie e ≠ dieOfPa (frameOf e)))
  else decide (4 ≤ level) || decide (n / 2 % 2^11 ≠ 0) || !p.owns (tableOf e))

/-- Outcome of a walk (R350): a translation fault of a class, a wait for a table that migrates (R362), or a leaf with its level and the
key of its entry. -/
inductive Walk where
  | fault (cls : Nat)
  | held
  | leaf (level : Nat) (entry : Word) (key : Nat)
  deriving DecidableEq, Repr

/-- Index of an address at a level (R348). -/
def walkIndex (va : Nat) (level : Nat) : Nat :=
  match level with
  | 0 => va / 2^48 % 512
  | 1 => va / 2^39 % 512
  | 2 => va / 2^30 % 512
  | 3 => va / 2^21 % 512
  | _ => va / 2^16 % 32

/-- Whether a place lies in a frame that migrates (R362). -/
def Device.moving (d : Device) (key : Nat) : Bool := d.migrations.any fun g => decide (g.source ≤ key ∧ key < g.source + 65536)

/-- The walk from a table at a level, with `fuel` levels left (R348 to R350). -/
def walkFrom (m : Memory) (d : Device) (p : Partition) (va : Nat) : Nat → Nat → Nat → Walk
  | 0, _, _ => .fault 1
  | fuel + 1, level, table =>
    let key := table + 8 * walkIndex va level
    let e := m.word key
    if d.moving key then .held
    else if !eBit e 0 then .fault 0
    else if malformed p level e then .fault 1
    else if isLeaf e then .leaf level e key
    else walkFrom m d p va fuel (level + 1) (tableOf e)

/-- The walk of a VF's tables (R348, R350). -/
def walk (m : Memory) (d : Device) (part vf : Nat) (va : Word) : Walk :=
  let root := (d.vfAt vf).root
  if root = 0 then .fault 2 else walkFrom m d (d.partAt part) (va.toNat % 2^57) 5 0 root.toNat

/-- A translation, cached at the cluster TLB or walked now (R350, R351): an entry with MIG = 1 makes the access wait. -/
inductive Xlat where
  | fault (cls : Nat)
  | migrating
  | ok (level : Nat) (entry : Word)
  deriving DecidableEq, Repr

/-- Whether a cached translation covers an address. -/
def TlbEntry.covers (t : TlbEntry) (cluster vf : Nat) (va : Word) : Bool :=
  t.cluster == cluster && t.vf == vf && decide (va.toNat / pageSize t.level = t.base.toNat / pageSize t.level)

/-- Translates an address for a cluster, caching a valid leaf. -/
def translate (m : Memory) (d : Device) (cluster part vf : Nat) (va : Word) : Xlat × Device :=
  match d.tlb.find? fun t => t.covers cluster vf va with
  | some t => (.ok t.level t.entry, d)
  | none =>
    match walk m d part vf va with
    | .fault c => (.fault c, d)
    | .held => (.migrating, d)
    | .leaf level e _ =>
      if eBit e 11 then (.migrating, d)
      else (.ok level e, { d with tlb := ⟨cluster, vf, va, level, e⟩ :: d.tlb })

/-- Canonical translated address: the sign-extension of its bit 56 (R236). -/
def canonical (a : Word) : Bool := (a.setWidth 57).signExtend 64 == a

/-- Whether an entry permits what an access needs (R349). -/
def permits (e : Word) (need : BitVec 3) : Bool :=
  (!need.getLsbD 0 || eBit e 1) && (!need.getLsbD 1 || eBit e 2) && (!need.getLsbD 2 || eBit e 3)

/-- Tile shape of an element width in bytes (R141). -/
def tileShape (w : Nat) : Nat × Nat := if w = 1 then (32, 32) else if w = 2 then (16, 32) else (16, 16)
/-- Tile rows and columns of a tensor (R141). -/
def Tensor.tiles (t : Tensor) : Nat × Nat :=
  let (th, tw) := tileShape ((tagOf t.tag).width / 8)
  ((t.rows + th - 1) / th, (t.cols + tw - 1) / tw)
/-- Bytes of a tensor's tiles. -/
def Tensor.footprint (t : Tensor) : Nat := t.tiles.1 * t.tiles.2 * 1024

/-- Whether the page of an address lies in a registered tensor's footprint (R140, R350). -/
def Partition.tileView (p : Partition) (vf : Nat) (level : Nat) (va : Word) : Bool :=
  let sz := pageSize level
  let b := va.toNat / sz * sz
  p.tensors.any fun t => t.vf == vf && decide (t.base.toNat < b + sz) && decide (b < t.base.toNat + t.footprint)

/-- The place of a translated address under its entry (R241, R377, R382); a tile line is homed by its first byte (R244). -/
def entryPlace (p : Partition) (level : Nat) (tile : Bool) (e va : Word) : Place :=
  let f := frameOf e + va.toNat % pageSize level
  let unit := if tile then 1024 else 128
  if eBit e 4 then
    if f / 2^52 = 0x1F then { port := .peer (f / 2^48 % 16), key := Config.peerBase + f, kind := .peer }
    else { port := .host (f / 128), key := Config.hostBase + f, kind := .host }
  else { port := .slice (p.homeOf (f / unit * unit)) (f / unit * unit / 128), key := f, kind := .device, tile := tile }

/-- What an access asks of its target, for the checks of R124, R135 and R377. -/
inductive Demand where
  | plain
  | vector
  | sync
  | atomic (wide : Bool)
  | expand
  | tile
  deriving DecidableEq, Repr

/-- Where an access goes, or why it does not (R124). -/
inductive Located where
  | trap (cause : BitVec 8) (val : Word)
  | fault (cls : Nat) (addr : Word) (need : BitVec 3)
  | migrating
  | ship (die line : Nat)
  | at_ (p : Place)
  deriving DecidableEq, Repr

/-- A context that R261 refuses to ship. -/
def coreTied (k : Core) (x : Context) (core slot : Nat) : Bool :=
  slot == 0 || isGleaner core ||
  k.opSlots.any (fun o => o.state != .free && o.owner == slot) ||
  k.gens.any (fun g => match g.bound with
    | some (s, _) => s == slot
    | none => false) ||
  k.classes.any (fun c => match c with
    | some (s, _) => s == slot
    | none => false) ||
  !x.reductions.isEmpty

/-- Line of a place: host, peer and device memory have lines of 128 bytes. -/
def lineOf (key : Nat) : Nat := key / 128

/-- The coherence line of a place: a linear line of 128 bytes, or a tile line of 1 KiB named by its first (R244). -/
def Place.line (p : Place) : Nat := if p.tile then p.key / 1024 * 8 else lineOf p.key

/-- The coherence line of a part of an access (R244). -/
def Piece.line (p : Piece) : Nat := if p.tile then p.key / 1024 * 8 else lineOf p.key

/-- Die of a line's home; that of a host line is hub die 8, where its proxy lies (R241, R253). -/
def dieOfLine (line : Nat) : Nat := if line < 2^51 then dieOfPa (line * 128) else 8

/-- The state of a line's tokens; an unlisted line has all tokens at its home (R253). -/
def Device.lineAt (d : Device) (line : Nat) : LineState := (assocGet line d.lines).getD {}

/-- Replaces a line's state, dropping one whose tokens are all at home. -/
def Device.setLine (d : Device) (line : Nat) (l : LineState) : Device :=
  { d with lines := if l = {} then assocDrop line d.lines else assocPut line l d.lines }

/-- Tokens an L1 holds of a line. -/
def LineState.heldBy (l : LineState) (core : Nat) : Nat := ((l.holders.filter fun h => h.1 == core).map fun h => h.2.1).sum

/-- A line that is coherence-lost: marked so, or homed on a lost die (R267, R388). -/
def Device.lostLine (d : Device) (line : Nat) : Bool :=
  decide (128 * line < Config.peerBase) && (d.lostDies.contains (dieOfLine line) || (d.lineAt line).lost)

/-- The virtual line of an address: bits [56:7], those of the first byte of a tile line. -/
def virtualLine (tile : Bool) (a : Word) : Nat := if tile then a.toNat % 2^57 / 1024 * 8 else a.toNat % 2^57 / 128

/-- The translation under which an L1 answers an access without asking the cluster TLB, which only L1 misses do (R242): a read
hits where the L1 holds a token of the line, a TLD included, and any other access where it holds them all. -/
def l1Hit (d : Device) (core vf : Nat) (a : Word) (need : BitVec 3) : Option (Nat × Word) :=
  ((d.coreAt core).l1.find? fun t =>
    t.vf == vf && t.va == virtualLine t.tile a &&
      (if need = needR ∨ (t.tile = true ∧ need = needRW) then decide (0 < (d.lineAt t.line).heldBy core)
       else need != needX && decide ((d.lineAt t.line).heldBy core = Config.tokensPerLine))).map fun t => (t.level, t.entry)

/-- The translation of an access: its core's L1 has it, or the cluster TLB gives it (R242). -/
def translated (m : Memory) (d : Device) (core part vf : Nat) (l1 : Bool) (a : Word) (need : BitVec 3) : Xlat × Device :=
  match (if l1 then l1Hit d core vf a need else none) with
  | some (level, e) => (.ok level e, d)
  | none => translate m d (clusterOf core) part vf a

/-- Locates an access of an agent: window, translation, permission, anchor (for a context), view, atomic type (R124,
R261). `ctx` is the issuing context, none for an engine; `l1` says that its core's L1 may answer it. -/
def locate (m : Memory) (d : Device) (core part vf : Nat) (ctx : Option (Context × Nat)) (l1 : Bool) (a : Word)
    (need : BitVec 3) (q : Demand) : Located × Device :=
  let p := d.partAt part
  if isWindow a then
    match q, windowPlace p core a (q == .vector) with
    | .expand, _ => (.trap cPROT a, d)
    | _, some pl => (.at_ pl, d)
    | _, none => (.trap cPROT a, d)
  else if !canonical a then (.trap cPROT a, d)
  else
    match translated m d core part vf l1 a need with
    | (.fault c, d) => (.fault c a need, d)
    | (.migrating, d) => (.migrating, d)
    | (.ok level e, d) =>
      let tv := p.tileView vf level a
      let pl := entryPlace p level tv e a
      if !permits e need then (.trap cPROT a, d)
      else
        let away : Option Nat :=
          if eBit e 5 && decide (entryAdie e ≠ dieOfCore core) then some (entryAdie e) else none
        let rest : Located × Device :=
          if q != .tile && tv then (.trap cVIEW a, d)
          else
            match pl.kind, q with
            | .host, .sync => (.trap cAMOTYPE a, d)
            | .host, .atomic false => (.trap cAMOTYPE a, d)
            | .host, .expand => (.trap cPROT a, d)
            | .peer, .sync => (.trap cPROT a, d)
            | .peer, .atomic false => (.trap cAMOTYPE a, d)
            | .peer, .expand => (.trap cPROT a, d)
            | _, _ => (.at_ pl, d)
        match away, ctx with
        | some die, some (x, slot) =>
          if x.regs.sys.pin || coreTied (d.coreAt core) x core slot then (.trap cANCHOR a, d)
          else (.ship die pl.line, d)
        | _, _ => rest

/-- A key whose line is coherence-lost (R267). -/
def Device.lineLost (d : Device) (key : Nat) : Bool := d.lostLine (lineOf key)

/-- The home, or the L1 of the access's own core, can serve a load (R122, R253). -/
def Device.canLoad (d : Device) (core line : Nat) : Bool :=
  decide (0 < (d.lineAt line).home) || decide (0 < (d.lineAt line).heldBy core)

/-- The home, or the L1 of the access's own core, holds every token (R242, R253, R254). -/
def Device.canStore (d : Device) (core line : Nat) : Bool :=
  decide ((d.lineAt line).home = Config.tokensPerLine) || decide ((d.lineAt line).heldBy core = Config.tokensPerLine)

end Sys2Proof.Machine
end

