-- ==== Sys2Proof/Machine/Tokens.lean ====
section
/-! DEFINITION. The tokens of a line (R253 to R258): who holds them, how a holder gives them up, and the requests that move
them. The value of a line is held once, in memory: tokens decide who may read and write it. -/
namespace Sys2Proof.Machine

/-- State of the die link between two dies; an unlisted link is active (R266). -/
def Device.linkState (d : Device) (a b : Nat) : LinkState :=
  if a = b then .active
  else
    match d.dieLinks.find? fun l => (l.a == a && l.b == b) || (l.a == b && l.b == a) with
    | some l => l.state
    | none => .active

/-- Whether the link between two dies carries requests. -/
def linkUp (d : Device) (a b : Nat) : Bool := decide (d.linkState a b = .active)

/-- A request to a die over a sleeping link starts its wake (R266). -/
def startWakes (d : Device) (a : Nat) (bs : List Nat) : Device :=
  bs.foldl (fun d b =>
    if d.linkState a b = .asleep then
      { d with dieLinks := d.dieLinks.map fun l =>
          if (l.a = a ∧ l.b = b) ∨ (l.a = b ∧ l.b = a) then { l with state := .waking, since := d.wall } else l }
    else d) d

/-- Whether a request from one die reaches another now: over an active link. A sleeping link starts its wake (R266). -/
def reachDie (d : Device) (a b : Nat) : Bool × Device := (linkUp d a b, startWakes d a [b])

/-- The grant of a line that the proxy holds, with what has come of its data. -/
def Device.grantOf (d : Device) (line : Nat) : Nat := (assocGet line d.grants).getD 0

/-- Whether a grant serves a request: for a write it is exclusive (R378). -/
def grantServes (g : Nat) (exclusive : Bool) : Bool := g % 4 == 2 || g % 4 == 1 && !exclusive

/-- Whether a grant's data is at the proxy. -/
def grantData (g : Nat) : Bool := g / 4 % 2 == 1

/-- Whether an atomic on a host line stands at the host (R377). -/
def Device.hostAtomic (d : Device) (line : Nat) : Bool :=
  d.accesses.any fun b => b.hostPending && b.pieces.any fun q => lineOf q.key == line

/-- Whether an atomic on a host line stands at the host, or a host snoop of the line is to be served first (R377, R378). -/
def Device.hostBusy (d : Device) (line : Nat) : Bool := d.snoops.any (fun q => q.line == line) || d.hostAtomic line

/-- Whether two notes are of the same request. -/
def HostAsk.same (q r : HostAsk) : Bool := q.line == r.line && q.part == r.part && q.who == r.who && q.exclusive == r.exclusive

/-- Takes note of a request that waits at the proxy, once (R378, R397). -/
def Device.asksHost (d : Device) (r : HostAsk) : Device := if d.hostAsks.any r.same then d else { d with hostAsks := d.hostAsks ++ [r] }

/-- Whether a host snoop of the line goes before a request (R378): it arrived no later at the proxy. -/
def Device.snooped (d : Device) (r : HostAsk) : Bool :=
  d.snoops.any fun q => q.line == r.line && !d.hostAsks.any fun e => r.same e && decide (e.since < q.since)

/-- The grant the proxy needs for a partition's access to host memory (R378): true when it holds it with the line's data; otherwise TREQ
goes out once. While a snoop of the line goes before it, or an atomic on the line is at the host, the access waits. -/
def hostReady (d : Device) (part : Nat) (who : Nat × Nat × Nat) (key : Nat) (exclusive : Bool) : Bool × Device :=
  let line := lineOf key
  let g := d.grantOf line
  let r : HostAsk := ⟨line, part, who, exclusive, d.wall⟩
  let asked := d.asksHost r
  if d.snooped r || d.hostAtomic line then (false, asked)
  else if grantServes g exclusive && grantData g then (true, { d with hostAsks := d.hostAsks.filter fun q => !r.same q })
  else if grantServes g exclusive || d.treqs.contains (line, exclusive) then (false, asked)
  else (false, { asked with treqs := d.treqs ++ [(line, exclusive)], hostOut := d.hostOut ++ [.treq line exclusive] })

/-- Whether the home of a line can give tokens and data: the proxy of a host line needs its grant first (R378). -/
def homeReady (d : Device) (core line : Nat) (write : Bool) : Bool × Device :=
  if line < 2^51 then (true, d) else hostReady d (d.coreAt core).part (8, core, 0) (128 * line) write

/-- The partition whose memory holds a physical address. -/
def partOfPa (d : Device) (pa : Nat) : Option Nat := (d.parts.find? fun p => p.2.owns pa).map Prod.fst

/-- The home slice of a line of device memory (R241); a host line has none. -/
def Device.sliceOf (d : Device) (line : Nat) : Option Nat :=
  if line < 2^51 then (partOfPa d (line * 128)).map fun p => (d.partAt p).homeOf (line * 128) else none

/-- Monitors registered on the words of a line that have not fired: the home holds one token for each (R138, R258). -/
def Device.armedOn (d : Device) (line : Nat) : Nat :=
  let armed (x : Context) : Bool := x.monitor.any fun mo => mo.registered && !mo.fired && mo.key / 128 == line
  (d.cores.map fun c => (c.2.slots.filter fun o => o.any armed).length).sum +
  (d.saved.map fun v => (v.ctx.toList.filter armed).length + (v.ctxs.filter fun q => armed q.2.1).length).sum

/-- Adds tokens at the home, or at an L1 (R254). -/
def LineState.put (l : LineState) (to_ : Option Nat) (n : Nat) (owner dirty : Bool) : LineState :=
  match to_ with
  | none => { l with home := l.home + n, homeOwner := l.homeOwner || owner, homeDirty := l.homeDirty || dirty }
  | some c =>
    match l.holders.find? fun h => h.1 == c with
    | some h => { l with holders := l.holders.map fun q => if q.1 = c then (c, h.2.1 + n, h.2.2.1 || owner, h.2.2.2 || dirty) else q }
    | none => { l with holders := l.holders ++ [(c, n, owner, dirty)] }

/-- The token message of an L1 holder that gives up all it has of a line. -/
def giveUp (line : Nat) (to_ : Option Nat) (h : Nat × Nat × Bool × Bool) : TokenMsg :=
  { line := line, tokens := h.2.1, owner := h.2.2.1, dirty := h.2.2.2, to_ := to_, from_ := dieOfCore h.1
    owed := if h.2.2.2 && to_.isNone then some h.1 else none }

/-- A write-back counts among the writes that a core has sent to the home's die (R259). -/
def Device.countBack (d : Device) (t : TokenMsg) : Device :=
  match t.owed with
  | some c => d.onCore c fun k => { k with sent := assocPut (dieOfLine t.line) (((assocGet (dieOfLine t.line) k.sent).getD 0) + 1) k.sent }
  | none => d

/-- L1 holders give up a line: their tokens go home, dirty data with the owner token (R143, R242, R254). A die whose L1s shed
the line's last token sends the home a hint (R255). -/
def Device.shedBy (d : Device) (line : Nat) (who : Nat → Bool) : Device :=
  let l := d.lineAt line
  let mine := l.holders.filter fun h => who h.1
  let rest := l.holders.filter fun h => !who h.1
  let dies := ((mine.map fun h => dieOfCore h.1).filter fun die => !rest.any fun h => dieOfCore h.1 == die).eraseDups
  let ms := mine.map (giveUp line none)
  let d1 := ms.foldl Device.countBack (d.setLine line { l with holders := rest })
  { d1 with
    tokenMsgs := d1.tokenMsgs ++ ms
    hints := d1.hints ++ (dies.filter fun die => l.directory.contains die).map fun die => (line, die) }

/-- Drops a line from a core's L1 data cache (R143, R242). -/
def Device.shed (d : Device) (core line : Nat) : Device := d.shedBy line (· == core)

/-- Every cached copy of a line is written back and dropped: the tokens are on their way home (R143, R254). -/
def Device.recall (d : Device) (line : Nat) : Device := d.shedBy line fun _ => true

/-- A core's dirty L1 lines are written back, when it is pre-empted (R242). -/
def Device.writeBackAll (d : Device) (core : Nat) : Device :=
  ((d.lines.filter fun l => l.2.holders.any fun h => h.1 == core && h.2.2.2).map Prod.fst).foldl (fun d l => d.shed core l) d

/-- Tokens of a line come home at once: those of the L1s that `who` names, and those in the messages that `msg` names (assumption
84). -/
def Device.takeHome (d : Device) (line : Nat) (who : Nat → Bool) (msg : TokenMsg → Bool) : Device :=
  let l := d.lineAt line
  if l.lost || d.lostDies.contains (dieOfLine line) || l.home == Config.tokensPerLine then d
  else
    let ms := (l.holders.filter fun h => who h.1).map (giveUp line none) ++ d.tokenMsgs.filter fun t => t.line == line && msg t
    let received := ms.filterMap fun t => t.owed.map fun c => (c, dieOfLine line)
    let d1 := ((l.holders.filter fun h => who h.1).map (giveUp line none)).foldl Device.countBack d
    let d2 := received.foldl (fun (d : Device) q => d.onCore q.1 fun k =>
      { k with got := assocPut q.2 (((assocGet q.2 k.got).getD 0) + 1) k.got }) d1
    { d2.setLine line { l with
        home := l.home + (ms.map TokenMsg.tokens).sum
        homeOwner := l.homeOwner || ms.any TokenMsg.owner
        homeDirty := l.homeDirty || ms.any TokenMsg.dirty
        holders := l.holders.filter fun h => !who h.1 } with
      tokenMsgs := d2.tokenMsgs.filter fun t => !(t.line == line && msg t) }

/-- A unit of the device that writes a record of its own accord collects the line's tokens at the home first (R254). -/
def Device.collect (d : Device) (line : Nat) : Device := d.takeHome line (fun _ => true) fun _ => true

/-- Tokens that the home can give up: it keeps one for each monitor registered on the line (R258). -/
def Device.spare (d : Device) (line : Nat) : Nat := (d.lineAt line).home - d.armedOn line

/-- Tokens that the home answers a request with (R255): all it can give for a write of an L1, one for a read. -/
def homeAnswer (d : Device) (l : LineState) (line : Nat) (core : Option Nat) (write : Bool) : List TokenMsg × LineState :=
  match core with
  | none => ([], l)
  | some c =>
    let spare := l.home - d.armedOn line
    let n := if write then spare else min 1 spare
    if n = 0 then ([], l)
    else
      let last := decide (n = l.home)
      ([⟨line, n, last && l.homeOwner, last && l.homeDirty, some c, dieOfLine line, none⟩],
        { l with home := l.home - n, homeOwner := l.homeOwner && !last, homeDirty := l.homeDirty && !last })

/-- L1 holders in the order in which the home sends its demands to them: those on the dies of the directory's record first
(R255). -/
def LineState.asked (l : LineState) : List (Nat × Nat × Bool × Bool) :=
  (l.holders.filter fun h => l.directory.contains (dieOfCore h.1)) ++ l.holders.filter fun h => !l.directory.contains (dieOfCore h.1)

/-- Tokens that the other holders send for a request (R255, R256): all of them for a write; for a read the holder of the
owner token sends one, which is the owner token itself when `owner` says so. -/
def holderAnswer (d : Device) (l : LineState) (line : Nat) (core : Option Nat) (write owner : Bool) : List TokenMsg × LineState :=
  let target := match core with
    | some c => dieOfCore c
    | none => dieOfLine line
  let gives (h : Nat × Nat × Bool × Bool) : Bool := core != some h.1 && linkUp d (dieOfCore h.1) target && (write || h.2.2.1)
  let sent := l.asked.filter gives
  if write then
    (sent.map (giveUp line core), { l with holders := l.holders.filter fun h => !gives h })
  else
    let moves (h : Nat × Nat × Bool × Bool) : Bool := owner || decide (h.2.1 = 1)
    (sent.map fun h => giveUp line core (h.1, 1, moves h, moves h && h.2.2.2),
     { l with holders := (l.holders.map fun h =>
        if gives h then (h.1, h.2.1 - 1, h.2.2.1 && !moves h, h.2.2.2 && !moves h) else h).filter fun h => h.2.1 != 0 })

/-- The directory after tokens of the line have been sent (R255): the dies whose L1s were last sent some, latest first. -/
def directoryAfter (dir : List Nat) (ms : List TokenMsg) : List Nat :=
  ms.foldl (fun dir t => match t.to_ with
    | some c => dieOfCore c :: dir.filter (· != dieOfCore c)
    | none => dir) dir

/-- Dies of a line's record whose L1s hold its last token no longer: each sends the home a hint (R255). -/
def emptied (was now : LineState) : List Nat :=
  was.directory.filter fun die => was.holders.any (fun h => dieOfCore h.1 == die) && !now.holders.any fun h => dieOfCore h.1 == die

/-- Puts token messages on their way, `l` being the line once they have left. -/
def Device.sendTokens (d : Device) (line : Nat) (ms : List TokenMsg) (l : LineState) : Device :=
  let d1 := ms.foldl Device.countBack (d.setLine line { l with directory := directoryAfter l.directory ms })
  { d1 with
    tokenMsgs := d1.tokenMsgs ++ ms
    hints := d1.hints ++ (emptied (d.lineAt line) l).map fun die => (line, die) }

/-- Die of a requester: an L1's, or the line's home. -/
def requesterDie (line : Nat) (core : Option Nat) : Nat :=
  match core with
  | some c => dieOfCore c
  | none => dieOfLine line

/-- Whether a persistent request for the line is active for somebody else: until its deactivation tokens move to it alone
(R256). -/
def Device.claimed (d : Device) (line : Nat) (core : Option Nat) : Bool :=
  d.persist.any fun r => r.active && r.line == line && r.core != core

/-- Serves a transient request with the tokens that can move now (R255). -/
def serveTransient (d : Device) (line : Nat) (core : Option Nat) (write : Bool) : Device :=
  let l := d.lineAt line
  if d.lostLine line then d
  else
    let home := dieOfLine line
    let (granted, d0) := match core with
      | some c => homeReady d c line write
      | none => (true, d)
    let d1 := startWakes d0 (requesterDie line core) (home :: l.holders.map fun h => dieOfCore h.1)
    if d1.claimed line core then d1
    else
      let (ms, l1) := if granted && linkUp d1 (requesterDie line core) home then homeAnswer d1 l line core write else ([], l)
      let (ns, l2) := if write || ms.isEmpty then holderAnswer d1 l1 line core write false else ([], l1)
      d1.sendTokens line (ms ++ ns) l2

/-- Whether a requester has what it asked for: one token, or all of them. -/
def satisfied (d : Device) (line : Nat) (core : Option Nat) (write : Bool) : Bool :=
  let l := d.lineAt line
  match core with
  | none => if write then decide (l.home = Config.tokensPerLine) else decide (0 < d.spare line)
  | some c => if write then decide (l.heldBy c = Config.tokensPerLine) else decide (0 < l.heldBy c)

/-- Entries of a slice's miss table: its lines' requests that are not satisfied (R257). -/
def Device.misses (d : Device) (slice : Nat) : Nat :=
  (d.tokenReqs.filter fun r => d.sliceOf r.line == some slice).length + (d.persist.filter fun r => d.sliceOf r.line == some slice).length

/-- Whether a line's home has room for a new miss: a slice's miss table has 64 entries (R257). -/
def Device.missRoom (d : Device) (line : Nat) : Bool :=
  match d.sliceOf line with
  | some s => decide (d.misses s < 64)
  | none => true

/-- Sends a transient request, unless one for the same stands or the home's miss table is full (R255, R257). -/
def Device.ask (d : Device) (line : Nat) (core : Option Nat) (write engine : Bool) : Device :=
  if d.tokenReqs.any (fun q => q.line == line && q.core == core && q.write == write) ||
      d.persist.any (fun q => q.line == line && q.core == core && q.write == write) || !d.missRoom line then d
  else
    let d1 := serveTransient d line core write
    { d1 with tokenReqs := d1.tokenReqs ++
        [{ line := line, core := core, write := write, first := d.wall, sentAt := d.wall, engine := engine }] }

/-- What an engine's access leaves behind at its line: the home has what it needs, or it has been asked for (R246, R250, R254). -/
def Device.homeHas (d : Device) (line : Nat) (write : Bool) : Bool × Device :=
  let ok := if write then decide ((d.lineAt line).home = Config.tokensPerLine) else decide (0 < (d.lineAt line).home)
  (ok, if ok then d else d.ask line none write true)

/-- An engine has performed at a line: its persistent requests for it are released (R256). -/
def Device.released (d : Device) (line : Nat) : Device :=
  { d with persist := d.persist.map fun r => if r.line == line && r.engine then { r with engine := false } else r }

/-- Sets of the L1 data cache that a tag takes (R242): a tile line takes those of its eight lines. -/
def L1Tag.sets (t : L1Tag) : List Nat := (List.range (if t.tile then 8 else 1)).map fun i => (t.va + i) % 128

/-- Whether an L1 holds a token of a line, or has asked for one, or one is on its way to it. -/
def Device.expects (d : Device) (core line : Nat) : Bool :=
  decide (0 < (d.lineAt line).heldBy core) || d.tokenReqs.any (fun r => r.line == line && r.core == some core) ||
    d.persist.any (fun r => r.line == line && r.core == some core) || d.tokenMsgs.any fun t => t.line == line && t.to_ == some core

/-- An L1 that drops a line without tokens to return sends the home a hint, if its die holds no other token of it (R255). -/
def Device.hintDrop (d : Device) (core line : Nat) : Device :=
  let l := d.lineAt line
  if l.directory.contains (dieOfCore core) && !l.holders.any fun h => dieOfCore h.1 == dieOfCore core then
    { d with hints := d.hints ++ [(line, dieOfCore core)] }
  else d

/-- An L1 miss fills a line under a virtual address (R242, R243): a copy of the same physical line under another address is
written back and dropped first, and a set that holds four lines gives up its oldest (assumption 85). -/
def fillL1 (d : Device) (core : Nat) (t : L1Tag) : Device :=
  let k := d.coreAt core
  let d1 := if k.l1.any fun q => q.line == t.line && (q.vf != t.vf || q.va != t.va) then d.shed core t.line else d
  let others := k.l1.filter fun q => q.line != t.line
  let live := others.filter fun q => d1.expects core q.line
  let crowded (n : Nat) : List L1Tag := let q := live.filter fun q => q.sets.contains n; q.take (q.length - 3)
  let out := (t.sets.map crowded).flatten.eraseDups
  let d2 := (others.filter fun q => !d1.expects core q.line).foldl (fun d q => d.hintDrop core q.line) d1
  let d3 := out.foldl (fun d q => d.shed core q.line) d2
  d3.onCore core fun k => { k with l1 := (live.filter fun q => !out.contains q) ++ [t] }

/-- The tag under which a miss of an L1 on an address of a VF will fill its line (R242, R244): none where the cluster TLB no longer
translates the address to the line. -/
def missTag (d : Device) (core vf : Nat) (tile : Bool) (va : Word) (line : Nat) : Option L1Tag :=
  ((d.tlb.find? fun t => t.covers (clusterOf core) vf va).filter fun t => (entryPlace {} t.level tile t.entry va).line == line).map fun t =>
    { vf := vf, va := virtualLine tile va, line := line, tile := tile, level := t.level, entry := t.entry }

/-- A miss on an address of a VF (R242 to R244): the core's L1 makes room for the line, and the line's home knows its size. A miss at the
home, which no core's L1 has, changes no L1. -/
def Device.miss (d : Device) (line : Nat) (core : Option Nat) (vf : Nat) (tile : Bool) (va : Word) : Device :=
  let d1 := if tile then d.setLine line { d.lineAt line with tile := true } else d
  match core.bind fun c => (missTag d1 c vf tile va line).map fun t => (c, t) with
  | some (c, t) => fillL1 d1 c t
  | none => d1

/-- A token message arrives (R254): tokens for an L1 that no longer has a place for the line go home at once (R242). -/
def Device.takeTokens (d : Device) (t : TokenMsg) : Device :=
  let d1 := d.setLine t.line ((d.lineAt t.line).put t.to_ t.tokens t.owner t.dirty)
  match t.to_ with
  | some c => if (d1.coreAt c).l1.any fun q => q.line == t.line then d1 else d1.shed c t.line
  | none => d1

/-- Whether an L1 holds a copy of a line under an address of a VF (R242, R243). -/
def Device.holdsUnder (d : Device) (core vf : Nat) (tile : Bool) (va : Word) (line : Nat) : Bool :=
  decide (0 < (d.lineAt line).heldBy core) &&
    (d.coreAt core).l1.any fun t => t.line == line && t.vf == vf && t.va == virtualLine tile va

end Sys2Proof.Machine
end

