-- ==== Sys2Proof/Machine/Work.lean ====
section
/-! DEFINITION. A step that changes memory more than once: the working memory and device, engine writes, the fires of
monitors, error records (R389, R390) and fault-queue entries (R357). -/
namespace Sys2Proof.Machine

/-- A step in progress: memory as it stands, the device, the edits made, and the words whose waiting requests are to be
looked at when the step ends. -/
structure Work where
  m : Memory
  d : Device
  es : List Edit
  touched : List Nat
  deriving DecidableEq, Repr

/-- The start of a step. -/
def Work.start (s : State) : Work := ⟨s.mem, s.dev, [], []⟩
/-- Changes the device. -/
def Work.on (w : Work) (f : Device → Device) : Work := { w with d := f w.d }
/-- Makes edits, naming the words to be looked at. -/
def Work.edit (w : Work) (es : List Edit) (words : List Nat) : Work :=
  { w with m := w.m.apply es, es := w.es ++ es, touched := w.touched ++ words }

/-- The fires of every registered monitor on the words (R139, R258). -/
def monitorFires (d : Device) (words : List Nat) : List Fire :=
  (d.cores.map fun p => p.2.slots.filterMap fun o =>
    match o with
    | some x =>
      match x.monitor with
      | some mo =>
        if mo.registered && !mo.fired && words.contains (mo.key / 8) then some ⟨x.part, x.tid, x.launch, mo.reg⟩ else none
      | none => none
    | none => none).flatten

/-- Sends the fires of monitors on words. -/
def Work.fire (w : Work) (words : List Nat) : Work :=
  w.on fun d => { d with fires := d.fires ++ monitorFires d words }

/-- Words a span of bytes touches. -/
def wordsOf (key n : Nat) : List Nat := if n = 0 then [] else (List.range ((key + n - 1) / 8 - key / 8 + 1)).map (key / 8 + ·)

/-- Engine writes of a byte string at a place (R246): the words become full, monitors fire, waiters are served. A line of device
memory is written once its home holds every token (R254); nothing is written to one that is coherence-lost (R267). -/
def Work.engine (w : Work) (key : Nat) (bs : List Byte) : Work :=
  let ws := (wordsOf key bs.length).filter fun k => !w.d.lostLine (k / 16)
  let w1 := if key < Config.hostBase then w.on fun d => ((ws.map (· / 16)).eraseDups).foldl (fun d l => (d.collect l).released l) d else w
  (w1.fire ws).edit ((engineWrite w.m key bs).filter fun e => ws.contains e.word) ws

/-- Bytes of dwords, little-endian. -/
def dwordBytes (ws : List Word) : List Byte :=
  (ws.map fun x => (List.range 8).map fun i => BitVec.ofNat 8 (x.toNat / 256^i)).flatten

/-- A 32-bit counter that wraps, moved on by one. -/
def bump (x : BitVec 32) : BitVec 32 := x + 1

/-- STORE code of the level behind a place key (R389). -/
def storeCode (key : Nat) : Nat :=
  if key < Config.hostBase then (if dieOfPa key < 4 then 0x11 else 0x10)
  else if key < Config.peerBase then 0x15
  else if key < Config.scratchpadBase then 0x14
  else if key < Config.laneBase then (if (key - Config.scratchpadBase) % 2^19 < 0x40000 then 0x07 else 0x09)
  else if key < Config.dieScratchBase then 0x08
  else 0x0B

/-- Byte offset in its die's window of a place of die scratch (R240). -/
def scratchOffset (d : Device) (key : Nat) : Nat :=
  let sl := (key - Config.dieScratchBase) / 2^19
  let o := (key - Config.dieScratchBase) % 2^19
  match (d.parts.map fun p => p.2.slices (sl / 256)).find? fun l => l.contains sl with
  | some l => (o / 1024 * l.length + l.idxOf sl) * 1024 + o % 1024
  | none => o

/-- ADDR of a record about a place (R389): the physical address, or the window address of an on-chip level. -/
def recordAddr (d : Device) (key : Nat) : Word :=
  if key < Config.hostBase then BitVec.ofNat 64 key
  else if key < Config.peerBase then BitVec.ofNat 64 (key - Config.hostBase)
  else if key < Config.scratchpadBase then BitVec.ofNat 64 (key - Config.peerBase)
  else if key < Config.laneBase then
    let o := key - Config.scratchpadBase
    let c := o / 2^19
    BitVec.ofNat 64 (0xFE1 * 2^52 + dieOfCore c * 2^40 + cyOf c * 2^36 + cxOf c * 2^32 + c % 4 * 2^24 + o % 2^19)
  else if key < Config.dieScratchBase then BitVec.ofNat 64 (0xFE03 * 2^48 + (key - Config.laneBase) % 2^17)
  else BitVec.ofNat 64 (0xFE02 * 2^48 + scratchOffset d key)

/-- What an error record says (R389). -/
structure Event where
  cls : Nat
  store : Nat
  part : Option Nat := none
  vf : Nat := 0
  addr : Word := 0
  tid : BitVec 32 := 0
  source : Nat := 0
  detail : Word := 0
  deriving DecidableEq, Repr

/-- The eight dwords of a record. -/
def Event.record (e : Event) (seq : Nat) (wall : Nat) : List Word :=
  [BitVec.ofNat 64 seq, BitVec.ofNat 64 wall,
   BitVec.ofNat 64 (e.cls % 256 * 2^56 + e.store % 256 * 2^48 + e.part.getD 0 % 64 * 2^42 + e.vf % 512 * 2^33 +
     (if e.part.isSome then 2^32 else 0) + 2^16),
   e.addr, BitVec.ofNat 64 (e.tid.toNat * 2^32 + e.source % 2^18), e.detail, 0, 0]

/-- Ring size named by a base register's low bits. -/
def ringSize (base : Word) (bits : Nat) : Nat := 2^(base.toNat % 2^bits)
/-- Base address in a base register (assumption 33: a physical address). -/
def ringBase (base : Word) (align : Nat) : Nat := base.toNat % 2^57 / align * align

/-- Entry at the next index of a partition's fault queue, or behind those that wait for room (R357). The answer is the
index the entry has or will have; without a fault queue none is written (R334). -/
def Work.faultEntry (w : Work) (part : Nat) (words : List Word) (answerable : Bool) : Work × Option Nat :=
  let p := w.d.partAt part
  if p.fqbase = 0 then (w, none)
  else
    let waiting := p.faults.filter fun f => f.index.isNone
    let n := ringSize p.fqbase 4
    let idx := (p.fqwr + BitVec.ofNat 32 waiting.length).toNat
    if waiting.isEmpty ∧ (p.fqwr - p.fqrd).toNat < n then
      let w1 := w.engine (ringBase p.fqbase 256 + 256 * (p.fqwr.toNat % n)) (dwordBytes words)
      (w1.on fun d => d.onPart part fun p =>
        { p with fqwr := bump p.fqwr, faults := if answerable then p.faults ++ [⟨some idx, words⟩] else p.faults }, some idx)
    else
      (w.on fun d => d.onPart part fun p =>
        { p with faults := p.faults ++ [⟨none, words⟩] }, some idx)

/-- Whether an entry's KIND needs an answer (R357, R358). -/
def answerable (words : List Word) : Bool :=
  let k := (words.headD 0).toNat % 256
  k == 1 || k == 2

/-- Writes waiting entries into room that FQRD freed, in order (R357); `fuel` bounds the entries. -/
def Work.drainFaults (part : Nat) : Nat → Work → Work
  | 0, w => w
  | fuel + 1, w =>
    let p := w.d.partAt part
    match p.faults.find? fun f => f.index.isNone with
    | none => w
    | some f =>
      let n := ringSize p.fqbase 4
      if (p.fqwr - p.fqrd).toNat < n then
        let w1 := w.engine (ringBase p.fqbase 256 + 256 * (p.fqwr.toNat % n)) (dwordBytes f.words)
        let rest := p.faults.filter fun f => f.index.isNone
        let known := p.faults.filter fun f => f.index.isSome
        let here := if answerable f.words then [⟨some p.fqwr.toNat, f.words⟩] else []
        drainFaults part fuel (w1.on fun d => d.onPart part fun p =>
          { p with fqwr := bump p.fqwr, faults := known ++ here ++ rest.drop 1 })
      else w

/-- Pads dwords to an entry of 32. -/
def entryOf (ds : List Word) : List Word := ds ++ List.replicate (32 - ds.length) 0

/-- The machine-error notice of R390. -/
def noticeEntry (cls seq source : Nat) : List Word :=
  entryOf [BitVec.ofNat 64 (cls % 256 * 2^48 + source % 2^18 * 2^28 + 4), BitVec.ofNat 64 seq, 0, 0]

/-- Writes an error record: the package log, the partition's ring, and for CLASS 10, 11 and 12 the notice (R389, R390). -/
def Work.log (w : Work) (e : Event) : Work :=
  let seq := w.d.logSeq
  let rec_ := e.record seq w.d.wall
  let same := w.d.log.findIdx? fun r =>
    e.cls == 1 && (r.getD 2 0).toNat / 2^56 == 1 && (r.getD 2 0).toNat / 2^48 % 256 == e.store &&
      r.getD 3 0 == e.addr && (r.getD 1 0).toNat / 1000000 == w.d.wall / 1000000
  match same with
  | some i =>
    let count (x : Word) : Word := if x.toNat / 2^16 % 2^16 = 0xFFFF then x else x + 0x10000
    w.on fun d => { d with log := d.log.modify i (fun r => r.modify 2 count) }
  | none =>
    let w1 := w.on fun d => { d with log := (rec_ :: d.log).take 65536, logSeq := seq + 1 }
    match e.part with
    | none => w1
    | some part =>
      let p := w1.d.partAt part
      let n := ringSize p.elbase 4
      let full := (p.elwr.setWidth 32 - p.elrd).toNat
      let w2 :=
        if p.elbase = 0 ∨ n ≤ full then
          w1.on fun d => d.onPart part fun p =>
            { p with elwr := if p.elwr.toNat / 2^32 = 0xFFFFFFFF then p.elwr else p.elwr + 0x100000000 }
        else
          (w1.engine (ringBase p.elbase 4096 + 64 * (p.elwr.toNat % n)) (dwordBytes rec_)).on fun d =>
            d.onPart part fun p =>
              { p with elwr := BitVec.ofNat 64 (p.elwr.toNat / 2^32 * 2^32 + (p.elwr.toNat + 1) % 2^32) }
      if e.cls = 10 ∨ e.cls = 11 ∨ e.cls = 12 then (w2.faultEntry part (noticeEntry e.cls seq e.source) false).1 else w2

/-- The record of a POISON delivered to a context (CLASS 3). -/
def Work.consumed (w : Work) (x : Context) (core slot store : Nat) (addr : Word) : Work :=
  w.log { cls := 3, store := store, part := some x.part, vf := x.vf, addr := addr, tid := x.tid, source := packName core slot }

/-- STORE of a POISON whose source is not memory, by its SRC (R386; RRES has no code of its own, assumption 34). -/
def registerStore (val : Word) : Nat :=
  -- an address kept in a FAULTED slot (R180)
  if val.toNat / 2^56 ≠ 0xFD then 0x0D
  else match val.toNat / 2^12 % 16 with
  | 1 => 0x01
  | 2 => 0x02
  | 3 => 0x0D
  | 4 => 0x0E
  | 5 => 0x0F
  | _ => 0x16

end Sys2Proof.Machine
end

