-- ==== Sys2Proof/Machine/Ports.lean ====
section
/-! DEFINITION. What happens at an owning port (R122, R251): reach, tracing and replay, meters, the effect of one part of
an access, and the service of waiting requests (R133). -/
namespace Sys2Proof.Machine

/-- Die of a port. -/
def Port.die : Port → Nat
  | .scratchpad c => dieOfCore c
  | .lane c => dieOfCore c
  | .bank c => dieOfCore c
  | .dieScratch sl => sl / 256
  | .slice sl _ => sl / 256
  | .host _ => 8
  | .peer l => 8 + l / 8

/-- Cluster of a port on the mesh. -/
def Port.cluster : Port → Option Nat
  | .scratchpad c => some (clusterOf c)
  | .lane c => some (clusterOf c)
  | .bank c => some (clusterOf c)
  | .dieScratch sl => some sl
  | .slice sl _ => some sl
  | .host _ => none
  | .peer _ => none

/-- A port of memory outside the module: the host's or a peer's. -/
def Port.far : Port → Bool
  | .host _ => true
  | .peer _ => true
  | _ => false

/-- Whether a port lies within reach of a scope from a core (R273). -/
def Port.within (p : Port) (sc : BitVec 2) (core : Nat) : Bool :=
  match sc.toNat with
  | 0 => p.cluster == some (clusterOf core)
  | 1 => p.cluster.isSome && p.die == dieOfCore core
  | 2 => p.cluster.isSome
  | _ => true

/-- The core whose memory a port serves. -/
def Port.ownCore : Port → Option Nat
  | .scratchpad c => some c
  | .lane c => some c
  | .bank c => some c
  | _ => none

/-- Packed name and PTYPE of a port in a trace record (R396); none for a peer's memory. -/
def Port.traceName : Port → Option (Nat × Nat)
  | .scratchpad c => some (packName c 0, 1)
  | .lane c => some (packName c 0, 2)
  | .bank c => some (clusterOf c * 64, 3)
  | .dieScratch sl => some (sl * 64, 4)
  | .slice sl _ => some (sl * 64, 4)
  | .host _ => some (0x20000, 5)
  | .peer _ => none

/-- Whether a partition has a traced launch (R397). -/
def traced (d : Device) (part : Nat) : Bool := d.launches.any fun l => l.part == part && l.trace

/-- Records an input of a partition (R397): none while the ring is full. `wall` is its arrival. -/
def Work.krovton (w : Work) (part kind link wall : Nat) (addr : Word) (payload : List Byte) : Option Work :=
  let p := w.d.partAt part
  let n := ringSize p.krbase 5
  if !traced w.d part || p.krbase == 0 then some w
  else if n ≤ (p.krwr - p.krrd).toNat then none
  else
    let bs := payload.take 128
    let k0 := BitVec.ofNat 64 (kind * 2^56 + link % 16 * 2^52 + bs.length * 2^32 + p.krseq % 2^32)
    let rec_ := dwordBytes ([k0, BitVec.ofNat 64 wall, addr] ++ List.replicate 13 0) ++ bs ++ List.replicate (128 - bs.length) 0
    let w1 := w.engine (ringBase p.krbase 4096 + 256 * (p.krwr.toNat % n)) rec_
    some (w1.on fun d => d.onPart part fun p => { p with krwr := bump p.krwr, krseq := p.krseq + 1 })

/-- Whether a partition's Krovton ring has room for an answer of a peer's memory: while it has none the answer is held (R397). -/
def Device.inputRoom (d : Device) (part : Nat) : Bool :=
  let p := d.partAt part
  !traced d part || p.krbase == 0 ||
    decide ((p.krwr - p.krrd).toNat + (d.inputs.filter fun q => q.part == part).length < ringSize p.krbase 5)

/-- Takes note of an answer of a peer's memory, which the recorder records before anything else happens (R397). -/
def Device.noteInput (d : Device) (part link : Nat) (addr : Word) (payload : List Byte) : Device :=
  if traced d part then { d with inputs := d.inputs ++ [⟨part, link, addr, payload⟩] } else d

/-- A peer link; one that is not listed is as bring-up left it. -/
def Device.peerAt (d : Device) (link : Nat) : PeerLink := (d.peers.find? fun l => l.id == link).getD { id := link }
/-- Changes a peer link. -/
def Device.onPeer (d : Device) (link : Nat) (f : PeerLink → PeerLink) : Device :=
  let p := f (d.peerAt link)
  { d with peers := (d.peers.filter fun l => l.id != link) ++ [p] }

/-- The header of a flit that leaves (R381): it acknowledges what has been received in order and returns no credit. -/
def PeerLink.header (l : PeerLink) (kind : Nat) : Word :=
  BitVec.ofNat 64 (l.nextSeq.toNat * 2^52 + (l.expect - 1).toNat * 2^40 + kind * 2^32)

/-- A flit leaves on a peer link and is kept for replay (R381, R382). -/
def Device.sendFlit (d : Device) (link kind : Nat) (req : Option PeerReq) : Device :=
  d.onPeer link fun l => { l with
    nextSeq := l.nextSeq + 1
    sent := l.sent ++ [{ seq := l.nextSeq, header := l.header kind, req := req }]
    beat := d.wall }

/-- Whether the peer has reported a request performed; one that has not been sent leaves in a flit, where the link has one of its 512
places free (R382). -/
def Device.peerAsk (d : Device) (link : Nat) (q : PeerReq) : Bool × Device :=
  let l := d.peerAt link
  if l.reports.contains q then (true, d)
  else if (l.sent.any fun f => f.req == some q) || decide (512 ≤ l.sent.length) then (false, d)
  else (false, d.sendFlit link 1 (some q))

/-- A report that has been taken is forgotten. -/
def Device.peerTaken (d : Device) (link : Nat) (q : PeerReq) : Device := d.onPeer link fun l => { l with reports := l.reports.erase q }

/-- Reports to a unit's requests are forgotten. -/
def Device.peerForget (d : Device) (unit : Nat) (who : Nat × Nat) : Device :=
  if d.peers.any fun l => l.reports.any fun q => q.unit == unit && q.who == who then
    { d with peers := d.peers.map fun l => { l with reports := l.reports.filter fun q => !(q.unit == unit && q.who == who) } }
  else d

/-- Whether a link to a peer is down. -/
def Device.peerDown (d : Device) (link : Nat) : Bool := d.peers.any fun l => l.id == link && l.down

/-- The link behind a place of peer memory (R382). -/
def linkOf (key : Nat) : Nat := (key - Config.peerBase) / 2^48 % 16

/-- A number from bytes, least significant first. -/
def bytesNat : List Byte → Nat
  | [] => 0
  | b :: r => b.toNat + 256 * bytesNat r

/-- n free bytes. -/
def Device.drawBytes (d : Device) (n : Nat) : List Byte × Device :=
  let r := (List.range ((n + 7) / 8)).foldl (fun (acc : List Byte × Device) _ =>
    let (x, d1) := acc.2.drawWord
    (acc.1 ++ leBytes 8 x.toNat, d1)) (([] : List Byte), d)
  (r.1.take n, r.2)

/-- What a read of a peer's memory meets: the answer, which is free (assumption 20), a down link, or nothing yet (R382). -/
inductive PeerAnswer where
  | answer (bs : List Byte) (d : Device)
  | down
  | away (d : Device)

/-- A read of n bytes of a peer's memory by a unit of a partition (R382): the answer is an input of the partition (R397). -/
def Device.peerRead (d : Device) (part : Nat) (q : PeerReq) (n : Nat) : PeerAnswer :=
  let link := linkOf q.key
  if d.peerDown link then .down
  else
    match d.peerAsk link q with
    | (false, d1) => .away d1
    | (true, d1) =>
      if !d1.inputRoom part then .away d1
      else
        let (bs, d2) := d1.drawBytes n
        .answer bs (d2.noteInput part link (recordAddr d q.key) bs)

/-- A write to a peer's memory by a unit of a partition: it has performed once the peer reports it (R382). -/
def Device.peerWrite (d : Device) (part : Nat) (q : PeerReq) : Bool × Device :=
  let link := linkOf q.key
  match d.peerAsk link q with
  | (false, d1) => (false, d1)
  | (true, d1) => if d1.inputRoom part then (true, (d1.peerTaken link q).noteInput part link (recordAddr d q.key) []) else (false, d1)

/-- Replaces an access. -/
def Device.setAccess (d : Device) (a : Access) : Device :=
  { d with accesses := d.accesses.map fun b => if b.id = a.id then a else b }
/-- Removes an access. -/
def Device.dropAccess (d : Device) (id : Nat) : Device := { d with accesses := d.accesses.filter fun b => b.id != id }
/-- The access of a number. -/
def Device.access (d : Device) (id : Nat) : Option Access := d.accesses.find? fun a => a.id == id

/-- A long-latency kind: it leaves a pending result (R24). -/
def AccessKind.long : AccessKind → Bool
  | .load _ _ => true
  | .loadV _ => true
  | .loadScaled _ => true
  | .loadX => true
  | .tileLoad _ => true
  | .ldf _ _ => true
  | .amo _ _ _ => true
  | _ => false

/-- The tag a load gives its vector destinations (R125, R128, R129, R141). -/
def AccessKind.tag : AccessKind → Option (BitVec 4)
  | .loadV t => some t
  | .loadScaled t => some t
  | .loadX => some 4
  | .tileLoad t => some t
  | _ => none

/-- A load of memory that reads no full bit. -/
def AccessKind.plainLoad : AccessKind → Bool
  | .load _ _ => true
  | .loadV _ => true
  | .loadScaled _ => true
  | .loadX => true
  | .tileLoad _ => true
  | _ => false

/-- A load that its core's L1 may serve (R122): every plain load but LDX, which performs at the home slice (R129, R245). -/
def AccessKind.cached : AccessKind → Bool
  | .loadX => false
  | k => k.plainLoad

/-- A write that R136 records. -/
def AccessKind.recorded : AccessKind → Bool
  | .store => true
  | .tileStore => true
  | .stf _ => true
  | .amo _ _ _ => true
  | _ => false

/-- The address a part was issued with. -/
def Access.issued (a : Access) (p : Piece) : Word := p.own.getD a.addr

/-- Whether a part is the first to perform of what its port takes as one store, STF or atomic. -/
def Access.opens (a : Access) (p : Piece) : Bool := !a.pieces.any fun q => q.done && q.port == p.port && q.own == p.own

/-- Whether a port records an access with one of its parts (R136, R395). -/
def recorded (d : Device) (a : Access) (p : Piece) : Bool :=
  a.kind.recorded && a.opens p && p.port.traceName.isSome && p.port.ownCore != some a.core &&
  (match d.launchAt a.part a.launch with
    | some l => l.trace
    | none => false)

/-- Whether a releasing fence that a context has passed waits for something beside its accesses (R137, R259, R377): an acknowledgement
of its markers, or at system scope an HMWR that the host has not completed. -/
def relAway (d : Device) (core slot : Nat) (q : Nat × BitVec 2) : Bool :=
  d.markers.any (fun m => m.core == core && m.slot == slot && m.rel == some q.1) || q.2 == 3 && d.hmwrs.any fun h => decide (h.1 < q.1)

/-- Whether the memory of a part is gone: its line is coherence-lost, or its die is lost (R267, R388). -/
def Device.placeLost (d : Device) (p : Piece) : Bool :=
  if Config.scratchpadBase ≤ p.key then d.lostDies.contains p.port.die else d.lostLine p.line

/-- Whether an unfinished part of an earlier access of a thread lies in the word of a part of a later one (R274). -/
def sameWord (b : Access) (p : Piece) : Bool := b.pieces.any fun q => !q.done && q.key / 8 == p.key / 8

/-- Whether an unfinished part of an earlier access of a thread holds back a part of a later one at another place (R124, R138,
R242, R274, R353). -/
def holdsBack (d : Device) (b : Access) (a : Access) (p : Piece) : Bool :=
  b.pieces.any (fun q =>
    !q.done &&
      (((match b.kind, a.kind with
          | .flush, _ => true
          | .clean, _ => true
          | _, .flush => true
          | _, .clean => true
          | _, _ => false) && q.line == p.line) ||
       (a.strong && b.strong && q.port.within a.scope a.core && p.port.within b.scope b.core) ||
       (match b.kind with
          | .ldf _ _ => true
          | .marm _ => a.kind.plainLoad
          | _ => !a.kind.plainLoad && d.placeLost q))) ||
  (!a.kind.plainLoad && b.fault.isSome) ||
  (!a.kind.plainLoad &&
    (match d.ctxAt a.core a.slot with
      | some x => x.pending.any fun q => q.id == b.id && q.mayFault && !q.arrived
      | none => false))

/-- Whether an unfinished part of an earlier access of a thread holds back a part of a later one (R242, R274, R353). -/
def blocks (d : Device) (b : Access) (a : Access) (p : Piece) : Bool := sameWord b p || holdsBack d b a p

/-- Earlier accesses of the same thread. -/
def earlier (d : Device) (a : Access) : List Access :=
  d.accesses.filter fun b => b.tid == a.tid && b.launch == a.launch && b.core == a.core && decide (b.id < a.id)

/-- Whether an access has a part to perform that its port will record. -/
def Access.owesRecord (d : Device) (a : Access) : Bool := a.pieces.any fun p => !p.done && recorded d a p

/-- Whether an atomic that the host has not answered holds the word of a part in host memory: it is one step there (R280, R377). -/
def heldByHost (d : Device) (p : Piece) : Bool :=
  d.accesses.any fun b => b.hostPending && b.pieces.any fun q => !q.done && q.key / 8 == p.key / 8

/-- Room in the partition's trace ring for what an access brings about by performing a part (R395): its own record, and those of the
earlier accesses that it passes. Room that the atomics at the host and the accesses passed before will need is not free. -/
def traceRoom (d : Device) (a : Access) (p : Piece) : Bool :=
  let q := d.partAt a.part
  let mine := ((earlier d a).filter fun b => !b.passed && b.owesRecord d).length + if recorded d a p then 1 else 0
  let kept := (d.accesses.filter fun b => b.part == a.part && b.id != a.id && (b.passed || b.hostPending) && b.owesRecord d).length
  mine == 0 || decide (q.trbase ≠ 0 ∧ (q.trwr - q.trrd).toNat + kept + mine ≤ ringSize q.trbase 5)

/-- Low bits of d2 that R396 gives to the kind of access: KIND, AOP, W. -/
def traceKind (a : Access) (failed : Bool) : Nat :=
  match a.kind with
  | .stf _ => 2 * 2^28
  | .amo op wide _ => (if failed then 4 else 3) * 2^28 + op % 16 * 2^24 + (if wide then 2^23 else 0)
  | _ => 1 * 2^28

/-- Writes the trace record of an access that a port performs (R396), if it is recorded; none is written over one that has not been
consumed (R395). -/
def Work.trace (w : Work) (a : Access) (p : Piece) (failed : Bool) : Work :=
  let q := w.d.partAt a.part
  if recorded w.d a p && decide ((q.trwr - q.trrd).toNat < ringSize q.trbase 5) then
    match p.port.traceName with
    | none => w
    | some (name, ptype) =>
      let pid := name * 16 + ptype
      let seq := match w.d.launchAt a.part a.launch with
        | some l => (assocGet pid l.psubs).getD 0
        | none => 0
      let words := [BitVec.ofNat 64 w.d.wall, a.issued p,
        BitVec.ofNat 64 (a.tid.toNat * 2^32 + traceKind a failed + packName a.core a.slot % 2^18),
        BitVec.ofNat 64 (name % 2^18 * 2^46 + ptype % 16 * 2^42 + seq % 2^32)]
      let w1 := w.engine (ringBase q.trbase 4096 + 32 * (q.trwr.toNat % ringSize q.trbase 5)) (dwordBytes words)
      w1.on fun d => (d.onPart a.part fun q => { q with trwr := bump q.trwr }).onLaunch a.part a.launch fun l =>
        { l with psubs := assocPut pid (seq + 1) l.psubs }
  else w

/-- A dword of a recorded trace. -/
def playWord (m : Memory) (p : Partition) (r i : Nat) : Word := m.word (ringBase p.trplay 4096 + 32 * r + 8 * i)

/-- Records of the replayed trace at a port that have not been performed, in order (R398). -/
def playLeft (m : Memory) (p : Partition) (port : Port) : List Nat :=
  match port.traceName with
  | none => []
  | some (name, ptype) =>
    (List.range p.trpcnt.toNat).filter fun r =>
      !p.replayed.contains r && (playWord m p r 3).toNat / 2^46 == name && (playWord m p r 3).toNat / 2^42 % 16 == ptype

/-- Whether a trace record names an access: thread, address and kind; an atomic matches a failing one of its kind. -/
def playMatch (m : Memory) (p : Partition) (r : Nat) (a : Access) (q : Piece) : Bool :=
  let k := (playWord m p r 2).toNat % 2^32 / 2^23
  playWord m p r 1 == a.issued q && decide ((playWord m p r 2).toNat / 2^32 = a.tid.toNat) &&
  (decide (k = traceKind a false / 2^23) || decide (k = traceKind a true / 2^23))

/-- The replay's ruling on an access at a port (R398): none when it is held, otherwise the record it performs. -/
def playRuling (m : Memory) (d : Device) (a : Access) (q : Piece) : Option (Option Nat) :=
  let p := d.partAt a.part
  if p.trplay.getLsbD 0 && a.kind.recorded && a.opens q && q.port.ownCore != some a.core then
    match playLeft m p q.port with
    | [] => some none
    | r :: _ => if playMatch m p r a q then some (some r) else none
  else some none

/-- Takes note of the replay's ruling; an access that no record names is logged (R398; CLASS 0, assumption 34). -/
def Work.played (w : Work) (a : Access) (q : Piece) (r : Option Nat) : Work :=
  let p := w.d.partAt a.part
  match r with
  | some k => w.on fun d => d.onPart a.part fun p => { p with replayed := k :: p.replayed }
  | none =>
    if p.trplay.getLsbD 0 && a.kind.recorded && a.opens q && q.port.ownCore != some a.core then
      w.log { cls := 0, store := 0, part := some a.part, addr := a.issued q, tid := a.tid, source := packName a.core a.slot }
    else w

/-- The meter point at the controller behind a physical address (R339). -/
def controllerOf (key : Nat) : Nat × Bool :=
  let die := dieOfPa key
  (die * 512 + (key - Config.dieBase die) / 65536 / Config.groupFrames die, true)

/-- Meter points a part of an access passes (R339, R340): the controller behind a device line, and the core's network
interface when it leaves the die. -/
def meterPoints (core : Nat) (p : Port) (key : Nat) : List (Nat × Bool) :=
  (match p with
    | .slice _ _ => [controllerOf key]
    | _ => []) ++
  (if p.die ≠ dieOfCore core then [(100000 + core, false)] else [])

/-- Bytes counted at a meter point in this window. -/
def Vf.counted (v : Vf) (point : Nat) : Nat := (assocGet point v.used).getD 0

/-- The limit of a VF at a meter point, memory controller or network interface (R339). -/
def Vf.limit (v : Vf) (memory : Bool) : Nat := if memory then v.memLim else v.fabLim

/-- Whether a request that waits at a meter still stands and waits for nothing but the meter. -/
def MeterWait.stands (d : Device) (q : MeterWait) : Bool :=
  match q.who with
  | (0, id, i) => d.accesses.any fun a => a.id == id && a.fault.isNone && !a.withdrawn && (a.pieces[i]?).any fun p => !p.done && p.waiting.isNone
  | (1, queue, i) => d.packets.any fun k => k.queue + 2^64 * k.home == queue && k.index == i && k.waiting.isNone && k.status.isNone
  | (2, core, op) => d.fills.any fun f => f.core == core && f.op == op && f.waiting.isNone
  | (3, core, n) =>
    let g := (d.coreAt core).gen n
    g.defined && g.fault.isNone && g.waiting.isNone && (if g.write then g.queue.head?.any Option.isSome else g.bound.isSome)
  | (_, src, _) => d.migrations.any fun g => g.source == src

/-- Whether every meter admits a request of a VF (R340): its count is below the limit, and no earlier request of the VF waits there. -/
def metersAdmit (d : Device) (vf : Nat) (who : Nat × Nat × Nat) (points : List (Nat × Bool)) : Bool :=
  let v := d.vfAt vf
  points.all fun q =>
    v.limit q.2 == 0 || decide (v.counted q.1 < 64 * v.limit q.2) &&
      ((d.meterQueue.find? fun w => w.vf == vf && w.point == q.1 && w.stands d).all fun w => w.who == who)

/-- A request that is not admitted takes its place at the meters that refuse it (R340). -/
def metersWait (d : Device) (vf : Nat) (who : Nat × Nat × Nat) (points : List (Nat × Bool)) : Device :=
  { d with meterQueue := d.meterQueue ++
      ((points.filter fun q => !metersAdmit d vf who [q] && !d.meterQueue.any fun w => w.vf == vf && w.point == q.1 && w.who == who).map fun q => ⟨vf, q.1, who⟩) }

/-- Adds a request's bytes at its meter points, where it waits no longer (R340). -/
def metersAdd (d : Device) (vf : Nat) (who : Nat × Nat × Nat) (points : List (Nat × Bool)) (n : Nat) : Device :=
  let v := d.vfAt vf
  let d1 : Device := { d with meterQueue := d.meterQueue.filter fun w => !(w.vf == vf && w.who == who && points.any fun q => q.1 == w.point) }
  points.foldl (fun d q =>
    if v.limit q.2 = 0 then d else d.onVf vf fun v => { v with used := assocPut q.1 (v.counted q.1 + n) v.used }) d1

/-- New value of an atomic of n bytes, none for a failing CAS (R134). -/
def amoNew (op n : Nat) (old v e : Nat) : Option Nat :=
  let md := 2^(8 * n)
  let sg (x : Nat) : Int := if x < md / 2 then x else (x : Int) - md
  match op with
  | 0 => some v
  | 1 => some ((old + v) % md)
  | 2 => some (Nat.land old v)
  | 3 => some (Nat.lor old v)
  | 4 => some (Nat.xor old v)
  | 5 => some (if sg old < sg v then old else v)
  | 6 => some (if sg old < sg v then v else old)
  | 7 => some (if old < v then old else v)
  | 8 => some (if old < v then v else old)
  | _ => if old = e then some v else none

/-- Marks a part done with the data it returned. -/
def Access.partDone (a : Access) (i : Nat) (data : Word) : Access :=
  { a with pieces := a.pieces.modify i fun p => { p with done := true, data := data, waiting := none } }

/-- Whether every part has performed. -/
def Access.complete (a : Access) : Bool := a.pieces.all fun p => p.done

/-- Puts an access back after one of its parts performed: a posted one that is whole leaves, an STF.E completes its
issuer's park (R132), and a long-latency one waits for its result to arrive. -/
def Work.progress (w : Work) (a : Access) : Work :=
  if a.complete && !a.kind.long then
    let w1 := w.on fun d => d.dropAccess a.id
    match a.kind with
    | .stf true =>
      if a.orphan then w1 else w1.on fun d => completeWait d a.core a.slot none
    | _ => w1
  else w.on fun d => d.setAccess a

/-- Whether the part's fault must wait: the faults of the data come before those of a part with an address of its own (R128). -/
def Access.dataFirst (a : Access) (p : Piece) : Bool := p.own.isSome && a.pieces.any fun q => !q.done && q.own.isNone

/-- A fault of a part of an access, kept until it reaches the core (R124). -/
def Work.failAt (w : Work) (a : Access) (p : Piece) (cause : BitVec 8) : Work :=
  w.on fun d => d.setAccess { a with fault := some (cause, a.issued p), pieces := a.pieces.map fun p => { p with waiting := none } }

/-- A fault that a part meets at its owning port. -/
def Work.fail (w : Work) (a : Access) (p : Piece) (cause : BitVec 8) : Work := if a.dataFirst p then w else w.failAt a p cause

/-- POISON that a part meets at its port, with its record (R385). -/
def Work.poison (w : Work) (a : Access) (p : Piece) : Work :=
  if a.dataFirst p then w
  else
    let w1 := w.fail a p cPOISON
    match w1.d.ctxAt a.core a.slot with
    | some x => w1.consumed x a.core a.slot (storeCode p.key) (recordAddr w.d p.key)
    | none => w1

/-- A store of n bytes by an access at its port: monitors fire, waiters are looked at, a discarded narrow store is logged
(R127, R385). A store that is discarded at a poisoned word fires the monitor too: R139 does not say (assumption 99, DESIGN CHOICE). -/
def Work.store (w : Work) (a : Access) (key n : Nat) (x : Nat) : Work :=
  let dropped := w.m.isPoisoned key && !(n == 8 && key % 8 == 0)
  let w1 := (w.fire [key / 8]).edit (portStore w.m key n x) [key / 8]
  if dropped then
    w1.log { cls := 4, store := storeCode key, part := some a.part, addr := recordAddr w.d key, tid := 0, source := packName a.core a.slot }
  else w1

/-- A poisoned word among the bytes of a part that reads. -/
def Work.reads (w : Work) (a : Access) (i : Nat) (p : Piece) : Work :=
  if w.m.isPoisoned p.key then w.poison a p
  else w.progress (a.partDone i (BitVec.ofNat 64 (w.m.nat p.key p.bytes)))

/-- Marks the line of a device store dirty at its holder (R242), or at its home. -/
def Device.dirty (d : Device) (core : Nat) (p : Piece) : Device :=
  if Config.scratchpadBase ≤ p.key then d
  else
    let l := d.lineAt p.line
    if l.home = Config.tokensPerLine then d.setLine p.line { l with homeDirty := true, tile := p.tile }
    else d.setLine p.line { l with holders := l.holders.map (fun h => if h.1 = core then (h.1, h.2.1, h.2.2.1, true) else h) }

/-- Serves a synchronising request whose word allows it (R130, R132). -/
def Work.sync (w : Work) (a : Access) (i : Nat) (p : Piece) : Work :=
  match a.kind with
  | .ldf consume _ =>
    if w.m.isPoisoned p.key then w.poison a p
    else
      let x := w.m.word p.key
      let w1 := if consume then (w.fire [p.key / 8]).edit [.full (p.key / 8) false] [p.key / 8] else w
      w1.progress (a.partDone i x)
  | _ =>
    let w1 := ((w.store a p.key 8 p.data.toNat).edit [.full (p.key / 8) true] [p.key / 8]).on fun d => d.dirty a.core p
    (w1.trace a p false).progress (a.partDone i p.data)

/-- Whether the word's state allows a waiting request. -/
def syncAllowed (m : Memory) (a : Access) (p : Piece) : Bool :=
  match a.kind with
  | .ldf _ _ => m.isFull p.key
  | .stf true => !m.isFull p.key
  | _ => true

/-- The request's expiry instant has passed at the port (R131). -/
def Access.late (a : Access) (wall : Nat) : Bool :=
  match a.expiry with
  | some (e, _) => decide (e < wall)
  | none => false

/-- Requests waiting at ports (R131): arrival, access and part. -/
def Device.waiters (d : Device) : List (Nat × Access × Nat × Piece) :=
  (d.accesses.map fun a => (a.pieces.zipIdx.filterMap fun q => q.1.waiting.map fun t => (t, a, q.2, q.1))).flatten

/-- The earliest waiting request on a word that may be served now (R133). -/
def nextWaiter (m : Memory) (d : Device) (word : Nat) : Option (Nat × Access × Nat × Piece) :=
  (d.waiters.filter fun q =>
    decide (q.2.2.2.key / 8 = word) && syncAllowed m q.2.1 q.2.2.2 && !q.2.1.late d.wall && !q.2.1.withdrawn &&
      q.2.1.fault.isNone && traceRoom d q.2.1 q.2.2.2 &&
      (playRuling m d q.2.1 q.2.2.2).isSome).foldl
    (fun best q => match best with
      | none => some q
      | some b => if q.1 < b.1 then some q else some b) none

/-- Serves waiting requests on the touched words until none is allowed. -/
def serveAll : Nat → Work → Work
  | 0, w => w
  | fuel + 1, w =>
    match w.touched with
    | [] => w
    | k :: rest =>
      match nextWaiter w.m w.d k with
      | none => serveAll fuel { w with touched := rest }
      | some q =>
        let r := (playRuling w.m w.d q.2.1 q.2.2.2).join
        serveAll fuel ((w.played q.2.1 q.2.2.2 r).sync q.2.1 q.2.2.1 q.2.2.2)

/-- The end of a step: waiting requests are served, and the state follows. -/
def Work.finish (s : State) (w : Work) : Out :=
  let n := w.d.waiters.length
  let w1 := if n = 0 then w else serveAll (w.touched.length + 64 * n) w
  conclude s w1.d w1.es

/-- A part that reads or writes the memory of a peer module (R382): it leaves in a flit, and performs once the peer has reported it
performed, the answer to a read being free (assumption 20). On a down link a load takes POISON and a write is dropped and logged. -/
def Work.atPeer (w : Work) (a : Access) (i : Nat) (p : Piece) (link : Nat) : Work :=
  if w.d.peerDown link then
    if a.kind.plainLoad || a.kind.long then w.poison a p
    else
      (w.log ⟨13, 0x14, some a.part, 0, recordAddr w.d p.key, 0, packName a.core a.slot, BitVec.ofNat 64 (link * 2^60)⟩).progress
        (a.partDone i p.data)
  else
    let q : PeerReq := ⟨0, (a.id, i), p.key⟩
    match w.d.peerAsk link q with
    | (false, d) => { w with d := d }
    | (true, d) =>
      if !d.inputRoom a.part then { w with d := d }
      else if a.kind.long then
        let (x, d1) := (d.peerTaken link q).drawWord
        let y := x &&& BitVec.ofNat 64 (2^(8 * p.bytes) - 1)
        ({ w with d := d1.noteInput a.part link (recordAddr d p.key) (leBytes p.bytes y.toNat) } : Work).progress (a.partDone i y)
      else ({ w with d := (d.peerTaken link q).noteInput a.part link (recordAddr d p.key) [] } : Work).progress (a.partDone i p.data)

/-- A request that waits at its port takes its place in the order of arrival (R131, R133). -/
def Device.queueAt (d : Device) (a : Access) (i : Nat) : Device :=
  let d1 : Device := { d with nextAccess := d.nextAccess + 1 }
  d1.setAccess { a with pieces := a.pieces.modify i fun q => { q with waiting := some d.nextAccess } }

/-- The proxy writes a host line's data to the host (R376, R378): whole, of 128 bytes (assumption 106). -/
def Device.hostBack (d : Device) (m : Memory) (line : Nat) : Device :=
  { d with
    hmwrs := d.hmwrs ++ [(d.nextAccess, line)]
    nextAccess := d.nextAccess + 1
    hostOut := d.hostOut ++ [.hmwr (BitVec.ofNat 64 (128 * line - Config.hostBase)) (m.bytes (128 * line) 128)] }

/-- What a line's home holds of it is written to memory, and leaves its write-back buffer; dirty data of a host line goes to the host
(R143, R378). -/
def Device.homeClean (d : Device) (m : Memory) (line : Nat) : Device :=
  let l := d.lineAt line
  let d1 : Device := { d.setLine line { l with homeDirty := false } with writeBacks := d.writeBacks.filter fun q => q.2 != line }
  if 2^51 ≤ line ∧ l.homeDirty = true then d1.hostBack m line else d1

/-- Dirty copies in L1s are written back to the line's home, whose die receives them at once (R143, R259). -/
def Device.l1Clean (d : Device) (line : Nat) : Device :=
  let l := d.lineAt line
  let dirty := l.holders.filter fun h => h.2.2.2
  let d1 := d.setLine line { l with
    homeDirty := l.homeDirty || !dirty.isEmpty
    holders := l.holders.map fun h => (h.1, h.2.1, h.2.2.1, false) }
  dirty.foldl (fun d h => (d.countBack (giveUp line none h)).onCore h.1 fun k =>
    { k with got := assocPut (dieOfLine line) (((assocGet (dieOfLine line) k.got).getD 0) + 1) k.got }) d1

/-- An owning port by itself: the lines of a slice, and those of the host proxy, have one (R122, R131). -/
def Port.unit : Port → Port
  | .slice sl _ => .slice sl 0
  | .host _ => .host 0
  | p => p

/-- Whether a port holds its 64 waiting synchronising requests (R131). -/
def Device.portFull (d : Device) (p : Port) : Bool :=
  decide (64 ≤ (d.waiters.filter fun q => q.2.2.2.port.unit == p.unit).length)

/-- A store performs at its port, or in its core's L1 while that holds every token (R242): it is traced, and its line is dirty. -/
def Work.stores (w : Work) (a : Access) (i : Nat) (p : Piece) (ruling : Option Nat) : Work :=
  (((((w.played a p ruling).store a p.key p.bytes p.data.toNat).on fun d => d.dirty a.core p).trace a p false).progress
    { a.partDone i p.data with passed := true })

/-- FLUSH and CLEAN at the line's home (R143). -/
def Work.cleans (w : Work) (a : Access) (i : Nat) (p : Piece) (drop : Bool) : Work :=
  let l := w.d.lineAt p.line
  if Config.peerBase ≤ p.key then w.progress (a.partDone i 0)
  else if drop && decide (l.home ≠ Config.tokensPerLine) && !l.lost then w.on fun d => d.recall p.line
  else (w.on fun d => (d.l1Clean p.line).homeClean w.m p.line).progress (a.partDone i 0)

/-- MARM at the word's owning port: for translated memory the home holds one token for the registration (R138, R258). -/
def Work.arms (w : Work) (a : Access) (i : Nat) (p : Piece) (reg : Nat) : Work :=
  if Config.scratchpadBase ≤ p.key || decide (0 < w.d.spare p.line) then
    (w.on fun d => d.onCtx a.core a.slot fun x =>
      { x with monitor := x.monitor.map fun mo => if mo.reg = reg then { mo with registered := true } else mo }).progress
        (a.partDone i 0)
  else w

/-- LDF and STF at the owning port: served, or waiting for the word's state (R130 to R133). -/
def Work.synchronises (w : Work) (a : Access) (i : Nat) (p : Piece) (ruling : Option Nat) (ready tryIt writes : Bool) : Work :=
  if !ready then w
  else if syncAllowed w.m a p then (if writes then w.played a p ruling else w).sync a i p
  else if tryIt then w.progress (a.partDone i 0x8000000000000000)
  else if w.d.portFull p.port then w
  else w.on fun d => d.queueAt a i

/-- An atomic at its unit (R134, R135); one on host memory goes to the host (R377). -/
def Work.atomic (w : Work) (a : Access) (i : Nat) (p : Piece) (ruling : Option Nat) (op : Nat) (e : Word) : Work :=
  if w.m.isPoisoned p.key then w.poison a p
  else
    match p.port with
    | .host _ =>
      -- the host performs it on its own copy, so that dirty data goes back first
      (w.played a p ruling).on fun d0 =>
        let d := d0.homeClean w.m p.line
        let d1 : Device := { d with hostOut := d.hostOut ++ [HostOut.hamo a.id p.key op p.data e] }
        d1.setAccess { a with hostPending := true }
    | _ =>
      let old := w.m.nat p.key p.bytes
      let md := 2^(8 * p.bytes)
      let w1 := w.played a p ruling
      match amoNew op p.bytes old (p.data.toNat % md) (e.toNat % md) with
      | some x =>
        (((w1.store a p.key p.bytes x).on fun d => d.dirty a.core p).trace a p false).progress (a.partDone i (BitVec.ofNat 64 old))
      | none => (w1.trace a p true).progress (a.partDone i (BitVec.ofNat 64 old))

/-- Whether its core's L1 serves a part of a load: it holds a copy of the line under the load's own address (R122, R242, R243). -/
def Access.hits (a : Access) (d : Device) (p : Piece) : Bool :=
  a.kind.cached && decide (p.key < Config.peerBase) && d.holdsUnder a.core a.vf p.tile (a.issued p) p.line

/-- Whether a part of an access meets a line that is coherence-lost, or memory of a lost die: a load that its own L1 can serve does
not (R267), nor do FLUSH and CLEAN, which need no token. -/
def Access.meetsLoss (d : Device) (a : Access) (p : Piece) : Bool :=
  d.placeLost p && !a.hits d p &&
  (match a.kind with
    | .flush => false
    | .clean => false
    | _ => true)

/-- The part whose COHLOSS an access takes: of a load the part itself, of a write any part of it, data first, so that a trapping
access leaves nothing done (R8, R128). One that has been passed no longer faults. -/
def Access.lossAt (d : Device) (a : Access) (p : Piece) : Option Piece :=
  if a.passed then none
  else if a.kind.plainLoad then (if a.meetsLoss d p then some p else none)
  else a.pieces.find? fun q => a.meetsLoss d q

/-- The effect of one part of an access that has arrived at its owning port with nothing holding it (R122, R130, R134). -/
def Work.perform (w : Work) (a : Access) (i : Nat) (p : Piece) : Work :=
  match a.lossAt w.d p with
  | some q => if a.kind.plainLoad then w.fail a q cCOHLOSS else w.failAt a q cCOHLOSS
  | none =>
    match p.port with
    | .peer link =>
      match a.kind with
      | .flush => w.cleans a i p true
      | .clean => w.cleans a i p false
      | _ => w.atPeer a i p link
    | port =>
      let chip := decide (Config.scratchpadBase ≤ p.key)
      let own := a.hits w.d p
      if a.kind.plainLoad then
        let (ok, d) := match port with
          | .host _ => if own then (true, w.d) else hostReady w.d a.part (0, a.id, i) p.key false
          | _ => (true, w.d)
        if ok && (chip || own || decide (0 < (d.lineAt p.line).home)) then ({ w with d := d }).reads a i p else { w with d := d }
      else
        match playRuling w.m w.d a p with
        | none => w
        | some ruling =>
          let (ok, d) := match port, a.kind with
            | .host _, .flush => (true, w.d)
            | .host _, .clean => (true, w.d)
            | .host _, _ => hostReady w.d a.part (0, a.id, i) p.key true
            | _, _ => (true, w.d)
          let w := { w with d := d }
          let atHome := chip || decide ((w.d.lineAt p.line).home = Config.tokensPerLine)
          let ready := ok && traceRoom w.d a p
          match a.kind with
          | .flush => if w.d.hostBusy p.line then w else w.cleans a i p true
          | .clean => if w.d.hostBusy p.line then w else w.cleans a i p false
          | .marm reg => w.arms a i p reg
          | .store => if ready && (chip || w.d.canStore a.core p.line) then w.stores a i p ruling else w
          | .tileStore => if ready && (chip || w.d.canStore a.core p.line) then w.stores a i p ruling else w
          | .ldf _ tryIt => w.synchronises a i p ruling atHome tryIt false
          | .stf _ => w.synchronises a i p ruling (atHome && ready) false true
          | .amo op _ e => if atHome && ready then w.atomic a i p ruling op e else w
          | _ => w

/-- A part of an access that has been passed performs now: a write of a line that has tokens once they are all at its home (R254). A
record that finds no room is not written. -/
def Work.commitPart (w : Work) (id i : Nat) : Work :=
  match w.d.access id with
  | none => w
  | some a =>
    match a.pieces[i]? with
    | none => w
    | some p =>
      if p.done then w
      else
        let w := if a.kind.plainLoad || decide (Config.peerBase ≤ p.key) then w else w.on fun d => d.collect p.line
        match a.kind with
        | .store => w.stores a i p none
        | .tileStore => w.stores a i p none
        | .stf false => w.sync a i p
        | .marm reg => w.arms a i p reg
        | .ldf _ _ => w
        | k => if k.plainLoad then w.progress (a.partDone i (BitVec.ofNat 64 (w.m.nat p.key p.bytes))) else w

/-- An access that has been passed performs now, after the earlier ones of its thread that come before it in the order of R274.
`fuel` bounds their chain. -/
def Work.commitAccess : Nat → Work → Nat → Work
  | 0, w, _ => w
  | fuel + 1, w, id =>
    match w.d.access id with
    | none => w
    | some a =>
      let first := (earlier w.d a).filter fun b => b.passed && b.fault.isNone && a.pieces.any fun p => !p.done && blocks w.d b a p
      let w1 := first.foldl (fun w b => commitAccess fuel w b.id) w
      a.pieces.zipIdx.foldl (fun w q => w.commitPart id q.2) w1

/-- Before a line or a memory is lost, the writes to it that effects of later instructions have passed perform: they had performed
when those effects did, so that a COHLOSS is precise (R8, R25, R124, R267; assumption 86). -/
def Work.commits (w : Work) (hit : Piece → Bool) : Work :=
  (w.d.accesses.filter fun a => a.passed && a.fault.isNone && a.pieces.any fun p => !p.done && hit p).foldl
    (fun w a => w.commitAccess w.d.accesses.length a.id) w

/-- Words of memory are poisoned: the loads of them that effects of later instructions have passed perform first, as those effects did
(R8, R25, R384; assumption 86). -/
def Work.poisons (w : Work) (words : List Nat) (touched : List Nat) : Work :=
  (w.commits fun p => words.contains (p.key / 8)).edit (words.map fun k => .poison k true) touched

/-- Whether an access of the context in a slot is to fault at its port: nothing that would not be rolled back may follow it (R25,
R124). -/
def doomed (d : Device) (core slot : Nat) (x : Context) : Bool :=
  d.accesses.any fun a =>
    a.core == core && a.slot == slot && a.tid == x.tid && !a.orphan &&
      (a.fault.isSome || !a.passed && a.pieces.any fun p => !p.done && (a.lossAt d p).isSome)

end Sys2Proof.Machine
end

