-- ==== Sys2Proof/Machine/Operands.lean ====
section
/-! DEFINITION. How an instruction takes its turn (R24, R26, R89): the registers it uses, the checks of the ten steps in
their order, synchronised reads, stream pops, and what follows its body. -/
namespace Sys2Proof.Machine

/-- What an instruction uses and which checks its description adds. Register lists name window registers; `reads` is in
pop order (A, B, D, implicit: R26), `report` in the order in which TRAPVAL names an offender (R16). -/
structure Uses where
  sync : Option Reg := none
  reads : List Reg := []
  writes : List Reg := []
  report : List Reg := []
  /-- ILLEGAL from the core the instruction runs on (R176), step 3. -/
  illegal : Device → Bool := fun _ => false
  /-- PRIV or ILLEGAL of step 4 (R85, R86). -/
  privilege : Device → Context → Option (BitVec 8) := fun _ _ => none
  /-- TAG with its TRAPVAL, step 6. -/
  tags : Context → Option Word := fun _ => none
  /-- Binding conflicts the description names, step 7. -/
  binds : Core → Nat → Option Word := fun _ _ => none
  /-- An engine that cannot take the instruction, step 9 (R29). -/
  busy : Device → Bool := fun _ => false
  /-- An effect outside the context's registers, which is no access. It waits while a releasing fence that the context has passed
  waits (R275), and, where R353 names it, while an earlier access of the context may still fault and roll it back (R25, R353;
  assumption 9). -/
  outside : Bool := false
  /-- An effect on the core that R353 does not name: it issues, and the accesses before it no longer fault (R24, R353;
  assumption 102). -/
  inner : Bool := false

/-- What the body of an instruction decides, once every check has passed. -/
inductive Verdict where
  | trap (cause : BitVec 8) (val : Word)
  /-- POISON from a memory word read at issue: the address as issued and the word's place (R385). -/
  | poison (addr : Word) (key : Nat)
  /-- The turn stays empty and the instruction is tried whole again. -/
  | stall
  /-- The same for a stream that has no room for what the instruction turns out to append (R26). -/
  | pause
  /-- The instruction cannot complete: parked, with no effect, until a later turn completes it. -/
  | retry
  /-- A translation fault: the checkpoint is taken here and the fault sweep begins (R354). -/
  | sweep (cls : Nat) (addr : Word) (need : BitVec 3)
  /-- The context is shipped to the die a page is anchored to (R262). -/
  | ship (die line : Nat)
  /-- Parked or asleep after its request was handed over. -/
  | wait (asleep : Bool) (kind : WaitKind) (dest : Nat) (d : Device) (es : List Edit)
  /-- Complete: the pc goes on, or jumps; a long-latency instruction leaves a pending result. -/
  | done (d : Device) (es : List Edit) (jump : Option Word) (pend : Option Pending)
  /-- The context has already been moved on (stopped, trapped). -/
  | over (d : Device) (es : List Edit)

/-- An effect outside the registers of the context whose turn it is has passed the accesses before it, which were sent before number
`upto`: none of them faults any more (R25, R124). -/
def Device.passedBy (d : Device) (x : Context) (upto : Nat) : Device :=
  let d1 := d.passed d.core d.slot x.tid upto
  if x.unsettled.isSome then d1.passedPending d1.core d1.slot upto else d1

/-- An instruction with an effect outside the context's registers: the accesses before it, which were sent before number `upto`,
can no longer fault (R25, R124). -/
def Verdict.passing (x : Context) (upto : Nat) : Verdict → Verdict
  | .done d es jump pend => .done (d.passedBy x upto) es jump pend
  | .wait asleep kind dest d es =>
    if kind.retried then .wait asleep kind dest d es else .wait asleep kind dest (d.passedBy x upto) es
  | .over d es => .over (d.passedBy x upto) es
  | v => v

/-- A completed short instruction. -/
def Verdict.ok (d : Device) : Verdict := .done d [] none none

/-- The instruction as TRAPVAL holds it (R90). -/
def trapWord (i : Instr) : Word :=
  match encodeWord i with
  | some w => BitVec.ofNat 64 w
  | none =>
    match encodeHalf i with
    | some h => BitVec.ofNat 64 h
    | none => 0

/-- Length of an instruction in bytes (R71). -/
def instrBytes (i : Instr) : Word := if (encodeHalf i).isSome then 2 else 4

/-- The first register outside the windows (R16). -/
def windowFault (x : Context) (rs : List Reg) : Option Word := (rs.find? fun r => !x.inWindow r).map Reg.report

/-- The first register, in R16's order, that a window forbids (R24). -/
def lookaheadFault (x : Context) (rs : List Reg) : Option Word :=
  (rs.find? fun r => x.pending.any fun p => decide (0 < p.left) && p.dests.contains r).map Reg.report

/-- Generators a list of registers is bound to, one entry for each naming. -/
def boundGens (k : Core) (slot : Nat) (rs : List Reg) : List Nat := rs.filterMap fun r => k.bindingOf slot r

/-- STREAM at step 9: a pop of a write generator, an append to a read generator, a pop or append beyond COUNT, a pop
that reaches a faulted element, or an append to a faulted generator (R26, R228). -/
def streamTrap (k : Core) (pops appends : List Nat) : Option Word :=
  (((pops.find? fun n =>
      let g := k.gen n
      g.write || decide (g.count < g.position + pops.count n) ||
        g.reached || (g.fault.isSome && decide (g.queue.length < pops.count n))).or
    (appends.find? fun n =>
      let g := k.gen n
      !g.write || decide (g.count < g.position + appends.count n) || g.fault.isSome))).map (BitVec.ofNat 64)

/-- A read generator becomes faulted once a pop reaches its faulted element (R228). -/
def reachFault (k : Core) (pops : List Nat) : Core :=
  pops.foldl (fun k n =>
    let g := k.gen n
    if g.fault.isSome && !g.write && decide (g.queue.length < pops.count n) then k.setGen n { g with reached := true } else k) k

/-- A pop finds no element or an append finds no room (R26). -/
def streamStall (k : Core) (pops appends : List Nat) : Bool :=
  pops.any (fun n => decide ((k.gen n).queue.length < pops.count n)) ||
  appends.any (fun n => decide (8 < (k.gen n).queue.length + appends.count n))

/-- Windows move on by one issued instruction; a result that has arrived and whose window is over is retired (R24). -/
def advanceWindows (ps : List Pending) : List Pending :=
  (ps.map fun p => { p with left := p.left - 1 }).filter fun p => !(p.arrived && p.left == 0)

/-- A trap at the instruction at the pc (R8): nothing of the instruction has happened. -/
def trapHere (d : Device) (x : Context) (cause : BitVec 8) (val : Word) : Device :=
  takeTrap d d.core d.slot cause val x.regs.pc

/-- The trap of an expired wait (R38). -/
def expireHere (d : Device) (x : Context) (e : Nat × BitVec 8) : Device :=
  trapHere d x e.2 (BitVec.ofNat 64 e.1)

/-- t0 and the expiry of a wait of the context at its instruction (R38): t0 is the wall ns of the first turn at which the
instruction could not complete, be it by a stream stall or a park. -/
def waitFrom (d : Device) (x : Context) : Nat × Option (Nat × BitVec 8) :=
  match x.phase with
  | .parked w => (w.t0, w.expiry)
  | _ => (x.stallSince.getD d.wall, expiryOf x.regs.sys (x.stallSince.getD d.wall))

/-- Parks the context at its instruction, which is tried again at each turn, under the bound of R38. -/
def parkAs (d : Device) (x : Context) (kind : WaitKind) : Device :=
  match expired (waitFrom d x).2 d.wall with
  | some e => expireHere d x e
  | none =>
    d.onCur fun y =>
      { y with phase := .parked ⟨kind, (waitFrom d x).1, (waitFrom d x).2, 0⟩, stallSince := none, stalled := false }

/-- The park of an instruction that is tried whole again. -/
def parkRetry (d : Device) (x : Context) : Device := parkAs d x .retry

/-- A stream stall: the turn stays empty, bounded as R38 gives from the first turn at which the instruction could not
complete. -/
def streamPause (d : Device) (x : Context) : Device :=
  match expired (waitFrom d x).2 d.wall with
  | some e => expireHere d x e
  | none => d.onCur fun y => { y with phase := .ready, stallSince := some (waitFrom d x).1, stalled := true }

/-- A lookahead or engine stall, or an effect that is held: the turn stays empty and no bound applies to it (R13, R38). -/
def plainStall (d : Device) (x : Context) : Device :=
  match x.phase with
  | .parked w => d.onCur fun y => { y with phase := .ready, stallSince := some w.t0, stalled := false }
  | _ => if x.stalled then d.onCur fun y => { y with stalled := false } else d

/-- What follows the body: windows advance, the pc moves, a new pending result is added (R24). -/
def settle (d : Device) (len : Word) (jump : Option Word) (pend : Option Pending) : Device :=
  d.onCur fun x =>
    { x with
      regs := { x.regs with pc := jump.getD (x.regs.pc + len) }
      phase := .ready
      stallSince := none
      stalled := false
      taken := []
      answered := none
      fence := none
      pending := advanceWindows x.pending ++ pend.toList }

/-- The state after a device and edits, with waiting requests on the edited words served (R133). -/
def finishEdits (s : State) (d : Device) : List Edit → Out
  | [] => conclude s d []
  | e :: es => Work.finish s ⟨s.mem.apply (e :: es), d, e :: es, (e :: es).map Edit.word⟩

/-- POISON at issue, with its record (R385, R389). -/
def poisonHere (s : State) (d : Device) (x : Context) (val : Word) (store : Nat) (addr : Word) : Out :=
  Work.finish s ((⟨s.mem, trapHere d x cPOISON val, [], []⟩ : Work).consumed x d.core d.slot store addr)

/-- Whether a releasing fence that the context in a slot has passed still waits (R137, R275). -/
def relOpen (d : Device) (core slot : Nat) (x : Context) : Bool :=
  x.rels.any fun q => relAway d core slot q || d.accesses.any fun a =>
    a.core == core && a.slot == slot && a.tid == x.tid && !a.orphan && decide (a.id < q.1) &&
      a.pieces.any fun p => !p.done && p.port.within q.2 core

/-- A page word of a sweep entry: the page's address and the permissions needed (R357). -/
def pageWord (addr : Word) (need : BitVec 3) : Word :=
  BitVec.ofNat 64 (addr.toNat % 2^57 / 65536 * 65536 + need.toNat)

/-- A batch with one page more: of a page met again, the permissions needed are joined (R355, R357; assumption 19). -/
def addPage (ps : List Word) (p : Word) : List Word :=
  let same (q : Word) : Bool := q.toNat / 65536 == p.toNat / 65536
  if ps.any same then ps.map fun q => if same q then q ||| p else q else ps ++ [p]

/-- Run-ahead from the instruction after one of a length that met a translation fault (R354, R355): what that instruction writes is unknown,
and so are the pending results. A fetch fault stops it at once. -/
def Context.checkpoint (x : Context) (len : Word) (dests : List Reg) (addr : Word) (need : BitVec 3) : Ahead :=
  let waits := x.pending.filter fun p => !p.arrived
  let a : Ahead := { regs := { x.regs with pc := x.regs.pc + len }, pages := [pageWord addr need], stopped := need == needX }
  (waits.foldl (fun (a : Ahead) p => a.loses p.dests (some p.id)) a).loses dests none

/-- Carries out a verdict; `d0` and `x0` are the device and the context as they stood before the instruction (R8), `taken` is
what it took of its operands, and `dests` the registers it writes. R19 leaves open when SA's full bit is cleared if the instruction then waits for something else;
this model clears it, and pops, at the turn that hands the wait over, gives both back where the wait ends without completing,
and leaves both alone where the instruction is tried whole again (assumption 78, DESIGN CHOICE). -/
def carryOut (s : State) (d0 : Device) (x0 : Context) (len : Word) (taken : List Taken) (dests : List Reg) :
    Verdict → Out
  | .trap c v =>
    if c = cPOISON then poisonHere s d0 x0 v (registerStore v) v else conclude s (trapHere d0 x0 c v) []
  | .poison v key => poisonHere s d0 x0 v (storeCode key) (recordAddr d0 key)
  | .stall => conclude s (plainStall d0 x0) []
  | .pause => conclude s (streamPause d0 x0) []
  | .retry => conclude s (parkRetry d0 x0) []
  | .sweep cls addr need =>
    -- R334, R356: without a fault queue, or after an answer that did not map the page, XLATE at once
    if (d0.partAt x0.part).fqbase = 0 ∨ x0.answered = some addr then
      conclude s (trapHere d0 x0 cXLATE addr) []
    else
      conclude s (d0.onCur fun x =>
        { x with phase := .faulted cls addr need (x0.checkpoint len dests addr need), answered := none }) []
  | .ship die line =>
    -- R262: pending results arrive and posted stores perform first, with what a passed releasing fence waits for
    if x0.awaits || relOpen d0 d0.core d0.slot x0 || d0.accesses.any (fun a => a.core == d0.core && a.slot == d0.slot && !a.orphan) then
      conclude s (parkRetry d0 x0) []
    else
      match expired (waitFrom d0 x0).2 d0.wall with
      | some t => conclude s (expireHere d0 x0 t) []
      | none =>
        let d1 := parkAs d0 x0 .landing
        conclude s { d1 with landings := d1.landings ++ [{ core := d0.core, slot := d0.slot, die := die, line := line }] } []
  | .wait asleep kind dest d es =>
    match expired (waitFrom d0 x0).2 d0.wall with
    | some t => conclude s (expireHere d0 x0 t) []
    | none =>
      let w : Wait := ⟨kind, (waitFrom d0 x0).1, (waitFrom d0 x0).2, dest⟩
      let again := kind.retried
      finishEdits s ((if again then giveBack d d0.core d0.slot taken else d).onCur fun x =>
        { x with
          phase := if asleep then .sleeping w else .parked w
          stallSince := none
          stalled := false
          taken := if again then [] else taken
          pending := if again then x.pending else advanceWindows x.pending }) es
  | .done d es jump pend => finishEdits s (settle d len jump pend) es
  | .over d es => finishEdits s d es

/-- Whether an earlier access of a context holds back what an instruction does outside its registers (R353): one that can still fault;
for an effect that R353 does not name, an LDF alone, whose wait may end in a trap (R131). -/
def heldBack (d : Device) (x : Context) (inner : Bool) : Bool :=
  if inner then x.pending.any fun p => p.mayFault && !p.arrived && d.accesses.any fun a => a.id == p.id && (match a.kind with
    | .ldf _ tryIt => !tryIt
    | _ => false)
  else x.unsettled.isSome

/-- A context as its register tags will stand once its results have arrived: what a register holds decides TAG, and not when it
arrives (R24, R89). -/
def Device.foretold (d : Device) (x : Context) : Context :=
  x.pending.foldl (fun x p =>
    if p.arrived then x
    else
      match (d.accesses.find? fun a => a.id == p.id).bind fun a => a.kind.tag with
      | some t => p.dests.foldl (fun x r => match r with
          | .v n => x.putV n { x.getV n with tag := t }
          | .g _ => x) x
      | none => x) x

/-- Steps 2 to 9 of R89 for the context whose turn it is: none when the instruction may issue, otherwise the device
after the stall or the trap. -/
def precheck (d : Device) (x : Context) (i : Instr) (u : Uses) : Option Device :=
  let k := d.me
  let all := u.report
  if x.pending.any (fun p => p.left == 0 && !p.arrived) then some (plainStall d x)
  else if u.illegal d then some (trapHere d x cILLEGAL (trapWord i))
  else
    match u.privilege d x with
    | some c => some (trapHere d x c (trapWord i))
    | none =>
      match windowFault x all with
      | some v => some (trapHere d x cWINDOW v)
      | none =>
        match u.tags (d.foretold x) with
        | some v => some (trapHere d x cTAG v)
        | none =>
          match (u.sync.filter fun r => (k.bindingOf d.slot r).isSome).map Reg.report with
          | some v => some (trapHere d x cBIND v)
          | none =>
            match u.binds k d.slot with
            | some v => some (trapHere d x cBIND v)
            | none =>
              match lookaheadFault x all with
              | some v => some (trapHere d x cLOOKAHEAD v)
              | none =>
                let pops := boundGens k d.slot u.reads
                let apps := boundGens k d.slot u.writes
                match streamTrap k pops apps with
                | some v => some (trapHere (d.onMe fun k => reachFault k pops) x cSTREAM v)
                | none =>
                  if streamStall k pops apps then some (streamPause d x)
                  else if u.busy d ||
                      u.outside && (heldBack d x u.inner || relOpen d d.core d.slot x || doomed d d.core d.slot x) then some (plainStall d x)
                  else none

/-- A lane reduction of the context in a slot whose result is held, and parks its next instruction (R27). -/
def Reduction.holds (r : Reduction) (x : Context) (slot : Nat) : Bool :=
  r.held && r.slot == slot && r.tid == x.tid && r.launch == x.launch && !r.released

/-- Whether a lane reduction of the context is held (R27). -/
def heldReduction (k : Core) (x : Context) (slot : Nat) : Bool := k.reductions.any fun r => r.holds x slot

/-- The held results of a context no longer park it, once the park behind them has ended in its expiry (R27). -/
def Core.releaseHeld (k : Core) (x : Context) (slot : Nat) : Core :=
  { k with reductions := k.reductions.map fun r => if r.holds x slot then { r with released := true } else r }

/-- The park of R27; after its expiry the held result no longer parks its issuer. -/
def parkHeld (d : Device) (x : Context) : Device :=
  match expired (waitFrom d x).2 d.wall with
  | some _ => (parkRetry d x).onMe fun k => k.releaseHeld x d.slot
  | none => parkRetry d x

/-- Whether the synchronised read finds its register empty (R19). -/
def syncEmpty (x : Context) : Option Reg → Bool
  | some r => !x.isFull r
  | none => false

/-- The synchronised read's clear of the full bit; g0 stays full (R17, R19). -/
def syncClear (x : Context) : Option Reg → Context
  | some r => x.setFull r false
  | none => x

/-- The elements a list of reads pops, in order. -/
def poppedBy (k : Core) (slot : Nat) (rs : List Reg) : List Taken :=
  rs.foldl (fun acc r =>
    match k.bindingOf slot r with
    | none => acc
    | some n =>
      let before := acc.countP fun t => match t with
        | .element m _ => m == n
        | .full _ _ => false
      acc ++ [.element n ((k.gen n).queue[before]?).join]) []

/-- What an instruction takes of its operands: the full bit of its synchronised read, and the elements it pops. -/
def takenBy (k : Core) (slot : Nat) (u : Uses) : List Taken :=
  (match u.sync with
    | some (.g 0) => []
    | some r => [.full r none]
    | none => []) ++ poppedBy k slot u.reads

/-- Forgets the elements popped before an instruction that no roll-back can give back. -/
def forgetSpent (k : Core) (ns : List Nat) : Core := ns.foldl (fun k n => k.setGen n { k.gen n with spent := [] }) k

/-- Whether an access of the context in a slot will find a poisoned word, and fault (R385). -/
def tainted (m : Memory) (d : Device) (core slot : Nat) (x : Context) : Bool :=
  d.accesses.any fun a =>
    a.core == core && a.slot == slot && a.tid == x.tid && !a.orphan && !a.passed && a.kind.long && a.pieces.any fun p => !p.done && m.isPoisoned p.key

/-- The major of an encoded 32-bit instruction (R74). -/
def majorOf (i : Instr) : Option Nat := (encodeWord i).map fun w => w / 2 % 64

/-- Whether run-ahead stops at an instruction for its major (R355), or because it is none. -/
def stopsAhead (i : Instr) : Bool :=
  match majorOf i with
  | some op => [32, 33, 34, 35, 38, 39, 41, 42, 43, 44, 45, 46, 47, 48, 49, 57, 58, 59].contains op
  | none => (encodeHalf i).isNone

/-- A branch or JALR, at which run-ahead stops where it does not know what it reads (R355). -/
def jumpsOn (i : Instr) : Bool :=
  match majorOf i with
  | some op => decide (15 ≤ op ∧ op ≤ 21)
  | none => false

/-- A load, whose page joins the batch where its translation misses with a fault (R354). -/
def loadsAhead (i : Instr) : Bool := [some 26, some 28, some 29, some 31, some 36].contains (majorOf i)

/-- An instruction of the data side, which may leave an unknown value in a mask or a status register. -/
def marksAhead (i : Instr) : Bool :=
  match majorOf i with
  | some op => decide (50 ≤ op)
  | none => true

/-- A context as its run-ahead sees it: its registers are the shadow registers (R354). -/
def Context.ahead (x : Context) (a : Ahead) : Context := { x with regs := a.regs, phase := .ready, pending := [] }

/-- Whether an instruction of run-ahead would trap before its body (R355); `blind`: it reads an unknown register. -/
def aheadTraps (d : Device) (y : Context) (u : Uses) (blind : Bool) : Bool :=
  let k := d.me
  u.illegal d || (u.privilege d y).isSome || (windowFault y u.report).isSome || !blind && (u.tags y).isSome ||
    u.sync.any (fun r => (k.bindingOf d.slot r).isSome) || (u.binds k d.slot).isSome ||
    (streamTrap k (boundGens k d.slot u.reads) (boundGens k d.slot u.writes)).isSome

/-- A context whose masks and status registers all stand at a pattern: what depends on none of them is the same under every one. -/
def Context.patterned (x : Context) (w : BitVec 32) : Context :=
  x.onRegs fun r =>
    { r with k := Vector.replicate 8 w, conflict := w, sys := { r.sys with fflags := w.setWidth 6, srctr := w } }

/-- What a completed body leaves in a register. -/
def Verdict.leaves (v : Verdict) (r : Reg) : Option Val :=
  match v with
  | .done d _ _ _ => d.cur.map fun z => z.peek r
  | _ => none

/-- Run-ahead after the body of an instruction that reads nothing unknown (R354, R355). A load that translates is sent as a weak load,
which returns to the shadow registers alone; a store, and whatever else would reach beyond the registers, is discarded. -/
def aheadBody (d : Device) (x : Context) (a : Ahead) (i : Instr) (u : Uses) (run : Context → Verdict) : Ahead × Device :=
  let y := syncClear (x.ahead a) u.sync
  let next := a.regs.pc + instrBytes i
  let v := run y
  match v with
  | .trap _ _ => (a.stop, d)
  | .poison _ _ => (a.stop, d)
  | .sweep _ addr need =>
    (((if loadsAhead i then { a with pages := addPage a.pages (pageWord addr need) } else a).loses u.writes none).goesOn next, d)
  | .done d1 _ jump pend =>
    match d1.cur, pend with
    | some z, none =>
      let rs := if a.hidden then u.writes.filter fun r =>
          [0, 0xFFFFFFFF, 0x5A3C96E1].any fun w => decide ((run (y.patterned w)).leaves r ≠ v.leaves r)
        else []
      let a1 : Ahead := { a with
        regs := z.regs
        unknown := a.unknown.filter fun r => !u.writes.contains r
        awaited := a.awaited.filter fun q => !u.writes.contains q.2 }
      ((a1.loses rs none).goesOn (jump.getD next), d)
    | some _, some p =>
      match p.due with
      | some (_, w) => ((u.writes.foldl (fun (a : Ahead) r => a.knows x r (.w w)) a).goesOn next, d)
      | none =>
        ((a.loses u.writes (some p.id)).goesOn next,
          { d with
            tlb := d1.tlb
            nextAccess := d1.nextAccess
            accesses := d.accesses ++ ((d1.accesses.filter fun q => q.id == p.id).map fun q => { q with orphan := true, strong := false }) })
    | none, _ => (a.stop, d)
  | _ => ((a.loses u.writes none).goesOn next, d)

/-- ONE INSTRUCTION OF RUN-AHEAD (R354, R355). A register bound to a generator, and a synchronised read of an empty register, read as
unknown; an instruction that reads something unknown leaves unknown what it writes (assumption 19). -/
def aheadIssue (s : State) (x : Context) (i : Instr) (u : Uses) (body : Device → Context → List Val → Verdict) : Out :=
  match x.phase with
  | .faulted cls addr need a =>
    if a.stopped || stopsAhead i then conclude s s.dev []
    else
      let d := s.dev
      let y := x.ahead a
      let rs := u.reads ++ u.sync.toList
      let blind := syncEmpty y u.sync || rs.any fun r => a.unknown.contains r || (d.me.bindingOf d.slot r).isSome
      let (a1, d1) :=
        if aheadTraps d y u blind || u.reads.any (fun r => !a.unknown.contains r && y.poisonedReg r) then (a.stop, d)
        else if blind then
          if jumpsOn i then (a.stop, d)
          else (({ a with hidden := a.hidden || marksAhead i }.loses u.writes none).goesOn (a.regs.pc + instrBytes i), d)
        else aheadBody d x a i u fun z => body (d.setCore d.core (d.me.setCtx d.slot (some z))) z (u.reads.map y.peek)
      conclude s (d1.onCur fun z => { z with phase := .faulted cls addr need a1 }) []
  | _ => conclude s s.dev []

/-- ONE TURN'S ISSUE of an instruction: the checks of R89 in order, then the operands, then its body. A turn whose
slot is empty, or whose context cannot issue, stays empty (R13). R27's park behind a held reduction stands after the checks of
steps 2 to 9 and before step 10: the spec does not place it among the steps (assumption 79, DESIGN CHOICE). A synchronised read of a
register that is both empty and poisoned takes POISON and does not park: R19 and R385 leave their order open (assumption 101,
DESIGN CHOICE). -/
def issue (s : State) (i : Instr) (u : Uses) (body : Device → Context → List Val → Verdict) : Out :=
  match s.dev.cur with
  | none => conclude s s.dev []
  | some x =>
    if !x.issues then aheadIssue s x i u body
    else
      let d := s.dev
      match precheck d x i u with
      | some d' => conclude s d' []
      | none =>
        if heldReduction d.me x d.slot then conclude s (parkHeld d x) []
        else if u.outside && tainted s.mem d d.core d.slot x then conclude s (plainStall d x) []
        else
          match u.reads.find? fun r => (d.me.bindingOf d.slot r).isNone && x.poisonedReg r with
          | some r => poisonHere s d x r.poisonVal (registerStore r.poisonVal) r.poisonVal
          | none =>
            if syncEmpty x u.sync then conclude s (parkAs d x (.sync (u.sync.getD (.g 0)))) []
            else
              let x1 := syncClear x u.sync
              let k0 := if (d.unsettled d.core d.slot).isSome then d.me else forgetSpent d.me (boundGens d.me d.slot u.reads)
              let (vs, k) := readOperands k0 x d.slot u.reads
              let d1 := d.setCore d.core (k.setCtx d.slot (some x1))
              let v := body d1 x1 vs
              carryOut s d x (instrBytes i) (takenBy d.me d.slot u) u.writes (if u.outside then v.passing x d.nextAccess else v)

/-- Registers of a g-class R or I form: A and B read, D written, A synchronised when SA is 1. -/
def usesDAB (sa : Bool) (d a b : BitVec 7) : Uses :=
  { sync := if sa then some (.g a.toNat) else none
    reads := [.g a.toNat, .g b.toNat]
    writes := [.g d.toNat]
    report := [.g d.toNat, .g a.toNat, .g b.toNat] }

/-- A read, D written. -/
def usesDA (sa : Bool) (d a : BitVec 7) : Uses :=
  { sync := if sa then some (.g a.toNat) else none
    reads := [.g a.toNat]
    writes := [.g d.toNat]
    report := [.g d.toNat, .g a.toNat] }

/-- Only D written. -/
def usesD (d : BitVec 7) : Uses := { writes := [.g d.toNat], report := [.g d.toNat] }

/-- A and B read, nothing written. -/
def usesAB (sa : Bool) (a b : BitVec 7) : Uses :=
  { sync := if sa then some (.g a.toNat) else none
    reads := [.g a.toNat, .g b.toNat]
    report := [.g a.toNat, .g b.toNat] }

/-- Only A read. -/
def usesA (sa : Bool) (a : BitVec 7) : Uses :=
  { sync := if sa then some (.g a.toNat) else none
    reads := [.g a.toNat]
    report := [.g a.toNat] }

/-- A short scalar instruction with two operands: gD := f a b. -/
def scalar2 (s : State) (i : Instr) (sa : Bool) (d a b : BitVec 7) (f : Word → Word → Word) : Out :=
  issue s i (usesDAB sa d a b) fun dv _ vs => .ok (dv.putG d.toNat (f (wordAt vs 0) (wordAt vs 1)))

/-- A short scalar instruction with one operand: gD := f a. -/
def scalar1 (s : State) (i : Instr) (sa : Bool) (d a : BitVec 7) (f : Word → Word) : Out :=
  issue s i (usesDA sa d a) fun dv _ vs => .ok (dv.putG d.toNat (f (wordAt vs 0)))

end Sys2Proof.Machine
end

