-- ==== Sys2Proof/Machine/Scalar.lean ====
section
/-! DEFINITION. Scalar arithmetic, immediate operations and divides (R104 to R109, R113, R114). -/
namespace Sys2Proof.Machine

/-- The low 32 bits of a word, sign-extended (R105). -/
def sextW (x : Word) : Word := (x.setWidth 32).signExtend 64

/-- Shift amount of the 64-bit forms (R105). -/
def sh6 (b : Word) : Nat := b.toNat % 64
/-- Shift amount of the W forms (R105). -/
def sh5 (b : Word) : Nat := b.toNat % 32

/-- 1 or 0. -/
def ofBool (p : Bool) : Word := if p then 1 else 0

/-- SLL (R106). -/
def opSll (a b : Word) : Word := a <<< sh6 b
/-- SRL (R106). -/
def opSrl (a b : Word) : Word := a >>> sh6 b
/-- SRA (R106). -/
def opSra (a b : Word) : Word := a.sshiftRight (sh6 b)
/-- SLLW (R106). -/
def opSllw (a b : Word) : Word := (a.setWidth 32 <<< sh5 b).signExtend 64
/-- SRLW (R106). -/
def opSrlw (a b : Word) : Word := (a.setWidth 32 >>> sh5 b).signExtend 64
/-- SRAW (R106). -/
def opSraw (a b : Word) : Word := ((a.setWidth 32).sshiftRight (sh5 b)).signExtend 64
/-- MIN, MAX (R106). -/
def opMin (a b : Word) : Word := if a.slt b then a else b
def opMax (a b : Word) : Word := if a.slt b then b else a
def opMinu (a b : Word) : Word := if a.ult b then a else b
def opMaxu (a b : Word) : Word := if a.ult b then b else a
/-- MULH, MULHU (R106). -/
def opMulh (a b : Word) : Word := BitVec.ofInt 64 (a.toInt * b.toInt / 2^64)
def opMulhu (a b : Word) : Word := BitVec.ofNat 64 (a.toNat * b.toNat / 2^64)
/-- Leading zero bits (R106): the number of n for which the n + 1 highest bits are zero. -/
def opClz (a : Word) : Word := BitVec.ofNat 64 ((List.range 64).countP fun n => a.toNat / 2^(63 - n) == 0)
/-- Trailing zero bits (R106): the number of n for which the n + 1 lowest bits are zero. -/
def opCtz (a : Word) : Word := BitVec.ofNat 64 ((List.range 64).countP fun n => a.toNat % 2^(n + 1) == 0)
/-- One bits (R106). -/
def opPopc (a : Word) : Word := BitVec.ofNat 64 ((List.range 64).countP fun i => a.getLsbD i)
/-- Bit i to bit 63 − i (R106). -/
def opBrev (a : Word) : Word := BitVec.ofNat 64 ((List.range 64).foldl (fun acc i => 2 * acc + (a.getLsbD i).toNat) 0)

def execAdd (sa : Bool) (b a d : BitVec 7) (s : State) : Out := scalar2 s (.add sa b a d) sa d a b fun x y => x + y
def execSub (sa : Bool) (b a d : BitVec 7) (s : State) : Out := scalar2 s (.sub sa b a d) sa d a b fun x y => x - y
def execAnd (sa : Bool) (b a d : BitVec 7) (s : State) : Out := scalar2 s (.and sa b a d) sa d a b fun x y => x &&& y
def execOr (sa : Bool) (b a d : BitVec 7) (s : State) : Out := scalar2 s (.or sa b a d) sa d a b fun x y => x ||| y
def execXor (sa : Bool) (b a d : BitVec 7) (s : State) : Out := scalar2 s (.xor sa b a d) sa d a b fun x y => x ^^^ y
def execSll (sa : Bool) (b a d : BitVec 7) (s : State) : Out := scalar2 s (.sll sa b a d) sa d a b opSll
def execSrl (sa : Bool) (b a d : BitVec 7) (s : State) : Out := scalar2 s (.srl sa b a d) sa d a b opSrl
def execSra (sa : Bool) (b a d : BitVec 7) (s : State) : Out := scalar2 s (.sra sa b a d) sa d a b opSra
def execAddw (sa : Bool) (b a d : BitVec 7) (s : State) : Out := scalar2 s (.addw sa b a d) sa d a b fun x y => sextW (x + y)
def execSubw (sa : Bool) (b a d : BitVec 7) (s : State) : Out := scalar2 s (.subw sa b a d) sa d a b fun x y => sextW (x - y)
def execSllw (sa : Bool) (b a d : BitVec 7) (s : State) : Out := scalar2 s (.sllw sa b a d) sa d a b opSllw
def execSrlw (sa : Bool) (b a d : BitVec 7) (s : State) : Out := scalar2 s (.srlw sa b a d) sa d a b opSrlw
def execSraw (sa : Bool) (b a d : BitVec 7) (s : State) : Out := scalar2 s (.sraw sa b a d) sa d a b opSraw
def execSlt (sa : Bool) (b a d : BitVec 7) (s : State) : Out := scalar2 s (.slt sa b a d) sa d a b fun x y => ofBool (x.slt y)
def execSltu (sa : Bool) (b a d : BitVec 7) (s : State) : Out := scalar2 s (.sltu sa b a d) sa d a b fun x y => ofBool (x.ult y)
def execAndn (sa : Bool) (b a d : BitVec 7) (s : State) : Out := scalar2 s (.andn sa b a d) sa d a b fun x y => x &&& ~~~y
def execMin (sa : Bool) (b a d : BitVec 7) (s : State) : Out := scalar2 s (.min sa b a d) sa d a b opMin
def execMax (sa : Bool) (b a d : BitVec 7) (s : State) : Out := scalar2 s (.max sa b a d) sa d a b opMax
def execMinu (sa : Bool) (b a d : BitVec 7) (s : State) : Out := scalar2 s (.minu sa b a d) sa d a b opMinu
def execMaxu (sa : Bool) (b a d : BitVec 7) (s : State) : Out := scalar2 s (.maxu sa b a d) sa d a b opMaxu
def execClz (sa : Bool) (a d : BitVec 7) (s : State) : Out := scalar1 s (.clz sa a d) sa d a opClz
def execCtz (sa : Bool) (a d : BitVec 7) (s : State) : Out := scalar1 s (.ctz sa a d) sa d a opCtz
def execPopc (sa : Bool) (a d : BitVec 7) (s : State) : Out := scalar1 s (.popc sa a d) sa d a opPopc
def execBrev (sa : Bool) (a d : BitVec 7) (s : State) : Out := scalar1 s (.brev sa a d) sa d a opBrev
def execMul (sa : Bool) (b a d : BitVec 7) (s : State) : Out := scalar2 s (.mul sa b a d) sa d a b fun x y => x * y
def execMulh (sa : Bool) (b a d : BitVec 7) (s : State) : Out := scalar2 s (.mulh sa b a d) sa d a b opMulh
def execMulhu (sa : Bool) (b a d : BitVec 7) (s : State) : Out := scalar2 s (.mulhu sa b a d) sa d a b opMulhu
def execMulw (sa : Bool) (b a d : BitVec 7) (s : State) : Out := scalar2 s (.mulw sa b a d) sa d a b fun x y => sextW (x * y)
def execSexb (sa : Bool) (a d : BitVec 7) (s : State) : Out := scalar1 s (.sexb sa a d) sa d a fun x => (x.setWidth 8).signExtend 64
def execSexh (sa : Bool) (a d : BitVec 7) (s : State) : Out := scalar1 s (.sexh sa a d) sa d a fun x => (x.setWidth 16).signExtend 64
def execSexw (sa : Bool) (a d : BitVec 7) (s : State) : Out := scalar1 s (.sexw sa a d) sa d a sextW
def execZexw (sa : Bool) (a d : BitVec 7) (s : State) : Out := scalar1 s (.zexw sa a d) sa d a fun x => (x.setWidth 32).setWidth 64

/-- IMM10 sign-extended (R107). -/
def imm10 (i : BitVec 10) : Word := i.signExtend 64

def execAddi (sa : Bool) (imm : BitVec 10) (a d : BitVec 7) (s : State) : Out := scalar1 s (.addi sa imm a d) sa d a fun x => x + imm10 imm
def execAndi (sa : Bool) (imm : BitVec 10) (a d : BitVec 7) (s : State) : Out := scalar1 s (.andi sa imm a d) sa d a fun x => x &&& imm10 imm
def execOri (sa : Bool) (imm : BitVec 10) (a d : BitVec 7) (s : State) : Out := scalar1 s (.ori sa imm a d) sa d a fun x => x ||| imm10 imm
def execXori (sa : Bool) (imm : BitVec 10) (a d : BitVec 7) (s : State) : Out := scalar1 s (.xori sa imm a d) sa d a fun x => x ^^^ imm10 imm
def execSlti (sa : Bool) (imm : BitVec 10) (a d : BitVec 7) (s : State) : Out := scalar1 s (.slti sa imm a d) sa d a fun x => ofBool (x.slt (imm10 imm))
def execSltiu (sa : Bool) (imm : BitVec 10) (a d : BitVec 7) (s : State) : Out := scalar1 s (.sltiu sa imm a d) sa d a fun x => ofBool (x.ult (imm10 imm))
def execSlli (sa : Bool) (sh : BitVec 6) (a d : BitVec 7) (s : State) : Out := scalar1 s (.slli sa sh a d) sa d a fun x => opSll x (sh.setWidth 64)
def execSrli (sa : Bool) (sh : BitVec 6) (a d : BitVec 7) (s : State) : Out := scalar1 s (.srli sa sh a d) sa d a fun x => opSrl x (sh.setWidth 64)
def execSrai (sa : Bool) (sh : BitVec 6) (a d : BitVec 7) (s : State) : Out := scalar1 s (.srai sa sh a d) sa d a fun x => opSra x (sh.setWidth 64)
def execSllwi (sa : Bool) (sh : BitVec 5) (a d : BitVec 7) (s : State) : Out := scalar1 s (.sllwi sa sh a d) sa d a fun x => opSllw x (sh.setWidth 64)
def execSrlwi (sa : Bool) (sh : BitVec 5) (a d : BitVec 7) (s : State) : Out := scalar1 s (.srlwi sa sh a d) sa d a fun x => opSrlw x (sh.setWidth 64)
def execSrawi (sa : Bool) (sh : BitVec 5) (a d : BitVec 7) (s : State) : Out := scalar1 s (.srawi sa sh a d) sa d a fun x => opSraw x (sh.setWidth 64)

/-- LUI (R109): gD := sext(IMM18) × 1,024. -/
def execLui (imm : BitVec 18) (d : BitVec 7) (s : State) : Out :=
  issue s (.lui imm d) (usesD d) fun dv _ _ => .ok (dv.putG d.toNat (imm.signExtend 64 <<< 10))

/-- AUIPC (R109): gD := PC + sext(IMM18) × 1,024. -/
def execAuipc (imm : BitVec 18) (d : BitVec 7) (s : State) : Out :=
  issue s (.auipc imm d) (usesD d) fun dv x _ => .ok (dv.putG d.toNat (x.regs.pc + (imm.signExtend 64 <<< 10)))

/-- Quotient and remainder of R113. -/
def divide (signed : Bool) (a b : Word) : Word × Word :=
  if b = 0 then (allOnes, a)
  else if signed then
    if a = 0x8000000000000000 ∧ b = allOnes then (a, 0)
    else (BitVec.ofInt 64 (a.toInt.tdiv b.toInt), BitVec.ofInt 64 (a.toInt.tmod b.toInt))
  else (BitVec.ofNat 64 (a.toNat / b.toNat), BitVec.ofNat 64 (a.toNat % b.toNat))

/-- Places reserved in the write streams that destinations are bound to (R26): a place is an element whose value is not
yet known. -/
def reservePlaces (d : Device) (dests : List Reg) : Device × List (Reg × Nat × Nat) :=
  dests.foldl (fun (acc : Device × List (Reg × Nat × Nat)) r =>
    let k := acc.1.me
    match k.bindingOf acc.1.slot r with
    | none => acc
    | some n =>
      if (k.gen n).write then
        (acc.1.setCore acc.1.core (k.setGen n ((k.gen n).append none (acc.1.unsettled acc.1.core acc.1.slot))),
          acc.2 ++ [(r, n, (k.gen n).position)])
      else acc) (d, [])

/-- A divide (R113, R114): the operands are read at issue, the result is written 40 cy later; a divide into g0 leaves
nothing pending. -/
def divideOp (s : State) (i : Instr) (la : BitVec 4) (b a d : BitVec 7) (f : Word → Word → Word) : Out :=
  issue s i (usesDAB false d a b) fun dv _ vs =>
    if d.toNat = 0 then .ok dv
    else
    let (dv1, places) := reservePlaces dv [.g d.toNat]
    .done { dv1 with nextAccess := dv1.nextAccess + 1 } [] none (some
      { id := dv1.nextAccess
        dests := [.g d.toNat]
        left := la.toNat
        arrived := false
        mayFault := false
        due := some (dv.me.cyc + 40, f (wordAt vs 0) (wordAt vs 1))
        reserved := places })

def execDiv (la : BitVec 4) (b a d : BitVec 7) (s : State) : Out := divideOp s (.div la b a d) la b a d fun x y => (divide true x y).1
def execDivu (la : BitVec 4) (b a d : BitVec 7) (s : State) : Out := divideOp s (.divu la b a d) la b a d fun x y => (divide false x y).1
def execRem (la : BitVec 4) (b a d : BitVec 7) (s : State) : Out := divideOp s (.rem la b a d) la b a d fun x y => (divide true x y).2
def execRemu (la : BitVec 4) (b a d : BitVec 7) (s : State) : Out := divideOp s (.remu la b a d) la b a d fun x y => (divide false x y).2

end Sys2Proof.Machine
end

