-- ==== Sys2Proof/Machine/Branch.lean ====
section
/-! DEFINITION. Jumps and branches (R110 to R112). -/
namespace Sys2Proof.Machine

/-- JAL (R110): gD := PC + 4; PC := PC + 2 × sext(IMM18). -/
def execJal (imm : BitVec 18) (d : BitVec 7) (s : State) : Out :=
  issue s (.jal imm d) (usesD d) fun dv x _ =>
    .done (dv.putG d.toNat (x.regs.pc + 4)) [] (some (x.regs.pc + 2 * imm.signExtend 64)) none

/-- JALR (R110): a is read before gD is written; bit 0 of the target is cleared. -/
def execJalr (sa : Bool) (imm : BitVec 10) (a d : BitVec 7) (s : State) : Out :=
  issue s (.jalr sa imm a d) (usesDA sa d a) fun dv x vs =>
    .done (dv.putG d.toNat (x.regs.pc + 4)) [] (some ((wordAt vs 0 + imm10 imm) &&& ~~~1)) none

/-- A branch (R111): taken to PC + 2 × sext(OFF11), otherwise PC + 4. -/
def branch (s : State) (i : Instr) (off : BitVec 11) (a b : BitVec 7) (taken : Word → Word → Bool) : Out :=
  issue s i (usesAB false a b) fun dv x vs =>
    .done dv [] (if taken (wordAt vs 0) (wordAt vs 1) then some (x.regs.pc + 2 * off.signExtend 64) else none) none

def execBeq (off : BitVec 11) (a b : BitVec 7) (s : State) : Out := branch s (.beq off a b) off a b fun x y => x == y
def execBne (off : BitVec 11) (a b : BitVec 7) (s : State) : Out := branch s (.bne off a b) off a b fun x y => x != y
def execBlt (off : BitVec 11) (a b : BitVec 7) (s : State) : Out := branch s (.blt off a b) off a b fun x y => x.slt y
def execBge (off : BitVec 11) (a b : BitVec 7) (s : State) : Out := branch s (.bge off a b) off a b fun x y => !x.slt y
def execBltu (off : BitVec 11) (a b : BitVec 7) (s : State) : Out := branch s (.bltu off a b) off a b fun x y => x.ult y
def execBgeu (off : BitVec 11) (a b : BitVec 7) (s : State) : Out := branch s (.bgeu off a b) off a b fun x y => !x.ult y

end Sys2Proof.Machine
end

