-- ==== Sys2Proof/Machine/Flags.lean ====
section
/-! DEFINITION. Rounding of a vector element with the flags it raises, and the element operations of the data side
(R148 to R153, R157, R169, R193, R402). An element result is its bits and the FFLAGS bits it sets. -/
namespace Sys2Proof.Machine

/-- What one element gives: its bits and its flags. -/
abbrev Elem := Nat × Flags

/-- The environment of a rounding instruction: mode, key and counter (R60, R63). -/
structure RoundEnv where
  mode : RMode
  key : BitVec 32
  ctr : BitVec 32

/-- The rounding of element e: under SR the hash of R63. -/
def RoundEnv.at_ (v : RoundEnv) (e : Nat) : Rnd :=
  ⟨v.mode, if v.mode = .sr then (mix32 v.key (v.ctr * 128 + BitVec.ofNat 32 e)).toNat else 0⟩

/-- NV when a NaN comes from operands that are not NaN (R64, R152). -/
def nvIf (t : Num) (xs : List Num) : Flags :=
  if t == .nan && !(xs.any (· == .nan)) then flagNV else 0

/-- `RoundM` of R148 for a floating tag: SP32 rounds to nearest whatever the mode is. -/
def roundM (f : Fmt) (v : RoundEnv) (e : Nat) (t : Num) (ops : List Num) : Elem :=
  let (b, fl) := roundNum f (if f = .sp32 then ⟨.rne, 0⟩ else v.at_ e) t
  (b, fl ||| nvIf t ops)

/-- The least or greatest of two numbers: a NaN operand gives NaN, −0 lies below +0 (R152). -/
def numMin (x y : Num) : Num :=
  match x.order y with
  | none => .nan
  | some .gt => y
  | some _ => x
def numMax (x y : Num) : Num :=
  match x.order y with
  | none => .nan
  | some .lt => y
  | some _ => x

/-- A floating number that is already representable, written back canonically without rounding. -/
def exactly (f : Fmt) (x : Num) : Nat := rne f x

/-- The functions of the VA major (R150). -/
inductive VaFn where
  | add
  | sub
  | mul
  | fma
  | fms
  | min
  | max
  | diff
  deriving DecidableEq, Repr

/-- Exact integer value of a VA function (R151). -/
def vaInt (fn : VaFn) (x y z : Int) : Int :=
  match fn with
  | .add => x + y
  | .sub => x - y
  | .mul => x * y
  | .fma => x * y + z
  | .fms => x * y - z
  | .min => if x ≤ y then x else y
  | .max => if x ≤ y then y else x
  | .diff => ((x - y).natAbs : Int)

/-- One floating element of a VA function (R152, R153). -/
def vaFloat (f : Fmt) (fn : VaFn) (v : RoundEnv) (e : Nat) (x y z : Num) : Elem :=
  let md := if f = .sp32 then .rne else v.mode
  match fn with
  | .add => roundM f v e (x.add md y) [x, y]
  | .sub => roundM f v e (x.add md y.negate) [x, y]
  | .mul => roundM f v e (x.mul y) [x, y]
  | .fma => roundM f v e ((x.mul y).add md z) [x, y, z]
  | .fms => roundM f v e ((x.mul y).add md z.negate) [x, y, z]
  | .min => (exactly f (numMin x y), 0)
  | .max => (exactly f (numMax x y), 0)
  | .diff => roundM f v e ((x.add md y.negate).abs) [x, y]

/-- One element of a VA function on tag T (R150). -/
def vaElem (t : Tag) (fn : VaFn) (v : RoundEnv) (e x y z : Nat) : Elem :=
  match t with
  | .int s w => satInt s w (vaInt fn (intVal s w x) (intVal s w y) (intVal s w z))
  | .float f => vaFloat f fn v e (decodeNum f x) (decodeNum f y) (decodeNum f z)
  | _ => (x, 0)

/-- VRELU (R154): never rounds and sets no flag. -/
def reluElem (t : Tag) (x : Nat) : Nat :=
  match t with
  | .int s w => if intVal s w x < 0 then 0 else x
  | .float f =>
    match decodeNum f x with
    | .nan => f.nan
    | n => if n.neg || n.isZero then 0 else x
  | _ => x

/-- VNEG (R157). -/
def negElem (t : Tag) (x : Nat) : Elem :=
  match t with
  | .int s w => satInt s w (-(intVal s w x))
  | .float f => if decodeNum f x = .nan then (f.nan, 0) else (Nat.xor x f.signBit, 0)
  | _ => (x, 0)

/-- VABS (R157). -/
def absElem (t : Tag) (x : Nat) : Elem :=
  match t with
  | .int s w => satInt s w ((intVal s w x).natAbs : Int)
  | .float f => if decodeNum f x = .nan then (f.nan, 0) else (x % f.signBit, 0)
  | _ => (x, 0)

/-- Conversion of one element (R69, R70, R402): from tag S with scale word, to tag T; sd is the destination scale. It rounds by FN
into SP32 too, as R52, R61 and R69 give, over R148 (assumption 11). A floating value with a fraction that is clamped sets NX beside
NV and SAT, which R64 leaves open (assumption 95, DESIGN CHOICE). The NaN of a scaled zero under an infinite scale word sets no flag
in a floating target: R402's NaN input, where R64 could ask NV (assumption 96, DESIGN CHOICE). -/
def cvtElem (src tgt : Tag) (scale sd : Lane) (r : Rnd) (x : Nat) : Elem :=
  let n := elemValue src scale x
  let scaled := decide (tgt = .float .e4m3) || decide (tgt = .float .e5m2)
  match tgt with
  | .int s w =>
    match n with
    | .nan => (0, flagNV)
    | .inf neg => ((satInt s w (if neg then (intRange s w).1 else (intRange s w).2)).1, flagNV ||| flagSAT)
    | .fin neg m e sticky =>
      let (k, ix) := roundToInt r neg m e sticky
      let (b, fl) := satInt s w k
      let isInt := match src with
        | .int _ _ => true
        | _ => false
      if fl = 0 then (b, if ix then flagNX else 0)
      else (b, flagSAT ||| (if isInt then 0 else flagNV ||| (if ix then flagNX else 0)))
  | .float f =>
    let q := if scaled then n.div (decodeNum .f32 sd.toNat) else n
    match n with
    | .nan => (f.nan, 0)
    | _ =>
      if f = .sp32 ∧ n.isZero then (0, 0)
      else
        let (b, fl) := roundNum f r q
        (b, fl ||| nvIf q [n])
  | _ => (x, 0)

/-- The power-of-two scale of R169 and R193: 2^max(⌈log2(amax / M)⌉, −127), or 2^−127 for amax 0, as F32 bits. -/
def quantScale (amax : Num) (mBits : Num) : Int :=
  match amax, mBits with
  | .fin _ m e _, .fin _ n g _ =>
    if m = 0 then -127
    else
      -- least k with m × 2^e ≤ n × 2^(g + k)
      let k0 := (e + bitLen m) - (g + bitLen n) - 1
      let k := if cmpMag m e false n (g + k0) != .gt then k0 else if cmpMag m e false n (g + k0 + 1) != .gt then k0 + 1 else k0 + 2
      max k (-127)
  | _, _ => -127

/-- Largest magnitude among the finite numbers, or zero. -/
def amaxOf (xs : List Num) : Num :=
  xs.foldl (fun acc x =>
    match x with
    | .fin _ _ _ _ => if acc.order x.abs = some .lt then x.abs else acc
    | _ => acc) (.fin false 0 0 false)

/-- 2^k as a number. -/
def pow2Num (k : Int) : Num := .fin false 1 k false

/-- Quantisation of 128 numbers to an FP8 format (R169): elements, flags and scale word. -/
def quantise (f : Fmt) (xs : List Num) : List Nat × Flags × Lane :=
  let k := quantScale (amaxOf xs) (decodeNum f f.maxBits)
  let es := xs.map fun x =>
    match x with
    | .nan => (f.nan, (0 : Flags))
    | x => roundNum f ⟨.rne, 0⟩ (x.mul (pow2Num (-k)))
  (es.map Prod.fst, es.foldl (fun a e => a ||| e.2) 0, BitVec.ofNat 32 (rne .f32 (pow2Num k)))

end Sys2Proof.Machine
end

