-- ==== Sys2Proof/Machine/Elementary.lean ====
section
/-! DEFINITION. The functions of the VFN major (R160): exact results where the value is exact, otherwise the magnitude
to 640 binary places with a sticky bit, from which one rounding gives the correctly rounded value (assumption 12). -/
namespace Sys2Proof.Machine

/-- Fraction bits of the fixed-point evaluation. -/
def fxBits : Nat := 704

/-- Integer square root, one bit of the result at a time. -/
def isqrt (n : Nat) : Nat := go (bitLen n / 2 + 1) 0
where
  /-- Tries the bits below 2^k. -/
  go : Nat → Nat → Nat
  | 0, r => r
  | k + 1, r => if (r + 2^k) * (r + 2^k) ≤ n then go k (r + 2^k) else go k r

/-- Sum of t^(2k+1)/(2k+1) from term k on, in fixed point: the series of artanh. -/
def artanhSum : Nat → Nat → Nat → Nat → Nat
  | 0, _, _, _ => 0
  | fuel + 1, k, p, t2 => p / (2 * k + 1) + artanhSum fuel (k + 1) (p * t2 / 2^fxBits) t2

/-- ln(a / b) in fixed point for 1 ≤ a / b < 2: 2 artanh((a − b) / (a + b)). -/
def fxLn (a b : Nat) : Nat :=
  let t := (a - b) * 2^fxBits / (a + b)
  2 * artanhSum 240 0 t (t * t / 2^fxBits)

/-- ln 2 in fixed point. -/
def fxLn2 : Nat := 2 * artanhSum 240 0 (2^fxBits / 3) (2^fxBits / 9)

/-- Terms f^k / k! from term k on. -/
def expSum : Nat → Nat → Nat → Nat → Nat
  | 0, _, _, _ => 0
  | fuel + 1, k, p, f => p + expSum fuel (k + 1) (p * f / 2^fxBits / (k + 1)) f

/-- e^f in fixed point for 0 ≤ f < 1. -/
def fxExpFrac (f : Nat) : Nat := expSum 160 0 (2^fxBits) f

/-- e^y for a fixed-point y = i ln 2 + f: the fraction e^f in [1, 2) and the binary exponent i. -/
def fxExp (neg : Bool) (y : Nat) : Nat × Int :=
  if neg then
    let i := y / fxLn2 + 1
    (fxExpFrac (i * fxLn2 - y), -(i : Int))
  else
    let i := y / fxLn2
    (fxExpFrac (y - i * fxLn2), i)

/-- m × 2^e as a fixed-point number, rounded down. -/
def toFx (m : Nat) (e : Int) : Nat :=
  if -(fxBits : Int) ≤ e then m * 2^(e + fxBits).toNat else m / 2^(-(fxBits : Int) - e).toNat

/-- A magnitude a little above a tiny power of two, below every format's smallest value. -/
def tinyNum (neg : Bool) : Num := .fin neg (2^100) (-1100) true

/-- A magnitude beyond every format's largest value. -/
def hugeNum : Num := .fin false (2^100) 1100 true

/-- e^(±m × 2^e), m not zero. -/
def expNum (neg : Bool) (m : Nat) (e : Int) : Num :=
  if 10 ≤ e + bitLen m then (if neg then tinyNum false else hugeNum)
  else
    let (f, i) := fxExp neg (toFx m e)
    .fin false (f / 2^32) (i - fxBits + 32) true

/-- 2^(±m × 2^e), m not zero: exact for an integer exponent. -/
def exp2Num (neg : Bool) (m : Nat) (e : Int) : Num :=
  if 11 ≤ e + bitLen m then (if neg then tinyNum false else hugeNum)
  else if 0 ≤ e ∨ m % 2^(-e).toNat = 0 then
    let k : Int := if 0 ≤ e then m * 2^e.toNat else m / 2^(-e).toNat
    .fin false 1 (if neg then -k else k) false
  else
    let y := toFx m e * fxLn2 / 2^fxBits
    let (f, i) := fxExp neg y
    .fin false (f / 2^32) (i - fxBits + 32) true

/-- log2(m × 2^e), m not zero: exact for a power of two. -/
def log2Num (m : Nat) (e : Int) : Num :=
  let k : Int := e + bitLen m - 1
  if 2^(bitLen m - 1) = m then .ofInt k
  else
    let l := fxLn m (2^(bitLen m - 1)) * 2^fxBits / fxLn2
    let t : Int := k * 2^fxBits + l
    -- floor of the magnitude: for a negative value the magnitude's floor is one below
    if 0 ≤ t then .fin false (t.toNat / 2^32) (-fxBits + 32) true
    else .fin true ((-t).toNat / 2^32) (-fxBits + 32) true

/-- 1 / (m × 2^e). -/
def rcpNum (neg : Bool) (m : Nat) (e : Int) : Num := (Num.fin false 1 0 false).div (.fin neg m e false)

/-- √(m × 2^e). -/
def sqrtNum (m : Nat) (e : Int) : Num :=
  let (m, e) := if e % 2 = 0 then (m, e) else (2 * m, e - 1)
  let n := m * 2^256
  let r := isqrt n
  .fin false r (e / 2 - 128) (r * r ≠ n)

/-- 1 / √(m × 2^e). -/
def rsqNum (m : Nat) (e : Int) : Num :=
  let (m, e) := if e % 2 = 0 then (m, e) else (2 * m, e - 1)
  let n := 2^400 / m
  let r := isqrt n
  .fin false r (-200 - e / 2) (r * r * m ≠ 2^400)

/-- tanh(±m × 2^e), m not zero: (1 − u) / (1 + u) with u = e^(−2|x|). -/
def tanhNum (neg : Bool) (m : Nat) (e : Int) : Num :=
  if 8 ≤ e + bitLen m then .fin neg (2^200 - 1) (-200) true
  else if e + bitLen m ≤ -130 then
    -- x − x³/3 + …, below x by less than a unit at 2^-200 relative
    .fin neg (m * 2^200 - 1) (e - 200) true
  else
    let (f, i) := fxExp true (2 * toFx m e)
    let u := f / 2^(-i).toNat
    .fin neg ((2^fxBits - u) * 2^(fxBits - 32) / (2^fxBits + u)) (-fxBits + 32) true

/-- 1 / (1 + e^(−x)) for x = ±m × 2^e, m not zero. -/
def sigmNum (neg : Bool) (m : Nat) (e : Int) : Num :=
  if 9 ≤ e + bitLen m then (if neg then tinyNum false else .fin false (2^200 - 1) (-200) true)
  else if e + bitLen m ≤ -200 then
    if neg then .fin false (2^255 - 1) (-256) true else .fin false (2^255) (-256) true
  else
    let (f, i) := fxExp true (toFx m e)
    let u := f / 2^(-i).toNat
    let top := if neg then u else 2^fxBits
    .fin false (top * 2^(fxBits - 32) / (2^fxBits + u)) (-fxBits + 32) true

/-- The VFN functions. -/
inductive Fn where
  | exp2
  | log2
  | rcp
  | rsq
  | sqrt
  | tanh
  | exp
  | sigm
  deriving DecidableEq, Repr

/-- A function's value with the flags of its special cases, in the table of R160. -/
def fnValue (fn : Fn) (x : Num) : Num × Flags :=
  let one : Num := .fin false 1 0 false
  let zero : Num := .fin false 0 0 false
  match fn, x with
  | _, .nan => (.nan, 0)
  | .exp2, .inf n => (if n then zero else .inf false, 0)
  | .exp2, .fin n m e _ => (if m = 0 then one else exp2Num n m e, 0)
  | .exp, .inf n => (if n then zero else .inf false, 0)
  | .exp, .fin n m e _ => (if m = 0 then one else expNum n m e, 0)
  | .log2, .inf n => if n then (.nan, flagNV) else (.inf false, 0)
  | .log2, .fin n m e _ =>
    if m = 0 then (.inf true, flagDZ) else if n then (.nan, flagNV) else (log2Num m e, 0)
  | .rcp, .inf n => (.fin n 0 0 false, 0)
  | .rcp, .fin n m e _ => if m = 0 then (.inf n, flagDZ) else (rcpNum n m e, 0)
  | .rsq, .inf n => if n then (.nan, flagNV) else (zero, 0)
  | .rsq, .fin n m e _ =>
    if m = 0 then (.inf n, flagDZ) else if n then (.nan, flagNV) else (rsqNum m e, 0)
  | .sqrt, .inf n => if n then (.nan, flagNV) else (.inf false, 0)
  | .sqrt, .fin n m e s =>
    if m = 0 then (.fin n 0 e s, 0) else if n then (.nan, flagNV) else (sqrtNum m e, 0)
  | .tanh, .inf n => (.fin n 1 0 false, 0)
  | .tanh, .fin n m e s => (if m = 0 then .fin n m e s else tanhNum n m e, 0)
  | .sigm, .inf n => (if n then zero else one, 0)
  | .sigm, .fin n m e _ => (if m = 0 then .fin false 1 (-1) false else sigmNum n m e, 0)

end Sys2Proof.Machine
end

