-- ==== Sys2Proof/Machine/Vector.lean ====
section
/-! DEFINITION. The data side: VA, VB, the C16 forms, VC, VCVT, VFN, VRED, VM and RNG (R147 to R172). -/
namespace Sys2Proof.Machine

/-- TRAPVAL of TAG for a vector register (R59). -/
def tagVal (found : BitVec 4) (n : Nat) : Word := BitVec.ofNat 64 (found.toNat * 256 + 0x80 + n)

/-- Integer tags (R58). -/
def isIntTag (c : BitVec 4) : Bool :=
  match tagOf c with
  | .int _ _ => true
  | _ => false
/-- F32, BF16 or F16. -/
def isFloatTag (c : BitVec 4) : Bool := c == 3 || c == 4 || c == 5
/-- SP32. -/
def isSpTag (c : BitVec 4) : Bool := c == 0xA
/-- Integer tags, F32, BF16, F16 (R58). -/
def accArith (c : BitVec 4) : Bool := isIntTag c || isFloatTag c
/-- Those and SP32 (R58). -/
def accArithSp (c : BitVec 4) : Bool := accArith c || isSpTag c
/-- A code that no tag has (R55). -/
def reservedCode (c : BitVec 4) : Bool := decide (0xD ≤ c.toNat)

/-- The tag check of a list of registers: the first must be accepted, every other must equal it (R58, R59). Where both fail, the
register with the refused tag is the offender that TRAPVAL names: the spec does not order the two (assumption 97, DESIGN CHOICE). -/
def checkTags (acc : BitVec 4 → Bool) (x : Context) : List Nat → Option Word
  | [] => none
  | a :: rest =>
    let t := (x.getV a).tag
    if !acc t then some (tagVal t a)
    else (rest.find? fun n => (x.getV n).tag != t).map fun n => tagVal (x.getV n).tag n

/-- The rounding environment of the context (R60, R63). -/
def Context.rounding (x : Context) : RoundEnv :=
  ⟨RMode.ofCode x.regs.sys.frm.toNat, x.regs.sys.srseed.setWidth 32, x.regs.sys.srctr⟩

/-- What follows a rounding instruction: flags are ORed into FFLAGS, and SRCTR advances once in SR mode (R63, R64). -/
def Device.roundDone (d : Device) (fl : Flags) (sr : Bool) : Device :=
  d.onCur fun x => x.onSys fun y =>
    { y with fflags := y.fflags ||| fl, srctr := if sr then y.srctr + 1 else y.srctr }

/-- Elements of a register under a tag (R46). -/
def elemsOf (t : Tag) (r : VReg) : List Nat := (List.range t.count).map fun e => elemAt r.bits t.width e

/-- Flags of a list of element results. -/
def flagsOf (es : List Elem) : Flags := es.foldl (fun a e => a ||| e.2) 0

/-- A register of a vector form with two sources. -/
def usesVAB (sa : Bool) (d a b : Nat) (extra : List Reg) : Uses :=
  { sync := if sa then some (.v a) else none
    reads := [.v a, .v b] ++ extra
    writes := [.v d]
    report := [.v d, .v a, .v b] }

/-- A register of a vector form with one source. -/
def usesVA (sa : Bool) (d a : Nat) : Uses :=
  { sync := if sa then some (.v a) else none, reads := [.v a], writes := [.v d], report := [.v d, .v a] }

/-- VA (R150): every element of vD by the exact value of the function, rounded once. -/
def vaOp (s : State) (i : Instr) (fn : VaFn) (sa : Bool) (d a b : Nat) : Out :=
  let fused := fn == .fma || fn == .fms
  let acc := if fn == .add || fn == .mul || fn == .min || fn == .max then accArithSp else accArith
  issue s i { usesVAB sa d a b (if fused then [.v d] else []) with
      tags := fun x => checkTags acc x (if fused then [a, b, d] else [a, b]) }
    fun dv x vs =>
      let va := vecAt vs 0
      let t := tagOf va.tag
      let env := x.rounding
      let xs := elemsOf t va
      let ys := elemsOf t (vecAt vs 1)
      let zs := elemsOf t (vecAt vs 2)
      let es := (List.range t.count).map fun e =>
        vaElem t fn env e (xs.getD e 0) (ys.getD e 0) (zs.getD e 0)
      let rounds := isFloatTag va.tag && !(fn == .min || fn == .max)
      .ok ((dv.putV d (packElems t.width (es.map Prod.fst)) va.tag scaleOne).roundDone (flagsOf es)
        (rounds && env.mode == .sr))

def execVadd (sa : Bool) (b a d : BitVec 7) (s : State) : Out := vaOp s (.vadd sa b a d) .add sa d.toNat a.toNat b.toNat
def execVsub (sa : Bool) (b a d : BitVec 7) (s : State) : Out := vaOp s (.vsub sa b a d) .sub sa d.toNat a.toNat b.toNat
def execVmul (sa : Bool) (b a d : BitVec 7) (s : State) : Out := vaOp s (.vmul sa b a d) .mul sa d.toNat a.toNat b.toNat
def execVfma (sa : Bool) (b a d : BitVec 7) (s : State) : Out := vaOp s (.vfma sa b a d) .fma sa d.toNat a.toNat b.toNat
def execVfms (sa : Bool) (b a d : BitVec 7) (s : State) : Out := vaOp s (.vfms sa b a d) .fms sa d.toNat a.toNat b.toNat
def execVmin (sa : Bool) (b a d : BitVec 7) (s : State) : Out := vaOp s (.vmin sa b a d) .min sa d.toNat a.toNat b.toNat
def execVmax (sa : Bool) (b a d : BitVec 7) (s : State) : Out := vaOp s (.vmax sa b a d) .max sa d.toNat a.toNat b.toNat
def execVdiff (sa : Bool) (b a d : BitVec 7) (s : State) : Out := vaOp s (.vdiff sa b a d) .diff sa d.toNat a.toNat b.toNat
def execVaddC16 (src : BitVec 5) (d : BitVec 6) (s : State) : Out := vaOp s (.vaddC16 src d) .add false d.toNat d.toNat src.toNat
def execVsubC16 (src : BitVec 5) (d : BitVec 6) (s : State) : Out := vaOp s (.vsubC16 src d) .sub false d.toNat d.toNat src.toNat
def execVmulC16 (src : BitVec 5) (d : BitVec 6) (s : State) : Out := vaOp s (.vmulC16 src d) .mul false d.toNat d.toNat src.toNat
def execVminC16 (src : BitVec 5) (d : BitVec 6) (s : State) : Out := vaOp s (.vminC16 src d) .min false d.toNat d.toNat src.toNat
def execVmaxC16 (src : BitVec 5) (d : BitVec 6) (s : State) : Out := vaOp s (.vmaxC16 src d) .max false d.toNat d.toNat src.toNat

/-- Bitwise logic over all 1,024 bits, with the tag and scale word of vA (R154). -/
def vlogic (s : State) (i : Instr) (sa : Bool) (d a b : Nat) (f : VBits → VBits → VBits) : Out :=
  issue s i (usesVAB sa d a b []) fun dv _ vs =>
    let va := vecAt vs 0
    .ok (dv.putV d (f va.bits (vecAt vs 1).bits) va.tag va.scale)

/-- An element shift (R155): the amount is the low log2(w) bits of vB's bits at the element's place. -/
def vshift (s : State) (i : Instr) (sa : Bool) (d a b : Nat) (f : Nat → Nat → Nat → Nat) : Out :=
  issue s i { usesVAB sa d a b [] with
      tags := fun x =>
        let t := (x.getV a).tag
        if t == 0 || isIntTag t then none else some (tagVal t a) }
    fun dv _ vs =>
      let va := vecAt vs 0
      let t := tagOf va.tag
      let w := t.width
      let es := (List.range t.count).map fun e => f w (elemAt va.bits w e) (elemAt (vecAt vs 1).bits w e % w)
      .ok (dv.putV d (packElems w es) va.tag va.scale)

/-- VSHL, VSRL, VSRA of one element (R155). -/
def elemShl (w x n : Nat) : Nat := x * 2^n % 2^w
def elemShr (_w x n : Nat) : Nat := x / 2^n
def elemSar (w x n : Nat) : Nat := (intVal true w x / (2^n : Nat) % (2^w : Nat)).toNat

def execVand (sa : Bool) (b a d : BitVec 7) (s : State) : Out := vlogic s (.vand sa b a d) sa d.toNat a.toNat b.toNat fun x y => x &&& y
def execVor (sa : Bool) (b a d : BitVec 7) (s : State) : Out := vlogic s (.vor sa b a d) sa d.toNat a.toNat b.toNat fun x y => x ||| y
def execVxor (sa : Bool) (b a d : BitVec 7) (s : State) : Out := vlogic s (.vxor sa b a d) sa d.toNat a.toNat b.toNat fun x y => x ^^^ y
def execVshl (sa : Bool) (b a d : BitVec 7) (s : State) : Out := vshift s (.vshl sa b a d) sa d.toNat a.toNat b.toNat elemShl
def execVsrl (sa : Bool) (b a d : BitVec 7) (s : State) : Out := vshift s (.vsrl sa b a d) sa d.toNat a.toNat b.toNat elemShr
def execVsra (sa : Bool) (b a d : BitVec 7) (s : State) : Out := vshift s (.vsra sa b a d) sa d.toNat a.toNat b.toNat elemSar
def execVandC16 (src : BitVec 5) (d : BitVec 6) (s : State) : Out := vlogic s (.vandC16 src d) false d.toNat d.toNat src.toNat fun x y => x &&& y
def execVorC16 (src : BitVec 5) (d : BitVec 6) (s : State) : Out := vlogic s (.vorC16 src d) false d.toNat d.toNat src.toNat fun x y => x ||| y
def execVxorC16 (src : BitVec 5) (d : BitVec 6) (s : State) : Out := vlogic s (.vxorC16 src d) false d.toNat d.toNat src.toNat fun x y => x ^^^ y
def execVshlC16 (src : BitVec 5) (d : BitVec 6) (s : State) : Out := vshift s (.vshlC16 src d) false d.toNat d.toNat src.toNat elemShl
def execVsrlC16 (src : BitVec 5) (d : BitVec 6) (s : State) : Out := vshift s (.vsrlC16 src d) false d.toNat d.toNat src.toNat elemShr
def execVsraC16 (src : BitVec 5) (d : BitVec 6) (s : State) : Out := vshift s (.vsraC16 src d) false d.toNat d.toNat src.toNat elemSar

/-- VSEL (R156): lane j of vA where k1[j] is 1, else of vB; tag and scale word of vA. -/
def execVsel (sa : Bool) (b a d : BitVec 7) (s : State) : Out :=
  issue s (.vsel sa b a d) (usesVAB sa d.toNat a.toNat b.toNat []) fun dv x vs =>
    let va := vecAt vs 0
    let k1 := x.getK 1
    let es := (List.range 32).map fun j => elemAt (if k1.getLsbD j then va.bits else (vecAt vs 1).bits) 32 j
    .ok (dv.putV d.toNat (packElems 32 es) va.tag va.scale)

/-- VRELU (R154): writes scale word 1.0. -/
def relu (s : State) (i : Instr) (sa : Bool) (d a : Nat) : Out :=
  issue s i { usesVA sa d a with tags := fun x => checkTags accArith x [a] } fun dv _ vs =>
    let va := vecAt vs 0
    let t := tagOf va.tag
    .ok (dv.putV d (packElems t.width ((elemsOf t va).map (reluElem t))) va.tag scaleOne)

def execVrelu (sa : Bool) (a d : BitVec 7) (s : State) : Out := relu s (.vrelu sa a d) sa d.toNat a.toNat
def execVreluC16 (src : BitVec 5) (d : BitVec 6) (s : State) : Out := relu s (.vreluC16 src d) false d.toNat src.toNat

/-- VMOV (R157): vS with its tag and scale word. -/
def execVmov (src : BitVec 5) (d : BitVec 6) (s : State) : Out :=
  issue s (.vmov src d) (usesVA false d.toNat src.toNat) fun dv _ vs =>
    let va := vecAt vs 0
    .ok (dv.putV d.toNat va.bits va.tag va.scale)

/-- VNEG, VABS (R157). -/
def signOp (s : State) (i : Instr) (d a : Nat) (f : Tag → Nat → Elem) : Out :=
  issue s i { usesVA false d a with tags := fun x => checkTags accArith x [a] } fun dv _ vs =>
    let va := vecAt vs 0
    let t := tagOf va.tag
    let es := (elemsOf t va).map (f t)
    .ok ((dv.putV d (packElems t.width (es.map Prod.fst)) va.tag scaleOne).roundDone (flagsOf es) false)

def execVneg (src : BitVec 5) (d : BitVec 6) (s : State) : Out := signOp s (.vneg src d) d.toNat src.toNat negElem
def execVabs (src : BitVec 5) (d : BitVec 6) (s : State) : Out := signOp s (.vabs src d) d.toNat src.toNat absElem

/-- VSWAP (R157): exchanges two registers with tags, scale words and full bits; a stream-bound register raises BIND. -/
def execVswap (src : BitVec 5) (d : BitVec 6) (s : State) : Out :=
  let a := src.toNat
  let e := d.toNat
  issue s (.vswap src d)
    { reads := [.v a, .v e]
      report := [.v e, .v a]
      binds := fun k slot =>
        if (k.bindingOf slot (.v e)).isSome then some (Reg.v e).report
        else if (k.bindingOf slot (.v a)).isSome then some (Reg.v a).report else none }
    fun dv x _ =>
      let va := x.getV a
      let vd := x.getV e
      .ok (dv.onCur fun y => (y.putV e va).putV a vd)

/-- A compare into a mask (R158): bit j when every element of lane j meets the condition. -/
def vcompare (s : State) (i : Instr) (sa : Bool) (d : BitVec 3) (a b : Nat) (f : Option Ordering → Bool) : Out :=
  issue s i
    { sync := if sa then some (.v a) else none
      reads := [.v a, .v b]
      report := [.v a, .v b]
      tags := fun x => checkTags accArithSp x [a, b] }
    fun dv _ vs =>
      let va := vecAt vs 0
      let vb := vecAt vs 1
      let t := tagOf va.tag
      let per := 32 / t.width
      let lane (j : Nat) : Bool := (List.range per).all fun n =>
        let e := j * per + n
        f ((elemNum t (elemAt va.bits t.width e)).compare (elemNum t (elemAt vb.bits t.width e)))
      let m := BitVec.ofNat 32 ((List.range 32).foldr (fun j acc => (lane j).toNat + 2 * acc) 0)
      .ok (dv.onCur fun x => x.writeK d.toNat m)

def execVceq (sa : Bool) (b a : BitVec 7) (d : BitVec 3) (s : State) : Out :=
  vcompare s (.vceq sa b a d) sa d a.toNat b.toNat fun o => o == some .eq
def execVcne (sa : Bool) (b a : BitVec 7) (d : BitVec 3) (s : State) : Out :=
  vcompare s (.vcne sa b a d) sa d a.toNat b.toNat fun o => o != some .eq
def execVclt (sa : Bool) (b a : BitVec 7) (d : BitVec 3) (s : State) : Out :=
  vcompare s (.vclt sa b a d) sa d a.toNat b.toNat fun o => o == some .lt
def execVcle (sa : Bool) (b a : BitVec 7) (d : BitVec 3) (s : State) : Out :=
  vcompare s (.vcle sa b a d) sa d a.toNat b.toNat fun o => o == some .lt || o == some .eq

def execKand (b a d : BitVec 3) (s : State) : Out :=
  issue s (.kand b a d) {} fun dv x _ => .ok (dv.onCur fun y => y.writeK d.toNat (x.getK a.toNat &&& x.getK b.toNat))
def execKor (b a d : BitVec 3) (s : State) : Out :=
  issue s (.kor b a d) {} fun dv x _ => .ok (dv.onCur fun y => y.writeK d.toNat (x.getK a.toNat ||| x.getK b.toNat))
def execKnot (a d : BitVec 3) (s : State) : Out :=
  issue s (.knot a d) {} fun dv x _ => .ok (dv.onCur fun y => y.writeK d.toNat (~~~(x.getK a.toNat)))

/-- The registers from n on, count of them. -/
def vRange (n count : Nat) : List Reg := (List.range count).map fun j => .v (n + j)

/-- Splits a list into parts of n. -/
def chunks {α : Type} (n : Nat) : Nat → List α → List (List α)
  | 0, _ => []
  | k + 1, l => l.take n :: chunks n k (l.drop n)

/-- Writes consecutive vector registers. -/
def Device.putVs (d : Device) (n w : Nat) (parts : List (List Nat)) (tag : BitVec 4) (scale : Lane) : Device :=
  ((List.range parts.length).zip parts).foldl (fun dv p => dv.putV (n + p.1) (packElems w p.2) tag scale) d

/-- VCVT (R69, R70, R159): the ranges follow from the source's and the target's element widths. A refused source tag is named before
a refused target code (assumption 97, DESIGN CHOICE), and the destination range that step 5 checks for a refused code is that of a
32-bit target (assumption 98, DESIGN CHOICE): the spec gives neither. -/
def vcvt (s : State) (i : Instr) (mode : RMode) (sa : Bool) (code : BitVec 4) (a d : BitVec 7) : Out :=
  let srcTag := match s.dev.cur with
    | some x => ((s.dev.foretold x).getV a.toNat).tag
    | none => 0
  let st := tagOf srcTag
  let tt := tagOf code
  let ns := if tt.width < st.width then st.width / tt.width else 1
  let nd := if st.width < tt.width then tt.width / st.width else 1
  let src := vRange a.toNat ns
  let dst := vRange d.toNat nd
  issue s i
    { sync := if sa then some (.v a.toNat) else none
      reads := src
      writes := dst
      report := dst ++ src
      tags := fun x =>
        match checkTags (fun c => c != 0) x ((List.range ns).map fun j => a.toNat + j) with
        | some v => some v
        | none => if code == 0 || reservedCode code then some (tagVal code d.toNat) else none }
    fun dv x vs =>
      let scaledSrc := srcTag == 8 || srcTag == 9
      let sd := if scaledSrc then (vecAt vs 0).scale else scaleOne
      let env : RoundEnv := ⟨mode, x.regs.sys.srseed.setWidth 32, x.regs.sys.srctr⟩
      let xs := ((List.range ns).map fun j => (elemsOf st (vecAt vs j)).map fun v => (v, (vecAt vs j).scale)).flatten
      let es := (List.range xs.length).zip xs |>.map fun p =>
        if srcTag == code then
          -- R70: a tag converted to itself is returned unchanged, NaN and SP32 zero written canonically
          match tt with
          | .float f => (if decodeNum f p.2.1 = .nan then f.nan else if f = .sp32 ∧ (decodeNum f p.2.1).isZero then 0 else p.2.1, (0 : Flags))
          | _ => (p.2.1, 0)
        else cvtElem st tt p.2.2 sd (env.at_ p.1) p.2.1
      .ok ((dv.putVs d.toNat tt.width (chunks tt.count nd (es.map Prod.fst)) code sd).roundDone (flagsOf es)
        (mode == .sr))

def execVcvtRne (sa : Bool) (tag : BitVec 4) (a d : BitVec 7) (s : State) : Out := vcvt s (.vcvtRne sa tag a d) .rne sa tag a d
def execVcvtRtz (sa : Bool) (tag : BitVec 4) (a d : BitVec 7) (s : State) : Out := vcvt s (.vcvtRtz sa tag a d) .rtz sa tag a d
def execVcvtRdn (sa : Bool) (tag : BitVec 4) (a d : BitVec 7) (s : State) : Out := vcvt s (.vcvtRdn sa tag a d) .rdn sa tag a d
def execVcvtRup (sa : Bool) (tag : BitVec 4) (a d : BitVec 7) (s : State) : Out := vcvt s (.vcvtRup sa tag a d) .rup sa tag a d
def execVcvtSr (sa : Bool) (tag : BitVec 4) (a d : BitVec 7) (s : State) : Out := vcvt s (.vcvtSr sa tag a d) .sr sa tag a d
def execVcvtSatrne (sa : Bool) (tag : BitVec 4) (a d : BitVec 7) (s : State) : Out := vcvt s (.vcvtSatrne sa tag a d) .satrne sa tag a d

/-- A VFN function (R160). -/
def vfn (s : State) (i : Instr) (fn : Fn) (sa : Bool) (a d : BitVec 7) : Out :=
  issue s i { usesVA sa d.toNat a.toNat with tags := fun x => checkTags isFloatTag x [a.toNat] } fun dv x vs =>
    let va := vecAt vs 0
    let t := tagOf va.tag
    let f := match t with
      | .float f => f
      | _ => .f32
    let env := x.rounding
    let xs := elemsOf t va
    let es := (List.range xs.length).zip xs |>.map fun p =>
      let (y, fl) := fnValue fn (decodeNum f p.2)
      let (b, g) := roundNum f (env.at_ p.1) y
      (b, fl ||| g)
    .ok ((dv.putV d.toNat (packElems t.width (es.map Prod.fst)) va.tag scaleOne).roundDone (flagsOf es)
      (env.mode == .sr))

def execVexp2 (sa : Bool) (a d : BitVec 7) (s : State) : Out := vfn s (.vexp2 sa a d) .exp2 sa a d
def execVlog2 (sa : Bool) (a d : BitVec 7) (s : State) : Out := vfn s (.vlog2 sa a d) .log2 sa a d
def execVrcp (sa : Bool) (a d : BitVec 7) (s : State) : Out := vfn s (.vrcp sa a d) .rcp sa a d
def execVrsq (sa : Bool) (a d : BitVec 7) (s : State) : Out := vfn s (.vrsq sa a d) .rsq sa a d
def execVsqrt (sa : Bool) (a d : BitVec 7) (s : State) : Out := vfn s (.vsqrt sa a d) .sqrt sa a d
def execVtanh (sa : Bool) (a d : BitVec 7) (s : State) : Out := vfn s (.vtanh sa a d) .tanh sa a d
def execVexp (sa : Bool) (a d : BitVec 7) (s : State) : Out := vfn s (.vexp sa a d) .exp sa a d
def execVsigm (sa : Bool) (a d : BitVec 7) (s : State) : Out := vfn s (.vsigm sa a d) .sigm sa a d

/-- The elements that take part, others absent: bit j of the mask governs every element of lane j (R161). -/
def maskedElems (t : Tag) (r : VReg) (m : BitVec 32) : List (Option Nat) :=
  (List.range t.count).map fun e =>
    if m.getLsbD (e * t.width / 32) then some (elemAt r.bits t.width e) else none

/-- One level of the tree of VRSUM: node i adds children 2i and 2i + 1 with draw index base + i (R163). -/
def treeLevel (add : Nat → Num → Num → Num × Flags) (base : Nat) : Nat → List (Option Num) → List (Option Num) × Flags
  | i, a :: b :: r =>
    let (h, fl) : Option Num × Flags :=
      match a, b with
      | some x, some y => let (z, g) := add (base + i) x y; (some z, g)
      | some x, none => (some x, 0)
      | none, y => (y, 0)
    let (tl, g) := treeLevel add base (i + 1) r
    (h :: tl, fl ||| g)
  | _, l => (l, 0)

/-- The whole tree, level by level. -/
def treeSum (add : Nat → Num → Num → Num × Flags) : Nat → Nat → List (Option Num) → Option Num × Flags
  | 0, _, l => ((l.head?).join, 0)
  | k + 1, base, l =>
    if l.length ≤ 1 then ((l.head?).join, 0)
    else
      let (l', fl) := treeLevel add base 0 l
      let (r, g) := treeSum add k (base + l'.length) l'
      (r, fl ||| g)

/-- `Add` of R163 on an accumulation format: F32 for floats, SP32 for SP32; the sum and its flags. -/
def accAdd (f : Fmt) (env : RoundEnv) (e : Nat) (x y : Num) : Num × Flags :=
  let md := if f = .sp32 then .rne else env.mode
  let t := x.add md y
  let (b, fl) := roundM f env e t [x, y]
  (decodeNum f b, fl)

/-- The entry of RRES for an element or result value (R162). -/
def rresEntry (t : Tag) (x : Num) : Word :=
  match t with
  | .float .sp32 => BitVec.ofNat 64 (rne .sp32 x)
  | .float _ => BitVec.ofNat 64 (rne .f32 x)
  | _ =>
    match x with
    | .fin neg m _ _ => BitVec.ofInt 64 (if neg then -(m : Int) else m)
    | _ => 0

/-- The accumulation format of a tag. -/
def accFmt (t : Tag) : Fmt := if t = .float .sp32 then .sp32 else .f32

/-- VRSUM's value (R163). -/
def rsumValue (t : Tag) (env : RoundEnv) (xs : List (Option Nat)) : Word × Flags :=
  match t with
  | .int s w =>
    (BitVec.ofInt 64 (xs.foldl (fun a x => a + (match x with
      | some v => intVal s w v
      | none => 0)) 0), 0)
  | _ =>
    let (r, fl) := treeSum (accAdd (accFmt t) env) 8 0 (xs.map fun o => o.map (elemNum t))
    (match r with
      | some v => rresEntry t v
      | none => 0, fl)

/-- Greater in the order of VRMAX, NaN above every number (R164). -/
def aboveMax (x y : Num) : Bool :=
  match x, y with
  | .nan, .nan => false
  | .nan, _ => true
  | _, .nan => false
  | x, y => x.order y == some .gt

/-- VRMAX's or VRMIN's value (R164): least when `least` is set. -/
def extremeValue (least : Bool) (t : Tag) (xs : List (Option Nat)) : Word :=
  let ys := xs.filterMap fun o => o.map (elemNum t)
  match ys with
  | [] => 0
  | y :: rest =>
    if ys.any (· == .nan) then rresEntry t .nan
    else rresEntry t (rest.foldl (fun a b => if least then numMin a b else numMax a b) y)

/-- VRAMX's value (R164). -/
def argMaxValue (t : Tag) (xs : List (Option Nat)) : Word :=
  let best := ((List.range xs.length).zip xs).foldl (fun (acc : Option (Nat × Num)) p =>
    match p.2 with
    | none => acc
    | some v =>
      let y := elemNum t v
      match acc with
      | none => some (p.1, y)
      | some (_, z) => if aboveMax y z then some (p.1, y) else acc) none
  match best with
  | none => 0xFFFFFFFF00000000
  | some (e, y) => BitVec.ofNat 64 (e * 2^32) ||| ((rresEntry t y).setWidth 32).setWidth 64

/-- A lane reduction at issue (R27, R162): gD := the sequence number; the value goes to RRES when it completes. -/
def reduction (s : State) (i : Instr) (sa : Bool) (b : BitVec 3) (a d : BitVec 7) (rounds : Bool)
    (f : Tag → RoundEnv → List (Option Nat) → Word × Flags) : Out :=
  issue s i
    { sync := if sa then some (.v a.toNat) else none
      reads := [.v a.toNat]
      writes := [.g d.toNat]
      report := [.g d.toNat, .v a.toNat]
      outside := true
      inner := true
      tags := fun x => checkTags accArithSp x [a.toNat] }
    fun dv x vs =>
      let va := vecAt vs 0
      let t := tagOf va.tag
      let env := x.rounding
      let (v, fl) := f t env (maskedElems t va (x.getK b.toNat))
      let k := dv.me
      let n := k.redCtr
      let dv1 := dv.onMe fun k =>
        { k with
          redCtr := k.redCtr + 1
          reductions := k.reductions ++ [{ seq := n, value := v, slot := dv.slot, held := false, launch := x.launch, tid := x.tid, at_ := dv.me.cyc }] }
      let dv2 := dv1.onCur fun y => { y with reductions := y.reductions ++ [n] }
      .ok ((dv2.putG d.toNat (n.setWidth 64)).roundDone fl (rounds && isFloatTag va.tag && env.mode == .sr))

def execVrsum (sa : Bool) (b : BitVec 3) (a d : BitVec 7) (s : State) : Out :=
  reduction s (.vrsum sa b a d) sa b a d true rsumValue
def execVrmax (sa : Bool) (b : BitVec 3) (a d : BitVec 7) (s : State) : Out :=
  reduction s (.vrmax sa b a d) sa b a d false fun t _ xs => (extremeValue false t xs, 0)
def execVrmin (sa : Bool) (b : BitVec 3) (a d : BitVec 7) (s : State) : Out :=
  reduction s (.vrmin sa b a d) sa b a d false fun t _ xs => (extremeValue true t xs, 0)
def execVramx (sa : Bool) (b : BitVec 3) (a d : BitVec 7) (s : State) : Out :=
  reduction s (.vramx sa b a d) sa b a d false fun t _ xs => (argMaxValue t xs, 0)

/-- The running sum of VSCAN (R165): the elements written and the flags. -/
def scanElems (t : Tag) (env : RoundEnv) : Nat → Option Num → List (Option Nat) → List Elem
  | _, _, [] => []
  | e, run, x :: rest =>
    match t with
    | .int s w =>
      let (run', fl) : Option Num × Flags :=
        match x, run with
        | none, r => (r, 0)
        | some v, none => (some (elemNum t v), 0)
        | some v, some (.fin neg m _ _) =>
          let (b, fl) := satInt s w ((if neg then -(m : Int) else m) + intVal s w v)
          (some (elemNum t b), fl)
        | some v, some _ => (some (elemNum t v), 0)
      let out := match run' with
        | some (.fin neg m _ _) => ((if neg then -(m : Int) else m) % (2^w : Nat)).toNat
        | _ => 0
      (out, fl) :: scanElems t env (e + 1) run' rest
    | .float f =>
      let acc := accFmt t
      let (run', fl) : Option Num × Flags :=
        match x, run with
        | none, r => (r, 0)
        | some v, none => (some (decodeNum acc (rne acc (elemNum t v))), 0)
        | some v, some r => let (z, g) := accAdd acc env e r (elemNum t v); (some z, g)
      let (b, g) := match run' with
        | some r => roundM f env e r [r]
        | none => (0, 0)
      (b, fl ||| g) :: scanElems t env (e + 1) run' rest
    | _ => (0, 0) :: scanElems t env (e + 1) run rest

def execVscan (sa : Bool) (b : BitVec 3) (a d : BitVec 7) (s : State) : Out :=
  issue s (.vscan sa b a d) { usesVA sa d.toNat a.toNat with tags := fun x => checkTags accArithSp x [a.toNat] } fun dv x vs =>
    let va := vecAt vs 0
    let t := tagOf va.tag
    let env := x.rounding
    let es := scanElems t env 0 none (maskedElems t va (x.getK b.toNat))
    .ok ((dv.putV d.toNat (packElems t.width (es.map Prod.fst)) va.tag scaleOne).roundDone (flagsOf es)
      (isFloatTag va.tag && env.mode == .sr))

/-- VPERM (R166). -/
def execVperm (sa : Bool) (b a d : BitVec 7) (s : State) : Out :=
  issue s (.vperm sa b a d) (usesVAB sa d.toNat a.toNat b.toNat []) fun dv _ vs =>
    let va := vecAt vs 0
    let vb := vecAt vs 1
    .ok (dv.putV d.toNat (packElems 32 ((List.range 32).map fun j => elemAt va.bits 32 (elemAt vb.bits 32 j % 32))) va.tag va.scale)

/-- Inserts a lane after every lane it does not sort before (R167). -/
def sortInsert (lt : Nat × Nat → Nat × Nat → Bool) (x : Nat × Nat) : List (Nat × Nat) → List (Nat × Nat)
  | [] => [x]
  | y :: r => if lt x y then x :: y :: r else y :: sortInsert lt x r

/-- VSORT's order: by value, −0 before +0, NaN after every number (R167). -/
def sortLt (t : Tag) (x y : Nat × Nat) : Bool :=
  match elemNum t x.1, elemNum t y.1 with
  | .nan, _ => false
  | _, .nan => true
  | a, b => a.order b == some .lt

def execVsort (sa : Bool) (b : BitVec 3) (a d : BitVec 7) (s : State) : Out :=
  issue s (.vsort sa b a d)
    { sync := if sa then some (.v a.toNat) else none
      reads := [.v a.toNat]
      writes := [.v d.toNat, .v (d.toNat + 1)]
      report := [.v d.toNat, .v (d.toNat + 1), .v a.toNat]
      tags := fun x => checkTags (fun c => c == 1 || c == 2 || c == 3 || c == 0xA) x [a.toNat] }
    fun dv x vs =>
      let va := vecAt vs 0
      let m := x.getK b.toNat
      let lanes := (List.range 32).map fun j => (elemAt va.bits 32 j, j)
      let inn := (lanes.filter fun p => m.getLsbD p.2).foldl (fun acc p => sortInsert (sortLt (tagOf va.tag)) p acc) []
      let all := inn ++ lanes.filter fun p => !m.getLsbD p.2
      let dv1 := dv.putV d.toNat (packElems 32 (all.map Prod.fst)) va.tag va.scale
      .ok (dv1.putV (d.toNat + 1) (packElems 32 (all.map Prod.snd)) 2 scaleOne)

/-- TAG for a code in B that the instruction refuses (R59). -/
def codeTrap (ok : BitVec 4 → Bool) (code : BitVec 4) (d : Nat) : Context → Option Word :=
  fun _ => if ok code then none else some (tagVal code d)

/-- VSPLAT (R168). -/
def execVsplat (sa : Bool) (tag : BitVec 4) (a d : BitVec 7) (s : State) : Out :=
  issue s (.vsplat sa tag a d)
    { sync := if sa then some (.g a.toNat) else none
      reads := [.g a.toNat], writes := [.v d.toNat], report := [.v d.toNat, .g a.toNat]
      tags := codeTrap (fun c => !reservedCode c) tag d.toNat }
    fun dv _ vs =>
      let t := tagOf tag
      .ok (dv.putV d.toNat (packElems t.width (List.replicate t.count (wordAt vs 0).toNat)) tag scaleOne)

/-- VINS (R168): vD is read as well as written; its tag and scale word stay. -/
def execVins (sa : Bool) (b a d : BitVec 7) (s : State) : Out :=
  issue s (.vins sa b a d)
    { sync := if sa then some (.g a.toNat) else none
      reads := [.g a.toNat, .g b.toNat, .v d.toNat]
      writes := [.v d.toNat]
      report := [.v d.toNat, .g a.toNat, .g b.toNat] }
    fun dv _ vs =>
      let vd := vecAt vs 2
      let t := tagOf vd.tag
      let n := (wordAt vs 1).toNat % t.count
      .ok (dv.putV d.toNat (packElems t.width ((elemsOf t vd).set n (wordAt vs 0).toNat)) vd.tag vd.scale)

/-- VEXT (R168). -/
def execVext (sa : Bool) (b a d : BitVec 7) (s : State) : Out :=
  issue s (.vext sa b a d)
    { sync := if sa then some (.v a.toNat) else none
      reads := [.v a.toNat, .g b.toNat]
      writes := [.g d.toNat]
      report := [.g d.toNat, .v a.toNat, .g b.toNat] }
    fun dv _ vs =>
      let va := vecAt vs 0
      let t := tagOf va.tag
      let x := elemAt va.bits t.width ((wordAt vs 1).toNat % t.count)
      .ok (dv.putG d.toNat (match t with
        | .int sg w => BitVec.ofInt 64 (intVal sg w x)
        | _ => BitVec.ofNat 64 x))

/-- VIDX (R168). -/
def execVidx (sa : Bool) (tag : BitVec 4) (a d : BitVec 7) (s : State) : Out :=
  issue s (.vidx sa tag a d)
    { sync := if sa then some (.g a.toNat) else none
      reads := [.g a.toNat], writes := [.v d.toNat], report := [.v d.toNat, .g a.toNat]
      tags := codeTrap isIntTag tag d.toNat }
    fun dv _ vs =>
      let t := tagOf tag
      .ok (dv.putV d.toNat (packElems t.width ((List.range t.count).map fun e => (wordAt vs 0).toNat + e)) tag scaleOne)

/-- VTAG (R168): the bits and scale word of vA under another tag. -/
def execVtag (sa : Bool) (tag : BitVec 4) (a d : BitVec 7) (s : State) : Out :=
  issue s (.vtag sa tag a d) { usesVA sa d.toNat a.toNat with tags := codeTrap (fun c => !reservedCode c) tag d.toNat } fun dv _ vs =>
    let va := vecAt vs 0
    .ok (dv.putV d.toNat va.bits tag va.scale)

/-- VQNT (R169). A source whose tag it refuses is checked as one register at step 5: R169 gives a range for F32, BF16 and F16 alone
(assumption 98, DESIGN CHOICE). -/
def execVqnt (sa : Bool) (tag : BitVec 4) (a d : BitVec 7) (s : State) : Out :=
  let srcTag := match s.dev.cur with
    | some x => ((s.dev.foretold x).getV a.toNat).tag
    | none => 0
  let st := tagOf srcTag
  let ns := if srcTag == 3 then 4 else if isFloatTag srcTag then 2 else 1
  issue s (.vqnt sa tag a d)
    { sync := if sa then some (.v a.toNat) else none
      reads := vRange a.toNat ns
      writes := [.v d.toNat]
      report := .v d.toNat :: vRange a.toNat ns
      tags := fun x =>
        match checkTags isFloatTag x ((List.range ns).map fun j => a.toNat + j) with
        | some v => some v
        | none => if tag == 8 || tag == 9 then none else some (tagVal tag d.toNat) }
    fun dv _ vs =>
      let f : Fmt := if tag == 8 then .e4m3 else .e5m2
      let xs := (((List.range ns).map fun j => elemsOf st (vecAt vs j)).flatten).map (elemNum st)
      let (es, fl, sc) := quantise f xs
      .ok ((dv.putV d.toNat (packElems 8 es) tag sc).roundDone fl false)

def execKpop (a : BitVec 3) (d : BitVec 7) (s : State) : Out :=
  issue s (.kpop a d) (usesD d) fun dv x _ =>
    .ok (dv.putG d.toNat (BitVec.ofNat 64 ((List.range 32).countP fun j => (x.getK a.toNat).getLsbD j)))
def execKmovToMask (sa : Bool) (a : BitVec 7) (d : BitVec 3) (s : State) : Out :=
  issue s (.kmovToMask sa a d) (usesA sa a) fun dv _ vs => .ok (dv.onCur fun x => x.writeK d.toNat ((wordAt vs 0).setWidth 32))
def execKmovFromMask (a : BitVec 3) (d : BitVec 7) (s : State) : Out :=
  issue s (.kmovFromMask a d) (usesD d) fun dv x _ => .ok (dv.putG d.toNat ((x.getK a.toNat).setWidth 64))

/-- RAND (R170). -/
def execRand (sa : Bool) (b a d : BitVec 7) (s : State) : Out :=
  scalar2 s (.rand sa b a d) sa d a b fun x y => (mix32 (x.setWidth 32) (y.setWidth 32)).setWidth 64
/-- VRAND (R170). -/
def execVrand (sa : Bool) (b a d : BitVec 7) (s : State) : Out :=
  issue s (.vrand sa b a d)
    { sync := if sa then some (.g a.toNat) else none
      reads := [.g a.toNat, .g b.toNat], writes := [.v d.toNat], report := [.v d.toNat, .g a.toNat, .g b.toNat] }
    fun dv _ vs =>
      let key : BitVec 32 := (wordAt vs 0).setWidth 32
      let ctr : BitVec 32 := (wordAt vs 1).setWidth 32
      .ok (dv.putV d.toNat (packElems 32 ((List.range 32).map fun j => (mix32 key (ctr + BitVec.ofNat 32 j)).toNat)) 2 scaleOne)

/-- BADDQ (R193): adds two scaled E4M3 blocks in F32 and requantises; sets no flag. -/
def execBaddq (sa : Bool) (b a d : BitVec 7) (s : State) : Out :=
  issue s (.baddq sa b a d)
    { usesVAB sa d.toNat a.toNat b.toNat [] with tags := fun x => checkTags (fun c => c == 8) x [a.toNat, b.toNat] }
    fun dv _ vs =>
      let va := vecAt vs 0
      let vb := vecAt vs 1
      let t : Tag := .float .e4m3
      let ts := (List.range 128).map fun e =>
        decodeNum .f32 (rne .f32 ((elemValue t va.scale (elemAt va.bits 8 e)).add .rne (elemValue t vb.scale (elemAt vb.bits 8 e))))
      let k := quantScale (amaxOf ts) (decodeNum .e4m3 0x7E)
      let es := ts.map fun x =>
        match x with
        | .nan => 0x7F
        | .inf neg => if neg then 0xFE else 0x7E
        | x => rne .e4m3 (x.mul (pow2Num (-k)))
      .ok (dv.putV d.toNat (packElems 8 es) 8 (BitVec.ofNat 32 (rne .f32 (pow2Num k))))

end Sys2Proof.Machine
end

