-- ==== Sys2Proof/Machine/Access.lean ====
section
/-! DEFINITION. Memory, atomic and synchronising accesses as they issue (R121 to R142): alignment, location, the parts of
the access, and what it leaves pending. What happens at the owning ports is in Ports and Arrive. -/
namespace Sys2Proof.Machine

/-- Not a multiple of its alignment (R121). -/
def misaligned (a : Word) (n : Nat) : Bool := a.toNat % n != 0

/-- Alignment of a 128-byte access: 4 in the lane-slice window (R121, R122). -/
def vecAlign (a : Word) : Nat := if a.toNat / 2^48 = 0xFE03 then 4 else 128

/-- An access instruction once its operands are read and its places known. -/
structure Ask where
  kind : AccessKind
  addr : Word
  scope : BitVec 2
  strong : Bool
  pieces : List Piece
  /-- Destination registers (R24), and the first of them. -/
  dests : List Reg
  left : Nat
  expiry : Option (Nat × BitVec 8) := none
  deriving DecidableEq, Repr

/-- Checks of one address of a VF in the order of R124, then the continuation with its place. -/
def withPlaceOf (m : Memory) (d : Device) (x : Context) (vf : Nat) (a : Word) (align : Nat) (need : BitVec 3) (q : Demand)
    (k : Device → Place → Verdict) : Verdict :=
  if misaligned a align then .trap cALIGN a
  else
    match locate m d d.core x.part vf (some (x, d.slot)) true a need q with
    | (.trap c v, _) => .trap c v
    | (.fault cls v n, _) => .sweep cls v n
    | (.migrating, _) => .retry
    | (.ship die line, _) => .ship die line
    | (.at_ p, d1) => k d1 p

/-- Checks of one address of a context. -/
def withPlace (m : Memory) (d : Device) (x : Context) (a : Word) (align : Nat) (need : BitVec 3) (q : Demand)
    (k : Device → Place → Verdict) : Verdict := withPlaceOf m d x x.vf a align need q k

/-- A part of at most 8 bytes. -/
def onePiece (p : Place) (n : Nat) (x : Word) : List Piece := [{ port := p.port, key := p.key, bytes := n, data := x }]

/-- A part with an address of its own. -/
def ownPiece (p : Place) (n : Nat) (x a : Word) : List Piece := [{ port := p.port, key := p.key, bytes := n, data := x, own := some a }]

/-- The 8-byte words of n bytes from a place, with data. -/
def wordPieces (p : Place) (n : Nat) (x : Nat) : List Piece :=
  (List.range (n / 8)).map fun i =>
    { port := p.port, key := p.key + 8 * i, bytes := 8, data := BitVec.ofNat 64 (x / 2^(64 * i)), tile := p.tile }

/-- A vector access: sixteen words, or four bytes in each lane's own slice (R122). -/
def vecPieces (p : Place) (x : VBits) : List Piece :=
  match p.port with
  | .lane _ =>
    (List.range 32).map fun j =>
      { port := p.port, key := p.key + 4096 * j, bytes := 4, data := BitVec.ofNat 64 (elemAt x 32 j) }
  | _ => wordPieces p 128 x.toNat

/-- Where the generators bound to registers of a slot stand: generator and elements popped or appended. -/
def streamsOf (k : Core) (slot : Nat) : List (Nat × Nat) :=
  k.gens.zipIdx.filterMap fun q =>
    match q.1.bound with
    | some b => if b.1 = slot then some (q.2, q.1.position) else none
    | none => none

/-- Whether the kind counts among the writes sent to a die (R259). -/
def AccessKind.counted : AccessKind → Bool
  | .store => true
  | .tileStore => true
  | .stf _ => true
  | .amo _ _ _ => true
  | _ => false

/-- Sends an access: it stands in flight until it has performed and its result has arrived (R146, R251). -/
def begin_ (s : State) (d : Device) (x : Context) (a : Ask) : Device × Option Pending :=
  let id := d.nextAccess
  let (d1, places) := reservePlaces d a.dests
  let acc : Access :=
    { id := id
      core := d.core
      slot := d.slot
      tid := x.tid
      part := x.part
      vf := x.vf
      launch := x.launch
      seq := x.seq
      kind := a.kind
      addr := a.addr
      scope := a.scope
      strong := a.strong
      pieces := a.pieces
      before := s.dev.cur.map Context.regs
      after := x.rels
      streams := streamsOf s.dev.me s.dev.slot
      monitor := s.dev.cur.bind Context.monitor
      dest := a.dests.head?
      expiry := a.expiry }
  let dies := (a.pieces.map fun p => p.port.die).eraseDups
  let d2 : Device := { d1 with accesses := d1.accesses ++ [acc], nextAccess := id + 1 }
  let d3 := if a.kind.counted then
      d2.onMe fun k => { k with sent := dies.foldl (fun l die => assocPut die (((assocGet die l).getD 0) + 1) l) k.sent }
    else d2
  let d4 := d3.onCur fun y => { y with seq := y.seq + 1 }
  (d4, if a.kind.long then
    some { id := id, dests := a.dests.filter (· != .g 0), left := a.left, arrived := false, mayFault := true, due := none, reserved := places }
  else none)

/-- An access that leaves the context going on. -/
def sendOn (s : State) (d : Device) (x : Context) (a : Ask) : Verdict :=
  let (d1, p) := begin_ s d x a
  .done d1 [] none p

/-- LOAD with a scalar width (R125). -/
def loadOp (s : State) (i : Instr) (la : BitVec 4) (sc : BitVec 2) (str : Bool) (a d : BitVec 7) (signed : Bool) (n : Nat) : Out :=
  let u := usesDA false d a
  issue s i u fun dv x vs =>
    let ad := wordAt vs 0
    withPlace s.mem dv x ad n needR .plain fun dv p =>
      sendOn s dv x ⟨.load signed n, ad, sc, str, onePiece p n 0, [.g d.toNat], la.toNat, none⟩

/-- LOAD of a vector (R125). -/
def loadVOp (s : State) (i : Instr) (la : BitVec 4) (sc : BitVec 2) (str : Bool) (a d : BitVec 7) (tag : BitVec 4) : Out :=
  let u : Uses := { reads := [.g a.toNat], writes := [.v d.toNat], report := [.v d.toNat, .g a.toNat] }
  issue s i u fun dv x vs =>
    let ad := wordAt vs 0
    withPlace s.mem dv x ad (vecAlign ad) needR .vector fun dv p =>
      sendOn s dv x ⟨.loadV tag, ad, sc, str, vecPieces p 0, [.v d.toNat], la.toNat, none⟩

/-- STORE of a scalar width (R126): the context goes on at its next turn. -/
def storeOp (s : State) (i : Instr) (sc : BitVec 2) (str : Bool) (a d : BitVec 7) (n : Nat) : Out :=
  let u : Uses := { reads := [.g a.toNat, .g d.toNat], report := [.g d.toNat, .g a.toNat] }
  issue s i u fun dv x vs =>
    let ad := wordAt vs 0
    withPlace s.mem dv x ad n needW .plain fun dv p =>
      sendOn s dv x ⟨.store, ad, sc, str, onePiece p n (wordAt vs 1), [], 0, none⟩

/-- SV (R126): tag and scale word are not stored. -/
def execSv (sc : BitVec 2) (str : Bool) (a d : BitVec 7) (s : State) : Out :=
  let u : Uses := { reads := [.g a.toNat, .v d.toNat], report := [.v d.toNat, .g a.toNat] }
  issue s (.sv sc str a d) u fun dv x vs =>
    let ad := wordAt vs 0
    withPlace s.mem dv x ad (vecAlign ad) needW .vector fun dv p =>
      sendOn s dv x ⟨.store, ad, sc, str, vecPieces p (vecAt vs 1).bits, [], 0, none⟩

/-- LVS (R128): data first, then the scale word. -/
def loadScaledOp (s : State) (i : Instr) (la : BitVec 4) (b a d : BitVec 7) (tag : BitVec 4) : Out :=
  let u : Uses := { reads := [.g a.toNat, .g b.toNat], writes := [.v d.toNat], report := [.v d.toNat, .g a.toNat, .g b.toNat] }
  issue s i u fun dv x vs =>
    let ad := wordAt vs 0
    withPlace s.mem dv x ad (vecAlign ad) needR .vector fun dv p =>
      withPlace s.mem dv x (wordAt vs 1) 4 needR .plain fun dv q =>
        sendOn s dv x ⟨.loadScaled tag, ad, 3, false, vecPieces p 0 ++ ownPiece q 4 0 (wordAt vs 1), [.v d.toNat], la.toNat, none⟩

def execLvsE4 (la : BitVec 4) (b a d : BitVec 7) (s : State) : Out := loadScaledOp s (.lvsE4 la b a d) la b a d 8
def execLvsE5 (la : BitVec 4) (b a d : BitVec 7) (s : State) : Out := loadScaledOp s (.lvsE5 la b a d) la b a d 9

/-- SVS (R128): the scale write is applied after the data write. -/
def execSvs (b a d : BitVec 7) (s : State) : Out :=
  let u : Uses := { reads := [.g a.toNat, .g b.toNat, .v d.toNat], report := [.v d.toNat, .g a.toNat, .g b.toNat] }
  issue s (.svs b a d) u fun dv x vs =>
    let ad := wordAt vs 0
    let v := vecAt vs 2
    withPlace s.mem dv x ad (vecAlign ad) needW .vector fun dv p =>
      withPlace s.mem dv x (wordAt vs 1) 4 needW .plain fun dv q =>
        sendOn s dv x
          ⟨.store, ad, 3, false, vecPieces p v.bits ++ ownPiece q 4 (v.scale.setWidth 64) (wordAt vs 1), [], 0, none⟩

/-- LDX (R129): two blocks and their two scale bytes, expanded at the home slice. -/
def execLdx (la : BitVec 4) (b a d : BitVec 7) (s : State) : Out :=
  let u : Uses := { reads := [.g a.toNat, .g b.toNat], writes := [.v d.toNat], report := [.v d.toNat, .g a.toNat, .g b.toNat] }
  issue s (.ldx la b a d) u fun dv x vs =>
    let ad := wordAt vs 0
    withPlace s.mem dv x ad 32 needR .expand fun dv p =>
      withPlace s.mem dv x (wordAt vs 1) 2 needR .expand fun dv q =>
        sendOn s dv x ⟨.loadX, ad, 3, false, wordPieces p 32 0 ++ ownPiece q 2 0 (wordAt vs 1), [.v d.toNat], la.toNat, none⟩

/-- LDF (R130, R131): bounded from its issue; one whose expiry has passed is not sent. -/
def execLdf (la : BitVec 4) (sc : BitVec 2) (tryIt consume : Bool) (a d : BitVec 7) (s : State) : Out :=
  let u := usesDA false d a
  issue s (.ldf la sc tryIt consume a d) u fun dv x vs =>
    let ad := wordAt vs 0
    withPlace s.mem dv x ad 8 (if consume then needRW else needR) .sync fun dv p =>
      let e := if tryIt then none else expiryOf x.regs.sys dv.wall
      match expired e dv.wall with
      | some t => .trap t.2 (BitVec.ofNat 64 t.1)
      | none => sendOn s dv x ⟨.ldf consume tryIt, ad, sc, true, onePiece p 8 0, [.g d.toNat], la.toNat, e⟩

/-- STF and STF.E (R132): plain STF is posted, STF.E parks its issuer until the port has performed it. -/
def execStf (sc : BitVec 2) (e : Bool) (a d : BitVec 7) (s : State) : Out :=
  let u : Uses := { reads := [.g a.toNat, .g d.toNat], report := [.g d.toNat, .g a.toNat], outside := e }
  issue s (.stf sc e a d) u fun dv x vs =>
    let ad := wordAt vs 0
    withPlace s.mem dv x ad 8 needRW .sync fun dv p =>
      let ex := if e then expiryOf x.regs.sys dv.wall else none
      let q : Ask := ⟨.stf e, ad, sc, true, onePiece p 8 (wordAt vs 1), [], 0, ex⟩
      if e then .wait false .port 0 (begin_ s dv x q).1 [] else sendOn s dv x q

/-- AMO (R134, R135): operand and expected value are read at issue. -/
def amoOp (s : State) (i : Instr) (op : Nat) (la : BitVec 4) (sc : BitVec 2) (wide : Bool) (a d : BitVec 7) : Out :=
  let ex : List Reg := if op = 9 then [.g (d.toNat + 1)] else []
  let u : Uses :=
    { reads := [.g a.toNat, .g d.toNat] ++ ex, writes := [.g d.toNat], report := [.g d.toNat] ++ ex ++ [.g a.toNat] }
  let n := if wide then 8 else 4
  issue s i u fun dv x vs =>
    let ad := wordAt vs 0
    withPlace s.mem dv x ad n needRW (.atomic wide) fun dv p =>
      sendOn s dv x
        ⟨.amo op wide (wordAt vs 2), ad, sc, true, onePiece p n (wordAt vs 1), [.g d.toNat], la.toNat, none⟩

/-- A registered tensor of an id in a partition (R141). -/
def Partition.tensor (p : Partition) (id : Word) : Option Tensor := p.tensors.find? fun t => t.id == id.toNat

/-- The tile line that TLD and TST name, or PROT (R141). -/
def tileLine (d : Device) (x : Context) (a b : Word) : Except Word (Tensor × Word) :=
  match (d.partAt x.part).tensor a with
  | none => .error a
  | some t =>
    let r := b.toNat % 2^32
    let c := b.toNat / 2^32
    if t.tiles.1 ≤ r ∨ t.tiles.2 ≤ c then .error b
    else .ok (t, t.base + BitVec.ofNat 64 ((r * t.tiles.2 + c) * 1024))

/-- The eight registers of a tile. -/
def tileRegs (d : Nat) : List Reg := (List.range 8).map fun k => .v (d + k)

/-- TLD (R141): all eight registers are pending together. -/
def execTld (la : BitVec 4) (b a d : BitVec 7) (s : State) : Out :=
  let rs := tileRegs d.toNat
  let u : Uses := { reads := [.g a.toNat, .g b.toNat], writes := rs, report := rs ++ [.g a.toNat, .g b.toNat] }
  issue s (.tld la b a d) u fun dv x vs =>
    match tileLine dv x (wordAt vs 0) (wordAt vs 1) with
    | .error v => .trap cPROT v
    | .ok (t, ad) =>
      withPlaceOf s.mem dv x t.vf ad 1 needRW .tile fun dv p =>
        sendOn s dv x ⟨.tileLoad t.tag, ad, 3, false, wordPieces p 1024 0, rs, la.toNat, none⟩

/-- TST (R141): every register must carry the tensor's tag. -/
def execTst (b a d : BitVec 7) (s : State) : Out :=
  let rs := tileRegs d.toNat
  let u : Uses := { reads := [.g a.toNat, .g b.toNat] ++ rs, report := rs ++ [.g a.toNat, .g b.toNat] }
  issue s (.tst b a d) u fun dv x vs =>
    match tileLine dv x (wordAt vs 0) (wordAt vs 1) with
    | .error v => .trap cPROT v
    | .ok (t, ad) =>
      match (List.range 8).find? fun k => (x.getV (d.toNat + k)).tag != t.tag with
      | some k => .trap cTAG (tagVal (x.getV (d.toNat + k)).tag (d.toNat + k))
      | none =>
        let bits := (List.range 8).foldr (fun k acc => (vecAt vs (2 + k)).bits.toNat + 2^1024 * acc) 0
        withPlaceOf s.mem dv x t.vf ad 1 needW .tile fun dv p =>
          sendOn s dv x ⟨.tileStore, ad, 3, false, wordPieces p 1024 bits, [], 0, none⟩

/-- MARM (R138): the monitor is replaced at once and registered at the word's owning port. The spec names no permission that it
needs; this model asks RD, as for a load (assumption 87, DESIGN CHOICE). -/
def execMarm (sc : BitVec 2) (a d : BitVec 7) (s : State) : Out :=
  let u := { usesDA false d a with outside := true, inner := true }
  issue s (.marm sc a d) u fun dv x vs =>
    let ad := wordAt vs 0
    withPlace s.mem dv x ad 8 needR .sync fun dv p =>
      let id := dv.nextAccess
      let dv1 := dv.onCur fun y => { y with monitor := some ⟨ad, p.key, false, id, false⟩ }
      let dv2 := (begin_ s dv1 x ⟨.marm id, ad, sc, false, onePiece p 8 0, [], 0, none⟩).1
      .ok (dv2.putG d.toNat (ofBool x.monitor.isSome))

/-- MARM.OFF (R138). -/
def execMarmOff (s : State) : Out :=
  issue s .marmOff { outside := true, inner := true } fun dv _ _ => .ok (dv.onCur fun y => { y with monitor := none })

/-- FLUSH and CLEAN (R143): posted; an on-chip window address makes them no-ops. -/
def cacheOp (s : State) (i : Instr) (sa : Bool) (a : BitVec 7) (kind : AccessKind) : Out :=
  let u := usesA sa a
  issue s i u fun dv x vs =>
    let ad := wordAt vs 0
    if isWindow ad then .ok dv
    else withPlace s.mem dv x ad 1 0 .tile fun dv p =>
      sendOn s dv x ⟨kind, ad, 3, false, [{ port := p.port, key := p.line * 128, bytes := if p.tile then 1024 else 128, tile := p.tile }], [], 0, none⟩

def execFlush (sa : Bool) (a : BitVec 7) (s : State) : Out := cacheOp s (.flush sa a) sa a .flush
def execClean (sa : Bool) (a : BitVec 7) (s : State) : Out := cacheOp s (.clean sa a) sa a .clean

/-- INVAL (R73, R143): the line leaves this core's L1 data cache at once; fetches may still give its old instructions until the next
FENCE.FULL. -/
def execInval (sa : Bool) (a : BitVec 7) (s : State) : Out :=
  issue s (.inval sa a) { usesA sa a with outside := true, inner := true } fun dv x vs =>
    let ad := wordAt vs 0
    if isWindow ad then .ok dv
    else withPlace s.mem dv x ad 1 0 .tile fun dv p =>
      .ok ((dv.shed dv.core p.line).onMe fun k => { k with stale := lineOf p.key :: k.stale.filter (· != lineOf p.key) })

/-- PREF (R143): a hint that may be dropped; this model drops it. -/
def execPref (sa : Bool) (a : BitVec 7) (s : State) : Out := issue s (.pref sa a) (usesA sa a) fun dv _ _ => .ok dv

def execLb (la : BitVec 4) (sc : BitVec 2) (str : Bool) (a d : BitVec 7) (s : State) : Out := loadOp s (.lb la sc str a d) la sc str a d true 1
def execLbz (la : BitVec 4) (sc : BitVec 2) (str : Bool) (a d : BitVec 7) (s : State) : Out := loadOp s (.lbz la sc str a d) la sc str a d false 1
def execLh (la : BitVec 4) (sc : BitVec 2) (str : Bool) (a d : BitVec 7) (s : State) : Out := loadOp s (.lh la sc str a d) la sc str a d true 2
def execLhz (la : BitVec 4) (sc : BitVec 2) (str : Bool) (a d : BitVec 7) (s : State) : Out := loadOp s (.lhz la sc str a d) la sc str a d false 2
def execLw (la : BitVec 4) (sc : BitVec 2) (str : Bool) (a d : BitVec 7) (s : State) : Out := loadOp s (.lw la sc str a d) la sc str a d true 4
def execLwz (la : BitVec 4) (sc : BitVec 2) (str : Bool) (a d : BitVec 7) (s : State) : Out := loadOp s (.lwz la sc str a d) la sc str a d false 4
def execLd (la : BitVec 4) (sc : BitVec 2) (str : Bool) (a d : BitVec 7) (s : State) : Out := loadOp s (.ld la sc str a d) la sc str a d false 8
def execLv (la : BitVec 4) (sc : BitVec 2) (str : Bool) (a d : BitVec 7) (s : State) : Out := loadVOp s (.lv la sc str a d) la sc str a d 0
def execLvS32 (la : BitVec 4) (sc : BitVec 2) (str : Bool) (a d : BitVec 7) (s : State) : Out := loadVOp s (.lvS32 la sc str a d) la sc str a d 1
def execLvZ32 (la : BitVec 4) (sc : BitVec 2) (str : Bool) (a d : BitVec 7) (s : State) : Out := loadVOp s (.lvZ32 la sc str a d) la sc str a d 2
def execLvF32 (la : BitVec 4) (sc : BitVec 2) (str : Bool) (a d : BitVec 7) (s : State) : Out := loadVOp s (.lvF32 la sc str a d) la sc str a d 3
def execLvBf16 (la : BitVec 4) (sc : BitVec 2) (str : Bool) (a d : BitVec 7) (s : State) : Out := loadVOp s (.lvBf16 la sc str a d) la sc str a d 4
def execLvF16 (la : BitVec 4) (sc : BitVec 2) (str : Bool) (a d : BitVec 7) (s : State) : Out := loadVOp s (.lvF16 la sc str a d) la sc str a d 5
def execLvS8 (la : BitVec 4) (sc : BitVec 2) (str : Bool) (a d : BitVec 7) (s : State) : Out := loadVOp s (.lvS8 la sc str a d) la sc str a d 6
def execLvZ8 (la : BitVec 4) (sc : BitVec 2) (str : Bool) (a d : BitVec 7) (s : State) : Out := loadVOp s (.lvZ8 la sc str a d) la sc str a d 7
def execLvSp32 (la : BitVec 4) (sc : BitVec 2) (str : Bool) (a d : BitVec 7) (s : State) : Out := loadVOp s (.lvSp32 la sc str a d) la sc str a d 10
def execSb (sc : BitVec 2) (str : Bool) (a d : BitVec 7) (s : State) : Out := storeOp s (.sb sc str a d) sc str a d 1
def execSh (sc : BitVec 2) (str : Bool) (a d : BitVec 7) (s : State) : Out := storeOp s (.sh sc str a d) sc str a d 2
def execSw (sc : BitVec 2) (str : Bool) (a d : BitVec 7) (s : State) : Out := storeOp s (.sw sc str a d) sc str a d 4
def execSd (sc : BitVec 2) (str : Bool) (a d : BitVec 7) (s : State) : Out := storeOp s (.sd sc str a d) sc str a d 8
def execAmoSwap (la : BitVec 4) (sc : BitVec 2) (wide : Bool) (a d : BitVec 7) (s : State) : Out := amoOp s (.amoSwap la sc wide a d) 0 la sc wide a d
def execAmoAdd (la : BitVec 4) (sc : BitVec 2) (wide : Bool) (a d : BitVec 7) (s : State) : Out := amoOp s (.amoAdd la sc wide a d) 1 la sc wide a d
def execAmoAnd (la : BitVec 4) (sc : BitVec 2) (wide : Bool) (a d : BitVec 7) (s : State) : Out := amoOp s (.amoAnd la sc wide a d) 2 la sc wide a d
def execAmoOr (la : BitVec 4) (sc : BitVec 2) (wide : Bool) (a d : BitVec 7) (s : State) : Out := amoOp s (.amoOr la sc wide a d) 3 la sc wide a d
def execAmoXor (la : BitVec 4) (sc : BitVec 2) (wide : Bool) (a d : BitVec 7) (s : State) : Out := amoOp s (.amoXor la sc wide a d) 4 la sc wide a d
def execAmoMin (la : BitVec 4) (sc : BitVec 2) (wide : Bool) (a d : BitVec 7) (s : State) : Out := amoOp s (.amoMin la sc wide a d) 5 la sc wide a d
def execAmoMax (la : BitVec 4) (sc : BitVec 2) (wide : Bool) (a d : BitVec 7) (s : State) : Out := amoOp s (.amoMax la sc wide a d) 6 la sc wide a d
def execAmoMinu (la : BitVec 4) (sc : BitVec 2) (wide : Bool) (a d : BitVec 7) (s : State) : Out := amoOp s (.amoMinu la sc wide a d) 7 la sc wide a d
def execAmoMaxu (la : BitVec 4) (sc : BitVec 2) (wide : Bool) (a d : BitVec 7) (s : State) : Out := amoOp s (.amoMaxu la sc wide a d) 8 la sc wide a d
def execAmoCas (la : BitVec 4) (sc : BitVec 2) (wide : Bool) (a d : BitVec 7) (s : State) : Out := amoOp s (.amoCas la sc wide a d) 9 la sc wide a d

end Sys2Proof.Machine
end

