-- ==== Sys2Proof/Machine/Arrive.lean ====
section
/-! DEFINITION. What reaches a core: an access at its port and its result back at the core, withdrawals, monitor fires,
deposits, lane reductions, traps, expiries and the core's clock (R20 to R27, R37 to R41, R119, R131, R251, R353). -/
namespace Sys2Proof.Machine

/-- Applies a change of registers to a context and to the register copies kept by its accesses in flight that issued
from number `from_` on: what comes from outside the context is not undone by a roll-back. -/
def Device.onKept (d : Device) (core slot from_ : Nat) (f : Context → Context) : Device :=
  match d.ctxAt core slot with
  | none => d
  | some x =>
    let d1 := d.setCtx core slot (f x)
    { d1 with accesses := d1.accesses.map fun a =>
        if a.core == core && a.slot == slot && decide (from_ ≤ a.id) then
          { a with before := a.before.map fun r => (f { x with regs := r }).regs }
        else a }

/-- A write, for the axioms of ordering: an LDF that consumes is one (R270). -/
def AccessKind.writes : AccessKind → Bool
  | .ldf consume _ => consume
  | k => k.counted

/-- Whether a releasing fence before a write of a thread still waits (R137, R275). -/
def heldByRel (d : Device) (a : Access) : Bool :=
  a.kind.writes && a.after.any fun q => relAway d a.core a.slot q || (earlier d a).any fun b =>
    decide (b.id < q.1) && b.pieces.any fun p => !p.done && p.port.within q.2 a.core

/-- The value a load takes from the thread's own latest earlier store that has not performed, when that store covers all
its bytes (R278). -/
def forwarded (d : Device) (a : Access) (p : Piece) : Option Word :=
  if a.kind.cached && !((earlier d a).any fun b => holdsBack d b a p) then
    match ((earlier d a).filter fun b => b.pieces.any fun q => !q.done && q.key / 8 == p.key / 8).getLast? with
    | some b =>
      if b.kind == .store then
        match (b.pieces.filter fun q => !q.done && q.key / 8 == p.key / 8).getLast? with
        | some q =>
          if q.key ≤ p.key ∧ p.key + p.bytes ≤ q.key + q.bytes then
            some (BitVec.ofNat 64 (q.data.toNat / 2^(8 * (p.key - q.key)) % 2^(8 * p.bytes)))
          else none
        | none => none
      else none
    | none => none
  else none

/-- Whether a part of an access is on its way: nothing before it in the thread holds it back, and it has not ended (R131, R242,
R274). -/
def underway (d : Device) (a : Access) (p : Piece) : Bool :=
  !p.done && p.waiting.isNone && !a.withdrawn && a.fault.isNone && !a.hostPending && !((earlier d a).any fun b => blocks d b a p) && !heldByRel d a

/-- Whether a save holds a core's port against the accesses of other cores (R371). -/
def portHeld (d : Device) (core : Nat) (p : Piece) : Bool :=
  match p.port.ownCore with
  | some c => (d.coreAt c).saved && c != core
  | none => false

/-- The meter points that a part of an access passes: none where its core's L1 serves it (R340). -/
def Access.points (a : Access) (d : Device) (p : Piece) : List (Nat × Bool) := if a.hits d p then [] else meterPoints a.core p.port p.key

/-- Whether a part of an access can perform at its port now: it is on its way and in time, its link is awake, its port is not held
by a save, no atomic holds its word at the host, and the meters let it pass (R131, R266, R280, R340, R353, R371). -/
def performs (d : Device) (a : Access) (i : Nat) (p : Piece) : Bool :=
  underway d a p && !a.late d.wall && !heldByHost d p &&
  !((a.pieces.take i).any fun q => !q.done && q.key / 8 == p.key / 8) &&
  !portHeld d a.core p &&
  (match d.linkState (dieOfCore a.core) p.port.die with
    | .active => true
    | .lost => true
    | _ => false) &&
  metersAdmit d a.vf (0, a.id, i) (a.points d p)

/-- A write of a core reaches a die, which counts it once (R259). -/
def receiveWrite (d : Device) (id die : Nat) : Device :=
  match d.access id with
  | none => d
  | some a =>
    if !a.kind.counted || a.landed.contains die then d
    else (d.setAccess { a with landed := die :: a.landed }).onCore a.core fun k =>
      { k with got := assocPut die (((assocGet die k.got).getD 0) + 1) k.got }

/-- An access that is taken back before a die has received it counts there as received, so that no marker waits for it (R259). -/
def neverSent (d : Device) (a : Access) : Device :=
  if a.kind.counted then ((a.pieces.map fun p => p.port.die).eraseDups).foldl (fun d die => receiveWrite d a.id die) d else d

/-- An effect of a thread has performed: the accesses before it can no longer fault (R25, R124). -/
def passEarlier (d : Device) (a : Access) : Device :=
  let ids := (earlier d a).map Access.id
  { d with accesses := d.accesses.map fun b => if ids.contains b.id then { b with passed := true } else b }

/-- An access that a saved core's port holds waits under the bound of its issuer from now on (R38, R371), unless it can no longer
trap. -/
def boundAtPort (d : Device) (a : Access) (p : Piece) : Device :=
  if portHeld d a.core p && a.expiry.isNone && !a.passed && !a.orphan && a.pieces.all fun q => !q.done then
    match d.ctxAt a.core a.slot with
    | some x => d.setAccess { a with expiry := expiryOf x.regs.sys d.wall }
    | none => d
  else d

/-- ACCESS_PERFORM (R251): part `piece` of access `n` arrives at its owning port and performs there, if nothing holds
it. A request over a sleeping link starts its wake (R266). -/
def execAccessPerform (n piece : Nat) (s : State) : Out :=
  match s.dev.access n with
  | none => conclude s s.dev []
  | some a =>
    match a.pieces[piece]? with
    | none => conclude s s.dev []
    | some p =>
      match (if a.fault.isNone && !p.done then forwarded s.dev a p else none) with
      | some x => Work.finish s ((Work.start s).progress (a.partDone piece x))
      | none =>
        if performs s.dev a piece p then
          let w0 := (Work.start s).on fun d => receiveWrite d n p.port.die
          let b := (w0.d.access n).getD a
          let w := w0.perform b piece p
          let moved := match w.d.access n with
            | some c => decide (c ≠ b)
            | none => true
          Work.finish s (if moved then w.on fun d =>
              metersAdd (if a.kind.plainLoad then d else passEarlier d a) a.vf (0, n, piece) (a.points s.dev p) p.bytes
            else w)
        else if underway s.dev a p then
          conclude s (metersWait (boundAtPort (startWakes s.dev (dieOfCore a.core) [p.port.die]) a p) a.vf (0, n, piece) (a.points s.dev p)) []
        else conclude s s.dev []

/-- The bytes the parts returned, lowest first. -/
def assemble : List Piece → Nat
  | [] => 0
  | p :: r => p.data.toNat % 2^(8 * p.bytes) + 2^(8 * p.bytes) * assemble r

/-- BF16 of an E2M1 element under an E8M0 scale byte (R53, R54). -/
def expandE2m1 (nib sc : Nat) : Nat :=
  if sc = 0xFF then 0x7FC0
  else
    let neg := decide (8 ≤ nib)
    let e := nib / 2 % 4
    let f := nib % 2
    let x : Num := if e = 0 then .fin neg f ((sc : Int) - 128) false else .fin neg (2 + f) ((e : Int) - 2 + sc - 127) false
    let r := rne .bf16 x
    if r % 2^15 = 0x7F80 then (if neg then 0xFF7F else 0x7F7F) else r

/-- LDX's expansion of two blocks and their scale bytes (R54, R129). -/
def expandBlocks (bytes scales : Nat) : VBits :=
  packElems 16 ((List.range 64).map fun i => expandE2m1 (bytes / 2^(4 * i) % 16) (scales / 2^(8 * (i / 32)) % 256))

/-- The values an access returns, one for each destination (R125, R128 to R130, R134, R141). -/
def Access.results (a : Access) : List Val :=
  let n := assemble a.pieces
  let x := BitVec.ofNat 64 n
  match a.kind with
  | .load signed b =>
    [.w (if signed then (BitVec.ofNat (8 * b) n).signExtend 64 else (BitVec.ofNat (8 * b) n).setWidth 64)]
  | .loadV tag => [.r { bits := BitVec.ofNat 1024 n, tag := tag, scale := scaleOne }]
  | .loadScaled tag =>
    [.r { bits := BitVec.ofNat 1024 (assemble a.pieces.dropLast), tag := tag
          scale := BitVec.ofNat 32 ((a.pieces.getLast?.map fun p => p.data.toNat).getD 0) }]
  | .loadX =>
    [.r { bits := expandBlocks (assemble a.pieces.dropLast) ((a.pieces.getLast?.map fun p => p.data.toNat).getD 0)
          tag := 4, scale := scaleOne }]
  | .tileLoad tag =>
    (List.range 8).map fun k => .r { bits := BitVec.ofNat 1024 (n / 2^(1024 * k)), tag := tag, scale := scaleOne }
  | .ldf _ _ => [.w x]
  | .amo _ wide _ => [.w (if wide then x else sextW x)]
  | _ => []

/-- Destination registers of an access. -/
def Access.dests (a : Access) : List Reg :=
  match a.dest with
  | none => []
  | some r =>
    match a.kind, r with
    | .tileLoad _, .v n => tileRegs n
    | _, _ => [r]

/-- A generator with the value of a place that was reserved in it (R26). -/
def Gen.fill (g : Gen) (i : Nat) (v : VBits) : Gen := { g with queue := g.queue.set (i - g.performed) (some v) }

/-- Writes one long-latency result (R18, R24, R26): into the place reserved for it in a write stream, or as an ordinary write,
under a deposit of the same cycle, which is applied second (R20, R23, R30). -/
def Device.writeResult (d : Device) (core slot id : Nat) (reserved : List (Reg × Nat × Nat)) (r : Reg) (v : Val) : Device :=
  match reserved.find? fun q => q.1 == r with
  | some (_, n, i) => d.onCore core fun k => k.setGen n ((k.gen n).fill i v.bits)
  | none =>
    let late := (d.coreAt core).justDeposited slot r
    d.onKept core slot (id + 1) fun x =>
      let y := match r, v with
        | .g i, .w y => x.writeG i y
        | .v i, .r y => x.writeV i y.bits y.tag y.scale
        | _, _ => x
      match late with
      | some payload => putDeposit y r payload
      | none => y

/-- Marks a pending result arrived, retires it when its window is over, and enters a trap that waited for it (R24, R119). -/
def Device.arrive (d : Device) (core slot id : Nat) : Device :=
  let d1 := d.onCtx core slot fun x =>
    { x with pending := (x.pending.map fun p => if p.id = id then { p with arrived := true, mayFault := false } else p).filter fun p =>
        !(p.arrived && p.left == 0) }
  match d1.ctxAt core slot with
  | some x =>
    match x.phase with
    | .trapping c v pc => if x.awaits then d1 else enterTrap d1 core slot c v pc
    | _ => d1
  | none => d1

/-- A generator back at an earlier position (R8, R25): elements popped since go back to its head, elements appended and places
reserved since leave its tail. -/
def Gen.rewind (g : Gen) (position : Nat) : Gen :=
  if g.write then
    { g with
      queue := g.queue.take (position - g.performed)
      position := position
      gaps := g.gaps.filter fun i => decide (i < position)
      holds := g.holds.filter fun h => decide (h.1 < position) }
  else
    let n := g.position - position
    { g with queue := (g.spent.take n).reverse ++ g.queue, position := g.position - n, spent := g.spent.drop n }

/-- The monitor of a context rolled back to an access: one that the access or a later one armed gives way to the one before. -/
def Access.monitorBack (a : Access) (x : Context) : Option Monitor :=
  match x.monitor with
  | some mo => if a.id ≤ mo.reg then a.monitor else some mo
  | none => none

/-- Rolls a context back to an access of its own (R25): the registers and its monitor return to what they were before it, what
was popped goes back, what was appended is taken back, and everything it and the later instructions left in flight is dropped.
None when the access has no context to roll back. -/
def rollBack (d : Device) (a : Access) : Option Device :=
  let d0 := (neverSent d a).dropAccess a.id
  match d0.ctxAt a.core a.slot, a.before with
  | some x, some r =>
    if a.orphan || x.tid != a.tid || (match x.phase with
        | .stopped _ _ _ => true
        | _ => false) then none
    else
      let d1 := d0.onCore a.core fun k => a.streams.foldl (fun (k : Core) q => k.setGen q.1 ((k.gen q.1).rewind q.2)) k
      let later (b : Access) : Bool := b.core == a.core && b.slot == a.slot && b.tid == a.tid && decide (a.id < b.id)
      let d1' := (d1.accesses.filter later).foldl neverSent d1
      let d2 : Device := { d1' with accesses := d1'.accesses.filter fun b => !later b }
      some ((d2.undeposit a.core a.displaced).setCtx a.core a.slot { x with
        regs := r
        phase := .ready
        stallSince := none
        stalled := false
        taken := []
        fence := none
        monitor := a.monitorBack x
        pending := x.pending.filter fun p => p.id < a.id })
  | _, _ => none

/-- A fault delivered precisely at its access (R25, R124): the trap is taken there. A context that a save is taking goes back to the
access, which its saved pc then names (R367). -/
def faultAt (d : Device) (a : Access) (cause : BitVec 8) (val : Word) : Device :=
  match rollBack d a with
  | none => d.dropAccess a.id
  | some d1 =>
    match (if (d1.savingOf a.core a.slot).isSome then none else d1.ctxAt a.core a.slot) with
    | some x => takeTrap d1 a.core a.slot cause val x.regs.pc
    | none => d1

/-- The context and slot a pending divide belongs to. -/
def dividing (d : Device) (n : Nat) : Option (Nat × Nat × Pending) :=
  (d.cores.map fun c => (c.2.slots.zipIdx.map fun q =>
    match q.1 with
    | some x => (x.pending.filter fun p => p.id == n && p.due.isSome && !p.arrived).map fun p => (c.1, q.2, p)
    | none => []).flatten).flatten.head?

/-- A divide's result is written when its 40 cycles are over (R114). -/
def divideDone (d : Device) (core slot : Nat) (p : Pending) : Device :=
  match p.due with
  | some (at_, v) =>
    if at_ ≤ (d.coreAt core).cyc then
      let d1 := match p.dests.head? with
        | some r => (d.writeResult core slot p.id p.reserved r (.w v)).onCtx core slot fun x => x.shadowed p.id [(r, .w v)]
        | none => d
      d1.arrive core slot p.id
    else d
  | none => d

/-- The places that the pending result of a number reserved in write streams. -/
def Device.reservedFor (d : Device) (core slot id : Nat) : List (Reg × Nat × Nat) :=
  match d.ctxAt core slot with
  | some x => ((x.pending.find? fun p => p.id == id).map Pending.reserved).getD []
  | none => []

/-- The result of an access that has performed is written at its core, or its fault is delivered (R24, R25). -/
def deliverResult (d : Device) (n : Nat) : Device :=
  match d.access n with
  | some a =>
    match a.fault with
    | some (c, v) => faultAt d a c v
    | none =>
      if a.complete && a.kind.long then
        let shadow (d : Device) : Device := d.onCtx a.core a.slot fun x => x.shadowed n (a.dests.zip a.results)
        -- a load of run-ahead, or one whose context is gone
        if a.orphan then (shadow d).dropAccess n
        else
          let d1 := (a.dests.zip a.results).foldl (fun d q =>
            d.writeResult a.core a.slot n (d.reservedFor a.core a.slot n) q.1 q.2) d
          ((shadow d1).dropAccess n).arrive a.core a.slot n
      else d
  | none => d

/-- The results that reached a core while its clock was halted are written in order of arrival, in its first cycle after the
resume (R40). -/
def deliverInbound (d : Device) (core : Nat) : Device :=
  let k := d.coreAt core
  if k.inbound.isEmpty then d else k.inbound.foldl deliverResult (d.setCore core { k with inbound := [] })

/-- LONG_LATENCY_RESULT (R24): the result of access or divide `n` reaches its core and is written as an ordinary write, or
its fault is delivered. A halted core keeps it in its inbound buffer (R40). -/
def execLongLatencyResult (n : Nat) (s : State) : Out :=
  let d := s.dev
  match d.access n with
  | some a =>
    if (d.coreAt a.core).halted then
      if (a.fault.isSome || a.complete && a.kind.long) && !(d.coreAt a.core).inbound.contains n then
        conclude s (d.onCore a.core fun k => { k with inbound := k.inbound ++ [n] }) []
      else conclude s d []
    else if (d.coreAt a.core).inbound.isEmpty then conclude s (deliverResult d n) []
    else conclude s d []
  | none =>
    match dividing d n with
    | some (core, slot, p) => if (d.coreAt core).halted then conclude s d [] else conclude s (divideDone d core slot p) []
    | none => conclude s d []

/-- PORT_WITHDRAWAL (R131): wall ns E has ended with the request unserved; the word is left as it is. -/
def execPortWithdrawal (n : Nat) (s : State) : Out :=
  match s.dev.access n with
  | some a =>
    if a.late s.dev.wall && !a.complete && a.fault.isNone then
      conclude s (s.dev.setAccess { a with withdrawn := true, pieces := a.pieces.map fun p => { p with waiting := none } }) []
    else conclude s s.dev []
  | none => conclude s s.dev []

/-- The trap of an access whose withdrawal has come back (R131): the context is rolled back to it, and parked under the bound that has
passed, so that its first turn after that takes the trap (R38). -/
def trapLater (d : Device) (a : Access) (e : Nat × BitVec 8) : Device :=
  match rollBack d a with
  | none => d.dropAccess a.id
  | some d1 => d1.onCtx a.core a.slot fun x => { x with phase := .parked ⟨.retry, e.1, some e, 0⟩ }

/-- WITHDRAWAL_ARRIVAL (R131): the access is to trap precisely, with TRAPVAL := E. A core whose clock is halted takes note
at its resume (R40). -/
def execWithdrawalArrival (n : Nat) (s : State) : Out :=
  match s.dev.access n with
  | some a =>
    match a.expiry with
    | some e =>
      if a.withdrawn && !(s.dev.coreAt a.core).halted then conclude s (trapLater s.dev a e) []
      else conclude s s.dev []
    | none => conclude s s.dev []
  | none => conclude s s.dev []

/-- Core and slot of a live context of a TID, launch and partition. -/
def Device.findTid (d : Device) (part launch : Nat) (tid : BitVec 32) : Option (Nat × Nat) :=
  (d.cores.map fun c => (c.2.slots.zipIdx.filterMap fun q =>
    match q.1 with
    | some x => if x.tid == tid && x.launch == launch && x.part == part then some (c.1, q.2) else none
    | none => none)).flatten.head?

/-- A fired monitor ends a SLEEPM with code 0 (R139, R213). -/
def endSleepm (d : Device) (core slot : Nat) : Device :=
  match d.ctxAt core slot with
  | some x =>
    match x.phase with
    | .sleeping ⟨.monitor, _, _, dest⟩ => if x.monitor.any fun m => m.fired then d.wake core slot (some (dest, 0)) else d
    | _ => if x.monitor.any fun m => m.fired then d.ownEvent core slot (· == .monitor) 0 else d
  | none => d

/-- Fires a context's monitor; a SLEEPM at a core whose clock is halted ends at the resume (R40, R41). -/
def fireMonitor (d : Device) (core slot : Nat) : Device :=
  let d1 := d.onCtx core slot fun x => { x with monitor := x.monitor.map fun m => { m with fired := true } }
  if (d.coreAt core).halted then d1 else endSleepm d1 core slot

/-- MONITOR_FIRE (R139, R258): a fire reaches the context that holds its registration; it follows a context that is
saved or travelling. -/
def execMonitorFire (n : Nat) (s : State) : Out :=
  let d := s.dev
  match d.fires[n]? with
  | none => conclude s d []
  | some f =>
    match d.findTid f.part f.launch f.tid with
    | some (core, slot) =>
      let d1 : Device := { d with fires := d.fires.eraseIdx n }
      match d.ctxAt core slot with
      | some x =>
        if x.monitor.any fun m => m.reg == f.reg then conclude s (fireMonitor d1 core slot) [] else conclude s d1 []
      | none => conclude s d1 []
    | none =>
      let mine (x : Context) : Bool := x.tid == f.tid && x.launch == f.launch && x.part == f.part
      if d.saved.any fun v => v.ctx.any mine || v.ctxs.any fun q => mine q.2.1 then conclude s d []
      else conclude s { d with fires := d.fires.eraseIdx n } []

/-- Whether the first word of an MSEND2 is still on its way or waiting (R220). -/
def firstPending (d : Device) (f : Option Nat) : Bool :=
  match f with
  | none => false
  | some id => d.messages.any (fun m => m.id == id) || d.cores.any fun c =>
      c.2.waiting.any (fun q => q.id == id) || c.2.spill.any fun q => match q with
        | .deposit r => r.id == id
        | _ => false

/-- Whether a deposit can be applied to a core: its class is bound to a live context whose register is empty (R20, R21). -/
def depositable (d : Device) (core : Nat) (q : Deposit) : Option (Nat × Reg) :=
  let k := d.coreAt core
  if k.halted || firstPending d q.follows then none
  else
    match (k.classes[q.cls % 16]?).join with
    | none => none
    | some (slot, r) =>
      match k.ctx slot with
      | none => none
      | some x =>
        match x.phase with
        | .stopped _ _ _ => none
        | _ => if x.isFull r then none else some (slot, r)

/-- Whether a core's interface has applied a deposit in the present cycle already (R20). -/
def Core.depositMade (k : Core) : Bool := k.lastDeposit.isSome

/-- Readies a context parked on a synchronised read of a register that a deposit has filled: the instruction is tried at its
next turn (R19, R22), and a wait it then begins keeps its first instant (R38). -/
def Context.readied (x : Context) (r : Reg) (wall : Nat) : Context :=
  match x.phase with
  | .parked ⟨.sync q, t0, e, _⟩ =>
    if q = r ∧ (expired e wall).isNone then { x with phase := .ready, stallSince := some t0, stalled := false } else x
  | _ => x

/-- A deposit into a register of the context in a slot. What a waiting instruction took of it, or an instruction that may still be
rolled back, keeps the deposit, to give it back (R8, R20, R25); register copies in which the register is empty take it. -/
def depositInto (d : Device) (core slot : Nat) (r : Reg) (q : Deposit) : Device :=
  match d.ctxAt core slot with
  | none => d
  | some x =>
    let y := putDeposit x r q.payload
    let d1 := d.setCtx core slot { y with taken := y.taken.map fun t => if t = .full r none then .full r (some (x.lowWord r, q)) else t }
    { d1 with accesses := d1.accesses.map fun a =>
        if a.core == core && a.slot == slot then
          match a.before with
          | none => a
          | some rs =>
            let z : Context := { x with regs := rs }
            if z.isFull r then { a with displaced := a.displaced ++ [q] } else { a with before := some (putDeposit z r q.payload).regs }
        else a }

/-- Applies a deposit; a sleeping context is readied with code 1, and one parked on a synchronised read of the register is
readied (R22, R213). -/
def applyDeposit (d : Device) (core : Nat) (slot : Nat) (r : Reg) (q : Deposit) : Device :=
  let d1 := (depositInto d core slot r q).onCore core fun k =>
    { k with lastDeposit := some (slot, r, q.payload) }
  match d1.ctxAt core slot with
  | some x =>
    match x.phase with
    | .sleeping _ => d1.endSleep core slot 1
    | .parked _ => d1.onCtx core slot fun x => x.readied r d.wall
    | _ => d1.recode core slot
  | none => d1

/-- Whether arrivals for a class go to the spill ring: its context or its whole core is saved (R372). -/
def spills (k : Core) (cls : Nat) : Bool :=
  k.saved || (match (k.classes[cls % 16]?).join with
    | some (slot, _) => k.tied.contains slot
    | none => false)

/-- A message reaches a core's interface: it is deposited, held or spilled (R20, R21, R372); none when no place is free. -/
def receive (d : Device) (core : Nat) (q : Deposit) : Option Device :=
  let k := d.coreAt core
  if spills k q.cls then
    if k.spill.length < 64 then some (d.setCore core { k with spill := k.spill ++ [.deposit q] }) else none
  else
    match (if k.waiting.any (fun r => r.cls == q.cls) || k.depositMade then none else depositable d core q) with
    | some (slot, r) => some (applyDeposit d core slot r q)
    | none => if k.waiting.length < 8 then some (d.setCore core { k with waiting := k.waiting ++ [q] }) else none

/-- Delivered message `n` enters its destination's interface, in the order of its sender's messages to the class (R21). -/
def arriveMessage (d : Device) (n : Nat) : Device :=
  match d.messages[n]? with
  | none => d
  | some m =>
    let before := (d.messages.take n).any fun q => q.sender == m.sender && q.to_ == m.to_ && q.cls == m.cls
    if !m.delivered || before then d
    else
      let d0 : Device := { d with messages := d.messages.eraseIdx n }
      match receive d0 m.to_ ⟨m.cls, m.payload, m.sender, m.id, m.follows⟩ with
      | some d1 => d1
      | none => d

/-- MESSAGE_ARRIVAL (R21). -/
def execMessageArrival (n : Nat) (s : State) : Out := conclude s (arriveMessage s.dev n) []

/-- The waiting deposits of a core that can be applied, in order of arrival, each class in its own order (R20, R21). -/
def dueDeposits (d : Device) (core : Nat) : List Deposit :=
  let k := d.coreAt core
  (k.waiting.zipIdx.filter fun q =>
    !((k.waiting.take q.2).any fun r => r.cls == q.1.cls) && (depositable d core q.1).isSome).map Prod.fst

/-- Applies a waiting deposit that still can be applied, unless a deposit has been made in the present cycle (R20). -/
def takeDeposit (d : Device) (core : Nat) (q : Deposit) : Device :=
  let k := d.coreAt core
  if k.depositMade || !k.waiting.contains q then d
  else
    match depositable d core q with
    | some (slot, r) => applyDeposit (d.onCore core fun k => { k with waiting := k.waiting.erase q }) core slot r q
    | none => d

/-- The retry of a core's waiting deposits (R21): of those that could be applied when the present cycle began, since one is
retried from the cycle after its full bit clears or its class is bound. -/
def retryDeposit (d : Device) (core : Nat) : Device := (d.coreAt core).dueNow.foldl (fun d q => takeDeposit d core q) d

/-- DEPOSIT_RETRY (R21). -/
def execDepositRetry (core : Nat) (s : State) : Out := conclude s (retryDeposit s.dev core) []

/-- Writes the oldest completed lane reduction to RRES when RRES is taken (R27). -/
def Core.publish (k : Core) : Core :=
  match k.reductions with
  | r :: rest =>
    if r.held && k.rresTaken then
      { k with rres := r.value, rresSeq := r.seq, rresTaken := false, rresPoison := false, reductions := rest }
    else k
  | [] => k

/-- Completes the oldest lane reduction still computing (R27). -/
def Core.reduced (k : Core) : Core :=
  match k.reductions.findIdx? fun r => !r.held with
  | some i => ({ k with reductions := k.reductions.modify i fun r => { r with held := true } }).publish
  | none => k.publish

/-- REDUCTION_COMPLETE (R27): the core's oldest lane reduction completes, and writes RRES or holds its result. -/
def execReductionComplete (core : Nat) (s : State) : Out :=
  if (s.dev.coreAt core).halted then conclude s s.dev [] else conclude s (s.dev.onCore core Core.reduced) []

/-- Marks the turn of a slot in a core's coming cycle as used, where it is that slot's: what was readied or entered a trap in its
own turn's cycle issues at its next turn (R14, R119). -/
def Device.useTurnOf (d : Device) (core slot : Nat) : Device :=
  d.onCore core fun k => if k.cyc % 16 = slot then { k with used := some k.cyc } else k

/-- The trap that a context waits to take is entered, once no result is pending (R119). -/
def trapEntry (d : Device) (core slot : Nat) : Device :=
  match d.ctxAt core slot with
  | some x =>
    match x.phase with
    | .trapping c v pc => if x.awaits then d else enterTrap d core slot c v pc
    | _ => d
  | none => d

/-- TRAP_ENTRY (R119): once no result is pending, the trap that waited is entered; none is at a core whose clock is halted (R40). -/
def execTrapEntry (core slot : Nat) (s : State) : Out :=
  let d := s.dev
  if (d.coreAt core).halted || ((d.ctxAt core slot).any fun x => x.awaits) then conclude s d []
  else conclude s ((trapEntry d core slot).useTurnOf core slot) []

/-- A posted entry of the array queue, which no park stands behind (R185). -/
def ArrayOp.posted : ArrayOp → Bool
  | .azero _ => true
  | _ => false

/-- Serves the waiters of a semaphore in their order, while its count suffices (R234); `fuel` bounds them. While the core's
clock is halted none is served (R40, R41). -/
def serveSem (core sem : Nat) : Nat → Device → Device
  | 0, d => d
  | fuel + 1, d =>
    let k := d.coreAt core
    match (if k.halted then none else k.semWaiters.find? fun q => q.sem == sem) with
    | none => d
    | some q =>
      let v := k.sems.getD sem 0
      let late : Bool := match d.ctxAt core q.slot with
        | some x => (x.wait?.any fun w => (expired w.expiry d.wall).isSome)
        | none => true
      let d1 := d.setCore core { k with semWaiters := k.semWaiters.erase q }
      if late then serveSem core sem fuel d1
      else if q.need.toNat ≤ v.toNat then
        let d2 := d1.onCore core fun k => { k with sems := k.sems.set sem (v - q.need) }
        let dest := match d2.ctxAt core q.slot with
          | some x => (x.wait?.map Wait.dest).getD 0
          | none => 0
        serveSem core sem fuel (d2.wake core q.slot (some (dest, (v - q.need).setWidth 64)))
      else d

/-- Removes the requests a context has standing in other units (R146, R218). -/
def withdraw (d : Device) (core slot : Nat) : Device :=
  let d1 : Device := { d with
    landings := d.landings.filter (fun l => !(l.core == core && l.slot == slot))
    blockReqs := d.blockReqs.filter (fun r => !(r.core == core && r.slot == slot))
    arrivals := d.arrivals.filter (fun r => !(r.core == core && r.slot == slot && (r.kind == 0 || r.kind == 3)))
    markers := d.markers.filter (fun m => !(m.core == core && m.slot == slot && m.rel.isNone)) }
  let left := ((d1.coreAt core).semWaiters.filter fun q => q.slot == slot).map SemWaiter.sem
  let d2 := d1.onCore core fun k =>
    { k with
      arrayQ := k.arrayQ.filter fun e => e.slot != slot || e.started || e.begun || e.op.posted
      semWaiters := k.semWaiters.filter fun q => q.slot != slot
      bufWaiters := k.bufWaiters.filter fun q => q.2 != slot }
  -- R234: the next waiter is first now
  left.foldl (fun d n => serveSem core n (d.coreAt core).semWaiters.length d) d2

/-- The trap of an expired wait (R38): at the instruction, or after it for BAR past its arrival and WLPUSH past its
append (R224, R225). -/
def expireAt (d : Device) (core slot : Nat) (e : Nat × BitVec 8) : Device :=
  match d.ctxAt core slot with
  | none => d
  | some x =>
    let val := BitVec.ofNat 64 e.1
    let d0 := withdraw d core slot
    match x.wait? with
    | some ⟨.barrier _ phase, _, _, dest⟩ =>
      let d1 := completeWait d0 core slot (some (dest, phase.setWidth 64))
      takeTrap d1 core slot e.2 val (x.regs.pc + 4)
    | some ⟨.pushed _, _, _, dest⟩ =>
      let d1 := completeWait d0 core slot (some (dest, 0))
      takeTrap d1 core slot e.2 val (x.regs.pc + 4)
    | some _ =>
      (takeTrap (d0.untake core slot) core slot e.2 val x.regs.pc).onCore core fun k => k.releaseHeld x slot
    | none => d0

/-- The overdue slots that still have a trap to take, in their order (R41). -/
def Core.overdueNow (k : Core) : List Nat :=
  k.overdue.filter fun slot =>
    match k.ctx slot with
    | some x =>
      match x.phase with
      | .trapping _ _ _ => true
      | _ => x.wait?.isSome
    | none => false

/-- A wall-time wait whose instant lies within its bound: its condition came to hold in time (R37, R38). -/
def Wait.inTime (w : Wait) : Bool :=
  match w.kind, w.expiry with
  | .wall n, some (e, _) => decide (n ≤ e)
  | _, _ => false

/-- Whether an expired wait's trap may be taken in the core's present cycle: it is the slot's turn, the port does not judge
the wait (R131), and after a resume the overdue contexts go in their order (R38, R41). -/
def expiring (d : Device) (core slot : Nat) (cause : BitVec 8) : Option (Nat × BitVec 8) :=
  let k := d.coreAt core
  match k.ctx slot with
  | none => none
  | some x =>
    match x.wait? with
    | none => none
    | some w =>
      if k.halted || k.fenced || k.used == some k.cyc || (w.inTime && !k.overdueNow.contains slot) || k.cyc % 16 != slot || decide (w.kind = .port) || decide (w.kind = .array) && (k.arrayQ.any fun e =>
          (e.started || e.begun) && e.slot == slot) || (d.landings.any fun l => l.core == core && l.slot == slot && l.reserved.isSome) || (k.overdueNow.contains slot && k.overdueNow.head? != some slot) then none
      else
        match expired w.expiry d.wall with
        | some e => if e.2 = cause then some e else none
        | none => none

/-- WAITLIM_EXPIRY (R38): the trap uses the slot's turn. -/
def execWaitlimExpiry (core slot : Nat) (s : State) : Out :=
  match expiring s.dev core slot cWAITLIM with
  | some e => conclude s ((expireAt s.dev core slot e).useTurnOf core slot) []
  | none => conclude s s.dev []

/-- DEADLINE_EXPIRY (R38): the trap uses the slot's turn. -/
def execDeadlineExpiry (core slot : Nat) (s : State) : Out :=
  match expiring s.dev core slot cDEADLINE with
  | some e => conclude s ((expireAt s.dev core slot e).useTurnOf core slot) []
  | none => conclude s s.dev []

/-- A cycle-counted wait that is over readies its context (R37). -/
def endWaitc (d : Device) (core slot : Nat) : Device :=
  match d.ctxAt core slot with
  | some x =>
    match x.phase with
    | .sleeping ⟨.cycle n, _, _, dest⟩ => if n ≤ (d.coreAt core).cyc then d.wake core slot (some (dest, 0)) else d
    | _ => d
  | none => d

/-- A wall-time wait that is over readies its context in the core's first cycle at or after it (R37); one that was over within
its bound ends even where no cycle began in between, unless the bound passed in a halt (R38, R41). -/
def endWaitw (d : Device) (core slot : Nat) : Device :=
  match d.ctxAt core slot with
  | some x =>
    match x.phase with
    | .sleeping ⟨.wall n, t0, e, dest⟩ =>
      if n ≤ d.wall then
        if (⟨.wall n, t0, e, dest⟩ : Wait).inTime && !(d.coreAt core).overdueNow.contains slot then
          completeWait d core slot (some (dest, 0))
        else d.wake core slot (some (dest, 0))
      else d
    | _ => d
  | none => d

/-- A WAITK whose mask names a slot that has stopped ends (R213): of several, the lowest. gD is written at the wake, and the context's
next turn issues the next instruction: the spec does not say whether a woken sleeping form uses a turn to complete
(assumption 113, DESIGN CHOICE). -/
def endWaitk (d : Device) (core slot : Nat) : Device :=
  match d.ctxAt core slot with
  | some x =>
    match x.phase with
    | .sleeping ⟨.slots mask, _, _, dest⟩ =>
      match (List.range 16).find? fun i => mask.getLsbD i && (d.ctxAt core i).any fun y => match y.phase with
        | .stopped _ _ _ => true
        | _ => false with
      | some i => d.wake core slot (some (dest, BitVec.ofNat 64 i))
      | none => d
    | _ => d
  | none => d

/-- A timed wait that ends in the core's coming cycle: where that is the context's own turn's cycle, it waits for the next (R14). -/
def endsTimed (s : State) (core slot : Nat) (f : Device → Device) : Out :=
  let d := s.dev
  if (d.coreAt core).halted then conclude s d []
  else
    let d1 := f d
    conclude s (if decide ((d1.ctxAt core slot).map Context.phase ≠ (d.ctxAt core slot).map Context.phase) then d1.useTurnOf core slot
      else d1) []

/-- WAITC_EXPIRY (R37). -/
def execWaitcExpiry (core slot : Nat) (s : State) : Out := endsTimed s core slot fun d => endWaitc d core slot
/-- WAITW_EXPIRY (R37). -/
def execWaitwExpiry (core slot : Nat) (s : State) : Out := endsTimed s core slot fun d => endWaitw d core slot

/-- CLOCK_HALT (R40): no cycle and no turn occurs until the resume. -/
def execClockHalt (core : Nat) (s : State) : Out :=
  conclude s (s.dev.onCore core fun k => { k with halted := true, haltAt := s.dev.now, woke := [] }) []

/-- Puts an element into a sorted list. -/
def insertBy {α : Type} (le : α → α → Bool) (x : α) : List α → List α
  | [] => [x]
  | y :: r => if le x y then x :: y :: r else y :: insertBy le x r

/-- A list in order. -/
def sortBy {α : Type} (le : α → α → Bool) (l : List α) : List α := l.foldr (insertBy le) []

/-- Slots whose expiry instant passed, by instant and then slot (R41). -/
def overdueSlots (k : Core) (wall : Nat) : List Nat :=
  let l := k.slots.zipIdx.filterMap fun q =>
    match q.1 with
    | some x =>
      match x.wait? with
      | some w =>
        match expired w.expiry wall with
        | some e => if decide (w.kind = .port) then none else some (e.1, q.2)
        | none => none
      | none => none
    | none => none
  (sortBy (fun a b => decide (a.1 < b.1) || (a.1 == b.1 && decide (a.2 ≤ b.2))) l).map Prod.snd

/-- A context whose stream stall outlasted its bound during a halt: it is parked, so that it traps (R38, R41). -/
def Context.overStall (x : Context) (wall : Nat) : Context :=
  match x.phase, x.stallSince with
  | .ready, some t0 =>
    match (if x.stalled then expiryOf x.regs.sys t0 else none) with
    | some (e, c) => if e < wall then { x with phase := .parked ⟨.retry, t0, some (e, c), 0⟩ } else x
    | none => x
  | _, _ => x

/-- The clock of a core starts again (R41): the deadlines that passed during the halt are taken in their order. -/
def Core.restart (k : Core) (wall : Nat) : Core :=
  let k1 := { k with slots := k.slots.map fun (o : Option Context) => o.map fun (x : Context) => x.overStall wall }
  { k1 with halted := false, overdue := overdueSlots k1 wall }

end Sys2Proof.Machine
end

