-- ==== Sys2Proof/Machine/System.lean ====
section
/-! DEFINITION. System registers (R33 to R36, R115, R116, R260, R352, R365, R390, R391, R395, R397), the TRAP major
(R120), sleeping waits (R213), RDRES (R28) and fences (R137, R259). -/
namespace Sys2Proof.Machine

/-- Core cycles in the 64 ns before a wall tick, in 1/256 cycles (R35). -/
def cyclesIn (k : Core) (lo hi : Nat) : Nat :=
  (k.cycles.map fun c =>
    let a := max c.1 lo
    let b := min c.2 hi
    if b ≤ a then 0 else if a = c.1 ∧ b = c.2 then 256 else 256 * (b - a) / (c.2 - c.1)).sum

/-- RATIO for a read whose cycle begins at an instant (R35). -/
def ratioAt (k : Core) (begun : Nat) : Word :=
  let hi := begun / Config.fsPerNs * Config.fsPerNs
  BitVec.ofNat 64 (min 0xFFFF (cyclesIn k (hi - 64 * Config.fsPerNs) hi))

/-- GROUPS: four group ids, 0xFF for none (R115). -/
def groupsWord (gs : List Nat) : Word :=
  BitVec.ofNat 64 ((List.range 4).foldr (fun j acc => gs.getD j 0xFF % 256 + 256 * acc) 0)

/-- Assigned numbers from 0x100 up. -/
def assignedHigh (n : Nat) : Bool :=
  [0x100, 0x101, 0x102, 0x103, 0x104, 0x105, 0x106, 0x110, 0x111, 0x112, 0x120, 0x121, 0x122, 0x130, 0x131, 0x132, 0x133,
    0x134, 0x135, 0x136, 0x137, 0x138].contains n
/-- Of those, the registers that are only read. -/
def readOnlyHigh (n : Nat) : Bool := n == 0x101 || n == 0x121 || n == 0x131 || n == 0x136

/-- Value of a register below 0x100 (R115). -/
def sysLow (d : Device) (x : Context) (n : Nat) : Word :=
  let k := d.me
  let r := x.regs.sys
  match n with
  | 0x00 => BitVec.ofNat 64 k.cyc
  | 0x01 => BitVec.ofNat 64 d.wall
  | 0x02 => ratioAt k k.begun
  | 0x03 => 0x2333
  | 0x04 => r.wlim
  | 0x05 => r.dline
  | 0x06 => BitVec.ofNat 64 (packName d.core d.slot)
  | 0x07 => x.tid.setWidth 64
  | 0x08 => BitVec.ofNat 64 x.launch
  | 0x09 => groupsWord x.groups
  | 0x0A => r.srseed
  | 0x0B => r.trapcause.setWidth 64
  | 0x0C => r.trappc
  | 0x0D => r.trapval
  | 0x0E => r.trapvec
  | 0x0F => k.rresSeq.setWidth 64
  | 0x10 => BitVec.ofNat 64 x.part
  | 0x11 => BitVec.ofNat 64 x.vf
  | 0x12 => r.fflags.setWidth 64
  | 0x13 => r.frm.setWidth 64
  | 0x14 => r.srctr.setWidth 64
  | 0x15 => r.trapscr
  | 0x16 => if r.inh then 1 else 0
  | 0x17 => if r.pin then 1 else 0
  | 0x18 => r.shipcnt.setWidth 64
  | 0x20 => k.spcfg.setWidth 64
  | _ => 0

/-- Value of a privileged register (R352, R365, R390, R391, R395, R397). -/
def sysHigh (d : Device) (x : Context) (n : Nat) : Word :=
  let p := d.partAt x.part
  match n with
  | 0x100 => p.fqbase
  | 0x101 => p.fqwr.setWidth 64
  | 0x102 => p.fqrd.setWidth 64
  | 0x103 => p.fqans.setWidth 64
  | 0x104 => p.xvfsel.setWidth 64
  | 0x105 => if (d.vfAt p.xvfsel.toNat).part = some x.part then (d.vfAt p.xvfsel.toNat).root else 0
  | 0x106 => BitVec.ofNat 64 p.pool.length
  | 0x110 => x.regs.sys.presel
  | 0x111 => x.regs.sys.prearea
  | 0x112 => if d.commands.any fun c => x.command == some c.id then 1 else 0
  | 0x120 => p.elbase
  | 0x121 => p.elwr
  | 0x122 => p.elrd.setWidth 64
  | 0x130 => p.trbase
  | 0x131 => p.trwr.setWidth 64
  | 0x132 => p.trrd.setWidth 64
  | 0x133 => p.trplay
  | 0x134 => p.trpcnt.setWidth 64
  | 0x135 => p.krbase
  | 0x136 => p.krwr.setWidth 64
  | 0x137 => p.krrd.setWidth 64
  | 0x138 => p.grbase
  | _ => 0

/-- Step 4 of R89 for MFS and MTS (R85, R86). -/
def sysPrivilege (write : Bool) (n : Nat) (x : Context) : Option (BitVec 8) :=
  if n < 0x100 then none
  else if !x.priv then some cPRIV
  else if !assignedHigh n || (write && readOnlyHigh n) then some cILLEGAL
  else none

/-- MFS (R115, R116). -/
def execMfs (sys : BitVec 11) (d : BitVec 7) (s : State) : Out :=
  let n := sys.toNat
  issue s (.mfs sys d)
    { usesD d with
      illegal := fun _ => !mfsNumber n
      privilege := fun _ x => sysPrivilege false n x }
    fun dv x _ => .ok (dv.putG d.toNat (if n < 0x100 then sysLow dv x n else sysHigh dv x n))

/-- Bits hi:lo set. -/
def bitMask (hi lo : Nat) : Word := BitVec.ofNat 64 (2^(hi + 1) - 2^lo)

/-- An index register's move (R352, R390, R395, R397): ignored above the write index or more than a ring below it. -/
def indexMoves (wr v : BitVec 32) (n : Nat) : Bool := decide ((wr - v).toNat ≤ n)

/-- FQRD := v, and waiting entries enter the freed room (R352, R357). -/
def setFqrd (w : Work) (part : Nat) (v : BitVec 32) : Work :=
  let p := w.d.partAt part
  if indexMoves p.fqwr v (ringSize p.fqbase 4) then
    (w.on fun d => d.onPart part fun p => { p with fqrd := v }).drainFaults part p.faults.length
  else w

/-- Contexts of a partition parked for the answer to an entry become ready (R356). -/
def readySwept (k : Core) (part i : Nat) (addr : Word) : Core :=
  { k with slots := k.slots.map fun o => o.map fun x =>
      if x.part = part ∧ x.phase = .swept i then { x with phase := .ready, answered := some addr } else x
           gens := k.gens.map fun g => if g.waiting = some i then { g with waiting := none, answered := some addr } else g }

/-- FQANS := i: the entry is answered, and its context, packet, fill or stream goes on (R356, R358). -/
def answerFault (d : Device) (part : Nat) (i : BitVec 32) : Device :=
  match (d.partAt part).faults.find? fun f => f.index == some i.toNat with
  | none => d
  | some f =>
    let addr := f.words.getD 1 0
    let d1 := d.onPart part fun p => { p with fqans := i, faults := p.faults.filter fun g => g.index != some i.toNat }
    { d1 with
      cores := d1.cores.map fun c => (c.1, if c.2.part = part then readySwept c.2 part i.toNat addr else c.2)
      packets := d1.packets.map fun q =>
        if q.waiting = some i.toNat ∧ (d1.vfAt q.vf).part = some part then { q with waiting := none, answered := some addr } else q
      fills := d1.fills.map fun q =>
        if q.waiting = some i.toNat ∧ q.part = part then { q with waiting := none, answered := some addr } else q }

/-- MIGPOOL: adds a 64 KiB frame of the partition's device memory to its die's pool (R352). -/
def addPool (d : Device) (part : Nat) (frame : Word) : Device :=
  let f := frame.toNat % 2^57 / 65536 * 65536
  d.onPart part fun p =>
    if p.owns f && !p.pool.contains (dieOfPa f, f) then { p with pool := p.pool ++ [(dieOfPa f, f)] } else p

/-- TRRD := v: accesses held by a full trace ring go on (R395). -/
def setTrrd (w : Work) (part : Nat) (v : BitVec 32) : Work :=
  let p := w.d.partAt part
  if indexMoves p.trwr v (ringSize p.trbase 5) then
    let w1 := w.on fun d => d.onPart part fun p => { p with trrd := v }
    { w1 with touched := w1.touched ++ w1.d.waiters.map fun q => q.2.2.2.key / 8 }
  else w

/-- KRRD := v: inputs held by a full ring come in again, in their order (R397). -/
def setKrrd (d : Device) (part : Nat) (v : BitVec 32) : Device :=
  let p := d.partAt part
  if indexMoves p.krwr v (ringSize p.krbase 5) then
    let d1 := d.onPart part fun p => { p with krrd := v, held := [] }
    { d1 with agenda := p.held.map (fun e => Move.input e.2 e.1 d.now) ++ d1.agenda }
  else d

/-- A ring's base register (R352, R390, R395, R397): none where the value is refused. -/
def ringValue (v mask : Word) (bits lo hi : Nat) : Option Word :=
  let n := v.toNat % 2^bits
  if v &&& ~~~mask ≠ 0 ∨ n < lo ∨ hi < n then none else some v

/-- MTS of a register below 0x100: none where the value is refused (R60, R88, R195, R260). -/
def setLow (d : Device) (n : Nat) (v : Word) : Option Device :=
  let sys (f : SysRegs → SysRegs) : Option Device := some (d.onCur fun x => x.onSys f)
  match n with
  | 0x04 => sys fun r => { r with wlim := v }
  | 0x05 => sys fun r => { r with dline := v }
  | 0x0A => sys fun r => { r with srseed := v }
  | 0x0B => sys fun r => { r with trapcause := v.setWidth 8 }
  | 0x0C => sys fun r => { r with trappc := v &&& ~~~1 }
  | 0x0D => sys fun r => { r with trapval := v }
  | 0x0E => sys fun r => { r with trapvec := v &&& ~~~1 }
  | 0x12 => sys fun r => { r with fflags := v.setWidth 6 }
  | 0x13 => if 4 < v.toNat then none else sys fun r => { r with frm := v.setWidth 3 }
  | 0x14 => sys fun r => { r with srctr := v.setWidth 32 }
  | 0x15 => sys fun r => { r with trapscr := v }
  | 0x16 => sys fun r => { r with inh := v.getLsbD 0 }
  | 0x17 => if 1 < v.toNat then none else sys fun r => { r with pin := v.getLsbD 0 }
  | 0x20 => if 2^13 ≤ v.toNat then none else some (d.onMe fun k => { k with spcfg := v.setWidth 13 })
  | _ => some d

/-- MTS of a privileged register: none where the value is refused (R88). A ring's base register refuses a value before it looks at
whether the ring is empty, and PRESEL takes a slot number beside SCOPE 1, which then names nothing (assumption 103, DESIGN CHOICE). -/
def setHigh (w : Work) (x : Context) (n : Nat) (v : Word) : Option Work :=
  let part := x.part
  let p := w.d.partAt part
  let on (f : Partition → Partition) : Option Work := some (w.on fun d => d.onPart part f)
  let v32 := v.setWidth 32
  match n with
  | 0x100 => (ringValue v (bitMask 56 8 ||| bitMask 3 0) 4 4 12).bind fun v =>
      if p.fqwr ≠ p.fqrd then some w else on fun p => { p with fqbase := v }
  | 0x102 => some (setFqrd w part v32)
  | 0x103 => some (w.on fun d => answerFault d part v32)
  | 0x104 => on fun p => { p with xvfsel := v.setWidth 9 }
  | 0x105 =>
    let vf := p.xvfsel.toNat
    if (w.d.vfAt vf).part = some part then some (w.on fun d => d.onVf vf fun f => { f with root := v &&& bitMask 56 12 }) else some w
  | 0x106 => some (w.on fun d => addPool d part v)
  | 0x110 => if 2^19 ≤ v.toNat then none else some (w.on fun d => d.onCur fun y => y.onSys fun r => { r with presel := v })
  | 0x111 =>
    if v &&& ~~~(bitMask 56 12) ≠ 0 then none else some (w.on fun d => d.onCur fun y => y.onSys fun r => { r with prearea := v })
  | 0x112 =>
    let op := v.toNat % 4
    if op = 1 ∨ op = 2 then
      some (w.on fun d => ({ d with
        nextAccess := d.nextAccess + 1
        commands := d.commands ++ [{ save := op == 1, presel := x.regs.sys.presel, prearea := x.regs.sys.prearea, core := d.core, slot := d.slot, vf := x.vf, part := x.part
                                     after := d.nextAccess, id := d.nextAccess, sent := d.me.sent }] } : Device).onCur fun y => { y with command := some d.nextAccess })
    else none
  | 0x120 => (ringValue v (bitMask 56 12 ||| bitMask 3 0) 4 4 12).bind fun v =>
      if p.elwr.setWidth 32 ≠ p.elrd then some w else on fun p => { p with elbase := v }
  | 0x122 => if indexMoves (p.elwr.setWidth 32) v32 (ringSize p.elbase 4) then on fun p => { p with elrd := v32 } else some w
  | 0x130 => (ringValue v (bitMask 56 12 ||| bitMask 4 0) 5 8 20).bind fun v =>
      if p.trwr ≠ p.trrd then some w else on fun p => { p with trbase := v }
  | 0x132 => some (setTrrd w part v32)
  | 0x133 => if v &&& ~~~(bitMask 56 12 ||| 1) ≠ 0 then none else on fun p => { p with trplay := v, replayed := [] }
  | 0x134 => on fun p => { p with trpcnt := v32 }
  | 0x135 => (ringValue v (bitMask 56 12 ||| bitMask 4 0) 5 8 20).bind fun v =>
      if p.krwr ≠ p.krrd then some w else on fun p => { p with krbase := v }
  | 0x137 => some (w.on fun d => setKrrd d part v32)
  | 0x138 => if v &&& ~~~(bitMask 56 30 ||| bitMask 15 0) ≠ 0 then none else on fun p => { p with grbase := v }
  | _ => some w

/-- MTS (R115, R116): a value the register refuses raises ILLEGAL (R88). -/
def execMts (sys : BitVec 11) (a : BitVec 7) (s : State) : Out :=
  let n := sys.toNat
  let i : Instr := .mts sys a
  issue s i
    { usesA false a with
      illegal := fun _ => !mtsNumber n
      privilege := fun _ x => sysPrivilege true n x
      outside := decide (0x20 ≤ n) }
    fun dv x vs =>
      let v := wordAt vs 0
      if n < 0x100 then
        match setLow dv n v with
        | some d => .ok d
        | none => .trap cILLEGAL (trapWord i)
      else
        match setHigh ⟨s.mem, dv, [], []⟩ x n v with
        | some w => .done w.d w.es none none
        | none => .trap cILLEGAL (trapWord i)

/-- FQANS as a happening of the partition (R356). -/
def execFqans (part : Nat) (entry : BitVec 32) (s : State) : Out := conclude s (answerFault s.dev part entry) []
/-- MIGPOOL (R352). -/
def execMigpool (part : Nat) (frame : Word) (s : State) : Out := conclude s (addPool s.dev part frame) []
/-- FQRD (R352, R357). -/
def execFqrd (part : Nat) (value : BitVec 32) (s : State) : Out := (setFqrd (.start s) part value).finish s
/-- TRRD (R395). -/
def execTrrd (part : Nat) (value : BitVec 32) (s : State) : Out := (setTrrd (.start s) part value).finish s
/-- KRRD (R397). -/
def execKrrd (part : Nat) (value : BitVec 32) (s : State) : Out := conclude s (setKrrd s.dev part value) []

/-- ECALL (R120). -/
def execEcall (s : State) : Out := issue s .ecall {} fun _ _ _ => .trap cECALL 0
/-- BRK (R120). -/
def execBrk (s : State) : Out := issue s .brk {} fun _ _ _ => .trap cBRK 0
/-- RETT (R120): ILLEGAL outside a handler. -/
def execRett (s : State) : Out :=
  issue s .rett {} fun dv x _ =>
    if x.regs.sys.inh then .done (dv.onCur returnTrap) [] (some x.regs.sys.trappc) none
    else .trap cILLEGAL (trapWord .rett)
/-- HALT (R120, R216): waits for the pending results, then stops. -/
def execHalt (s : State) : Out :=
  issue s .halt {} fun dv x _ => if x.awaits || doomed dv dv.core dv.slot x then .retry else .over (stopCtx dv dv.core dv.slot 1 0 0) []

/-- A sleeping form that ends at once, takes a pending wake, or sleeps (R213). -/
def sleepForm (dv : Device) (x : Context) (d : BitVec 7) (now : Option Word) (kind : WaitKind) : Verdict :=
  match now with
  | some code => .ok (dv.putG d.toNat code)
  | none =>
    if x.regs.wakePending then .ok ((dv.onCur fun y => y.onRegs fun r => { r with wakePending := false }).putG d.toNat 2)
    else .wait true kind d.toNat dv []

/-- WAITC (R37, R213). -/
def execWaitc (sa : Bool) (a d : BitVec 7) (s : State) : Out :=
  issue s (.waitc sa a d) (usesDA sa d a) fun dv x vs =>
    let n := wordAt vs 0
    sleepForm dv x d (if n = 0 then some 0 else none) (.cycle (dv.me.cyc + n.toNat))
/-- WAITW (R37, R213). -/
def execWaitw (sa : Bool) (a d : BitVec 7) (s : State) : Out :=
  issue s (.waitw sa a d) (usesDA sa d a) fun dv x vs =>
    let n := (wordAt vs 0).toNat
    sleepForm dv x d (if n ≤ dv.wall then some 0 else none) (.wall n)
/-- SLEEPM (R139, R213). -/
def execSleepm (d : BitVec 7) (s : State) : Out :=
  issue s (.sleepm d) (usesD d) fun dv x _ =>
    sleepForm dv x d (if x.monitor.any fun m => m.fired then some 0 else none) .monitor

/-- Slots of a mask that are not empty, ascending. -/
def maskedSlots (k : Core) (mask : BitVec 16) : List (Nat × Context) :=
  (List.range 16).filterMap fun i => if mask.getLsbD i then (k.ctx i).map fun x => (i, x) else none

/-- Whether a context is stopped. -/
def Context.isStopped (x : Context) : Bool :=
  match x.phase with
  | .stopped _ _ _ => true
  | _ => false

/-- WAITK (R213). -/
def execWaitk (sa : Bool) (a d : BitVec 7) (s : State) : Out :=
  issue s (.waitk sa a d) (usesDA sa d a) fun dv x vs =>
    let mask := (wordAt vs 0).setWidth 16
    let l := maskedSlots dv.me mask
    let now := match l.find? fun q => q.2.isStopped with
      | some q => some (BitVec.ofNat 64 q.1)
      | none => if l.isEmpty then some allOnes else none
    sleepForm dv x d now (.slots mask)

/-- RDRES (R28, R214): waits for its sequence number in RRES and takes it; the next held result follows (R27). -/
def execRdres (sa : Bool) (a d : BitVec 7) (s : State) : Out :=
  issue s (.rdres sa a d) { usesDA sa d a with outside := true, inner := true } fun dv _ vs =>
    let k := dv.me
    let q := (wordAt vs 0).setWidth 32
    if k.rresSeq = q ∧ k.rresTaken = false then
      if k.rresPoison then .trap cPOISON (BitVec.ofNat 64 (0xFD * 2^56 + 6 * 2^12))
      else
        let v := k.rres
        let dv1 := dv.onMe fun k =>
          let k1 := ({ k with rresTaken := true }).publish
          { k1 with slots := k1.slots.map (fun o => o.map fun x => { x with reductions := x.reductions.filter (· != q) }) }
        .ok (dv1.putG d.toNat v)
    else .retry

/-- Whether the accesses a fence waits for have performed with respect to its scope (R137, R275). -/
def fenceDone (d : Device) (x : Context) (kind : Nat) (sc : BitVec 2) : Bool :=
  let mine := d.accesses.filter fun a => a.core == d.core && a.slot == d.slot && a.tid == x.tid && !a.orphan
  let valued := mine.all fun a => !a.kind.long || a.complete
  -- R377, R382: at system scope what the host and the peers have not reported counts too
  let away := sc == 3 && ((d.hmwrs.any fun h => decide (h.1 < x.fence.getD d.nextAccess)) ||
    mine.any fun a => a.pieces.any fun p => !p.done && p.port.far)
  !away && (if kind = 1 then valued
    else
      -- R276: what a load of a completion record has returned counts wherever its port lies
      (kind != 3 || valued) && mine.all fun a => a.pieces.all fun p => p.done || !p.port.within sc d.core)

/-- A fence marker of the context whose turn it is, which it still waits for. -/
def Device.markedMine (d : Device) (m : Marker) : Bool := m.core == d.core && m.slot == d.slot && m.rel.isNone

/-- Sends a fence marker to every die the core has written to, unless the fence has sent them (R259). -/
def sendMarkers (d : Device) : Device :=
  if d.markers.any d.markedMine then d
  else
    let ms : List Marker := d.me.sent.map fun q => { core := d.core, slot := d.slot, die := q.1, count := q.2 }
    { d with markers := d.markers ++ ms }

/-- A fence at its turn (R137, R259): whether its condition holds, with every marker of a fence at package or system scope
acknowledged, and the device with its markers sent, or removed where it is done. -/
def fencing (dv : Device) (x : Context) (kind : Nat) (sc : BitVec 2) : Bool × Device :=
  let dv0 := dv.onCur fun y => { y with fence := some (x.fence.getD dv.nextAccess) }
  let dv1 := if 2 ≤ sc.toNat then sendMarkers dv0 else dv0
  let done := fenceDone dv1 x kind sc && (dv1.markers.filter dv1.markedMine).all fun m => m.acked
  (done, if done then ({ dv1 with markers := dv1.markers.filter fun m => !dv1.markedMine m } : Device).onCur fun y => { y with fence := none } else dv1)

/-- The context whose turn it is passes a releasing fence whose condition does not hold yet: later writes wait for it, later
loads need not (R137, R275). -/
def passRel (d : Device) (sc : BitVec 2) : Device :=
  let d1 : Device := { d with
    markers := d.markers.map fun m => if d.markedMine m then { m with rel := some d.nextAccess } else m
    nextAccess := d.nextAccess + 1 }
  d1.onCur fun x => { x with rels := (x.rels.filter fun q => relOpen d d.core d.slot { x with rels := [q] }) ++ [(d.nextAccess, sc)] }

/-- After FENCE.FULL the lines that INVAL named are fetched anew (R73). -/
def Core.refetch (k : Core) : Core :=
  { k with icache := k.icache.filter fun h => !k.stale.contains (lineOf h.1), stale := [] }

/-- FENCE FULL, ACQ, REL and ENGINE (R137): parked until the condition holds. Whether loads after a REL begin before that is a
free choice at each turn: the context then goes on, and its later writes wait. -/
def fenceOp (s : State) (i : Instr) (kind : Nat) (sc : BitVec 2) : Out :=
  issue s i {} fun dv x _ =>
    let (done, dv1) := fencing dv x kind sc
    if done then .ok (if kind = 0 then dv1.onMe Core.refetch else dv1)
    else if kind = 2 then
      let (b, dv2) := dv1.drawBit
      if b then .ok (passRel dv2 sc) else .wait false .retry 0 dv2 []
    else .wait false .retry 0 dv1 []

def execFenceFull (sc : BitVec 2) (s : State) : Out := fenceOp s (.fenceFull sc) 0 sc
def execFenceAcq (sc : BitVec 2) (s : State) : Out := fenceOp s (.fenceAcq sc) 1 sc
def execFenceRel (sc : BitVec 2) (s : State) : Out := fenceOp s (.fenceRel sc) 2 sc
def execFenceEngine (sc : BitVec 2) (s : State) : Out := fenceOp s (.fenceEngine sc) 3 sc

/-- FENCE STRINGS (R137): every OPASS the context issued has delivered. -/
def execFenceStrings (sc : BitVec 2) (s : State) : Out :=
  issue s (.fenceStrings sc) {} fun dv _ _ =>
    if (dv.me.sends.any fun q => q.owner == dv.slot) then .retry else .ok dv

/-- Whether a die has received the counted writes of a core: the counts are modulo 2^32 (R259). -/
def Device.received (d : Device) (core die : Nat) (count : BitVec 32) : Bool :=
  decide ((((assocGet die (d.coreAt core).got).getD 0) - count).toNat < 2^31)

/-- FENCE_MARKER (R259): the marker reaches the die, which holds it until the counted writes arrive. A sleeping link starts its
wake (R266); a marker to a lost die is answered by nobody and is gone. -/
def execFenceMarker (n : Nat) (s : State) : Out :=
  let d := s.dev
  match d.markers[n]? with
  | none => conclude s d []
  | some m =>
    let (up, d1) := reachDie d (dieOfCore m.core) m.die
    if up then conclude s { d1 with markers := d1.markers.modify n fun m => { m with arrived := true } } []
    else if d.lostDies.contains m.die then conclude s { d with markers := d.markers.eraseIdx n } []
    else conclude s d1 []

/-- FENCE_MARKER_ACK (R259): once the counted writes are there, the acknowledgement reaches the fencing core. -/
def execFenceMarkerAck (n : Nat) (s : State) : Out :=
  let d := s.dev
  match d.markers[n]? with
  | some m =>
    if m.arrived && linkUp d (dieOfCore m.core) m.die && d.received m.core m.die m.count then
      conclude s { d with markers := if m.rel.isSome then d.markers.eraseIdx n else d.markers.modify n fun m => { m with acked := true } } []
    else conclude s d []
  | none => conclude s d []

end Sys2Proof.Machine
end

