-- ==== Sys2Proof/Machine/Paging.lean ====
section
/-! DEFINITION. Tensors (R140), invalidation of translations (R144, R351, R359), page migration (R145, R360 to R364) and the
fault sweep (R354 to R357). -/
namespace Sys2Proof.Machine

/-- Whether the context whose turn it is has an access to a word that has not performed: a later read of its own waits for
it (R274). -/
def ownPending (d : Device) (key : Nat) : Bool :=
  d.accesses.any fun a => a.core == d.core && a.slot == d.slot && !a.orphan && a.pieces.any fun p => !p.done && p.key / 8 == key / 8

/-- Reads n dwords from an address for an instruction that reads them at issue, with the traps of R124. -/
def readDwords (m : Memory) (x : Context) : Nat → Device → Word → List Word → (Device → List Word → Verdict) → Verdict
  | 0, d, _, acc, k => k (d.peerForget 7 (d.core, d.slot)) acc
  | n + 1, d, a, acc, k =>
    withPlace m d x a 1 needR .plain fun d p =>
      if ownPending d p.key then .retry
      else if d.lostLine p.line || decide (p.kind = .chip) && d.lostDies.contains p.port.die then .trap cCOHLOSS a
      else
        match p.kind with
        | .host =>
          let (ok, d1) := hostReady d x.part (9, 0, 0) p.key false
          if !ok then .wait false .retry 0 d1 []
          else if m.isPoisoned p.key then .poison a p.key
          else readDwords m x n d1 (a + 8) (acc ++ [m.word p.key]) k
        | .peer =>
          match d.peerRead x.part ⟨7, (d.core, d.slot), p.key⟩ 8 with
          | .answer bs d1 => readDwords m x n d1 (a + 8) (acc ++ [BitVec.ofNat 64 (bytesNat bs)]) k
          | .down => .poison a p.key
          | .away d1 => .wait false .retry 0 d1 []
        | .device =>
          let (ok, d1) := if 0 < (d.lineAt p.line).heldBy d.core then (true, d) else d.homeHas p.line false
          if !ok then .wait false .retry 0 d1 []
          else if m.isPoisoned p.key then .poison a p.key
          else readDwords m x n d (a + 8) (acc ++ [m.word p.key]) k
        | .chip => if m.isPoisoned p.key then .poison a p.key else readDwords m x n d (a + 8) (acc ++ [m.word p.key]) k

/-- A TDREG record (R140): none where it is invalid, otherwise the id and the tensor to register, or none to deregister. -/
def tensorRecord (ws : List Word) (vf launch : Nat) : Option (Nat × Option Tensor) :=
  let base := ws.getD 0 0
  let d1 := (ws.getD 1 0).toNat
  let d2 := (ws.getD 2 0).toNat
  let id := d1 % 2^32
  let tag := d1 / 2^32
  let rows := d2 % 2^32
  let cols := d2 / 2^32
  if (ws.getD 3 0) ≠ 0 ∨ id = 0xFFFFFFFF ∨ tag = 0 ∨ 12 < tag ∨ base.toNat % 65536 ≠ 0 then none
  else if rows = 0 ∧ cols = 0 then some (id, none)
  else if rows = 0 ∨ cols = 0 ∨ 2^24 < rows ∨ 2^24 < cols then none
  else some (id, some ⟨id, base, BitVec.ofNat 4 tag, rows, cols, vf, launch⟩)

/-- Virtual addresses of the 64 KiB pages of a tensor's footprint. -/
def Tensor.pages (t : Tensor) : List Word :=
  (List.range ((t.footprint + 65535) / 65536)).map fun i => t.base + BitVec.ofNat 64 (65536 * i)

/-- The frame of a page if it is mapped in the partition's device memory, not anchored and not migrating. -/
def ordinaryFrame (m : Memory) (d : Device) (part vf : Nat) (va : Word) : Option Nat :=
  match walk m d part vf va with
  | .leaf level e _ =>
    if !canonical va || eBit e 4 || eBit e 5 || eBit e 11 then none
    else some ((frameOf e + va.toNat % pageSize level) / 65536 * 65536)
  | _ => none

/-- Registers or deregisters a tensor: TDREG's code, and the change (R140). -/
def registerTensor (m : Memory) (d : Device) (part : Nat) (vf launch : Nat) (ws : List Word) : Nat × Device :=
  let p := d.partAt part
  match tensorRecord ws vf launch with
  | none => (3, d)
  | some (id, none) =>
    if p.tensors.any fun t => t.id == id then
      (0, d.onPart part fun p => { p with tensors := p.tensors.filter fun t => t.id != id })
    else (5, d)
  | some (id, some t) =>
    if p.tensors.any fun u => u.id == id then (1, d)
    else if 4096 ≤ p.tensors.length then (2, d)
    else if (p.tensors.any fun u => u.vf == vf && decide (u.base.toNat < t.base.toNat + t.footprint ∧ t.base.toNat < u.base.toNat + u.footprint)) ||
        t.pages.any fun a => (ordinaryFrame m d part vf a).isNone then (4, d)
    else (0, d.onPart part fun p => { p with tensors := p.tensors ++ [t] })

/-- Whether the walk of a page of a tensor to register must wait for a table that migrates (R362). -/
def tensorHeld (m : Memory) (d : Device) (part vf : Nat) (ws : List Word) : Bool :=
  match tensorRecord ws vf 0 with
  | some (_, some t) => t.pages.any fun a => decide (walk m d part vf a = .held)
  | _ => false

/-- Whether an access in flight or a chunk in progress has a part to perform in a frame. -/
def busyFrame (d : Device) (f size : Nat) : Bool :=
  (d.accesses.any fun a => a.pieces.any fun p => !p.done && decide (f ≤ p.key ∧ p.key < f + size)) ||
  d.packets.any fun k => k.rest.any fun e => decide (f ≤ e.1 ∧ e.1 < f + size)

/-- Whether a line lies in a frame. -/
def inFrame (f size line : Nat) : Bool := decide (f / 128 ≤ line ∧ line < (f + size) / 128)

/-- Lines of a frame that some L1 holds. -/
def heldLines (d : Device) (f size : Nat) : List Nat :=
  (d.lines.filter fun l => inFrame f size l.1 && !l.2.holders.isEmpty).map Prod.fst

/-- Writes back and drops every L1 copy of a frame's lines (R140, R351). -/
def recallFrame (d : Device) (f size : Nat) : Device := (heldLines d f size).foldl Device.recall d

/-- Lines of a frame that hold something in the view they have been cached in: at an L1, on the way, dirty at their home or in its
write-back buffer (R140, R244). -/
def cachedIn (d : Device) (f size : Nat) : Bool :=
  d.lines.any (fun l => inFrame f size l.1 && (!l.2.holders.isEmpty || l.2.homeDirty)) ||
    d.tokenMsgs.any (fun t => inFrame f size t.line) || d.writeBacks.any fun q => inFrame f size q.2

/-- The page changes its view (R140, R244): L1s give up its lines, whose homes write dirty data to memory; the homes' lines are of
neither view from then on. -/
def uncache (m : Memory) (d : Device) (f size : Nat) : Device :=
  let d1 := recallFrame d f size
  (((d1.lines.filter fun l => inFrame f size l.1 && l.2.homeDirty).map Prod.fst) ++ (d1.writeBacks.filter fun q => inFrame f size q.2).map Prod.snd).foldl
    (fun d line => d.homeClean m line) d1

/-- Lines of a frame are of neither view. -/
def unview (d : Device) (f size : Nat) : Device :=
  (d.lines.filter fun l => inFrame f size l.1 && l.2.tile).foldl (fun d l => d.setLine l.1 { d.lineAt l.1 with tile := false }) d

/-- TDREG (R140): parks until the accesses in flight to the pages have performed, and their lines have left the L1s and been written to
memory. -/
def execTdreg (sa : Bool) (a d : BitVec 7) (s : State) : Out :=
  issue s (.tdreg sa a d) { usesDA sa d a with outside := true } fun dv x vs =>
    let ad := wordAt vs 0
    if misaligned ad 8 then .trap cALIGN ad
    else readDwords s.mem x 4 dv ad [] fun dv ws =>
      let (code, dv1) := registerTensor s.mem dv x.part x.vf x.launch ws
      if code = 4 ∧ (tensorHeld s.mem dv x.part x.vf ws) = true then .retry
      else if code ≠ 0 then .ok (dv.putG d.toNat (BitVec.ofNat 64 code))
      else
        let id := (ws.getD 1 0).toNat % 2^32
        let t := ((dv1.partAt x.part).tensors.find? fun t => t.id == id).or ((dv.partAt x.part).tensors.find? fun t => t.id == id)
        let frames := (t.map fun t => t.pages.filterMap fun a => ordinaryFrame s.mem dv x.part t.vf a).getD []
        if frames.any fun f => busyFrame dv f 65536 || cachedIn dv f 65536 then
          .wait false .retry 0 (frames.foldl (fun d f => uncache s.mem d f 65536) dv) []
        else .ok ((frames.foldl (fun d f => unview d f 65536) dv1).putG d.toNat 0)

/-- Whether an invalidation of an address and size code names a cached translation (R144). -/
def TlbEntry.named (t : TlbEntry) (vf : Nat) (va : Word) (size : Nat) : Bool :=
  let n := if size = 0 then 2^16 else if size = 1 then 2^21 else 2^30
  t.vf == vf && (size == 3 ||
    (decide (va.toNat / n * n < t.base.toNat / pageSize t.level * pageSize t.level + pageSize t.level) &&
     decide (t.base.toNat / pageSize t.level * pageSize t.level < va.toNat / n * n + n)))

/-- Whether an invalidation names the translation of a tag of an L1 (R144). -/
def L1Tag.named (t : L1Tag) (vf : Nat) (va : Word) (size : Nat) : Bool :=
  ({ cluster := 0, vf := t.vf, base := BitVec.ofNat 64 (128 * t.va), level := t.level, entry := t.entry } : TlbEntry).named vf va size

/-- Applies an invalidation everywhere: the translations are dropped from every cluster TLB, and every L1 line they cover is
written back and dropped with its tag, those of host memory too (R144, R351, R359). Instructions already fetched stay (R73). -/
def invalidate (d : Device) (vf : Nat) (va : Word) (size : Nat) : Device :=
  let gone := d.tlb.filter fun t => t.named vf va size
  let d1 : Device := { d with tlb := d.tlb.filter fun t => !t.named vf va size }
  let d2 := gone.foldl (fun d t => recallFrame d (frameOf t.entry + if eBit t.entry 4 then Config.hostBase else 0) (pageSize t.level)) d1
  d2.cores.foldl (fun d c => (c.2.l1.filter fun t => t.named vf va size).foldl (fun (d : Device) t =>
    (d.shed c.1 t.line).onCore c.1 fun k => { k with l1 := k.l1.filter fun q => q != t }) d) d2

/-- TLBINV (R144): only translations of the issuer's own partition are dropped (R336). -/
def execTlbinv (sa : Bool) (b a : BitVec 7) (s : State) : Out :=
  issue s (.tlbinv sa b a)
    { usesAB sa a b with
      privilege := fun _ x => if x.priv then none else some cPRIV
      outside := true }
    fun dv x vs =>
      let v := (wordAt vs 1).toNat
      let vf := v % 512
      let dv1 := if (dv.vfAt vf).part = some x.part then invalidate dv vf (wordAt vs 0) (v / 512 % 4) else dv
      .ok (dv1.onCur fun y => { y with tlbMark := dv.nextAccess })

/-- TLBSYNC (R144): parks until every access that could have used a dropped translation has performed. -/
def execTlbsync (d : BitVec 7) (s : State) : Out :=
  issue s (.tlbsync d) { usesD d with privilege := fun _ x => if x.priv then none else some cPRIV } fun dv x _ =>
    if (dv.accesses.any fun a => a.part == x.part && decide (a.id < x.tlbMark) && !a.complete) ||
        dv.packets.any fun k => !k.rest.isEmpty && (dv.vfAt k.vf).part == some x.part then .retry
    else .ok (dv.putG d.toNat 0)

/-- Begins the migration of a page, or gives MIGR's refusal code (R145, R360, R361 step 1, R362); none where the walker must wait. -/
def acceptMigration (w : Work) (part vf : Nat) (page : Word) (die : Nat) (sem : Option (Nat × Nat))
    (packet : Option (Nat × Nat × Nat × Nat)) (asker : Nat) : Except (Option Nat) Work :=
  match walk w.m w.d part vf page with
  | .fault _ => .error (some 1)
  | .held => .error none
  | .leaf level e key =>
    let p := w.d.partAt part
    if !canonical page then .error (some 1)
    else if eBit e 4 || eBit e 5 || eBit e 11 || p.tileView vf level page then .error (some 2)
    else if level ≠ 4 then .error (some 3)
    else
      match p.pool.find? fun q => q.1 == die with
      | none => .error (some 3)
      | some (_, target) =>
        let src := frameOf e
        let e1 := e ||| 0x800
        let va := BitVec.ofNat 64 (page.toNat / 65536 * 65536)
        let w1 := (w.fire [key / 8]).edit (storeEdits key 8 e1.toNat) [key / 8]
        let w2 := w1.fire ((List.range 8192).map (src / 8 + ·))
        .ok (w2.on fun d =>
          let d1 := invalidate d vf va 0
          let d2 := d1.onPart part fun p => { p with pool := p.pool.erase (die, target) }
          { d2 with migrations := d2.migrations ++ [⟨part, vf, va, key, e1, src, target, dieOfPa src, die, sem, packet, asker, 0⟩] })

/-- MIGR (R145). -/
def execMigr (sa : Bool) (b a d : BitVec 7) (s : State) : Out :=
  issue s (.migr sa b a d)
    { usesDAB sa d a b with
      privilege := fun _ x => if x.priv then none else some cPRIV
      outside := true }
    fun dv x vs =>
      let v := (wordAt vs 1).toNat
      if 2^10 ≤ v ∨ 7 < v % 16 then .ok (dv.putG d.toNat 4)
      else
        match acceptMigration ⟨s.mem, dv, [], []⟩ x.part x.vf (wordAt vs 0) (v % 16) (some (dv.core, v / 16)) none (packName dv.core dv.slot) with
        | .error (some c) => .ok (dv.putG d.toNat (BitVec.ofNat 64 c))
        | .error none => .retry
        | .ok w => .done (w.d.putG d.toNat 0) w.es none none

/-- Poisoned lines of a frame, as the bitmap of R357. -/
def poisonBitmap (m : Memory) (f : Nat) : List Word :=
  (List.range 8).map fun i => BitVec.ofNat 64 ((List.range 64).foldr (fun j acc =>
    (if m.poisoned.any fun w => w / 16 == f / 128 + 64 * i + j then 1 else 0) + 2 * acc) 0)

/-- The bytes, full bits and poison marks of a span copied to another. -/
def copySpan (m : Memory) (src dst size : Nat) : List Edit :=
  let off (k : Nat) := decide (src ≤ k ∧ k < src + size)
  [.clear (dst / 8) ((dst + size) / 8)] ++
  ((m.cells.filter fun c => off c.1).map fun c => .byte (dst + (c.1 - src)) c.2) ++
  ((m.empties.filter fun w => off (8 * w)).map fun w => .full (w + dst / 8 - src / 8) false) ++
  ((m.poisoned.filter fun w => off (8 * w)).map fun w => .poison (w + dst / 8 - src / 8) true)

/-- The bytes and full bits of a frame carried to another, a line with a poisoned word as a poisoned line (R361 step 3, R363). -/
def carryFrame (m : Memory) (src dst size : Nat) : List Edit :=
  let off (k : Nat) := decide (src ≤ k ∧ k < src + size)
  copySpan m src dst size ++
  (((m.poisoned.filter fun w => off (8 * w)).map (· / 16)).eraseDups.map fun l =>
    (List.range 16).map fun i => .poison (16 * l + i + dst / 8 - src / 8) true).flatten

/-- The migration outcome of R357 and R364. -/
def outcomeEntry (g : Migration) (code frame : Nat) (bitmap : List Word) : List Word :=
  entryOf ([BitVec.ofNat 64 (code * 2^48 + 3 * 2^46 + g.asker % 2^18 * 2^28 + g.vf % 512 * 2^16 + 3), g.page, BitVec.ofNat 64 frame, 0] ++ bitmap)

/-- Ends a migration with its fault-queue entry, its semaphore or its packet (R361 step 7). -/
def endMigration (w : Work) (g : Migration) (code frame : Nat) (bitmap : List Word) : Work :=
  let w1 := (w.faultEntry g.part (outcomeEntry g code frame bitmap) false).1
  w1.on fun d =>
    { d with
      signals := d.signals ++ (g.sem.map fun q => ({ core := q.1, sem := q.2, add := 1 } : Signal)).toList
      packets := d.packets.map fun q => if g.packet = some (q.cluster, q.queue + 2^64 * q.home, q.vf, q.index) then { q with migrating := false, chunks := 1 } else q }

/-- Instructions that a core has fetched from a page stay fetched when the page migrates (R73). -/
def Core.moveCode (src dst size : Nat) (k : Core) : Core :=
  let there (a : Nat) : Bool := decide (dst ≤ a ∧ a < dst + size)
  { k with
    icache := (k.icache.filter fun h => !there h.1).map fun h => if src ≤ h.1 ∧ h.1 < src + size then (h.1 - src + dst, h.2) else h
    stale := (k.stale.filter fun l => !inFrame dst size l).map fun l => if inFrame src size l then l - src / 128 + dst / 128 else l }

/-- Copies of a page's lines that the meters at its two controllers let pass, line by line: how many of the 512 they have admitted, and the
counts (R340, R361 step 3); `fuel` bounds the lines. -/
def admitCopies (g : Migration) : Nat → Device → Nat × Device
  | 0, d => (g.copied, d)
  | fuel + 1, d =>
    if 512 ≤ g.copied then (g.copied, d)
    else
      let line := 128 * g.copied
      let points := [controllerOf (g.source + line), controllerOf (g.target + line)]
      let who := (4, g.source, 0)
      if metersAdmit d g.vf who points then admitCopies { g with copied := g.copied + 1 } fuel (metersAdd d g.vf who points 128)
      else (g.copied, metersWait d g.vf who points)

/-- MIGRATION (R361, R363): an accepted migration, once the accesses translated before it have performed, collects every
token of the page, copies and verifies it as the meters let its lines pass, remaps it and clears its source, or aborts. -/
def execMigration (n : Nat) (verified : Bool) (s : State) : Out :=
  let w := Work.start s
  match w.d.migrations[n]? with
  | none => conclude s s.dev []
  | some g =>
    if busyFrame w.d g.source 65536 then conclude s s.dev []
    else
      let inPage (l : Nat) := decide (g.source / 128 ≤ l ∧ l < (g.source + 65536) / 128)
      let lost := w.d.lostDies.contains g.sourceDie || w.d.lostDies.contains g.targetDie ||
        w.d.lines.any fun l => inPage l.1 && l.2.lost
      let (copied, dm) := if lost then (512, w.d) else admitCopies g 512 w.d
      let w1 := w.on fun _ => { dm with migrations := dm.migrations.eraseIdx n }
      let old := g.entry &&& ~~~0x800
      let code := if lost then 4 else if !verified then 2 else if w.m.word g.entryKey ≠ g.entry then 3 else 0
      if copied < 512 then conclude s { dm with migrations := dm.migrations.set n { g with copied := copied } } []
      else if code ≠ 0 then
        let w2 := if code = 3 then w1 else (w1.fire [g.entryKey / 8]).edit (storeEdits g.entryKey 8 old.toNat) [g.entryKey / 8]
        let w3 := w2.on fun d => d.onPart g.part fun p => { p with pool := p.pool ++ [(g.targetDie, g.target)] }
        (endMigration w3 g code 0 []).finish s
      else
        let bitmap := poisonBitmap w.m g.source
        let bad := bitmap.any fun b => b != 0
        let e := BitVec.ofNat 64 (old.toNat - g.source + g.target)
        let w2 := w1.on fun d0 =>
          let d := ((d0.lines.filter fun l => inPage l.1).map Prod.fst ++ (d0.tokenMsgs.filter fun t => inPage t.line).map TokenMsg.line).foldl
            Device.collect d0
          { d with
            lines := d.lines.filter fun l => !inPage l.1
            writeBacks := d.writeBacks.filter fun q => !inPage q.2
            cores := d.cores.map fun c => (c.1, c.2.moveCode g.source g.target 65536) }
        let w3 := (w2.fire [g.entryKey / 8]).edit (carryFrame w2.m g.source g.target 65536 ++ storeEdits g.entryKey 8 e.toNat ++
          [.clear (g.source / 8) ((g.source + 65536) / 8)]) [g.entryKey / 8]
        let w4 := w3.on fun d => d.onPart g.part fun p => { p with pool := p.pool ++ [(g.sourceDie, g.source)] }
        (endMigration w4 g (if bad then 1 else 0) g.target bitmap).finish s

/-- FAULT_SWEEP (R354, R355, R357): run-ahead has stopped, the batch is written, and the context parks at its checkpoint. A batch other
than the one that run-ahead has found is none. -/
def execFaultSweep (core slot : Nat) (runAhead : List Word) (s : State) : Out :=
  let d := s.dev
  match d.ctxAt core slot with
  | some x =>
    match x.phase with
    | .faulted cls addr _ a =>
      if a.stopped && runAhead == a.pages then
        let d0 := BitVec.ofNat 64
          (cls * 2^48 + packName core slot % 2^18 * 2^28 + x.vf % 512 * 2^16 + a.pages.length % 32 * 2^8 + 1)
        let (w, idx) := (Work.start s).faultEntry x.part (entryOf ([d0, addr, x.regs.pc, 0] ++ a.pages)) true
        match idx with
        | some i => (w.on fun d => d.onCtx core slot fun y => { y with phase := .swept i }).finish s
        | none => (w.on fun d => takeTrap d core slot cXLATE addr x.regs.pc).finish s
      else conclude s d []
    | _ => conclude s d []
  | none => conclude s d []

end Sys2Proof.Machine
end

