-- ==== Sys2Proof/Machine/Control.lean ====
section
/-! DEFINITION. Contexts, messages, groups, work lists, streams, copy posts, semaphores and circular buffers (R211 to
R235). -/
namespace Sys2Proof.Machine

/-- Step 4 for TSPAWN, TREAP and TKILL: only slot 0 issues them (R85). -/
def slotZero (d : Device) (_ : Context) : Option (BitVec 8) := if d.slot = 0 then none else some cPRIV

/-- Two spans share an entry. -/
def overlap (b n c m : Nat) : Bool := decide (b < c + m) && decide (c < b + n) && n != 0 && m != 0

/-- The windows a core holds: those of its contexts and of reserved landings (R15, R263). -/
def heldWindows (d : Device) (core : Nat) : List (Nat × Nat × Nat × Nat) :=
  ((d.coreAt core).slots.filterMap fun o => o.map fun x => (x.gBase, x.gCount, x.vBase, x.vCount)) ++
  d.landings.filterMap fun l =>
    match l.reserved with
    | some (c, _, gb, vb) =>
      if c = core then (d.ctxAt l.core l.slot).map fun x => (gb, x.gCount, vb, x.vCount) else none
    | none => none

/-- A slot that a landing has reserved. -/
def reservedSlot (d : Device) (core slot : Nat) : Bool :=
  d.landings.any fun l => match l.reserved with
    | some (c, q, _, _) => c == core && q == slot
    | none => false

/-- Groups of a launch whose member lists hold a TID, in ascending id (R215, R300). -/
def Launch.groupsOf (l : Launch) (tid : BitVec 32) : List Nat :=
  sortBy (fun a b => decide (a ≤ b)) ((l.groups.filter fun g => g.members.contains tid).map Group.id)

/-- A context as TSPAWN and the loader create it (R117, R215). -/
def freshContext (tid : BitVec 32) (launch part vf : Nat) (priv : Bool) (groups : List Nat) (gb gc vb vc : Nat) (pc : Word) : Context :=
  { tid := tid
    launch := launch
    part := part
    vf := vf
    priv := priv
    groups := groups
    gBase := gb
    gCount := gc
    vBase := vb
    vCount := vc
    regs := { pc := pc &&& ~~~1 } }

/-- TSPAWN (R215). -/
def execTspawn (sa : Bool) (b a d : BitVec 7) (s : State) : Out :=
  issue s (.tspawn sa b a d) { usesDAB sa d a b with privilege := slotZero, outside := true, inner := true } fun dv x vs =>
    let v := (wordAt vs 0).toNat
    let sl := v % 16
    let gb := v / 2^4 % 2^11
    let gc := v / 2^15 % 2^8
    let vb := v / 2^23 % 2^9
    let vc := v / 2^32 % 2^7
    let say (n : Nat) : Verdict := .ok (dv.putG d.toNat (BitVec.ofNat 64 n))
    if sl = 0 ∨ (dv.me.ctx sl).isSome = true ∨ reservedSlot dv dv.core sl = true ∨ dv.me.tied.contains sl = true then say 1
    else if 2^39 ≤ v ∨ gc = 0 ∨ gc % 8 ≠ 0 ∨ 128 < gc ∨ vc % 4 ≠ 0 ∨ 64 < vc ∨ 2048 < gb + gc ∨ 512 < vb + vc then say 2
    else if (heldWindows dv dv.core).any fun q => overlap gb gc q.1 q.2.1 || overlap vb vc q.2.2.1 q.2.2.2 then say 3
    else
      let l := dv.launchAt x.part x.launch
      let n := (l.map fun l => l.coreNumber dv.core).getD 0
      let k := dv.me.spawns.getD sl 0
      let tid := BitVec.ofNat 32 (k % 256 * 2^24 + 16 * n + sl)
      let groups := (l.map fun l => l.groupsOf tid).getD []
      let y := freshContext tid x.launch x.part x.vf x.priv groups gb gc vb vc (wordAt vs 1)
      let dv1 := (dv.onMe fun k => { (k.setCtx sl (some y)) with spawns := k.spawns.set sl (k.spawns.getD sl 0 + 1) }).readyNext dv.core sl
      .ok (dv1.putG d.toNat 0)

/-- Core named as TARGET of a packet (R232). -/
def targetOf (w0 : Word) : Nat := w0.toNat / 2^20 % 2^14

/-- Cores in whose scratchpad or lane slices n bytes from an address lie (R217), whichever window names the bytes; own windows are
those of core t. Cluster-shared memory rotates over the four cores by granules of 256 bytes (R237). -/
def windowCores (t : Nat) (a : Word) (n : Nat) : List Nat :=
  match a.toNat / 2^48 with
  | 0xFE00 => [t]
  | 0xFE03 => [t]
  | 0xFE01 =>
    (List.range (min 4 ((a.toNat % 256 + n + 255) / 256))).map fun i => clusterOf t * 4 + (a.toNat % 2^48 / 256 + i) % 4
  | w => if w / 16 = 0xFE1 then [a.toNat / 2^40 % 16 * 1024 + a.toNat / 2^36 % 16 * 64 + a.toNat / 2^32 % 16 * 4 + a.toNat / 2^24 % 4] else []

/-- Rows of a packet's destination, their bytes and their pitch (R232, R247, R248). -/
def destinationRows (ws : List Word) : Nat × Nat × Nat :=
  let f (i lo n : Nat) : Nat := (ws.getD i 0).toNat / 2^lo % 2^n
  match f 0 0 8 with
  | 2 => (f 3 32 32, f 3 0 32, f 4 32 32)
  | 3 => (1, f 5 32 32 * f 3 32 16 * 2^(f 3 48 2), 0)
  | 4 => (1, f 4 0 32 * 1024, 0)
  | 6 => (1, f 3 0 32 * 8, 0)
  | 7 => (0, 0, 0)
  | _ => (1, f 3 0 32, 0)

/-- Cores in whose scratchpad or lane slices a packet's destination lies (R217). The cores of a row depend on its place modulo
1 KiB, so the first 1,024 rows name them all. A CB packet writes its claimed entry; before its claim, any entry may be it. -/
def destinationCores (d : Device) (words : List Word) (claim : Option Nat) : List Nat :=
  let w0 := words.getD 0 0
  let t := targetOf w0
  if w0.getLsbD 9 then
    match ((d.coreAt t).bufs[w0.toNat / 2^34 % 8]?).join with
    | none => []
    | some c =>
      match claim with
      | some e => windowCores t (c.base + BitVec.ofNat 64 (c.bytes * (e % c.entries))) c.bytes
      | none => windowCores t c.base (c.bytes * c.entries)
  else
    let (rows, n, pitch) := destinationRows words
    ((List.range (min rows 1024)).map fun r => windowCores t (words.getD 2 0 + BitVec.ofNat 64 (r * pitch)) n).flatten

/-- A context's name as a poster of packets: its launch and TID. -/
def Context.poster (x : Context) : Nat × Nat := (x.launch, x.tid.toNat)

/-- Packets that a context posted and that have not completed, each with its claim, wherever it stood when it posted them (R217). -/
def postedBy (d : Device) (x : Context) : List (List Word × Option Nat) :=
  let mine (vf : Nat) (o : Option (Nat × Nat)) : Bool := o == some x.poster && (d.vfAt vf).part == some x.part
  ((d.notices.filter fun n => mine n.vf n.poster).map fun n => (n.words, none)) ++
  ((d.engines.map fun e =>
    (e.2.map fun q => (q.waiting.filter fun n => mine n.vf n.poster).map fun n => (n.words, none)).flatten).flatten) ++
  ((d.packets.filter fun q => mine q.vf q.poster).map fun q => (q.words, q.claim))

/-- Whether a slot has an element appended to a write generator that has not performed (R217). -/
def Gen.keeps (g : Gen) (slot : Nat) : Bool :=
  let end_ := g.performed + g.queue.length
  let start := ((g.prior.map fun q => q.2.2).max?).getD 0
  g.write && g.fault.isNone &&
    ((g.owner == slot && decide (max start g.performed < end_)) || g.prior.any fun q => q.1 == slot && decide (g.performed < q.2.2))

/-- The slot and VF that an append of a generator belongs to. -/
def Gen.ownerOf (g : Gen) (i : Nat) : Nat × Nat :=
  match g.prior.find? fun q => decide (i < q.2.2) with
  | some q => (q.1, q.2.1)
  | none => (g.owner, g.vf)

/-- A generator whose binding passes to another slot, with a VF: elements still to perform stay with their appender (R217). -/
def Gen.bindTo (g : Gen) (slot : Nat) (r : Reg) (vf : Nat) : Gen :=
  let prior := g.prior.filter fun q => decide (g.performed < q.2.2)
  { g with
    bound := some (slot, r)
    owner := slot
    vf := vf
    prior := if g.write && !g.queue.isEmpty && g.owner != slot then prior ++ [(g.owner, g.vf, g.position)] else prior }

/-- Work that still touches a context's operand slots (R178, R190). -/
def slotsBusy (d : Device) (core slot : Nat) : Bool :=
  let k := d.coreAt core
  let mine (i : Nat) : Bool := match k.opSlots[i]? with
    | some o => o.state != .free && o.owner == slot
    | none => false
  d.fills.any (fun f => f.core == core && mine f.op) ||
  k.sends.any (fun q => q.owner == slot) ||
  d.transfers.any (fun t => t.to_ == core && mine t.target) ||
  k.arrayQ.any (fun e => match e.op with
    | .mma _ a b => e.slot == slot || mine a || mine b
    | .mmz _ a b => e.slot == slot || mine a || mine b
    | _ => false)

/-- Whether the slot of a stopped context can be reaped (R217). -/
def reapable (d : Device) (core slot : Nat) : Bool :=
  let k := d.coreAt core
  !((d.ctxAt core slot).any fun x => (postedBy d x).any fun q => (destinationCores d q.1 q.2).contains core) && !slotsBusy d core slot &&
  !(k.gens.any fun g => g.keeps slot)

/-- Makes a slot empty: classes and streams are unbound, operand slots freed (R217). -/
def vacate (d : Device) (core slot : Nat) : Device :=
  let d1 := (withdraw d core slot).onCore core fun k =>
    { (k.setCtx slot none) with
      classes := k.classes.map fun o => match o with
        | some q => if q.1 = slot then none else o
        | none => none
      gens := k.gens.map fun g => match g.bound with
        | some (q, _) => if q = slot then { g with bound := none, queue := if g.write then g.queue else [] } else g
        | none => g
      opSlots := k.opSlots.map fun o => if o.state != .free && o.owner == slot then {} else o
      tied := k.tied.filter (· != slot) }
  { d1 with accesses := d1.accesses.map fun a => if a.core = core ∧ a.slot = slot then { a with orphan := true } else a }

/-- What TREAP returns (R217). -/
def reapWord (x : Context) : Word :=
  match x.phase with
  | .stopped how code cause =>
    BitVec.ofNat 64 (x.tid.toNat * 2^32 + code.toNat * 2^16 + how.toNat * 2^8 + (if how = 3 then cause.toNat else 0))
  | _ => 0

/-- TREAP (R217). -/
def execTreap (sa : Bool) (a d : BitVec 7) (s : State) : Out :=
  issue s (.treap sa a d) { usesDA sa d a with privilege := slotZero, outside := true, inner := true } fun dv _ vs =>
    let sl := (wordAt vs 0).toNat % 16
    match (if sl = 0 then none else dv.me.ctx sl) with
    | none => .ok (dv.putG d.toNat allOnes)
    | some y =>
      if y.isStopped && reapable dv dv.core sl then .ok ((vacate dv dv.core sl).putG d.toNat (reapWord y)) else .retry

/-- A write generator past the places at its head that no element will fill. -/
def Gen.skip (g : Gen) : Gen :=
  let n := (g.queue.zipIdx.takeWhile fun q => g.gaps.contains (g.performed + q.2)).length
  { g with queue := g.queue.drop n, performed := g.performed + n, gaps := g.gaps.filter fun i => decide (g.performed + n ≤ i) }

/-- The place of a discarded result in a write stream: the last one is free again, an earlier one is skipped (R26, R218). -/
def Gen.cancel (g : Gen) (i : Nat) : Gen :=
  if i + 1 = g.position ∧ g.performed ≤ i then { g with queue := g.queue.dropLast, position := i } else { g with gaps := g.gaps ++ [i] }.skip

/-- Discards the results a context waits for, with the places they hold in write streams (R218). -/
def discardPending (d : Device) (core slot : Nat) : Device :=
  match d.ctxAt core slot with
  | none => d
  | some x =>
    let places := ((x.pending.filter fun p => !p.arrived).map Pending.reserved).flatten
    (places.reverse.foldl (fun (d : Device) q => d.onCore core fun k => k.setGen q.2.1 ((k.gen q.2.1).cancel q.2.2)) d).onCtx core slot fun x =>
      { x with pending := [] }

/-- Stops a context as TKILL does (R218): pending results are discarded, waiting requests are withdrawn, posted stores
still perform. -/
def killCtx (d : Device) (core slot : Nat) : Device :=
  let d0 := withdraw d core slot
  let waits (a : Access) : Bool := a.core == core && a.slot == slot && (match a.kind with
    | .ldf _ _ => !a.complete
    | .stf true => !a.complete
    | _ => false)
  let d1 := (d0.accesses.filter waits).foldl neverSent d0
  let d2 : Device := { d1 with
    accesses := (d1.accesses.filter fun a => !waits a).map fun a => if a.core = core ∧ a.slot = slot then { a with orphan := true } else a }
  stopCtx (discardPending d2 core slot) core slot 2 0 0

/-- TKILL (R218). -/
def execTkill (sa : Bool) (a d : BitVec 7) (s : State) : Out :=
  issue s (.tkill sa a d) { usesDA sa d a with privilege := slotZero, outside := true, inner := true } fun dv _ vs =>
    let sl := (wordAt vs 0).toNat % 16
    if sl = 0 then .ok (dv.putG d.toNat 2)
    else
      match dv.me.ctx sl with
      | none => .ok (dv.putG d.toNat 1)
      | some y => if y.isStopped then .ok (dv.putG d.toNat 1) else .ok ((killCtx dv dv.core sl).putG d.toNat 0)

/-- TWAKE (R218): a sleeping context ends its sleep with code 2, another gets its wake-pending bit. -/
def execTwake (sa : Bool) (a d : BitVec 7) (s : State) : Out :=
  issue s (.twake sa a d) { usesDA sa d a with outside := true, inner := true } fun dv _ vs =>
    let sl := (wordAt vs 0).toNat % 16
    match dv.me.ctx sl with
    | none => .ok (dv.putG d.toNat 2)
    | some y =>
      match y.phase with
      | .stopped _ _ _ => .ok (dv.putG d.toNat 2)
      | .sleeping w =>
        if (expired w.expiry dv.wall).isSome then
          .ok ((dv.onKept dv.core sl 0 fun z => z.onRegs fun r => { r with wakePending := true }).putG d.toNat 1)
        else .ok (((dv.endSleep dv.core sl 2).readyNext dv.core sl).putG d.toNat 0)
      | _ => .ok ((dv.onKept dv.core sl 0 fun z => z.onRegs fun r => { r with wakePending := true }).putG d.toNat 1)

/-- State code of TSTAT (R218). -/
def Phase.code : Phase → Nat
  | .ready => 1
  | .trapping _ _ _ => 1
  | .parked _ => 2
  | .faulted _ _ _ _ => 2
  | .swept _ => 2
  | .sleeping _ => 3
  | .stopped _ _ _ => 4

/-- TSTAT (R218). -/
def execTstat (sa : Bool) (a d : BitVec 7) (s : State) : Out :=
  issue s (.tstat sa a d) (usesDA sa d a) fun dv _ vs =>
    .ok (dv.putG d.toNat (match dv.me.ctx ((wordAt vs 0).toNat % 16) with
      | none => 0
      | some y => BitVec.ofNat 64 (y.tid.toNat * 2^32 + (if y.regs.wakePending then 8 else 0) + y.phase.code)))

/-- TEXIT (R216). -/
def execTexit (sa : Bool) (a : BitVec 7) (s : State) : Out :=
  issue s (.texit sa a) (usesA sa a) fun dv x vs =>
    if x.awaits || doomed dv dv.core dv.slot x then .retry else .over (stopCtx dv dv.core dv.slot 0 ((wordAt vs 0).setWidth 16) 0) []

/-- MCLASS (R22, R219): the first condition in its order decides. -/
def execMclass (sa : Bool) (a d : BitVec 7) (s : State) : Out :=
  issue s (.mclass sa a d) { usesDA sa d a with outside := true, inner := true } fun dv _ vs =>
    let v := wordAt vs 0
    let n := v.toNat
    let c := n % 16
    let sl := n / 16 % 16
    let r : Reg := if v.getLsbD 15 then .v (n / 2^8 % 128) else .g (n / 2^8 % 128)
    let k := dv.me
    let say (w : Word) : Verdict := .ok (dv.putG d.toNat w)
    if 2^17 ≤ n then say 2
    else if v.getLsbD 16 then .ok ((dv.onMe fun k => { k with classes := k.classes.set c none }).putG d.toNat 0)
    else
      match k.ctx sl with
      | none => say 3
      | some y =>
        if y.isStopped then say 3
        else
          let other := match (k.classes[c]?).join with
            | some (q, _) => q != sl && ((k.ctx q).isSome || k.tied.contains q)
            | none => false
          if other then say 1
          else if !y.inWindow r then say 2
          else if (k.bindingOf sl r).isSome then .trap cBIND r.report
          else .ok ((dv.onMe fun k => { k with classes := k.classes.set c (some (sl, r)) }).putG d.toNat 0)

/-- Room at a destination interface for n more messages (R21, R372). A message on its way holds the place it may need, so that
none waits in the network (assumption 81, DESIGN CHOICE). -/
def interfaceRoom (d : Device) (core cls n : Nat) : Bool :=
  let k := d.coreAt core
  let coming := (d.messages.filter fun m => m.to_ == core).length
  if spills k cls then decide (k.spill.length + coming + n ≤ 64) else decide (k.waiting.length + coming + n ≤ 8)

/-- MSEND and MSEND2 (R220): parks until the destination interface can take the words, then hands them over. -/
def sendWords (dv : Device) (x : Context) (a : Word) (ws : List Word) : Verdict :=
  let n := a.toNat
  let core := n / 16 % 2^14
  let cls := n / 2^18 % 16
  if 2^22 ≤ n ∨ (dv.partAt x.part).hasCore core = false then .trap cPROT a
  else if !interfaceRoom dv core cls ws.length then .retry
  else
    let ms : List Message := ws.zipIdx.map fun q =>
      { from_ := dv.core, sender := x.tid, part := x.part, to_ := core, cls := (cls + q.2) % 16, payload := q.1
        slot := dv.slot, handAt := dv.me.cyc + 2, id := dv.nextAccess + q.2, follows := if q.2 = 0 then none else some dv.nextAccess }
    .ok { dv with messages := dv.messages ++ ms, nextAccess := dv.nextAccess + ws.length }

def execMsend (sa : Bool) (b a : BitVec 7) (s : State) : Out :=
  issue s (.msend sa b a) { usesAB sa a b with outside := true } fun dv x vs => sendWords dv x (wordAt vs 0) [wordAt vs 1]

def execMsend2 (sa : Bool) (b a : BitVec 7) (s : State) : Out :=
  issue s (.msend2 sa b a)
    { sync := if sa then some (.g a.toNat) else none
      reads := [.g a.toNat, .g b.toNat, .g (b.toNat + 1)]
      report := [.g a.toNat, .g b.toNat, .g (b.toNat + 1)]
      outside := true }
    fun dv x vs => sendWords dv x (wordAt vs 0) [wordAt vs 1, wordAt vs 2]

/-- MDRAIN (R222). -/
def execMdrain (sa : Bool) (a d : BitVec 7) (s : State) : Out :=
  issue s (.mdrain sa a d) { usesDA sa d a with outside := true, inner := true } fun dv _ vs =>
    let c := (wordAt vs 0).toNat % 16
    let k := dv.me
    let mayAct := match (k.classes[c]?).join with
      | none => true
      | some (q, _) => q == dv.slot
    if mayAct then
      let n := (k.waiting.filter fun q => q.cls == c).length
      .ok ((dv.onMe fun k => { k with waiting := k.waiting.filter fun q => q.cls != c }).putG d.toNat (BitVec.ofNat 64 n))
    else .ok (dv.putG d.toNat allOnes)

/-- The group a barrier instruction names (R224): none raises PROT. -/
def groupNamed (d : Device) (x : Context) (a : Word) : Option Group :=
  if 255 ≤ a.toNat then none
  else (d.launchAt x.part x.launch).bind fun l => l.groups.find? fun g => g.id == a.toNat

/-- BAR and BARA (R224): FENCE.REL.SY, then the arrival goes to the barrier word; the arrival itself and the wait for the
phase are R223's. -/
def barOp (s : State) (i : Instr) (sa : Bool) (a d : BitVec 7) (waits : Bool) : Out :=
  issue s i { usesDA sa d a with outside := true } fun dv x vs =>
    let v := wordAt vs 0
    match groupNamed dv x v with
    | none => .trap cPROT v
    | some g =>
      if !g.members.contains x.tid then .trap cPROT v
      else
        let (done, dv1) := fencing dv x 2 3
        if done then
          .wait false .queued d.toNat
            { dv1 with arrivals := dv1.arrivals ++ [⟨x.launch, 0, g.id, x.tid, dv1.core, dv1.slot, waits, 0⟩] } []
        else .wait false .retry 0 dv1 []

def execBar (sa : Bool) (a d : BitVec 7) (s : State) : Out := barOp s (.bar sa a d) sa a d true
def execBara (sa : Bool) (a d : BitVec 7) (s : State) : Out := barOp s (.bara sa a d) sa a d false

/-- BARW (R224): parks until the phase has advanced, then acts as FENCE.ACQ.SY. -/
def execBarw (sa : Bool) (b a d : BitVec 7) (s : State) : Out :=
  issue s (.barw sa b a d) (usesDAB sa d a b) fun dv x vs =>
    match groupNamed dv x (wordAt vs 0) with
    | none => .trap cPROT (wordAt vs 0)
    | some g =>
      let ph := (wordAt vs 1).setWidth 32
      if g.expected = 0 ∨ (g.generation - ph - 1).toNat < 2^31 then
        let (done, dv1) := fencing dv x 1 3
        if done then .ok (dv1.putG d.toNat (g.generation.setWidth 64)) else .wait false .retry 0 dv1 []
      else .wait false (.phase g.id ph) 0 dv []

/-- GQRY (R224). -/
def execGqry (sa : Bool) (a d : BitVec 7) (s : State) : Out :=
  issue s (.gqry sa a d) (usesDA sa d a) fun dv x vs =>
    match groupNamed dv x (wordAt vs 0) with
    | none => .trap cPROT (wordAt vs 0)
    | some g => .ok (dv.putG d.toNat (BitVec.ofNat 64 (g.expected * 2^48 + g.arrived.length * 2^32 + g.generation.toNat)))

/-- WLPUSH (R225): the item is appended, then the issuer parks until the work count has been incremented. Items on their
way to the list hold their places in it (R226). -/
def execWlpush (sa : Bool) (a d : BitVec 7) (s : State) : Out :=
  issue s (.wlpush sa a d) { usesDA sa d a with outside := true } fun dv x vs =>
    let v := wordAt vs 0
    if v = allOnes then .ok (dv.putG d.toNat 2)
    else if 64 ≤ dv.me.workList.length + (dv.shipments.map fun q => if q.to_ = dv.core then q.items.length else 0).sum then .ok (dv.putG d.toNat 1)
    else
      let dv1 := dv.onMe fun k => { k with workList := k.workList ++ [v] }
      let n := dv.nextAccess
      .wait false (.pushed n) d.toNat
        { dv1 with arrivals := dv1.arrivals ++ [⟨x.launch, 2, 0, x.tid, dv.core, dv.slot, true, n⟩], nextAccess := n + 1 } []

/-- WLPOP (R225). -/
def execWlpop (d : BitVec 7) (s : State) : Out :=
  issue s (.wlpop d) { usesD d with outside := true, inner := true } fun dv _ _ =>
    match dv.me.workList with
    | [] => .ok (dv.putG d.toNat allOnes)
    | v :: r => .ok ((dv.onMe fun k => { k with workList := r }).putG d.toNat v)

/-- WLSTAT (R225). -/
def execWlstat (d : BitVec 7) (s : State) : Out :=
  issue s (.wlstat d) { usesD d with outside := true, inner := true } fun dv _ _ =>
    let k := dv.me
    .ok ((dv.onMe fun k => { k with shippedOut := 0, receivedIn := 0 }).putG d.toNat
      (BitVec.ofNat 64 (min k.shippedOut 255 * 2^16 + min k.receivedIn 255 * 2^8 + k.workList.length)))

/-- WLDONE (R225): parks until the work count has been decremented. -/
def execWldone (d : BitVec 7) (s : State) : Out :=
  issue s (.wldone d) { usesD d with outside := true } fun dv x _ =>
    .wait false .queued d.toNat { dv with arrivals := dv.arrivals ++ [⟨x.launch, 3, 0, x.tid, dv.core, dv.slot, true, 0⟩] } []

/-- BIND (R228): what depends on D alone is checked at step 7, the rest once gA is read. -/
def execBind (sa v : Bool) (a d : BitVec 7) (s : State) : Out :=
  let r : Reg := if v then .v d.toNat else .g d.toNat
  issue s (.bind sa v a d)
    { sync := if sa then some (.g a.toNat) else none
      reads := [.g a.toNat]
      report := [r, .g a.toNat]
      binds := fun k slot =>
        if r = .g 0 ∨ (k.bindingOf slot r).isSome = true ∨ (k.classes.any fun o => o == some (slot, r)) = true then some r.report else none
      outside := true
      inner := true }
    fun dv x vs =>
      let n := (wordAt vs 0).toNat % 16
      let g := dv.me.gen n
      if !g.defined then .trap cSTREAM (BitVec.ofNat 64 n)
      else if g.bound.isSome then .trap cBIND r.report
      else if (g.width == 128) != v then .trap cBIND r.report
      else .ok (dv.onMe fun k => k.setGen n (g.bindTo dv.slot r x.vf))

/-- UNBIND (R229): a read generator's prefetched elements are discarded, with a fault that no pop has reached (R228). -/
def execUnbind (sa : Bool) (a d : BitVec 7) (s : State) : Out :=
  issue s (.unbind sa a d) { usesDA sa d a with outside := true, inner := true } fun dv _ vs =>
    let n := (wordAt vs 0).toNat % 16
    let g := dv.me.gen n
    let mine := match g.bound with
      | some (q, _) => q == dv.slot
      | none => false
    if !mine then .ok (dv.putG d.toNat allOnes)
    else
      let g1 : Gen := if g.write then { g with bound := none }
        else { g with bound := none, queue := [], spent := [], part := [], fault := if g.reached then g.fault else none, waiting := none }
      .ok ((dv.onMe fun k => k.setGen n g1).putG d.toNat (BitVec.ofNat 64 g.position))

/-- A stream descriptor (R227): none where it is invalid. -/
def streamOf (ws : List Word) : Option Gen :=
  let d2 := (ws.getD 2 0).toNat
  let wc := d2 / 2^32 % 8
  let width : Nat := if wc = 4 then 128 else 2^wc
  let count := d2 % 2^32
  let stride := (ws.getD 1 0).toInt
  let base := ws.getD 0 0
  if ws.getD 3 0 ≠ 0 ∨ 2^39 ≤ d2 ∨ 4 < wc ∨ count = 0 ∨ stride % (width : Int) ≠ 0 ∨ base.toNat % width ≠ 0 then none
  else
    some { defined := true
           write := d2 / 2^35 % 2 == 1
           sext := d2 / 2^36 % 2 == 1
           scope := BitVec.ofNat 2 (d2 / 2^37)
           width := width
           count := count
           stride := stride
           base := base }

/-- SGDEF (R227): a bound generator answers 1 with nothing read. -/
def execSgdef (sa : Bool) (b a d : BitVec 7) (s : State) : Out :=
  issue s (.sgdef sa b a d) { usesDAB sa d a b with outside := true, inner := true } fun dv x vs =>
    let n := (wordAt vs 0).toNat % 16
    let g := dv.me.gen n
    let ad := wordAt vs 1
    if g.bound.isSome then .ok (dv.putG d.toNat 1)
    else if g.write && g.fault.isNone && !g.queue.isEmpty then .retry
    else if misaligned ad 8 then .trap cALIGN ad
    else readDwords s.mem x 4 dv ad [] fun dv ws =>
      match streamOf ws with
      | none => .ok (dv.putG d.toNat 2)
      | some h => .ok ((dv.onMe fun k => k.setGen n { h with owner := dv.slot, vf := x.vf, pc := x.regs.pc }).putG d.toNat 0)

/-- The fault of a faulted generator: a read generator's counts once a pop has reached it (R228). -/
def Gen.faulted (g : Gen) : Option (BitVec 8 × Word) := if g.write || g.reached then g.fault else none

/-- Status code of a generator (R229): a bound one that has reached COUNT reads ended (assumption 109, DESIGN CHOICE). -/
def Gen.status (g : Gen) : Nat :=
  if !g.defined then 0
  else if g.faulted.isSome then 4
  else if g.position = g.count then 3
  else if g.bound.isSome then 2
  else 1

/-- SSTAT (R229). -/
def execSstat (sa e : Bool) (a d : BitVec 7) (s : State) : Out :=
  issue s (.sstat sa e a d) (usesDA sa d a) fun dv _ vs =>
    let g := dv.me.gen ((wordAt vs 0).toNat % 16)
    if e then .ok (dv.putG d.toNat ((g.faulted.map Prod.snd).getD 0))
    else
      let b := match g.bound with
        | some (q, .g n) => q * 2^56 + n * 2^48
        | some (q, .v n) => q * 2^56 + 2^55 + n * 2^48
        | none => 0
      .ok (dv.putG d.toNat (BitVec.ofNat 64 (b + ((g.faulted.map fun f => f.1.toNat).getD 0) * 2^40 + (if g.write then 2^35 else 0) +
        g.status * 2^32 + (g.count - g.position))))

/-- SDRAIN (R229). -/
def execSdrain (sa : Bool) (a d : BitVec 7) (s : State) : Out :=
  issue s (.sdrain sa a d) (usesDA sa d a) fun dv _ vs =>
    let n := (wordAt vs 0).toNat % 16
    let g := dv.me.gen n
    if g.write && g.fault.isSome then .trap cSTREAM (BitVec.ofNat 64 n)
    else if g.write && !g.queue.isEmpty then .retry
    else .ok (dv.putG d.toNat (BitVec.ofNat 64 g.position))

/-- A queue header's fields (R230): write index, read index, ring, LOG2N, engine cluster; none where a field is refused. The header
of a launch queue has ENGINE zero, which names no engine (R341). -/
def headerOf (p : Partition) (hs : List Word) : Option (Nat × Nat × Word × Nat × Nat) :=
  let d3 := (hs.getD 3 0).toNat
  let log2n := d3 % 16
  let engine := d3 / 16 % 2^18
  let ring := hs.getD 2 0
  if 2^22 ≤ d3 ∨ hs.getD 4 0 ≠ 0 ∨ hs.getD 5 0 ≠ 0 ∨ hs.getD 6 0 ≠ 0 ∨ hs.getD 7 0 ≠ 0 ∨ log2n = 0 ∨ 12 < log2n ∨
      engine % 64 ≠ 0 ∨ ring.toNat % 64 ≠ 0 ∨ (engine ≠ 0 ∧ p.hasCore (engine / 64 * 4) = false) then none
  else some ((hs.getD 0 0).toNat, (hs.getD 1 0).toNat, ring, log2n, engine / 64)

/-- Whether a place may hold a queue header or ring: device memory in the linear view, or cluster-shared memory (R230). -/
def queuePlace (p : Place) : Bool :=
  match p.kind, p.port with
  | .device, _ => true
  | .chip, .bank _ => true
  | _, _ => false

/-- Writes whole words at a place as an atomic unit does. -/
def Work.words (w : Work) (key : Nat) (ws : List Word) : Work :=
  ws.zipIdx.foldl (fun (w : Work) q =>
    let k := key + 8 * q.2
    (w.fire [k / 8]).edit (portStore w.m k 8 q.1.toNat) [k / 8]) w

/-- Whether a packet is a launch packet (R342). -/
def isLaunchPacket (ws : List Word) : Bool := (ws.getD 0 0).toNat % 256 == 0x10

/-- The VF of a partition whose launch queue has its header at a place (R341). -/
def Device.queueOwner (d : Device) (part key : Nat) : Option Nat :=
  (d.vfs.find? fun v => v.2.part == some part && (v.2.queue.map Prod.snd) == some key).map Prod.fst

/-- The VF whose launch queue a post goes to, none for a copy queue (R341; assumption 82, DEDUCED). The header has ENGINE zero, and is
that of a known launch queue, or receives a launch packet, or names a cluster that the partition does not have. -/
def launchVf (d : Device) (part vf cluster key : Nat) (ws : List Word) : Option Nat :=
  if cluster ≠ 0 then none
  else if isLaunchPacket ws || !(d.partAt part).hasCore 0 then some ((d.queueOwner part key).getD vf)
  else d.queueOwner part key

/-- Notifies the engine or dispatcher that a header names (R231, R341). `key` is the header's place, and `home` the core whose own
windows the poster's addresses name (R236). -/
def notify (d : Device) (part vf cluster : Nat) (header ring : Word) (log2n index : Nat) (ws : List Word) (priv : Bool)
    (poster : Option (Nat × Nat)) (key home : Nat) : Device :=
  match launchVf d part vf cluster key ws with
  | some owner =>
    (d.onVf owner fun v => { v with queue := v.queue.or (some (header, key)) }).onPart part fun p =>
      { p with queued := p.queued ++ [⟨owner, header, index, d.wall, ws, ring + BitVec.ofNat 64 (64 * (index % 2^log2n))⟩] }
  | none =>
    { d with notices := d.notices ++ [
        { cluster := cluster, vf := vf, header := header, ring := ring, log2n := log2n, index := index, privileged := priv
          words := ws, poster := poster, home := home }] }

/-- CPOST (R230, R231): the packet image is read, then the header checked and the slot claimed and written in one step, once the
homes of both lines hold every token (R254); it parks until then. -/
def execCpost (sa : Bool) (b a d : BitVec 7) (s : State) : Out :=
  issue s (.cpost sa b a d) { usesDAB sa d a b with outside := true } fun dv x vs =>
    let ha := wordAt vs 0
    let ba := wordAt vs 1
    if misaligned ha 64 then .trap cALIGN ha
    else if misaligned ba 64 then .trap cALIGN ba
    else readDwords s.mem x 8 dv ba [] fun dv ws =>
      withPlace s.mem dv x ha 64 needRW .plain fun dv p =>
        if !queuePlace p then .trap cPROT ha
        else readDwords s.mem x 8 dv ha [] fun dv hs =>
          match headerOf (dv.partAt x.part) hs with
          | none => .trap cPROT ha
          | some (wr, rd, ring, log2n, cluster) =>
            if 2^log2n ≤ (wr + 2^64 - rd) % 2^64 then .ok (dv.putG d.toNat allOnes)
            else
              let sa_ := ring + BitVec.ofNat 64 (64 * (wr % 2^log2n))
              withPlace s.mem dv x sa_ 64 needW .plain fun dv q =>
                if !queuePlace q then .trap cPROT sa_
                else if dv.lostLine q.line || decide (q.kind = .chip) && dv.lostDies.contains q.port.die then .trap cCOHLOSS sa_
                else
                  let (ok1, d1) := if p.kind = .device then dv.homeHas p.line true else (true, dv)
                  let (ok2, d2) := if q.kind = .device then d1.homeHas q.line true else (true, d1)
                  if !(ok1 && ok2) then .wait false .retry 0 d2 []
                  else
                  let w := ((⟨s.mem, dv, [], []⟩ : Work).words p.key [BitVec.ofNat 64 (wr + 1)]).words q.key ws
                  let dv1 := notify w.d x.part x.vf cluster ha ring log2n wr ws x.priv (some x.poster) p.key dv.core
                  .done (dv1.putG d.toNat (BitVec.ofNat 64 wr)) w.es none none

/-- Adds to a semaphore of a core, saturating, and serves its waiters (R234). -/
def addSem (d : Device) (core sem : Nat) (b : BitVec 32) : Device :=
  let k := d.coreAt core
  let v := BitVec.ofNat 32 (min ((k.sems.getD sem 0).toNat + b.toNat) 0xFFFFFFFF)
  serveSem core sem k.semWaiters.length (d.setCore core { k with sems := k.sems.set sem v })

/-- SACQ (R234). -/
def execSacq (sa : Bool) (b a d : BitVec 7) (s : State) : Out :=
  issue s (.sacq sa b a d) { usesDAB sa d a b with outside := true, inner := true } fun dv _ vs =>
    let n := (wordAt vs 0).toNat
    let need := (wordAt vs 1).setWidth 32
    if 64 ≤ n then .trap cPROT (wordAt vs 0)
    else
      let k := dv.me
      let v := k.sems.getD n 0
      if need.toNat ≤ v.toNat && !k.semWaiters.any fun q => q.sem == n then
        .ok ((dv.onMe fun k => { k with sems := k.sems.set n (v - need) }).putG d.toNat ((v - need).setWidth 64))
      else .wait false .queued d.toNat (dv.onMe fun k => { k with semWaiters := k.semWaiters ++ [⟨n, need, dv.slot⟩] }) []

/-- SADD (R234): the remote form is posted. -/
def execSadd (sa : Bool) (b a d : BitVec 7) (s : State) : Out :=
  issue s (.sadd sa b a d) { usesDAB sa d a b with outside := true } fun dv x vs =>
    let a := wordAt vs 0
    let n := a.toNat
    let v := (wordAt vs 1).setWidth 32
    if a.getLsbD 24 then
      let core := n / 2^10 % 2^14
      if 2^25 ≤ n ∨ n / 2^6 % 16 ≠ 0 ∨ (dv.partAt x.part).hasCore core = false then .trap cPROT a
      else
        let dv1 : Device := { dv with signals := dv.signals ++ [⟨core, n % 64, v⟩] }
        .ok (dv1.putG d.toNat 0)
    else if 64 ≤ n then .trap cPROT a
    else
      let after := BitVec.ofNat 64 (min ((dv.me.sems.getD n 0).toNat + v.toNat) 0xFFFFFFFF)
      .ok ((addSem dv dv.core n v).putG d.toNat after)

/-- SSET (R234). -/
def execSset (sa : Bool) (b a : BitVec 7) (s : State) : Out :=
  issue s (.sset sa b a) { usesAB sa a b with outside := true, inner := true } fun dv _ vs =>
    let n := (wordAt vs 0).toNat
    if 64 ≤ n then .trap cPROT (wordAt vs 0)
    else
      let dv1 := dv.onMe fun k => { k with sems := k.sems.set n ((wordAt vs 1).setWidth 32) }
      .ok (serveSem dv.core n dv1.me.semWaiters.length dv1)

/-- SRD (R234). -/
def execSrd (sa : Bool) (a d : BitVec 7) (s : State) : Out :=
  issue s (.srd sa a d) (usesDA sa d a) fun dv _ vs =>
    let n := (wordAt vs 0).toNat
    if 64 ≤ n then .trap cPROT (wordAt vs 0) else .ok (dv.putG d.toNat ((dv.me.sems.getD n 0).setWidth 64))

/-- A circular buffer of a core, if its launch defined it (R235). -/
def Core.buf (k : Core) (j : Nat) : Option CircBuf := (k.bufs[j]?).join
/-- Address of entry e (R249). -/
def CircBuf.entry (c : CircBuf) (e : Nat) : Word := c.base + BitVec.ofNat 64 (c.bytes * (e % c.entries))

/-- Gives filled entries to the waiters of a buffer, in issue order (R235); `fuel` bounds them. While the core's clock is
halted none is served (R40, R41). -/
def serveBuf (core j : Nat) : Nat → Device → Device
  | 0, d => d
  | fuel + 1, d =>
    let k := d.coreAt core
    match k.buf j, (if k.halted then none else k.bufWaiters.find? fun q => q.1 == j) with
    | some c, some q =>
      let late : Bool := match d.ctxAt core q.2 with
        | some x => (x.wait?.any fun w => (expired w.expiry d.wall).isSome)
        | none => true
      let d1 := d.setCore core { k with bufWaiters := k.bufWaiters.erase q }
      if late then serveBuf core j fuel d1
      else if c.taken < c.filled then
        let dest := match d1.ctxAt core q.2 with
          | some x => (x.wait?.map Wait.dest).getD 0
          | none => 0
        let d2 := d1.onCore core fun k => { k with bufs := k.bufs.set j (some { c with taken := c.taken + 1 }) }
        serveBuf core j fuel (d2.wake core q.2 (some (dest, c.entry c.taken)))
      else d
    | _, _ => d

/-- CBGET (R235). -/
def execCbget (sa : Bool) (a d : BitVec 7) (s : State) : Out :=
  issue s (.cbget sa a d) { usesDA sa d a with outside := true, inner := true } fun dv _ vs =>
    let j := (wordAt vs 0).toNat % 8
    match dv.me.buf j with
    | none => .trap cPROT (BitVec.ofNat 64 j)
    | some c =>
      if c.taken < c.filled && !dv.me.bufWaiters.any fun q => q.1 == j then
        .ok ((dv.onMe fun k => { k with bufs := k.bufs.set j (some { c with taken := c.taken + 1 }) }).putG d.toNat (c.entry c.taken))
      else .wait false .queued d.toNat (dv.onMe fun k => { k with bufWaiters := k.bufWaiters ++ [(j, dv.slot)] }) []

/-- CBFREE (R235). -/
def execCbfree (sa : Bool) (a : BitVec 7) (s : State) : Out :=
  issue s (.cbfree sa a) { usesA sa a with outside := true, inner := true } fun dv _ vs =>
    let j := (wordAt vs 0).toNat % 8
    match dv.me.buf j with
    | none => .trap cPROT (BitVec.ofNat 64 j)
    | some c =>
      .ok (dv.onMe fun k => { k with bufs := k.bufs.set j (some (if c.freed < c.taken then { c with freed := c.freed + 1 } else c)) })

/-- Claims the next entry of a buffer, if one is free (R235). -/
def claimEntry (d : Device) (core j : Nat) : Option (Nat × CircBuf × Device) :=
  match (d.coreAt core).buf j with
  | none => none
  | some c =>
    if c.claimed - c.freed < c.entries then
      some (c.claimed, c, d.onCore core fun k => { k with bufs := k.bufs.set j (some { c with claimed := c.claimed + 1 }) })
    else none

/-- CBPUT (R235, R249): parks until an entry is claimed, and while the buffer's core is saved (R371); the copy then runs in the issuing
cluster's engine, as a packet with the buffer's core as TARGET. Its source is taken relative to the issuer, whose address b is (R235,
R236; assumption 45). -/
def execCbput (sa : Bool) (b a d : BitVec 7) (s : State) : Out :=
  issue s (.cbput sa b a d) { usesDAB sa d a b with outside := true } fun dv x vs =>
    let v := wordAt vs 0
    let n := v.toNat
    let core := n / 2^8 % 2^14
    let j := n % 8
    if 2^22 ≤ n ∨ (dv.partAt x.part).hasCore core = false then .trap cPROT v
    else
      match (dv.coreAt core).buf j with
      | none => .trap cPROT (BitVec.ofNat 64 j)
      | some _ =>
        if (dv.coreAt core).saved then .retry
        else
        match claimEntry dv core j with
        | none => .retry
        | some (e, c, dv1) =>
          let w0 := BitVec.ofNat 64 (j * 2^34 + core * 2^20 + 2^9 + 1)
          let pk : Packet :=
            { cluster := clusterOf dv.core
              queue := 0
              vf := x.vf
              index := dv1.nextAccess
              slotAddr := 0
              words := [w0, wordAt vs 1, 0, BitVec.ofNat 64 c.bytes, 0, 0, 0, 0]
              privileged := x.priv
              poster := some x.poster
              claim := some e
              cbput := true
              origin := core
              from_ := dv.core
              started := decide ((dv1.packets.filter fun q => q.cluster == clusterOf dv.core && q.started).length < 16) }
          .ok ({ dv1 with packets := dv1.packets ++ [pk], nextAccess := dv1.nextAccess + 1 }.putG d.toNat (BitVec.ofNat 64 e))

end Sys2Proof.Machine
end

