-- ==== Sys2Proof/Machine/Spans.lean ====
section
/-! DEFINITION. How an engine reads and writes spans of memory (R179, R246, R250, R357, R358): the place of each unit, its
faults in the order of R124, and the signals an engine sends (R234, R374). -/
namespace Sys2Proof.Machine

/-- What reading or placing a unit of a span gives. -/
inductive Grab where
  | bytes (bs : List Byte)
  | place (p : Place)
  /-- A fault that ends the work, with its address. -/
  | fault (cause : BitVec 8) (addr : Word)
  /-- A translation fault: the engine writes its entry and waits (R358). -/
  | xlate (cls : Nat) (addr : Word) (need : BitVec 3)
  /-- Nothing can be read now: the page migrates, the line's tokens are away, or the host has not answered. -/
  | hold
  deriving DecidableEq, Repr

/-- An engine acting on memory: its core for window addresses, its partition and VF. -/
structure Agent where
  core : Nat
  part : Nat
  vf : Nat
  /-- The core whose network interface carries its requests. -/
  via : Nat
  /-- Its reads go through that core's L1 (R250). -/
  l1 : Bool := false
  /-- The context, and its slot, whose access a stream element is (R250, R261). -/
  owner : Option (Context × Nat) := none
  /-- Which request it is for the meters (R340); none for what they do not count. -/
  who : Option (Nat × Nat × Nat) := none
  deriving DecidableEq, Repr

/-- Bits 7:0 of a dword at a byte position. -/
def byteOf (x : Word) (i : Nat) : Byte := BitVec.ofNat 8 (x.toNat / 256^(i % 8))

/-- Locates a unit for an engine; a request over a sleeping link starts its wake and waits (R266), and so does one for memory of a saved
core (R371). -/
def Agent.find (g : Agent) (m : Memory) (d : Device) (a : Word) (need : BitVec 3) (q : Demand) : Grab × Device :=
  match locate m d g.core g.part g.vf g.owner g.l1 a need q with
  | (.trap c v, d) => (.fault c v, d)
  | (.fault cls v n, d) => (.xlate cls v n, d)
  | (.migrating, d) => (.hold, d)
  | (.ship _ _, d) => (.fault cANCHOR a, d)
  | (.at_ p, d) =>
    -- a saved core's memory is held against every other unit (R371)
    if p.port.ownCore.any fun c => (d.coreAt c).saved then (.hold, d)
    else
    let served := g.l1 && need == needR && decide (0 < (d.lineAt p.line).heldBy g.core)
    if (d.lostLine p.line && !served) || (decide (Config.scratchpadBase ≤ p.key) && d.lostDies.contains p.port.die) then
      (.fault cCOHLOSS a, d)
    else if served || linkUp d (dieOfCore g.via) p.port.die then (.place p, d)
    else (.hold, startWakes d (dieOfCore g.via) [p.port.die])

/-- The first poisoned word among n bytes from a key, as its distance. -/
def firstPoison (m : Memory) (key n : Nat) : Option Nat :=
  ((wordsOf key n).find? fun w => m.poisoned.contains w).map fun w => 8 * w - key

/-- The meters on the way to a place (R340). -/
def Agent.points (g : Agent) (p : Place) : List (Nat × Bool) := if g.who.isNone then [] else meterPoints g.via p.port p.key

/-- The meters' admission of a request to a place; one that they refuse waits there (R340). -/
def Agent.pass (g : Agent) (d : Device) (p : Place) (n : Nat) : Bool × Device :=
  let who := g.who.getD (9, 0, 0)
  if metersAdmit d g.vf who (g.points p) then (true, metersAdd d g.vf who (g.points p) n)
  else (false, metersWait d g.vf who (g.points p))

/-- What a held request leaves behind: what it asked of the host and of the holders of tokens. -/
def keepAsked (d d1 : Device) : Device :=
  { d with
    treqs := d1.treqs
    hostOut := d1.hostOut
    hostAsks := d1.hostAsks
    peers := d1.peers
    lines := d1.lines
    tokenMsgs := d1.tokenMsgs
    tokenReqs := d1.tokenReqs
    hints := d1.hints
    meterQueue := d1.meterQueue
    dieLinks := d1.dieLinks
    cores := d1.cores }

/-- An agent's request to a peer's memory, a read or a write (R382). -/
def Agent.peerReq (g : Agent) (write : Bool) (key : Nat) : PeerReq :=
  match g.who with
  | some (1, a, b) => ⟨if write then 2 else 1, (a, b), key⟩
  | some (2, a, b) => ⟨3, (a, b), key⟩
  | _ => ⟨6, (g.core, g.vf), key⟩

/-- Reads n bytes that lie in one 64-byte unit (R246): a weak read that reads no full bit. -/
def Agent.unit (g : Agent) (m : Memory) (d : Device) (a : Word) (n : Nat) (q : Demand) : Grab × Device :=
  match g.find m d a needR q with
  | (.place p, d) =>
    let (ok, d) := g.pass d p n
    if !ok then (.hold, d)
    else
    match p.kind with
    | .peer =>
      match d.peerRead g.part (g.peerReq false p.key) n with
      | .answer bs d1 => (.bytes bs, d1)
      | .down => (.fault cPOISON a, d)
      | .away d1 => (.hold, d1)
    | .host =>
      let (ok, d1) := hostReady d g.part (g.who.getD (9, 0, 0)) p.key false
      let (ok, d1) := if ok then d1.homeHas p.line false else (false, d1)
      if !ok then (.hold, d1)
      else
        match firstPoison m p.key n with
        | some i => (.fault cPOISON (a + BitVec.ofNat 64 i), d1)
        | none => (.bytes (m.bytes p.key n), d1)
    | _ =>
      let (ok, d) := if p.kind == .device then d.homeHas p.line false else (true, d)
      if !ok then (.hold, d)
      else
        match firstPoison m p.key n with
        | some i => (.fault cPOISON (a + BitVec.ofNat 64 i), d)
        | none => (.bytes (m.bytes p.key n), d)
  | r => r

/-- Cuts a span at multiples of 64 bytes. -/
def cuts : Nat → Word → Nat → List (Word × Nat)
  | 0, _, _ => []
  | fuel + 1, a, n =>
    if n = 0 then []
    else
      let k := min n (64 - a.toNat % 64)
      (a, k) :: cuts fuel (a + BitVec.ofNat 64 k) (n - k)

/-- Reads the units of a span in order, up to the first that does not answer bytes. -/
def Agent.units (g : Agent) (m : Memory) (q : Demand) : List (Word × Nat) → Device → List Byte → Grab × Device
  | [], d, acc => (.bytes acc, d)
  | (a, n) :: rest, d, acc =>
    match g.unit m d a n q with
    | (.bytes bs, d1) => g.units m q rest d1 (acc ++ bs)
    | r => r

/-- The same where some units, by number, have been read before. -/
def Agent.unitsWith (g : Agent) (m : Memory) (q : Demand) (got : List (Nat × List Byte)) :
    Nat → List (Word × Nat) → Device → List Byte → Grab × Device
  | _, [], d, acc => (.bytes acc, d)
  | i, (a, n) :: rest, d, acc =>
    match assocGet i got with
    | some bs => g.unitsWith m q got (i + 1) rest d (acc ++ bs)
    | none =>
      match g.unit m d a n q with
      | (.bytes bs, d1) => g.unitsWith m q got (i + 1) rest d1 (acc ++ bs)
      | r => r

/-- Reads n bytes from an address. -/
def Agent.read (g : Agent) (m : Memory) (d : Device) (a : Word) (n : Nat) (q : Demand) : Grab × Device :=
  g.units m q (cuts (n + 1) a n) d []

/-- Whether an engine may write at a place now: the line's home holds every token of it, and the proxy of a host line an
exclusive grant (R254, R378). -/
def writeReady (d : Device) (g : Agent) (p : Place) : Bool × Device :=
  match p.kind with
  | .device => d.homeHas p.line true
  | .host =>
    match hostReady d g.part (g.who.getD (9, 0, 0)) p.key true with
    | (true, d1) => d1.homeHas p.line true
    | r => r
  | _ => (true, d)

/-- Places of the units of a span that is to be written, checked in order before anything is written. -/
def Agent.targets (g : Agent) (m : Memory) : List (Word × Nat) → Device → List (Place × Nat) → Except Grab (List (Place × Nat)) × Device
  | [], d, acc => (.ok acc, d)
  | (a, n) :: rest, d, acc =>
    match g.find m d a needW .plain with
    | (.place p, d1) =>
      if p.kind == .peer && d1.peerDown (linkOf p.key) then (.error (.fault cPOISON a), d1)
      else
      let (ok, d2) := writeReady d1 g p
      let ok := ok && (p.kind != .peer || decide ((d2.peerAt (linkOf p.key)).sent.length + acc.length < 512))
      let (ok, d3) := if ok then g.pass d2 p n else (false, d2)
      if ok then g.targets m rest d3 (acc ++ [(p, n)]) else (.error .hold, d3)
    | (r, d1) => (.error r, d1)

/-- Logs the bytes that an engine write of part of a poisoned word discards (R385). -/
def Work.discards (w : Work) (part core : Nat) (key n : Nat) : Work :=
  ((wordsOf key n).filter fun k => w.m.poisoned.contains k && (decide (8 * k < key) || decide (key + n < 8 * k + 8))).foldl
    (fun w k => w.log { cls := 4, store := storeCode (8 * k), part := some part, addr := recordAddr w.d (8 * k), source := packName core 0 }) w

/-- Engine writes at a place key of a kind of memory (R246); one to a peer's memory leaves in a flit (R382). Host memory has no full bits:
a word that is covered loses its poison, part of a poisoned one is discarded, and the line is dirty at its proxy (R378, R385). -/
def Work.engineKey (w : Work) (g : Agent) (kind : PlaceKind) (key : Nat) (bs : List Byte) : Work :=
  match kind with
  | .peer => if w.d.peerDown (linkOf key) then w else w.on fun d => d.sendFlit (linkOf key) 1 none
  | .host =>
    let ws := wordsOf key bs.length
    let line := lineOf key
    (((w.discards g.part g.core key bs.length).fire ws).edit
      ((engineWrite w.m key bs).filter fun e => match e with
        | .full _ _ => false
        | _ => true) ws).on fun d => d.setLine line { d.lineAt line with homeDirty := true }
  | _ => (w.discards g.part g.core key bs.length).engine key bs

/-- Engine writes at one place. -/
def Work.engineAt (w : Work) (g : Agent) (p : Place) (bs : List Byte) : Work := w.engineKey g p.kind p.key bs

/-- Writes the bytes of a span at its places, in order. -/
def Work.engineSpan (w : Work) (g : Agent) : List (Place × Nat) → List Byte → Work
  | [], _ => w
  | (p, n) :: rest, bs => (w.engineAt g p (bs.take n)).engineSpan g rest (bs.drop n)

/-- Writes a KIND 2 entry for an engine, fill or stream (R357, R358): the entry's index, or none where the partition has no
fault queue or firmware's answer did not map the page (R334, R356): XLATE then. -/
def Work.askFirmware (w : Work) (g : Agent) (sclass source : Nat) (cls : Nat) (addr pc : Word) (need : BitVec 3) (answered : Option Word) :
    Work × Option Nat :=
  if answered = some addr then (w, none)
  else
    let d0 := BitVec.ofNat 64 (cls * 2^48 + sclass * 2^46 + source % 2^18 * 2^28 + g.vf % 512 * 2^16 + 1 * 2^8 + 2)
    w.faultEntry g.part (entryOf [d0, addr, pc, 0, pageWord addr need]) true

/-- A semaphore is incremented as by SADD (R234); a saved core's semaphore lives in its image (R374). -/
def Work.signal (w : Work) (core sem : Nat) (add : BitVec 32) : Work :=
  match (w.d.coreAt core).semImage with
  | some area =>
    let key := area + 0x800 + 4 * sem
    let v := min (w.m.nat key 4 + add.toNat) 0xFFFFFFFF
    (w.fire [key / 8]).edit (portStore w.m key 4 v) [key / 8]
  | none => w.on fun d => addSem d core sem add

/-- SEMAPHORE_SIGNAL (R234): operation `n` reaches its semaphore's unit, in the order in which operations were sent. -/
def execSemaphoreSignal (n : Nat) (s : State) : Out :=
  let w := Work.start s
  match w.d.signals[n]? with
  | none => conclude s s.dev []
  | some q =>
    ((w.on fun d => { d with signals := d.signals.eraseIdx n }).signal q.core q.sem q.add).finish s

end Sys2Proof.Machine
end

