-- ==== Sys2Proof/Machine/Matrix.lean ====
section
/-! DEFINITION. The matrix array, operand slots and operand strings (R173 to R190), and the block queues (R191, R192). -/
namespace Sys2Proof.Machine

/-- MTX encodings are ILLEGAL on a gleaner core (R176). -/
def noArray (d : Device) : Bool := isGleaner d.core

/-- Slot n of a core. -/
def Core.slotAt (k : Core) (n : Nat) : OpSlot := (k.opSlots[n]?).getD {}
/-- Changes slot n of a core. -/
def Core.onSlot (k : Core) (n : Nat) (f : OpSlot → OpSlot) : Core := { k with opSlots := k.opSlots.modify n f }

/-- TRAPVAL of a POISON from slot n or from an accumulator row (R386). -/
def slotPoison (n : Nat) : Word := BitVec.ofNat 64 (0xFD * 2^56 + 3 * 2^12 + n)
def rowPoison (acc row : Nat) : Word := BitVec.ofNat 64 (0xFD * 2^56 + 4 * 2^12 + 64 * acc + row)

/-- SLOT at issue (R175): a FREE slot, or another context's. -/
def slotTrap (k : Core) (slot n : Nat) : Bool :=
  let o := k.slotAt n
  decide (o.state = .free) || o.owner != slot

/-- Slot tags (R173): A role, FP8 format or BF16. -/
def slotIsA (tag : Nat) : Bool := tag % 2 == 0
def slotFmt (tag : Nat) : Fmt := if tag < 2 then .e4m3 else if tag < 4 then .e5m2 else .bf16
/-- Element tag code of a slot tag, as FOUND holds it (R183). -/
def slotElemTag (tag : Nat) : Nat := if tag < 2 then 8 else if tag < 4 then 9 else 4
/-- Bytes a transfer of a slot carries (R182). -/
def slotBytes (tag : Nat) : Nat := 8192 + (if 4 ≤ tag then 0 else if slotIsA tag then 256 else 4)

/-- TRAPVAL of a TAG from a slot (R183). -/
def slotTagVal (found n : Nat) : Word := BitVec.ofNat 64 (found * 2^8 + 0xC0 + n)

/-- The pairing of R183: none when the two slots pair, otherwise the TAG's TRAPVAL. -/
def pairing (ta tb a b : Nat) : Option Word :=
  if !slotIsA ta then some (slotTagVal (slotElemTag ta) a)
  else if slotIsA tb || (decide (4 ≤ ta) != decide (4 ≤ tb)) then some (slotTagVal (slotElemTag tb) b)
  else none

/-- Whether a slot's wait is over. -/
def OpSlot.settled (o : OpSlot) : Bool :=
  match o.state with
  | .full => true
  | .faulted _ _ => true
  | _ => false

/-- Whether a slot holds a poisoned operand: one that waits for its contents has none (R181, R183, R385). -/
def OpSlot.poisoned (o : OpSlot) : Bool := o.poison && decide (o.state = .full)

/-- The trap of a multiply once both slots are FULL or FAULTED (R183, R385). -/
def multiplyTrap (k : Core) (a b : Nat) : Option (BitVec 8 × Word) :=
  let sa := k.slotAt a
  let sb := k.slotAt b
  if sa.poisoned then some (cPOISON, slotPoison a)
  else if sb.poisoned then some (cPOISON, slotPoison b)
  else
    match sa.state, sb.state with
    | .faulted c v, _ => some (c, v)
    | _, .faulted c v => some (c, v)
    | _, _ => (pairing sa.tag sb.tag a b).map fun v => (cTAG, v)

/-- Queues an entry and parks its issuer (R183 to R185). -/
def enqueue (d : Device) (op : ArrayOp) : Device := d.onMe fun k => { k with arrayQ := k.arrayQ ++ [{ op := op, slot := d.slot }] }

/-- The array queue holds 8 entries (R184). -/
def arrayFull (d : Device) : Bool := decide (8 ≤ d.me.arrayQ.length)

/-- MMA and MMZ at issue (R175, R183, R184, R385). -/
def multiplyOp (s : State) (i : Instr) (op : ArrayOp) (a b : Nat) : Out :=
  issue s i { illegal := noArray, busy := arrayFull, outside := true } fun dv _ _ =>
    let k := dv.me
    if (k.slotAt a).poisoned then .trap cPOISON (slotPoison a)
    else if (k.slotAt b).poisoned then .trap cPOISON (slotPoison b)
    else if slotTrap k dv.slot a then .trap cSLOT (BitVec.ofNat 64 a)
    else if slotTrap k dv.slot b then .trap cSLOT (BitVec.ofNat 64 b)
    else
      match (if (k.slotAt a).settled && (k.slotAt b).settled then multiplyTrap k a b else none) with
      | some (c, v) => .trap c v
      | none => .wait false .array 0 (enqueue dv op) []

def execMma (b a : BitVec 4) (d : BitVec 2) (s : State) : Out := multiplyOp s (.mma b a d) (.mma d.toNat a.toNat b.toNat) a.toNat b.toNat
def execMmz (b a : BitVec 4) (d : BitVec 2) (s : State) : Out := multiplyOp s (.mmz b a d) (.mmz d.toNat a.toNat b.toNat) a.toNat b.toNat

/-- AZERO (R185): posted. -/
def execAzero (d : BitVec 2) (s : State) : Out :=
  issue s (.azero d) { illegal := noArray, busy := arrayFull, outside := true } fun dv _ _ => .ok (enqueue dv (.azero d.toNat))

/-- AREAD (R185): gB is read at issue; the checks of v(D + 1) follow it. -/
def execAread (b : BitVec 7) (a : BitVec 2) (d : BitVec 7) (s : State) : Out :=
  issue s (.aread b a d)
    { reads := [.g b.toNat]
      writes := [.v d.toNat]
      report := [.v d.toNat, .g b.toNat]
      illegal := noArray
      busy := arrayFull
      outside := true }
    fun dv x vs =>
      let v := (wordAt vs 0).toNat
      let form := v / 256 % 4
      let row := v % 64
      let second : Reg := .v (d.toNat + 1)
      let k := dv.me
      if k.arrayQ.isEmpty && k.accPoison.contains (64 * a.toNat + row) then .trap cPOISON (rowPoison a.toNat row)
      else if form = 0 ∧ x.inWindow second = false then .trap cWINDOW second.report
      else
        match (if form = 0 then lookaheadFault x [second] else none) with
        | some r => .trap cLOOKAHEAD r
        | none =>
          let apps := boundGens k dv.slot (if form = 0 then [.v d.toNat, second] else [.v d.toNat])
          match streamTrap k [] apps with
          | some n => .trap cSTREAM n
          | none => if streamStall k [] apps then .pause else .wait false .array 0 (enqueue dv (.aread d.toNat a.toNat row form)) []

/-- Core c of the neighbouring cluster in a direction (R176, R177): 1 N, 2 E, 3 S, 4 W; none at the die's edge. -/
def neighbour (core : Nat) (dir : Nat) : Option Nat :=
  let cx := cxOf core
  let cy := cyOf core
  match dir with
  | 1 => if cy = 0 then none else some (core - 64)
  | 2 => if cx = 15 then none else some (core + 4)
  | 3 => if cy = 15 then none else some (core + 64)
  | 4 => if cx = 0 then none else some (core - 4)
  | _ => none

/-- The opposite direction. -/
def opposite (dir : Nat) : Nat := match dir with
  | 1 => 3
  | 2 => 4
  | 3 => 1
  | _ => 2

/-- Whether the neighbour in a direction exists and lies in the launch's field blocks (R177, R181). -/
def neighbourIn (d : Device) (x : Context) (dir : Nat) : Bool :=
  match neighbour d.core dir with
  | none => false
  | some c => (d.launchAt x.part x.launch).any fun l => l.cores.contains c

/-- OCLM (R177): directions 5 to 7 do not decode (R176). -/
def execOclm (dir : BitVec 3) (d : BitVec 4) (s : State) : Out :=
  issue s (.oclm dir d) { illegal := noArray, outside := true, inner := true } fun dv x _ =>
    let n := d.toNat
    if (dv.me.slotAt n).state ≠ .free then .trap cSLOT (BitVec.ofNat 64 n)
    else if dir = 0 then .ok (dv.onMe fun k => k.onSlot n fun _ => { state := .local_, owner := dv.slot })
    else if !neighbourIn dv x dir.toNat then .trap cSLOT (BitVec.ofNat 64 n)
    else
      .ok (dv.onMe fun k =>
        { (k.onSlot n fun _ => { state := .recv dir, owner := dv.slot, claim := k.claims }) with claims := k.claims + 1 })

/-- Fills, sends, matched transfers and multiplies that still use a slot (R178). -/
def slotInUse (d : Device) (core n : Nat) : Bool :=
  let k := d.coreAt core
  d.fills.any (fun f => f.core == core && f.op == n) || k.sends.any (fun q => q.slot == n) ||
  d.transfers.any (fun t => (t.to_ == core && t.target == n)) || (k.slotAt n).matched ||
  k.arrayQ.any fun e => match e.op with
    | .mma _ a b => a == n || b == n
    | .mmz _ a b => a == n || b == n
    | _ => false

/-- OREL (R178): parks until the slot's uses have ended, then frees it; an unmatched RECV claim is withdrawn. -/
def execOrel (d : BitVec 4) (s : State) : Out :=
  issue s (.orel d) { illegal := noArray, outside := true, inner := true } fun dv _ _ =>
    let n := d.toNat
    if slotTrap dv.me dv.slot n then .trap cSLOT (BitVec.ofNat 64 n)
    else if slotInUse dv dv.core n then .retry
    else .ok (dv.onMe fun k => k.onSlot n fun _ => {})

/-- OFILL (R179): its checks in their order, then the fill is posted and the slot enters LOCAL. Sends that wait for the
old contents of a FULL slot still carry them. -/
def execOfill (sa : Bool) (b a : BitVec 7) (d : BitVec 4) (s : State) : Out :=
  issue s (.ofill sa b a d) { usesAB sa a b with illegal := noArray, outside := true } fun dv x vs =>
    let n := d.toNat
    let ad := wordAt vs 0
    let v := (wordAt vs 1).toNat
    let tag := v % 16
    let pitch := v / 2^16 % 2^24
    let o := dv.me.slotAt n
    let fits := match o.state with
      | .local_ => true
      | .full => true
      | _ => false
    if slotTrap dv.me dv.slot n || !fits then .trap cSLOT (BitVec.ofNat 64 n)
    else if v / 2^10 % 64 ≠ 0 ∨ 5 < tag ∨ pitch % 64 ≠ 0 ∨ pitch < (if tag = 1 ∨ tag = 3 then 64 else 128) then .trap cSLOT (BitVec.ofNat 64 n)
    else if misaligned ad 64 then .trap cALIGN ad
    else
      let dv1 := dv.onMe fun k => k.onSlot n fun o =>
        { o with state := .local_, fills := o.fills + 1, firstFault := if o.state = .full then none else o.firstFault }
      .ok { dv1 with fills := dv1.fills ++ [{ core := dv.core, slot := dv.slot, op := n, addr := ad, desc := wordAt vs 1, pc := x.regs.pc, vf := x.vf, part := x.part }] }

/-- OPASS (R181): posted; a FAULTED slot raises its kept cause (R180). -/
def execOpass (dir : BitVec 3) (a : BitVec 4) (s : State) : Out :=
  issue s (.opass dir a) { illegal := noArray, outside := true } fun dv x _ =>
    let n := a.toNat
    let o := dv.me.slotAt n
    if o.poisoned then .trap cPOISON (slotPoison n)
    else if slotTrap dv.me dv.slot n then .trap cSLOT (BitVec.ofNat 64 n)
    else
      match o.state with
      | .faulted c v => .trap c v
      | _ =>
        if !neighbourIn dv x dir.toNat then .trap cSLOT (BitVec.ofNat 64 n)
        else .ok (dv.onMe fun k => { k with sends := k.sends ++ [{ slot := n, dir := dir, owner := dv.slot, ready := decide (o.state = .full) }] })

/-- A slot's wait is over: its waiting sends can begin (R181). -/
def Core.readySends (k : Core) (n : Nat) : Core :=
  { k with sends := k.sends.map fun q => if q.slot = n then { q with ready := true } else q }

/-- The units a fill reads, row by row, then its scales (R179). -/
def fillUnits (a : Word) (tag pitch soff : Nat) : List (Word × Nat) :=
  let row := if tag = 1 ∨ tag = 3 then 64 else 128
  let rows := 8192 / row
  ((List.range rows).map fun i => cuts (row + 1) (a + BitVec.ofNat 64 (i * pitch)) row).flatten ++
  (if 4 ≤ tag then [] else
    let n := if slotIsA tag then 256 else 4
    cuts (n + 1) (a + BitVec.ofNat 64 (16 * soff)) n)

/-- The end of a fill at its slot (R179, R180): the last of the fills issued into it settles it. -/
def endFill (k : Core) (n tag now : Nat) (r : Except (BitVec 8 × Word) (List Byte)) : Core :=
  let o := k.slotAt n
  let o1 := match r with
    | .ok bs => { o with
        tag := tag
        bits := BitVec.ofNat 65536 (bytesNat (bs.take 8192))
        scales := BitVec.ofNat 2048 (bytesNat (bs.drop 8192))
        poison := false }
    | .error f => { o with firstFault := o.firstFault.or (some f) }
  let o2 := { o1 with fills := o1.fills - 1, fullAt := now }
  if o2.fills = 0 then
    match o2.firstFault with
    | none => (k.onSlot n fun _ => { o2 with state := .full }).readySends n
    | some (c, v) => (k.onSlot n fun _ => { o2 with state := .faulted c v, firstFault := none }).readySends n
  else k.onSlot n fun _ => o2

/-- Whether a fill waits: for firmware, for the slot's earlier fills, or for the multiplies and sends that use its old contents
(R179, R358). -/
def fillHeld (d : Device) (n : Nat) (f : Fill) : Bool :=
  let k := d.coreAt f.core
  (d.fills.take n).any (fun g => g.core == f.core && g.op == f.op) || f.waiting.isSome ||
    k.sends.any (fun q => q.slot == f.op && q.ready) ||
    k.arrayQ.any fun e => (k.slotAt f.op).owner == e.slot && match e.op with
      | .mma _ a b => (a == f.op || b == f.op) && e.started
      | .mmz _ a b => (a == f.op || b == f.op) && e.started
      | _ => false

/-- The agent of a fill. -/
def fillAgent (f : Fill) : Agent := { core := f.core, part := f.part, vf := f.vf, via := f.core, who := some (2, f.core, f.op) }

/-- The units of a fill, by its descriptor. -/
def Fill.units (f : Fill) : List (Word × Nat) := fillUnits f.addr (f.desc.toNat % 16) (f.desc.toNat / 2^16 % 2^24) (f.desc.toNat / 2^40)

/-- Fill `n` reads one of its units ahead of its end: its reads perform at any instants (R251). A fault is found at the end. -/
def execFillRead (n unit : Nat) (s : State) : Out :=
  match s.dev.fills[n]? with
  | none => conclude s s.dev []
  | some f =>
    if fillHeld s.dev n f || (assocGet unit f.got).isSome then conclude s s.dev []
    else
      match f.units[unit]? with
      | none => conclude s s.dev []
      | some (a, k) =>
        match (fillAgent f).unit s.mem s.dev a k .plain with
        | (.bytes bs, d1) => conclude s { d1 with fills := d1.fills.set n { f with got := (unit, bs) :: f.got } } []
        | (_, d1) => conclude s (keepAsked s.dev d1) []

/-- FILL_COMPLETE (R179, R180): fill `n` reads what it has not read of its operand; a translation fault makes it wait for firmware
(R358). -/
def execFillComplete (n : Nat) (s : State) : Out :=
  let w := Work.start s
  match w.d.fills[n]? with
  | none => conclude s s.dev []
  | some f =>
    if fillHeld w.d n f then conclude s s.dev []
    else
      let v := f.desc.toNat
      let tag := v % 16
      let g := fillAgent f
      let (r, d1) := if f.got.isEmpty then g.units w.m .plain f.units w.d [] else g.unitsWith w.m .plain f.got 0 f.units w.d []
      let w1 : Work := { w with d := d1 }
      let finish (w : Work) (r : Except (BitVec 8 × Word) (List Byte)) : Out :=
        let w2 := w.on fun d => { (d.peerForget 3 (f.core, f.op)).onCore f.core (fun k => endFill k f.op tag d.now r) with fills := d.fills.eraseIdx n }
        (w2.signal f.core (v / 16 % 64) 1).finish s
      match r with
      | .bytes bs => finish w1 (.ok bs)
      | .fault c a => finish w1 (.error (c, a))
      | .xlate cls a need =>
        match w1.askFirmware g 2 (packName f.core f.slot) cls a f.pc need f.answered with
        | (w2, some i) => (w2.on fun d => { d with fills := d.fills.set n { f with waiting := some i, answered := none } }).finish s
        | (w2, none) => finish w2 (.error (cXLATE, a))
      | _ => conclude s (keepAsked s.dev d1) []

/-- The oldest unmatched RECV claim of a core for a direction (R177, R181). -/
def oldestClaim (k : Core) (dir : Nat) : Option Nat :=
  ((k.opSlots.zipIdx.filter fun q => decide (q.1.state = .recv (BitVec.ofNat 3 dir)) && !q.1.matched).foldl
    (fun best q => match best with
      | none => some (q.1.claim, q.2)
      | some b => if q.1.claim < b.1 then some (q.1.claim, q.2) else some b) none).map Prod.snd

/-- STRING_MATCH (R181, R182, R372): the first send of a port is matched to its neighbour's oldest claim. -/
def execStringMatch (core : Nat) (dir : BitVec 3) (s : State) : Out :=
  let d := s.dev
  let k := d.coreAt core
  match k.sends.findIdx? fun q => q.dir == dir, neighbour core dir.toNat with
  | some i, some to_ =>
    match k.sends[i]? with
    | none => conclude s d []
    | some q =>
      let kt := d.coreAt to_
      match oldestClaim kt (opposite dir.toNat) with
      | none => conclude s d []
      | some t =>
        let room := !kt.saved || decide (kt.spill.length + (d.transfers.filter fun t => t.to_ == to_ && t.spilled).length < 64)
        if k.saved || !q.ready || q.matched || !room then conclude s d []
        else
          let o := k.slotAt q.slot
          let ns := match o.state with
            | .faulted _ _ => 2
            | _ => (slotBytes o.tag + 127) / 128 + 2
          let d1 := (d.onCore core fun k => { k with sends := k.sends.modify i fun q => { q with matched := true } }).onCore to_ fun k =>
            k.onSlot t fun o => { o with matched := true }
          conclude s { d1 with transfers := d1.transfers ++
            [{ from_ := core, source := q.slot, to_ := to_, target := t, due := d.wall + ns, spilled := kt.saved }] } []
  | _, _ => conclude s d []

/-- Settles a RECV slot with a transfer's operand or fault (R181), at an instant. -/
def Core.receiveOperand (k : Core) (now n tag : Nat) (bits : BitVec 65536) (scales : BitVec 2048) (poison : Bool)
    (fault : Option (BitVec 8 × Word)) : Core :=
  (k.onSlot n fun o =>
    match fault with
    | some (c, v) => { o with state := .faulted c v, matched := false, fullAt := now }
    | none => { o with state := .full, matched := false, fullAt := now, tag := tag, bits := bits, scales := scales, poison := poison }).readySends n

/-- A matched transfer arrives after its time; a saved core's goes to its spill ring. -/
def deliverString (d : Device) (n : Nat) : Device :=
  match d.transfers[n]? with
  | none => d
  | some t =>
    if d.wall < t.due then d
    else
      let ks := d.coreAt t.from_
      let o := ks.slotAt t.source
      let fault := match o.state with
        | .faulted c v => some (c, v)
        | _ => none
      let d1 : Device := { d with transfers := d.transfers.eraseIdx n }
      let d2 := d1.onCore t.from_ fun k =>
        { k with sends := match k.sends.findIdx? fun q => q.slot == t.source && q.matched && neighbour t.from_ q.dir.toNat == some t.to_ with
            | some i => k.sends.eraseIdx i
            | none => k.sends }
      d2.onCore t.to_ fun k =>
        if k.saved then { k with spill := k.spill ++ [.transfer t.target o.tag o.bits o.scales o.poisoned fault] }
        else k.receiveOperand (t.due * Config.fsPerNs) t.target o.tag o.bits o.scales o.poisoned fault

/-- STRING_DELIVERY (R181, R182, R372). -/
def execStringDelivery (n : Nat) (s : State) : Out := conclude s (deliverString s.dev n) []

/-- Exact fixed-point value of a product of finite elements, in units of 2^-300. -/
def fixedProduct (a b : Num) : Int :=
  match a, b with
  | .fin s m e _, .fin t n f _ =>
    let x : Int := (m * n * 2^(e + f + 300).toNat : Nat)
    if s = t then x else -x
  | _, _ => 0

/-- The exact sum of products of R67 and R68: an exact zero is +0. -/
def blockSum (xs : List (Num × Num)) : Num :=
  let ps := xs.map fun p => p.1.mul p.2
  if ps.any (· == .nan) then .nan
  else
    let pos := ps.any (· == .inf false)
    let neg := ps.any (· == .inf true)
    if pos && neg then .nan
    else if pos then .inf false
    else if neg then .inf true
    else
      let t : Int := (xs.map fun p => fixedProduct p.1 p.2).foldl (fun a b => a + b) 0
      .fin (decide (t < 0)) t.natAbs (-300) false

/-- Rounds to nearest F32 and reads the value back. -/
def toF32 (x : Num) : Num := decodeNum .f32 (rne .f32 x)

/-- Elements of a width in a slot. -/
def OpSlot.elem (o : OpSlot) (w i : Nat) : Nat := o.bits.toNat / 2^(w * i) % 2^w
/-- A scale of a slot, as a value. -/
def OpSlot.scale (o : OpSlot) (i : Nat) : Num := decodeNum .f32 (o.scales.toNat / 2^(32 * i) % 2^32)

/-- Accumulator element (i, j) after a multiply that found the value `old` in it (R67, R68). -/
def multiplyElem (a b : OpSlot) (i j : Nat) (old : Nat) : Nat :=
  let acc := decodeNum .f32 old
  if 4 ≤ a.tag then
    let bs := blockSum ((List.range 64).map fun k => (decodeNum .bf16 (a.elem 16 (64 * i + k)), decodeNum .bf16 (b.elem 16 (64 * k + j))))
    rne .f32 (acc.add .rne (toF32 bs))
  else
    let bs := blockSum ((List.range 128).map fun k => (decodeNum (slotFmt a.tag) (a.elem 8 (128 * i + k)), decodeNum (slotFmt b.tag) (b.elem 8 (64 * k + j))))
    let x := toF32 bs
    let x := toF32 (x.mul (a.scale i))
    let x := toF32 (x.mul (b.scale 0))
    rne .f32 (acc.add .rne x)

/-- Accumulator row, all zero where it is not listed. -/
def Core.accRow (k : Core) (acc row : Nat) : BitVec 2048 := (assocGet (64 * acc + row) k.acc).getD 0
/-- Replaces an accumulator row; a zero row is not listed. -/
def Core.setAccRow (k : Core) (acc row : Nat) (x : BitVec 2048) : Core :=
  { k with acc := if x = 0 then assocDrop (64 * acc + row) k.acc else assocPut (64 * acc + row) x k.acc }

/-- One row of a multiply. -/
def multiplyRow (k : Core) (acc : Nat) (a b : OpSlot) (zero : Bool) (i : Nat) : BitVec 2048 :=
  let old := (if zero then 0 else k.accRow acc i).toNat
  BitVec.ofNat 2048 ((List.range 64).foldr (fun j r => multiplyElem a b i j (old / 2^(32 * j) % 2^32) % 2^32 + 2^32 * r) 0)

/-- The poison marks of an accumulator are cleared (R385). -/
def Core.cleanAcc (k : Core) (acc : Nat) : Core := { k with accPoison := k.accPoison.filter fun r => r / 64 != acc }

/-- Row groups g up to, not including, h of a multiply: 8 rows each (R371). -/
def Core.multiplyGroups (k : Core) (op : ArrayOp) (g h : Nat) : Core :=
  let rows := (List.range (8 * (h - g))).map (8 * g + ·)
  match op with
  | .mma acc a b => rows.foldl (fun q r => q.setAccRow acc r (multiplyRow k acc (k.slotAt a) (k.slotAt b) false r)) k
  | .mmz acc a b =>
    let k1 := rows.foldl (fun q r => q.setAccRow acc r (multiplyRow k acc (k.slotAt a) (k.slotAt b) true r)) k
    { k1 with accPoison := k1.accPoison.filter fun r => !(r / 64 == acc && decide (8 * g ≤ r % 64 ∧ r % 64 < 8 * h)) }
  | _ => k

/-- Array cycles of a row group (R371). -/
def groupCycles (core tag : Nat) : Nat :=
  (if 4 ≤ tag then 32 else 16) * (if isMatrixDie core then 1 else 16)

/-- Array time of an entry (R183, R185): what is left of it after a save. -/
def entryCycles (core : Nat) (k : Core) (e : ArrayEntry) : Nat :=
  match e.op with
  | .mma _ a _ => (8 - e.groups) * groupCycles core (k.slotAt a).tag
  | .mmz _ a _ => (8 - e.groups) * groupCycles core (k.slotAt a).tag
  | .azero _ => 16
  | .aread _ _ _ _ => 1

/-- The wait behind an entry has expired, so that the array may not begin it (R183). -/
def entryLate (d : Device) (k : Core) (e : ArrayEntry) : Bool :=
  !e.op.posted && !e.begun && (match k.ctx e.slot with
    | some x =>
      match x.phase with
      | .parked ⟨.array, _, ex, _⟩ => (expired ex d.wall).isSome
      | _ => false
    | none => false)

/-- The trap an unstarted entry of the queue now takes: a multiply whose slots have settled badly (R183), or a read of a
poisoned row that is next (R385). -/
def entryTrap (k : Core) (first : Bool) (e : ArrayEntry) : Option (BitVec 8 × Word) :=
  let here := match k.ctx e.slot with
    | some x => (x.wait?.any fun w => decide (w.kind = .array))
    -- R370: a saved issuer's multiply may trap too
    | none => k.tied.contains e.slot
  if e.started || e.begun || !here && !e.op.posted then none
  else
    match e.op with
    | .mma _ a b => if (k.slotAt a).settled && (k.slotAt b).settled then multiplyTrap k a b else none
    | .mmz _ a b => if (k.slotAt a).settled && (k.slotAt b).settled then multiplyTrap k a b else none
    | .aread _ acc row _ => if first && k.accPoison.contains (64 * acc + row) then some (cPOISON, rowPoison acc row) else none
    | .azero _ => none

/-- Takes the traps of entries that can no longer run (R183): each leaves the queue, and its issuer traps at its next
turn. `fuel` bounds the entries. -/
def Work.judgeArray (core : Nat) : Nat → Work → Work
  | 0, w => w
  | fuel + 1, w =>
    let d := w.d
    let k := d.coreAt core
    match (k.arrayQ.zipIdx.filterMap fun q =>
        if entryLate d k q.1 then none else (entryTrap k (q.2 == 0) q.1).map fun t => (q.2, q.1, t)).head? with
    | none => w
    | some (i, e, c, v) =>
      let w1 := w.on fun d =>
        let d1 := d.setCore core { k with arrayQ := k.arrayQ.eraseIdx i }
        match k.ctx e.slot with
        | some _ => (d1.untake core e.slot).onCtx core e.slot fun x =>
            match x.phase with
            | .parked _ => { x with phase := .trapping c v x.regs.pc }
            | _ => x
        | none => { d1 with saved := d1.saved.map fun u =>
            if !u.whole && u.tied && u.core == core && u.slot == e.slot then { u with trap := some (c, v) } else u }
      judgeArray core fuel (match k.ctx e.slot with
        | some x => if c = cPOISON then w1.consumed x core e.slot (registerStore v) v else w1
        | none => w1)

/-- Begins the entry at the head of the queue, if it can begin in the core's present cycle (R183 to R185). -/
def Work.arrayBegin (w : Work) (core : Nat) : Work :=
  let here := w.d.coreAt core
  let w0 := if here.halted || here.saved then w else w.judgeArray core 8
  let k := w0.d.coreAt core
  match k.arrayQ with
  | e :: rest =>
    let full (n : Nat) : Bool := decide ((k.slotAt n).state = .full) && (decide ((k.slotAt n).fullAt = 0) || decide ((k.slotAt n).fullAt < w0.d.now))
    let can := match e.op with
      | .mma _ a b => full a && full b
      | .mmz _ a b => full a && full b
      | _ => true
    if e.started || k.halted || k.saved || entryLate w0.d k e || !can then w0
    else w0.on fun d => d.setCore core { k with arrayQ := { e with started := true, begun := true, until_ := k.cyc + entryCycles core k e } :: rest }
  | [] => w0

/-- The rounding of AREAD's forms (R185). -/
def areadFmt (form : Nat) : Fmt := if form = 2 then .f16 else .bf16

/-- What AREAD writes into its issuer (R185, R402). -/
def areadWrite (d : Device) (core slot dest acc row form : Nat) : Device :=
  let r := ((d.coreAt core).accRow acc row).toNat
  let put (d : Device) (n : Nat) (b : VBits) (tag : BitVec 4) : Device := d.writeReg core slot (.v n) (.r { bits := b, tag := tag, scale := scaleOne })
  if form = 0 then put (put d dest (BitVec.ofNat 1024 r) 3) (dest + 1) (BitVec.ofNat 1024 (r / 2^1024)) 3
  else
    match d.ctxAt core slot with
    | none => d
    | some x =>
      let env : RoundEnv := ⟨if form = 3 then .sr else .rne, x.regs.sys.srseed.setWidth 32, x.regs.sys.srctr⟩
      let es := (List.range 64).map fun e => let t := decodeNum .f32 (r / 2^(32 * e) % 2^32); roundM (areadFmt form) env e t [t]
      let d1 := put d dest (packElems 16 (es.map Prod.fst)) (if form = 2 then 5 else 4)
      d1.onCtx core slot fun x => (x.orFlags (es.foldl (fun f q => f ||| q.2) 0)).onSys fun y =>
        { y with srctr := if form = 3 then y.srctr + 1 else y.srctr }

/-- Ends the entry at the head of the queue once its cycles are over: its effect, and its parked issuer goes on (R183 to
R185). -/
def arrayEnd (d : Device) (core : Nat) : Device :=
  let k := d.coreAt core
  match k.arrayQ with
  | e :: rest =>
    if !e.started || k.halted || decide (k.cyc < e.until_) then d
    else
      let k1 := { k with arrayQ := rest }
      let waiting := match k.ctx e.slot with
        | some x =>
          match x.phase with
          | .parked ⟨.array, _, _, _⟩ => true
          | _ => false
        | none => false
      let go (d : Device) : Device := if waiting then completeWait d core e.slot none else d
      match e.op with
      | .azero acc => d.setCore core { k1.cleanAcc acc with acc := k1.acc.filter fun r => r.1 / 64 != acc }
      | .aread dest acc row form => if waiting then go (areadWrite (d.setCore core k1) core e.slot dest acc row form) else d.setCore core k1
      | op => go (d.setCore core (k1.multiplyGroups op e.groups 8))
  | [] => d

/-- ARRAY_ENTRY_START (R183, R184). -/
def execArrayEntryStart (core : Nat) (s : State) : Out := ((Work.start s).arrayBegin core).finish s
/-- ARRAY_ENTRY_COMPLETE (R183, R185): where its issuer becomes ready in its own turn's cycle, it waits for the next (R14). -/
def execArrayEntryComplete (core : Nat) (s : State) : Out :=
  let d := s.dev
  match (d.coreAt core).arrayQ with
  | e :: _ => endsTimed s core e.slot fun d => arrayEnd d core
  | [] => conclude s d []

/-- A block-queue request is sent, and its issuer parks until the reply (R192). -/
def blockRequest (dv : Device) (x : Context) (kind : Nat) (q : Word) (n : BitVec 32) (dest : Nat) : Verdict :=
  .wait false .queued dest { dv with blockReqs := dv.blockReqs ++ [⟨kind, q, n, dv.core, dv.slot, x.part⟩] } []

/-- BQGET (R192). -/
def execBqget (sa : Bool) (a d : BitVec 7) (s : State) : Out :=
  issue s (.bqget sa a d) { usesDA sa d a with outside := true } fun dv x vs => blockRequest dv x 0 (wordAt vs 0) 0 d.toNat
/-- BQDONE (R192). -/
def execBqdone (sa : Bool) (a d : BitVec 7) (s : State) : Out :=
  issue s (.bqdone sa a d) { usesDA sa d a with outside := true } fun dv x vs => blockRequest dv x 2 (wordAt vs 0) 0 d.toNat
/-- BQINIT (R192). -/
def execBqinit (sa : Bool) (b a d : BitVec 7) (s : State) : Out :=
  issue s (.bqinit sa b a d)
    { usesDAB sa d a b with
      privilege := fun _ x => if x.priv then none else some cPRIV
      outside := true }
    fun dv x vs => blockRequest dv x 3 (wordAt vs 0) ((wordAt vs 1).setWidth 32) d.toNat

/-- The reply of a block queue (R191, R192): PROT, or the value and the queue's new state. -/
def blockReply (d : Device) (r : BlockReq) : Option (Word × Device) :=
  let q := r.q.toNat
  let hub := if q < 32 then 8 else 9
  if 63 < q ∨ d.lostDies.contains hub = true then none
  else
    let old := d.blockQueues.find? fun b => b.id == q
    let set (b : BlockQueue) : Device := { d with blockQueues := (d.blockQueues.filter fun c => c.id != q) ++ [b] }
    match r.kind, old with
    | 3, none => some (0, set ⟨q, r.n, 0, 0, r.part⟩)
    | 3, some b =>
      if b.done = b.n then some (0, set ⟨q, r.n, 0, 0, r.part⟩)
      else if b.owner ≠ r.part then none
      else some (1, d)
    | _, none => none
    | k, some b =>
      if b.owner ≠ r.part then none
      else if k = 0 then
        if b.next < b.n then some (b.next.setWidth 64, set { b with next := b.next + 1 }) else some (allOnes, d)
      else if b.done < b.n then some ((b.n - (b.done + 1)).setWidth 64, set { b with done := b.done + 1 })
      else some (allOnes, d)

/-- BLOCK_QUEUE_REQUEST (R191, R192): request `n` reaches its queue, and its issuer gets the reply or PROT, which it takes at its
next turn with what it read given back (R8). A sleeping link starts its wake (R266). -/
def execBlockQueueRequest (n : Nat) (s : State) : Out :=
  let d := s.dev
  match d.blockReqs[n]? with
  | none => conclude s d []
  | some r =>
    let d1 : Device := { d with blockReqs := d.blockReqs.eraseIdx n }
    match d.ctxAt r.core r.slot with
    | none => conclude s d1 []
    | some x =>
      match x.wait? with
      | none => conclude s d1 []
      | some w =>
        let hub := if r.q.toNat < 32 then 8 else 9
        let (up, d0) := reachDie d (dieOfCore r.core) hub
        if (expired w.expiry d.wall).isSome || (d.coreAt r.core).halted then conclude s d []
        else if !up && !d.lostDies.contains hub then conclude s d0 []
        else
          match blockReply d1 r with
          | some (v, d2) => conclude s (d2.wake r.core r.slot (some (w.dest, v))) []
          | none => conclude s ((d1.untake r.core r.slot).onCtx r.core r.slot fun y => { y with phase := .trapping cPROT r.q x.regs.pc }) []

end Sys2Proof.Machine
end

