-- ==== Sys2Proof/Machine/Engine.lean ====
section
/-! DEFINITION. Copy engines (R230 to R233, R246 to R249, R303), stream elements (R227, R228, R250), groups and work counts
(R223 to R225, R301), winnowing (R226, R302), the mesh (R45, R304) and meter windows (R340). -/
namespace Sys2Proof.Machine

/-- The queues of a cluster's copy engine, in ring order (R303). -/
def Device.engineAt (d : Device) (cluster : Nat) : List CopyQueue := (assocGet cluster d.engines).getD []
/-- Replaces an engine's ring; an empty ring is not listed. -/
def Device.setEngine (d : Device) (cluster : Nat) (l : List CopyQueue) : Device :=
  { d with engines := if l.isEmpty then assocDrop cluster d.engines else assocPut cluster l d.engines }

/-- The agent of a queue's VF at a core. -/
def agentOf (d : Device) (core vf via : Nat) : Agent := { core := core, part := ((d.vfAt vf).part).getD 64, vf := vf, via := via }

/-- The core in whose own window an address lies, as seen from a core: the cluster's first for cluster-shared memory, and 0 where the
address names the same place from every core (R236). -/
def homeCore (core : Nat) (a : Word) : Nat :=
  if a.toNat / 2^48 = 0xFE01 then clusterOf core * 4 else if a.toNat / 2^48 = 0xFE00 then core else 0

/-- RDIDX as it stands in a queue's header (R230). -/
def readIndex (m : Memory) (d : Device) (cluster vf home : Nat) (header : Word) (other : Nat) : Nat :=
  match (agentOf d home vf (cluster * 4)).find m d (header + 8) needR .plain with
  | (.place p, _) => (m.word p.key).toNat
  | _ => other

/-- COPY_NOTIFICATION (R303): notification `n` reaches its engine; a queue that has no unstarted packet enters the ring at its
end. -/
def execCopyNotification (n : Nat) (s : State) : Out :=
  let d := s.dev
  match d.notices[n]? with
  | none => conclude s d []
  | some q =>
    let ring := d.engineAt q.cluster
    let d1 : Device := { d with notices := d.notices.eraseIdx n }
    let add (c : CopyQueue) : CopyQueue :=
      { c with waiting := insertBy (fun a b => decide (a.index ≤ b.index)) q c.waiting, notified := c.notified + 1 }
    let home := homeCore q.home q.header
    let ring1 := match ring.findIdx? fun c => c.vf == q.vf && c.header == q.header && c.home == home with
      | some i =>
        match ring[i]? with
        | some c => if c.waiting.isEmpty then ring.eraseIdx i ++ [add c] else ring.set i (add c)
        | none => ring
      | none =>
        let r := readIndex s.mem d q.cluster q.vf home q.header q.index
        ring ++ [add ⟨q.vf, q.header, q.ring, q.log2n, [], 0, r, [], r, home⟩]
    conclude s (d1.setEngine q.cluster ring1) []

/-- Packets of a queue in progress. -/
def inProgress (d : Device) (cluster : Nat) (c : CopyQueue) : Bool :=
  d.packets.any fun p => p.cluster == cluster && p.queue == c.header.toNat && p.vf == c.vf && p.home == c.home && !p.cbput

/-- The circular buffer that a CB packet names, if its TARGET lies in the partition and defines it (R232). -/
def packetBuf (d : Device) (part : Nat) (ws : List Word) : Option (Nat × Nat × CircBuf) :=
  let w0 := ws.getD 0 0
  let t := targetOf w0
  if w0.getLsbD 9 && (d.partAt part).hasCore t then
    ((d.coreAt t).buf (w0.toNat / 2^34 % 8)).map fun c => (t, w0.toNat / 2^34 % 8, c)
  else none

/-- Whether a launch that the dispatcher has set aside owns the posted packet's TARGET core: the packet waits for it to come back (R344,
R374). -/
def Notice.aside (d : Device) (q : Notice) : Bool :=
  d.saved.any fun v => v.whole && v.area == 0 && v.core == targetOf (q.words.getD 0 0) && q.poster.any (fun p => p.1 == v.launch) && (d.vfAt q.vf).part == some v.part

/-- Whether the next packet of a queue can start (R233, R303). -/
def startable (d : Device) (cluster : Nat) (c : CopyQueue) : Bool :=
  match c.waiting with
  | [] => false
  | q :: _ =>
    q.index == c.started && !q.aside d &&
    !((q.words.getD 0 0).getLsbD 8 && inProgress d cluster c) &&
    (match packetBuf d (((d.vfAt c.vf).part).getD 64) q.words with
      | some (t, _, b) => decide (b.claimed - b.freed < b.entries) && !(d.coreAt t).saved
      | none => true)

/-- Whether 16 packets are in progress in an engine (R303). -/
def engineFull (d : Device) (cluster : Nat) : Bool := decide (16 ≤ (d.packets.filter fun p => p.cluster == cluster && p.started).length)

/-- PACKET_START (R233, R303): the engine starts the next packet of the first queue of its ring that can start one, claims
its circular-buffer entry, and moves the queue to the ring's end. At most 16 packets are in progress. -/
def execPacketStart (cluster queue : Nat) (s : State) : Out :=
  let d := s.dev
  let ring := d.engineAt cluster
  if engineFull d cluster = true ∨ (ring.findIdx? fun c => startable d cluster c) ≠ some queue then conclude s d []
  else
    match ring[queue]? with
    | none => conclude s d []
    | some c =>
      match c.waiting with
      | [] => conclude s d []
      | q :: rest =>
        let part := ((d.vfAt c.vf).part).getD 64
        let (claim, d1) := match packetBuf d part q.words with
          | some (t, j, _) =>
            match claimEntry d t j with
            | some (e, _, d1) => (some e, d1)
            | none => (none, d)
          | none => (none, d)
        let pk : Packet :=
          { cluster := cluster
            queue := c.header.toNat
            vf := c.vf
            index := q.index
            slotAddr := c.ring + BitVec.ofNat 64 (64 * (q.index % 2^c.log2n))
            words := q.words
            privileged := q.privileged
            poster := q.poster
            claim := claim
            origin := targetOf (q.words.getD 0 0)
            from_ := targetOf (q.words.getD 0 0)
            home := c.home
            slotHome := homeCore q.home c.ring }
        let ring1 := ring.eraseIdx queue ++ [{ c with waiting := rest, started := c.started + 1 }]
        conclude s { d1.setEngine cluster ring1 with packets := d1.packets ++ [pk] } []

/-- Where the bytes of a packet come from. -/
inductive Source where
  | mem (base : Word)
  | zero
  | gather
  | tiles (vf : Nat) (base : Word)
  | range (full : Bool)
  deriving DecidableEq, Repr

/-- A full/empty range set. -/
def Source.isRange : Source → Bool
  | .range _ => true
  | _ => false

/-- A valid packet's work: rows of bytes to write, the distance of their starts, and where they come from. -/
structure Plan where
  dst : Word
  rows : Nat
  rowBytes : Nat
  srcPitch : Nat
  dstPitch : Nat
  src : Source
  deriving DecidableEq, Repr

/-- A half-word field. -/
def field (w : Word) (lo n : Nat) : Nat := w.toNat / 2^lo % 2^n

/-- Words a kind uses beside w0 (R232). -/
def usedWords (kind : Nat) : List Nat :=
  match kind with
  | 1 => [1, 2, 3]
  | 2 => [1, 2, 3, 4]
  | 3 => [1, 2, 3, 4, 5, 6]
  | 4 => [1, 2, 3, 4]
  | 5 => [2, 3]
  | 6 => [2, 3]
  | _ => [1, 3]

/-- Counts of a gather: H, W, C, es, OH, OW, stride y, stride x, N, first, count (R248). -/
structure Gather where
  h : Nat
  w : Nat
  c : Nat
  es : Nat
  oh : Nat
  ow : Nat
  sy : Nat
  sx : Nat
  n : Nat
  first : Nat
  count : Nat
  fy : Int
  fx : Int
  pad : Nat
  deriving DecidableEq, Repr

/-- The fields of an im2col packet. -/
def gatherOf (ws : List Word) : Gather :=
  let w3 := ws.getD 3 0
  let w4 := ws.getD 4 0
  let w5 := ws.getD 5 0
  let w6 := ws.getD 6 0
  { h := field w3 0 16
    w := field w3 16 16
    c := field w3 32 16
    es := 2^(field w3 48 2)
    oh := field w4 0 16
    ow := field w4 16 16
    sy := field w4 32 8
    sx := field w4 40 8
    n := field w4 48 16
    first := field w5 0 32
    count := field w5 32 32
    fy := (w6.setWidth 16).toInt
    fx := (BitVec.ofNat 16 (field w6 16 16)).toInt
    pad := field w6 32 32 }

/-- What a gather's row r is (R248): none past the last image, an edge row, or the distance of its source. -/
inductive GatherRow where
  | past
  | edge
  | from_ (off : Nat)
  deriving DecidableEq, Repr

/-- Row r of a gather (R248). -/
def Gather.row (g : Gather) (r : Nat) : GatherRow :=
  let p := g.first + r
  let n := p / (g.oh * g.ow)
  let oy := p % (g.oh * g.ow) / g.ow
  let ox := p % g.ow
  let y : Int := oy * g.sy + g.fy
  let x : Int := ox * g.sx + g.fx
  if g.n ≤ n then .past
  else if y < 0 ∨ g.h ≤ y ∨ x < 0 ∨ g.w ≤ x then .edge
  else .from_ (((n * g.h + y.toNat) * g.w + x.toNat) * g.c * g.es)

/-- A packet's plan, or the STATUS that refuses it before anything is written (R232, R233, R246 to R249). Where several hold, reserved
bits of w0 come first, then a migration without privilege, TARGET, and the kind and its words; w0[39:37] are not looked at where CB = 1
(assumption 107, DESIGN CHOICE). -/
def planOf (d : Device) (pk : Packet) : Except Nat Plan :=
  let ws := pk.words
  let w0 := ws.getD 0 0
  let kind := field w0 0 8
  let part := ((d.vfAt pk.vf).part).getD 64
  let p := d.partAt part
  if field w0 40 8 ≠ 0 ∨ field w0 11 5 ≠ 0 ∨ field w0 16 4 ≠ 0 then .error 0xFD
  else if kind = 7 ∧ pk.privileged = false then .error 0xFE
  else if p.hasCore (targetOf w0) = false then .error 0x07
  else if kind = 0 ∨ 7 < kind ∨ ([1, 2, 3, 4, 5, 6].any fun i => !(usedWords kind).contains i && ws.getD i 0 != 0) = true then .error 0xFD
  else
    let cb := w0.getLsbD 9
    let buf := packetBuf d part ws
    if cb && buf.isNone then .error 0xFD
    else
      let dst := match buf, pk.claim with
        | some (_, _, b), some e => b.entry e
        | _, _ => ws.getD 2 0
      let room := match buf with
        | some (_, _, b) => b.bytes
        | none => 2^64
      let w1 := ws.getD 1 0
      let w3 := ws.getD 3 0
      let w4 := ws.getD 4 0
      let plan : Except Nat Plan :=
        if kind = 1 ∨ kind = 5 then
          if w3.toNat = 0 ∨ 2^32 ≤ w3.toNat then .error 0xFD else .ok ⟨dst, 1, w3.toNat, 0, 0, if kind = 1 then .mem w1 else .zero⟩
        else if kind = 2 then
          if field w3 0 32 = 0 ∨ field w3 32 32 = 0 then .error 0xFD
          else .ok ⟨dst, field w3 32 32, field w3 0 32, field w4 0 32, field w4 32 32, .mem w1⟩
        else if kind = 3 then
          let g := gatherOf ws
          if field w3 50 14 ≠ 0 ∨ field w3 48 2 = 3 ∨ g.h = 0 ∨ g.w = 0 ∨ g.c = 0 ∨ g.oh = 0 ∨ g.ow = 0 ∨ g.n = 0 ∨ g.count = 0 then .error 0xFD
          else .ok ⟨dst, 1, g.count * g.c * g.es, 0, 0, .gather⟩
        else if kind = 4 then
          if 2^32 ≤ w1.toNat ∨ w4.toNat = 0 ∨ 2^32 ≤ w4.toNat then .error 0xFD
          else
            match p.tensors.find? fun t => t.id == w1.toNat with
            | none => .error 0x07
            | some t =>
              if t.tiles.1 ≤ field w3 0 32 ∨ t.tiles.2 < field w3 32 32 + w4.toNat then .error 0x07
              else .ok ⟨dst, 1, 1024 * w4.toNat, 0, 0, .tiles t.vf (t.base + BitVec.ofNat 64 ((field w3 0 32 * t.tiles.2 + field w3 32 32) * 1024))⟩
        else if kind = 6 then
          if 2^33 ≤ w3.toNat ∨ field w3 0 32 = 0 ∨ dst.toNat % 8 ≠ 0 then .error 0xFD
          else .ok ⟨dst, 1, 8 * field w3 0 32, 0, 0, .range (w3.getLsbD 32)⟩
        else if 16 ≤ w3.toNat ∨ 7 < w3.toNat then .error 0xFD
        else .ok ⟨0, 0, 0, 0, 0, .zero⟩
      match plan with
      | .ok q => if room < q.rows * q.rowBytes then .error 0xFD else .ok q
      | .error c => .error c

/-- The source bytes of n bytes of a gather from byte position pos (R248), row by row; `fuel` bounds the rows. -/
def gatherBytes (g : Agent) (m : Memory) (src : Word) (q : Gather) : Nat → Nat → Nat → Device → List Byte → Grab × Device
  | 0, _, _, d, acc => (.bytes acc, d)
  | fuel + 1, pos, n, d, acc =>
    if n = 0 then (.bytes acc, d)
    else
      let row := q.c * q.es
      let off := pos % row
      let k := min n (row - off)
      let padding := (List.range k).map fun i => (BitVec.ofNat 8 (q.pad / 256^((off + i) % q.es)) : Byte)
      match q.row (pos / row) with
      | .from_ o =>
        match g.read m d (src + BitVec.ofNat 64 (o + off)) k .plain with
        | (.bytes bs, d1) => gatherBytes g m src q fuel (pos + k) (n - k) d1 (acc ++ bs)
        | r => r
      | _ => gatherBytes g m src q fuel (pos + k) (n - k) d (acc ++ padding)

/-- Source bytes of a chunk: n bytes at position pos of the plan's bytes, which lie in one row. -/
def chunkBytes (g : Agent) (m : Memory) (d : Device) (pk : Packet) (q : Plan) (pos n : Nat) : Grab × Device :=
  match q.src with
  | .mem base => ({ g with core := pk.from_ } : Agent).read m d (base + BitVec.ofNat 64 (pos / q.rowBytes * q.srcPitch + pos % q.rowBytes)) n .plain
  | .zero => (.bytes (List.replicate n 0), d)
  | .gather => gatherBytes g m (pk.words.getD 1 0) (gatherOf pk.words) (n + 1) pos n d []
  | .tiles vf base => ({ g with vf := vf } : Agent).read m d (base + BitVec.ofNat 64 pos) n .tile
  | .range _ => (.bytes (List.replicate n 0), d)

/-- Bytes of the chunk at a position: up to the next multiple of 128 of the destination, within the row (R246). -/
def chunkSize (q : Plan) (pos : Nat) : Nat :=
  let off := pos % q.rowBytes
  let a := (q.dst + BitVec.ofNat 64 (pos / q.rowBytes * q.dstPitch + off)).toNat
  min (q.rowBytes - off) (128 - a % 128)

/-- A number that tells a packet's queue from every other of its engine and VF. -/
def Packet.name (pk : Packet) : Nat := pk.queue + 2^64 * pk.home

/-- The agent of a packet: windows are taken relative to its TARGET (R232), its requests leave by its engine's cluster. -/
def packetAgent (d : Device) (pk : Packet) : Agent :=
  { agentOf d pk.origin pk.vf (pk.cluster * 4) with who := some (1, pk.name, pk.index) }


/-- The agent of a packet's slot, and of its queue's header (R230, R233). -/
def slotAgent (d : Device) (pk : Packet) (core : Nat) : Agent := agentOf d core pk.vf (pk.cluster * 4)

/-- How a packet's chunk ends. -/
inductive ChunkEnd where
  | on (w : Work)
  /-- Writes of it are still to perform (R251). -/
  | under (w : Work) (rest : List (Nat × List Byte))
  | ended (w : Work) (status : Nat)
  | waits (w : Work) (entry : Nat)
  | held (d : Device)

/-- The entry that tells the fault queue the address of a fault which ends a packet (R233, R357): KIND 2, with the STATUS as its CODE,
and nothing waits for an answer (assumption 88, DESIGN CHOICE: the spec gives KIND 2's CODE no meaning). -/
def Work.faultAddress (w : Work) (g : Agent) (cluster status : Nat) (a pc : Word) : Work :=
  let d0 := BitVec.ofNat 64 (status % 256 * 2^48 + 1 * 2^46 + cluster * 64 % 2^18 * 2^28 + g.vf % 512 * 2^16 + 1 * 2^8 + 2)
  (w.faultEntry g.part (entryOf [d0, a, pc, 0, pageWord a 0]) false).1

/-- A fault of a chunk (R233, R246, R358). -/
def chunkFault (w : Work) (pk : Packet) : Grab → ChunkEnd
  | .fault c a => .ended (w.faultAddress (packetAgent w.d pk) pk.cluster c.toNat a pk.slotAddr) c.toNat
  | .xlate cls a need =>
    match w.askFirmware (packetAgent w.d pk) 1 (pk.cluster * 64) cls a pk.slotAddr need pk.answered with
    | (w1, some i) => .waits w1 i
    | (w1, none) => .ended w1 0x06
  | _ => .held w.d

/-- Whether some unit of a span lies in host or peer memory, which a full/empty range set refuses (R246). -/
def offModule (g : Agent) (m : Memory) (d : Device) (us : List (Word × Nat)) : Bool :=
  us.any fun u => match g.find m d u.1 needW .plain with
    | (.place p, _) => p.kind == .host || p.kind == .peer
    | _ => false

/-- An engine's requests that have what they asked for are released once a chunk of its packet has performed (R256), and the answers of
peers to the chunk's reads are forgotten. -/
def releaseEngine (pk : Packet) (d : Device) : Device :=
  let d1 := d.peerForget 1 (pk.name, pk.index)
  { d1 with persist := d1.persist.map fun r => if r.engine && satisfied d1 r.line r.core r.write then { r with engine := false } else r }

/-- The writes of a chunk's bytes at its places, word by word. -/
def wordWrites : List (Place × Nat) → List Byte → List (Nat × List Byte)
  | [], _ => []
  | (p, n) :: rest, bs =>
    ((wordsOf p.key n).map fun k =>
      let lo := max (8 * k) p.key
      (lo, (bs.drop (lo - p.key)).take (min (8 * k + 8) (p.key + n) - lo))) ++ wordWrites rest (bs.drop n)

/-- The kind of memory behind a place key. -/
def kindOfKey (key : Nat) : PlaceKind :=
  if key < Config.hostBase then .device
  else if key < Config.peerBase then .host
  else if key < Config.scratchpadBase then .peer
  else .chip

/-- Die of an on-chip place key. -/
def chipDie (key : Nat) : Nat :=
  if key < Config.laneBase then dieOfCore ((key - Config.scratchpadBase) / 2^19)
  else if key < Config.dieScratchBase then dieOfCore ((key - Config.laneBase) / 2^17)
  else (key - Config.dieScratchBase) / 2^19 / 256

/-- One write of a chunk in progress performs, where its line's tokens or its host grant are there; else they are asked for. One to a
peer's memory has performed once the peer has reported it (R382). -/
def chunkWrite (g : Agent) (full : Bool) (w : Work) (e : Nat × List Byte) : Bool × Work :=
  let (ok, d) := if kindOfKey e.1 = .peer then w.d.peerWrite g.part (g.peerReq true e.1)
    else writeReady w.d g { port := .peer 0, key := e.1, kind := kindOfKey e.1 }
  let w1 : Work := { w with d := d }
  if !ok || kindOfKey e.1 == .peer then (ok, w1)
  else if e.2.isEmpty then (true, (w1.fire [e.1 / 8]).edit [.full (e.1 / 8) full] [e.1 / 8])
  else (true, w1.engineKey g (kindOfKey e.1) e.1 e.2)

/-- Writes of a chunk in progress perform: all of them, or those that a free choice takes, since each may perform at any instant
between the packet's start and its end (R251). One whose memory is lost, or whose link is down, ends the packet (R382, R388). -/
def chunkWrites (w : Work) (pk : Packet) (q : Plan) (whole : Bool) (a : Word) (es : List (Nat × List Byte)) : ChunkEnd :=
  let g := packetAgent w.d pk
  let full := match q.src with
    | .range f => f
    | _ => true
  let down (e : Nat × List Byte) : Bool := kindOfKey e.1 == .peer && w.d.peerDown (linkOf e.1)
  match es.find? fun e => down e || w.d.lostLine (e.1 / 128) || decide (Config.scratchpadBase ≤ e.1) && w.d.lostDies.contains (chipDie e.1) with
  | some e =>
    let c := if down e then cPOISON else cCOHLOSS
    .ended (w.faultAddress g pk.cluster c.toNat ((a &&& ~~~127) + BitVec.ofNat 64 (e.1 % 128)) pk.slotAddr) c.toNat
  | none =>
    let (mask, d0) : Word × Device := if whole then (BitVec.allOnes 64, w.d) else w.d.drawWord
    let (w1, left) := es.zipIdx.foldl (fun (acc : Work × List (Nat × List Byte)) e =>
      if mask.getLsbD (e.2 % 64) then
        let (ok, w1) := chunkWrite g full acc.1 e.1
        if ok then (w1, acc.2) else (w1, acc.2 ++ [e.1])
      else (acc.1, acc.2 ++ [e.1])) ({ w with d := d0 }, [])
    if left.isEmpty then .on (w1.on (releaseEngine pk)) else .under w1 left

/-- Reads a chunk's source, places its destination, and writes it, or sets its full bits (R246, R247), the whole chunk at once or a
part of it; a range set fires the monitors of its words (R139). A chunk in progress goes on. The refusal of a range set on host or peer
memory writes no entry to the fault queue (assumption 108, DESIGN CHOICE). -/
def chunkStep (w : Work) (pk : Packet) (q : Plan) (whole : Bool) (pos : Nat) : ChunkEnd :=
  let n := chunkSize q pos
  let g := packetAgent w.d pk
  let a := q.dst + BitVec.ofNat 64 (pos / q.rowBytes * q.dstPitch + pos % q.rowBytes)
  if !pk.rest.isEmpty then chunkWrites w pk q whole a pk.rest
  else if q.src.isRange && offModule g w.m w.d (cuts (n + 1) a n) then .ended w 0x07
  else
  match chunkBytes g w.m w.d pk q pos n with
  | (.bytes bs, d1) =>
    match g.targets w.m (cuts (n + 1) a n) d1 [] with
    | (.ok ts, d2) =>
      let w1 : Work := { w with d := d2 }
      match q.src with
      | .range f =>
        let words := (ts.map fun t => wordsOf t.1.key t.2).flatten
        if whole then .on (((w1.fire words).edit (words.map fun k => .full k f) words).on (releaseEngine pk))
        else chunkWrites w1 pk q whole a (words.map fun k => (8 * k, []))
      | _ =>
        if whole && !ts.any (fun t => t.1.kind == .peer) then .on ((w1.engineSpan g ts bs).on (releaseEngine pk))
        else chunkWrites w1 pk q whole a (wordWrites ts bs)
    | (.error .hold, d2) => .held (keepAsked w.d d2)
    | (.error r, d2) => chunkFault { w with d := keepAsked w.d d2 } pk r
  | (.hold, d1) => .held (keepAsked w.d d1)
  | (r, d1) => chunkFault { w with d := keepAsked w.d d1 } pk r

/-- Rows of each kind that a gather padded among the rows it came to: edge rows and rows past the last image (R233, R248). -/
def padCounts (q : Gather) (written : Nat) : Nat × Nat :=
  (List.range (min q.count ((written + q.c * q.es - 1) / (q.c * q.es)))).foldl (fun (acc : Nat × Nat) r =>
    match q.row r with
    | .edge => (acc.1 + 1, acc.2)
    | .past => (acc.1, acc.2 + 1)
    | .from_ _ => acc) (0, 0)

/-- The completion record (R233). -/
def packetRecord (pk : Packet) (status : Nat) : Word :=
  let (edge, pad) := if field (pk.words.getD 0 0) 0 8 = 3 then padCounts (gatherOf pk.words) pk.chunks else (0, 0)
  BitVec.ofNat 64 (edge % 2^24 * 2^40 + pad % 2^32 * 2^8 + status % 256)

/-- An engine write of a dword at an address of a VF, dropped where the address has no place. -/
def Work.dwordAt (w : Work) (g : Agent) (a : Word) (x : Word) : Work :=
  match g.find w.m w.d a needW .plain with
  | (.place p, _) => w.engineAt g p (dwordBytes [x])
  | _ => w

/-- A filled claim: entries become filled only in claim order, and waiters are served (R235). -/
def fillClaim (d : Device) (core j e : Nat) : Device :=
  match (d.coreAt core).buf j with
  | none => d
  | some c =>
    let ready := c.ready ++ [e]
    let n := ((List.range ready.length).takeWhile fun i => ready.contains (c.filled + i)).length
    let c1 := { c with filled := c.filled + n, ready := ready.filter fun r => decide (c.filled + n ≤ r) }
    let d1 := d.onCore core fun k => { k with bufs := k.bufs.set j (some c1) }
    serveBuf core j (d1.coreAt core).bufWaiters.length d1

/-- RDIDX moves over every completed index at its head (R233). -/
def readOn (done : List Nat) : Nat → Nat → Nat
  | 0, r => r
  | fuel + 1, r => if done.contains r then readOn done fuel (r + 1) else r

/-- Whether a packet's destination lies in the scratchpad of a core of a lost die, named in its own window or by name (R236, R388). -/
def lostTarget (d : Device) (pk : Packet) : Bool :=
  let dst := pk.words.getD 2 0
  d.lostDies.contains (dieOfCore (targetOf (pk.words.getD 0 0))) ||
    !(pk.words.getD 0 0).getLsbD 9 && decide (dst.toNat / 2^52 = 0xFE1) && d.lostDies.contains (dst.toNat / 2^40 % 16)

/-- The completion record of a packet, then its signal (R233): a copy into the scratchpad of a lost die increments no semaphore (R388). -/
def Work.packetSignal (w : Work) (pk : Packet) (status : Nat) : Work :=
  let w0 := pk.words.getD 0 0
  let part := (packetAgent w.d pk).part
  let t := targetOf w0
  let w1 := if pk.cbput then w else w.dwordAt (slotAgent w.d pk pk.slotHome) (pk.slotAddr + 56) (packetRecord pk status)
  if w0.getLsbD 10 || !(w.d.partAt part).hasCore t || (w0.getLsbD 9 && pk.claim.isNone) || lostTarget w.d pk then w1
  else
    match pk.claim with
    | some e => w1.on fun d => fillClaim d t (field w0 34 3) e
    | none => w1.signal t (field w0 34 6) 1

/-- Whether a packet in progress is this one. -/
def Packet.same (p pk : Packet) : Bool :=
  p.cluster == pk.cluster && p.name == pk.name && p.vf == pk.vf && p.index == pk.index && p.cbput == pk.cbput

/-- The last of a packet (R233): RDIDX moves over every completed index at its head, and the engine forgets the packet. -/
def Work.packetDone (w : Work) (pk : Packet) : Work :=
  let w3 := w.on fun d => { d with packets := d.packets.filter fun p => !p.same pk }
  if pk.cbput then w3
  else
    let ring := w3.d.engineAt pk.cluster
    match ring.findIdx? fun c => c.header.toNat == pk.queue && c.vf == pk.vf && c.home == pk.home with
    | none => w3
    | some i =>
      match ring[i]? with
      | none => w3
      | some c =>
        let done := c.done ++ [pk.index]
        let r := readOn done done.length c.read
        let c1 := { c with done := done.filter fun x => decide (r ≤ x), read := r }
        -- a queue with nothing left is forgotten; its next notification finds RDIDX in the header
        let idle := c1.waiting.isEmpty && c1.started == r
        let w4 := w3.on fun d => d.setEngine pk.cluster (if idle then ring.eraseIdx i else ring.set i c1)
        if r = c.read then w4
        else
          match (slotAgent w4.d pk pk.home).find w4.m w4.d (c.header + 8) needW .plain with
          | (.place p, _) => w4.words p.key [BitVec.ofNat 64 r]
          | _ => w4

/-- Replaces a packet in progress. -/
def setPacket (d : Device) (n : Nat) (pk : Packet) : Device := { d with packets := d.packets.set n pk }

/-- What a dword that an engine is to write in a queue meets. -/
inductive DwordEnd where
  /-- It can be written now, or has no place. -/
  | ready (d : Device)
  | hold (d : Device)
  | waits (w : Work) (entry : Nat)

/-- Whether an engine can write a dword of a packet's queue now: the page does not migrate, and the line's tokens or the host's grant are
at its home, or have been asked for (R246, R254). Firmware is asked to map a page that is not translated (R358). -/
def dwordEnd (w : Work) (g : Agent) (pk : Packet) (a : Word) : DwordEnd :=
  match g.find w.m w.d a needW .plain with
  | (.place p, d) =>
    let (ok, d1) := writeReady d g p
    if ok then .ready d1 else .hold d1
  | (.hold, d) => .hold d
  | (.xlate cls v need, d) =>
    match ({ w with d := d } : Work).askFirmware g 1 (pk.cluster * 64) cls v pk.slotAddr need pk.answered with
    | (w1, some i) => .waits w1 i
    | (w1, none) => .ready w1.d
  | (_, d) => .ready d

/-- Writes RDIDX once it can be written, after the record and the signal. -/
def packetIndex (w : Work) (n : Nat) (pk : Packet) : Work :=
  match dwordEnd w (slotAgent w.d pk pk.home) pk (BitVec.ofNat 64 pk.queue + 8) with
  | .ready d => (w.on fun d0 => keepAsked d0 d).packetDone pk
  | .hold d => w.on fun d0 => setPacket (keepAsked d0 d) n pk
  | .waits w1 i => w1.on fun d => setPacket d n { pk with waiting := some i, answered := none }

/-- Ends packet `n` once its completion record, then RDIDX, can be written (R233, R358). -/
def packetEnd (w : Work) (n : Nat) (pk : Packet) (status : Nat) : Work :=
  let pk := { pk with status := some status }
  if pk.cbput then (w.packetSignal pk status).packetDone pk
  else if pk.recorded then packetIndex w n pk
  else
    match dwordEnd w (slotAgent w.d pk pk.slotHome) pk (pk.slotAddr + 56) with
    | .ready d => packetIndex ((w.on fun d0 => keepAsked d0 d).packetSignal pk status) n { pk with recorded := true, answered := none }
    | .hold d => w.on fun d0 => setPacket (keepAsked d0 d) n pk
    | .waits w1 i => w1.on fun d => setPacket d n { pk with waiting := some i, answered := none }

/-- Performs the chunks of a packet from its position on, at most `count` of them, and ends it when none is left. -/
def runPacket (n : Nat) (q : Plan) (whole : Bool) : Nat → Work → Packet → Work
  | 0, w, pk => w.on fun d => setPacket d n pk
  | count + 1, w, pk =>
    if q.rows * q.rowBytes ≤ pk.chunks then packetEnd w n pk 0
    else
      match chunkStep w pk q whole pk.chunks with
      | .on w1 => runPacket n q whole count w1 { pk with chunks := pk.chunks + chunkSize q pk.chunks, rest := [] }
      | .under w1 rest => w1.on fun d => setPacket d n { pk with rest := rest }
      | .ended w1 c => packetEnd w1 n pk c
      | .waits w1 i => w1.on fun d => setPacket d n { pk with waiting := some i, answered := none }
      | .held d => { w with d := setPacket d n pk }

/-- A packet's work: at most `count` chunks (R246), or a migration, which another happening ends (R360). -/
def packetWork (w : Work) (n : Nat) (whole : Bool) : Work :=
  match w.d.packets[n]? with
  | none => w
  | some pk =>
    if pk.waiting.isSome || pk.migrating then w
    else if !pk.started then
      if engineFull w.d pk.cluster || (w.d.packets.take n).any (fun q => q.cluster == pk.cluster && !q.started) then w
      else w.on fun d => setPacket d n { pk with started := true }
    else
      match pk.status, planOf w.d pk with
      | some c, _ => packetEnd w n pk c
      | none, .error c => packetEnd w n pk c
      | none, .ok q =>
        if field (pk.words.getD 0 0) 0 8 = 7 then
          if pk.chunks = 1 then packetEnd w n pk 0
          else
            match acceptMigration w (packetAgent w.d pk).part pk.vf (pk.words.getD 1 0) (pk.words.getD 3 0).toNat none
                (some (pk.cluster, pk.name, pk.vf, pk.index)) (pk.cluster * 64) with
            | .error none => w
            | .error _ => packetEnd w n pk 0xFD
            | .ok w1 => w1.on fun d => setPacket d n { pk with migrating := true }
        else runPacket n q whole (if whole then q.rows * q.rowBytes + 1 - pk.chunks else 1) w pk

/-- PACKET_COMPLETE (R233, R246 to R249): what is left of packet `n` is done chunk by chunk, and the packet ends. -/
def execPacketComplete (n : Nat) (s : State) : Out := (packetWork (.start s) n true).finish s

/-- Packet `n` goes on with its next chunk, of which the words that a free choice takes are written: chunks and words of different
agents interleave (R246, R251). -/
def execChunk (n : Nat) (s : State) : Out := (packetWork (.start s) n false).finish s

/-- Address of element i of a generator (R227). -/
def Gen.elementAddr (g : Gen) (i : Nat) : Word := g.base + BitVec.ofInt 64 (g.stride * i)

/-- Sets a generator of a core. -/
def Device.putGen (d : Device) (core n : Nat) (g : Gen) : Device := d.onCore core fun k => k.setGen n g

/-- Parts of an element at its place. -/
def elementPieces (g : Gen) (p : Place) (x : VBits) : List Piece :=
  if g.width = 128 then vecPieces p x else onePiece p g.width (x.setWidth 64)

/-- Whether the owner has an access to a word of the element that has not performed (R274). -/
def ownerPending (d : Device) (core slot : Nat) (ps : List Piece) : Bool :=
  d.accesses.any fun a => a.core == core && a.slot == slot && !a.orphan && a.pieces.any fun p => !p.done && ps.any fun q => q.key / 8 == p.key / 8

/-- A fault of an element: firmware is asked, or the generator becomes faulted (R228, R358). -/
def elementFault (w : Work) (core n : Nat) (g : Gen) (owner vf : Nat) : Grab → Work
  | .fault c a => w.on fun d => d.putGen core n { g with fault := some (c, a) }
  | .xlate cls a need =>
    match w.askFirmware (agentOf w.d core vf core) 2 (packName core owner) cls a g.pc need g.answered with
    | (w1, some i) => w1.on fun d => d.putGen core n { g with waiting := some i, answered := none }
    | (w1, none) => w1.on fun d => d.putGen core n { g with fault := some (cXLATE, a) }
  | _ => w

/-- The parts of an element that a happening takes up: the only one, or of a 128-byte element those that a free choice takes among the
words that are left, each of which is atomic by itself (R121, R250). -/
def elementTurn (d : Device) (g : Gen) (ps : List Piece) : List (Piece × Nat) × Device :=
  let left := ps.zipIdx.filter fun q => (assocGet q.2 g.part).isNone
  if ps.length ≤ 1 then (left, d)
  else
    let (mask, d1) := d.drawWord
    (left.filter fun q => mask.getLsbD (q.2 % 64), d1)

/-- Whether an element's parts can reach their ports now: no access of the owner to their words stands before them, no save holds the
port and no host atomic the word (R274, R280, R371). -/
def elementFree (d : Device) (core slot : Nat) (ps : List Piece) : Bool :=
  !ownerPending d core slot ps && !ps.any fun p => portHeld d core p || heldByHost d p

/-- A weak read of one part of an element, through the core's L1 where it holds a copy (R122, R250): its data, or what keeps it away;
tokens that are away are asked for. -/
def partRead (w : Work) (core vf gen : Nat) (a : Word) (p : Piece) : Except Grab Word × Device :=
  let part := ((w.d.vfAt vf).part).getD 64
  let here : Except Grab Word := if w.m.isPoisoned p.key then .error (.fault cPOISON a) else .ok (BitVec.ofNat 64 (w.m.nat p.key p.bytes))
  let held := decide (p.key < Config.peerBase) && w.d.holdsUnder core vf p.tile a p.line
  match p.port with
  | .host _ =>
    let (ok, d) := if held then (true, w.d) else hostReady w.d part (3, core, gen) p.key false
    (if ok then here else .error .hold, d)
  | .peer l =>
    let q : PeerReq := ⟨4, (core, gen), p.key⟩
    match w.d.peerRead part q p.bytes with
    | .answer bs d => (.ok (BitVec.ofNat 64 (bytesNat bs)), d.peerTaken l q)
    | .down => (.error (.fault cPOISON a), w.d)
    | .away d => (.error .hold, d)
  | _ =>
    if held || decide (Config.scratchpadBase ≤ p.key) || decide (0 < (w.d.lineAt p.line).home) then (here, w.d)
    else (.error .hold, (w.d.miss p.line (some core) vf p.tile a).ask p.line (some core) false true)

/-- Reads parts of an element one after another, up to the first that cannot be read. -/
def elementRead (core vf gen : Nat) (a : Word) : List (Piece × Nat) → List (Nat × Word) → Work → List (Nat × Word) × Option Grab × Device
  | [], got, w => (got, none, w.d)
  | q :: rest, got, w =>
    match partRead w core vf gen a q.1 with
    | (.ok x, d) => elementRead core vf gen a rest (assocPut q.2 x got) { w with d := d }
    | (.error r, d) => (got, some r, d)

/-- The value of an element whose parts have all been read (R227). -/
def Gen.element (g : Gen) (ps : List Piece) (got : List (Nat × Word)) : VBits :=
  let n := assemble (ps.zipIdx.map fun q => { q.1 with data := (assocGet q.2 got).getD 0 })
  if g.width = 128 then BitVec.ofNat 1024 n
  else (if g.sext then (BitVec.ofNat (8 * g.width) n).signExtend 64 else (BitVec.ofNat (8 * g.width) n).setWidth 64).setWidth 1024

/-- Bytes of parts. -/
def partBytes (ps : List (Piece × Nat)) : Nat := (ps.map fun q => q.1.bytes).sum

/-- STREAM_ELEMENT_FETCH (R227, R250): a bound read generator fetches its next element ahead, or words of it. -/
def execStreamElementFetch (core gen : Nat) (s : State) : Out :=
  let w := Work.start s
  let g := (w.d.coreAt core).gen gen
  let i := g.position + g.queue.length
  if (w.d.coreAt core).halted || !g.defined || g.write || g.bound.isNone || g.fault.isSome || g.waiting.isSome ||
      decide (8 ≤ g.queue.length) || decide (g.count ≤ i) then conclude s s.dev []
  else
    let a := g.elementAddr i
    let ag := { agentOf w.d core g.vf core with l1 := true, who := some (3, core, gen), owner := (w.d.ctxAt core g.owner).map fun x => (x, g.owner) }
    match ag.find w.m w.d a needR (if g.width = 128 then .vector else .plain) with
    | (.place p, d1) =>
      let ps := elementPieces g p 0
      let (now, d2) := elementTurn d1 g ps
      let (ok, d3) := if ps.any fun q => !(decide (q.key < Config.peerBase) && d2.holdsUnder core g.vf q.tile a q.line) then ag.pass d2 p (partBytes now)
        else (true, d2)
      if !elementFree d1 core g.owner ps then conclude s s.dev []
      else if !ok then conclude s (keepAsked s.dev d3) []
      else
        match elementRead core g.vf gen a now g.part { w with d := d3 } with
        | (got, r, d4) =>
          if got.length = ps.length then
            conclude s (d4.putGen core gen { g with queue := g.queue ++ [some (g.element ps got)], part := [], answered := none }) []
          else
            match r with
            | some (.fault c v) => (elementFault { w with d := d4 } core gen { g with part := [] } g.owner g.vf (.fault c v)).finish s
            | _ => conclude s (d4.putGen core gen { g with part := got }) []
    | (.hold, d1) => conclude s (keepAsked s.dev d1) []
    | (r, _) => (elementFault w core gen g g.owner g.vf r).finish s

/-- The access that a write element is (R250). -/
def elementAccess (x : Context) (core slot vf : Nat) (g : Gen) (a : Word) (ps : List Piece) (id : Nat) : Access :=
  { id := id, core := core, slot := slot, tid := x.tid, part := x.part, vf := vf, launch := x.launch, seq := x.seq, kind := .store
    addr := a, scope := g.scope, strong := false, dest := none
    pieces := ps.zipIdx.map fun q => { q.1 with done := (assocGet q.2 g.part).isSome } }

/-- Whether a part of a write element can perform now; tokens that are away are asked for. One to a peer's memory leaves in a flit, and has
performed once the peer reports it (R382). -/
def partReady (w : Work) (gen : Nat) (a : Access) (p : Piece) : Bool × Device :=
  let (ok, d) := match p.port with
    | .host _ =>
      match hostReady w.d a.part (3, a.core, gen) p.key true with
      | (true, d1) => d1.homeHas p.line true
      | r => r
    | .peer l => if w.d.peerDown l then (true, w.d) else w.d.peerWrite a.part ⟨4, (a.core, 16 + gen), p.key⟩
    | _ =>
      if decide (Config.scratchpadBase ≤ p.key) || w.d.canStore a.core p.line then (true, w.d)
      else (false, w.d.ask p.line none true true)
  (ok && traceRoom d a p && (playRuling w.m d a p).isSome, d)

/-- Stores a part of a write element at its port, as posted stores are; on a down link it is dropped and logged (R382). -/
def partStore (w : Work) (a : Access) (p : Piece) : Work :=
  match p.port with
  | .peer l =>
    if w.d.peerDown l then w.log ⟨13, 0x14, some a.part, 0, recordAddr w.d p.key, 0, packName a.core a.slot, BitVec.ofNat 64 (l * 2^60)⟩
    else w
  | _ =>
    let r := (playRuling w.m w.d a p).join
    (((w.played a p r).store a p.key p.bytes p.data.toNat).on fun d => (d.dirty a.core p).released p.line).trace a p false

/-- Stores parts of a write element one after another, up to the first that cannot perform now. -/
def elementStore (gen : Nat) : List (Piece × Nat) → Access → Work → Access × Work
  | [], a, w => (a, w)
  | q :: rest, a, w =>
    let (ok, d) := partReady w gen a q.1
    let w1 : Work := { w with d := d }
    if ok then elementStore gen rest (a.partDone q.2 q.1.data) (partStore w1 a q.1) else (a, w1)

/-- Whether the append at the head of a write generator may still be taken back: an access before it in its context can still fault
(R25). -/
def Gen.held (g : Gen) (x : Context) : Bool :=
  g.holds.any fun h => h.1 == g.performed && x.pending.any fun p => p.mayFault && !p.arrived && decide (p.id ≤ h.2)

/-- STREAM_ELEMENT_WRITE (R227, R228, R250): the oldest appended element of a write generator performs, or words of it. -/
def execStreamElementWrite (core gen : Nat) (s : State) : Out :=
  let w := Work.start s
  let g := (w.d.coreAt core).gen gen
  match g.queue with
  | some v :: rest =>
    let (owner, vf) := g.ownerOf g.performed
    if (w.d.coreAt core).halted || !g.write || g.fault.isSome || g.waiting.isSome then conclude s s.dev []
    else
      let a := g.elementAddr g.performed
      match w.d.ctxAt core owner with
      | none => conclude s s.dev []
      | some x =>
        if g.held x then conclude s s.dev []
        else
        let ag := { agentOf w.d core vf core with who := some (3, core, gen), owner := some (x, owner) }
        match ag.find w.m w.d a needW (if g.width = 128 then .vector else .plain) with
        | (.place p, d1) =>
          let ps := elementPieces g p v
          let (now, d2) := elementTurn d1 g ps
          let (ok, d3) := ag.pass d2 p (partBytes now)
          if !elementFree d1 core owner ps then conclude s s.dev []
          else if !ok then conclude s (keepAsked s.dev d3) []
          else
            let (acc, w1) := elementStore gen now (elementAccess x core owner vf g a ps d3.nextAccess) { w with d := d3 }
            let done := (acc.pieces.zipIdx.filter fun q => q.1.done).map fun q => (q.2, q.1.data)
            (w1.on fun d => d.putGen core gen
              (if acc.complete then
                ({ g with
                  queue := rest
                  performed := g.performed + 1
                  part := []
                  holds := g.holds.filter fun h => h.1 != g.performed
                  answered := none } : Gen).skip
              else { g with part := done })).finish s
        | (.hold, d1) => conclude s (keepAsked s.dev d1) []
        | (r, _) => (elementFault w core gen g owner vf r).finish s
  | _ => conclude s s.dev []

/-- A wait of a context that still stands and has not expired. -/
def standing (d : Device) (core slot : Nat) (tid : BitVec 32) : Option Wait :=
  match d.ctxAt core slot with
  | some x =>
    if x.tid ≠ tid then none
    else x.wait?.bind fun w => if (expired w.expiry d.wall).isSome then none else some w
  | none => none

/-- A member arrives at its group's barrier word (R223, R224): one that has arrived in this phase waits for the next. -/
def barrierArrive (d : Device) (part : Nat) (r : Arrival) (g : Group) (d0 : Device) : Device :=
  match standing d r.core r.slot r.tid with
  | none => d
  | some w =>
    if g.arrived.contains r.tid then d
    else
      let d1 := d0.onLaunch part r.launch fun l => l.onGroup r.group fun g => { g with arrived := g.arrived ++ [r.tid] }
      let d2 := if r.waits then
          d1.onCtx r.core r.slot fun x => { x with phase := .parked { w with kind := .barrier r.group g.generation } }
        else d1.wake r.core r.slot (some (w.dest, g.generation.setWidth 64))
      completePhase d2 part r.launch r.group

/-- BARRIER_ARRIVAL (R223, R225): arrival or work-count change `n` reaches its home, in the order of its sender's. A member's stop
counts at once (R301). -/
def execBarrierArrival (n : Nat) (s : State) : Out :=
  let d := s.dev
  match d.arrivals[n]? with
  | none => conclude s d []
  | some r =>
    let part := (d.coreAt r.core).part
    let d0 : Device := { d with arrivals := d.arrivals.eraseIdx n }
    -- what answers the sender waits while its clock is halted (R40)
    let held := (d.coreAt r.core).halted && (decide (2 ≤ r.kind) || decide (r.kind = 0) && !r.waits)
    if held || (d.arrivals.take n).any fun q => q.core == r.core && q.slot == r.slot && q.tid == r.tid && q.group == r.group && q.kind == 0 && r.kind == 0 then
      conclude s d []
    else
      match d.launchAt part r.launch with
      | none => conclude s d0 []
      | some l =>
        match r.kind with
        | 0 =>
          match l.groups.find? fun g => g.id == r.group with
          | some g => conclude s (barrierArrive d part r g d0) []
          | none => conclude s d0 []
        | 2 =>
          let d1 := d0.onLaunch part r.launch fun l => { l with workCount := l.workCount + 1 }
          match standing d r.core r.slot r.tid with
          | some w => conclude s (if w.kind = .pushed r.id then d1.wake r.core r.slot (some (w.dest, 0)) else d1) []
          | none => conclude s d1 []
        | _ =>
          match standing d r.core r.slot r.tid with
          | none => conclude s d []
          | some w =>
            let d1 := d0.onLaunch part r.launch fun l => { l with workCount := l.workCount - 1 }
            conclude s (d1.wake r.core r.slot (some (w.dest, if l.workCount = 0 then allOnes else BitVec.ofNat 64 (l.workCount - 1)))) []

/-- A core's winnowing decision from the sampled counts (R226): the neighbour and the number of items. -/
def winnowChoice (d : Device) (l : Launch) (core : Nat) : Option (Nat × Nat) :=
  let k := d.coreAt core
  let ns := [1, 2, 3, 4].filterMap fun dir => (neighbour core dir).bind fun c =>
    if l.cores.contains c && !(d.coreAt c).saved then some (c, (d.coreAt c).workList.length) else none
  match ns.foldl (fun best q => match best with
      | none => some q
      | some b => if q.2 < b.2 then some q else some b) (none : Option (Nat × Nat)) with
  | none => none
  | some (c, m) => if m + 2 < k.workList.length then some (c, (k.workList.length - m) / 2) else none

/-- The shipments of one sample, senders in ascending core number, each within the room that is left (R226). -/
def winnowPlan (d : Device) (l : Launch) : List Shipment :=
  (sortBy (fun a b => decide (a ≤ b)) l.cores).foldl (fun (acc : List Shipment) c =>
    if (d.coreAt c).saved then acc
    else
      match winnowChoice d l c with
      | none => acc
      | some (to_, n) =>
        let taken := (acc.map fun q => if q.to_ = to_ then q.items.length else 0).sum
        let room := 64 - (d.coreAt to_).workList.length - taken
        let k := min n room
        let wl := (d.coreAt c).workList
        if k = 0 then acc else acc ++ [⟨c, to_, wl.drop (wl.length - k)⟩]) []

/-- A shipment is appended at its neighbour's tail (R226). -/
def landShipment (d : Device) (q : Shipment) : Device :=
  { d with shipments := d.shipments.erase q }.onCore q.to_ fun c =>
    { c with workList := c.workList ++ q.items, receivedIn := min 255 (c.receivedIn + q.items.length) }

/-- Whether a launch still samples (R302): it stands, on its cores. -/
def Launch.samples (l : Launch) : Bool := l.ended.isNone && !l.preempted

/-- The next sample instant of a launch after a wall ns (R302). -/
def Launch.nextSample (l : Launch) (wall : Nat) : Nat :=
  l.started + ((wall - l.started) / (1000 * l.interval) + 1) * (1000 * l.interval)

/-- A sample of a launch, if it falls in the present wall ns (R226, R302): the shipments of the interval before have landed, every
core decides, and the shipped items leave their lists. -/
def winnowSample (d0 : Device) (l : Launch) : Device :=
  let step := 1000 * l.interval
  let k := (d0.wall - l.started) / step
  if d0.wall ≤ l.started ∨ (d0.wall - l.started) % step ≠ 0 ∨ k ≤ l.sampled ∨ l.samples = false then d0
  else
    let d := (d0.shipments.filter fun q => l.cores.contains q.from_).foldl landShipment d0
    let plan := winnowPlan d l
    let d1 := plan.foldl (fun (d : Device) q => d.onCore q.from_ fun c =>
      { c with workList := c.workList.take (c.workList.length - q.items.length), shippedOut := min 255 (c.shippedOut + q.items.length) }) d
    { d1 with shipments := d1.shipments ++ plan }.onLaunch l.part l.id fun l => { l with sampled := k }

/-- Every launch samples at its instants (R302). -/
def winnowSamples (d : Device) : Device := d.launches.foldl winnowSample d

/-- WINNOW_SAMPLE (R226, R302): a sample instant of launch `launch`, named by its place in the list of launches. -/
def execWinnowSample (launch : Nat) (s : State) : Out :=
  match s.dev.launches[launch]? with
  | none => conclude s s.dev []
  | some l => conclude s (winnowSample s.dev l) []

/-- WINNOW_SHIPMENT_ARRIVAL (R226): shipment `n` is appended at its neighbour's tail, after those of lower senders. -/
def execWinnowShipmentArrival (n : Nat) (s : State) : Out :=
  let d := s.dev
  match d.shipments[n]? with
  | none => conclude s d []
  | some q => if (d.shipments.take n).any fun r => r.to_ == q.to_ then conclude s d [] else conclude s (landShipment d q) []

/-- Hops between two clusters (R45). -/
def hops (a b : Nat) : Nat :=
  ((cxOf a : Int) - cxOf b).natAbs + ((cyOf a : Int) - cyOf b).natAbs

/-- The order in which flits leave a port (R304): the older first, then the lower core number, then the lower slot. -/
def Message.before (a b : Message) : Bool :=
  let x := a.atPort.getD 0
  let y := b.atPort.getD 0
  decide (x < y) || (x == y && (decide (a.from_ < b.from_) || (a.from_ == b.from_ && decide (a.slot ≤ b.slot))))

/-- Flits of a partition that wait at the port of a cluster, with their places in the list of messages, in their order (R304). -/
def portQueue (d : Device) (cluster part : Nat) : List (Message × Nat) :=
  sortBy (fun a b => a.1.before b.1) (d.messages.zipIdx.filter fun q =>
    clusterOf q.1.from_ == cluster && q.1.part == part && q.1.injected.isNone && q.1.atPort.isSome)

/-- The slots of a die's ports that a partition owns, as a mask (R304). -/
def ownedSlots (d : Device) (die part : Nat) : BitVec 64 := (assocGet die (d.partAt part).tdm).getD 0

/-- The first instant from a wall ns on that lies in a slot of a mask. -/
def nextOwned (mask : BitVec 64) (t : Nat) : Option Nat := ((List.range 64).map (t + ·)).find? fun u => mask.getLsbD (u % 64)

/-- A message leaves its source port in a wall ns, and on one die reaches its destination 2 H + 2 ns later (R45). -/
def injectAt (d : Device) (i t : Nat) : Device :=
  { d with messages := d.messages.modify i fun m =>
      { m with
        injected := some t
        due := some (if dieOfCore m.from_ = dieOfCore m.to_ then t + 2 * hops m.from_ m.to_ + 2 else t) } }

/-- Flits of other kinds of a partition that may wait at a cluster's port: parts of accesses on their way to another cluster, and lines, of
two flits each (R304). -/
def otherFlits (d : Device) (cluster part : Nat) : Nat :=
  ((d.accesses.filter fun a => clusterOf a.core == cluster && a.part == part).map fun a =>
    (a.pieces.filter fun p => !p.done && p.port.cluster != some cluster).length).sum +
  2 * (d.tokenMsgs.filter fun t => t.from_ == cluster / 256 && partOfPa d (t.line * 128) == some part).length

/-- The owned slots of a cluster's port from wall ns t up to `upto` each carry the oldest flit that waits: a message, or one of the flits
of other kinds that stand before it (R45, R304). `fuel` bounds the slots. -/
def injectPort (cluster part upto : Nat) : Nat → Nat → Device → Device
  | 0, _, d => d
  | fuel + 1, t, d =>
    match (portQueue d cluster part).head?, nextOwned (ownedSlots d (cluster / 256) part) t with
    | some (m, i), some u =>
      if upto < u then d
      else if m.ahead = 0 then injectPort cluster part upto fuel (u + 1) (injectAt d i u)
      else
        let here := (portQueue d cluster part).map Prod.snd
        injectPort cluster part upto fuel (u + 1)
          { d with messages := d.messages.zipIdx.map fun q => if here.contains q.2 then { q.1 with ahead := q.1.ahead - 1 } else q.1 }
    | _, _ => d

/-- Every port sends what waits there, in the owned slots after one wall ns up to another. -/
def injectFlits (d : Device) (after upto : Nat) : Device :=
  let ports := ((d.messages.filter fun m => m.injected.isNone && m.atPort.isSome).map fun m => (clusterOf m.from_, m.part)).eraseDups
  ports.foldl (fun d q => injectPort q.1 q.2 upto ((d.messages.map fun m => m.ahead + 1).sum + 64) (after + 1) d) d

/-- FLIT_INJECTION (R45, R304): the port of a cluster sends the oldest flit of the partition that owns the present slot. A flit that
waits leaves at the latest in its next owned slot (`injectFlits`). -/
def execFlitInjection (cluster : Nat) (s : State) : Out :=
  let d := s.dev
  let parts := ((d.messages.filter fun m => clusterOf m.from_ == cluster).map Message.part).eraseDups
  match parts.find? fun p => (ownedSlots d (cluster / 256) p).getLsbD (d.wall % 64) with
  | none => conclude s d []
  | some p =>
    match (portQueue d cluster p).head? with
    | some (m, i) =>
      if m.ahead ≠ 0 ∨ d.messages.any fun m => clusterOf m.from_ == cluster && m.injected == some d.wall then conclude s d []
      else conclude s (injectAt d i d.wall) []
    | none => conclude s d []

/-- Delivers a message that is due; one to a lost die is gone. -/
def deliver (d : Device) (n : Nat) : Device :=
  match d.messages[n]? with
  | none => d
  | some m =>
    match m.due with
    | none => d
    | some t =>
      match d.linkState (dieOfCore m.from_) (dieOfCore m.to_) with
      | .active => if t ≤ d.wall then { d with messages := d.messages.modify n fun m => { m with delivered := true } } else d
      | .lost => { d with messages := d.messages.eraseIdx n }
      | _ => startWakes d (dieOfCore m.from_) [dieOfCore m.to_]

/-- FLIT_DELIVERY (R45, R304): message `n` reaches its destination's interface. -/
def execFlitDelivery (n : Nat) (s : State) : Out := conclude s (deliver s.dev n) []

/-- The counts of a VF's meters at the start of the present window: what went past the limit is carried (R340). -/
def meterWindow (d : Device) (vf : Nat) : Device :=
  let v := d.vfAt vf
  let n := d.wall / (1000 * v.window)
  if v.window = 0 ∨ n ≤ v.windowNo then d
  else
    d.onVf vf fun v =>
      { v with
        windowNo := n
        used := (v.used.map fun q => (q.1, q.2 - (n - v.windowNo) * 64 * (if q.1 < 100000 then v.memLim else v.fabLim))).filter fun q => q.2 != 0 }

/-- METER_WINDOW (R340). -/
def execMeterWindow (vf : Nat) (s : State) : Out := conclude s (meterWindow s.dev vf) []

/-- A message reaches its source port: a free choice says how many of the flits of other kinds that may wait there stand before it; those
before an earlier message do (R304; assumption 89). -/
def reachPort (d : Device) (i : Nat) : Device :=
  match d.messages[i]? with
  | none => d
  | some m =>
    let cluster := clusterOf m.from_
    let least := ((portQueue d cluster m.part).map fun q => q.1.ahead).foldl max 0
    let (x, d1) := d.drawWord
    let n := otherFlits d cluster m.part
    let (k, d2) := if n ≤ least then (least, d) else (least + x.toNat % (n - least + 1), d1)
    { d2 with messages := d2.messages.set i { m with atPort := some d.wall, ahead := k } }

/-- Sender's hand-offs that are over by a core's cycle: the messages reach their source port (R45). -/
def handOver (d : Device) (core : Nat) : Device :=
  (d.messages.zipIdx.filter fun q => q.1.from_ == core && q.1.atPort.isNone && decide (q.1.handAt ≤ (d.coreAt core).cyc)).foldl
    (fun d q => reachPort d q.2) d

/-- What a context's wait finds at the resume of its clock (R41): a fired monitor or a phase that has gone ends a wait that
has not expired. -/
def afterHalt (d : Device) (core slot : Nat) : Device :=
  match d.ctxAt core slot with
  | none => d
  | some x =>
    match x.phase with
    | .parked ⟨.barrier g p, _, _, dest⟩ =>
      match (d.launchAt x.part x.launch).bind fun l => l.groups.find? fun q => q.id == g with
      | some q => if q.generation = p then d else d.wake core slot (some (dest, p.setWidth 64))
      | none => d
    | _ => endSleepm d core slot

/-- CLOCK_RESUME (R40, R41): the deadlines that passed during the halt are taken in their order, one after another; what was
held for the core comes to its waits. -/
def execClockResume (core : Nat) (s : State) : Out :=
  if (s.dev.coreAt core).halted then
    let d := s.dev.onCore core fun k => { k.restart s.dev.wall with runSince := s.dev.now }
    let d1 := (List.range 64).foldl (fun d n => serveSem core n (d.coreAt core).semWaiters.length d) d
    let d2 := (List.range 8).foldl (fun d j => serveBuf core j (d.coreAt core).bufWaiters.length d) d1
    conclude s ((List.range 16).foldl (fun d i => afterHalt d core i) d2) []
  else conclude s s.dev []

end Sys2Proof.Machine
end

