-- ==== Sys2Proof/Machine/Coherence.lean ====
section
/-! DEFINITION. Tokens and their messages (R253 to R257), die links (R266, R268, R269), and landings of shipped contexts
(R262 to R265). The value of a line is held once, in memory: tokens decide who may read and write it. -/
namespace Sys2Proof.Machine

/-- What an access in flight asks for (R122, R253, R255): the line of its first undone part without the tokens it needs, for its core's
L1 or for the home, and whether it needs all of them. -/
structure Need where
  line : Nat
  core : Option Nat
  write : Bool
  deriving DecidableEq, Repr

/-- The need of an access: a load that its L1 may serve misses there; LDX and MARM need a token at the home, and everything else
performs at the home with all of them (R122, R138, R245). -/
def needOf (d : Device) (a : Access) : Option (Need × Piece) :=
  a.pieces.findSome? fun p =>
    if p.done || decide (Config.peerBase ≤ p.key) then none
    else
      let l := d.lineAt p.line
      let n : Option Need :=
        if a.kind.cached then (if a.hits d p then none else some ⟨p.line, some a.core, false⟩)
        else
          match a.kind with
          | .loadX => if l.home = 0 then some ⟨p.line, none, false⟩ else none
          | .marm _ => if d.spare p.line = 0 then some ⟨p.line, none, false⟩ else none
          | .store => if d.canStore a.core p.line then none else some ⟨p.line, none, true⟩
          | .tileStore => if d.canStore a.core p.line then none else some ⟨p.line, none, true⟩
          | .flush => none
          | .clean => none
          | _ => if l.home = Config.tokensPerLine then none else some ⟨p.line, none, true⟩
      n.map fun n => (n, p)

/-- TRANSIENT_REQUEST (R242, R243, R255, R257): access `n` asks for the tokens it needs; an L1 miss makes room for its line. -/
def execTransientRequest (n : Nat) (s : State) : Out :=
  let d := s.dev
  match d.access n with
  | none => conclude s d []
  | some a =>
    match needOf d a with
    | none => conclude s d []
    | some (r, p) =>
      if d.tokenReqs.any (fun q => q.line == r.line && q.core == r.core) || !d.missRoom r.line then conclude s d []
      else conclude s ((d.miss r.line r.core a.vf p.tile (a.issued p)).ask r.line r.core r.write false) []

/-- TRANSIENT_RETRY (R255): request `n` is sent again 250 ns after its last sending, at most three times; one that is
satisfied ends. -/
def execTransientRetry (n : Nat) (s : State) : Out :=
  let d := s.dev
  match d.tokenReqs[n]? with
  | none => conclude s d []
  | some r =>
    if satisfied d r.line r.core r.write then conclude s { d with tokenReqs := d.tokenReqs.eraseIdx n } []
    else if r.tries < 3 ∧ r.sentAt + 250 ≤ d.wall then
      let d1 := serveTransient d r.line r.core r.write
      conclude s { d1 with tokenReqs := d1.tokenReqs.set n { r with tries := r.tries + 1, sentAt := d.wall } } []
    else conclude s d []

/-- Tokens of a line that move to an active request (R256): every holder forwards over an active link; a sleeping link starts its
wake, and its holder forwards once it is awake (R266). -/
def forward (d : Device) (r : PersistReq) : Device :=
  let l := d.lineAt r.line
  if d.lostLine r.line then d
  else
    let home := dieOfLine r.line
    let d0 := startWakes d (requesterDie r.line r.core) (home :: l.holders.map fun h => dieOfCore h.1)
    let up := linkUp d0 (requesterDie r.line r.core) home
    let (ms, l1) : List TokenMsg × LineState :=
      if !up then ([], l)
      else if r.write then homeAnswer d0 l r.line r.core true
      else if l.homeOwner && r.core.isSome && decide (0 < d0.spare r.line) then
        ([⟨r.line, 1, true, l.homeDirty, r.core, home, none⟩], { l with home := l.home - 1, homeOwner := false, homeDirty := false })
      else ([], l)
    let (ns, l2) := holderAnswer d0 l1 r.line r.core r.write true
    d0.sendTokens r.line (ms ++ ns) l2

/-- Admits requests into a die's table of 64 entries and activates the oldest of each line (R256). -/
def activate (d : Device) (die : Nat) : Device :=
  let mine := d.persist.filter fun r => r.die == die
  let rest := d.persist.filter fun r => r.die != die
  let admitted := mine.zipIdx.map fun q => { q.1 with admitted := q.1.admitted || decide (q.2 < 64) }
  let active := admitted.zipIdx.map fun q =>
    if q.1.admitted && !q.1.active && q.1.closing.isNone && !(admitted.any fun r => r.active && r.line == q.1.line) &&
        !((admitted.take q.2).any fun r => r.line == q.1.line && r.closing.isNone) then { q.1 with active := true } else q.1
  let d1 : Device := { d with persist := rest ++ active }
  ((active.zip admitted).filter fun q => q.1.active && !q.2.active).foldl (fun d q => forward d q.1) d1

/-- Every active request's tokens that can move now do: a link has become active (R256, R266). -/
def forwardAll (d : Device) : Device := (d.persist.filter fun r => r.active).foldl forward d

/-- PERSISTENT_REQUEST (R255, R256, R266): request `n` becomes persistent at its fourth failure, or 1 µs after its first sending; a
waking link between it and its line holds it back. -/
def execPersistentRequest (n : Nat) (s : State) : Out :=
  let d := s.dev
  match d.tokenReqs[n]? with
  | none => conclude s d []
  | some r =>
    let home := dieOfLine r.line
    let from_ := requesterDie r.line r.core
    let waking := ((home :: (d.lineAt r.line).holders.map fun h => dieOfCore h.1).any fun b => d.linkState from_ b = .waking || d.linkState from_ b = .asleep)
    let due := decide (r.first + 1000 ≤ d.wall) || decide (3 ≤ r.tries) && decide (r.sentAt + 250 ≤ d.wall)
    if !due || satisfied d r.line r.core r.write || waking then conclude s d []
    else
      let d1 : Device := { d with
        tokenReqs := d.tokenReqs.eraseIdx n
        persist := d.persist ++ [{ die := home, line := r.line, core := r.core, write := r.write, engine := r.engine }] }
      conclude s (activate d1 home) []

/-- Whether a requester has not performed yet: an access in flight needs what the request asks for, or an engine's has not been
released (R256). -/
def stillNeeded (d : Device) (r : PersistReq) : Bool :=
  r.engine || d.accesses.any fun a => match needOf d a with
    | some (q, _) => q.line == r.line && q.core == r.core
    | none => a.pieces.any fun p => !p.done && p.line == r.line && a.fault.isNone && !a.orphan

/-- Dies that must acknowledge a deactivation: those of the line's partition, and hub die 8 with the host proxy (R256). -/
def acknowledgers (d : Device) (line : Nat) : List Nat :=
  let own := match partOfPa d (line * 128) with
    | some p => ((d.partAt p).blocks.map fun b => b / 16).eraseDups
    | none => []
  ((8 :: own).eraseDups).filter fun die => !d.lostDies.contains die

/-- PERSISTENT_DEACTIVATION (R256): once its requester has performed, entry `n` of a die's table is deactivated, and the next of the
line is activated; it frees when every die has acknowledged, and the next are admitted. -/
def execPersistentDeactivation (die n : Nat) (s : State) : Out :=
  let d := s.dev
  match (d.persist.filter fun r => r.die == die)[n]? with
  | none => conclude s d []
  | some r =>
    match r.closing with
    | none =>
      if r.active && !stillNeeded d r then
        conclude s (activate { d with persist := d.persist.map fun q => if q = r then { q with active := false, closing := some (acknowledgers d r.line) } else q } die) []
      else conclude s d []
    | some dies =>
      let left := dies.filter fun b => !linkUp d b die && !d.lostDies.contains b
      let d1 := startWakes d die left
      conclude s (if left.isEmpty then activate { d1 with persist := d1.persist.erase r } die
        else { d1 with persist := d1.persist.map fun q => if q = r then { q with closing := some left } else q }) []

/-- A returned dirty line at its home slice (R257): it enters the slice's cache, or, where that cannot take it without evicting dirty
data, the write-back buffer of 16 entries. Which of the two is a free choice (assumption 90); none when the buffer has no room. -/
def takeBack (d : Device) (slice line : Nat) : Option Device :=
  let (evicts, d1) := d.drawBit
  if !evicts || d1.writeBacks.contains (slice, line) then some d1
  else if (d1.writeBacks.filter fun q => q.1 == slice).length < 16 then some { d1 with writeBacks := d1.writeBacks ++ [(slice, line)] }
  else none

/-- TOKEN_MESSAGE (R253, R254, R256, R257): message `n` arrives; a holder passes tokens on to an active request. A write-back waits
for nothing but a buffer entry. -/
def execTokenMessage (n : Nat) (s : State) : Out :=
  let d := s.dev
  match d.tokenMsgs[n]? with
  | none => conclude s d []
  | some t =>
    let (up, d0) := reachDie d t.from_ (requesterDie t.line t.to_)
    if !up then conclude s d0 []
    else
      let d1 : Device := { d with tokenMsgs := d.tokenMsgs.eraseIdx n }
      let kept := match d.sliceOf t.line with
        | some sl => if t.to_.isNone && t.dirty then takeBack d1 sl t.line else some d1
        | none => some d1
      match kept with
      | none => conclude s { d with freeCtr := d.freeCtr + 1 } []
      | some d2 =>
        let d3 := d2.takeTokens t
        let d4 := match t.owed with
          | some c => d3.onCore c fun k => { k with got := assocPut (dieOfLine t.line) (((assocGet (dieOfLine t.line) k.got).getD 0) + 1) k.got }
          | none => d3
        conclude s (match d4.persist.find? fun r => r.active && r.line == t.line with
          | some r => if r.core = t.to_ then d4 else forward d4 r
          | none => d4) []

/-- SOFT_DIRECTORY_HINT (R255): a hint reaches the home, and a die whose L1s hold no token of the line leaves the line's record. -/
def execSoftDirectoryHint (line core : Nat) (s : State) : Out :=
  let d := s.dev
  let l := d.lineAt line
  let die := dieOfCore core
  if !d.hints.contains (line, die) then conclude s d []
  else
    let d1 : Device := { d with hints := d.hints.erase (line, die) }
    if l.holders.any fun h => dieOfCore h.1 == die then conclude s d1 []
    else conclude s (d1.setLine line { l with directory := l.directory.filter (· != die) }) []

/-- The host proxy evicts a line (R378): it collects every token, writes dirty data with HMWR, then sends TRET. -/
def evictHost (m : Memory) (d : Device) (line : Nat) : Device :=
  let g := (assocGet line d.grants).getD 0
  if g = 0 ∨ d.hostBusy line = true then d
  else if (d.lineAt line).home ≠ Config.tokensPerLine then d.recall line
  else
    let d1 := d.homeClean m line
    { d1 with grants := assocDrop line d1.grants, hostOut := d1.hostOut ++ [.tret line] }

/-- WRITE_BACK (R242, R254, R257): an L1 returns a line's tokens, and its dirty data with the owner token. For a core whose L1 holds
nothing of the line, it is the line's home that evicts it: the slice of that core's cluster writes dirty data to memory, or the host
proxy, named 0x2000, gives a host line back (R378). -/
def execWriteBack (core line : Nat) (s : State) : Out :=
  let d := s.dev
  if 0 < (d.lineAt line).heldBy core then conclude s (d.shed core line) []
  else if core = 0x2000 ∧ 2^51 ≤ line then conclude s (evictHost s.mem d line) []
  else if d.sliceOf line = some (clusterOf core) ∧ (d.lineAt line).homeDirty = true then conclude s (d.homeClean s.mem line) []
  else conclude s d []

/-- WRITE_BACK_BUFFER_DRAIN (R257): the oldest buffered line of a slice reaches memory: two write-queue entries of the controller are
the slice's own, so that nothing holds it back. -/
def execWriteBackBufferDrain (slice : Nat) (s : State) : Out :=
  let d := s.dev
  match d.writeBacks.find? fun q => q.1 == slice with
  | none => conclude s d []
  | some q => conclude s (d.homeClean s.mem q.2) []

/-- Sets the state of the link between two dies. -/
def setLink (d : Device) (a b : Nat) (st : LinkState) : Device :=
  { d with dieLinks := (d.dieLinks.filter fun l => !((l.a == a && l.b == b) || (l.a == b && l.b == a))) ++ [⟨a, b, st, d.wall⟩] }

/-- Whether something is on its way from one of two dies to the other: tokens, messages, parts of accesses, fence markers and landing
requests. -/
def linkBusy (d : Device) (a b : Nat) : Bool :=
  let over_ (x y : Nat) : Bool := (x == a && y == b) || (x == b && y == a)
  d.tokenMsgs.any (fun t => over_ t.from_ (match t.to_ with
    | some c => dieOfCore c
    | none => dieOfLine t.line)) ||
  d.messages.any (fun m => m.injected.isSome && !m.delivered && over_ (dieOfCore m.from_) (dieOfCore m.to_)) ||
  d.accesses.any (fun x => x.pieces.any fun p => !p.done && p.waiting.isNone && over_ (dieOfCore x.core) p.port.die) ||
  d.markers.any (fun m => !m.acked && over_ (dieOfCore m.core) m.die) ||
  d.landings.any fun l => over_ (dieOfCore l.core) l.die

/-- LINK_SLEEP (R266): an idle active link goes to sleep. -/
def execLinkSleep (die far : Nat) (s : State) : Out :=
  if die ≠ far ∧ s.dev.linkState die far = .active ∧ linkBusy s.dev die far = false then conclude s (setLink s.dev die far .asleep) [] else conclude s s.dev []

/-- LINK_WAKE (R266). -/
def execLinkWake (die far : Nat) (s : State) : Out := conclude s (startWakes s.dev die [far]) []

/-- A link is awake: what waited for it goes on (R256, R266). -/
def wakeLink (d : Device) (a b : Nat) : Device := forwardAll (setLink d a b .active)

/-- LINK_WAKE_COMPLETE (R266). -/
def execLinkWakeComplete (die far : Nat) (s : State) : Out :=
  if s.dev.linkState die far = .waking then conclude s (wakeLink s.dev die far) [] else conclude s s.dev []

/-- Wakes that have taken 1.5 µs are complete (R266). -/
def settleLinks (d : Device) : Device :=
  (d.dieLinks.filter fun l => decide (l.state = .waking ∧ l.since + 1500 ≤ d.wall)).foldl (fun d l => wakeLink d l.a l.b) d

/-- HEARTBEAT (R266, R382): a die is heard, or over peer link `far` - 16 the peer module. -/
def execHeartbeat (die far : Nat) (s : State) : Out :=
  let d := s.dev
  if 16 ≤ far then conclude s (d.onPeer (far - 16) fun l => { l with heard := d.wall }) []
  else if d.lostDies.contains die then conclude s d []
  else conclude s { d with heard := assocPut die d.wall d.heard } []

/-- Words of a line: of 128 bytes, or of a tile line of 1 KiB (R244). -/
def lineWords (l : LineState) (line : Nat) : List Nat := (List.range (if l.tile then 128 else 16)).map (16 * line + ·)

/-- Requests that wait at a port for a word that is lost fail: an LDF and an STF.E need its tokens (R267, R269). -/
def failWaiting (d : Device) (lost : Piece → Bool) : Device :=
  { d with accesses := d.accesses.map fun a =>
      match a.pieces.find? fun p => p.waiting.isSome && lost p with
      | some p => { a with fault := some (cCOHLOSS, a.issued p), pieces := a.pieces.map fun p => { p with waiting := none } }
      | none => a }

/-- A line becomes coherence-lost (R267): the writes to it that have been passed have performed, its monitors fire, and requests that
wait for its words fail. -/
def Work.loseLine (w : Work) (line : Nat) : Work :=
  let w1 := w.commits fun p => p.line == line && decide (p.key < Config.peerBase)
  (w1.fire (lineWords (w1.d.lineAt line) line)).on fun d =>
    failWaiting (d.setLine line { d.lineAt line with lost := true }) fun p => p.line == line && decide (p.key < Config.peerBase)

/-- A lost token flit (R268), which its receiver detects: its tokens are gone and the line is coherence-lost. -/
def Work.loseTokens (w : Work) (t : TokenMsg) (link : Nat) (seq : BitVec 12) : Work :=
  let w1 := (w.on fun d => { d with tokenMsgs := d.tokenMsgs.erase t }).loseLine t.line
  w1.log { cls := 5, store := if t.from_ = dieOfLine t.line ∧ t.to_.all (fun c => dieOfCore c = t.from_) then 0x12 else 0x13
           part := partOfPa w.d (t.line * 128), source := requesterDie t.line t.to_ * 16384, detail := BitVec.ofNat 64 (link % 16 * 2^60 + seq.toNat) }

/-- Whether a token message was in flight on a die link (R268). R389 records a link's number and no rule numbers the links: this
model takes it for the number of either die of the link (assumption 94, DESIGN CHOICE). -/
def onLink (t : TokenMsg) (link : Nat) : Bool :=
  let b := requesterDie t.line t.to_
  t.from_ != b && (t.from_ == link % 16 || b == link % 16)

/-- FLIT_UNCORRECTABLE (R268): what the lost flit carried decides. -/
def execFlitUncorrectable (carried : FlitCargo) (link : Nat) (seq : BitVec 12) (s : State) : Out :=
  let w := Work.start s
  let note (cls : Nat) (die : Nat) : Work := w.log { cls := cls, store := 0x13, source := die * 16384, detail := BitVec.ofNat 64 (link % 16 * 2^60 + seq.toNat) }
  match carried with
  | .tokens m =>
    match w.d.tokenMsgs[m]? with
    | some t => (w.loseTokens t link seq).finish s
    | none => conclude s s.dev []
  | .hint =>
    match w.d.hints with
    | (_, die) :: rest => ((note 6 die).on fun d => { d with hints := rest }).finish s
    | [] => conclude s s.dev []
  | .request m =>
    match w.d.tokenReqs[m]? with
    | some r => (note 7 (dieOfLine r.line)).finish s
    | none => conclude s s.dev []
  | .header lines =>
    ((w.d.tokenMsgs.filter fun t => lines.contains t.line && onLink t link).foldl (fun w t => w.loseTokens t link seq) w).finish s

/-- RECOUNT_REPLY (R269): once every holder has answered, the home regenerates the lost tokens, or writes the line
poisoned. -/
def execRecountReply (line : Nat) (s : State) : Out :=
  let w := Work.start s
  let l := w.d.lineAt line
  if !l.lost || w.d.lostDies.contains (dieOfLine line) || w.d.tokenMsgs.any fun t => t.line == line then conclude s s.dev []
  else
    let alive := l.holders.filter fun h => !w.d.lostDies.contains (dieOfCore h.1)
    let held := (alive.map fun h => h.2.1).sum
    let found := l.home + held
    let note (w : Work) (cls : Nat) : Work :=
      w.log { cls := cls, store := 0x0C, part := partOfPa w.d (line * 128), addr := BitVec.ofNat 64 (line * 128)
              source := dieOfLine line * 16384, detail := BitVec.ofNat 64 found }
    if l.homeOwner || alive.any fun h => h.2.2.1 then
      (note (w.on fun d => d.setLine line { l with lost := false, home := Config.tokensPerLine - held, holders := alive }) 8).finish s
    else
      (note ((w.poisons (lineWords l line) (lineWords l line)).on fun d => d.setLine line {}) 9).finish s

/-- The lowest base at which a window of n entries fits into a file beside others (R263, R370). -/
def lowestBase (size n : Nat) (held : List (Nat × Nat)) : Option Nat :=
  if n = 0 then some 0
  else
    ((0 :: held.map fun h => h.1 + h.2).foldl (fun (best : Option Nat) b =>
      if b + n ≤ size ∧ (held.all fun h => !overlap b n h.1 h.2) = true then
        (match best with
          | some c => some (min b c)
          | none => some b)
      else best) none)

/-- Windows for counts on a core: scalar base and vector base. -/
def fitWindows (d : Device) (core gc vc : Nat) : Option (Nat × Nat) :=
  let held := heldWindows d core
  match lowestBase 2048 gc (held.map fun q => (q.1, q.2.1)), lowestBase 512 vc (held.map fun q => (q.2.2.1, q.2.2.2)) with
  | some a, some b => some (a, b)
  | _, _ => none

/-- The slot and windows a core can give a landing context (R263). -/
def landingSpot (d : Device) (core : Nat) (x : Context) : Option (Nat × Nat × Nat × Nat) :=
  let k := d.coreAt core
  if (k.ctx 0).isNone || k.saved then none
  else
    match ((List.range 15).map (· + 1)).find? fun i => (k.ctx i).isNone && !reservedSlot d core i && !k.tied.contains i with
    | none => none
    | some i => (fitWindows d core x.gCount x.vCount).map fun q => (core, i, q.1, q.2)

/-- Cores of a launch on a die, nearest to the line's home slice first (R263). -/
def landingCores (d : Device) (l : Launch) (die line : Nat) : List Nat :=
  let home := (d.partAt l.part).homeOf (line * 128) * 4
  let near (c : Nat) : Nat := hops c home
  sortBy (fun a b => decide (near a < near b) || (near a == near b && decide (a ≤ b))) (l.cores.filter fun c => dieOfCore c == die)

/-- Serves the oldest request of a die (R263). -/
def serveLanding (d : Device) (die : Nat) : Device :=
  match d.landings.findIdx? fun q => q.die == die && q.arrived && q.reserved.isNone with
  | none => d
  | some i =>
    match d.landings[i]? with
    | none => d
    | some q =>
      match d.ctxAt q.core q.slot with
      | none => d
      | some x =>
        if (x.wait?.any fun w => (expired w.expiry d.wall).isSome) then d
        else
          match d.launchAt x.part x.launch with
          | none => d
          | some l =>
            match (landingCores d l die q.line).findSome? fun c => landingSpot d c x with
            | none => d
            | some r => { d with landings := d.landings.set i { q with reserved := some r } }

/-- LANDING_REQUEST (R262, R263, R266): request `n` reaches its die over an active link, which serves its requests in order of
arrival. -/
def execLandingRequest (n : Nat) (s : State) : Out :=
  let d := s.dev
  match d.landings[n]? with
  | none => conclude s d []
  | some q =>
    let (up, d0) := reachDie d (dieOfCore q.core) q.die
    if q.arrived then conclude s (serveLanding d q.die) []
    else if !up then conclude s d0 []
    else conclude s (serveLanding { d with landings := d.landings.eraseIdx n ++ [{ q with arrived := true }] } q.die) []

/-- LANDING (R262, R264): the state is carried to the reserved slot, and the origin slot becomes empty, once the elements that the context
has appended to write streams have performed as its posted stores have. -/
def execLanding (n : Nat) (s : State) : Out :=
  let d := s.dev
  match d.landings[n]? with
  | none => conclude s d []
  | some q =>
    match q.reserved, d.ctxAt q.core q.slot with
    | some (core, slot, gb, vb), some x =>
      -- neither core's part is done while its clock is halted (R40)
      let (up, d0) := reachDie d (dieOfCore q.core) q.die
      if (d.coreAt q.core).halted || (d.coreAt core).halted || (d.coreAt q.core).gens.any (fun g => g.keeps q.slot) then conclude s d []
      else if !up then conclude s d0 []
      else
      let y := { x with gBase := gb, vBase := vb, phase := .ready, stallSince := none, stalled := false, taken := [], held := none }
      let z := y.onSys fun r => { r with shipcnt := if r.shipcnt = 0xFFFFFFFF then r.shipcnt else r.shipcnt + 1 }
      let d1 : Device := { d with landings := d.landings.eraseIdx n }
      let d2 := d1.onCore q.core fun k => k.setCtx q.slot none
      conclude s (d2.setCtx core slot z) []
    | _, _ => conclude s d []

end Sys2Proof.Machine
end

