-- ==== Sys2Proof/Machine/Preempt.lean ====
section
/-! DEFINITION. Pre-emption (R365 to R374): taking a context or a core off its hardware, the save areas, and putting them
back. A save area holds the bytes of R369 and R373; what the areas give no field to is kept beside them (assumption 21). -/
namespace Sys2Proof.Machine

/-- Lookups that a context's instructions wait in are withdrawn, but its multiplies stay queued (R367). -/
def withdrawForSave (d : Device) (core slot : Nat) : Device :=
  let q := (d.coreAt core).arrayQ.filter fun e => e.slot != slot || match e.op with
    | .aread _ _ _ _ => false
    | _ => true
  (withdraw d core slot).onCore core fun k => { k with arrayQ := q }

/-- The instruction that a context waits in is withdrawn: it gives back what it took, and is issued again (R8, R146). -/
def issueAgain (d : Device) (core slot : Nat) : Device :=
  (d.untake core slot).onCtx core slot fun x => { x with phase := .ready, stallSince := none, stalled := false }

/-- A multiply of the context in a slot stands in the array queue. -/
def Core.multiplyOf (k : Core) (slot : Nat) : Option ArrayEntry := k.arrayQ.find? fun e => e.slot == slot && !e.op.posted

/-- The phase in which a taken context stands (R146, R367): BAR past its arrival and a queued multiply stay; every other
wait is withdrawn, so that its instruction is issued again. -/
def takenPhase (d : Device) (core slot : Nat) (x : Context) : Device :=
  match x.phase with
  | .parked ⟨.barrier _ _, _, _, _⟩ => d
  | .parked ⟨.array, _, _, _⟩ => if ((d.coreAt core).multiplyOf slot).isSome then d else issueAgain d core slot
  | .parked ⟨.pushed _, _, _, dest⟩ => completeWait d core slot (some (dest, 0))
  | .stopped _ _ _ => d
  | _ => issueAgain d core slot

/-- The expiry of a stream stall that a context stands in (R38). -/
def Context.stallExpiry (x : Context) : Option (Nat × BitVec 8) :=
  if x.stalled then x.stallSince.bind fun t0 => expiryOf x.regs.sys t0 else none

/-- Takes a context between instructions (R367): none while a pending result or a posted effect is outstanding, or a releasing fence that
it has passed still holds its later writes (R137); otherwise
the device with the context ready to be saved, and the expiry of its withdrawn wait. -/
def takeContext (d : Device) (core slot : Nat) : Option (Device × Option (Nat × BitVec 8)) :=
  let mine (a : Access) : Bool := a.core == core && a.slot == slot && !a.orphan
  let ldf := (d.accesses.filter fun a => mine a && !a.complete && a.fault.isNone && (match a.kind with
      | .ldf _ _ => true
      | _ => false)).head?
  let d0 := match ldf with
    | some a => (rollBack d a).getD d
    | none => d
  -- a trap that waits is entered first, as soon as it can be (R119, R367)
  let d1 := trapEntry d0 core slot
  match d1.ctxAt core slot with
  | none => none
  | some x =>
    let begun := ((d1.coreAt core).multiplyOf slot).any ArrayEntry.begun
    let e := if begun then none else ((x.wait?.bind Wait.expiry).or x.stallExpiry).or (ldf.bind fun (a : Access) => a.expiry)
    let trapping := match x.phase with
      | .trapping _ _ _ => true
      | _ => false
    let waitingStf (a : Access) : Bool := match a.kind with
      | .stf true => !a.complete
      | _ => false
    if x.awaits || trapping || x.rels.any (relAway d1 core slot) || (d1.coreAt core).gens.any (fun g => g.keeps slot) || d1.accesses.any fun a => mine a && !waitingStf a then none
    else
      let d2 := (d1.accesses.filter mine).foldl neverSent d1
      let d3 := withdrawForSave { d2 with accesses := d2.accesses.filter fun a => !mine a } core slot
      some ((takenPhase d3 core slot x).onCtx core slot fun y => { y with pending := [], rels := [], held := none }, e)

/-- Dwords of a number, least significant first. -/
def dwordsOf (x n : Nat) : List Word := (List.range n).map fun i => BitVec.ofNat 64 (x / 2^(64 * i))

/-- The code of R218 for what stands in a slot. -/
def stateCode (d : Device) (core slot : Nat) : Nat := ((d.ctxAt core slot).map fun x => x.phase.code).getD 0

/-- Words of an area that holds no context: the state code of an empty slot, 0 (R218, R373). -/
def emptyArea : List Word := List.replicate 1279 0

/-- The dwords of a context save area after STATUS (R369). `whole` is SCOPE, and `state` what TSTAT gave before the context was
taken. -/
def contextArea (k : Core) (core slot : Nat) (x : Context) (tied whole : Bool) (state : Nat) (e : Option (Nat × BitVec 8)) : List Word :=
  let r := x.regs
  let s := r.sys
  let mma := match x.phase with
    | .parked ⟨.array, _, _, _⟩ => true
    | _ => false
  let fullBits : Nat := ((r.g.toList.take x.gCount).zipIdx.map fun q => if q.1.full then 2^q.2 else 0).sum + (if x.gCount = 0 then 0 else if (x.getG 0).full && !((r.g[0]?).getD (GReg.mk 0 false false)).full then 1 else 0)
  let bind (g : Gen) : Nat := match g.bound with
    | some (q, .g n) => if q = slot then 2^15 + n else 0
    | some (q, .v n) => if q = slot then 2^15 + 2^7 + n else 0
    | none => 0
  let monitor : Nat := match x.monitor with
    | some m => m.addr.toNat / 8 * 8 + (if m.fired then 2 else 0) + 1
    | none => 0
  [BitVec.ofNat 64 (x.tid.toNat * 2^32 + (if tied then 2^25 else 0) + (if whole then 2^24 else 0) + packName core slot),
   BitVec.ofNat 64 (x.vBase * 2^32 + x.gBase * 2^16 + x.vCount * 2^8 + x.gCount),
   r.pc,
   BitVec.ofNat 64 (r.conflict.toNat * 2^32 + (if mma then 16 else 0) + (if r.wakePending then 8 else 0) + state % 8),
   BitVec.ofNat 64 ((e.map Prod.fst).getD 0),
   BitVec.ofNat 64 monitor,
   BitVec.ofNat 64 (x.reductions.length * 2^32 + ((x.reductions.map BitVec.toNat).head?).getD 0),
   s.wlim, s.dline, s.srseed, s.trapcause.setWidth 64, s.trappc, s.trapval, s.trapvec, s.fflags.setWidth 64, s.frm.setWidth 64,
   s.srctr.setWidth 64, s.trapscr, if s.inh then 1 else 0, if s.pin then 1 else 0, s.shipcnt.setWidth 64] ++
  dwordsOf (((List.range 8).map fun i => (x.getK i).toNat * 2^(32 * i)).sum) 4 ++
  dwordsOf fullBits 2 ++
  dwordsOf ((k.gens.zipIdx.map fun q => bind q.1 * 2^(16 * q.2)).sum) 4 ++
  ((List.range 128).map fun i => if i < x.gCount then (x.getG i).val else 0) ++
  ((List.range 64).map fun i => if i < x.vCount then
      BitVec.ofNat 64 ((if (x.getV i).full then 2^36 else 0) + (x.getV i).tag.toNat * 2^32 + (x.getV i).scale.toNat) else 0) ++
  List.replicate 32 0 ++
  ((List.range 64).map fun i => dwordsOf (if i < x.vCount then (x.getV i).bits.toNat else 0) 16).flatten

/-- The phase of a restored context (R367, R369, R370): MMA pending keeps it parked, and the state code says whether it is stopped;
what a stop or a wait holds beside that has no place in the area. -/
def phaseFrom (state : Word) (p : Phase) : Phase :=
  let stopped := state.toNat % 8 == 4
  if state.getLsbD 4 then
    match p with
    | .parked ⟨.array, t0, e, n⟩ => .parked ⟨.array, t0, e, n⟩
    | _ => .parked ⟨.array, 0, none, 0⟩
  else
    match p with
    | .parked ⟨.array, _, _, _⟩ => if stopped then .stopped 0 0 0 else .ready
    | .stopped how code cause => if stopped then .stopped how code cause else .ready
    | q => if stopped then .stopped 0 0 0 else q

/-- The expiry that an area holds, with its cause: the one it was saved with, or that of the register that names the instant
(R38, R39, R369). -/
def areaExpiry (ws : List Word) (e : Option (Nat × BitVec 8)) : Option (Nat × BitVec 8) :=
  let n := (ws.getD 5 0).toNat
  if n = 0 then none
  else if e.map Prod.fst = some n then e
  else some (n, if (ws.getD 9 0).toNat = n then cDEADLINE else cWAITLIM)

/-- What a context area's dwords, STATUS first, give back of a context (R369, R370): bit 0 of an address of code reads as zero
(R71). -/
def contextFrom (ws : List Word) (x0 : Context) : Context :=
  let w (i : Nat) : Word := ws.getD i 0
  let x : Context := { x0 with
    tid := BitVec.ofNat 32 ((w 1).toNat / 2^32)
    gCount := min 128 ((w 2).toNat % 2^8)
    vCount := min 64 ((w 2).toNat / 2^8 % 2^8)
    phase := phaseFrom (w 4) x0.phase
    reductions := x0.reductions.take ((w 7).toNat / 2^32 % 2^8) }
  let sys : SysRegs :=
    { x.regs.sys with
      wlim := w 8, dline := w 9, srseed := w 10, trapcause := (w 11).setWidth 8, trappc := w 12 &&& ~~~1, trapval := w 13, trapvec := w 14 &&& ~~~1
      fflags := (w 15).setWidth 6, frm := (w 16).setWidth 3, srctr := (w 17).setWidth 32, trapscr := w 18, inh := (w 19).getLsbD 0
      pin := (w 20).getLsbD 0, shipcnt := (w 21).setWidth 32 }
  let masks : Nat := ((List.range 4).map fun i => (w (22 + i)).toNat * 2^(64 * i)).sum
  let fulls : Nat := (w 26).toNat + (w 27).toNat * 2^64
  let g := (List.range 128).foldl (fun (g : Vector GReg 128) n =>
    if n < x.gCount then g.setIfInBounds n { g[n]?.getD {} with val := w (32 + n), full := fulls / 2^n % 2 == 1 } else g) x.regs.g
  let v := (List.range 64).foldl (fun (v : Vector VReg 64) n =>
    if n < x.vCount then
      let m := (w (160 + n)).toNat
      v.setIfInBounds n { v[n]?.getD {} with
        bits := BitVec.ofNat 1024 ((List.range 16).map fun j => (w (256 + 16 * n + j)).toNat * 2^(64 * j)).sum
        tag := BitVec.ofNat 4 (m / 2^32), scale := BitVec.ofNat 32 m, full := m / 2^36 % 2 == 1 }
    else v) x.regs.v
  { x with
    regs :=
      { g := g, v := v, k := (List.range 8).foldl (fun (k : Vector (BitVec 32) 8) i => k.setIfInBounds i (if i = 0 then 0 else BitVec.ofNat 32 (masks / 2^(32 * i)))) x.regs.k
        sys := sys, pc := w 3 &&& ~~~1, conflict := BitVec.ofNat 32 ((w 4).toNat / 2^32), wakePending := (w 4).getLsbD 3 }
    monitor := if (w 6).getLsbD 0 then x.monitor.map fun m => { m with fired := true } else none }

/-- Dwords of a byte string. -/
def dwordsFrom (bs : List Byte) : List Word :=
  (List.range (bs.length / 8)).map fun i => BitVec.ofNat 64 (bytesNat ((bs.drop (8 * i)).take 8))

/-- The agent of a save or restore command: the issuer's VF (R365). -/
def Command.agent (c : Command) : Agent := { core := c.core, part := c.part, vf := c.vf, via := c.core }

/-- The save area of a command: PREAREA is sign-extended from its bit 56, as every translated address is (R348, R365). -/
def Command.area (c : Command) : Word := (c.prearea.setWidth 57).signExtend 64

/-- Whether everything that FENCE.FULL.SY waits for has come about for a command (R137, R259, R365): the accesses of its issuer before
it have performed, the dies its core had written to have received those writes, and the host has completed the HMWRs. -/
def commandFenced (d : Device) (c : Command) : Bool :=
  !(d.accesses.any fun a => a.core == c.core && a.slot == c.slot && decide (a.id < c.after) && !a.complete && !a.orphan) &&
  (c.sent.all fun q => d.received c.core q.1 q.2 || d.lostDies.contains q.1) && !(d.hmwrs.any fun h => decide (h.1 < c.after))

/-- Command n, once it may begin (R365), and its scope. -/
def commandReady (d : Device) (n : Nat) (save whole : Bool) : Option Command :=
  match d.commands[n]? with
  | none => none
  | some c =>
    if c.save = save ∧ c.whole = whole ∧ commandFenced d c = true ∧ (d.restoring.any fun q => q.2.2 == c.id) = false then some c else none

/-- Ends a command with its STATUS (R366), an engine write. -/
def Work.commandDone (w : Work) (c : Command) (status : Nat) : Work :=
  (w.dwordAt c.agent c.area (BitVec.ofNat 64 status)).on fun d => { d with commands := d.commands.filter fun q => q.id != c.id }

/-- A command reaches the core it names (R367). -/
def Device.reach (d : Device) (c : Command) : Device :=
  { d with commands := d.commands.map fun q => if q.id = c.id then { q with reached := true } else q }

/-- A save of one context (R366 to R369): it takes its context, writes its area and empties the slot; or, where it cannot yet,
the device with what it has asked for. -/
def saveContext (w : Work) (c : Command) : Except Device Work :=
    let (core, slot) := c.target
    match w.d.ctxAt core slot with
    | none => .ok (w.commandDone c 0x81)
    | some x0 =>
      if (w.d.partAt c.part).hasCore core = false ∨ x0.part ≠ c.part then .ok (w.commandDone c 0x81)
      else
        match c.agent.targets w.m (cuts 10241 (c.area + 8) 10232) w.d [] with
        | (.error .hold, d2) => .error (keepAsked w.d d2)
        | (.error _, _) => .ok (w.commandDone c 0x80)
        | (.ok ts, d0) =>
          match takeContext d0 core slot with
          | none => .error w.d
          | some (d1, e) =>
            match d1.ctxAt core slot with
            | none => .error w.d
            | some x =>
              let k := d1.coreAt core
              let tied := coreTied k x core slot
              let key := (ts.head?.map fun t => t.1.key).getD 0
              let w1 := ({ w with d := d1 } : Work).engineSpan c.agent ts (dwordBytes (contextArea k core slot x tied false (stateCode w.d core slot) e))
              let w2 := w1.on fun d =>
                { (d.onCore core fun k => { k.setCtx slot none with tied := if tied then k.tied ++ [slot] else k.tied }) with
                  saved := d.saved ++ [{ area := key, core := core, slot := slot, whole := false, ctx := some x, unit := none, expiry := e, tied := tied
                                         addr := c.area, vf := c.vf }] }
              .ok (w2.commandDone c 1)

/-- SAVE_CONTEXT (R366 to R369): command `n` reaches the core; it takes its context at the context's next turn, and an empty slot is
answered at once. -/
def execSaveContext (n : Nat) (s : State) : Out :=
  let w := Work.start s
  match commandReady w.d n true false with
  | none => conclude s s.dev []
  | some c =>
    if (w.d.ctxAt c.target.1 c.target.2).isSome then conclude s (s.dev.reach c) []
    else
      match saveContext w c with
      | .error d => conclude s d []
      | .ok w1 => w1.finish s

/-- The turn of a context that a save has reached (R367, R371): the context is taken as soon as it can be, and does not issue; one
whose whole core is to be saved waits. -/
def saveTurn (s : State) (c : Command) : Out :=
  if c.whole then conclude s s.dev []
  else
    match saveContext (Work.start s) c with
    | .error d => conclude s d []
    | .ok w => w.finish s

/-- The command whose save of the context in a slot, or of its whole core, has reached the core (R367). -/
def pendingSave (d : Device) (core slot : Nat) : Option Command :=
  (List.range d.commands.length).findSome? fun n =>
    ((commandReady d n true false).filter fun c => c.target == (core, slot)).or
      ((commandReady d n true true).filter fun c => c.target.1 == core)

/-- Whether the dispatcher is taking a context's launch off its cores, this one's among them (R344). -/
def preempting (d : Device) (x : Context) : Bool := (d.launchAt x.part x.launch).any fun l => l.preempted

/-- YIELD (R120): a pre-emption pending for the context is taken here, and the turn stays empty while it cannot be. -/
def execYield (s : State) : Out :=
  issue s .yield {} fun dv x _ =>
    match pendingSave dv dv.core dv.slot with
    | none => if preempting dv x then .stall else .ok dv
    | some c =>
      if c.whole then .stall
      else
        match saveContext ⟨s.mem, settle dv 4 none none, [], []⟩ c with
        | .error _ => .stall
        | .ok w => .over w.d w.es

/-- Moves everything a core holds for a slot to another slot. -/
def Core.moveSlot (k : Core) (a b : Nat) : Core :=
  if a = b then k
  else
    { k with
      opSlots := k.opSlots.map fun o => if o.state != .free && o.owner == a then { o with owner := b } else o
      gens := k.gens.map fun g => { g with
        bound := g.bound.map (fun q => if q.1 = a then (b, q.2) else q)
        owner := if g.owner = a then b else g.owner }
      classes := k.classes.map fun o => o.map fun q => if q.1 = a then (b, q.2) else q
      arrayQ := k.arrayQ.map fun e => if e.slot = a then { e with slot := b } else e
      sends := k.sends.map fun q => if q.owner = a then { q with owner := b } else q
      reductions := k.reductions.map fun r => if r.slot = a then { r with slot := b } else r }

/-- How a restored context goes on (R39, R139, R187, R370): its monitor has fired; a wait whose expiry instant has passed stands
with it, so that it traps; a barrier wait stands unless its phase has gone; a multiply that began goes on, and one that finished
meanwhile completes, or traps. -/
def resume (d : Device) (core slot : Nat) (e : Option (Nat × BitVec 8)) (trap : Option (BitVec 8 × Word)) : Device :=
  match d.ctxAt core slot with
  | none => d
  | some x0 =>
    let x : Context := { x0 with monitor := x0.monitor.map fun (mo : Monitor) => { mo with fired := true } }
    let late := (expired e d.wall).isSome
    let fresh (w : Wait) : Wait := { w with t0 := d.wall, expiry := expiryOf x.regs.sys d.wall }
    let park (w : Wait) : Device := d.setCtx core slot { x with phase := .parked w }
    match x.phase with
    | .stopped _ _ _ => d
    | .parked w =>
      match w.kind with
      | .barrier g p =>
        let gone := match (d.launchAt x.part x.launch).bind fun l => l.groups.find? fun q => q.id == g with
          | some q => q.generation != p
          | none => true
        if late then park { w with expiry := e }
        else if gone then completeWait (park (fresh w)) core slot (some (w.dest, p.setWidth 64))
        else park (fresh w)
      | _ =>
        match (d.coreAt core).multiplyOf slot with
        | none =>
          match trap with
          | some (c, v) => takeTrap (d.setCtx core slot { x with phase := .ready }) core slot c v x.regs.pc
          | none => completeWait (park w) core slot none
        | some q =>
          if q.started || q.begun then park { fresh w with expiry := none }
          else if late then park { w with expiry := e } else park (fresh w)
    | _ => if late then park ⟨.retry, d.wall, e, 0⟩ else d.setCtx core slot x

/-- The restored contexts whose expiry instants have passed trap in deadline order, as after a clock halt (R39, R41). They come after
contexts that are overdue from before: the spec does not order the two (assumption 104, DESIGN CHOICE). -/
def noteOverdue (d : Device) (core : Nat) (mine : Nat → Bool) : Device :=
  let k := d.coreAt core
  d.setCore core { k with
    overdue := k.overdueNow ++ (overdueSlots k d.wall).filter fun i => mine i && !k.overdueNow.contains i }

/-- A vector register whose VMETA dword in an area holds a tag code that is none (R57, R369). -/
def badTag (ws : List Word) (x : Context) : Option Nat :=
  (List.range (min x.vCount 64)).find? fun n => decide (0xD ≤ (ws.getD (160 + n) 0).toNat / 2^32 % 16)

/-- A restored context whose area holds such a code takes TAG for it (R57), with the code as FOUND and the register as REG (R59): the
spec does not give its place, and this model takes it as the context goes on (assumption 83, DESIGN CHOICE). -/
def tagTrap (d : Device) (core slot : Nat) (ws : List Word) : Device :=
  match d.ctxAt core slot with
  | none => d
  | some x =>
    match badTag ws x with
    | some n =>
      if x.isStopped then d
      else takeTrap d core slot cTAG (tagVal (BitVec.ofNat 4 ((ws.getD (160 + n) 0).toNat / 2^32)) n) x.regs.pc
    | none => d

/-- Replays the deposits that the spill ring caught for classes of a slot (R372). -/
def replayDeposits (d : Device) (core : Nat) (mine : Nat → Bool) : Device :=
  let k := d.coreAt core
  let now := k.spill.filterMap fun q => match q with
    | .deposit r => if mine r.cls then some r else none
    | _ => none
  d.setCore core { k with
    waiting := k.waiting ++ now
    spill := k.spill.filter fun q => match q with
      | .deposit r => !mine r.cls
      | _ => true }

/-- The saved context that an area holds: the one saved there, or one of its TID. -/
def savedFor (d : Device) (key : Nat) (tid : BitVec 32) (part : Nat) : Option Saved :=
  (d.saved.find? fun v => !v.whole && v.area == key && v.ctx.any fun x => x.tid == tid).or
    (d.saved.find? fun v => !v.whole && v.ctx.any fun x => x.tid == tid && x.part == part)

/-- A context of an area that the device keeps no record beside: what the area gives no field to is as the loader makes it for the
launch of the core (R117, R369). -/
def areaContext (d : Device) (c : Command) (core : Nat) (ws : List Word) : Context :=
  let id := (d.coreAt core).launch
  let tid := BitVec.ofNat 32 ((ws.getD 1 0).toNat / 2^32)
  match d.launchAt c.part id with
  | some l => freshContext tid id c.part l.vf false (l.groupsOf tid) 0 8 0 0 0
  | none => freshContext tid id c.part c.vf false [] 0 8 0 0 0

/-- The record of the context in an area: the one kept beside it, or what the area alone says (R369). -/
def recordFor (d : Device) (c : Command) (core key : Nat) (ws : List Word) : Saved :=
  (savedFor d key (BitVec.ofNat 32 ((ws.getD 1 0).toNat / 2^32)) c.part).getD
    { area := key, core := (ws.getD 1 0).toNat / 16 % 2^14, slot := (ws.getD 1 0).toNat % 16, whole := false
      ctx := some (areaContext d c core ws), unit := none, tied := (ws.getD 1 0).getLsbD 25 }

/-- Whether the context in a slot waits for its multiply. -/
def awaitsArray (d : Device) (core slot : Nat) : Bool :=
  (d.ctxAt core slot).any fun x => x.wait?.any fun w => decide (w.kind = .array)

/-- The last steps of a RESTORE of one context (R370): deposits that the spill ring caught are replayed, and STATUS reads 1. -/
def Work.restored (w : Work) (c : Command) (core slot : Nat) : Work :=
  let bound (cls : Nat) : Bool := match ((w.d.coreAt core).classes[cls % 16]?).join with
    | some (q, _) => q == slot
    | none => false
  (w.on fun d => replayDeposits (d.onCore core fun k => { k with tied := k.tied.filter (· != slot) }) core bound).commandDone c 1

/-- RESTOREs whose multiply has completed or trapped come to their last steps (R370). -/
def Work.endRestores (w : Work) : Work :=
  (w.d.restoring.filter fun q => !awaitsArray w.d q.1 q.2.1).foldl (fun w q =>
    let w1 := w.on fun d => { d with restoring := d.restoring.erase q }
    match w1.d.commands.find? fun c => c.id == q.2.2 with
    | some c => w1.restored c q.1 q.2.1
    | none => w1) w

/-- RESTORE_CONTEXT (R366, R370): command `n` reads its area and puts the context into the named slot; not at a core whose clock is
halted (R40). -/
def execRestoreContext (n : Nat) (s : State) : Out :=
  let w := Work.start s
  match commandReady w.d n false false with
  | none => conclude s s.dev []
  | some c =>
    let (core, slot) := c.target
    if (w.d.coreAt core).halted then conclude s s.dev []
    else
    match c.agent.read w.m w.d c.area 10240 .plain with
    | (.hold, d1) => conclude s (keepAsked s.dev d1) []
    | (.bytes bs, _) =>
      let ws := dwordsFrom bs
      let key := match c.agent.find w.m w.d (c.area + 8) needR .plain with
        | (.place p, _) => p.key
        | _ => 0
      if (w.d.partAt c.part).hasCore core = false ∨ (w.d.ctxAt core slot).isSome = true ∨ reservedSlot w.d core slot = true then (w.commandDone c 0x81).finish s
      else
        let v := recordFor w.d c core key ws
        match v.ctx with
        | none => (w.commandDone c 0x81).finish s
        | some x0 =>
          let x := contextFrom ws x0
          if v.tied ∧ v.core ≠ core then (w.commandDone c 0x82).finish s
          else if (w.d.coreAt core).tied.contains slot = true ∧ ¬(v.tied = true ∧ v.slot = slot) then (w.commandDone c 0x81).finish s
          else
            match fitWindows w.d core x.gCount x.vCount with
            | none => (w.commandDone c 0x83).finish s
            | some (gb, vb) =>
              let d1 : Device := { w.d with saved := w.d.saved.erase v }
              let d2 := d1.onCore core fun k =>
                { (if v.tied then k.moveSlot v.slot slot else k).setCtx slot (some { x with gBase := gb, vBase := vb }) with
                  tied := if v.tied then slot :: k.tied.filter (· != v.slot) else k.tied }
              let d3 := noteOverdue (tagTrap (resume d2 core slot (areaExpiry ws v.expiry) v.trap) core slot ws) core (· == slot)
              if awaitsArray d3 core slot then
                (w.on fun _ => { d3 with restoring := d3.restoring ++ [(core, slot, c.id)] }).finish s
              else ((w.on fun _ => d3).restored c core slot).finish s
    | _ => (w.commandDone c 0x80).finish s

/-- Takes every context of a core, in ascending slot order (R371); none while one cannot be taken. -/
def takeAll (core : Nat) : List Nat → Device → List (Nat × Context × Option (Nat × BitVec 8)) →
    Option (Device × List (Nat × Context × Option (Nat × BitVec 8)))
  | [], d, acc => some (d, acc)
  | i :: rest, d, acc =>
    if (d.ctxAt core i).isNone then takeAll core rest d acc
    else
      match takeContext d core i with
      | none => none
      | some (d1, e) =>
        match d1.ctxAt core i with
        | some x => takeAll core rest d1 (acc ++ [(i, x, e)])
        | none => takeAll core rest d1 acc

/-- Work from outside that a core still waits for (R371 step 2): copy packets too that have been posted and have not started. -/
def coreBusy (d : Device) (core : Nat) : Bool :=
  d.fills.any (fun f => f.core == core) || d.transfers.any (fun t => t.to_ == core || t.from_ == core) ||
  (d.coreAt core).sends.any (fun q => q.matched) || d.shipments.any (fun q => q.to_ == core) ||
  d.packets.any (fun p => (destinationCores d p.words p.claim).contains core) ||
  d.notices.any (fun n => (destinationCores d n.words none).contains core) ||
  d.engines.any fun e => e.2.any fun q => q.waiting.any fun n => (destinationCores d n.words none).contains core

/-- Stops the array (R371 step 3): a multiply in progress finishes the row group it is in. -/
def stopArray (core : Nat) (k : Core) : Core :=
  match k.arrayQ with
  | e :: rest =>
    if !e.started then k
    else
      let per := match e.op with
        | .mma _ a _ => groupCycles core (k.slotAt a).tag
        | .mmz _ a _ => groupCycles core (k.slotAt a).tag
        | _ => 1
      let p := match e.op with
        | .mma _ _ _ => 8 - (e.until_ - k.cyc) / per
        | .mmz _ _ _ => 8 - (e.until_ - k.cyc) / per
        | _ => e.groups
      let k1 := k.multiplyGroups e.op e.groups p
      { k1 with arrayQ := { e with started := false, groups := p } :: rest }
  | [] => k

/-- Takes a whole core (R371): its contexts and the core itself, with the array stopped; not while its clock is halted (R40). -/
def takeCore (d : Device) (core : Nat) : Option (Device × List (Nat × Context × Option (Nat × BitVec 8)) × Core) :=
  if coreBusy d core || (d.coreAt core).halted then none
  else
    match takeAll core (List.range 16) d [] with
    | none => none
    | some (d1, xs) =>
      let k := stopArray core (d1.coreAt core)
      some (d1.setCore core { k with slots := List.replicate 16 none, saved := true, spilt := 0 }, xs, { k with slots := List.replicate 16 none })

/-- Encoded word of an array-queue entry, with its issuing slot (R373). -/
def ArrayEntry.word (e : ArrayEntry) : Nat :=
  let i : Nat := match e.op with
    | .mma acc a b => (encodeWord (.mma (BitVec.ofNat 4 b) (BitVec.ofNat 4 a) (BitVec.ofNat 2 acc))).getD 0
    | .mmz acc a b => (encodeWord (.mmz (BitVec.ofNat 4 b) (BitVec.ofNat 4 a) (BitVec.ofNat 2 acc))).getD 0
    | .azero acc => (encodeWord (.azero (BitVec.ofNat 2 acc))).getD 0
    | .aread dest acc _ _ => (encodeWord (.aread 0 (BitVec.ofNat 2 acc) (BitVec.ofNat 7 dest))).getD 0
  i + e.slot * 2^32

/-- The array-queue entry that an area's dword gives back (R373): the one kept beside it, or the instruction it encodes. -/
def ArrayEntry.from_ (x : Word) (old : Option ArrayEntry) : Option ArrayEntry :=
  match old.filter fun e => e.word == x.toNat with
  | some e => some e
  | none =>
    let slot := x.toNat / 2^32 % 16
    match decode (leBytes 4 (x.toNat % 2^32)) with
    | .ok (.mma b a d, _) => some { op := .mma d.toNat a.toNat b.toNat, slot := slot }
    | .ok (.mmz b a d, _) => some { op := .mmz d.toNat a.toNat b.toNat, slot := slot }
    | .ok (.azero d, _) => some { op := .azero d.toNat, slot := slot }
    | _ => none

/-- State code of an operand slot (R373). -/
def SlotState.code : SlotState → Nat
  | .free => 0
  | .local_ => 1
  | .recv _ => 2
  | .full => 3
  | .faulted _ _ => 4

/-- The place of a slot's claim among the RECV claims of its core, in their order (R177, R373). -/
def queuePosition (slots : List OpSlot) (o : OpSlot) : Nat :=
  (slots.filter fun q => (match q.state with
    | .recv _ => true
    | _ => false) && decide (q.claim < o.claim)).length

/-- Dword of an operand slot at a queue position (R373). -/
def OpSlot.dword (o : OpSlot) (position : Nat) : Nat :=
  let (dir, at_) := match o.state with
    | .recv d => (d.toNat, position)
    | _ => (0, 0)
  let why := match o.state with
    | .faulted c v => c.toNat * 2^32 + v.toNat % 2^32
    | _ => 0
  o.state.code * 2^60 + o.tag % 16 * 2^56 + o.owner % 16 * 2^52 + dir * 2^49 + at_ % 256 * 2^40 + why % 2^40

/-- The operand slot that an area's dword gives back (R373): the one kept beside it where the dword is as it was written. -/
def OpSlot.from_ (x : Word) (slots : List OpSlot) (o : OpSlot) : OpSlot :=
  let n := x.toNat
  if o.dword (queuePosition slots o) = n then o
  else
    { o with
      state := match n / 2^60 with
        | 0 => .free
        | 1 => .local_
        | 2 => .recv (BitVec.ofNat 3 (n / 2^49))
        | 3 => .full
        | _ => .faulted (BitVec.ofNat 8 (n / 2^32)) (BitVec.ofNat 64 (n % 2^32))
      tag := n / 2^56 % 16
      owner := n / 2^52 % 16
      claim := if n / 2^60 = 2 then n / 2^40 % 256 else o.claim }

/-- A circular buffer's dword (R373): its claim, fill and take indices. -/
def CircBuf.dword (c : CircBuf) : Nat := c.claimed % 2^21 * 2^42 + c.filled % 2^21 * 2^21 + c.taken % 2^21

/-- A circular buffer with the indices that an area's dword gives back. -/
def CircBuf.from_ (x : Word) (c : CircBuf) : CircBuf :=
  if c.dword = x.toNat then c
  else { c with claimed := x.toNat / 2^42, filled := x.toNat / 2^21 % 2^21, taken := x.toNat % 2^21, ready := [] }

/-- The two dwords of an entry of the spill ring (R373): kind, class or slot, sender, and the payload word. The rule gives their order;
this model places kind at [63:56], class or slot at [55:48] and the sender at [31:0] of the first (assumption 105, DESIGN CHOICE). -/
def Spill.dwords : Spill → List Word
  | .deposit q => [BitVec.ofNat 64 (1 * 2^56 + q.cls % 256 * 2^48 + q.sender.toNat), q.payload]
  | .transfer slot tag _ _ _ fault =>
    [BitVec.ofNat 64 (2 * 2^56 + slot % 256 * 2^48), BitVec.ofNat 64 (tag % 16 + (match fault with
      | some (c, _) => c.toNat * 2^8
      | none => 0))]

/-- What an area gives back of an entry of the spill ring that the device keeps: payloads and bytes are the area's. -/
def Spill.from_ (ws : List Word) (i block : Nat) : Spill → Spill
  | .deposit q => .deposit { q with payload := ws.getD ((0xC00 + 16 * i + 8) / 8) 0 }
  | .transfer slot tag _ _ poison fault =>
    .transfer slot tag (BitVec.ofNat 65536 (bytesNat (((ws.drop ((0xA0000 + 9216 * block) / 8)).take 1024).flatMap fun x => dwordBytes [x])))
      (BitVec.ofNat 2048 (bytesNat (((ws.drop ((0xA0000 + 9216 * block + 8192) / 8)).take 32).flatMap fun x => dwordBytes [x]))) poison fault

/-- Whether an entry of the spill ring is a transfer, which has a spill block (R372). -/
def Spill.isTransfer : Spill → Bool
  | .transfer _ _ _ _ _ _ => true
  | .deposit _ => false

/-- Bytes of a number, least significant first. -/
def bytesOf (x n : Nat) : List Byte := (List.range n).map fun i => BitVec.ofNat 8 (x / 256^i)

/-- What entry i of the spill ring writes into the core area (R372, R373): offset and bytes. -/
def Spill.area (ring : List Spill) (i : Nat) (q : Spill) : List (Nat × List Byte) :=
  let block := ((ring.take i).filter Spill.isTransfer).length
  (0xC00 + 16 * i, dwordBytes q.dwords) :: (match q with
    | .transfer _ _ bits scales _ _ => [(0xA0000 + 9216 * block, bytesOf bits.toNat 8192 ++ bytesOf scales.toNat 256)]
    | .deposit _ => [])

/-- The parts of a core area that hold state beside memory: offset and bytes (R373). -/
def coreArea (k : Core) (core : Nat) (xs : List (Nat × Context × Option (Nat × BitVec 8))) (state : Nat → Nat) : List (Nat × List Byte) :=
  let p := (k.arrayQ.head?.map ArrayEntry.groups).getD 0
  [(0x8, dwordBytes [BitVec.ofNat 64 (k.redCtr.toNat * 2^32 + packName core 0), k.rres,
      BitVec.ofNat 64 (k.rresSeq.toNat * 2^32 + (if k.rresTaken then 0 else 1)), k.spcfg.setWidth 64, BitVec.ofNat 64 (p * 2^8 + k.arrayQ.length)]),
   (0x40, dwordBytes (((List.range 8).map fun i => BitVec.ofNat 64 ((k.arrayQ[i]?.map ArrayEntry.word).getD 0)))),
   (0x80, dwordBytes (k.opSlots.map fun o => BitVec.ofNat 64 (o.dword (queuePosition k.opSlots o)))),
   (0x100, dwordBytes (k.bufs.map fun o => match o with
      | some c => BitVec.ofNat 64 c.dword
      | none => 0)),
   (0x800, (k.sems.map fun x => bytesOf x.toNat 4).flatten),
   (0xC00, List.replicate 1024 0)] ++
  ((List.range 16).map fun i => (0x1000 + 0x2800 * i + 8, dwordBytes (match xs.find? fun q => q.1 == i with
    | some q => contextArea k core q.1 q.2.1 (coreTied k q.2.1 core q.1) true (state q.1) q.2.2
    | none => emptyArea))) ++
  (k.opSlots.zipIdx.map fun q => (0x30000 + 9216 * q.2, bytesOf q.1.bits.toNat 8192 ++ bytesOf q.1.scales.toNat 256)) ++
  ((List.range 256).map fun r => (0x60000 + 256 * r, bytesOf (k.accRow (r / 64) (r % 64)).toNat 256)) ++
  [(0x70000, ((List.range 4096).map fun i => bytesOf ((assocGet i k.scratch).getD 0).toNat 4).flatten),
   (0x74000, dwordBytes (k.workList ++ List.replicate (64 - k.workList.length) 0 ++ [BitVec.ofNat 64 k.workList.length]))]

/-- Place keys of a core's own memory and its offset in the core area (R373). -/
def coreSpans (core : Nat) : List (Nat × Nat × Nat) :=
  [(0x80000, Config.laneBase + core * 2^17, 0x20000), (0x100000, Config.scratchpadBase + core * 2^19, 0x80000)]

/-- Blocks of 64 bytes of the core's own memory: offset in the area and place key. -/
def coreBlocks (core : Nat) : List (Nat × Nat) :=
  ((coreSpans core).map fun q => (List.range (q.2.2 / 64)).map fun i => (q.1 + 64 * i, q.2.1 + 64 * i)).flatten

/-- Places of the blocks in an area: `hold` where one's page migrates, a fault where one has none. -/
def blockPlaces (g : Agent) (m : Memory) (d : Device) (area : Word) (need : BitVec 3) (core : Nat) : Except Grab (List (Nat × Nat)) :=
  (coreBlocks core).mapM fun q =>
    match g.find m d (area + BitVec.ofNat 64 q.1) need .plain with
    | (.place p, _) => .ok (p.key, q.2)
    | (r, _) => .error r

/-- SAVE_CORE (R371 to R374): command `n` reaches its core; once everything can be taken it takes the core, writes the core area, and
holds the core's semaphores in it. -/
def execSaveCore (n : Nat) (s : State) : Out :=
  let w := Work.start s
  match commandReady w.d n true true with
  | none => conclude s s.dev []
  | some c =>
    let core := c.target.1
    if (w.d.partAt c.part).hasCore core = false ∨ (w.d.coreAt core).saved = true then (w.commandDone c 0x81).finish s
    else if c.area.toNat % 2^20 ≠ 0 then (w.commandDone c 0x80).finish s
    else
      let spans := ((coreArea {} core [] fun _ => 0).map fun q => cuts (q.2.length + 1) (c.area + BitVec.ofNat 64 q.1) q.2.length).flatten
      match c.agent.targets w.m spans (s.dev.reach c) [], blockPlaces c.agent w.m w.d c.area needW core with
      | (.error .hold, d0), _ => conclude s (keepAsked (s.dev.reach c) d0) []
      | _, .error .hold => conclude s (s.dev.reach c) []
      | (.ok ts, d0), .ok bs =>
        match takeCore d0 core with
        | none => conclude s (s.dev.reach c) []
        | some (d1, xs, k) =>
          let parts := coreArea k core xs (stateCode w.d core)
          let key := match c.agent.find w.m d1 c.area needW .plain with
            | (.place p, _) => p.key
            | _ => 0
          let w1 := ({ w with d := d1 } : Work).engineSpan c.agent ts (parts.map Prod.snd).flatten
          let w2 := bs.foldl (fun (w : Work) q => w.edit (copySpan w.m q.2 q.1 64) []) w1
          let w3 := w2.on fun d =>
            { (d.onCore core fun k => { k with semImage := some key }).writeBackAll core with
              saved := d.saved ++ [{ area := key, core := core, slot := 0, whole := true, ctx := none, unit := some k, ctxs := xs
                                     addr := c.area, vf := c.vf, part := c.part }] }
          (w3.commandDone c 1).finish s
      | _, _ => (w.commandDone c 0x80).finish s

/-- The spill-ring entries of a saved core that are not in its area yet are written there, once their places can be (R372, R373). -/
def Work.spillOut (w : Work) (v : Saved) : Work :=
  let k := w.d.coreAt v.core
  if !v.whole || v.addr = 0 || !k.saved || k.spill.length ≤ k.spilt then w
  else
    let g : Agent := { core := v.core, part := v.part, vf := v.vf, via := v.core }
    let parts := ((k.spill.zipIdx.drop k.spilt).map fun q => Spill.area k.spill q.2 q.1).flatten
    let spans := (parts.map fun q => cuts (q.2.length + 1) (v.addr + BitVec.ofNat 64 q.1) q.2.length).flatten
    match g.targets w.m spans w.d [] with
    | (.ok ts, d) => (({ w with d := d } : Work).engineSpan g ts (parts.map Prod.snd).flatten).on fun d => d.onCore v.core fun k => { k with spilt := k.spill.length }
    | (.error .hold, d) => w.on fun d0 => keepAsked d0 d
    | _ => w

/-- Delivers the transfers that the spill ring caught, in ring order (R372). -/
def deliverSpills (now : Nat) (k : Core) : Core :=
  k.spill.foldl (fun (k : Core) q => match q with
    | .transfer slot tag bits scales poison fault => k.receiveOperand now slot tag bits scales poison fault
    | .deposit r => { k with waiting := k.waiting ++ [r] }) { k with spill := [], spilt := 0 }

/-- What stays of a core while another takes its place: its clock and caches, its fence, and the writes it has sent (R32, R34,
R73, R242, R259). -/
def Core.underneath (u here : Core) : Core :=
  { u with
    cyc := here.cyc
    cycles := here.cycles
    begun := here.begun
    halted := here.halted
    haltAt := here.haltAt
    runSince := here.runSince
    dueNow := here.dueNow
    lastDeposit := here.lastDeposit
    woke := here.woke
    used := here.used
    inbound := here.inbound
    fenced := here.fenced
    sent := here.sent
    got := here.got
    icache := here.icache
    stale := here.stale
    l1 := here.l1 }

/-- A number of n bytes that an area holds at an offset. -/
def areaNat (ws : List Word) (off n : Nat) : Nat :=
  ((List.range (n / 8)).map fun i => (ws.getD (off / 8 + i) 0).toNat * 2^(64 * i)).sum

/-- Dwords of a context's area within a core area (R373). -/
def contextDwords (ws : List Word) (slot : Nat) : List Word := (ws.drop ((0x1000 + 0x2800 * slot) / 8)).take 1280

/-- A core with the registers, operands, accumulators, array queue, buffers, scratch, spilled arrivals and work list that a core area
holds (R371 to R373). -/
def Core.reload (ws : List Word) (k : Core) : Core :=
  let w (off : Nat) : Word := ws.getD (off / 8) 0
  let queue := (List.range (min 8 ((w 0x28).toNat % 16))).filterMap fun i => ArrayEntry.from_ (w (0x40 + 8 * i)) k.arrayQ[i]?
  { k with
    redCtr := BitVec.ofNat 32 ((w 0x8).toNat / 2^32)
    rres := w 0x10
    rresSeq := BitVec.ofNat 32 ((w 0x18).toNat / 2^32)
    rresTaken := !(w 0x18).getLsbD 0
    spcfg := (w 0x20).setWidth 13
    arrayQ := match queue with
      | e :: rest => { e with groups := (w 0x28).toNat / 2^8 % 16, begun := e.begun || decide ((w 0x28).toNat / 2^8 % 16 ≠ 0) } :: rest
      | [] => []
    sems := (List.range 64).map fun i => BitVec.ofNat 32 ((w (0x800 + 4 * i)).toNat / 2^(32 * (i % 2)))
    bufs := k.bufs.zipIdx.map fun q => q.1.map (CircBuf.from_ (w (0x100 + 8 * q.2)))
    spill := k.spill.zipIdx.map fun q => q.1.from_ ws q.2 ((k.spill.take q.2).filter Spill.isTransfer).length
    opSlots := k.opSlots.zipIdx.map fun q =>
      { (OpSlot.from_ (w (0x80 + 8 * q.2)) k.opSlots q.1) with
        bits := BitVec.ofNat 65536 (areaNat ws (0x30000 + 9216 * q.2) 8192)
        scales := BitVec.ofNat 2048 (areaNat ws (0x30000 + 9216 * q.2 + 8192) 256) }
    acc := (List.range 256).filterMap fun r =>
      let x := BitVec.ofNat 2048 (areaNat ws (0x60000 + 256 * r) 256)
      if x = 0 then none else some (r, x)
    scratch := (List.range 4096).filterMap fun i =>
      let x := BitVec.ofNat 32 ((w (0x70000 + 4 * i)).toNat / 2^(32 * (i % 2)))
      if x = 0 then none else some (i, x)
    workList := (List.range (min 64 (w 0x74200).toNat)).map fun i => w (0x74000 + 8 * i) }

/-- Accesses of other cores that waited for a saved core's ports are not bound any more by the waits that its restore ends in time
(R38, R371). -/
def freePorts (d : Device) (core : Nat) : Device :=
  { d with accesses := d.accesses.map fun a =>
      let bounded := match a.kind with
        | .ldf _ _ => true
        | .stf e => e
        | _ => false
      if !bounded && a.expiry.isSome && !a.late d.wall && a.pieces.any (fun p => !p.done && p.port.ownCore == some core) then { a with expiry := none } else a }

/-- Puts a saved core back (R371): its transfers are delivered, its contexts reloaded, its array goes on at group P. `f` takes
over what its area holds. -/
def putCore (d : Device) (v : Saved) (f : Core → Core) : Device :=
  match v.unit with
  | none => d
  | some u =>
    let here := d.coreAt v.core
    let u1 := { u.underneath here with
      overdue := []
      saved := false
      semImage := none
      opSlots := if here.saved then here.opSlots else u.opSlots
      spill := if here.saved then here.spill else u.spill }
    let u2 := v.ctxs.foldl (fun (k : Core) q => k.setCtx q.1 (some q.2.1)) (deliverSpills d.now (f u1))
    let d1 := { (freePorts d v.core).setCore v.core u2 with saved := d.saved.erase v }
    noteOverdue (v.ctxs.foldl (fun d q => resume d v.core q.1 q.2.2 none) d1) v.core fun _ => true

/-- What a core area alone says of a core: the device keeps no record beside it. -/
def areaCore (d : Device) (c : Command) (core key : Nat) : Saved :=
  { area := key, core := core, slot := 0, whole := true, ctx := none, unit := some (d.coreAt core), part := c.part, addr := c.area, vf := c.vf }

/-- The contexts that a core area holds (R369, R373): those whose state code is not that of an empty slot. -/
def areaContexts (d : Device) (c : Command) (core : Nat) (ws : List Word) (v : Saved) : List (Nat × Context × Option (Nat × BitVec 8)) :=
  (List.range 16).filterMap fun i =>
    let cs := contextDwords ws i
    if (cs.getD 4 0).toNat % 8 = 0 then none
    else
      let old := (v.ctxs.find? fun q => q.1 == i).map Prod.snd
      some (i, contextFrom cs ((old.map Prod.fst).getD (areaContext d c core cs)), areaExpiry cs (old.bind Prod.snd))

/-- RESTORE_CORE (R366, R371, R374): command `n` reads its area and puts the core back; a poisoned word of the area is a fault while it
is read. Not while the core's clock is halted (R40). -/
def execRestoreCore (n : Nat) (s : State) : Out :=
  let w := Work.start s
  match commandReady w.d n false true with
  | none => conclude s s.dev []
  | some c =>
    let core := c.target.1
    let k := w.d.coreAt core
    if (w.d.partAt c.part).hasCore core = false ∨ (k.slots.any Option.isSome) = true then (w.commandDone c 0x81).finish s
    else if c.area.toNat % 2^20 ≠ 0 then (w.commandDone c 0x80).finish s
    else if k.halted then conclude s s.dev []
    else
      match c.agent.read w.m w.d c.area 0xC4000 .plain, blockPlaces c.agent w.m w.d c.area needR core with
      | (.hold, d1), _ => conclude s (keepAsked s.dev d1) []
      | _, .error .hold => conclude s s.dev []
      | (.bytes bs, _), .ok blocks =>
        let ws := dwordsFrom bs
        let key := match c.agent.find w.m w.d c.area needR .plain with
          | (.place p, _) => p.key
          | _ => 0
        if (ws.getD 1 0).toNat % 2^18 / 16 ≠ core then (w.commandDone c 0x82).finish s
        else if blocks.any fun q => (wordsOf q.1 64).any w.m.poisoned.contains then (w.commandDone c 0x80).finish s
        else
          let old := w.d.saved.find? fun v => v.whole && v.core == core && v.area == key
          let v := old.getD (areaCore w.d c core key)
          let v1 := { v with ctxs := areaContexts w.d c core ws v }
          let w1 := blocks.foldl (fun (w : Work) q => w.edit (copySpan w.m q.1 q.2 64) (wordsOf q.2 64)) w
          let w2 := w1.on fun d =>
            v1.ctxs.foldl (fun d q => tagTrap d core q.1 (contextDwords ws q.1))
              (putCore { d with saved := v1 :: d.saved.filter fun u => some u != old } v1 (Core.reload ws))
          (w2.commandDone c 1).finish s
      | _, _ => (w.commandDone c 0x80).finish s

end Sys2Proof.Machine
end

