-- ==== Sys2Proof/Machine/Loader.lean ====
section
/-! DEFINITION. The Glojan object format (R102) and the launch image formed from it (R103, R345). -/
namespace Sys2Proof.Machine

/-- What reading a GOF file gives: its part and what was asked of the host, a refusal's CAUSE, or a read that must wait. -/
inductive Load (α : Type) where
  | ok (x : α) (d : Device)
  | refuse (cause : Nat)
  | hold (d : Device)

/-- One reading after another. -/
def Load.andThen {α β : Type} (l : Load α) (f : α → Device → Load β) : Load β :=
  match l with
  | .ok x d => f x d
  | .refuse c => .refuse c
  | .hold d => .hold d

/-- A value, or CAUSE 1. -/
def Load.sure {α : Type} (x : Option α) (d : Device) : Load α :=
  match x with
  | some y => .ok y d
  | none => .refuse 1

/-- Whether every page of a file is mapped, over a number of pages from an address: the first that is not lies past the file's end. -/
def fileMapped (g : Agent) (m : Memory) (d : Device) : Nat → Word → Bool
  | 0, _ => true
  | n + 1, a => (match walk m d g.part g.vf a with
      | .fault _ => false
      | _ => true) && fileMapped g m d n (a + 65536)

/-- n bytes of a file at an offset: a file lies at rising addresses of translated memory, whole, and one that cannot be read, or whose
offset runs past its end, is malformed (R102). -/
def fileBytes (g : Agent) (m : Memory) (file : Word) (off n : Nat) (d : Device) : Load (List Byte) :=
  let end_ := file.toNat % 2^57 % 2^56 + off + n
  if 2^56 < end_ ∨ isWindow file = true ∨ fileMapped g m d ((file.toNat % 65536 + off + n + 65535) / 65536) (file &&& ~~~0xFFFF) = false then .refuse 1
  else
    match g.read m d (file + BitVec.ofNat 64 off) n .plain with
    | (.bytes bs, d1) => .ok bs d1
    | (.hold, d1) => .hold (keepAsked d d1)
    | _ => .refuse 1

/-- A little-endian field of a byte string. -/
def le (bs : List Byte) (off n : Nat) : Nat := bytesNat ((bs.drop off).take n)

/-- A section with its contents and, once placed, its address (R102). -/
structure GofSection where
  kind : Nat
  align : Nat
  size : Nat
  bytes : List Byte
  /-- The reserved field of its entry, and the offset of its name. -/
  mark : Nat := 0
  name : Nat := 0
  addr : Nat := 0
  deriving DecidableEq, Repr

/-- A relocation entry (R102). -/
structure GofReloc where
  sec : Nat
  type : Nat
  sym : Nat
  off : Nat
  addend : Nat
  deriving DecidableEq, Repr

/-- The launch record (R101, R102), with the entry's address. -/
structure GofLaunch where
  entry : Word
  gCount : Nat
  vCount : Nat
  priv : Bool
  interval : Nat
  blocks : Nat
  deriving DecidableEq, Repr

/-- A linked file, placed and relocated. -/
structure Gof where
  sections : List GofSection
  launch : GofLaunch
  groups : List Group
  tensors : List (List Word)
  sems : List (Nat × BitVec 32)
  bufs : List (Nat × CircBuf)
  deriving DecidableEq, Repr

/-- The file's sections in table order. A kind that R102 does not list makes the file malformed: what a loader does with it is
open (assumption 92, DESIGN CHOICE). -/
def readSections (g : Agent) (m : Memory) (file : Word) : List Nat → List GofSection → Device → Load (List GofSection)
  | [], acc, d => .ok acc d
  | at_ :: rest, acc, d =>
    (fileBytes g m file at_ 32 d).andThen fun t d =>
      let kind := le t 4 2
      if kind = 0 ∨ 5 < kind then .refuse 1
      else
        (fileBytes g m file (le t 16 8) (le t 8 8) d).andThen fun bs d =>
          readSections g m file rest 
            (acc ++ [{ kind := kind, align := 2^(le t 6 2), size := le t 8 8, bytes := bs, mark := le t 24 8, name := le t 0 4 }]) d

/-- The file's records, each with its kind. -/
def readRecords (g : Agent) (m : Memory) (file : Word) : Nat → Nat → List (Nat × List Byte) → Device → Load (List (Nat × List Byte))
  | 0, _, acc, d => .ok acc d
  | n + 1, at_, acc, d =>
    (fileBytes g m file at_ 4 d).andThen fun h d =>
      let len := le h 2 2
      if len < 4 then .refuse 1
      else (fileBytes g m file at_ len d).andThen fun bs d => readRecords g m file n (at_ + len) (acc ++ [(le h 0 2, bs)]) d

/-- Places the sections of a kind one after another from a base, and gives the end. -/
def placeKind (kind base : Nat) (l : List GofSection) : List GofSection × Nat :=
  l.foldl (fun (acc : List GofSection × Nat) q =>
    if q.kind = kind then
      let a := (acc.2 + q.align - 1) / q.align * q.align
      (acc.1 ++ [{ q with addr := a }], a + q.size)
    else (acc.1 ++ [q], acc.2)) ([], base)

/-- First address of an on-chip window that a section kind fills. -/
def windowBase (kind : Nat) : Nat := (0xFE00 + (kind - 3)) * 2^48

/-- Places every section (R103 step 1, R97). Where .text ends on a 64 KiB boundary, .data begins there (assumption 110, DESIGN CHOICE). -/
def placeAll (loadBase : Nat) (l : List GofSection) : List GofSection :=
  let (l1, textEnd) := placeKind 1 loadBase l
  let (l2, _) := placeKind 2 ((textEnd + 65535) / 65536 * 65536) l1
  [3, 4, 5].foldl (fun l k => (placeKind k (windowBase k) l).1) l2

/-- Address of a symbol: absolute, or its offset in a section. -/
def symbolAddr (l : List GofSection) (syms : List Byte) (i : Nat) : Option Nat :=
  let e := (syms.drop (24 * i)).take 24
  if e.length < 24 then none
  else
    let sec := le e 4 2
    if sec = 0 then some (le e 16 8) else (l[sec - 1]?).map fun q => q.addr + le e 16 8

/-- hi(x) (R95). -/
def hiPart (x : Int) : Int := (x + 512) / 1024

/-- A value that fits a signed field, as its bits. -/
def fitField (x : Int) (n : Nat) : Option Nat :=
  if -(2 : Int)^(n - 1) ≤ x ∧ x < (2 : Int)^(n - 1) then some (x % (2 : Int)^n).toNat else none

/-- A halved offset, or none where it is odd. -/
def halved (x : Int) : Option Int := if x % 2 = 0 then some (x / 2) else none

/-- Replaces a field of a word. -/
def putField (w lo n v : Nat) : Nat := w - w / 2^lo % 2^n * 2^lo + v * 2^lo

/-- Replaces n bytes of a string at an offset. -/
def putBytes (bs : List Byte) (off n x : Nat) : List Byte :=
  bs.take off ++ ((List.range n).map fun i => BitVec.ofNat 8 (x / 256^i)) ++ bs.drop (off + n)

/-- The sign-extension of the low n bits of a number. -/
def signed (x n : Nat) : Int := (BitVec.ofNat n x).toInt

/-- Applies one relocation; none stops the link (R102). The low 32 bits of a PCLO10 addend, which hold A, are read as a signed
number, as an addend is: R102 does not say (assumption 91, DESIGN CHOICE). -/
def relocate (l : List GofSection) (syms : List Byte) (r : GofReloc) : Option (List GofSection) :=
  match (if r.sec = 0 then none else l[r.sec - 1]?), symbolAddr l syms r.sym with
  | some q, some s =>
    let width := if r.type = 1 then 8 else 4
    if q.size < r.off + width then none
    else
      let w := le q.bytes r.off width
      let p : Int := q.addr + r.off
      let x := signed (s + (if r.type = 6 then 0 else r.addend)) 64
      let far : Int := signed (s + 2^64 - (q.addr + r.off) % 2^64 + r.addend) 64
      let value : Option Nat :=
        match r.type with
        | 1 => some ((s + r.addend) % 2^64)
        | 2 => if 0 ≤ x ∧ x < 2^32 then some x.toNat else none
        | 3 => (fitField (hiPart x) 18).map fun v => putField w 14 18 v
        | 4 => (fitField (x - 1024 * hiPart x) 10).map fun v => putField w 21 10 v
        | 5 => (fitField (hiPart far) 18).map fun v => putField w 14 18 v
        | 6 =>
          let at_ := r.addend / 2^32
          let h := signed (le q.bytes at_ 4 / 2^14) 18
          let y := signed (s + 2^64 - (q.addr + at_) % 2^64 + (BitVec.ofNat 64 (signed (r.addend % 2^32) 32 % (2 : Int)^64).toNat).toNat) 64
          if q.size < at_ + 4 then none else (fitField (y - 1024 * h) 10).map fun v => putField w 21 10 v
        | 7 => ((halved far).bind fun v => fitField v 11).map fun v => putField w 21 11 v
        | 8 => ((halved far).bind fun v => fitField v 18).map fun v => putField w 14 18 v
        | _ => none
      if p < 0 then none
      else value.map fun v => l.set (r.sec - 1) { q with bytes := putBytes q.bytes r.off width v }
  | _, _ => none

/-- Applies the relocations, those that read a relocated AUIPC last. -/
def relocateAll (l : List GofSection) (syms : List Byte) (rs : List GofReloc) : Option (List GofSection) :=
  ((rs.filter fun r => r.type != 6) ++ rs.filter fun r => r.type == 6).foldlM (fun l r => relocate l syms r) l

/-- The launch record of a file; none where it is malformed. -/
def launchRecord (l : List GofSection) (syms : List Byte) (bs : List Byte) : Option GofLaunch :=
  (symbolAddr l syms (le bs 4 4)).bind fun e =>
    let g := le bs 8 1
    let v := le bs 9 1
    let p := le bs 10 1
    let i := le bs 11 1
    let b := le bs 12 2
    if g < 8 ∨ 128 < g ∨ g % 8 ≠ 0 ∨ 64 < v ∨ v % 4 ≠ 0 ∨ 1 < p ∨ i = 0 ∨ 64 < i ∨ b = 0 ∨ 128 < b then none
    else some ⟨BitVec.ofNat 64 e, g, v, p == 1, i, b⟩

/-- A group table that R300 allows: no id twice, and no TID in more than four groups. -/
def groupsLegal (gs : List Group) : Bool :=
  decide ((gs.map Group.id).Nodup) && gs.all fun g => g.members.all fun t => decide ((gs.filter fun h => h.members.contains t).length ≤ 4)

/-- The records of a file beside its launch record. A kind that R102 does not list makes the file malformed: what a loader does
with it is open (assumption 92, DESIGN CHOICE). -/
def fileRecords (l : List GofSection) (syms : List Byte) (start : GofLaunch) (rs : List (Nat × List Byte)) : Option Gof :=
  rs.foldlM (fun (f : Gof) r =>
    let bs := r.2
    match r.1 with
    | 1 => some f
    | 2 =>
      let id := le bs 4 1
      let ms := (List.range (le bs 5 1)).map fun i => (BitVec.ofNat 32 (le bs (8 + 4 * i) 4) : BitVec 32)
      if id = 255 ∨ bs.length < 8 + 4 * ms.length then none else some { f with groups := f.groups ++ [{ id := id, members := ms }] }
    | 3 =>
      (symbolAddr l syms (le bs 4 4)).map fun b =>
        { f with tensors := f.tensors ++ [[BitVec.ofNat 64 b, BitVec.ofNat 64 (le bs 12 1 * 2^32 + le bs 8 4), BitVec.ofNat 64 (le bs 20 4 * 2^32 + le bs 16 4), 0]] }
    | 4 => if 64 ≤ le bs 4 1 then none else some { f with sems := f.sems ++ [(le bs 4 1, BitVec.ofNat 32 (le bs 8 4))] }
    | 5 =>
      let e := le bs 6 2
      let n := le bs 8 4
      if 8 ≤ le bs 4 1 ∨ e < 2 ∨ 256 < e ∨ 2^(e.log2) ≠ e ∨ n = 0 ∨ n % 64 ≠ 0 then none
      else some { f with bufs := f.bufs ++ [(le bs 4 1, { base := BitVec.ofNat 64 (le bs 12 8), entries := e, bytes := n })] }
    | _ => none) ⟨l, start, [], [], [], []⟩

/-- Reads, places and relocates the file that a packet names; anything malformed is CAUSE 1. -/
def readGof (g : Agent) (m : Memory) (file : Word) (loadBase : Nat) (d : Device) : Load Gof :=
  (fileBytes g m file 0 64 d).andThen fun h d =>
    if le h 0 4 ≠ 0x01464F47 ∨ le h 4 4 ≠ 1 then .refuse 1
    else
      (readSections g m file ((List.range (le h 12 4)).map fun i => le h 8 4 + 32 * i) [] d).andThen fun secs d =>
        (fileBytes g m file (le h 16 4) (24 * le h 20 4) d).andThen fun syms d =>
          (fileBytes g m file (le h 24 4) (24 * le h 28 4) d).andThen fun rel d =>
            (fileBytes g m file (le h 40 4) (le h 44 4) d).andThen fun _ d =>
            (readRecords g m file (le h 36 4) (le h 32 4) [] d).andThen fun recs d =>
              let rs := (List.range (le h 28 4)).map fun i =>
                let e := (rel.drop (24 * i)).take 24
                (⟨le e 0 2, le e 2 2, le e 4 4, le e 8 8, le e 16 8⟩ : GofReloc)
              let placed := placeAll loadBase secs
              let starts := recs.filter fun r => r.1 == 1
              let named (n : Nat) : Bool := n == 0 || decide (n < le h 44 4)
              if starts.length ≠ 1 ∨ (placed.any fun q => q.kind == 3 && decide (windowBase 3 + 0x40000 < q.addr + q.size)) = true ∨
                  (placed.any fun q => q.kind == 4 && decide (windowBase 4 + 0x100000 < q.addr + q.size)) = true ∨
                  (placed.any fun q => decide (q.bytes.length ≠ q.size) || !named q.name) = true ∨
                  ((List.range (le h 20 4)).all fun i => named (le syms (24 * i) 4)) = false then .refuse 1
              else
                .sure ((relocateAll placed syms rs).bind fun l =>
                  ((starts.head?).bind fun r => launchRecord l syms r.2).bind fun q =>
                    (fileRecords l syms q recs).filter fun f => groupsLegal f.groups) d

/-- The pages of a section. -/
def GofSection.pages (q : GofSection) : List Word :=
  if q.size = 0 then [] else (List.range ((q.addr + q.size - 1) / 65536 - q.addr / 65536 + 1)).map fun i => BitVec.ofNat 64 ((q.addr / 65536 + i) * 65536)

/-- Whether the word at an address of a placed section is one that stays empty (R97, R103; assumption 57): it lies whole in the
section, the file holds zero there, and the file marks it. -/
def GofSection.emptyWord (q : GofSection) (a : Nat) : Bool :=
  a % 8 == 0 && decide (q.addr ≤ a ∧ a + 8 ≤ q.addr + q.size) && le q.bytes (a - q.addr) 8 == 0 && Config.fillEmpty q.mark (a - q.addr)

/-- The words that stay empty among n bytes of a section from an address, written at a place. -/
def GofSection.hollow (q : GofSection) (a key n : Nat) : List Edit :=
  (List.range n).filterMap fun i => if q.emptyWord (a + i) then some (.full ((key + i) / 8) false) else none

/-- Whether the load region's pages are mapped as R103 requires. -/
def loadable (m : Memory) (d : Device) (part vf : Nat) (f : Gof) : Bool :=
  f.sections.all fun q =>
    if 2 < q.kind then true
    else q.pages.all fun a => canonical a && match walk m d part vf a with
      | .leaf _ e _ => if q.kind = 1 then eBit e 1 && eBit e 3 && !eBit e 2 else eBit e 1 && eBit e 2
      | _ => false

/-- Places of the image's translated sections, whatever their permissions: none where one cannot be written now. -/
def loadPlaces (g : Agent) (m : Memory) : List (Word × Nat) → Device → List (Place × Nat) → Load (List (Place × Nat))
  | [], d, acc => .ok acc d
  | (a, n) :: rest, d, acc =>
    match g.find m d a needR .plain with
    | (.place p, d1) =>
      let (ok, d2) := writeReady d1 g p
      if ok then loadPlaces g m rest d2 (acc ++ [(p, n)]) else .hold (keepAsked d d2)
    | (.hold, d1) => .hold (keepAsked d d1)
    | _ => .refuse 8

/-- Cuts a byte string into runs that end at multiples of `step` of its offset; `fuel` bounds them. -/
def runsOf (step : Nat) : Nat → Nat → List Byte → List (Nat × List Byte)
  | 0, _, _ => []
  | fuel + 1, off, bs =>
    if bs.isEmpty then []
    else
      let n := step - off % step
      (off, bs.take n) :: runsOf step fuel (off + n) (bs.drop n)

/-- Writes a run of a section's bytes at a place: full, but for the words that stay empty (R103 step 3). -/
def Work.placeRun (w : Work) (q : GofSection) (key : Nat) (r : Nat × List Byte) : Work :=
  (w.engine key r.2).edit (q.hollow (windowBase q.kind + r.1) key r.2.length) []

/-- Writes a section of an on-chip window on the launch's cores, clusters or dies (R103 step 3). -/
def Work.placeChip (w : Work) (part : Nat) (cores : List Nat) (q : GofSection) : Work :=
  let off := q.addr - windowBase q.kind
  match q.kind with
  | 3 => cores.foldl (fun (w : Work) c => w.placeRun q (Config.scratchpadBase + c * 2^19 + off) (off, q.bytes)) w
  | 4 =>
    (cores.filter fun c => c % 4 == 0).foldl (fun (w : Work) c =>
      (runsOf 256 (q.size + 1) off q.bytes).foldl (fun (w : Work) r => w.placeRun q (sharedPlace c r.1).key r) w) w
  | _ =>
    ((List.range 8).filter fun die => cores.any fun c => dieOfCore c == die).foldl (fun (w : Work) die =>
      (runsOf 1024 (q.size + 1) off q.bytes).foldl (fun (w : Work) r =>
        match dieScratchPlace (w.d.partAt part) die r.1 with
        | some p => w.placeRun q p.key r
        | none => w) w) w

/-- Whether the `.dscr` image fits the die scratch of every die of the launch. -/
def dieScratchFits (p : Partition) (cores : List Nat) (f : Gof) : Bool :=
  f.sections.all fun q => q.kind != 5 || (List.range 8).all fun die =>
    !(cores.any fun c => dieOfCore c == die) || decide (q.addr - windowBase 5 + q.size ≤ p.granulesOn die * 65536 * (p.slices die).length)

/-- A core as the loader sets it (R103 steps 4 and 6): semaphores keep what no record sets. -/
def loadedCore (k : Core) (n : Nat) (l : Launch) (vf : Nat) (f : Gof) : Core :=
  let tid : BitVec 32 := BitVec.ofNat 32 (16 * n)
  let x := freshContext tid l.id l.part vf f.launch.priv (l.groupsOf tid) 0 f.launch.gCount 0 f.launch.vCount f.launch.entry
  let fresh : Core :=
    { ({} : Core).underneath k with
      -- R103: the image's writes happen before the first instruction is fetched
      icache := []
      stale := []
      waiting := k.waiting
      spill := k.spill
      sems := f.sems.foldl (fun l q => l.set q.1 q.2) k.sems
      bufs := f.bufs.foldl (fun l q => l.set q.1 (some q.2)) (List.replicate 8 none)
      launch := l.id
      part := l.part }
  fresh.setCtx 0 (some x)

/-- Registers the file's tensor records in order; none where TDREG would refuse one (CAUSE 5). -/
def registerAll (m : Memory) (d : Device) (part vf launch : Nat) (ts : List (List Word)) : Option Device :=
  ts.foldlM (fun d ws =>
    match registerTensor m d part vf launch ws with
    | (0, d1) => some d1
    | _ => none) d

/-- Frames of the file's tensors. -/
def tensorFrames (m : Memory) (d : Device) (part vf : Nat) (ts : List (List Word)) : List Nat :=
  (ts.map fun ws => match tensorRecord ws vf 0 with
    | some (_, some t) => t.pages.filterMap fun a => ordinaryFrame m d part vf a
    | _ => []).flatten

/-- Forms the image and spawns every context zero (R103), for a launch whose checks have passed. -/
def Work.load (w : Work) (g : Agent) (l : Launch) (f : Gof) : Load Work :=
  let d := w.d
  let p := d.partAt l.part
  let linear := f.sections.filter fun q => q.kind ≤ 2
  let frames := tensorFrames w.m d l.part l.vf f.tensors
  match registerAll w.m d l.part l.vf l.id f.tensors with
  | none => .refuse 5
  | some d1 =>
    if !dieScratchFits p l.cores f then .refuse 4
    else if (frames.any fun q => busyFrame d q 65536) || l.cores.any fun c => (d.coreAt c).reductions.any fun r => !r.held then .hold d
    else if frames.any fun q => !(heldLines d q 65536).isEmpty then .hold (frames.foldl (fun d q => recallFrame d q 65536) d)
    else
      -- the image is written through the mapping as it stood before the tensors
      let units := (linear.map fun q => (cuts (q.size + 1) (BitVec.ofNat 64 q.addr) q.size).map fun c => (q, c)).flatten
      (loadPlaces g w.m (units.map Prod.snd) d []).andThen fun ts d2 =>
        let w0 := (w.on fun _ => { d2 with parts := d1.parts }).engineSpan g ts (linear.map GofSection.bytes).flatten
        let w1 := w0.edit ((units.zip ts).map fun u => u.1.1.hollow u.1.2.1.toNat u.2.1.key u.2.2).flatten []
        let w2 := (f.sections.filter fun q => 2 < q.kind).foldl (fun (w : Work) q => w.placeChip l.part l.cores q) w1
        let w3 := w2.on fun d => l.cores.foldl (fun d c => d.onCore c fun k => loadedCore k (l.coreNumber c) { l with groups := f.groups } l.vf f) d
        .ok (w3.on fun d => { d with launches := d.launches ++ [{ l with groups := f.groups }] }) d

end Sys2Proof.Machine
end

