-- ==== Sys2Proof/Machine/Launch.lean ====
section
/-! DEFINITION. The dispatcher (R341 to R347): taking queue heads, pre-empting and restoring launches whole, refusals,
ends, reaps and completion records. -/
namespace Sys2Proof.Machine

/-- What the dispatcher may start next: a queue's head, or a launch it pre-empted (R343, R344). -/
inductive Candidate where
  | head (q : QueuedLaunch)
  | back (l : Launch)
  deriving DecidableEq, Repr

/-- Field blocks of a partition in ascending package number. -/
def Partition.ordered (p : Partition) : List Nat := sortBy (fun a b => decide (a ≤ b)) p.blocks

/-- Field-block mask of a launch packet (R342). -/
def maskOf (ws : List Word) : Nat := (ws.getD 2 0).toNat + 2^64 * (ws.getD 3 0).toNat

/-- Field blocks that a mask names. -/
def maskBlocks (p : Partition) (mask : Nat) : List Nat :=
  (p.ordered.zipIdx.filter fun q => mask.testBit q.2).map Prod.fst

/-- The order of R343: highest PRIO, earliest notification, lower VFID. -/
def Candidate.rank : Candidate → Nat × Nat × Nat
  | .head q => (7 - field (q.words.getD 0 0) 32 3, q.at_, q.vf)
  | .back l => (7 - l.prio, l.at_, l.vf)

/-- One candidate before another. -/
def Candidate.before (a b : Candidate) : Bool :=
  let x := a.rank
  let y := b.rank
  decide (x.1 < y.1) || (x.1 == y.1 && (decide (x.2.1 < y.2.1) || (x.2.1 == y.2.1 && decide (x.2.2 ≤ y.2.2))))

/-- Field blocks that a candidate needs. -/
def Candidate.blocks (p : Partition) : Candidate → List Nat
  | .head q => maskBlocks p (maskOf q.words)
  | .back l => p.blocks.filter fun b => (blockCores b).any fun c => l.cores.contains c

/-- Heads of a partition's queues, and its pre-empted launches, in the dispatcher's order. -/
def candidates (d : Device) (part : Nat) : List Candidate :=
  let p := d.partAt part
  let heads := p.queued.filter fun q => !p.queued.any fun r => r.vf == q.vf && r.queue == q.queue && decide (r.index < q.index)
  sortBy Candidate.before ((heads.map .head) ++ ((d.launches.filter fun l => l.part == part && l.preempted && l.ended.isNone).map .back))

/-- The record of a core that the dispatcher took from a launch (R344). -/
def takenFrom (d : Device) (l : Launch) (core : Nat) : Option Saved :=
  d.saved.find? fun v => v.whole && v.area == 0 && v.launch == l.id && v.part == l.part && v.core == core

/-- Whether a launch still has a core. -/
def Launch.has (l : Launch) (d : Device) (core : Nat) : Bool := l.cores.contains core && (takenFrom d l core).isNone

/-- Launches that have a core of the blocks. -/
def holders (d : Device) (blocks : List Nat) : List Launch :=
  d.launches.filter fun l => (blocks.map blockCores).flatten.any fun c => l.has d c

/-- Whether nothing from outside is on its way to a core, so that what it holds can be set aside (R371 step 2, R374): a packet that has not
started stays in its queue until the launch is back. -/
def quiet (d : Device) (core : Nat) : Bool :=
  !coreBusy d core && !d.messages.any (fun m => m.to_ == core) && !d.signals.any (fun q => q.core == core) &&
  !d.packets.any (fun p => p.started && targetOf (p.words.getD 0 0) == core) && !d.shipments.any (fun q => q.from_ == core || q.to_ == core) &&
  !d.commands.any (fun c => c.core == core) &&
  !d.landings.any fun l => l.core == core || (match l.reserved with
    | some (c, _, _, _) => c == core
    | none => false)

/-- A core that keeps only its clock, and its fence. -/
def Core.bare (k : Core) : Core :=
  { ({} : Core).underneath k with part := k.part }

/-- What a taken core holds, with its own memory (R373). -/
def asideRecord (m : Memory) (d : Device) (v : Saved) : Saved :=
  let mine (k : Nat) : Bool := (coreSpans v.core).any fun q => decide (q.2.1 ≤ k ∧ k < q.2.1 + q.2.2)
  { v with
    aside := true
    unit := some (d.coreAt v.core)
    cells := m.cells.filter (fun c => mine c.1)
    empties := m.empties.filter (fun w => mine (8 * w))
    poisoned := m.poisoned.filter (fun w => mine (8 * w)) }

/-- Sets aside what a taken core holds. -/
def setAside (m : Memory) (d : Device) (v : Saved) : Device :=
  let v1 := asideRecord m d v
  { d.onCore v.core Core.bare with saved := d.saved.map fun u => if u = v then v1 else u }

/-- Cores that are taken but not set aside, of other launches than l. -/
def standingAside (d : Device) (cores : List Nat) (id : Nat) (part : Nat) : List Saved :=
  d.saved.filter fun v => v.whole && v.area == 0 && !v.aside && cores.contains v.core && !(v.launch == id && v.part == part)

/-- One core of a pre-empted launch comes back (R344, R371). -/
def Work.bringBack (w : Work) (v : Saved) : Work :=
  let w1 := if v.aside then
      let es := ((coreSpans v.core).map fun q => Edit.clear (q.2.1 / 8) ((q.2.1 + q.2.2) / 8)) ++ (v.cells.map fun c => .byte c.1 c.2) ++
        (v.empties.map fun k => .full k false) ++ (v.poisoned.map fun k => .poison k true)
      (w.edit es []).on fun d => d.onCore v.core fun k => (v.unit.getD {}).underneath k
    else w
  if v.tied then w1.on fun d => { d with saved := d.saved.filter fun u => u != v }
  else
    w1.on fun d =>
      let here := d.coreAt v.core
      let v1 := { v with unit := some here }
      putCore { d with saved := d.saved.map fun u => if u = v then v1 else u } v1 id

/-- Takes the cores of a launch that can be taken now (R344). -/
def preemptCores (d : Device) (l : Launch) : Device :=
  l.cores.foldl (fun d c =>
    if !l.has d c then d
    else
      let was := (d.coreAt c).saved
      match takeCore d c with
      | none => d
      | some (d1, xs, _) =>
        { (d1.onLaunch l.part l.id fun l => { l with preempted := true }).writeBackAll c with
          saved := d1.saved ++ [{ area := 0, core := c, slot := 0, whole := true, ctx := none, unit := none, tied := was, launch := l.id, part := l.part, ctxs := xs }] }) d

/-- A core through which the dispatcher's requests for a VF go. -/
def dispatchAgent (d : Device) (part vf : Nat) : Agent :=
  let c := ((d.partAt part).ordered.head?.map fun b => (blockCores b).headD 0).getD 0
  { core := c, part := part, vf := vf, via := c }

/-- Writes a completion record and moves RDIDX over every packet of the queue that has ended (R345); none where the slot's
or the header's page migrates. -/
def Work.closePacket (w : Work) (part vf : Nat) (queue : Word) (index : Nat) (slotAddr record : Word) : Option Work :=
  let g := dispatchAgent w.d part vf
  match (g.find w.m w.d (slotAddr + 56) needW .plain).1, (g.find w.m w.d (queue + 8) needW .plain).1 with
  | .hold, _ => none
  | _, .hold => none
  | _, hd =>
    let w1 := (w.dwordAt g (slotAddr + 56) record).on fun d => d.onPart part fun p => { p with finished := p.finished ++ [(vf, queue, index)] }
    match hd with
    | .place p =>
      let done := ((w1.d.partAt part).finished.filter fun q => q.1 == vf && q.2.1 == queue).map fun q => q.2.2
      let r := readOn done done.length (w1.m.word p.key).toNat
      some ((w1.on fun d => d.onPart part fun p =>
        { p with finished := p.finished.filter fun q => !(q.1 == vf && q.2.1 == queue && decide (q.2.2 < r)) }).words p.key [BitVec.ofNat 64 r])
    | _ => some w1

/-- The completion record (R345). -/
def launchRecordWord (id how core cause : Nat) : Word :=
  BitVec.ofNat 64 (id % 2^32 * 2^32 + how * 2^24 + core % 2^16 * 2^8 + cause % 256)

/-- Refuses a head (END 3). -/
def refuseHead (s : State) (part : Nat) (q : QueuedLaunch) (cause : Nat) : Out :=
  match (Work.start s).closePacket part q.vf q.queue q.index q.slotAddr (launchRecordWord 0 3 0 cause) with
  | none => conclude s s.dev []
  | some w => (w.on fun d => d.onPart part fun p => { p with queued := p.queued.erase q }).finish s

/-- A packet whose reserved fields are not zero, or whose VFID is not its queue's (R342). -/
def packetMalformed (q : QueuedLaunch) : Bool :=
  let w0 := q.words.getD 0 0
  decide (field w0 35 13 ≠ 0) || decide (field w0 25 7 ≠ 0) || decide (field w0 9 7 ≠ 0) || decide (field w0 16 9 ≠ q.vf) ||
    decide (field w0 0 8 ≠ 0x10) || q.words.getD 5 0 != 0 || q.words.getD 6 0 != 0

/-- The partition's firmware function: its lowest VFID (R338). -/
def firmwareVf (d : Device) (part : Nat) : Option Nat :=
  ((d.vfs.filter fun v => v.2.part == some part).map Prod.fst).min?

/-- The first of causes 2, 3, 6, 7 and 8 that refuses a head whose file is well formed (R345). -/
def headCause (m : Memory) (d : Device) (part : Nat) (q : QueuedLaunch) (f : Gof) : Option Nat :=
  let p := d.partAt part
  let mask := maskOf q.words
  let blocks := maskBlocks p mask
  let base := q.words.getD 4 0
  if f.launch.priv ∧ firmwareVf d part ≠ some q.vf then some 2
  else if blocks.length ≠ f.launch.blocks ∨ mask / 2^(p.blocks.length) ≠ 0 then some 3
  else if blocks.any fun b => (blockCores b).any fun c => (d.coreAt c).fenced then some 6
  else if (q.words.getD 0 0).getLsbD 8 ∧ (p.trbase = 0 ∨ p.krbase = 0) then some 7
  else if base.toNat % 65536 ≠ 0 ∨ canonical base = false ∨ loadable m d part q.vf f = false then some 8
  else none

/-- Starts a head whose blocks are free: the checks, then the loader (R103, R345). -/
def startHead (s : State) (part : Nat) (q : QueuedLaunch) (blocks : List Nat) : Out :=
  let w := Work.start s
  let d := s.dev
  let g := dispatchAgent d part q.vf
  if packetMalformed q then refuseHead s part q 1
  else
    match readGof g s.mem (q.words.getD 1 0) (q.words.getD 4 0).toNat d with
    | .hold d1 => conclude s (keepAsked d d1) []
    | .refuse c => refuseHead s part q c
    | .ok f _ =>
      match headCause s.mem d part q f with
      | some c => refuseHead s part q c
      | none =>
        let cores := sortBy (fun a b => decide (a ≤ b)) (blocks.map blockCores).flatten
        let w0 := q.words.getD 0 0
        let id := (d.partAt part).launches + 1
        let l : Launch :=
          { id := id, part := part, vf := q.vf, queue := q.queue, index := q.index, prio := field w0 32 3, at_ := q.at_, slotAddr := q.slotAddr
            trace := w0.getLsbD 8, cores := cores, interval := f.launch.interval, started := d.wall }
        let w1 := w.on fun d => (standingAside d cores 0 64).foldl (setAside s.mem) d
        match w1.load g l f with
        | .refuse c => refuseHead s part q c
        | .hold d1 => conclude s (keepAsked d d1) []
        | .ok w2 _ => (w2.on fun d => d.onPart part fun p => { p with launches := id, queued := p.queued.erase q }).finish s

/-- What the dispatcher does for a candidate that no waiting one stands before; none where it must wait. -/
def attempt (s : State) (part : Nat) (blocks : List Nat) : Candidate → Option Out
  | .head q =>
    let hs := holders s.dev blocks
    let cores := (blocks.map blockCores).flatten
    if hs.isEmpty then
      if (standingAside s.dev cores 0 64).all fun v => quiet s.dev v.core then some (startHead s part q blocks) else none
    else if hs.all fun l => decide (l.prio < field (q.words.getD 0 0) 32 3) && l.ended.isNone then
      let d := hs.foldl preemptCores s.dev
      if d = s.dev then none else some (conclude s d [])
    else none
  | .back l =>
    if (holders s.dev blocks).any (fun h => h.id != l.id) || !(standingAside s.dev l.cores l.id l.part).isEmpty then none
    else
      let w := (s.dev.saved.filter fun v => v.whole && v.area == 0 && v.launch == l.id && v.part == l.part).foldl Work.bringBack (Work.start s)
      some ((w.on fun d => d.onLaunch l.part l.id fun l => { l with preempted := false }).finish s)

/-- The dispatcher's order (R343): a candidate that waits keeps lower ones off the blocks it names. -/
def dispatch (s : State) (part : Nat) : List Candidate → List Nat → Out
  | [], _ => conclude s s.dev []
  | c :: rest, reserved =>
    let need := c.blocks (s.dev.partAt part)
    if need.any reserved.contains then dispatch s part rest (reserved ++ need)
    else
      match attempt s part need c with
      | some o => o
      | none => dispatch s part rest (reserved ++ need)

/-- LAUNCH_START (R343, R344): the dispatcher of a partition starts a head, pre-empts for it, or brings a launch back. -/
def execLaunchStart (part : Nat) (s : State) : Out :=
  if (s.dev.partAt part).holding then conclude s s.dev [] else dispatch s part (candidates s.dev part) []

/-- Context zero of a core of a launch, wherever it is. -/
def contextZero (d : Device) (l : Launch) (core : Nat) : Option Context :=
  let here := (d.ctxAt core 0).bind fun x => if x.launch = l.id ∧ x.part = l.part then some x else none
  let taken := (d.saved.filter fun v => v.whole && v.core == core).findSome? fun v =>
    v.ctxs.findSome? fun q => if q.1 = 0 ∧ q.2.1.launch = l.id ∧ q.2.1.part = l.part then some q.2.1 else none
  let alone := (d.saved.filter fun v => !v.whole && v.core == core && v.slot == 0).findSome? fun v =>
    v.ctx.bind fun x => if x.launch = l.id ∧ x.part = l.part then some x else none
  (here.or taken).or alone

/-- END, CORE and CAUSE of a launch that ends (R345, R346): a context zero stopped by a trap, or every one stopped. -/
def endOf (d : Device) (l : Launch) : Option (Nat × Nat × Nat) :=
  let zeros := l.cores.map fun c => (c, contextZero d l c)
  let trapped := zeros.findSome? fun q => q.2.bind fun x => match x.phase with
    | .stopped how _ cause => if how = 3 then some (1, l.coreNumber q.1, cause.toNat) else none
    | _ => none
  match trapped with
  | some t => some t
  | none =>
    if zeros.all fun q => q.2.all fun x => x.isStopped then some (0, 0, 0) else none

/-- Cores on which contexts of a launch may stand: its own, and those on which a RESTORE has put one (R370). -/
def Launch.places (l : Launch) (d : Device) : List Nat := l.cores ++ (d.cores.map Prod.fst).filter fun c => !l.cores.contains c

/-- The end of a launch (R346): every other context stops as TKILL gives, wherever it stands; what was saved of it comes back stopped, or
is dropped where another launch has the core. -/
def endLaunch (d : Device) (l : Launch) (why : Nat × Nat × Nat) : Device :=
  let d1 := d.onLaunch l.part l.id fun l => { l with ended := some why, preempted := false }
  let mine (v : Saved) : Bool := v.ctxs.any (fun q => q.2.1.launch == l.id && q.2.1.part == l.part) || (v.ctx.any fun x => x.launch == l.id && x.part == l.part) ||
    (v.whole && v.area == 0 && v.launch == l.id && v.part == l.part)
  let d2 := (d1.saved.filter fun v => mine v && v.whole && !v.aside).foldl (fun (d : Device) v =>
    d.onCore v.core fun k => { v.ctxs.foldl (fun (k : Core) q => k.setCtx q.1 (some q.2.1)) k with saved := false }) d1
  let gone := (d2.saved.filter fun v => mine v && v.aside).map Saved.core
  let d3 : Device := { d2 with
    saved := d2.saved.filter fun v => !mine v
    launches := d2.launches.map fun q => if q.id = l.id ∧ q.part = l.part then { q with cores := q.cores.filter fun c => !gone.contains c } else q }
  ((l.places d3).filter fun c => !gone.contains c).foldl (fun d c =>
    (List.range 16).foldl (fun d i =>
      match d.ctxAt c i with
      | some x => if x.launch = l.id ∧ x.part = l.part ∧ x.isStopped = false then killCtx d c i else d
      | none => d) d) d3

/-- Ends a launch whose end has come. -/
def judgeLaunch (d : Device) (l : Launch) : Device :=
  if l.ended.isSome then d
  else
    match endOf d l with
    | some why => endLaunch d l why
    | none => d

/-- Every launch whose end has come ends at that instant. -/
def judgeLaunches (d : Device) : Device := d.launches.foldl judgeLaunch d

/-- Reaps the contexts of an ended launch that can be reaped; the others are deferred (R346). -/
def reapAll (d : Device) (l : Launch) : Device :=
  (l.places d).foldl (fun d c =>
    (List.range 16).foldl (fun (d : Device) i =>
      match d.ctxAt c i with
      | some x =>
        if x.launch = l.id ∧ x.part = l.part ∧ d.deferred.contains (l.id, c, i) = false then
          if reapable d c i then vacate d c i else { d with deferred := d.deferred ++ [(l.id, c, i)] }
        else d
      | none => d) d) d

/-- Whether everything that a launch's contexts, packets and fills wrote has performed (R345). -/
def settled (d : Device) (l : Launch) : Bool :=
  let posted (vf : Nat) (o : Option (Nat × Nat)) : Bool := o.any (fun q => q.1 == l.id) && (d.vfAt vf).part == some l.part
  d.accesses.all (fun a => !(a.launch == l.id && a.part == l.part) || a.complete || a.fault.isSome) && d.hmwrs.isEmpty &&
  !d.notices.any (fun n => posted n.vf n.poster) && !d.packets.any (fun p => posted p.vf p.poster) &&
  !d.engines.any (fun e => e.2.any fun q => q.waiting.any fun n => posted n.vf n.poster) &&
  !d.fills.any (fun f => l.cores.contains f.core) &&
  l.cores.all fun c => (d.coreAt c).gens.all fun g => !(g.write && g.fault.isNone && !g.queue.isEmpty)

/-- What the end of a launch discards on a core (R347): accumulators, scratch, SPCFG and reductions that still compute wait
for the next loader. -/
def Core.discard (k : Core) : Core :=
  { k.bare with
    waiting := k.waiting
    sems := k.sems
    rresTaken := true
    rres := k.rres
    rresSeq := k.rresSeq
    redCtr := k.redCtr
    reductions := k.reductions.filter fun r => !r.held
    acc := k.acc
    accPoison := k.accPoison
    arrayQ := k.arrayQ
    spcfg := k.spcfg
    scratch := k.scratch
    scratchPoison := k.scratchPoison
    trees := k.trees
    leafPort := k.leafPort }

/-- Frames of the tensors of a launch, whose pages lose their tile view with it (R140, R347). -/
def launchFrames (m : Memory) (d : Device) (l : Launch) : List Nat :=
  (((d.partAt l.part).tensors.filter fun t => t.launch == l.id).map fun t => t.pages.filterMap fun a => ordinaryFrame m d l.part t.vf a).flatten

/-- The end of an ended launch whose contexts have all been reaped and whose writes have performed: the record, then
everything that R347 discards. None while the record cannot be written. -/
def Work.closeLaunch (w : Work) (l : Launch) (why : Nat × Nat × Nat) : Option Work :=
  (w.closePacket l.part l.vf l.queue l.index l.slotAddr (launchRecordWord l.id why.1 why.2.1 why.2.2)).map fun w =>
    w.on fun d =>
      let frames := launchFrames w.m d l
      let d1 := d.onPart l.part fun p => { p with tensors := p.tensors.filter fun t => t.launch != l.id }
      let d2 := frames.foldl (fun d f => unview d f 65536) d1
      let d3 := l.cores.foldl (fun d c => d.onCore c Core.discard) d2
      { d3 with
        launches := d3.launches.filter fun q => !(q.id == l.id && q.part == l.part)
        arrivals := d3.arrivals.filter fun r => !(r.launch == l.id && l.cores.contains r.core)
        shipments := d3.shipments.filter fun q => !l.cores.contains q.from_ }

/-- The record once the last reap is done (R346), and the lines of the launch's tensors have left the tile view (R140). -/
def Work.afterReaps (w : Work) (part launch : Nat) : Work :=
  match w.d.launchAt part launch with
  | none => w
  | some l =>
    match l.ended with
    | none => w
    | some why =>
      let left := (l.places w.d).any fun c => (w.d.coreAt c).slots.any fun o => o.any fun x => x.launch == l.id && x.part == l.part
      if left || !settled w.d l then w
      else
        let frames := launchFrames w.m w.d l
        if frames.any fun f => busyFrame w.d f 65536 || cachedIn w.d f 65536 then w.on fun d => frames.foldl (fun d f => uncache w.m d f 65536) d
        else (w.closeLaunch l why).getD w

/-- LAUNCH_END (R346): a launch whose end has come ends, its contexts are stopped and reaped, and its record is written once
nothing of it is left. -/
def execLaunchEnd (part launch : Nat) (s : State) : Out :=
  let w := Work.start s
  match w.d.launchAt part launch with
  | none => conclude s s.dev []
  | some l =>
    let w1 := w.on fun d => judgeLaunch d l
    match w1.d.launchAt part launch with
    | none => conclude s s.dev []
    | some l1 => if l1.ended.isNone then conclude s s.dev [] else ((w1.on fun d => reapAll d l1).afterReaps part launch).finish s

/-- DEFERRED_REAP (R346): a deferred reap completes once its slot can be reaped. -/
def execDeferredReap (core slot : Nat) (s : State) : Out :=
  let w := Work.start s
  match w.d.deferred.find? fun q => q.2.1 == core && q.2.2 == slot with
  | none => conclude s s.dev []
  | some q =>
    if reapable w.d core slot then
      ((w.on fun d => { vacate d core slot with deferred := d.deferred.erase q }).afterReaps (w.d.coreAt core).part q.1).finish s
    else conclude s s.dev []

end Sys2Proof.Machine
end

