-- ==== Sys2Proof/Machine/Partitions.lean ====
section
/-! DEFINITION. Partition control (R327 to R340, R403) and checkpoints (R391 to R394). -/
namespace Sys2Proof.Machine

/-- The command at the head of the control queue, if its OP is the given one (R332). -/
def controlHead (d : Device) (op : Nat) : Option (List Word) :=
  if d.failedStep ≠ 0 then none
  else (d.control.head?.map Control.packet).bind fun ws => if field (ws.getD 0 0) 0 8 = op then some ws else none

/-- PARTID of a command. -/
def partId (ws : List Word) : Nat := field (ws.getD 0 0) 8 6

/-- The command at the head completes: STATUS in w7 of its slot, and RDIDX moves on (R332). -/
def completeHead (d : Device) (status : Nat) : Device :=
  match d.control with
  | [] => d
  | c :: rest =>
    let w7 := (c.packet.getD 7 0).toNat
    { d with
      control := rest
      controlRd := d.controlRd + 1
      controlDone := d.controlDone ++ [{ c with packet := c.packet.take 7 ++ [BitVec.ofNat 64 (w7 / 256 * 256 + status % 256)], kept := none }] }

/-- An OP that R333 or R392 names. -/
def knownOp (ws : List Word) : Bool := decide (1 ≤ field (ws.getD 0 0) 0 8 ∧ field (ws.getD 0 0) 0 8 ≤ 9)

/-- Commands at the head whose OP no rule names complete as malformed; `fuel` bounds them. -/
def settleControl : Nat → Device → Device
  | 0, d => d
  | fuel + 1, d =>
    match d.control with
    | [] => d
    | c :: _ => if knownOp c.packet then d else settleControl fuel (completeHead d 3)

/-- Completes the command at the head; the manager performs commands one at a time, in queue order (R332). -/
def controlDone (d : Device) (status : Nat) : Device :=
  let d1 := completeHead d status
  settleControl d1.control.length d1

/-- A command is posted in the control queue: none where the queue is full (R230, R231, R332). -/
def postControl (d : Device) (packet : List Word) : Option Device :=
  if 2^d.controlLog2n ≤ d.controlWr - d.controlRd then none
  else
    some (settleControl (d.control.length + 1)
      { d with
        control := d.control ++ [{ packet := packet, index := d.controlWr }]
        controlDone := d.controlDone.filter fun c => decide (d.controlWr < c.index + 2^d.controlLog2n)
        controlWr := d.controlWr + 1 })

/-- An entry of a resource list (R332). -/
structure Share where
  kind : Nat
  die : Nat
  first : Nat
  count : Nat
  data : Word
  deriving DecidableEq, Repr

/-- Reads n entries of a resource list in host memory. -/
def readShares (m : Memory) (addr : Nat) : Nat → Nat → List Share → Device → Load (List Share)
  | 0, _, acc, d => .ok acc d
  | n + 1, i, acc, d =>
    let key := Config.hostBase + (addr + 16 * i) % 2^57
    match hostReady d 64 (9, 0, 0) key false with
    | (false, d1) => .hold (keepAsked d d1)
    | (true, d1) =>
      let x := m.word key
      if x.toNat / 2^48 ≠ 0 then .refuse 3
      else readShares m addr n (i + 1) (acc ++ [⟨field x 0 8, field x 8 8, field x 16 16, field x 32 16, m.word (key + 8)⟩]) d1

/-- The list of a command. -/
def commandShares (m : Memory) (d : Device) (ws : List Word) : Load (List Share) :=
  let w0 := ws.getD 0 0
  let w1 := (ws.getD 1 0).toNat
  let w2 := (ws.getD 2 0).toNat
  if field w0 14 34 ≠ 0 ∨ w1 % 16 ≠ 0 ∨ 1024 < w2 ∨ ([3, 4, 5, 6].any fun i => ws.getD i 0 != 0) = true then .refuse 3
  else readShares m w1 w2 0 [] d

/-- Whether an entry names units that the module has, in units of assignment (R327). -/
def Share.valid (e : Share) : Bool :=
  match e.kind with
  | 1 => decide (e.die < 8 ∧ 0 < e.count ∧ e.first + e.count ≤ 16 ∧ e.data = 0)
  | 2 => decide (4 ≤ e.die ∧ e.die < 8 ∧ 0 < e.count ∧ e.first % 8 = 0 ∧ e.count % 8 = 0 ∧ e.first + e.count ≤ 384 ∧ e.data = 0)
  | 3 => decide (e.die < 4 ∧ 0 < e.count ∧ e.first + e.count ≤ 96 ∧ e.data = 0)
  | 4 => decide (e.die < 10)
  | 5 => decide (e.die < 8 ∧ e.data.toNat ≤ 8)
  | 6 => decide (8 ≤ e.die ∧ e.die < 10 ∧ 0 < e.count ∧ e.first + e.count ≤ 8 ∧ e.data = 0)
  | _ => false

/-- Field blocks that an entry names. -/
def Share.blocks (e : Share) : List Nat := if e.kind = 1 then (List.range e.count).map fun i => 16 * e.die + e.first + i else []

/-- Channel groups that an entry names. -/
def Share.groups (e : Share) : List (Nat × Nat × Nat) :=
  if e.kind = 2 then (List.range (e.count / 8)).map fun i => (e.die, e.first + 8 * i, 8)
  else if e.kind = 3 then (List.range e.count).map fun i => (e.die, e.first + i, 1)
  else []

/-- Peer links that an entry names. -/
def Share.links (e : Share) : List (Nat × Nat) := if e.kind = 6 then (List.range e.count).map fun i => (e.die, e.first + i) else []

/-- TDM slots of a die that a partition holds. -/
def Partition.slotsOn (p : Partition) (die : Nat) : BitVec 64 := (assocGet die p.tdm).getD 0

/-- Adds an entry's units to a partition; STATUS 1 where one is not free. -/
def addShare (d : Device) (part : Nat) (p : Partition) (e : Share) : Except Nat Partition :=
  let all := p :: ((d.parts.filter fun q => q.1 != part).map Prod.snd)
  if d.lostDies.contains e.die ∨ (e.blocks.any fun b => all.any fun q => q.blocks.contains b) = true ∨
      (e.groups.any fun c => all.any fun q => q.channels.contains c) = true ∨ (e.links.any fun l => all.any fun q => q.links.contains l) = true ∨
      (e.kind = 4 ∧ (all.any fun q => q.slotsOn e.die &&& e.data != 0) = true) then .error 1
  else
    .ok { p with
      blocks := sortBy (fun a b => decide (a ≤ b)) (p.blocks ++ e.blocks)
      channels := p.channels ++ e.groups
      links := p.links ++ e.links
      tdm := if e.kind = 4 then assocPut e.die (p.slotsOn e.die ||| e.data) p.tdm else p.tdm
      granules := if e.kind = 5 then assocPut e.die (p.granulesOn e.die + e.data.toNat) p.granules else p.granules }

/-- Removes an entry's units; one that the partition does not hold makes the list malformed. -/
def dropShare (p : Partition) (e : Share) : Except Nat Partition :=
  if (e.blocks.any fun b => !p.blocks.contains b) = true ∨ (e.groups.any fun c => !p.channels.contains c) = true ∨
      (e.links.any fun l => !p.links.contains l) = true ∨ (e.kind = 4 ∧ e.data &&& ~~~(p.slotsOn e.die) ≠ 0) ∨
      (e.kind = 5 ∧ p.granulesOn e.die < e.data.toNat) then .error 3
  else
    .ok { p with
      blocks := p.blocks.filter fun b => !e.blocks.contains b
      channels := p.channels.filter fun c => !e.groups.contains c
      links := p.links.filter fun l => !e.links.contains l
      tdm := if e.kind = 4 then assocPut e.die (p.slotsOn e.die &&& ~~~e.data) p.tdm else p.tdm
      granules := if e.kind = 5 then assocPut e.die (p.granulesOn e.die - e.data.toNat) p.granules else p.granules }

/-- Dies on which a partition holds a field block. -/
def Partition.dies (p : Partition) : List Nat := (List.range 8).filter fun die => p.blocks.any fun b => b / 16 == die

/-- R328: a field block; channels and slots only where it holds one; a slot on every such die. -/
def Partition.fair (p : Partition) : Bool :=
  !p.blocks.isEmpty && p.channels.all (fun c => p.dies.contains c.1) && p.tdm.all (fun t => t.2 == 0 || p.dies.contains t.1) &&
  p.dies.all (fun die => p.slotsOn die != 0) && p.granules.all fun g => decide (g.2 ≤ 8)

/-- Puts an entry's units together, or gives a STATUS. -/
def reshape (p : Partition) (es : List Share) (f : Partition → Share → Except Nat Partition) : Except Nat Partition :=
  if es.any fun e => !e.valid then .error 3
  else
    match es.foldlM f p with
    | .error c => .error c
    | .ok q => if q.fair then .ok q else .error 5

/-- Physical span of a channel group: first address and bytes (assumption 3). -/
def groupSpan (c : Nat × Nat × Nat) : Nat × Nat :=
  let per := (Config.dieChannels c.1).2
  (Config.dieBase c.1 + c.2.1 / per * Config.groupFrames c.1 * 65536, c.2.2 / per * Config.groupFrames c.1 * 65536)

/-- Writes a span zero, full and unpoisoned (R403). -/
def clearSpan (q : Nat × Nat) : Edit := .clear (q.1 / 8) ((q.1 + q.2) / 8)

/-- Die-scratch spans of slices. -/
def scratchSpans (slices : List Nat) : List (Nat × Nat) := slices.map fun sl => (Config.dieScratchBase + sl * 2^19, 2^19)

/-- Brings home every token of the lines of a partition's memory on a die, dropping every L1 copy (R335 step 2). -/
def flushLines (d : Device) (p : Partition) (die : Nat) : Device :=
  let mine (line : Nat) : Bool := decide (line < Config.hostBase / 128) && dieOfPa (128 * line) == die && p.owns (128 * line)
  let d1 := ((d.lines.filter fun l => mine l.1).map Prod.fst ++ (d.tokenMsgs.filter fun t => mine t.line).map TokenMsg.line).foldl
    Device.collect d
  { d1 with
    lines := d1.lines.filter fun l => !mine l.1 || l.2.lost
    writeBacks := d1.writeBacks.filter fun q => !mine q.2 }

/-- The L1 data caches of cores that are reset give up every line: their tokens come home, and those on the way to them (R254, R335). -/
def emptyL1 (d : Device) (core : Nat → Bool) : Device :=
  let lines := (d.lines.filter fun l => l.2.holders.any fun h => core h.1).map Prod.fst ++ (d.tokenMsgs.filter fun t => t.to_.any core).map TokenMsg.line
  let d1 := lines.eraseDups.foldl (fun d l => d.takeHome l core fun t => t.to_.any core) d
  { d1 with
    tokenReqs := d1.tokenReqs.filter fun r => !r.core.any core
    persist := d1.persist.filter fun r => !r.core.any core }

/-- The gleaner cores of a peer link (R383). -/
def linkCores (l : Nat × Nat) : List Nat := (List.range 8).map fun i => l.1 * 1024 + 8 * l.2 + i

/-- Cores of a partition: those of its field blocks, in ascending order of these, and of its links. -/
def Partition.units (p : Partition) : List Nat := (p.ordered.map blockCores).flatten ++ (p.links.map linkCores).flatten

/-- A part of an access that was held at its slice goes to its new home: a line's new slice, or the die-scratch word of its
offset (R335 step 4); none where the offset is no longer there (R240). -/
def Piece.rehomed (b : Piece) (p q : Partition) : Option Piece :=
  if b.done then some b
  else
    match b.port with
    | .slice _ line => some { b with port := .slice (q.homeOf (128 * line)) line }
    | .dieScratch sl =>
      let l := p.slices (sl / 256)
      let k := b.key - (Config.dieScratchBase + sl * 2^19)
      (dieScratchPlace q (sl / 256) ((k / 1024 * l.length + l.idxOf sl) * 1024 + k % 1024)).map fun pl => { b with port := pl.port, key := pl.key }
    | _ => some b

/-- An access after the change; one whose word is no longer there takes PROT (R236, R240). -/
def Access.rehomed (a : Access) (p q : Partition) : Access :=
  match a.pieces.find? fun b => (b.rehomed p q).isNone with
  | some b => { a with fault := a.fault.or (some (cPROT, a.issued b)), pieces := a.pieces.map fun b => { b with waiting := none } }
  | none => { a with pieces := a.pieces.map fun b => (b.rehomed p q).getD b }

/-- Where the write of a chunk in progress goes after the change: to the die-scratch word of its offset (R335 step 4). -/
def rehomedKey (p q : Partition) (key : Nat) : Option Nat :=
  if key < Config.dieScratchBase then some key
  else (Piece.rehomed { port := .dieScratch ((key - Config.dieScratchBase) / 2^19), key := key, bytes := 1 } p q).map Piece.key

/-- A packet in progress after the change; one of whose words is no longer there ends with PROT. -/
def Packet.rehomed (k : Packet) (p q : Partition) : Packet :=
  match k.rest.mapM fun e => (rehomedKey p q e.1).map fun key => (key, e.2) with
  | some rest => { k with rest := rest }
  | none => { k with rest := [], status := k.status.or (some cPROT.toNat) }

/-- Puts a partition's new shape into effect (R335): on every die whose slices or k change the lines come home, die scratch
becomes zero and empty, so that what waited for an empty word is served, and what left the partition is cleared; removed cores, those of
removed links too, are reset. -/
def Work.reshaped (w : Work) (part : Nat) (p q : Partition) : Work :=
  let dies := (List.range 8).filter fun die => decide (p.slices die ≠ q.slices die) || decide (p.granulesOn die ≠ q.granulesOn die)
  let goneCores := p.units.filter fun c => !q.units.contains c
  let d1 := emptyL1 (dies.foldl (fun d die => flushLines d p die) w.d) goneCores.contains
  let d2 : Device := { d1 with
    parts := assocPut part q d1.parts
    accesses := d1.accesses.map fun a => if a.part = part then a.rehomed p q else a
    packets := d1.packets.map fun k => if (d1.vfAt k.vf).part = some part then k.rehomed p q else k
    cores := d1.cores.filter fun c => !goneCores.contains c.1 }
  let old := (dies.map p.slices).flatten
  let words := (dies.map fun die => (q.slices die).map fun sl => (List.range (q.granulesOn die * 8192)).map fun i => Config.dieScratchBase / 8 + sl * 2^16 + i).flatten.flatten
  let waiting := ((d2.waiters.map fun q => q.2.2.2.key / 8).filter fun k => decide (Config.dieScratchBase / 8 ≤ k)).eraseDups
  ({ w with d := d2 } : Work).edit (((scratchSpans old).map clearSpan) ++ ((scratchSpans ((dies.map q.slices).flatten)).map clearSpan) ++
    words.map fun k => .full k false) waiting

/-- CREATE (R333, R334): every per-partition register of the new partition is 0. -/
def execCreate (s : State) : Out :=
  match controlHead s.dev 1 with
  | none => conclude s s.dev []
  | some ws =>
    match commandShares s.mem s.dev ws with
    | .hold d => conclude s d []
    | .refuse c => conclude s (controlDone s.dev c) []
    | .ok es d =>
      if (assocGet (partId ws) d.parts).isSome then conclude s (controlDone d 4) []
      else
        match reshape {} es (addShare d (partId ws)) with
        | .error c => conclude s (controlDone d c) []
        | .ok p => conclude s (controlDone { d with parts := assocPut (partId ws) p d.parts } 0) []

/-- GROW (R333, R335). -/
def execGrow (s : State) : Out :=
  match controlHead s.dev 2 with
  | none => conclude s s.dev []
  | some ws =>
    match commandShares s.mem s.dev ws with
    | .hold d => conclude s d []
    | .refuse c => conclude s (controlDone s.dev c) []
    | .ok es d =>
      match assocGet (partId ws) d.parts with
      | none => conclude s (controlDone d 4) []
      | some p =>
        match reshape p es (addShare d (partId ws)) with
        | .error c => conclude s (controlDone d c) []
        | .ok q =>
          let w := (⟨s.mem, d, [], []⟩ : Work).reshaped (partId ws) p q
          (w.on fun d => controlDone d 0).finish s

/-- Leaves of a table tree: frame and size (R348, R349); `fuel` is the levels left. -/
def leavesFrom (m : Memory) (p : Partition) : Nat → Nat → Nat → List (Nat × Nat)
  | 0, _, _ => []
  | fuel + 1, level, table =>
    ((List.range (if level = 4 then 32 else 512)).map fun i =>
      let e := m.word (table + 8 * i)
      if !eBit e 0 || malformed p level e then []
      else if isLeaf e then (if eBit e 4 then [] else [(frameOf e, pageSize level)])
      else leavesFrom m p fuel (level + 1) (tableOf e)).flatten

/-- Frames without those that lie in another, each once. -/
def withoutOverlap (l : List (Nat × Nat)) : List (Nat × Nat) :=
  l.eraseDups.filter fun f => !l.any fun g => g != f && decide (g.1 ≤ f.1 ∧ f.1 + f.2 ≤ g.1 + g.2)

/-- Device frames that the VFs of a partition map. -/
def mappedFrames (m : Memory) (d : Device) (part : Nat) : List (Nat × Nat) :=
  withoutOverlap (d.vfs.map fun v => if v.2.part = some part ∧ v.2.root ≠ 0 then leavesFrom m (d.partAt part) 5 0 v.2.root.toNat else []).flatten

/-- SHRINK (R333, R335, R403): frames behind a removed channel are cleared before it counts free. -/
def execShrink (s : State) : Out :=
  match controlHead s.dev 3 with
  | none => conclude s s.dev []
  | some ws =>
    match commandShares s.mem s.dev ws with
    | .hold d => conclude s d []
    | .refuse c => conclude s (controlDone s.dev c) []
    | .ok es d =>
      let part := partId ws
      match assocGet part d.parts with
      | none => conclude s (controlDone d 4) []
      | some p =>
        match reshape p es dropShare with
        | .error c => conclude s (controlDone d c) []
        | .ok q =>
          let blocks := (es.map Share.blocks).flatten
          let spans := ((es.map Share.groups).flatten).map groupSpan
          let used := (d.launches.any fun l => l.part == part && l.cores.any fun c => blocks.contains (blockOf c)) ||
            (mappedFrames s.mem d part).any fun f => spans.any fun r => decide (f.1 < r.1 + r.2 ∧ r.1 < f.1 + f.2)
          if used then conclude s (controlDone d 2) []
          else
            let inSpan (f : Nat) : Bool := spans.any fun r => decide (r.1 ≤ f ∧ f < r.1 + r.2)
            let q1 := { q with pool := q.pool.filter fun f => !inSpan f.2 }
            let w := (⟨s.mem, d, [], []⟩ : Work).reshaped part p q1
            let w1 := (w.on fun d =>
              let d1 := ((d.lines.filter fun l => inSpan (128 * l.1)).map Prod.fst).foldl Device.collect d
              { d1 with
                lines := d1.lines.filter fun l => !inSpan (128 * l.1)
                images := d1.images.filter fun i => !inSpan i.base }).edit (spans.map clearSpan) []
            (w1.on fun d => controlDone d 0).finish s

/-- Kills a launch (R346, END 2). -/
def killLaunch (d : Device) (part id : Nat) : Device :=
  match d.launchAt part id with
  | some l => if l.ended.isSome then d else endLaunch d l (2, 0, 0)
  | none => d

/-- Moves every ended launch of a partition on to its record. -/
def Work.closeAll (w : Work) (part : Nat) : Work :=
  (w.d.launches.filter fun l => l.part == part && l.ended.isSome).foldl (fun (w : Work) l =>
    (w.on fun d => reapAll d l).afterReaps part l.id) w

/-- Removes everything of a partition that stands outside its memory. Its cores are reset, CYC too, as those that a SHRINK removes
are: R337 names no reset of them and R335 names no DESTROY (assumption 93, DESIGN CHOICE). -/
def forget (d0 : Device) (part : Nat) (p : Partition) : Device :=
  let core (c : Nat) : Bool := p.hasCore c
  let d := emptyL1 d0 core
  let vf (v : Nat) : Bool := (d.vfAt v).part == some part
  { d with
    tokenReqs := d.tokenReqs.filter fun r => !p.owns (128 * r.line)
    persist := d.persist.filter fun r => !p.owns (128 * r.line)
    hints := d.hints.filter fun q => !p.owns (128 * q.1)
    writeBacks := d.writeBacks.filter fun q => !p.owns (128 * q.2)
    fires := d.fires.filter fun f => f.part != part
    images := d.images.filter fun i => !p.owns i.base
    parts := d.parts.filter fun q => q.1 != part
    vfs := d.vfs.filter fun v => v.2.part != some part
    cores := d.cores.filter fun c => !core c.1
    launches := d.launches.filter fun l => l.part != part
    accesses := d.accesses.filter fun a => a.part != part
    lines := d.lines.filter fun l => !p.owns (128 * l.1)
    tokenMsgs := d.tokenMsgs.filter fun t => !p.owns (128 * t.line)
    messages := d.messages.filter fun m => m.part != part
    markers := d.markers.filter fun m => !core m.core
    landings := d.landings.filter fun l => !core l.core
    commands := d.commands.filter fun c => c.part != part
    meterQueue := d.meterQueue.filter fun q => !vf q.vf
    xinvs := d.xinvs.filter fun q => !vf q.1
    saved := d.saved.filter fun v => !core v.core
    engines := d.engines.filter fun e => !core (4 * e.1)
    packets := d.packets.filter fun q => !vf q.vf
    notices := d.notices.filter fun q => !vf q.vf
    fills := d.fills.filter fun f => f.part != part
    transfers := d.transfers.filter fun t => !core t.to_
    signals := d.signals.filter fun q => !core q.core
    arrivals := d.arrivals.filter fun r => !core r.core
    blockReqs := d.blockReqs.filter fun r => r.part != part
    blockQueues := d.blockQueues.filter fun b => b.owner != part
    shipments := d.shipments.filter fun q => !core q.from_
    migrations := d.migrations.filter fun g => g.part != part
    tlb := d.tlb.filter fun t => !vf t.vf
    deferred := d.deferred.filter fun q => !core q.2.1 }

/-- Spans of everything that DESTROY clears (R337): memory frames, die scratch, scratchpads and lane slices. -/
def ownedSpans (p : Partition) : List (Nat × Nat) :=
  (p.channels.map groupSpan) ++ scratchSpans ((List.range 8).map p.slices).flatten ++
  ((p.units.map fun c => (coreSpans c).map Prod.snd).flatten)

/-- DESTROY (R333, R337): kills every live launch, waits for each to end, then clears everything of the partition. -/
def execDestroy (s : State) : Out :=
  match controlHead s.dev 4 with
  | none => conclude s s.dev []
  | some ws =>
    let part := partId ws
    match assocGet part s.dev.parts with
    | none => conclude s (controlDone s.dev 4) []
    | some p =>
      let w := (Work.start s).on fun d =>
        let d1 := (d.launches.filter fun l => l.part == part).foldl (fun d l => killLaunch d part l.id) d
        d1.onPart part fun p => { p with queued := [] }
      let w1 := w.closeAll part
      if w1.d.launches.any fun l => l.part == part then w1.finish s
      else
        let w2 := (w1.on fun d => controlDone (forget d part p) 0).edit ((ownedSpans p).map clearSpan) []
        w2.finish s

/-- VFMAP (R333, R338). -/
def execVfmap (s : State) : Out :=
  match controlHead s.dev 5 with
  | none => conclude s s.dev []
  | some ws =>
    let d := s.dev
    let part := partId ws
    let vf := field (ws.getD 3 0) 0 9
    let leave := (ws.getD 3 0).getLsbD 9
    let held := (d.vfAt vf).part
    if (assocGet part d.parts).isNone then conclude s (controlDone d 4) []
    else if held.any fun q => q != part then conclude s (controlDone d 1) []
    else if leave ∧ (d.launches.any fun l => l.part == part && l.vf == vf) = true then conclude s (controlDone d 2) []
    else if leave then
      let d1 := d.onPart part fun p => { p with queued := p.queued.filter fun q => q.vf != vf }
      conclude s (controlDone { d1 with vfs := assocDrop vf d1.vfs, tlb := d1.tlb.filter fun t => t.vf != vf } 0) []
    else if held = some part then conclude s (controlDone d 0) []
    else conclude s (controlDone { d with vfs := assocPut vf { part := some part } d.vfs } 0) []

/-- VFMETER (R333, R339). -/
def execVfmeter (s : State) : Out :=
  match controlHead s.dev 6 with
  | none => conclude s s.dev []
  | some ws =>
    let d := s.dev
    let part := partId ws
    let vf := field (ws.getD 3 0) 0 9
    let w4 := (ws.getD 4 0).toNat
    let w5 := (ws.getD 5 0).toNat
    let w6 := (ws.getD 6 0).toNat
    if (assocGet part d.parts).isNone then conclude s (controlDone d 4) []
    else if 2^32 ≤ w4 ∨ 2^32 ≤ w5 ∨ w6 = 0 ∨ 64 < w6 ∨ 2^9 ≤ (ws.getD 3 0).toNat ∨ field (ws.getD 0 0) 14 34 ≠ 0 ∨ (d.vfAt vf).part ≠ some part then conclude s (controlDone d 3) []
    else
      conclude s (controlDone (d.onVf vf fun v =>
        { v with memLim := w4, fabLim := w5, window := w6, used := [], windowNo := d.wall / (1000 * w6) }) 0) []

/-- KILL (R333, R346). -/
def execKill (s : State) : Out :=
  match controlHead s.dev 7 with
  | none => conclude s s.dev []
  | some ws =>
    let id := field (ws.getD 3 0) 0 32
    if (s.dev.launchAt (partId ws) id).isNone then conclude s (controlDone s.dev 4) []
    else conclude s (controlDone (killLaunch s.dev (partId ws) id) 0) []

/-- Shape of a partition (R307): for each field block its die's class and place among the dies, its place relative to the
first block there, and the die's granules. -/
def shapeOf (p : Partition) : List (Nat × Nat) :=
  p.ordered.map fun b =>
    let die := b / 16
    let rank := (p.dies.findIdx? fun x => x == die).getD 0
    let b0 := ((p.ordered.filter fun x => x / 16 == die).head?).getD b
    ((if die < 4 then 0 else 100) + rank * 1000 + p.granulesOn die,
     (b % 16 / 4 + 4 - b0 % 16 / 4) * 8 + (b % 4 + 4 - b0 % 4))

/-- Base and bytes of a partition's granary (R391). -/
def granaryOf (p : Partition) : Nat × Nat := (p.grbase.toNat % 2^57 / 2^30 * 2^30, p.grbase.toNat % 2^16 * 2^30)

/-- What a checkpoint copies (R393 step 5). -/
def copiedSpans (m : Memory) (d : Device) (part : Nat) : List (Nat × Nat) :=
  let p := d.partAt part
  ((mappedFrames m d part).filter fun f => decide (4 ≤ dieOfPa f.1)) ++
  ((List.range 8).map fun die => (p.slices die).map fun sl => (Config.dieScratchBase + sl * 2^19, p.granulesOn die * 65536)).flatten

/-- Bytes of a per-core save area (R373). -/
def coreAreaBytes : Nat := 0x180000

/-- A key within spans. -/
def inSpans (l : List (Nat × Nat)) (k : Nat) : Bool := l.any fun q => decide (q.1 ≤ k ∧ k < q.1 + q.2)

/-- Whether a partition's granary lies whole on LPDDR6 channels of its own (R391). -/
def granaryOwned (p : Partition) : Bool :=
  let (base, size) := granaryOf p
  p.grbase != 0 && decide (0 < size) && decide (dieOfPa base < 4) && decide (dieOfPa (base + size - 1) = dieOfPa base) &&
  (List.range (size / 65536)).all fun i => p.owns (base + 65536 * i)

/-- Place of the save area of the i-th core of a partition in a granary, after the manifest (assumption 22, DESIGN CHOICE). -/
def areaPlace (base i : Nat) : Nat := base + 4096 + i * coreAreaBytes

/-- Copies of spans laid one after another from a place: span, bytes, place of the copy. -/
def layCopies (at_ : Nat) (spans : List (Nat × Nat)) : List (Nat × Nat × Nat) :=
  (spans.foldl (fun (acc : List (Nat × Nat × Nat) × Nat) q => (acc.1 ++ [(q.1, q.2, acc.2)], acc.2 + q.2)) ([], at_)).1

/-- Whether the granary is defined on the partition's LPDDR6 and holds what R391 names. -/
def granaryFits (m : Memory) (d : Device) (part : Nat) : Bool :=
  let p := d.partAt part
  granaryOwned p && decide (((copiedSpans m d part).map Prod.snd).sum + p.units.length * coreAreaBytes + 4096 ≤ (granaryOf p).2)

/-- A per-core save area as it is written at a place (R373, R393 step 3), from the record of a core that the dispatcher took. -/
def areaEdits (v : Saved) (at_ : Nat) : List Edit :=
  match v.unit with
  | none => []
  | some k =>
    let state (i : Nat) : Nat := ((v.ctxs.find? fun q => q.1 == i).map fun q => q.2.1.phase.code).getD 0
    let bytes (off : Nat) (bs : List Byte) : List Edit := (bs.zipIdx.filter fun b => b.1 != 0).map fun b => .byte (at_ + off + b.2) b.1
    [.clear (at_ / 8) ((at_ + coreAreaBytes) / 8)] ++ (((0, dwordBytes [1]) :: coreArea k v.core v.ctxs state).map fun q => bytes q.1 q.2).flatten ++
    ((coreSpans v.core).map fun q =>
      let here (k : Nat) : Bool := decide (q.2.1 ≤ k ∧ k < q.2.1 + q.2.2)
      ((v.cells.filter fun c => here c.1).map fun c => Edit.byte (at_ + q.1 + (c.1 - q.2.1)) c.2) ++
      ((v.empties.filter fun w => here (8 * w)).map fun w => .full ((at_ + q.1 + (8 * w - q.2.1)) / 8) false) ++
      (v.poisoned.filter fun w => here (8 * w)).map fun w => .poison ((at_ + q.1 + (8 * w - q.2.1)) / 8) true).flatten

/-- The SHA-384 digest of the bytes that a checkpoint has copied (R393 step 6). -/
def copyDigest (m : Memory) (im : Image) : BitVec 384 :=
  sha384 ((im.areas.map fun a => m.bytes a coreAreaBytes).flatten ++ (im.copies.map fun q => m.bytes q.2.2 q.2.1).flatten)

/-- Bytes of a manifest (R393 step 6): WALL at the cut, the trace and Krovton ring indices, the shape's length, the digest, the shape. -/
def manifestBytes (p : Partition) (im : Image) (digest : BitVec 384) : List Byte :=
  dwordBytes [BitVec.ofNat 64 im.wall, BitVec.ofNat 64 (p.trwr.toNat * 2^32 + p.trrd.toNat), BitVec.ofNat 64 (p.krwr.toNat * 2^32 + p.krrd.toNat),
    BitVec.ofNat 64 im.shape.length] ++ hashBytes digest ++ dwordBytes (im.shape.map fun q => BitVec.ofNat 64 (q.1 * 2^32 + q.2))

/-- The image of a partition at the cut (R393). -/
def imageOf (m : Memory) (d : Device) (part : Nat) : Image :=
  let p := d.partAt part
  let (base, size) := granaryOf p
  let cores := (d.saved.filter fun v => v.whole && v.area == 0 && v.part == part).map fun v =>
    if v.aside then v else { asideRecord m d v with aside := false }
  { part := part
    base := base
    wall := d.wall
    shape := shapeOf p
    blocks := p.ordered
    cores := cores
    launches := d.launches.filter fun l => l.part == part
    started := p.launches
    tensors := p.tensors
    engines := d.engines.filter fun e => p.hasCore (4 * e.1)
    copies := layCopies (areaPlace base p.units.length) (copiedSpans m d part)
    areas := cores.map fun v => areaPlace base (p.units.idxOf v.core)
    size := size
    kept := d.saved.filter fun v => v.area != 0 && (v.part == part || v.ctx.any fun x => x.part == part) }

/-- Steps 3, 5 and 6 of R393 in the granary: the save areas, the frames and die scratch, then the manifest. -/
def Work.storeImage (w : Work) (im : Image) : Work :=
  let w1 := w.edit ((im.cores.map fun v => areaEdits v (areaPlace im.base ((w.d.partAt im.part).units.idxOf v.core))).flatten ++
    (im.copies.map fun q => copySpan w.m q.1 q.2.2 q.2.1).flatten) []
  w1.edit (.clear (im.base / 8) ((im.base + 4096) / 8) ::
    (manifestBytes (w.d.partAt im.part) im (copyDigest w1.m im)).zipIdx.map fun b => .byte (im.base + b.2) b.1) []

/-- Releases what a checkpoint held (R393 step 7). -/
def release (d : Device) (part : Nat) : Device :=
  let p := d.partAt part
  let d1 := d.onPart part fun p => { p with holding := false, held := [] }
  { d1 with agenda := p.held.map (fun e => Move.input e.2 e.1 d.now) ++ d1.agenda }

/-- Brings back the launches of a partition that still stand on their cores. -/
def Work.unhold (w : Work) (part : Nat) : Work :=
  let ls := w.d.launches.filter fun l => l.part == part && l.preempted &&
    !w.d.saved.any fun v => v.whole && v.area == 0 && v.launch == l.id && v.part == part && v.aside
  let w1 := (w.d.saved.filter fun v => v.whole && v.area == 0 && v.part == part && ls.any fun l => l.id == v.launch).foldl Work.bringBack w
  w1.on fun d => release (ls.foldl (fun d l => d.onLaunch part l.id fun l => { l with preempted := false }) d) part

/-- Partitions that a command covers. -/
def covered (d : Device) (ws : List Word) : List Nat :=
  if (ws.getD 3 0).getLsbD 0 then d.parts.map Prod.fst else [partId ws]

/-- Flushes every slice of a partition; the host proxy writes back every dirty host line (R393 step 4). -/
def flushAll (m : Memory) (d : Device) (part : Nat) : Device :=
  let d1 := (List.range 8).foldl (fun d die => flushLines d (d.partAt part) die) d
  let dirty := (d1.lines.filter fun l => decide (2^51 ≤ l.1) && (l.2.homeDirty || l.2.holders.any fun h => h.2.2.2)).map Prod.fst
  dirty.foldl (fun d l => (d.l1Clean l).homeClean m l) d1

/-- The command at the head has begun, or goes on (R393 step 1). -/
def beginHead (d : Device) (held : List Nat) : Device :=
  { d with control := match d.control with
      | c :: rest => { c with kept := c.kept.or (some held) } :: rest
      | [] => [] }

/-- The cut: everything is in the granary, or, where it has come to be too small, nothing is changed (R392). -/
def Work.cut (w : Work) (parts kept : List Nat) (hold : Bool) : Work :=
  if parts.any fun p => !granaryFits w.m w.d p then
    ((parts.filter fun p => !kept.contains p).foldl Work.unhold w).on fun d => controlDone d 6
  else
    let w1 := w.on fun d => parts.foldl (flushAll w.m) d
    let images := parts.map (imageOf w1.m w1.d)
    let w2 := (images.foldl Work.storeImage w1).on fun d =>
      controlDone { d with images := (d.images.filter fun i => !images.any fun j => j.base == i.base) ++ images } 0
    if hold then w2 else parts.foldl Work.unhold w2

/-- CHECKPOINT (R392, R393): while it waits for migrations, ends, takes and deliveries it goes on step by step, and then the
image is made at one instant. -/
def execCheckpoint (s : State) : Out :=
  match controlHead s.dev 8 with
  | none => conclude s s.dev []
  | some ws =>
    let parts := covered s.dev ws
    let begun := (s.dev.control.head?).bind Control.kept
    if parts.any fun p => (assocGet p s.dev.parts).isNone then conclude s (controlDone s.dev 4) []
    else if begun = none ∧ (parts.any fun p => !granaryFits s.mem s.dev p) = true then conclude s (controlDone s.dev 6) []
    else
      let mine (p : Nat) : Bool := parts.contains p
      let kept := begun.getD (parts.filter fun p => (s.dev.partAt p).holding)
      let w := (Work.start s).on fun d => parts.foldl (fun d p => d.onPart p fun p => { p with holding := true }) (beginHead d kept)
      if (w.d.migrations.any fun g => mine g.part) || w.d.launches.any fun l => mine l.part && l.ended.isSome then w.finish s
      else
        let d1 := (w.d.launches.filter fun l => mine l.part).foldl preemptCores w.d
        let waits := (d1.launches.any fun l => mine l.part && l.cores.any fun c => l.has d1 c || !quiet d1 c) ||
          d1.packets.any fun p => mine (((d1.vfAt p.vf).part).getD 64)
        let w1 : Work := { w with d := d1 }
        if waits then w1.finish s else (w1.cut parts kept ((ws.getD 3 0).getLsbD 1)).finish s

/-- The core of a partition that stands where a core of an image stood. -/
def movedCore (from_ to_ : List Nat) (c : Nat) : Nat :=
  match from_.findIdx? fun b => b == blockOf c with
  | none => c
  | some i =>
    let b := to_.getD i 0
    ((blockCores b).getD (((blockCores (blockOf c)).findIdx? fun x => x == c).getD 0) 0)

/-- A key of on-chip memory moved with its core or slice. -/
def movedKey (from_ to_ : List Nat) (k : Nat) : Nat :=
  let mv (base size : Nat) (f : Nat → Nat) : Nat := base + f ((k - base) / size) * size + (k - base) % size
  if k < Config.scratchpadBase then k
  else if k < Config.laneBase then mv Config.scratchpadBase (2^19) (movedCore from_ to_)
  else if k < Config.dieScratchBase then mv Config.laneBase (2^17) (movedCore from_ to_)
  else mv Config.dieScratchBase (2^19) fun sl => clusterOf (movedCore from_ to_ (4 * sl))

/-- Moves the wall deadlines that a context holds (R394). -/
def Context.later (x : Context) (by_ : Int) : Context :=
  x.onSys fun r => { r with dline := if r.dline = 0 then 0 else BitVec.ofInt 64 (r.dline.toNat + by_) }

/-- A saved core or context of an image, moved to its place in the partition and in time. -/
def Saved.moved (v : Saved) (part : Nat) (from_ to_ : List Nat) (by_ : Int) : Saved :=
  let key := movedKey from_ to_
  let exp (e : Option (Nat × BitVec 8)) : Option (Nat × BitVec 8) := e.map fun q => (((q.1 : Int) + by_).toNat, q.2)
  let here (x : Context) : Context := { x.later by_ with part := part }
  { v with
    core := movedCore from_ to_ v.core
    part := part
    expiry := exp v.expiry
    ctx := v.ctx.map here
    ctxs := v.ctxs.map fun q => (q.1, here q.2.1, exp q.2.2)
    cells := v.cells.map fun c => (key c.1, c.2)
    empties := v.empties.map fun w => key (8 * w) / 8
    poisoned := v.poisoned.map fun w => key (8 * w) / 8 }

/-- Whether the digest in a granary's manifest is that of its bytes (R392). -/
def manifestHolds (m : Memory) (im : Image) : Bool := decide (m.bytes (im.base + 32) 48 = hashBytes (copyDigest m im))

/-- The image that a partition's granary holds, under whatever PARTID it was made (R392, R401). -/
def imageFor (m : Memory) (d : Device) (part : Nat) : Option Image :=
  let (base, size) := granaryOf (d.partAt part)
  d.images.find? fun i => i.base == base && i.size == size && manifestHolds m i

/-- A dword of a save area in memory that holds an instant moves with the wall (R394). -/
def Work.moveInstant (w : Work) (g : Agent) (a : Word) (by_ : Int) : Work :=
  match g.find w.m w.d a needRW .plain with
  | (.place p, _) =>
    let x := w.m.word p.key
    if x = 0 then w else w.edit (storeEdits p.key 8 (BitVec.ofInt 64 (x.toNat + by_)).toNat) []
  | _ => w

/-- EXPIRY and DLINE of the areas that firmware has saved to move with the wall (R369, R373, R394). -/
def Work.moveArea (w : Work) (v : Saved) (by_ : Int) : Work :=
  let g : Agent := { core := v.core, part := v.part, vf := v.vf, via := v.core }
  let areas := if v.whole then (List.range 16).map fun i => 0x1000 + 0x2800 * i else [0]
  areas.foldl (fun w off => (w.moveInstant g (v.addr + BitVec.ofNat 64 (off + 0x28)) by_).moveInstant g (v.addr + BitVec.ofNat 64 (off + 0x48)) by_) w

/-- Puts an image back (R394): the frames and die scratch from the granary, then the cores. -/
def Work.restoreImage (w : Work) (part : Nat) (im : Image) : Work :=
  let p := w.d.partAt part
  let to_ := p.ordered
  let key := movedKey im.blocks to_
  let by_ : Int := w.d.wall - im.wall
  let d1 := (List.range 8).foldl (fun d die => flushLines d p die) w.d
  let kept := im.kept.map fun v => v.moved part im.blocks to_ by_
  let d2 : Device := { d1 with
    cores := d1.cores.map fun c => if p.hasCore c.1 then (c.1, c.2.bare) else c
    accesses := d1.accesses.filter fun a => a.part != part
    saved := (d1.saved.filter fun v => !p.hasCore v.core) ++ kept
    launches := (d1.launches.filter fun l => l.part != part) ++ im.launches.map fun l =>
      { l with part := part, cores := l.cores.map (movedCore im.blocks to_), started := ((l.started : Int) + by_).toNat, at_ := ((l.at_ : Int) + by_).toNat }
    engines := (d1.engines.filter fun e => !p.hasCore (4 * e.1)) ++ im.engines.map fun e => (clusterOf (movedCore im.blocks to_ (4 * e.1)), e.2) }
  let d3 := d2.onPart part fun p => { p with launches := im.started, tensors := im.tensors }
  let w1 := ({ w with d := d3 } : Work).edit ((im.copies.map fun q => copySpan w.m q.2.2 (key q.1) q.2.1).flatten) []
  let w2 := kept.foldl (fun w v => w.moveArea v by_) w1
  let back := im.cores.map fun v => v.moved part im.blocks to_ by_
  let w3 := w2.on fun d => { d with saved := d.saved ++ (back.map fun v => { v with aside := true }) }
  ((back.filter fun v => !v.aside).foldl (fun (w : Work) v => w.bringBack { v with aside := true }) w3).on fun d =>
    d.launches.foldl (fun d l => if l.part = part ∧ (l.cores.all fun c => l.has d c) = true then d.onLaunch part l.id fun l => { l with preempted := false } else d) d

/-- RESTORE (R392, R394). -/
def execRestore (s : State) : Out :=
  match controlHead s.dev 9 with
  | none => conclude s s.dev []
  | some ws =>
    let parts := covered s.dev ws
    if parts.any fun p => (assocGet p s.dev.parts).isNone then conclude s (controlDone s.dev 4) []
    else
      let ims := parts.map fun p => (p, imageFor s.mem s.dev p)
      if ims.any fun q => q.2.isNone then conclude s (controlDone s.dev 6) []
      else if ims.any fun q => q.2.any fun i => decide (i.shape ≠ shapeOf (s.dev.partAt q.1)) then conclude s (controlDone s.dev 7) []
      else
        let w := ims.foldl (fun (w : Work) q => match q.2 with
          | some i => (w.restoreImage q.1 i).on fun d => release d q.1
          | none => w) (Work.start s)
        (w.on fun d => controlDone d 0).finish s

end Sys2Proof.Machine
end

