-- ==== Sys2Proof/Machine/HostPort.lean ====
section
/-! DEFINITION. The host port (R375 to R380), the capability table (R329 to R331), attestation (R400), error-log reads
(R390), the Krovton recorder (R397), host lines (R376 to R379), and the peer links (R381, R382). -/
namespace Sys2Proof.Machine

/-- The host and the peers reach the device: bring-up passed and the core rail stands. -/
def Device.up (d : Device) : Bool := d.failedStep == 0 && !d.railLost

/-- Wall ns at which the input in hand arrived: of one that was held, the instant of its first arrival (R397). -/
def Device.arrivedAt (d : Device) : Nat := d.entering.getD d.wall

/-- Holds an input until KRRD frees room, or a checkpoint releases it (R393, R397). -/
def holdInput (d : Device) (part : Nat) (e : Input) : Device := d.onPart part fun p => { p with held := p.held ++ [(d.arrivedAt, e)] }

/-- Records an input in every partition of a list; the first whose ring is full, or which holds inputs, keeps it. -/
def recordIn (w : Work) (parts : List Nat) (kind link : Nat) (addr : Word) (payload : List Byte) : Except Nat Work :=
  parts.foldlM (fun (w : Work) part =>
    match w.krovton part kind link w.d.arrivedAt addr payload with
    | some w1 => .ok w1
    | none => .error part) w

/-- Answers of peers' memory are recorded, for which the rings have room (R397). -/
def Work.recordAnswers (w : Work) : Work :=
  w.d.inputs.foldl (fun w q => (w.krovton q.part 4 q.link w.d.wall q.addr q.payload).getD w) (w.on fun d => { d with inputs := [] })

/-- An input that enters partitions: recorded and acted on, or held (R397). -/
def input (s : State) (e : Input) (parts : List Nat) (kind link : Nat) (addr : Word) (payload : List Byte) (act : Work → Work) : Out :=
  if !s.dev.up then conclude s s.dev []
  else
    match recordIn (Work.start s) parts kind link addr payload with
    | .ok w => (act w).finish s
    | .error part => conclude s (holdInput s.dev part e) []

/-- Sends something to the host. -/
def Work.say (w : Work) (o : HostOut) : Work := w.on fun d => { d with hostOut := d.hostOut ++ [o] }

/-- CFGRD (R376): what was written, the failed step's number in its own register (R401), or a value the spec does not
give (assumption 31). -/
def execCfgrd (addr : Word) (s : State) : Out :=
  let d := s.dev
  let v := if addr = Config.stepRegister then BitVec.ofNat 64 d.failedStep
    else ((d.cfg.find? fun p => p.1 == addr).map Prod.snd).getD (Config.cfgValue addr)
  conclude s { d with hostOut := d.hostOut ++ [.cfgData addr v] } []

/-- CFGWR (R376). -/
def execCfgwr (addr value : Word) (s : State) : Out :=
  let d := s.dev
  conclude s { d with
    cfg := (d.cfg.filter fun p => p.1 != addr) ++ [(addr, value)]
    hostOut := d.hostOut ++ [.cfgDone addr] } []

/-- A capability record (R330). -/
def capRecord (kind die count free gran attr bytes : Nat) : List Word :=
  [BitVec.ofNat 64 (die * 2^16 + kind), BitVec.ofNat 64 (gran * 2^32 + attr), BitVec.ofNat 64 (count * 2^32 + free), BitVec.ofNat 64 bytes]

/-- Records of a die, in ascending KIND (R331); a lost die's count is 0 (R329). -/
def dieRecords (d : Device) (die : Nat) : List (List Word) :=
  let ps := d.parts.map Prod.snd
  let lost := d.lostDies.contains die
  let rc (kind count used gran attr bytes : Nat) : List Word :=
    if lost then capRecord kind die 0 0 gran attr bytes else capRecord kind die count (count - used) gran attr bytes
  let blocks := (ps.map fun p => (p.blocks.filter fun b => b / 16 == die).length).sum
  let chans := (ps.map fun p => ((p.channels.filter fun c => c.1 == die).map fun c => c.2.2).sum).sum
  let slots := ((List.range 64).filter fun j => ps.any fun p => (p.slotsOn die).getLsbD j).length
  let grans := min 8 ((ps.map fun p => p.granulesOn die).sum)
  if die < 8 then
    [rc 1 16 blocks 1 (if die < 4 then 0 else 1) 0] ++
    (if die < 4 then [rc 3 96 chans 1 24 3072000000000] else [rc 2 384 chans 8 4 256000000000]) ++
    [rc 4 64 slots 1 64 0, rc 5 8 grans 1 256 65536]
  else
    [rc 4 64 slots 1 64 0, rc 6 8 ((ps.map fun p => (p.links.filter fun l => l.1 == die).length).sum) 1 (8 * (die - 8)) 0,
     rc 9 32 ((d.blockQueues.filter fun b => b.id / 32 == die - 8).length) 1 (32 * (die - 8)) 0]

/-- The capability table (R329). -/
def capabilityTable (d : Device) : List Byte :=
  let rs := ((List.range 10).map (dieRecords d)).flatten ++
    [capRecord 7 0xFF 512 (512 - (d.vfs.filter fun v => v.2.part.isSome).length) 1 0 0, capRecord 8 0xFF 64 (64 - d.parts.length) 1 0 0]
  dwordBytes ([BitVec.ofNat 64 (2^32 + rs.length), 0, 0, 0] ++ rs.flatten)

/-- Partitions with a traced launch. -/
def tracedParts (d : Device) : List Nat := (d.parts.map Prod.fst).filter (traced d)

/-- CAPABILITY_READ (R329, R380). -/
def execCapabilityRead (offset length : Nat) (s : State) : Out :=
  input s (.capability offset length) (tracedParts s.dev) 5 0 0 (dwordBytes [BitVec.ofNat 64 offset, BitVec.ofNat 64 length, 0, 0, 0, 0, 0, 0])
    fun w => w.say (.capability (((capabilityTable w.d).drop offset).take length))

/-- CONTROL_POST (R332, R380): the command is posted in the control queue, whose full state it is told as a POST is; a partition that a
checkpoint holds keeps it, unless it is the next CHECKPOINT or RESTORE. -/
def execControlPost (packet : List Word) (s : State) : Out :=
  let op := field (packet.getD 0 0) 0 8
  let part := partId packet
  if (s.dev.partAt part).holding && op != 8 && op != 9 then conclude s (holdInput s.dev part (.control packet)) []
  else
    input s (.control packet) ((tracedParts s.dev).filter fun p => p == part) 5 0 0 (dwordBytes packet) fun w =>
      match postControl w.d packet with
      | some d => ({ w with d := d } : Work).say .accepted
      | none => w.say (.slotIndex allOnes)

/-- Bytes of a quote before its signature (R400). -/
def quoteBytes (ms : List (BitVec 384)) (nonce : BitVec 384) (wall boot : Word) : List Byte :=
  (ms.map hashBytes).flatten ++ hashBytes nonce ++ dwordBytes [wall, boot]

/-- ATTESTATION (R400): any requester, at any time. A quote waits on no partition: a full ring of one records nothing of it (R397;
assumption 111, DESIGN CHOICE). -/
def execAttestation (nonce : BitVec 384) (s : State) : Out :=
  if !s.dev.up then conclude s s.dev []
  else
    let w := (tracedParts s.dev).foldl (fun w part =>
      (w.krovton part 5 0 w.d.wall 0 (hashBytes nonce ++ List.replicate 16 0)).getD w) (Work.start s)
    let d := w.d
    let wall := BitVec.ofNat 64 d.wall
    let boot := BitVec.ofNat 64 d.bootCount
    (w.say (.quote d.measurements nonce wall boot
      (Config.signature (sha384 (quoteBytes d.measurements nonce wall boot)) d.bootCount))).finish s

/-- ERROR_LOG_READ (R390): the held records at or above a SEQ, in order; a count outside 1 to 64 answers as its bound. -/
def execErrorLogRead (first : Word) (count : BitVec 32) (s : State) : Out :=
  input s (.errorLog first count) (tracedParts s.dev) 5 0 0 (dwordBytes [first, count.setWidth 64, 0, 0, 0, 0, 0, 0]) fun w =>
    w.say (.records ((w.d.log.reverse.filter fun r => decide (first.toNat ≤ (r.getD 0 0).toNat)).take (min count.toNat 64)))

/-- MGMT_REFUSED (R380). -/
def execMgmtRefused (code : Word) (s : State) : Out :=
  if 1 ≤ code.toNat ∧ code.toNat ≤ 4 then conclude s s.dev []
  else conclude s { s.dev with hostOut := s.dev.hostOut ++ [.refusedCode 0xFD] } []

/-- What a POST does at its queue: it is answered, or must wait. -/
inductive Posted where
  | answer (w : Work) (index : Word)
  | hold (d : Device)

/-- A POST's claim of a slot (R231, R376): a queue that R230 refuses answers all ones with nothing written. -/
def Work.postAt (w : Work) (part vf : Nat) (queue : Word) (ws : List Word) : Posted :=
  let g := dispatchAgent w.d part vf
  let d := w.d
  match g.targets w.m (cuts 65 queue 64) d [] with
  | (.error .hold, d1) => .hold (keepAsked d d1)
  | (.error _, _) => .answer w allOnes
  | (.ok ts, d1) =>
    match ts.head? with
    | none => .answer w allOnes
    | some (p, _) =>
      if queue.toNat % 64 ≠ 0 ∨ queuePlace p = false then .answer w allOnes
      else
        match headerOf (d.partAt part) ((List.range 8).map fun i => w.m.word (p.key + 8 * i)) with
        | none => .answer w allOnes
        | some (wr, rd, ring, log2n, cluster) =>
          if 2^log2n ≤ (wr + 2^64 - rd) % 2^64 then .answer w allOnes
          else
            let slot := ring + BitVec.ofNat 64 (64 * (wr % 2^log2n))
            match g.targets w.m (cuts 65 slot 64) d1 [] with
            | (.error .hold, d2) => .hold (keepAsked d d2)
            | (.error _, _) => .answer w allOnes
            | (.ok qs, d2) =>
              match qs.head? with
              | none => .answer w allOnes
              | some (q, _) =>
                if queuePlace q = false then .answer w allOnes
                else
                  let w1 := (({ w with d := d2 } : Work).words p.key [BitVec.ofNat 64 (wr + 1)]).words q.key ws
                  .answer (w1.on fun d => notify d part vf cluster queue ring log2n wr ws false none p.key g.core) (BitVec.ofNat 64 wr)

/-- POST (R341, R376): a host or peer POST claims a slot exactly as CPOST does. -/
def execPost (vf : Nat) (queue : Word) (packet : List Word) (s : State) : Out :=
  let ws := (packet ++ List.replicate 8 0).take 8
  match (s.dev.vfAt vf).part with
  | none => if s.dev.up then conclude s { s.dev with hostOut := s.dev.hostOut ++ [.slotIndex allOnes] } [] else conclude s s.dev []
  | some part =>
    if (s.dev.partAt part).holding then conclude s (holdInput s.dev part (.post vf queue packet)) []
    else
      match (Work.start s).postAt part vf queue ws with
      | .hold d => conclude s { d with agenda := d.agenda ++ [.input (.post vf queue packet) d.arrivedAt d.now] } []
      | .answer _ _ =>
        input s (.post vf queue packet) [part] 1 0 queue (dwordBytes ws) fun w =>
          match w.postAt part vf queue ws with
          | .answer w1 i => w1.say (.slotIndex i)
          | .hold _ => w

/-- Partitions whose requests for a host line wait at the proxy: the host's data enters them (R397). -/
def hostReaders (d : Device) (line : Nat) : List Nat := ((d.hostAsks.filter fun q => q.line == line).map HostAsk.part).eraseDups

/-- The grant of a line once HMRD has brought n bytes of it from an address: the whole line, or a half of a line that was asked for in
halves (R376). None where that is not what was asked for. -/
def dataCame (g addr n : Nat) : Option Nat :=
  let half := if addr % 128 = 0 then 8 else 16
  if g % 4 = 0 ∨ grantData g = true then none
  else if g < 4 then (if addr % 128 = 0 ∧ n = 128 then some (g + 4) else none)
  else if n ≠ 64 ∨ addr % 64 ≠ 0 ∨ g / half % 2 = 1 then none
  else if g / 8 % 4 = 0 then some (g + half)
  else some (g % 4 + 4)

/-- HMRD_COMPLETION (R376, R378): data of a line that the proxy was granted, of 128 bytes or of 64 as it was asked for. Host memory has no
full bits, and what comes from the host is not poisoned. -/
def execHmrdCompletion (addr : Word) (data : List Byte) (s : State) : Out :=
  let key := Config.hostBase + addr.toNat % 2^57
  let line := lineOf key
  match dataCame (s.dev.grantOf line) addr.toNat data.length with
  | none => conclude s s.dev []
  | some g =>
    let words := wordsOf key data.length
    input s (.hmrd addr data) ((hostReaders s.dev line).filter (traced s.dev)) 2 0 addr data fun w =>
      (w.edit ((data.zipIdx.map fun q => .byte (key + q.2) q.1) ++ words.map fun k => .poison k false) words).on fun d =>
        { d with grants := assocPut line g d.grants }

/-- HMWR_COMPLETION (R376, R377): the host completes the `n`th of the writes in flight. -/
def execHmwrCompletion (n : Nat) (s : State) : Out := conclude s { s.dev with hmwrs := s.dev.hmwrs.eraseIdx n } []

/-- HAMO_ANSWER (R376, R377): the host returns the old value of an atomic, which then completes. The value is what the word held: the
proxy holds the line exclusively, so that no other value is there (R280, R378). -/
def execHamoAnswer (n : Nat) (old : Word) (s : State) : Out :=
  match s.dev.access n with
  | none => conclude s s.dev []
  | some a =>
    match a.pieces.zipIdx.find? fun q => !q.1.done with
    | none => conclude s s.dev []
    | some (p, i) =>
      if !a.hostPending ∨ s.mem.word p.key ≠ old then conclude s s.dev []
      else
        input s (.hamo n old) ([a.part].filter (traced s.dev)) 3 0 (BitVec.ofNat 64 (p.key - Config.hostBase)) (dwordBytes [old]) fun w =>
          let a1 := { a with hostPending := false }
          match a.kind with
          | .amo op _ e =>
            let new := amoNew op 8 old.toNat p.data.toNat e.toNat
            let w0 := w.on fun d => d.setAccess a1
            let w1 := (if new.isSome then w0.fire [p.key / 8] else w0).edit (storeEdits p.key 8 (new.getD old.toNat)) [p.key / 8]
            (w1.trace a1 p new.isNone).progress (a1.partDone i old)
          | _ => w

/-- TGRANT (R376, R378): the host grants what TREQ asked. A line without its data is read with HMRD, whole or in two halves of 64 bytes,
which a free choice decides (R376; assumption 106). -/
def execTgrant (line : Nat) (exclusive : Bool) (s : State) : Out :=
  let d := s.dev
  if !d.treqs.contains (line, exclusive) then conclude s d []
  else
    let had := d.grantOf line
    let kind := if exclusive || had % 4 == 2 then 2 else 1
    let (halves, d1) := if had = 0 then d.drawBit else (false, d)
    let a := 128 * line - Config.hostBase
    let ask : List HostOut := if had ≠ 0 then []
      else if halves then [.hmrd (BitVec.ofNat 64 a) 64, .hmrd (BitVec.ofNat 64 (a + 64)) 64] else [.hmrd (BitVec.ofNat 64 a) 128]
    conclude s { d1 with
      treqs := d.treqs.erase (line, exclusive)
      grants := assocPut line (kind + had / 4 * 4 + if halves then 32 else 0) d.grants
      hostOut := d.hostOut ++ ask } []

/-- Whether a request for a host line still stands. -/
def HostAsk.stands (d : Device) (r : HostAsk) : Bool :=
  if r.who.1 = 8 then
    d.tokenReqs.any (fun q => q.line == r.line && q.core == some r.who.2.1) || d.persist.any fun q => q.line == r.line && q.core == some r.who.2.1
  else decide (r.who.1 < 4) && MeterWait.stands d ⟨0, 0, r.who⟩

/-- Whether a device request that arrived before a snoop is served before it (R378): the grant serves it. -/
def askFirst (d : Device) (q : Snoop) : Bool :=
  d.hostAsks.any fun r => r.line == q.line && decide (r.since < q.since) && grantServes (d.grantOf q.line) r.exclusive && r.stands d

/-- Answers a standing snoop (R378): none while the line's tokens are away, an atomic on it is at the host, its data is on its way, or an
earlier device request is served first. Dirty data goes back, then the lowered grant. -/
def answerSnoop (m : Memory) (d : Device) (q : Snoop) : Option Device :=
  let had := d.grantOf q.line
  if had ≠ 0 ∧ ((d.lineAt q.line).home ≠ Config.tokensPerLine ∨ d.hostAtomic q.line = true ∨ grantData had = false ∨ askFirst d q = true) then none
  else
    let low := if q.exclusive || had == 0 then 0 else 5
    let d1 := d.homeClean m q.line
    some { d1 with
      snoops := d1.snoops.erase q
      grants := if low = 0 then assocDrop q.line d1.grants else assocPut q.line low d1.grants
      hostOut := d1.hostOut ++ [.snoopAnswer q.line (low % 4)] }

/-- A snoop collects what is away: tokens in L1s are called home (R256, R378). -/
def callHome (d : Device) (line : Nat) : Device := if d.grantOf line ≠ 0 then d.recall line else d

/-- Snoops that can be answered are, in order of arrival (R378). -/
def answerSnoops (m : Memory) (d : Device) : Device := d.snoops.foldl (fun d q => (answerSnoop m (callHome d q.line) q).getD (callHome d q.line)) d

/-- TSNP (R376, R378): the proxy collects every token of the line, writes dirty data back, and answers with the lowered grant; until then
the snoop stands, and later device requests for the line wait. -/
def execTsnp (line : Nat) (exclusive : Bool) (s : State) : Out :=
  let d := s.dev
  let d1 : Device := if d.snoops.any fun q => q.line == line && q.exclusive == exclusive then d
    else { d with snoops := d.snoops ++ [⟨line, exclusive, d.wall⟩] }
  conclude s (answerSnoops s.mem d1) []

/-- XINV (R359, R379): a broadcast invalidation acts as TLBINV; with 64 not yet synchronised the host has no credit. -/
def execXinv (vf : Nat) (addr : Word) (size : BitVec 2) (s : State) : Out :=
  let d := s.dev
  if 64 ≤ d.xinvs.length ∨ d.up = false then conclude s d []
  else
    let d1 := invalidate d (vf % 512) addr size.toNat
    conclude s { d1 with xinvs := d1.xinvs ++ [(vf % 512, d.nextAccess)] } []

/-- Whether an access that used a translation which the first n XINVs dropped has not performed (R359). -/
def xsyncWaits (d : Device) (n : Nat) : Bool :=
  (d.accesses.any fun a => !a.complete && a.fault.isNone && (d.xinvs.take n).any fun x => x.1 == a.vf && decide (a.id < x.2)) ||
  d.packets.any fun k => !k.rest.isEmpty && (d.xinvs.take n).any fun x => x.1 == k.vf

/-- Answers the XSYNCs that can be answered, in order of arrival (R379); `fuel` bounds them. -/
def answerXsyncs : Nat → Device → Device
  | 0, d => d
  | fuel + 1, d =>
    match d.xsyncs with
    | [] => d
    | (number, n) :: rest =>
      if xsyncWaits d n then d
      else
        answerXsyncs fuel { d with
          xinvs := d.xinvs.drop n
          xsyncs := rest.map fun q => (q.1, q.2 - n)
          hostOut := d.hostOut ++ [.xsyncAck number] }

/-- XSYNC (R359, R379): it covers the XINVs received before it, and is answered once every access that used a translation they
dropped has performed. -/
def execXsync (number : Word) (s : State) : Out :=
  let d := { s.dev with xsyncs := s.dev.xsyncs ++ [(number, s.dev.xinvs.length)] }
  conclude s (answerXsyncs d.xsyncs.length d) []

/-- The partition that holds a peer link. -/
def linkOwner (d : Device) (link : Nat) : Option Nat := (d.parts.find? fun p => p.2.links.contains (8 + link / 8, link % 8)).map Prod.fst

/-- Flits up to ACKSEQ are acknowledged (R381): the peer has what they carry, and reports it performed. -/
def PeerLink.acked (l : PeerLink) (ack : BitVec 12) : PeerLink :=
  match l.sent.findIdx? fun q => q.seq == ack with
  | some i => { l with sent := l.sent.drop (i + 1), reports := l.reports ++ (l.sent.take (i + 1)).filterMap Flit.req }
  | none => l

/-- The peer asks for a replay from ACKSEQ + 1 (R381, R382): the first flit that stands was received badly, and those after it were
discarded. -/
def PeerLink.nacked (l : PeerLink) (ack : BitVec 12) : PeerLink :=
  let l1 := l.acked ack
  { l1 with sent := l1.sent.modify 0 fun q => { q with fails := q.fails + 1 } }

/-- Credits that a flit returns are added, 8 bits for each of the 4 traffic classes (R381). -/
def addCredits (have_ more : BitVec 32) : BitVec 32 :=
  BitVec.ofNat 32 (((List.range 4).map fun i =>
    ((have_.toNat / 256^i % 256 + more.toNat / 256^i % 256) % 256) * 256^i).sum)

/-- PEER_FLIT (R381, R382): a flit is accepted in SEQ order with a good CRC; another is discarded and NACKed once. KIND 3 to
15 are discarded. One with NACK set asks for a replay. -/
def execPeerFlit (link : Nat) (header : Word) (payload : List Byte) (crcGood : Bool) (s : State) : Out :=
  let d := s.dev
  let l := d.peerAt link
  let seq : BitVec 12 := BitVec.ofNat 12 (field header 52 12)
  let kind := field header 32 4
  if 16 ≤ link ∨ l.down = true ∨ d.up = false ∨ d.lostDies.contains (8 + link / 8) = true then conclude s d []
  else if !crcGood || seq != l.expect then
    conclude s (d.onPeer link fun l => { l with nackSent := some (l.expect - 1) }) []
  else
    let ack : BitVec 12 := BitVec.ofNat 12 (field header 40 12)
    let took (w : Work) : Work := w.on fun d => d.onPeer link fun l =>
      { (if 3 ≤ kind then l else if header.getLsbD 39 then l.nacked ack else l.acked ack) with
        expect := l.expect + 1
        nackSent := none
        heard := d.wall
        credit := if 3 ≤ kind then l.credit else addCredits l.credit (header.setWidth 32) }
    match linkOwner d link with
    | none => (took (Work.start s)).finish s
    | some part =>
      let e : Input := .peer link header payload crcGood
      if kind ≠ 1 then (took (Work.start s)).finish s
      else if (d.partAt part).holding then conclude s (holdInput d part e) []
      else
        match (recordIn (Work.start s) [part] 4 link 0 (payload.take 128)).bind fun w => recordIn w [part] 4 link 128 (payload.drop 128) with
        | .error p => conclude s (holdInput d p e) []
        | .ok w => (took w).finish s

/-- NACK (R381, R382): the sender replays from ACKSEQ + 1. -/
def execNack (link : Nat) (ackSeq : BitVec 12) (s : State) : Out := conclude s (s.dev.onPeer link fun l => l.nacked ackSeq) []

/-- A flit that retraining could not deliver is a lost request (R268, R382): it is logged, and its request is sent again. -/
def Work.loseFlit (w : Work) (link : Nat) (q : Flit) : Work :=
  (w.log { cls := 7, store := 0x14, part := linkOwner w.d link, source := (8 + link / 8) * 16384
           detail := BitVec.ofNat 64 (link % 16 * 2^60 + q.seq.toNat) }).on fun d =>
    d.onPeer link fun l => { l with sent := l.sent ++ [{ q with fails := 0 }] }

/-- LINK_RETRAIN (R382): after 8 failed replays of one flit, nine NACKs of it, each flit held for replay is delivered whole, or reported
uncorrectable. `delivered` says that all of them are; otherwise a free choice decides for each. -/
def execLinkRetrain (link : Nat) (delivered : Bool) (s : State) : Out :=
  let w := Work.start s
  let l := w.d.peerAt link
  if !(l.sent.any fun q => decide (9 ≤ q.fails)) then conclude s s.dev []
  else
    (l.sent.foldl (fun (w : Work) q =>
      let (b, d) := if delivered then (true, w.d) else w.d.drawBit
      let w1 : Work := { w with d := d }
      if b then w1.on fun d => d.onPeer link fun l => { l with reports := l.reports ++ q.req.toList } else w1.loseFlit link q)
      (w.on fun d => d.onPeer link fun l => { l with sent := [] })).finish s

/-- Declares a peer link down (R382, R390): what waits on it completes as if its data were poisoned. -/
def Work.downLink (w : Work) (link : Nat) : Work :=
  let w1 := (w.on fun d => d.onPeer link fun l => { l with down := true, sent := [], reports := [] }).log
    { cls := 12, store := 0x14, part := linkOwner w.d link, source := (8 + link / 8) * 16384, detail := BitVec.ofNat 64 (link % 16 * 2^60) }
  let waiting := (w1.d.accesses.map fun a => (a.pieces.zipIdx.filterMap fun q =>
    if !q.1.done && a.fault.isNone && q.1.port == .peer link then some (a.id, q.2, q.1) else none)).flatten
  waiting.foldl (fun (w : Work) q =>
    match w.d.access q.1 with
    | some a => if a.fault.isSome then w else w.atPeer a q.2.1 q.2.2 link
    | none => w) w1

/-- Peer links in use: those that have carried something, and those of the partitions. -/
def linksInUse (d : Device) : List Nat :=
  ((d.peers.map PeerLink.id ++ (d.parts.map fun (p : Nat × Partition) => p.2.links.map fun (l : Nat × Nat) => 8 * (l.1 - 8) + l.2).flatten).eraseDups).filter fun l => !d.peerDown l

/-- Heartbeats leave on peer links over which nothing has left for 4 µs (R382). -/
def peerBeats (d : Device) : Device :=
  ((linksInUse d).filter fun l => decide ((d.peerAt l).beat + 4000 ≤ d.wall ∧ (d.peerAt l).sent.length < 512)).foldl
    (fun d l => d.sendFlit l 2 none) d

/-- LINK_DOWN (R382): a link silent for 64 µs. -/
def execLinkDown (link : Nat) (s : State) : Out :=
  let l := s.dev.peerAt link
  if 16 ≤ link ∨ l.down = true ∨ s.dev.wall < l.heard + 64000 then conclude s s.dev [] else ((Work.start s).downLink link).finish s

end Sys2Proof.Machine
end

