-- ==== Sys2Proof/Machine/Errors.lean ====
section
/-! DEFINITION. Errors of storage and of control state (R384 to R387), a lost die (R267, R388), reset and bring-up (R399,
R401), loss of the core rail (R391), UCIe lanes (R375), and encodings that are no instruction (R87). -/
namespace Sys2Proof.Machine

/-- An on-chip place's own core. -/
def coreOfKey (key : Nat) : Option Nat :=
  if key < Config.scratchpadBase then none
  else if key < Config.laneBase then some ((key - Config.scratchpadBase) / 2^19)
  else if key < Config.dieScratchBase then some ((key - Config.laneBase) / 2^17)
  else some (4 * ((key - Config.dieScratchBase) / 2^19))

/-- The partition to which an error at a place is attributed. -/
def partOfKey (d : Device) (key : Nat) : Option Nat :=
  match coreOfKey key with
  | some c => (d.parts.find? fun p => p.2.hasCore c).map Prod.fst
  | none => if key < Config.hostBase then partOfPa d key else none

/-- Die of a place key's memory beside the cores: hub die 8 for host memory, that of the link for a peer's. -/
def dieOfKey (key : Nat) : Nat :=
  if key < Config.hostBase then dieOfPa key % 16 else if key < Config.peerBase then 8 else 8 + linkOf key / 8

/-- The partition of a core. -/
def partOfCore (d : Device) (core : Nat) : Option Nat := (d.parts.find? fun p => p.2.hasCore core).map Prod.fst

/-- A machine error's record about a place (R389). -/
def errorEvent (d : Device) (cls store : Nat) : ErrorPlace → Event
  | .memory key =>
    { cls := cls, store := store, part := partOfKey d key, addr := recordAddr d key, source := match coreOfKey key with
        | some c => packName c 0
        | none => dieOfKey key * 16384 }
  | .gReg c _ r => { cls := cls, store := store, part := partOfCore d c, addr := (Reg.g r).poisonVal, source := packName c 0 }
  | .vReg c _ r => { cls := cls, store := store, part := partOfCore d c, addr := (Reg.v r).poisonVal, source := packName c 0 }
  | .slot c i => { cls := cls, store := store, part := partOfCore d c, addr := BitVec.ofNat 64 (0xFD * 2^56 + 3 * 2^12 + i), source := packName c 0 }
  | .accumulator c a r =>
    { cls := cls, store := store, part := partOfCore d c, addr := BitVec.ofNat 64 (0xFD * 2^56 + 4 * 2^12 + 64 * a + r), source := packName c 0 }
  | .scratch c i => { cls := cls, store := store, part := partOfCore d c, addr := BitVec.ofNat 64 (0xFD * 2^56 + 5 * 2^12 + i), source := packName c 0 }
  | .rres c => { cls := cls, store := store, part := partOfCore d c, addr := BitVec.ofNat 64 (0xFD * 2^56 + 6 * 2^12), source := packName c 0 }
  | .control c _ => { cls := cls, store := store, part := partOfCore d c, source := packName c 0 }
  | .issue c => { cls := cls, store := store, part := partOfCore d c, source := packName c 0 }
  | .tokens line => { cls := cls, store := store, part := partOfKey d (128 * line), addr := recordAddr d (128 * line), source := dieOfKey (128 * line) * 16384 }
  | .l1Line c line => { cls := cls, store := store, part := partOfKey d (128 * line), addr := recordAddr d (128 * line), source := packName c 0 }
  | .cleanSlice line => { cls := cls, store := store, part := partOfKey d (128 * line), addr := recordAddr d (128 * line), source := dieOfKey (128 * line) * 16384 }
  | .icacheLine c line => { cls := cls, store := store, part := partOfKey d (128 * line), addr := recordAddr d (128 * line), source := packName c 0 }
  | .tlbEntry cluster vf _ => { cls := cls, store := store, part := (d.vfAt vf).part, source := cluster * 64 }
  | .die die => { cls := cls, store := store, source := die % 16 * 16384 }

/-- SOFT_ERROR (R384): corrected in place and logged, with no other effect. -/
def execSoftError (store : BitVec 8) (where_ : ErrorPlace) (s : State) : Out :=
  let w := Work.start s
  (w.log (errorEvent w.d 1 store.toNat where_)).finish s

/-- Words that an uncorrectable error at a place of memory marks: a DRAM codeword's four, or the word of a dirty slice line or of another
store (R384). -/
def badWords (store key : Nat) : List Nat :=
  if key < Config.hostBase ∧ store ≠ 0x0A then (List.range 4).map fun i => key / 32 * 4 + i else [key / 8]

/-- An error that leaves the data whole, since what it met is fetched or walked again, is logged as corrected (R384, R389; assumption 112,
DEDUCED). -/
def Work.refetched (w : Work) (store : Nat) (p : ErrorPlace) : Work := w.log (errorEvent w.d 1 store p)

/-- The fault-queue entry that tells firmware of an event which has just been logged (R387, R390). -/
def Work.notice (w : Work) (e : Event) : Work :=
  match e.part with
  | some part => (w.faultEntry part (noticeEntry e.cls (w.d.logSeq - 1) e.source) false).1
  | none => w

/-- A context stopped by an error of its own state (R387): as by a trap with TRAPVEC = 0, CAUSE 0x0C and TRAPVAL 0. -/
def stopByError (d : Device) (core slot : Nat) : Device :=
  match d.ctxAt core slot with
  | none => d
  | some x =>
    if x.isStopped then d
    else
      let d0 := withdraw d core slot
      let waits (a : Access) : Bool := a.core == core && a.slot == slot && (match a.kind with
        | .ldf _ _ => !a.complete
        | .stf true => !a.complete
        | _ => false)
      let d1 := (d0.accesses.filter waits).foldl neverSent d0
      let d2 : Device := { d1 with
        accesses := (d1.accesses.filter fun a => !waits a).map fun a => if a.core = core ∧ a.slot = slot then { a with orphan := true } else a }
      let d3 := d2.onCtx core slot fun x =>
        { (x.onSys fun r => { r with trapcause := cPOISON, trappc := x.regs.pc, trapval := 0 }) with
          pending := [], stallSince := none, stalled := false, taken := [] }
      stopCtx d3 core slot 3 0 cPOISON

/-- An error of a context's own state is logged with its TID, and firmware is told (R387, R390). -/
def Work.stopContext (w : Work) (core slot : Nat) : Work :=
  match w.d.ctxAt core slot with
  | none => w
  | some x =>
    if x.isStopped then w
    else
      (w.log { cls := 10, store := 0x03, part := some x.part, tid := x.tid, source := packName core slot }).on fun d => stopByError d core slot

/-- Whether a die has been silent for 64 µs (R266). -/
def silent (d : Device) (die : Nat) : Bool := decide ((assocGet die d.heard).getD 0 + 64000 ≤ d.wall)

/-- Lines with tokens on a die or in flight to or from it (R388 step 1). -/
def linesOf (d : Device) (die : Nat) : List Nat :=
  ((d.lines.filter fun l => l.2.holders.any fun h => dieOfCore h.1 == die).map Prod.fst) ++
  (d.tokenMsgs.filter fun t => t.from_ == die || (match t.to_ with
    | some c => dieOfCore c
    | none => dieOfLine t.line) == die).map TokenMsg.line

/-- Words of monitors on a die's memory. -/
def monitorsOn (d : Device) (die : Nat) : List Nat :=
  (d.cores.map fun c => c.2.slots.filterMap fun o => (o.bind Context.monitor).bind fun m => if m.key < Config.hostBase ∧ dieOfPa m.key = die then some (m.key / 8) else none).flatten

/-- A partition that holds a unit on a die. -/
def Partition.onDie (p : Partition) (die : Nat) : Bool :=
  p.dies.contains die || p.channels.any (fun c => c.1 == die) || p.slotsOn die != 0 || p.links.any fun l => l.1 == die

/-- What stood on a lost die or on its way to it is gone. -/
def abandon (d : Device) (die : Nat) : Device :=
  let on (c : Nat) : Bool := dieOfCore c == die
  { d with
    cores := d.cores.filter fun c => !on c.1
    lines := d.lines.map fun l => (l.1, { l.2 with holders := l.2.holders.filter fun h => !on h.1 })
    tokenMsgs := d.tokenMsgs.filter fun t => !(t.from_ == die || (match t.to_ with
      | some c => dieOfCore c
      | none => dieOfLine t.line) == die)
    tokenReqs := d.tokenReqs.filter fun r => !r.core.any on
    persist := d.persist.filter fun r => !(r.die == die || r.core.any on)
    messages := d.messages.filter fun m => !(on m.from_ || on m.to_)
    markers := (d.markers.filter fun m => !on m.core && !(m.die == die && m.rel.isSome)).map fun m =>
      if m.die = die then { m with arrived := true, acked := true } else m
    accesses := d.accesses.filter fun a => !on a.core
    landings := d.landings.filter fun l => !(on l.core || l.die == die)
    commands := d.commands.filter fun c => !on c.core
    saved := d.saved.filter fun v => !(v.whole && on v.core)
    engines := d.engines.filter fun e => e.1 / 256 != die
    notices := d.notices.filter fun n => n.cluster / 256 != die
    packets := d.packets.filter fun q => q.cluster / 256 != die
    fills := d.fills.filter fun f => !on f.core
    transfers := d.transfers.filter fun t => !(on t.to_ || on t.from_)
    signals := d.signals.filter fun q => !on q.core
    arrivals := d.arrivals.filter fun r => !on r.core
    blockReqs := d.blockReqs.filter fun r => !on r.core
    shipments := d.shipments.filter fun q => !(on q.from_ || on q.to_)
    deferred := d.deferred.filter fun q => !on q.2.1
    hints := d.hints.filter fun q => q.2 != die && dieOfLine q.1 != die
    writeBacks := d.writeBacks.filter fun q => q.1 / 256 != die
    launches := d.launches.map fun l => { l with cores := l.cores.filter fun c => !on c } }

/-- Contexts that waited for a landing on a lost die issue again. -/
def strand (d : Device) (die : Nat) : Device :=
  (d.landings.filter fun l => l.die == die).foldl (fun d l => d.onCtx l.core l.slot fun x =>
    match x.phase with
    | .parked ⟨.landing, _, _, _⟩ => { x with phase := .ready, taken := [] }
    | _ => x) d

/-- A die is lost (R267, R388), in the order of R388. -/
def Work.loseDie (w : Work) (die : Nat) : Work :=
  let w0 := w.commits fun p => p.port.die == die
  let w := w0.on fun d => failWaiting { d with lostDies := d.lostDies ++ [die] } fun p => p.port.die == die
  let w1 := (linesOf w.d die).foldl Work.loseLine w
  let w2 := w1.fire (monitorsOn w1.d die)
  let w3 := w2.on fun d =>
    let d1 := (d.launches.filter fun l => l.cores.any fun c => dieOfCore c == die).foldl (fun d l => if l.ended.isSome then d else endLaunch d l (2, 0, 0)) d
    let d2 := abandon (strand d1 die) die
    (List.range 10).foldl (fun d far => if far = die then d else setLink d die far .lost) d2
  let into := w3.d.packets.filter fun q => (destinationCores w3.d q.words q.claim).any fun c => dieOfCore c == die
  let w4 := into.foldl (fun (w : Work) q => (if q.recorded then w else w.packetSignal q cCOHLOSS.toNat).packetDone q) w3
  let parts := (w4.d.parts.filter fun p => p.2.onDie die).map Prod.fst
  let note (p : Option Nat) : Event := { cls := 11, store := 0x17, part := p, source := die % 16 * 16384 }
  let w5 := if parts.isEmpty then w4.log (note none) else parts.foldl (fun (w : Work) p => w.log (note (some p))) w4
  let w6 := if die < 8 then w5
    else ((List.range 8).map fun i => 8 * (die - 8) + i).foldl (fun (w : Work) l => if (w.d.peerAt l).down then w else w.downLink l) w5
  w6

/-- An uncorrectable error at a place (R384, R385, R387). -/
def Work.uncorrectable (w : Work) (store : Nat) (p : ErrorPlace) : Work :=
  let note (w : Work) : Work := w.log (errorEvent w.d 2 store p)
  match p with
  | .memory key =>
    -- a clean line of a slice is fetched again
    if store = 0x0A ∧ key < Config.hostBase ∧ (w.d.lineAt (lineOf key)).homeDirty = false then w.refetched store p
    else
      let words := badWords store key
      (w.poisons words []).log { errorEvent w.d 2 store p with addr := recordAddr w.d (8 * words.headD 0) }
  | .gReg c i r => note (w.on fun d => d.onCtx c i fun x => if r = 0 then x else x.putG r { x.getG r with poison := true })
  | .vReg c i r => note (w.on fun d => d.onCtx c i fun x => x.putV r { x.getV r with poison := true })
  | .slot c i => note (w.on fun d => d.onCore c fun k => { k with opSlots := k.opSlots.modify i fun o => { o with poison := true } })
  | .accumulator c a r => note (w.on fun d => d.onCore c fun k => { k with accPoison := keyAdd (64 * a + r) k.accPoison })
  | .scratch c i => note (w.on fun d => d.onCore c fun k => { k with scratchPoison := keyAdd i k.scratchPoison })
  | .rres c => note (w.on fun d => d.onCore c fun k => { k with rresPoison := true })
  | .control c i => w.stopContext c i
  | .issue c =>
    let w1 := w.log { errorEvent w.d 10 0x16 p with store := 0x16 }
    w1.on fun d => ((List.range 16).foldl (fun d i => stopByError d c i) d).onCore c fun k => { k with fenced := true }
  | .tokens line => (note (w.loseLine line)).notice (errorEvent w.d 2 store p)
  | .l1Line c line =>
    let dirty := (w.d.lineAt line).holders.any fun h => h.1 == c && h.2.2.2
    if dirty then
      -- which words of the line are bad is not given
      let r := (lineWords (w.d.lineAt line) line).foldl (fun (acc : List Nat × Device) k =>
        let (b, d) := acc.2.drawBit
        (if b then acc.1 ++ [k] else acc.1, d)) (([] : List Nat), w.d)
      note ((({ w with d := r.2 } : Work).poisons r.1 []).on fun d => d.shed c line)
    else (w.on fun d => d.shed c line).refetched store p
  | .cleanSlice _ => w.refetched store p
  | .icacheLine c line =>
    (w.on fun d => d.onCore c fun k => { k with icache := k.icache.filter fun h => h.1 / 128 != line }).refetched store p
  | .tlbEntry cluster vf a => (w.on fun d => { d with tlb := d.tlb.filter fun t => !t.covers cluster vf a }).refetched store p
  | .die die => if 10 ≤ die ∨ w.d.lostDies.contains die = true then w else w.loseDie die

/-- UNCORRECTABLE_ERROR (R384 to R387). -/
def execUncorrectableError (store : BitVec 8) (where_ : ErrorPlace) (s : State) : Out :=
  ((Work.start s).uncorrectable store.toNat where_).finish s

/-- PATROL_SCRUB (R384): neither an event nor a write for any other agent, unless the word cannot be corrected. -/
def execPatrolScrub (key : Nat) (found : ScrubFinding) (s : State) : Out :=
  let w := Work.start s
  match found with
  | .clean => conclude s s.dev []
  | .corrected => (w.log (errorEvent w.d 1 (storeCode key) (.memory key))).finish s
  | .uncorrectable => (w.uncorrectable (storeCode key) (.memory key)).finish s

/-- Memory that is left when power leaves everything but the granaries' self-refresh (R391, R401). -/
def keepSpans (m : Memory) (spans : List (Nat × Nat)) : List Edit :=
  ((m.cells.filter fun c => !inSpans spans c.1).map fun c => .byte c.1 0) ++
  ((m.empties.filter fun w => !inSpans spans (8 * w)).map fun w => .full w true) ++
  ((m.poisoned.filter fun w => !inSpans spans (8 * w)).map fun w => .poison w false)

/-- Granary regions on LPDDR6 frames of the partitions that stand, with those that already lie in self-refresh (R391). -/
def granaries (d : Device) : List (Nat × Nat) :=
  (d.granaries ++ (d.parts.filter fun p => granaryOwned p.2).map fun p => granaryOf p.2).eraseDups

/-- A device with nothing on it but what survives reset (R391, R400, R401). -/
def bareDevice (d : Device) (spans : List (Nat × Nat)) : Device :=
  { focus := d.focus
    agenda := d.agenda
    freeCtr := d.freeCtr
    hostOut := d.hostOut
    bootCount := d.bootCount
    measurements := d.measurements
    granaries := spans
    images := d.images.filter fun i => spans.contains (i.base, i.size) }

/-- Measurements over the images' digests, each hashed before it runs, and whether all four were signed (R399). -/
def measure : List (BitVec 384) → List (BitVec 384 × Bool) → List (BitVec 384) × Bool
  | [], _ => ([], true)
  | m :: rest, [] => (m :: rest, false)
  | m :: rest, (digest, good) :: more =>
    let h := sha384 (hashBytes m ++ hashBytes digest)
    if good then
      let (hs, ok) := measure rest more
      (h :: hs, ok)
    else (h :: rest, false)

/-- PACKAGE_RESET (R399, R401): bring-up from step 1; a failed signature stops it at step 2. `images` are the images'
SHA-384 digests; `standby` says whether the 48 V input and with it self-refresh stood through the reset. -/
def execPackageReset (images : List (BitVec 384)) (signed : List Bool) (standby : Bool) (s : State) : Out :=
  let d := s.dev
  let spans := if standby then granaries d else []
  let (ms, ok) := measure [0, 0, 0, 0] (images.zip signed)
  let bare := bareDevice d spans
  conclude s { bare with
    measurements := ms
    bootCount := d.bootCount + 1
    failedStep := if ok then 0 else 2 } (keepSpans s.mem spans)

/-- CORE_RAIL_LOSS (R391): everything but the granaries' self-refresh is lost, until a package reset. -/
def execCoreRailLoss (s : State) : Out :=
  let spans := granaries s.dev
  conclude s { bareDevice s.dev spans with railLost := true, now := s.dev.now } (keepSpans s.mem spans)

/-- LANE_REPAIR (R375): width moves only the instants of transactions. -/
def execLaneRepair (module_ : Nat) (outcome : LaneOutcome) (s : State) : Out :=
  let n : Nat := match outcome with
    | .repaired => 64
    | .halved => 32
    | .disabled => 0
  conclude s { s.dev with lanes := s.dev.lanes.modify module_ fun was => min was n } []

/-- ILLEGAL_ENCODING (R87, R89): the encoding at the pc of the context whose turn it is is no instruction. -/
def execIllegalEncoding (word : BitVec 32) (s : State) : Out :=
  match s.dev.cur with
  | none => conclude s s.dev []
  | some x => conclude s (trapHere s.dev x cILLEGAL (if word.getLsbD 0 then word.setWidth 64 else (word.setWidth 16).setWidth 64)) []

/-- DIE_LOST (R267, R388): 64 µs without a heartbeat. -/
def execDieLost (die : Nat) (s : State) : Out :=
  if 10 ≤ die ∨ s.dev.lostDies.contains die = true ∨ silent s.dev die = false then conclude s s.dev []
  else ((Work.start s).loseDie die).finish s

end Sys2Proof.Machine
end

