-- ==== Sys2Proof/Machine/Thresher.lean ====
section
/-! DEFINITION. The sum-product engine (R194 to R210): subtree descriptors, SPUP and SPDN, and the scratch accesses. -/
namespace Sys2Proof.Machine

/-- A scratch word; an unlisted word is zero (R194). -/
def Core.sp (k : Core) (i : Nat) : Lane := (assocGet (i % 4096) k.scratch).getD 0

/-- Writes a scratch word and clears its poison mark (R385). -/
def Core.setSp (k : Core) (i : Nat) (x : Lane) : Core :=
  { k with
    scratch := if x = 0 then assocDrop (i % 4096) k.scratch else assocPut (i % 4096) x k.scratch
    scratchPoison := k.scratchPoison.filter (· != i % 4096) }

/-- A subtree (R198): leaf i, or internal node k with its operation. -/
inductive Tree where
  | leaf (i : Nat)
  | node (k : Nat) (product : Bool) (l r : Tree)
  deriving DecidableEq, Repr

/-- Depth of leaf i in a descriptor (R197). -/
def leafDepth (a : Word) (i : Nat) : Nat := a.toNat / 2^(4 + 3 * i) % 8
/-- Leaf count of a descriptor (R197). -/
def leafCount (a : Word) : Nat := a.toNat % 16

/-- `Node(depth)` of R198, with pos and next threaded through; `fuel` is what remains of the greatest depth. A leaf of
depth 0 matches no call. -/
def buildNode (a : Word) : Nat → Nat → Nat → Nat → Option (Tree × Nat × Nat)
  | 0, depth, pos, next =>
    if depth ≠ 0 ∧ pos < leafCount a ∧ leafDepth a pos = depth then some (.leaf pos, pos + 1, next) else none
  | fuel + 1, depth, pos, next =>
    if depth ≠ 0 ∧ pos < leafCount a ∧ leafDepth a pos = depth then some (.leaf pos, pos + 1, next)
    else if pos = leafCount a then none
    else
      match buildNode a fuel (depth + 1) pos (next + 1) with
      | none => none
      | some (l, pos1, next1) =>
        match buildNode a fuel (depth + 1) pos1 next1 with
        | none => none
        | some (r, pos2, next2) => some (.node next (a.getLsbD (28 + next)) l r, pos2, next2)

/-- The subtree of a descriptor, none where R198 raises SPSHAPE. -/
def buildTree (a : Word) : Option Tree :=
  let n := leafCount a
  if n < 2 ∨ 8 < n ∨ a.toNat / 2^35 ≠ 0 then none
  else if (List.range 8).any fun i => decide (n ≤ i) && leafDepth a i != 0 then none
  else if (List.range 7).any fun k => decide (n - 1 ≤ k) && a.getLsbD (28 + k) then none
  else
    match buildNode a 7 0 0 0 with
    | some (t, pos, _) => if pos = n then some t else none
    | none => none

/-- The internal rounding of R66: RNE to a 32-bit significand, never overflowing or underflowing. -/
def roundI : Num → Num
  | .fin neg m e st =>
    if m = 0 then .fin neg 0 0 false
    else
      let q := e + bitLen m - 32
      if q ≤ e then .fin neg m e false
      else .fin neg (roundUnit ⟨.rne, 0⟩ neg m e st q).1 q false
  | x => x

/-- A node's exact operation (R200): sums through the window of R65, products exact. -/
def nodeOp (product : Bool) (x y : Num) : Num := if product then x.mul y else x.add .rne y

/-- Value of a node below the root. -/
def nodeValue (leaf : Nat → Num) : Tree → Num
  | .leaf i => leaf i
  | .node _ p l r => roundI (nodeOp p (nodeValue leaf l) (nodeValue leaf r))

/-- The root's exact value, with no window (R66, R200). -/
def rootValue (leaf : Nat → Num) : Tree → Num
  | .leaf i => leaf i
  | .node _ p l r => if p then (nodeValue leaf l).mul (nodeValue leaf r) else (nodeValue leaf l).addExact (nodeValue leaf r)

/-- The adjoint of each leaf, left to right (R201). -/
def leafAdjoints (leaf : Nat → Num) : Tree → Num → List Num
  | .leaf _, g => [g]
  | .node _ p l r, g =>
    if p then
      leafAdjoints leaf l (roundI (g.mul (nodeValue leaf r))) ++ leafAdjoints leaf r (roundI (g.mul (nodeValue leaf l)))
    else leafAdjoints leaf l g ++ leafAdjoints leaf r g

/-- The engine's format (R195, R196). -/
def Core.spFmt (k : Core) : Fmt := if k.spcfg.getLsbD 12 then .sp32 else .f32
/-- The adjoint offset (R195). -/
def Core.spOff (k : Core) : Nat := k.spcfg.toNat % 4096
/-- `Val(w, fmt)` of a scratch word (R196). -/
def Core.spVal (k : Core) (i : Nat) : Num := decodeNum k.spFmt (k.sp i).toNat

/-- Leaf index i of vB (R199). -/
def leafIndex (vb : VReg) (i : Nat) : Nat := elemAt vb.bits 32 i % 4096

/-- The extra cycles X of R208. -/
def conflictCycles (vb : VReg) (n : Nat) : Nat :=
  ((List.range 8).map fun bank => (List.range n).countP fun i => leafIndex vb i % 8 == bank).foldl max 0 - 1

/-- All trees busy, or the leaf-read port held (R208). -/
def spBusy (needsTree : Bool) (d : Device) : Bool :=
  let k := d.me
  decide (k.cyc < k.leafPort) || (needsTree && decide (4 ≤ (k.trees.filter fun c => k.cyc < c).length))

/-- Records an engine instruction that holds a tree (or none), the leaf-read port and the engine (R206, R208). -/
def Core.engage (k : Core) (slot : Nat) (tree : Option Nat) (port cycles : Nat) : Core :=
  { k with
    trees := (k.trees.filter fun c => k.cyc < c) ++ (tree.map fun n => k.cyc + n).toList
    leafPort := if port = 0 then k.leafPort else k.cyc + port
    engine := k.engine ++ [(slot, k.cyc + cycles)] }

/-- A scratch word the instruction reads that is poisoned (R385, R386). -/
def scratchFault (k : Core) (is : List Nat) : Option Word :=
  (is.find? fun i => k.scratchPoison.contains (i % 4096)).map fun i => BitVec.ofNat 64 (0xFD * 2^56 + 5 * 2^12 + i % 4096)

/-- The registers of SPUP and SPDN: pops run A, B, D (R209). -/
def usesTree (sa : Bool) (b a d : BitVec 7) : Uses :=
  { sync := if sa then some (.g a.toNat) else none
    reads := [.g a.toNat, .v b.toNat, .g d.toNat]
    report := [.g d.toNat, .g a.toNat, .v b.toNat]
    busy := spBusy true
    outside := true
    inner := true }

/-- SPUP (R200). Under acc = 1 a SUM root is added as the exact number it is, and R65's window runs on that, so that a root of more
than 64 bits is not rounded first (assumption 114, DESIGN CHOICE). -/
def execSpup (sa : Bool) (b a d : BitVec 7) (s : State) : Out :=
  issue s (.spup sa b a d) (usesTree sa b a d) fun dv _ vs =>
    let desc := wordAt vs 0
    let vb := vecAt vs 1
    let k := dv.me
    let n := leafCount desc
    let rix := (wordAt vs 2).toNat % 4096
    let acc := (wordAt vs 2).getLsbD 12
    match buildTree desc with
    | none => .trap cSPSHAPE desc
    | some t =>
      match scratchFault k ((List.range n).map (leafIndex vb) ++ (if acc then [rix] else [])) with
      | some v => .trap cPOISON v
      | none =>
        let leaf (i : Nat) := k.spVal (leafIndex vb i)
        let r := rootValue leaf t
        let r := if acc then r.add .rne (k.spVal rix) else r
        let x := conflictCycles vb n
        let dv1 := dv.onMe fun k =>
          (k.setSp rix (BitVec.ofNat 32 (rne k.spFmt r))).engage dv.slot (some (8 + x)) (1 + x) (8 + x)
        .ok (dv1.onCur fun y => y.onRegs fun r => { r with conflict := r.conflict + BitVec.ofNat 32 x })

/-- Adds the contributions of a repeated leaf to its adjoint one at a time (R201). -/
def addAdjoints (f : Fmt) : Option Num → List Num → Option Num
  | a, [] => a
  | none, g :: r => addAdjoints f (some (decodeNum f (rne f g))) r
  | some a, g :: r => addAdjoints f (some (decodeNum f (rne f (a.add .rne g)))) r

/-- Distinct elements in order of first appearance. -/
def distinct (l : List Nat) : List Nat := l.foldl (fun acc x => if acc.contains x then acc else acc ++ [x]) []

/-- SPDN (R201). -/
def execSpdn (sa : Bool) (b a d : BitVec 7) (s : State) : Out :=
  issue s (.spdn sa b a d) (usesTree sa b a d) fun dv _ vs =>
    let desc := wordAt vs 0
    let vb := vecAt vs 1
    let k := dv.me
    let n := leafCount desc
    let rix := (wordAt vs 2).toNat % 4096
    let acc := (wordAt vs 2).getLsbD 12
    let adj (i : Nat) : Nat := (i + k.spOff) % 4096
    let idx := (List.range n).map (leafIndex vb)
    match buildTree desc with
    | none => .trap cSPSHAPE desc
    | some t =>
      match scratchFault k (idx ++ [adj rix] ++ (if acc then idx.map adj else [])) with
      | some v => .trap cPOISON v
      | none =>
        let f := k.spFmt
        let leaf (i : Nat) := k.spVal (leafIndex vb i)
        let gs := idx.zip (leafAdjoints leaf t (k.spVal (adj rix)))
        let writes := (distinct idx).map fun j =>
          let start := if acc then some (k.spVal (adj j)) else none
          (adj j, addAdjoints f start ((gs.filter fun p => p.1 == j).map Prod.snd))
        let x := conflictCycles vb n
        let dv1 := dv.onMe fun k =>
          (writes.foldl (fun (k : Core) p => k.setSp p.1 (BitVec.ofNat 32 (match p.2 with
            | some g => rne f g
            | none => 0))) k).engage dv.slot (some (8 + x)) (1 + x) (8 + x)
        .ok (dv1.onCur fun y => y.onRegs fun r => { r with conflict := r.conflict + BitVec.ofNat 32 x })

/-- SPLD (R203): copies the bits. -/
def execSpld (sa : Bool) (a d : BitVec 7) (s : State) : Out :=
  issue s (.spld sa a d)
    { sync := if sa then some (.g a.toNat) else none
      reads := [.g a.toNat], writes := [.v d.toNat], report := [.v d.toNat, .g a.toNat], busy := spBusy false }
    fun dv _ vs =>
      let k := dv.me
      let i := (wordAt vs 0).toNat % 4096
      match scratchFault k ((List.range 32).map (i + ·)) with
      | some v => .trap cPOISON v
      | none =>
        let x := packElems 32 ((List.range 32).map fun j => (k.sp (i + j)).toNat)
        .ok ((dv.onMe fun k => k.engage dv.slot none 4 4).putV d.toNat x (if k.spcfg.getLsbD 12 then 0xA else 3) scaleOne)

/-- SPST (R203). -/
def execSpst (sa : Bool) (a d : BitVec 7) (s : State) : Out :=
  issue s (.spst sa a d)
    { sync := if sa then some (.g a.toNat) else none
      reads := [.g a.toNat, .v d.toNat], report := [.v d.toNat, .g a.toNat], outside := true, inner := true }
    fun dv _ vs =>
      let i := (wordAt vs 0).toNat % 4096
      let v := vecAt vs 1
      .ok (dv.onMe fun k =>
        ((List.range 32).foldl (fun (k : Core) j => k.setSp (i + j) (BitVec.ofNat 32 (elemAt v.bits 32 j))) k).engage dv.slot none 0 4)

/-- SPGET (R204). -/
def execSpget (sa : Bool) (a d : BitVec 7) (s : State) : Out :=
  issue s (.spget sa a d) { usesDA sa d a with busy := spBusy false } fun dv _ vs =>
    let i := (wordAt vs 0).toNat % 4096
    match scratchFault dv.me [i] with
    | some v => .trap cPOISON v
    | none => .ok ((dv.onMe fun k => k.engage dv.slot none 1 1).putG d.toNat ((dv.me.sp i).setWidth 64))

/-- SPPUT (R204). -/
def execSpput (sa : Bool) (b a : BitVec 7) (s : State) : Out :=
  issue s (.spput sa b a) { usesAB sa a b with outside := true, inner := true } fun dv _ vs =>
    .ok (dv.onMe fun k => (k.setSp ((wordAt vs 0).toNat % 4096) ((wordAt vs 1).setWidth 32)).engage dv.slot none 0 1)

/-- SPCLR (R205). -/
def execSpclr (sa : Bool) (b a : BitVec 7) (s : State) : Out :=
  issue s (.spclr sa b a) { usesAB sa a b with outside := true, inner := true } fun dv _ vs =>
    let n := (wordAt vs 1).toNat % 64 + 1
    .ok (dv.onMe fun k =>
      ((List.range n).foldl (fun (k : Core) j => k.setSp ((wordAt vs 0).toNat + j) 0) k).engage dv.slot none 0 ((n + 7) / 8))

/-- SPWAIT (R206): parks until the context's engine instructions have finished, then takes the conflict count. -/
def execSpwait (d : BitVec 7) (s : State) : Out :=
  issue s (.spwait d) { usesD d with outside := true, inner := true } fun dv x _ =>
    if dv.me.engine.any fun e => e.1 == dv.slot && decide (dv.me.cyc < e.2) then .retry
    else .ok ((dv.onCur fun y => y.onRegs fun r => { r with conflict := 0 }).putG d.toNat (x.regs.conflict.setWidth 64))

/-- SPE_ENGINE_FINISH (R208): an engine instruction of the core whose cycles are over leaves the engine. -/
def execSpeEngineFinish (core n : Nat) (s : State) : Out :=
  let k := s.dev.coreAt core
  match k.engine[n]? with
  | some e =>
    if e.2 ≤ k.cyc then
      conclude s (s.dev.setCore core { k with engine := k.engine.eraseIdx n, trees := k.trees.filter fun c => k.cyc < c }) []
    else conclude s s.dev []
  | none => conclude s s.dev []

end Sys2Proof.Machine
end

