-- ==== Sys2Proof/Machine/Dispatch.lean ====
section
/-! DEFINITION. The dispatch from an instruction or event to its meaning: one arm for each row of the opcode table. -/
namespace Sys2Proof.Machine

/-- The effect of an instruction of the context whose turn it is, or of an event of the device. -/
def exec (i : Instr) (s : State) : Host.Outcome State Fault Refusal :=
  match i with
  | .add sa b a d => Sys2Proof.Machine.execAdd sa b a d s
  | .sub sa b a d => Sys2Proof.Machine.execSub sa b a d s
  | .and sa b a d => Sys2Proof.Machine.execAnd sa b a d s
  | .or sa b a d => Sys2Proof.Machine.execOr sa b a d s
  | .xor sa b a d => Sys2Proof.Machine.execXor sa b a d s
  | .sll sa b a d => Sys2Proof.Machine.execSll sa b a d s
  | .srl sa b a d => Sys2Proof.Machine.execSrl sa b a d s
  | .sra sa b a d => Sys2Proof.Machine.execSra sa b a d s
  | .addw sa b a d => Sys2Proof.Machine.execAddw sa b a d s
  | .subw sa b a d => Sys2Proof.Machine.execSubw sa b a d s
  | .sllw sa b a d => Sys2Proof.Machine.execSllw sa b a d s
  | .srlw sa b a d => Sys2Proof.Machine.execSrlw sa b a d s
  | .sraw sa b a d => Sys2Proof.Machine.execSraw sa b a d s
  | .slt sa b a d => Sys2Proof.Machine.execSlt sa b a d s
  | .sltu sa b a d => Sys2Proof.Machine.execSltu sa b a d s
  | .andn sa b a d => Sys2Proof.Machine.execAndn sa b a d s
  | .min sa b a d => Sys2Proof.Machine.execMin sa b a d s
  | .max sa b a d => Sys2Proof.Machine.execMax sa b a d s
  | .minu sa b a d => Sys2Proof.Machine.execMinu sa b a d s
  | .maxu sa b a d => Sys2Proof.Machine.execMaxu sa b a d s
  | .clz sa a d => Sys2Proof.Machine.execClz sa a d s
  | .ctz sa a d => Sys2Proof.Machine.execCtz sa a d s
  | .popc sa a d => Sys2Proof.Machine.execPopc sa a d s
  | .brev sa a d => Sys2Proof.Machine.execBrev sa a d s
  | .mul sa b a d => Sys2Proof.Machine.execMul sa b a d s
  | .mulh sa b a d => Sys2Proof.Machine.execMulh sa b a d s
  | .mulhu sa b a d => Sys2Proof.Machine.execMulhu sa b a d s
  | .mulw sa b a d => Sys2Proof.Machine.execMulw sa b a d s
  | .sexb sa a d => Sys2Proof.Machine.execSexb sa a d s
  | .sexh sa a d => Sys2Proof.Machine.execSexh sa a d s
  | .sexw sa a d => Sys2Proof.Machine.execSexw sa a d s
  | .zexw sa a d => Sys2Proof.Machine.execZexw sa a d s
  | .addi sa imm a d => Sys2Proof.Machine.execAddi sa imm a d s
  | .andi sa imm a d => Sys2Proof.Machine.execAndi sa imm a d s
  | .ori sa imm a d => Sys2Proof.Machine.execOri sa imm a d s
  | .xori sa imm a d => Sys2Proof.Machine.execXori sa imm a d s
  | .slti sa imm a d => Sys2Proof.Machine.execSlti sa imm a d s
  | .sltiu sa imm a d => Sys2Proof.Machine.execSltiu sa imm a d s
  | .slli sa sh a d => Sys2Proof.Machine.execSlli sa sh a d s
  | .srli sa sh a d => Sys2Proof.Machine.execSrli sa sh a d s
  | .srai sa sh a d => Sys2Proof.Machine.execSrai sa sh a d s
  | .sllwi sa sh a d => Sys2Proof.Machine.execSllwi sa sh a d s
  | .srlwi sa sh a d => Sys2Proof.Machine.execSrlwi sa sh a d s
  | .srawi sa sh a d => Sys2Proof.Machine.execSrawi sa sh a d s
  | .lui imm d => Sys2Proof.Machine.execLui imm d s
  | .auipc imm d => Sys2Proof.Machine.execAuipc imm d s
  | .jal imm d => Sys2Proof.Machine.execJal imm d s
  | .jalr sa imm a d => Sys2Proof.Machine.execJalr sa imm a d s
  | .beq off a b => Sys2Proof.Machine.execBeq off a b s
  | .bne off a b => Sys2Proof.Machine.execBne off a b s
  | .blt off a b => Sys2Proof.Machine.execBlt off a b s
  | .bge off a b => Sys2Proof.Machine.execBge off a b s
  | .bltu off a b => Sys2Proof.Machine.execBltu off a b s
  | .bgeu off a b => Sys2Proof.Machine.execBgeu off a b s
  | .div la b a d => Sys2Proof.Machine.execDiv la b a d s
  | .divu la b a d => Sys2Proof.Machine.execDivu la b a d s
  | .rem la b a d => Sys2Proof.Machine.execRem la b a d s
  | .remu la b a d => Sys2Proof.Machine.execRemu la b a d s
  | .lb la sc str a d => Sys2Proof.Machine.execLb la sc str a d s
  | .lbz la sc str a d => Sys2Proof.Machine.execLbz la sc str a d s
  | .lh la sc str a d => Sys2Proof.Machine.execLh la sc str a d s
  | .lhz la sc str a d => Sys2Proof.Machine.execLhz la sc str a d s
  | .lw la sc str a d => Sys2Proof.Machine.execLw la sc str a d s
  | .lwz la sc str a d => Sys2Proof.Machine.execLwz la sc str a d s
  | .ld la sc str a d => Sys2Proof.Machine.execLd la sc str a d s
  | .lv la sc str a d => Sys2Proof.Machine.execLv la sc str a d s
  | .lvS32 la sc str a d => Sys2Proof.Machine.execLvS32 la sc str a d s
  | .lvZ32 la sc str a d => Sys2Proof.Machine.execLvZ32 la sc str a d s
  | .lvF32 la sc str a d => Sys2Proof.Machine.execLvF32 la sc str a d s
  | .lvBf16 la sc str a d => Sys2Proof.Machine.execLvBf16 la sc str a d s
  | .lvF16 la sc str a d => Sys2Proof.Machine.execLvF16 la sc str a d s
  | .lvS8 la sc str a d => Sys2Proof.Machine.execLvS8 la sc str a d s
  | .lvZ8 la sc str a d => Sys2Proof.Machine.execLvZ8 la sc str a d s
  | .lvSp32 la sc str a d => Sys2Proof.Machine.execLvSp32 la sc str a d s
  | .sb sc str a d => Sys2Proof.Machine.execSb sc str a d s
  | .sh sc str a d => Sys2Proof.Machine.execSh sc str a d s
  | .sw sc str a d => Sys2Proof.Machine.execSw sc str a d s
  | .sd sc str a d => Sys2Proof.Machine.execSd sc str a d s
  | .sv sc str a d => Sys2Proof.Machine.execSv sc str a d s
  | .lvsE4 la b a d => Sys2Proof.Machine.execLvsE4 la b a d s
  | .lvsE5 la b a d => Sys2Proof.Machine.execLvsE5 la b a d s
  | .svs b a d => Sys2Proof.Machine.execSvs b a d s
  | .ldx la b a d => Sys2Proof.Machine.execLdx la b a d s
  | .ldf la sc tryIt consume a d => Sys2Proof.Machine.execLdf la sc tryIt consume a d s
  | .stf sc e a d => Sys2Proof.Machine.execStf sc e a d s
  | .amoSwap la sc wide a d => Sys2Proof.Machine.execAmoSwap la sc wide a d s
  | .amoAdd la sc wide a d => Sys2Proof.Machine.execAmoAdd la sc wide a d s
  | .amoAnd la sc wide a d => Sys2Proof.Machine.execAmoAnd la sc wide a d s
  | .amoOr la sc wide a d => Sys2Proof.Machine.execAmoOr la sc wide a d s
  | .amoXor la sc wide a d => Sys2Proof.Machine.execAmoXor la sc wide a d s
  | .amoMin la sc wide a d => Sys2Proof.Machine.execAmoMin la sc wide a d s
  | .amoMax la sc wide a d => Sys2Proof.Machine.execAmoMax la sc wide a d s
  | .amoMinu la sc wide a d => Sys2Proof.Machine.execAmoMinu la sc wide a d s
  | .amoMaxu la sc wide a d => Sys2Proof.Machine.execAmoMaxu la sc wide a d s
  | .amoCas la sc wide a d => Sys2Proof.Machine.execAmoCas la sc wide a d s
  | .fenceFull sc => Sys2Proof.Machine.execFenceFull sc s
  | .fenceAcq sc => Sys2Proof.Machine.execFenceAcq sc s
  | .fenceRel sc => Sys2Proof.Machine.execFenceRel sc s
  | .fenceEngine sc => Sys2Proof.Machine.execFenceEngine sc s
  | .fenceStrings sc => Sys2Proof.Machine.execFenceStrings sc s
  | .tld la b a d => Sys2Proof.Machine.execTld la b a d s
  | .tst b a d => Sys2Proof.Machine.execTst b a d s
  | .marm sc a d => Sys2Proof.Machine.execMarm sc a d s
  | .marmOff => Sys2Proof.Machine.execMarmOff s
  | .flush sa a => Sys2Proof.Machine.execFlush sa a s
  | .clean sa a => Sys2Proof.Machine.execClean sa a s
  | .inval sa a => Sys2Proof.Machine.execInval sa a s
  | .pref sa a => Sys2Proof.Machine.execPref sa a s
  | .tlbinv sa b a => Sys2Proof.Machine.execTlbinv sa b a s
  | .tlbsync d => Sys2Proof.Machine.execTlbsync d s
  | .migr sa b a d => Sys2Proof.Machine.execMigr sa b a d s
  | .tdreg sa a d => Sys2Proof.Machine.execTdreg sa a d s
  | .mfs sys d => Sys2Proof.Machine.execMfs sys d s
  | .mts sys a => Sys2Proof.Machine.execMts sys a s
  | .ecall => Sys2Proof.Machine.execEcall s
  | .brk => Sys2Proof.Machine.execBrk s
  | .rett => Sys2Proof.Machine.execRett s
  | .halt => Sys2Proof.Machine.execHalt s
  | .yield => Sys2Proof.Machine.execYield s
  | .waitc sa a d => Sys2Proof.Machine.execWaitc sa a d s
  | .waitw sa a d => Sys2Proof.Machine.execWaitw sa a d s
  | .sleepm d => Sys2Proof.Machine.execSleepm d s
  | .waitk sa a d => Sys2Proof.Machine.execWaitk sa a d s
  | .rdres sa a d => Sys2Proof.Machine.execRdres sa a d s
  | .tspawn sa b a d => Sys2Proof.Machine.execTspawn sa b a d s
  | .treap sa a d => Sys2Proof.Machine.execTreap sa a d s
  | .tkill sa a d => Sys2Proof.Machine.execTkill sa a d s
  | .twake sa a d => Sys2Proof.Machine.execTwake sa a d s
  | .texit sa a => Sys2Proof.Machine.execTexit sa a s
  | .mclass sa a d => Sys2Proof.Machine.execMclass sa a d s
  | .tstat sa a d => Sys2Proof.Machine.execTstat sa a d s
  | .msend sa b a => Sys2Proof.Machine.execMsend sa b a s
  | .msend2 sa b a => Sys2Proof.Machine.execMsend2 sa b a s
  | .mdrain sa a d => Sys2Proof.Machine.execMdrain sa a d s
  | .bar sa a d => Sys2Proof.Machine.execBar sa a d s
  | .bara sa a d => Sys2Proof.Machine.execBara sa a d s
  | .barw sa b a d => Sys2Proof.Machine.execBarw sa b a d s
  | .gqry sa a d => Sys2Proof.Machine.execGqry sa a d s
  | .wlpush sa a d => Sys2Proof.Machine.execWlpush sa a d s
  | .wlpop d => Sys2Proof.Machine.execWlpop d s
  | .wlstat d => Sys2Proof.Machine.execWlstat d s
  | .wldone d => Sys2Proof.Machine.execWldone d s
  | .bind sa v a d => Sys2Proof.Machine.execBind sa v a d s
  | .unbind sa a d => Sys2Proof.Machine.execUnbind sa a d s
  | .sgdef sa b a d => Sys2Proof.Machine.execSgdef sa b a d s
  | .sstat sa e a d => Sys2Proof.Machine.execSstat sa e a d s
  | .sdrain sa a d => Sys2Proof.Machine.execSdrain sa a d s
  | .cpost sa b a d => Sys2Proof.Machine.execCpost sa b a d s
  | .sacq sa b a d => Sys2Proof.Machine.execSacq sa b a d s
  | .sadd sa b a d => Sys2Proof.Machine.execSadd sa b a d s
  | .sset sa b a => Sys2Proof.Machine.execSset sa b a s
  | .srd sa a d => Sys2Proof.Machine.execSrd sa a d s
  | .cbget sa a d => Sys2Proof.Machine.execCbget sa a d s
  | .cbput sa b a d => Sys2Proof.Machine.execCbput sa b a d s
  | .cbfree sa a => Sys2Proof.Machine.execCbfree sa a s
  | .vadd sa b a d => Sys2Proof.Machine.execVadd sa b a d s
  | .vsub sa b a d => Sys2Proof.Machine.execVsub sa b a d s
  | .vmul sa b a d => Sys2Proof.Machine.execVmul sa b a d s
  | .vfma sa b a d => Sys2Proof.Machine.execVfma sa b a d s
  | .vfms sa b a d => Sys2Proof.Machine.execVfms sa b a d s
  | .vmin sa b a d => Sys2Proof.Machine.execVmin sa b a d s
  | .vmax sa b a d => Sys2Proof.Machine.execVmax sa b a d s
  | .vdiff sa b a d => Sys2Proof.Machine.execVdiff sa b a d s
  | .vand sa b a d => Sys2Proof.Machine.execVand sa b a d s
  | .vor sa b a d => Sys2Proof.Machine.execVor sa b a d s
  | .vxor sa b a d => Sys2Proof.Machine.execVxor sa b a d s
  | .vshl sa b a d => Sys2Proof.Machine.execVshl sa b a d s
  | .vsrl sa b a d => Sys2Proof.Machine.execVsrl sa b a d s
  | .vsra sa b a d => Sys2Proof.Machine.execVsra sa b a d s
  | .vsel sa b a d => Sys2Proof.Machine.execVsel sa b a d s
  | .vrelu sa a d => Sys2Proof.Machine.execVrelu sa a d s
  | .vmov src d => Sys2Proof.Machine.execVmov src d s
  | .vaddC16 src d => Sys2Proof.Machine.execVaddC16 src d s
  | .vsubC16 src d => Sys2Proof.Machine.execVsubC16 src d s
  | .vmulC16 src d => Sys2Proof.Machine.execVmulC16 src d s
  | .vminC16 src d => Sys2Proof.Machine.execVminC16 src d s
  | .vmaxC16 src d => Sys2Proof.Machine.execVmaxC16 src d s
  | .vandC16 src d => Sys2Proof.Machine.execVandC16 src d s
  | .vorC16 src d => Sys2Proof.Machine.execVorC16 src d s
  | .vxorC16 src d => Sys2Proof.Machine.execVxorC16 src d s
  | .vshlC16 src d => Sys2Proof.Machine.execVshlC16 src d s
  | .vsrlC16 src d => Sys2Proof.Machine.execVsrlC16 src d s
  | .vsraC16 src d => Sys2Proof.Machine.execVsraC16 src d s
  | .vneg src d => Sys2Proof.Machine.execVneg src d s
  | .vabs src d => Sys2Proof.Machine.execVabs src d s
  | .vreluC16 src d => Sys2Proof.Machine.execVreluC16 src d s
  | .vswap src d => Sys2Proof.Machine.execVswap src d s
  | .vceq sa b a d => Sys2Proof.Machine.execVceq sa b a d s
  | .vcne sa b a d => Sys2Proof.Machine.execVcne sa b a d s
  | .vclt sa b a d => Sys2Proof.Machine.execVclt sa b a d s
  | .vcle sa b a d => Sys2Proof.Machine.execVcle sa b a d s
  | .kand b a d => Sys2Proof.Machine.execKand b a d s
  | .kor b a d => Sys2Proof.Machine.execKor b a d s
  | .knot a d => Sys2Proof.Machine.execKnot a d s
  | .vcvtRne sa tag a d => Sys2Proof.Machine.execVcvtRne sa tag a d s
  | .vcvtRtz sa tag a d => Sys2Proof.Machine.execVcvtRtz sa tag a d s
  | .vcvtRdn sa tag a d => Sys2Proof.Machine.execVcvtRdn sa tag a d s
  | .vcvtRup sa tag a d => Sys2Proof.Machine.execVcvtRup sa tag a d s
  | .vcvtSr sa tag a d => Sys2Proof.Machine.execVcvtSr sa tag a d s
  | .vcvtSatrne sa tag a d => Sys2Proof.Machine.execVcvtSatrne sa tag a d s
  | .vexp2 sa a d => Sys2Proof.Machine.execVexp2 sa a d s
  | .vlog2 sa a d => Sys2Proof.Machine.execVlog2 sa a d s
  | .vrcp sa a d => Sys2Proof.Machine.execVrcp sa a d s
  | .vrsq sa a d => Sys2Proof.Machine.execVrsq sa a d s
  | .vsqrt sa a d => Sys2Proof.Machine.execVsqrt sa a d s
  | .vtanh sa a d => Sys2Proof.Machine.execVtanh sa a d s
  | .vexp sa a d => Sys2Proof.Machine.execVexp sa a d s
  | .vsigm sa a d => Sys2Proof.Machine.execVsigm sa a d s
  | .vrsum sa b a d => Sys2Proof.Machine.execVrsum sa b a d s
  | .vrmax sa b a d => Sys2Proof.Machine.execVrmax sa b a d s
  | .vrmin sa b a d => Sys2Proof.Machine.execVrmin sa b a d s
  | .vramx sa b a d => Sys2Proof.Machine.execVramx sa b a d s
  | .vscan sa b a d => Sys2Proof.Machine.execVscan sa b a d s
  | .vperm sa b a d => Sys2Proof.Machine.execVperm sa b a d s
  | .vsort sa b a d => Sys2Proof.Machine.execVsort sa b a d s
  | .vsplat sa tag a d => Sys2Proof.Machine.execVsplat sa tag a d s
  | .vins sa b a d => Sys2Proof.Machine.execVins sa b a d s
  | .vext sa b a d => Sys2Proof.Machine.execVext sa b a d s
  | .vidx sa tag a d => Sys2Proof.Machine.execVidx sa tag a d s
  | .vtag sa tag a d => Sys2Proof.Machine.execVtag sa tag a d s
  | .vqnt sa tag a d => Sys2Proof.Machine.execVqnt sa tag a d s
  | .kpop a d => Sys2Proof.Machine.execKpop a d s
  | .kmovToMask sa a d => Sys2Proof.Machine.execKmovToMask sa a d s
  | .kmovFromMask a d => Sys2Proof.Machine.execKmovFromMask a d s
  | .mma b a d => Sys2Proof.Machine.execMma b a d s
  | .mmz b a d => Sys2Proof.Machine.execMmz b a d s
  | .aread b a d => Sys2Proof.Machine.execAread b a d s
  | .azero d => Sys2Proof.Machine.execAzero d s
  | .oclm dir d => Sys2Proof.Machine.execOclm dir d s
  | .orel d => Sys2Proof.Machine.execOrel d s
  | .ofill sa b a d => Sys2Proof.Machine.execOfill sa b a d s
  | .opass dir a => Sys2Proof.Machine.execOpass dir a s
  | .spup sa b a d => Sys2Proof.Machine.execSpup sa b a d s
  | .spdn sa b a d => Sys2Proof.Machine.execSpdn sa b a d s
  | .spld sa a d => Sys2Proof.Machine.execSpld sa a d s
  | .spst sa a d => Sys2Proof.Machine.execSpst sa a d s
  | .spget sa a d => Sys2Proof.Machine.execSpget sa a d s
  | .spput sa b a => Sys2Proof.Machine.execSpput sa b a s
  | .spclr sa b a => Sys2Proof.Machine.execSpclr sa b a s
  | .spwait d => Sys2Proof.Machine.execSpwait d s
  | .bqget sa a d => Sys2Proof.Machine.execBqget sa a d s
  | .baddq sa b a d => Sys2Proof.Machine.execBaddq sa b a d s
  | .bqdone sa a d => Sys2Proof.Machine.execBqdone sa a d s
  | .bqinit sa b a d => Sys2Proof.Machine.execBqinit sa b a d s
  | .rand sa b a d => Sys2Proof.Machine.execRand sa b a d s
  | .vrand sa b a d => Sys2Proof.Machine.execVrand sa b a d s
  | .saveContext n => Sys2Proof.Machine.execSaveContext n s
  | .saveCore n => Sys2Proof.Machine.execSaveCore n s
  | .restoreContext n => Sys2Proof.Machine.execRestoreContext n s
  | .restoreCore n => Sys2Proof.Machine.execRestoreCore n s
  | .fqans part entry => Sys2Proof.Machine.execFqans part entry s
  | .migpool part frame => Sys2Proof.Machine.execMigpool part frame s
  | .longLatencyResult n => Sys2Proof.Machine.execLongLatencyResult n s
  | .messageArrival n => Sys2Proof.Machine.execMessageArrival n s
  | .depositRetry core => Sys2Proof.Machine.execDepositRetry core s
  | .reductionComplete core => Sys2Proof.Machine.execReductionComplete core s
  | .trapEntry core slot => Sys2Proof.Machine.execTrapEntry core slot s
  | .waitlimExpiry core slot => Sys2Proof.Machine.execWaitlimExpiry core slot s
  | .deadlineExpiry core slot => Sys2Proof.Machine.execDeadlineExpiry core slot s
  | .waitcExpiry core slot => Sys2Proof.Machine.execWaitcExpiry core slot s
  | .waitwExpiry core slot => Sys2Proof.Machine.execWaitwExpiry core slot s
  | .clockHalt core => Sys2Proof.Machine.execClockHalt core s
  | .clockResume core => Sys2Proof.Machine.execClockResume core s
  | .accessPerform n piece => Sys2Proof.Machine.execAccessPerform n piece s
  | .portWithdrawal n => Sys2Proof.Machine.execPortWithdrawal n s
  | .withdrawalArrival n => Sys2Proof.Machine.execWithdrawalArrival n s
  | .monitorFire n => Sys2Proof.Machine.execMonitorFire n s
  | .fenceMarker n => Sys2Proof.Machine.execFenceMarker n s
  | .fenceMarkerAck n => Sys2Proof.Machine.execFenceMarkerAck n s
  | .transientRequest n => Sys2Proof.Machine.execTransientRequest n s
  | .transientRetry n => Sys2Proof.Machine.execTransientRetry n s
  | .persistentRequest n => Sys2Proof.Machine.execPersistentRequest n s
  | .persistentDeactivation die n => Sys2Proof.Machine.execPersistentDeactivation die n s
  | .tokenMessage n => Sys2Proof.Machine.execTokenMessage n s
  | .softDirectoryHint line core => Sys2Proof.Machine.execSoftDirectoryHint line core s
  | .writeBack core line => Sys2Proof.Machine.execWriteBack core line s
  | .writeBackBufferDrain slice => Sys2Proof.Machine.execWriteBackBufferDrain slice s
  | .linkSleep die far => Sys2Proof.Machine.execLinkSleep die far s
  | .linkWake die far => Sys2Proof.Machine.execLinkWake die far s
  | .linkWakeComplete die far => Sys2Proof.Machine.execLinkWakeComplete die far s
  | .heartbeat die far => Sys2Proof.Machine.execHeartbeat die far s
  | .dieLost die => Sys2Proof.Machine.execDieLost die s
  | .flitUncorrectable carried link seq => Sys2Proof.Machine.execFlitUncorrectable carried link seq s
  | .recountReply line => Sys2Proof.Machine.execRecountReply line s
  | .landingRequest n => Sys2Proof.Machine.execLandingRequest n s
  | .landing n => Sys2Proof.Machine.execLanding n s
  | .faultSweep core slot runAhead => Sys2Proof.Machine.execFaultSweep core slot runAhead s
  | .copyNotification n => Sys2Proof.Machine.execCopyNotification n s
  | .packetStart cluster queue => Sys2Proof.Machine.execPacketStart cluster queue s
  | .packetComplete n => Sys2Proof.Machine.execPacketComplete n s
  | .fillComplete n => Sys2Proof.Machine.execFillComplete n s
  | .stringMatch core dir => Sys2Proof.Machine.execStringMatch core dir s
  | .stringDelivery n => Sys2Proof.Machine.execStringDelivery n s
  | .arrayEntryStart core => Sys2Proof.Machine.execArrayEntryStart core s
  | .arrayEntryComplete core => Sys2Proof.Machine.execArrayEntryComplete core s
  | .speEngineFinish core n => Sys2Proof.Machine.execSpeEngineFinish core n s
  | .semaphoreSignal n => Sys2Proof.Machine.execSemaphoreSignal n s
  | .streamElementFetch core gen => Sys2Proof.Machine.execStreamElementFetch core gen s
  | .streamElementWrite core gen => Sys2Proof.Machine.execStreamElementWrite core gen s
  | .winnowSample launch => Sys2Proof.Machine.execWinnowSample launch s
  | .winnowShipmentArrival n => Sys2Proof.Machine.execWinnowShipmentArrival n s
  | .barrierArrival n => Sys2Proof.Machine.execBarrierArrival n s
  | .blockQueueRequest n => Sys2Proof.Machine.execBlockQueueRequest n s
  | .flitInjection cluster => Sys2Proof.Machine.execFlitInjection cluster s
  | .flitDelivery n => Sys2Proof.Machine.execFlitDelivery n s
  | .migration n verified => Sys2Proof.Machine.execMigration n verified s
  | .meterWindow vf => Sys2Proof.Machine.execMeterWindow vf s
  | .launchStart part => Sys2Proof.Machine.execLaunchStart part s
  | .launchEnd part launch => Sys2Proof.Machine.execLaunchEnd part launch s
  | .deferredReap core slot => Sys2Proof.Machine.execDeferredReap core slot s
  | .create => Sys2Proof.Machine.execCreate s
  | .grow => Sys2Proof.Machine.execGrow s
  | .shrink => Sys2Proof.Machine.execShrink s
  | .destroy => Sys2Proof.Machine.execDestroy s
  | .vfmap => Sys2Proof.Machine.execVfmap s
  | .vfmeter => Sys2Proof.Machine.execVfmeter s
  | .kill => Sys2Proof.Machine.execKill s
  | .checkpoint => Sys2Proof.Machine.execCheckpoint s
  | .restore => Sys2Proof.Machine.execRestore s
  | .cfgrd addr => Sys2Proof.Machine.execCfgrd addr s
  | .cfgwr addr value => Sys2Proof.Machine.execCfgwr addr value s
  | .capabilityRead offset length => Sys2Proof.Machine.execCapabilityRead offset length s
  | .controlPost packet => Sys2Proof.Machine.execControlPost packet s
  | .attestation nonce => Sys2Proof.Machine.execAttestation nonce s
  | .errorLogRead first count => Sys2Proof.Machine.execErrorLogRead first count s
  | .mgmtRefused code => Sys2Proof.Machine.execMgmtRefused code s
  | .post vf queue packet => Sys2Proof.Machine.execPost vf queue packet s
  | .hmrdCompletion addr data => Sys2Proof.Machine.execHmrdCompletion addr data s
  | .hmwrCompletion n => Sys2Proof.Machine.execHmwrCompletion n s
  | .hamoAnswer n old => Sys2Proof.Machine.execHamoAnswer n old s
  | .tgrant line exclusive => Sys2Proof.Machine.execTgrant line exclusive s
  | .tsnp line exclusive => Sys2Proof.Machine.execTsnp line exclusive s
  | .xinv vf addr size => Sys2Proof.Machine.execXinv vf addr size s
  | .xsync number => Sys2Proof.Machine.execXsync number s
  | .peerFlit link header payload crcGood => Sys2Proof.Machine.execPeerFlit link header payload crcGood s
  | .nack link ackSeq => Sys2Proof.Machine.execNack link ackSeq s
  | .linkRetrain link delivered => Sys2Proof.Machine.execLinkRetrain link delivered s
  | .linkDown link => Sys2Proof.Machine.execLinkDown link s
  | .softError store where_ => Sys2Proof.Machine.execSoftError store where_ s
  | .uncorrectableError store where_ => Sys2Proof.Machine.execUncorrectableError store where_ s
  | .patrolScrub key found => Sys2Proof.Machine.execPatrolScrub key found s
  | .packageReset images signed standby => Sys2Proof.Machine.execPackageReset images signed standby s
  | .illegalEncoding word => Sys2Proof.Machine.execIllegalEncoding word s
  | .coreRailLoss => Sys2Proof.Machine.execCoreRailLoss s
  | .laneRepair module_ outcome => Sys2Proof.Machine.execLaneRepair module_ outcome s
  | .fqrd part value => Sys2Proof.Machine.execFqrd part value s
  | .trrd part value => Sys2Proof.Machine.execTrrd part value s
  | .krrd part value => Sys2Proof.Machine.execKrrd part value s

end Sys2Proof.Machine
end

