-- ==== Sys2Proof/Machine/Turn.lean ====
section
/-! DEFINITION. A core's cycle: the fetch (R71 to R73), the turn (R10, R13, R38, R41, R89), what comes before and after it in
the cycle (R20, R30, R34, R37, R114, R183), and the passing of wall time (R38, R45, R182, R340). -/
namespace Sys2Proof.Machine

/-- A halfword fetched, or what the fetch ends in. -/
inductive Fetched where
  | got (h : Nat)
  | ended (v : Verdict)

/-- The halfwords of the line of a place, as the L1 instruction cache takes them in: none of a poisoned word (R72). -/
def lineHalves (m : Memory) (key : Nat) : List (Nat × BitVec 16) :=
  ((List.range 64).map fun i => key / 128 * 128 + 2 * i).filterMap fun a =>
    if m.isPoisoned a then none else some (a, BitVec.ofNat 16 (m.nat a 2))

/-- A halfword through the L1 instruction cache. On a miss a free choice says whether the halfwords have arrived at this turn: until
then the turn stays empty (R112). Where a word has changed since its line was fetched, old or new by a free choice (R73;
assumption 80). -/
def fetchCached (m : Memory) (d : Device) (a : Word) (key : Nat) : Fetched × Device :=
  let now := m.nat key 2
  match assocGet key d.me.icache with
  | none =>
    let (here, d1) := d.drawBit
    if !here then (.ended .stall, d1)
    else if m.isPoisoned key then (.ended (.poison a key), d1)
    else (.got now, d1.onMe fun k => { k with icache := lineHalves m key ++ k.icache })
  | some old =>
    if old.toNat = now ∧ m.isPoisoned key = false then (.got now, d)
    else
      let (b, d1) := d.drawBit
      if b then (.got old.toNat, d1)
      else if m.isPoisoned key then (.ended (.poison a key), d1)
      else (.got now, d1)

/-- A halfword of the on-chip window, which no L1 ever holds (R236, R238): a free choice says whether it has arrived at this turn (R112). -/
def fetchDirect (m : Memory) (d : Device) (a : Word) (key : Nat) : Fetched × Device :=
  let (here, d1) := d.drawBit
  if !here then (.ended .stall, d1)
  else if m.isPoisoned key then (.ended (.poison a key), d1)
  else (.got (m.nat key 2), d1)

/-- A halfword of a peer's memory, which no L1 ever holds: its answer is awaited (R112, R382). -/
def fetchPeer (d : Device) (x : Context) (a : Word) (key : Nat) : Fetched × Device :=
  match d.peerRead x.part ⟨5, (d.core, d.slot), key⟩ 2 with
  | .answer bs d1 => (.got (bytesNat bs), d1)
  | .down => (.ended (.poison a key), d)
  | .away d1 => (.ended .stall, d1)

/-- A halfword of host memory: one that the L1 instruction cache holds is not asked for again (R112, R378). -/
def fetchHost (m : Memory) (d : Device) (x : Context) (a : Word) (key : Nat) : Fetched × Device :=
  if (assocGet key d.me.icache).isSome then fetchCached m d a key
  else
    match hostReady d x.part (9, 0, 0) key false with
    | (true, d1) => fetchCached m d1 a key
    | (false, d1) => (.ended .stall, d1)

/-- The L1 instruction cache of a core takes in the line of a place before any fetch asks for it, so that a fetch after a write may
give the old value (R73; assumption 80): of device memory, or of host memory whose data is at the proxy. A halted core fetches nothing
(R40). -/
def fetchAhead (core key : Nat) (s : State) : Out :=
  let d := s.dev
  if d.up ∧ (d.coreAt core).halted = false ∧ coreExists core = true ∧
      (key < Config.hostBase ∨ key < Config.peerBase ∧ grantData (d.grantOf (lineOf key)) = true) then
    conclude s (d.onCore core fun k => { k with icache := lineHalves s.mem key ++ k.icache }) []
  else conclude s d []

/-- The fetch of the halfword at an address by the context whose turn it is: checked like a load, with X for RD (R72). -/
def fetchHalf (m : Memory) (d : Device) (x : Context) (a : Word) : Fetched × Device :=
  match locate m d d.core x.part x.vf (some (x, d.slot)) false a needX .plain with
  | (.trap c v, _) => (.ended (.trap c v), d)
  | (.fault cls v n, _) => (.ended (.sweep cls v n), d)
  | (.migrating, _) => (.ended .retry, d)
  | (.ship die line, _) => (.ended (.ship die line), d)
  | (.at_ p, d1) =>
    match p.kind with
    | .chip =>
      if d1.lostDies.contains p.port.die then (.ended (.trap cCOHLOSS a), d1) else fetchDirect m d1 a p.key
    | .peer => fetchPeer d1 x a p.key
    | .host => if d1.lostLine p.line then (.ended (.trap cCOHLOSS a), d1) else fetchHost m d1 x a p.key
    | .device => if d1.lostLine p.line then (.ended (.trap cCOHLOSS a), d1) else fetchCached m d1 a p.key

/-- What the fetch of an instruction gives: its bytes, or its end. -/
inductive Encoding where
  | bytes (bs : List Byte)
  | ended (v : Verdict)

/-- A context's fetch has ended: the answers of peers to it are forgotten. -/
def fetched (d : Device) : Device := d.peerForget 5 (d.core, d.slot)

/-- The instruction at the pc: one halfword, or two where bit 0 of the first is 1 (R71, R72). -/
def fetchInstr (m : Memory) (d : Device) (x : Context) : Encoding × Device :=
  match fetchHalf m d x x.regs.pc with
  | (.ended v, d1) => (.ended v, d1)
  | (.got lo, d1) =>
    if lo % 2 = 0 then (.bytes (leBytes 2 lo), fetched d1)
    else
      match fetchHalf m d1 x (x.regs.pc + 2) with
      -- nothing has been taken in yet
      | (.ended v, d2) => (.ended v, { d2 with inputs := d.inputs })
      | (.got hi, d2) => (.bytes (leBytes 4 (lo + 65536 * hi)), fetched d2)

/-- The word of an encoding, its first halfword lowest. -/
def wordOfBytes (bs : List Byte) : BitVec 32 := BitVec.ofNat 32 (bs.foldr (fun b acc => b.toNat + 256 * acc) 0)

/-- Runs the instruction of the turn, which the context keeps for as long as it stays parked in it. -/
def runInstr (i : Instr) (s : State) : Out := exec i { s with dev := s.dev.onCur fun x => { x with held := some i } }

/-- Steps 1 to 3 of R89 and the instruction: an encoding that is none raises ILLEGAL, after the stall of step 2. -/
def fetchAndRun (s : State) (x : Context) : Out :=
  match fetchInstr s.mem s.dev x with
  | (.ended v, d) => carryOut s (d.onCur fun x => { x with held := none }) { x with held := none } 4 [] [] v
  | (.bytes bs, d) =>
    match decode bs with
    | .ok (i, _) => runInstr i { s with dev := d }
    | .error _ =>
      if x.pending.any fun p => p.left == 0 && !p.arrived then conclude s d []
      else execIllegalEncoding (wordOfBytes bs) { s with dev := d }

/-- A turn of run-ahead (R354, R355): it fetches on, and stops where the fetch ends in a fault or a trap, at an encoding that would trap, and
at the majors R355 lists. -/
def aheadTurn (s : State) (x : Context) (cls : Nat) (addr : Word) (need : BitVec 3) (a : Ahead) : Out :=
  if a.stopped then conclude s s.dev []
  else
    let stop (d : Device) : Out := conclude s (d.onCur fun z => { z with phase := .faulted cls addr need a.stop }) []
    match fetchInstr s.mem s.dev (x.ahead a) with
    | (.ended .stall, d) => conclude s d []
    | (.ended .retry, d) => conclude s d []
    | (.ended _, d) => stop d
    | (.bytes bs, d) =>
      match decode bs with
      | .ok (i, _) => if stopsAhead i then stop d else exec i { s with dev := d }
      | .error _ => stop d

/-- What a context does with a turn in which no expired wait traps (R13): it fetches and issues, tries the instruction it is
parked in, enters its trap, or leaves the turn empty. -/
def useTurn (s : State) (x : Context) : Out :=
  match x.phase with
  | .ready => fetchAndRun s x
  | .trapping _ _ _ => conclude s (trapEntry s.dev s.dev.core s.dev.slot) []
  | .faulted cls addr need a => aheadTurn s x cls addr need a
  | .parked w =>
    if w.kind.retried = true ∧ expired w.expiry s.dev.wall = none then
      match x.held with
      | some i => runInstr i s
      | none => fetchAndRun s x
    else conclude s s.dev []
  | _ => conclude s s.dev []

/-- A TURN (R10, R38, R41, R89) of the core and slot that `dev` names. -/
def turn (s : State) : Out :=
  let d := s.dev
  match d.cur with
  | none => conclude s d []
  | some x =>
    match d.savingOf d.core d.slot with
    | some c => saveTurn s c
    | none =>
      match (expiring d d.core d.slot cWAITLIM).or (expiring d d.core d.slot cDEADLINE) with
      | some e => conclude s (expireAt d d.core d.slot e) []
      | none => useTurn s x

/-- Whether a context is in a state that something other than its own turn ends. -/
def waitsAt (d : Device) (core slot : Nat) : Bool :=
  match d.ctxAt core slot with
  | some x => x.wait?.isSome
  | none => true

/-- What takes place in a core's cycle before the turn: the array's entries end and begin, and timed waits end (R37, R183). -/
def beforeTurn (s : State) (core : Nat) : State :=
  let w : Work := ((Work.start s).on fun d => arrayEnd d core).arrayBegin core
  let d := (List.range 16).foldl (fun d i => endWaitk (endWaitw (endWaitc d core i) core i) core i) w.d
  ⟨w.m, d⟩

/-- Divides of a core whose 40 cycles are over write their results (R114). -/
def endDivides (d : Device) (core : Nat) : Device :=
  ((d.coreAt core).slots.zipIdx).foldl (fun d q =>
    match q.1 with
    | some x => (x.pending.filter fun p => p.due.isSome && !p.arrived).foldl (fun d p => divideDone d core q.2 p) d
    | none => d) d

/-- Lane reductions that have had their 15 cycles complete, in sequence order (R12, R27). -/
def endReductions (k : Core) : Core :=
  let n := (k.reductions.filter fun r => !r.held && decide (r.at_ + 15 ≤ k.cyc)).length
  (List.range n).foldl (fun k _ => k.reduced) k

/-- Messages that have reached a core's interface enter it, in their order (R20, R21). -/
def takeMessages (d : Device) (core : Nat) : Device :=
  (List.range d.messages.length).reverse.foldl (fun (acc : Nat × Device) _ =>
    -- acc.1 is the place of the next message to look at: it stays where one has left the list
    match acc.2.messages[acc.1]? with
    | none => acc
    | some m =>
      if m.to_ = core then
        let d1 := arriveMessage acc.2 acc.1
        if d1.messages.length < acc.2.messages.length then (acc.1, d1) else (acc.1 + 1, acc.2)
      else (acc.1 + 1, acc.2)) (0, d) |>.2

/-- What takes place after the turn (R30): results are written, those first that came during a halt (R40), then a deposit. A
waiting deposit is retried from the cycle after the one that made room for it (R21): `dueNow` holds what could be applied
before the turn. -/
def afterTurn (d : Device) (core : Nat) : Device :=
  let d1 := (deliverInbound (endDivides d core) core).onCore core fun k =>
    let k1 := endReductions k
    { k1 with
      engine := k1.engine.filter fun e => decide (k1.cyc < e.2)
      trees := k1.trees.filter fun c => decide (k1.cyc < c)
      cyc := k1.cyc + 1 }
  takeMessages (retryDeposit d1 core) core

/-- The begin of a cycle: the cycle before it is recorded, with its end at a halt if there was one (R34, R35), and messages whose
hand-off is over reach their port (R45). -/
def beginCycle (d0 : Device) (core : Nat) : Device :=
  let d := handOver d0 core
  let due := dueDeposits d core
  d.onCore core fun k =>
    let end_ := if k.haltAt ≠ 0 ∧ k.begun ≤ k.haltAt then k.haltAt else d.now
    { k with
      begun := d.now
      runSince := d.now
      dueNow := due
      lastDeposit := none
      woke := []
      cycles := if k.cyc = 0 then [] else ((k.begun, end_) :: k.cycles).take 100 }

/-- Whether a core can have a cycle: it exists and has power, and its clock runs (R40, R391, R401). -/
def clocked (d : Device) (core : Nat) : Bool :=
  coreExists core && d.up && !(d.coreAt core).halted && !d.lostDies.contains (dieOfCore core)

/-- ONE CYCLE of a core, at the present instant. A context woken in its own turn's cycle waits for the next (R14), and a fenced core issues
nothing (R387). -/
def cycle (s : State) (core : Nat) : Out :=
  if !clocked s.dev core then conclude s s.dev []
  else
    let k := s.dev.coreAt core
    let slot := k.cyc % 16
    let asleep := waitsAt s.dev core slot
    let s1 := beforeTurn { s with dev := beginCycle { s.dev with core := core, slot := slot } core } core
    let out := if k.fenced || k.used == some k.cyc || asleep && !waitsAt s1.dev core slot then conclude s1 s1.dev [] else turn s1
    match out with
    | .next t => .next { t with dev := afterTurn t.dev core }
    | o => o

/-- Whether the context in a slot would go on if it tried its instruction now. -/
def wouldGoOn (s : State) (core slot : Nat) (x : Context) : Bool :=
  match useTurn { s with dev := { s.dev with core := core, slot := slot } } x with
  | .next t =>
    match t.dev.ctxAt core slot with
    | some y =>
      match y.phase with
      | .parked _ => false
      | .ready => !y.stalled
      | _ => true
    | none => true
  | _ => false

/-- Judges a wait whose last wall ns ends (R38): a condition that holds in it wins, and the context becomes ready; otherwise
it is too late. A stream stall that has not cleared will trap. -/
def judgeWait (s : State) (upto core slot : Nat) (d : Device) : Device :=
  match s.dev.ctxAt core slot with
  | none => d
  | some x =>
    match x.phase, x.stallSince with
    | .parked ⟨kind, t0, some (e, _), _⟩, _ =>
      if kind.retried = true ∧ s.dev.wall ≤ e ∧ e < upto ∧ wouldGoOn s core slot x = true then
        d.onCtx core slot fun y => { y with phase := .ready, stallSince := some t0, stalled := false }
      else d
    | .ready, some t0 =>
      match (if x.stalled then expiryOf x.regs.sys t0 else none) with
      | some (e, c) =>
        if s.dev.wall ≤ e ∧ e < upto ∧ wouldGoOn s core slot x = false then
          d.onCtx core slot fun y => { y with phase := .parked ⟨.retry, t0, some (e, c), 0⟩ }
        else d
      | none => d
    | _, _ => d

/-- Judges the waits of every core whose clock runs, before the wall passes their expiry instants (R38, R41). -/
def judgeWaits (s : State) (upto : Nat) : Device :=
  (s.dev.cores.filter fun c => !c.2.halted).foldl (fun d c => (List.range 16).foldl (fun d i => judgeWait s upto c.1 i d) d) s.dev

/-- What falls due by itself as the wall passes from a wall ns: meter windows, flits in their owned slots, messages within a die,
string transfers, wakes of links, and heartbeats of peer links (R45, R182, R266, R304, R340, R382). -/
def settleDue (before : Nat) (d : Device) : Device :=
  let d1 := injectFlits ((d.vfs.map Prod.fst).foldl meterWindow d) before d.wall
  let d2 := (d1.messages.zipIdx.filter fun q => dieOfCore q.1.from_ = dieOfCore q.1.to_ && !q.1.delivered).reverse.foldl
    (fun d q => deliver d q.2) d1
  peerBeats (settleLinks ((List.range d2.transfers.length).reverse.foldl deliverString d2))

/-- The latest instant at which the next cycle of a core whose clock runs begins (R32, R44); none for a core that has had no
cycle, or whose clock is halted. -/
def latestCycle (d : Device) (c : Nat × Core) : Option Nat :=
  if c.2.cyc = 0 ∨ clocked d c.1 = false then none else some (c.2.runSince + Config.mostPeriod)

/-- The instant up to which wall time may pass before some core must begin its next cycle (R32, R44), a launch samples (R302), a
link has been waking for 1.5 µs (R266), or a heartbeat is due on a peer link (R382). -/
def horizon (d : Device) : Option Nat :=
  ((d.cores.filterMap (latestCycle d)) ++
    ((d.launches.filter Launch.samples).map fun l => l.nextSample d.wall * Config.fsPerNs) ++
    ((d.dieLinks.filter fun l => decide (l.state = .waking ∧ d.wall < l.since + 1500)).map fun l => (l.since + 1500) * Config.fsPerNs) ++
    ((linksInUse d).filter fun l => decide (d.wall < (d.peerAt l).beat + 4000)).map fun l => ((d.peerAt l).beat + 4000) * Config.fsPerNs).min?

/-- The instant that a move at an instant comes to: no later than a core's cycle must begin. -/
def reached (d : Device) (at_ : Nat) : Nat :=
  match horizon d with
  | some h => min at_ h
  | none => at_

/-- Wall time passes to an instant, or stands where that instant has passed. A levelling sample of the instant that ends is taken now, after
the cycles that begin at it (R226, R302). -/
def passTo (s : State) (at_ : Nat) : State :=
  if at_ ≤ s.dev.now then s
  else
    let d := if at_ / Config.fsPerNs = s.dev.wall then s.dev else judgeWaits s (at_ / Config.fsPerNs)
    { s with dev := settleDue s.dev.wall { winnowSamples d with now := at_ } }

/-- Wall time passes to an instant, or as far as the clocks of the cores allow (R32, R44). -/
def pass (s : State) (at_ : Nat) : State := passTo s (reached s.dev at_)

/-- The earliest instant at which a core's next cycle can begin (R32). -/
def cycleAt (d : Device) (core : Nat) (at_ : Nat) : Nat :=
  let k := d.coreAt core
  if k.cyc = 0 then at_ else max at_ (k.begun + Config.leastPeriod)

/-- An input of a partition comes in (R376, R380, R382). -/
def takeInput (e : Input) (s : State) : Out :=
  match e with
  | .post vf q p => execPost vf q p s
  | .control p => execControlPost p s
  | .capability o l => execCapabilityRead o l s
  | .attestation n => execAttestation n s
  | .errorLog f c => execErrorLogRead f c s
  | .hmrd a bs => execHmrdCompletion a bs s
  | .hamo n old => execHamoAnswer n old s
  | .peer l h p ok => execPeerFlit l h p ok s

/-- An input that arrived at a wall ns and was held comes in again (R393, R397). -/
def execInput (e : Input) (arrived : Nat) (s : State) : Out :=
  match takeInput e { s with dev := { s.dev with entering := some arrived } } with
  | .next t => .next { t with dev := { t.dev with entering := none } }
  | o => o

/-- Whether a constructor is a happening that may come at any instant: no instruction, which issues in its context's turn alone (R10), no
encoding, which a fetch has to meet (R87), and no levelling sample, which is taken as its instant ends (R226). -/
def happens (e : Instr) : Bool :=
  match e with
  | .illegalEncoding _ => false
  | .winnowSample _ => false
  | e => (encode e).isNone

/-- One move of an agent (assumption 1): a core's cycle, which does not happen before it can begin, or a happening that is no
instruction's, since an instruction issues in its context's turn alone (R10). -/
def execMove (mv : Move) (s : State) : Out :=
  match mv with
  | .cycle core at_ =>
    let t := pass s (cycleAt s.dev core at_)
    if cycleAt t.dev core 0 ≤ t.dev.now then cycle t core else conclude t t.dev []
  | .event e at_ => if happens e then exec e (pass s at_) else conclude s s.dev []
  | .chunk n at_ => execChunk n (pass s at_)
  | .fillRead n unit at_ => execFillRead n unit (pass s at_)
  | .input e arrived at_ => execInput e arrived (pass s at_)
  | .fetchAhead core key at_ => fetchAhead core key (pass s at_)

/-- The parts of saves and restores that something else ends: restored contexts whose multiplies have ended (R370), and arrivals that
a saved core's ring caught (R372). Answers of peers are recorded first (R397). -/
def afterSaves (s : State) : Out :=
  if s.dev.restoring.isEmpty && s.dev.saved.isEmpty && s.dev.inputs.isEmpty then .next s
  else (s.dev.saved.foldl Work.spillOut (Work.start s).recordAnswers.endRestores).finish s

/-- What a move brings about at its instant: a launch whose contexts zero have all stopped ends (R346, R347), the XSYNCs whose
accesses have performed are answered (R379), tokens that have come to a line move to its active request (R256), host snoops that can be
answered are (R378), and saves and restores go on. -/
def afterMove (o : Out) : Out :=
  match o with
  | .next t =>
    let d := judgeLaunches t.dev
    let d1 := forwardAll (answerXsyncs d.xsyncs.length d)
    afterSaves { t with dev := answerSnoops t.mem d1 }
  | o => o

end Sys2Proof.Machine
end

