-- ==== Sys2Proof/Machine/Step.lean ====
section
/-! DEFINITION. One step of the machine: the move at the head of the agenda, or, with an empty agenda, the next cycle of the
core in focus (assumptions 1 and 4). -/
namespace Sys2Proof.Machine

/-- Of two cores, the one whose clock runs and whose next cycle must begin first; the first of equals. -/
def sooner (d : Device) (best : Nat) (c : Nat × Core) : Nat :=
  match latestCycle d c, latestCycle d (best, d.coreAt best) with
  | some t, some u => if t < u then c.1 else best
  | some _, none => if clocked d best then best else c.1
  | none, _ => best

/-- The next cycle when no agent's move stands in the agenda (assumption 4): that of the core in focus, or of a core whose cycle
must begin before it, at the nominal period. -/
def nominalMove (d : Device) : Move :=
  let core := d.cores.foldl (sooner d) d.focus
  .cycle core ((d.coreAt core).begun + Config.nominalPeriod)

/-- One step. -/
def step (s : State) : Out :=
  match s.dev.agenda with
  | [] => afterMove (execMove (nominalMove s.dev) s)
  | mv :: rest => afterMove (execMove mv { s with dev := { s.dev with agenda := rest } })

/-- Physical address of the code page, behind the first channel of die 0. -/
def codeFrame : Nat := 0x100000

/-- Physical addresses of the page tables of levels 0 to 4. -/
def tableFrame (level : Nat) : Nat := 0x10000 + 0x1000 * level

/-- The page tables that map virtual page 0 to the code page with RD, W and X (R348, R349). -/
def fetchTables : List Edit :=
  ((List.range 4).map fun l => storeEdits (tableFrame l) 8 (tableFrame (l + 1) + 1)).flatten ++
    storeEdits (tableFrame 4) 8 (codeFrame + 0xF)

/-- The context that fetches: context zero of a core, with whole windows, at virtual address 0 (R15, R103). -/
def fetchContext : Context := { gCount := 128, vCount := 64 }

/-- The state with an instruction where the next step fetches: its words in the code page, context zero of the core in focus
ready at them with its halfwords in the L1 instruction cache (R112), in a partition that holds the core's field block and the channel of the page, and that core's cycle, with
slot 0's turn, next. -/
def State.withFetchWord (s : State) (nbits w : Nat) : State :=
  let core := s.dev.focus
  let k := s.dev.coreAt core
  let part : Partition := { blocks := [blockOf core], channels := [(0, 0, 1)] }
  let v := w % 2^nbits
  { mem := s.mem.apply (fetchTables ++ storeEdits codeFrame 4 v)
    dev := { s.dev with
      agenda := [.cycle core s.dev.now]
      parts := assocPut 0 part s.dev.parts
      vfs := assocPut 0 { part := some 0, root := BitVec.ofNat 64 (tableFrame 0) } s.dev.vfs
      cores := assocPut core
        { k with
          cyc := k.cyc / 16 * 16
          slots := k.slots.set 0 (some fetchContext)
          icache := [(codeFrame, BitVec.ofNat 16 v), (codeFrame + 2, BitVec.ofNat 16 (v / 65536))]
          used := none } s.dev.cores } }

end Sys2Proof.Machine
end

