-- ==== Sys2Proof/Laws/PerInstr.lean ====
section
/-! SUPPORT. The statement made of every instruction as syntax, that the decoder reads back its encoding, and one lemma for each
constructor. -/
namespace Sys2Proof.Laws.Encoding
set_option Elab.async false

/-- Decoding the encoding of a well-formed instruction gives it back, whatever bytes follow it (R71 to R87). -/
def Statement (i : Instr) : Prop :=
  i.wellFormed = true → ∀ bs rest : List Byte, encode i = some bs → decode (bs ++ rest) = .ok (i, rest)

/-- A field that is read as bits. -/
theorem bits_of {n lo w : Nat} {x : BitVec n} (h : field lo n w = x.toNat) : bits n lo w = x := by
  apply BitVec.eq_of_toNat_eq
  simpa [bits, field] using h

/-- A field of one bit. -/
theorem bitOf_of {lo w : Nat} {b : Bool} (h : field lo 1 w = b.toNat) : bitOf lo w = b := by
  unfold field at h
  unfold bitOf
  cases b <;> simp_all

/-- An event has no words, so that there is nothing to read back. -/
theorem noWord {i : Instr} (h : encode i = none) : Statement i := by
  intro _ bs rest hb
  rw [h] at hb
  cases hb

/-- An instruction of one word is read back where the decoder reads it from its word. -/
theorem word {i : Instr} {w : Nat} (he : encodeWord i = some w)
    (hd : i.wellFormed = true → ∀ v, v = w → decodeWord v = .ok i ∧ v < 2^32 ∧ v % 2 = 1) : Statement i := by
  intro wf bs rest hb
  obtain ⟨hd, lt, odd⟩ := hd wf w rfl
  simp only [encode, he, Option.some.injEq, leBytes] at hb
  subst hb
  have h0 : w % 256 % 2 = 1 := by omega
  have hw : w % 256 + 256 * (w / 256 % 256) + 65536 * (w / 256 / 256 % 256) + 16777216 * (w / 256 / 256 / 256 % 256) = w := by omega
  simp [decode, BitVec.toNat_ofNat, h0, hw, hd]

/-- The same of an instruction of one halfword. -/
theorem half {i : Instr} {w : Nat} (he : encodeWord i = none ∧ encodeHalf i = some w) 
    (hd : i.wellFormed = true → ∀ v, v = w → decodeHalf v = .ok i ∧ v < 2^16 ∧ v % 2 = 0) : Statement i := by
  intro wf bs rest hb
  obtain ⟨hd, lt, even⟩ := hd wf w rfl
  simp only [encode, he.1, he.2, Option.some.injEq, leBytes] at hb
  subst hb
  have h0 : w % 256 % 2 = 0 := by omega
  have hw : w % 256 + 256 * (w / 256 % 256) = w := by omega
  simp [decode, BitVec.toNat_ofNat, h0, hw, hd]

theorem major1 {w : Nat} (h : field 1 6 w = 1) : decodeWord w = decodeAlu w := by unfold decodeWord; rw [h]; rfl

theorem major2 {w : Nat} (h : field 1 6 w = 2) : decodeWord w = decodeAluw w := by unfold decodeWord; rw [h]; rfl

theorem major3 {w : Nat} (h : field 1 6 w = 3) : decodeWord w = decodeAlux w := by unfold decodeWord; rw [h]; rfl

theorem major4 {w : Nat} (h : field 1 6 w = 4) : decodeWord w = decodeMulx w := by unfold decodeWord; rw [h]; rfl

theorem major5 {w : Nat} (h : field 1 6 w = 5) : decodeWord w =
    (.ok (.addi (bitOf 31 w) (bits 10 21 w) (bits 7 14 w) (bits 7 7 w))) := by
  unfold decodeWord; rw [h]; rfl

theorem major6 {w : Nat} (h : field 1 6 w = 6) : decodeWord w =
    (.ok (.andi (bitOf 31 w) (bits 10 21 w) (bits 7 14 w) (bits 7 7 w))) := by
  unfold decodeWord; rw [h]; rfl

theorem major7 {w : Nat} (h : field 1 6 w = 7) : decodeWord w =
    (.ok (.ori (bitOf 31 w) (bits 10 21 w) (bits 7 14 w) (bits 7 7 w))) := by
  unfold decodeWord; rw [h]; rfl

theorem major8 {w : Nat} (h : field 1 6 w = 8) : decodeWord w =
    (.ok (.xori (bitOf 31 w) (bits 10 21 w) (bits 7 14 w) (bits 7 7 w))) := by
  unfold decodeWord; rw [h]; rfl

theorem major9 {w : Nat} (h : field 1 6 w = 9) : decodeWord w = decodeShi w := by unfold decodeWord; rw [h]; rfl

theorem major10 {w : Nat} (h : field 1 6 w = 10) : decodeWord w =
    (.ok (.slti (bitOf 31 w) (bits 10 21 w) (bits 7 14 w) (bits 7 7 w))) := by
  unfold decodeWord; rw [h]; rfl

theorem major11 {w : Nat} (h : field 1 6 w = 11) : decodeWord w =
    (.ok (.sltiu (bitOf 31 w) (bits 10 21 w) (bits 7 14 w) (bits 7 7 w))) := by
  unfold decodeWord; rw [h]; rfl

theorem major12 {w : Nat} (h : field 1 6 w = 12) : decodeWord w =
    (.ok (.lui (bits 18 14 w) (bits 7 7 w))) := by
  unfold decodeWord; rw [h]; rfl

theorem major13 {w : Nat} (h : field 1 6 w = 13) : decodeWord w =
    (.ok (.auipc (bits 18 14 w) (bits 7 7 w))) := by
  unfold decodeWord; rw [h]; rfl

theorem major14 {w : Nat} (h : field 1 6 w = 14) : decodeWord w =
    (.ok (.jal (bits 18 14 w) (bits 7 7 w))) := by
  unfold decodeWord; rw [h]; rfl

theorem major15 {w : Nat} (h : field 1 6 w = 15) : decodeWord w =
    (.ok (.jalr (bitOf 31 w) (bits 10 21 w) (bits 7 14 w) (bits 7 7 w))) := by
  unfold decodeWord; rw [h]; rfl

theorem major16 {w : Nat} (h : field 1 6 w = 16) : decodeWord w =
    (.ok (.beq (bits 11 21 w) (bits 7 14 w) (bits 7 7 w))) := by
  unfold decodeWord; rw [h]; rfl

theorem major17 {w : Nat} (h : field 1 6 w = 17) : decodeWord w =
    (.ok (.bne (bits 11 21 w) (bits 7 14 w) (bits 7 7 w))) := by
  unfold decodeWord; rw [h]; rfl

theorem major18 {w : Nat} (h : field 1 6 w = 18) : decodeWord w =
    (.ok (.blt (bits 11 21 w) (bits 7 14 w) (bits 7 7 w))) := by
  unfold decodeWord; rw [h]; rfl

theorem major19 {w : Nat} (h : field 1 6 w = 19) : decodeWord w =
    (.ok (.bge (bits 11 21 w) (bits 7 14 w) (bits 7 7 w))) := by
  unfold decodeWord; rw [h]; rfl

theorem major20 {w : Nat} (h : field 1 6 w = 20) : decodeWord w =
    (.ok (.bltu (bits 11 21 w) (bits 7 14 w) (bits 7 7 w))) := by
  unfold decodeWord; rw [h]; rfl

theorem major21 {w : Nat} (h : field 1 6 w = 21) : decodeWord w =
    (.ok (.bgeu (bits 11 21 w) (bits 7 14 w) (bits 7 7 w))) := by
  unfold decodeWord; rw [h]; rfl

theorem major22 {w : Nat} (h : field 1 6 w = 22) : decodeWord w =
    (.ok (.div (bits 4 28 w) (bits 7 21 w) (bits 7 14 w) (bits 7 7 w))) := by
  unfold decodeWord; rw [h]; rfl

theorem major23 {w : Nat} (h : field 1 6 w = 23) : decodeWord w =
    (.ok (.divu (bits 4 28 w) (bits 7 21 w) (bits 7 14 w) (bits 7 7 w))) := by
  unfold decodeWord; rw [h]; rfl

theorem major24 {w : Nat} (h : field 1 6 w = 24) : decodeWord w =
    (.ok (.rem (bits 4 28 w) (bits 7 21 w) (bits 7 14 w) (bits 7 7 w))) := by
  unfold decodeWord; rw [h]; rfl

theorem major25 {w : Nat} (h : field 1 6 w = 25) : decodeWord w =
    (.ok (.remu (bits 4 28 w) (bits 7 21 w) (bits 7 14 w) (bits 7 7 w))) := by
  unfold decodeWord; rw [h]; rfl

theorem major26 {w : Nat} (h : field 1 6 w = 26) : decodeWord w = decodeLoad w := by unfold decodeWord; rw [h]; rfl

theorem major27 {w : Nat} (h : field 1 6 w = 27) : decodeWord w = decodeStore w := by unfold decodeWord; rw [h]; rfl

theorem major28 {w : Nat} (h : field 1 6 w = 28) : decodeWord w =
    (.ok (.lvsE4 (bits 4 28 w) (bits 7 21 w) (bits 7 14 w) (bits 7 7 w))) := by
  unfold decodeWord; rw [h]; rfl

theorem major29 {w : Nat} (h : field 1 6 w = 29) : decodeWord w =
    (.ok (.lvsE5 (bits 4 28 w) (bits 7 21 w) (bits 7 14 w) (bits 7 7 w))) := by
  unfold decodeWord; rw [h]; rfl

theorem major30 {w : Nat} (h : field 1 6 w = 30) : decodeWord w =
    (if field 28 4 w = 0 then .ok (.svs (bits 7 21 w) (bits 7 14 w) (bits 7 7 w)) else .error .badField) := by
  unfold decodeWord; rw [h]; rfl

theorem major31 {w : Nat} (h : field 1 6 w = 31) : decodeWord w =
    (.ok (.ldx (bits 4 28 w) (bits 7 21 w) (bits 7 14 w) (bits 7 7 w))) := by
  unfold decodeWord; rw [h]; rfl

theorem major32 {w : Nat} (h : field 1 6 w = 32) : decodeWord w =
    (if field 23 3 w = 0 then .ok (.ldf (bits 4 28 w) (bits 2 26 w) (bitOf 22 w) (bitOf 21 w) (bits 7 14 w) (bits 7 7 w)) else .error .badField) := by
  unfold decodeWord; rw [h]; rfl

theorem major33 {w : Nat} (h : field 1 6 w = 33) : decodeWord w =
    (if field 22 4 w = 0 ∧ field 28 4 w = 0 then .ok (.stf (bits 2 26 w) (bitOf 21 w) (bits 7 14 w) (bits 7 7 w)) else .error .badField) := by
  unfold decodeWord; rw [h]; rfl

theorem major34 {w : Nat} (h : field 1 6 w = 34) : decodeWord w = decodeAmo w := by unfold decodeWord; rw [h]; rfl

theorem major35 {w : Nat} (h : field 1 6 w = 35) : decodeWord w = decodeFence w := by unfold decodeWord; rw [h]; rfl

theorem major36 {w : Nat} (h : field 1 6 w = 36) : decodeWord w =
    (.ok (.tld (bits 4 28 w) (bits 7 21 w) (bits 7 14 w) (bits 7 7 w))) := by
  unfold decodeWord; rw [h]; rfl

theorem major37 {w : Nat} (h : field 1 6 w = 37) : decodeWord w =
    (if field 28 4 w = 0 then .ok (.tst (bits 7 21 w) (bits 7 14 w) (bits 7 7 w)) else .error .badField) := by
  unfold decodeWord; rw [h]; rfl

theorem major38 {w : Nat} (h : field 1 6 w = 38) : decodeWord w = decodeMarm w := by unfold decodeWord; rw [h]; rfl

theorem major39 {w : Nat} (h : field 1 6 w = 39) : decodeWord w = decodeCache w := by unfold decodeWord; rw [h]; rfl

theorem major40 {w : Nat} (h : field 1 6 w = 40) : decodeWord w =
    (if field 14 7 w = 0 ∧ mfsNumber (field 21 11 w) = true then .ok (.mfs (bits 11 21 w) (bits 7 7 w)) else .error .badField) := by
  unfold decodeWord; rw [h]; rfl

theorem major41 {w : Nat} (h : field 1 6 w = 41) : decodeWord w =
    (if field 7 7 w = 0 ∧ mtsNumber (field 21 11 w) = true then .ok (.mts (bits 11 21 w) (bits 7 14 w)) else .error .badField) := by
  unfold decodeWord; rw [h]; rfl

theorem major42 {w : Nat} (h : field 1 6 w = 42) : decodeWord w = decodeTrap w := by unfold decodeWord; rw [h]; rfl

theorem major43 {w : Nat} (h : field 1 6 w = 43) : decodeWord w = decodeWait w := by unfold decodeWord; rw [h]; rfl

theorem major44 {w : Nat} (h : field 1 6 w = 44) : decodeWord w = decodeThread w := by unfold decodeWord; rw [h]; rfl

theorem major45 {w : Nat} (h : field 1 6 w = 45) : decodeWord w = decodeMsg w := by unfold decodeWord; rw [h]; rfl

theorem major46 {w : Nat} (h : field 1 6 w = 46) : decodeWord w = decodeGroup w := by unfold decodeWord; rw [h]; rfl

theorem major47 {w : Nat} (h : field 1 6 w = 47) : decodeWord w = decodeLevel w := by unfold decodeWord; rw [h]; rfl

theorem major48 {w : Nat} (h : field 1 6 w = 48) : decodeWord w = decodeStream w := by unfold decodeWord; rw [h]; rfl

theorem major49 {w : Nat} (h : field 1 6 w = 49) : decodeWord w = decodeCopy w := by unfold decodeWord; rw [h]; rfl

theorem major50 {w : Nat} (h : field 1 6 w = 50) : decodeWord w = decodeVa w := by unfold decodeWord; rw [h]; rfl

theorem major51 {w : Nat} (h : field 1 6 w = 51) : decodeWord w = decodeVb w := by unfold decodeWord; rw [h]; rfl

theorem major52 {w : Nat} (h : field 1 6 w = 52) : decodeWord w = decodeVc w := by unfold decodeWord; rw [h]; rfl

theorem major53 {w : Nat} (h : field 1 6 w = 53) : decodeWord w = decodeVcvt w := by unfold decodeWord; rw [h]; rfl

theorem major54 {w : Nat} (h : field 1 6 w = 54) : decodeWord w = decodeVfn w := by unfold decodeWord; rw [h]; rfl

theorem major55 {w : Nat} (h : field 1 6 w = 55) : decodeWord w = decodeVred w := by unfold decodeWord; rw [h]; rfl

theorem major56 {w : Nat} (h : field 1 6 w = 56) : decodeWord w = decodeVm w := by unfold decodeWord; rw [h]; rfl

theorem major57 {w : Nat} (h : field 1 6 w = 57) : decodeWord w = decodeMtx w := by unfold decodeWord; rw [h]; rfl

theorem major58 {w : Nat} (h : field 1 6 w = 58) : decodeWord w = decodeSpe w := by unfold decodeWord; rw [h]; rfl

theorem major59 {w : Nat} (h : field 1 6 w = 59) : decodeWord w = decodeGln w := by unfold decodeWord; rw [h]; rfl

theorem major60 {w : Nat} (h : field 1 6 w = 60) : decodeWord w = decodeRng w := by unfold decodeWord; rw [h]; rfl

theorem fields1 {k0 k1 x7 x14 x21 k28 x31 c w : Nat} (h0 : k0 < 2) (h1 : k1 < 64) (h7 : x7 < 128) (h14 : x14 < 128) (h21 : x21 < 128) (h28 : k28 < 8) (h31 : x31 < 2) (hc : c = k0 + k1 * 2 + k28 * 268435456)
    (hw : w = c + place 31 x31 + place 21 x21 + place 14 x14 + place 7 x7) :
    field 7 7 w = x7 ∧ field 14 7 w = x14 ∧ field 21 7 w = x21 ∧ field 1 6 w = k1 ∧ field 28 3 w = k28 ∧ field 31 1 w = x31 ∧ w < 2^32 ∧ w % 2 = k0 := by
  unfold field place at *
  omega

theorem fields2 {k0 k1 x7 x14 k21 k28 x31 c w : Nat} (h0 : k0 < 2) (h1 : k1 < 64) (h7 : x7 < 128) (h14 : x14 < 128) (h21 : k21 < 128) (h28 : k28 < 8) (h31 : x31 < 2) (hc : c = k0 + k1 * 2 + k21 * 2097152 + k28 * 268435456)
    (hw : w = c + place 31 x31 + place 14 x14 + place 7 x7) :
    field 7 7 w = x7 ∧ field 14 7 w = x14 ∧ field 1 6 w = k1 ∧ field 21 7 w = k21 ∧ field 28 3 w = k28 ∧ field 31 1 w = x31 ∧ w < 2^32 ∧ w % 2 = k0 := by
  unfold field place at *
  omega

theorem fields3 {k0 k1 x7 x14 x21 x31 c w : Nat} (h0 : k0 < 2) (h1 : k1 < 64) (h7 : x7 < 128) (h14 : x14 < 128) (h21 : x21 < 1024) (h31 : x31 < 2) (hc : c = k0 + k1 * 2)
    (hw : w = c + place 31 x31 + place 21 x21 + place 14 x14 + place 7 x7) :
    field 7 7 w = x7 ∧ field 14 7 w = x14 ∧ field 21 10 w = x21 ∧ field 1 6 w = k1 ∧ field 31 1 w = x31 ∧ w < 2^32 ∧ w % 2 = k0 := by
  unfold field place at *
  omega

theorem fields4 {k0 k1 x7 x14 x21 k27 k28 x31 c w : Nat} (h0 : k0 < 2) (h1 : k1 < 64) (h7 : x7 < 128) (h14 : x14 < 128) (h21 : x21 < 64) (h27 : k27 < 2) (h28 : k28 < 8) (h31 : x31 < 2) (hc : c = k0 + k1 * 2 + k27 * 134217728 + k28 * 268435456)
    (hw : w = c + place 31 x31 + place 21 x21 + place 14 x14 + place 7 x7) :
    field 7 7 w = x7 ∧ field 14 7 w = x14 ∧ field 21 6 w = x21 ∧ field 1 6 w = k1 ∧ field 27 1 w = k27 ∧ field 28 3 w = k28 ∧ field 31 1 w = x31 ∧ w < 2^32 ∧ w % 2 = k0 := by
  unfold field place at *
  omega

theorem fields5 {k0 k1 x7 x14 x21 k26 k28 x31 c w : Nat} (h0 : k0 < 2) (h1 : k1 < 64) (h7 : x7 < 128) (h14 : x14 < 128) (h21 : x21 < 32) (h26 : k26 < 4) (h28 : k28 < 8) (h31 : x31 < 2) (hc : c = k0 + k1 * 2 + k26 * 67108864 + k28 * 268435456)
    (hw : w = c + place 31 x31 + place 21 x21 + place 14 x14 + place 7 x7) :
    field 7 7 w = x7 ∧ field 14 7 w = x14 ∧ field 21 5 w = x21 ∧ field 1 6 w = k1 ∧ field 26 2 w = k26 ∧ field 28 3 w = k28 ∧ field 31 1 w = x31 ∧ w < 2^32 ∧ w % 2 = k0 := by
  unfold field place at *
  omega

theorem fields6 {k0 k1 x7 x14 c w : Nat} (h0 : k0 < 2) (h1 : k1 < 64) (h7 : x7 < 128) (h14 : x14 < 262144) (hc : c = k0 + k1 * 2)
    (hw : w = c + place 14 x14 + place 7 x7) :
    field 7 7 w = x7 ∧ field 14 18 w = x14 ∧ field 1 6 w = k1 ∧ w < 2^32 ∧ w % 2 = k0 := by
  unfold field place at *
  omega

theorem fields7 {k0 k1 x7 x14 x21 c w : Nat} (h0 : k0 < 2) (h1 : k1 < 64) (h7 : x7 < 128) (h14 : x14 < 128) (h21 : x21 < 2048) (hc : c = k0 + k1 * 2)
    (hw : w = c + place 21 x21 + place 14 x14 + place 7 x7) :
    field 7 7 w = x7 ∧ field 14 7 w = x14 ∧ field 21 11 w = x21 ∧ field 1 6 w = k1 ∧ w < 2^32 ∧ w % 2 = k0 := by
  unfold field place at *
  omega

theorem fields8 {k0 k1 x7 x14 x21 x28 c w : Nat} (h0 : k0 < 2) (h1 : k1 < 64) (h7 : x7 < 128) (h14 : x14 < 128) (h21 : x21 < 128) (h28 : x28 < 16) (hc : c = k0 + k1 * 2)
    (hw : w = c + place 28 x28 + place 21 x21 + place 14 x14 + place 7 x7) :
    field 7 7 w = x7 ∧ field 14 7 w = x14 ∧ field 21 7 w = x21 ∧ field 28 4 w = x28 ∧ field 1 6 w = k1 ∧ w < 2^32 ∧ w % 2 = k0 := by
  unfold field place at *
  omega

theorem fields9 {k0 k1 x7 x14 k21 x25 x26 x28 c w : Nat} (h0 : k0 < 2) (h1 : k1 < 64) (h7 : x7 < 128) (h14 : x14 < 128) (h21 : k21 < 16) (h25 : x25 < 2) (h26 : x26 < 4) (h28 : x28 < 16) (hc : c = k0 + k1 * 2 + k21 * 2097152)
    (hw : w = c + place 28 x28 + place 26 x26 + place 25 x25 + place 14 x14 + place 7 x7) :
    field 7 7 w = x7 ∧ field 14 7 w = x14 ∧ field 26 2 w = x26 ∧ field 28 4 w = x28 ∧ field 1 6 w = k1 ∧ field 21 4 w = k21 ∧ field 25 1 w = x25 ∧ w < 2^32 ∧ w % 2 = k0 := by
  unfold field place at *
  omega

theorem fields10 {k0 k1 x7 x14 k21 x25 x26 k28 c w : Nat} (h0 : k0 < 2) (h1 : k1 < 64) (h7 : x7 < 128) (h14 : x14 < 128) (h21 : k21 < 16) (h25 : x25 < 2) (h26 : x26 < 4) (h28 : k28 < 16) (hc : c = k0 + k1 * 2 + k21 * 2097152 + k28 * 268435456)
    (hw : w = c + place 26 x26 + place 25 x25 + place 14 x14 + place 7 x7) :
    field 7 7 w = x7 ∧ field 14 7 w = x14 ∧ field 26 2 w = x26 ∧ field 1 6 w = k1 ∧ field 21 4 w = k21 ∧ field 28 4 w = k28 ∧ field 25 1 w = x25 ∧ w < 2^32 ∧ w % 2 = k0 := by
  unfold field place at *
  omega

theorem fields11 {k0 k1 x7 x14 x21 k28 c w : Nat} (h0 : k0 < 2) (h1 : k1 < 64) (h7 : x7 < 128) (h14 : x14 < 128) (h21 : x21 < 128) (h28 : k28 < 16) (hc : c = k0 + k1 * 2 + k28 * 268435456)
    (hw : w = c + place 21 x21 + place 14 x14 + place 7 x7) :
    field 7 7 w = x7 ∧ field 14 7 w = x14 ∧ field 21 7 w = x21 ∧ field 1 6 w = k1 ∧ field 28 4 w = k28 ∧ w < 2^32 ∧ w % 2 = k0 := by
  unfold field place at *
  omega

theorem fields12 {k0 k1 x7 x14 x21 x22 k23 x26 x28 c w : Nat} (h0 : k0 < 2) (h1 : k1 < 64) (h7 : x7 < 128) (h14 : x14 < 128) (h21 : x21 < 2) (h22 : x22 < 2) (h23 : k23 < 8) (h26 : x26 < 4) (h28 : x28 < 16) (hc : c = k0 + k1 * 2 + k23 * 8388608)
    (hw : w = c + place 28 x28 + place 26 x26 + place 22 x22 + place 21 x21 + place 14 x14 + place 7 x7) :
    field 7 7 w = x7 ∧ field 14 7 w = x14 ∧ field 26 2 w = x26 ∧ field 28 4 w = x28 ∧ field 1 6 w = k1 ∧ field 23 3 w = k23 ∧ field 21 1 w = x21 ∧ field 22 1 w = x22 ∧ w < 2^32 ∧ w % 2 = k0 := by
  unfold field place at *
  omega

theorem fields13 {k0 k1 x7 x14 x21 k22 x26 k28 c w : Nat} (h0 : k0 < 2) (h1 : k1 < 64) (h7 : x7 < 128) (h14 : x14 < 128) (h21 : x21 < 2) (h22 : k22 < 16) (h26 : x26 < 4) (h28 : k28 < 16) (hc : c = k0 + k1 * 2 + k22 * 4194304 + k28 * 268435456)
    (hw : w = c + place 26 x26 + place 21 x21 + place 14 x14 + place 7 x7) :
    field 7 7 w = x7 ∧ field 14 7 w = x14 ∧ field 26 2 w = x26 ∧ field 1 6 w = k1 ∧ field 22 4 w = k22 ∧ field 28 4 w = k28 ∧ field 21 1 w = x21 ∧ w < 2^32 ∧ w % 2 = k0 := by
  unfold field place at *
  omega

theorem fields14 {k0 k1 k7 x21 k23 k26 c w : Nat} (h0 : k0 < 2) (h1 : k1 < 64) (h7 : k7 < 16384) (h21 : x21 < 4) (h23 : k23 < 8) (h26 : k26 < 64) (hc : c = k0 + k1 * 2 + k7 * 128 + k23 * 8388608 + k26 * 67108864)
    (hw : w = c + place 21 x21) :
    field 21 2 w = x21 ∧ field 1 6 w = k1 ∧ field 7 14 w = k7 ∧ field 23 3 w = k23 ∧ field 26 6 w = k26 ∧ w < 2^32 ∧ w % 2 = k0 := by
  unfold field place at *
  omega

theorem fields15 {k0 k1 x7 x14 k21 k25 x26 k28 c w : Nat} (h0 : k0 < 2) (h1 : k1 < 64) (h7 : x7 < 128) (h14 : x14 < 128) (h21 : k21 < 16) (h25 : k25 < 2) (h26 : x26 < 4) (h28 : k28 < 16) (hc : c = k0 + k1 * 2 + k21 * 2097152 + k25 * 33554432 + k28 * 268435456)
    (hw : w = c + place 26 x26 + place 14 x14 + place 7 x7) :
    field 7 7 w = x7 ∧ field 14 7 w = x14 ∧ field 26 2 w = x26 ∧ field 1 6 w = k1 ∧ field 21 4 w = k21 ∧ field 25 1 w = k25 ∧ field 28 4 w = k28 ∧ w < 2^32 ∧ w % 2 = k0 := by
  unfold field place at *
  omega

theorem fields16 {k0 k1 k7 x14 k21 k28 x31 c w : Nat} (h0 : k0 < 2) (h1 : k1 < 64) (h7 : k7 < 128) (h14 : x14 < 128) (h21 : k21 < 128) (h28 : k28 < 8) (h31 : x31 < 2) (hc : c = k0 + k1 * 2 + k7 * 128 + k21 * 2097152 + k28 * 268435456)
    (hw : w = c + place 31 x31 + place 14 x14) :
    field 14 7 w = x14 ∧ field 1 6 w = k1 ∧ field 7 7 w = k7 ∧ field 21 7 w = k21 ∧ field 28 3 w = k28 ∧ field 31 1 w = x31 ∧ w < 2^32 ∧ w % 2 = k0 := by
  unfold field place at *
  omega

theorem fields17 {k0 k1 k7 x14 x21 k28 x31 c w : Nat} (h0 : k0 < 2) (h1 : k1 < 64) (h7 : k7 < 128) (h14 : x14 < 128) (h21 : x21 < 128) (h28 : k28 < 8) (h31 : x31 < 2) (hc : c = k0 + k1 * 2 + k7 * 128 + k28 * 268435456)
    (hw : w = c + place 31 x31 + place 21 x21 + place 14 x14) :
    field 14 7 w = x14 ∧ field 21 7 w = x21 ∧ field 1 6 w = k1 ∧ field 7 7 w = k7 ∧ field 28 3 w = k28 ∧ field 31 1 w = x31 ∧ w < 2^32 ∧ w % 2 = k0 := by
  unfold field place at *
  omega

theorem fields18 {k0 k1 x7 k14 k28 k31 c w : Nat} (h0 : k0 < 2) (h1 : k1 < 64) (h7 : x7 < 128) (h14 : k14 < 16384) (h28 : k28 < 8) (h31 : k31 < 2) (hc : c = k0 + k1 * 2 + k14 * 16384 + k28 * 268435456 + k31 * 2147483648)
    (hw : w = c + place 7 x7) :
    field 7 7 w = x7 ∧ field 1 6 w = k1 ∧ field 14 14 w = k14 ∧ field 28 3 w = k28 ∧ field 31 1 w = k31 ∧ w < 2^32 ∧ w % 2 = k0 := by
  unfold field place at *
  omega

theorem fields19 {k0 k1 x7 k14 x21 c w : Nat} (h0 : k0 < 2) (h1 : k1 < 64) (h7 : x7 < 128) (h14 : k14 < 128) (h21 : x21 < 2048) (hc : c = k0 + k1 * 2 + k14 * 16384)
    (hw : w = c + place 21 x21 + place 7 x7) :
    field 7 7 w = x7 ∧ field 21 11 w = x21 ∧ field 1 6 w = k1 ∧ field 14 7 w = k14 ∧ field 21 11 w = x21 ∧ w < 2^32 ∧ w % 2 = k0 := by
  unfold field place at *
  omega

theorem fields20 {k0 k1 k7 x14 x21 c w : Nat} (h0 : k0 < 2) (h1 : k1 < 64) (h7 : k7 < 128) (h14 : x14 < 128) (h21 : x21 < 2048) (hc : c = k0 + k1 * 2 + k7 * 128)
    (hw : w = c + place 21 x21 + place 14 x14) :
    field 14 7 w = x14 ∧ field 21 11 w = x21 ∧ field 1 6 w = k1 ∧ field 7 7 w = k7 ∧ field 21 11 w = x21 ∧ w < 2^32 ∧ w % 2 = k0 := by
  unfold field place at *
  omega

theorem fields21 {k0 k1 x7 x14 x21 k22 k28 x31 c w : Nat} (h0 : k0 < 2) (h1 : k1 < 64) (h7 : x7 < 128) (h14 : x14 < 128) (h21 : x21 < 2) (h22 : k22 < 64) (h28 : k28 < 8) (h31 : x31 < 2) (hc : c = k0 + k1 * 2 + k22 * 4194304 + k28 * 268435456)
    (hw : w = c + place 31 x31 + place 21 x21 + place 14 x14 + place 7 x7) :
    field 7 7 w = x7 ∧ field 14 7 w = x14 ∧ field 1 6 w = k1 ∧ field 22 6 w = k22 ∧ field 28 3 w = k28 ∧ field 21 1 w = x21 ∧ field 31 1 w = x31 ∧ w < 2^32 ∧ w % 2 = k0 := by
  unfold field place at *
  omega

theorem fields22 {k0 k1 x5 x11 c w : Nat} (h0 : k0 < 2) (h1 : k1 < 16) (h5 : x5 < 64) (h11 : x11 < 32) (hc : c = k0 + k1 * 2)
    (hw : w = c + place 11 x11 + place 5 x5) :
    field 5 6 w = x5 ∧ field 11 5 w = x11 ∧ field 1 4 w = k1 ∧ field 5 11 w = x5 + x11 * 64 ∧ w < 2^16 ∧ w % 2 = k0 := by
  unfold field place at *
  omega

theorem fields23 {k0 k1 x5 x11 c w : Nat} (h0 : k0 < 2) (h1 : k1 < 16) (h5 : x5 < 64) (h11 : x11 < 32) (hc : c = k0 + k1 * 2)
    (hw : w = c + place 11 x11 + place 5 x5) :
    field 5 6 w = x5 ∧ field 11 5 w = x11 ∧ field 1 4 w = k1 ∧ w < 2^16 ∧ w % 2 = k0 := by
  unfold field place at *
  omega

theorem fields24 {k0 k1 x7 k10 x14 x21 k28 x31 c w : Nat} (h0 : k0 < 2) (h1 : k1 < 64) (h7 : x7 < 8) (h10 : k10 < 16) (h14 : x14 < 128) (h21 : x21 < 128) (h28 : k28 < 8) (h31 : x31 < 2) (hc : c = k0 + k1 * 2 + k10 * 1024 + k28 * 268435456)
    (hw : w = c + place 31 x31 + place 21 x21 + place 14 x14 + place 7 x7) :
    field 7 3 w = x7 ∧ field 14 7 w = x14 ∧ field 21 7 w = x21 ∧ field 1 6 w = k1 ∧ field 7 7 w = x7 + k10 * 8 ∧ field 28 3 w = k28 ∧ field 31 1 w = x31 ∧ w < 2^32 ∧ w % 2 = k0 := by
  unfold field place at *
  omega

theorem fields25 {k0 k1 x7 k10 x14 k17 x21 k24 k28 k31 c w : Nat} (h0 : k0 < 2) (h1 : k1 < 64) (h7 : x7 < 8) (h10 : k10 < 16) (h14 : x14 < 8) (h17 : k17 < 16) (h21 : x21 < 8) (h24 : k24 < 16) (h28 : k28 < 8) (h31 : k31 < 2) (hc : c = k0 + k1 * 2 + k10 * 1024 + k17 * 131072 + k24 * 16777216 + k28 * 268435456 + k31 * 2147483648)
    (hw : w = c + place 21 x21 + place 14 x14 + place 7 x7) :
    field 7 3 w = x7 ∧ field 14 3 w = x14 ∧ field 21 3 w = x21 ∧ field 1 6 w = k1 ∧ field 7 7 w = x7 + k10 * 8 ∧ field 14 7 w = x14 + k17 * 8 ∧ field 21 7 w = x21 + k24 * 8 ∧ field 28 3 w = k28 ∧ field 31 1 w = k31 ∧ w < 2^32 ∧ w % 2 = k0 := by
  unfold field place at *
  omega

theorem fields26 {k0 k1 x7 k10 x14 k17 k21 k28 k31 c w : Nat} (h0 : k0 < 2) (h1 : k1 < 64) (h7 : x7 < 8) (h10 : k10 < 16) (h14 : x14 < 8) (h17 : k17 < 16) (h21 : k21 < 128) (h28 : k28 < 8) (h31 : k31 < 2) (hc : c = k0 + k1 * 2 + k10 * 1024 + k17 * 131072 + k21 * 2097152 + k28 * 268435456 + k31 * 2147483648)
    (hw : w = c + place 14 x14 + place 7 x7) :
    field 7 3 w = x7 ∧ field 14 3 w = x14 ∧ field 1 6 w = k1 ∧ field 7 7 w = x7 + k10 * 8 ∧ field 14 7 w = x14 + k17 * 8 ∧ field 21 7 w = k21 ∧ field 28 3 w = k28 ∧ field 31 1 w = k31 ∧ w < 2^32 ∧ w % 2 = k0 := by
  unfold field place at *
  omega

theorem fields27 {k0 k1 x7 x14 x21 k25 k28 x31 c w : Nat} (h0 : k0 < 2) (h1 : k1 < 64) (h7 : x7 < 128) (h14 : x14 < 128) (h21 : x21 < 16) (h25 : k25 < 8) (h28 : k28 < 8) (h31 : x31 < 2) (hc : c = k0 + k1 * 2 + k25 * 33554432 + k28 * 268435456)
    (hw : w = c + place 31 x31 + place 21 x21 + place 14 x14 + place 7 x7) :
    field 7 7 w = x7 ∧ field 14 7 w = x14 ∧ field 21 4 w = x21 ∧ field 1 6 w = k1 ∧ field 25 3 w = k25 ∧ field 28 3 w = k28 ∧ field 31 1 w = x31 ∧ w < 2^32 ∧ w % 2 = k0 := by
  unfold field place at *
  omega

theorem fields28 {k0 k1 x7 x14 x21 k24 k28 x31 c w : Nat} (h0 : k0 < 2) (h1 : k1 < 64) (h7 : x7 < 128) (h14 : x14 < 128) (h21 : x21 < 8) (h24 : k24 < 16) (h28 : k28 < 8) (h31 : x31 < 2) (hc : c = k0 + k1 * 2 + k24 * 16777216 + k28 * 268435456)
    (hw : w = c + place 31 x31 + place 21 x21 + place 14 x14 + place 7 x7) :
    field 7 7 w = x7 ∧ field 14 7 w = x14 ∧ field 21 3 w = x21 ∧ field 1 6 w = k1 ∧ field 21 7 w = x21 + k24 * 8 ∧ field 28 3 w = k28 ∧ field 31 1 w = x31 ∧ w < 2^32 ∧ w % 2 = k0 := by
  unfold field place at *
  omega

theorem fields29 {k0 k1 x7 x14 k17 k21 k28 k31 c w : Nat} (h0 : k0 < 2) (h1 : k1 < 64) (h7 : x7 < 128) (h14 : x14 < 8) (h17 : k17 < 16) (h21 : k21 < 128) (h28 : k28 < 8) (h31 : k31 < 2) (hc : c = k0 + k1 * 2 + k17 * 131072 + k21 * 2097152 + k28 * 268435456 + k31 * 2147483648)
    (hw : w = c + place 14 x14 + place 7 x7) :
    field 7 7 w = x7 ∧ field 14 3 w = x14 ∧ field 1 6 w = k1 ∧ field 14 7 w = x14 + k17 * 8 ∧ field 21 7 w = k21 ∧ field 28 3 w = k28 ∧ field 31 1 w = k31 ∧ w < 2^32 ∧ w % 2 = k0 := by
  unfold field place at *
  omega

theorem fields30 {k0 k1 x7 k10 x14 k21 k28 x31 c w : Nat} (h0 : k0 < 2) (h1 : k1 < 64) (h7 : x7 < 8) (h10 : k10 < 16) (h14 : x14 < 128) (h21 : k21 < 128) (h28 : k28 < 8) (h31 : x31 < 2) (hc : c = k0 + k1 * 2 + k10 * 1024 + k21 * 2097152 + k28 * 268435456)
    (hw : w = c + place 31 x31 + place 14 x14 + place 7 x7) :
    field 7 3 w = x7 ∧ field 14 7 w = x14 ∧ field 1 6 w = k1 ∧ field 7 7 w = x7 + k10 * 8 ∧ field 14 7 w = x14 ∧ field 21 7 w = k21 ∧ field 28 3 w = k28 ∧ field 31 1 w = x31 ∧ field 31 1 w = x31 ∧ w < 2^32 ∧ w % 2 = k0 := by
  unfold field place at *
  omega

theorem fields31 {k0 k1 x7 x14 k17 k21 k28 k31 c w : Nat} (h0 : k0 < 2) (h1 : k1 < 64) (h7 : x7 < 128) (h14 : x14 < 8) (h17 : k17 < 16) (h21 : k21 < 128) (h28 : k28 < 8) (h31 : k31 < 2) (hc : c = k0 + k1 * 2 + k17 * 131072 + k21 * 2097152 + k28 * 268435456 + k31 * 2147483648)
    (hw : w = c + place 14 x14 + place 7 x7) :
    field 7 7 w = x7 ∧ field 14 3 w = x14 ∧ field 1 6 w = k1 ∧ field 7 7 w = x7 ∧ field 14 7 w = x14 + k17 * 8 ∧ field 21 7 w = k21 ∧ field 28 3 w = k28 ∧ field 31 1 w = k31 ∧ w < 2^32 ∧ w % 2 = k0 := by
  unfold field place at *
  omega

theorem fields32 {k0 k1 x7 k9 x14 k18 x21 k25 k28 k31 c w : Nat} (h0 : k0 < 2) (h1 : k1 < 64) (h7 : x7 < 4) (h9 : k9 < 32) (h14 : x14 < 16) (h18 : k18 < 8) (h21 : x21 < 16) (h25 : k25 < 8) (h28 : k28 < 8) (h31 : k31 < 2) (hc : c = k0 + k1 * 2 + k9 * 512 + k18 * 262144 + k25 * 33554432 + k28 * 268435456 + k31 * 2147483648)
    (hw : w = c + place 21 x21 + place 14 x14 + place 7 x7) :
    field 7 2 w = x7 ∧ field 14 4 w = x14 ∧ field 21 4 w = x21 ∧ field 1 6 w = k1 ∧ field 7 7 w = x7 + k9 * 4 ∧ field 14 7 w = x14 + k18 * 16 ∧ field 21 7 w = x21 + k25 * 16 ∧ field 28 3 w = k28 ∧ field 31 1 w = k31 ∧ w < 2^32 ∧ w % 2 = k0 := by
  unfold field place at *
  omega

theorem fields33 {k0 k1 x7 x14 k16 x21 k28 k31 c w : Nat} (h0 : k0 < 2) (h1 : k1 < 64) (h7 : x7 < 128) (h14 : x14 < 4) (h16 : k16 < 32) (h21 : x21 < 128) (h28 : k28 < 8) (h31 : k31 < 2) (hc : c = k0 + k1 * 2 + k16 * 65536 + k28 * 268435456 + k31 * 2147483648)
    (hw : w = c + place 21 x21 + place 14 x14 + place 7 x7) :
    field 7 7 w = x7 ∧ field 14 2 w = x14 ∧ field 21 7 w = x21 ∧ field 1 6 w = k1 ∧ field 14 7 w = x14 + k16 * 4 ∧ field 28 3 w = k28 ∧ field 31 1 w = k31 ∧ w < 2^32 ∧ w % 2 = k0 := by
  unfold field place at *
  omega

theorem fields34 {k0 k1 x7 k9 k14 k28 k31 c w : Nat} (h0 : k0 < 2) (h1 : k1 < 64) (h7 : x7 < 4) (h9 : k9 < 32) (h14 : k14 < 16384) (h28 : k28 < 8) (h31 : k31 < 2) (hc : c = k0 + k1 * 2 + k9 * 512 + k14 * 16384 + k28 * 268435456 + k31 * 2147483648)
    (hw : w = c + place 7 x7) :
    field 7 2 w = x7 ∧ field 1 6 w = k1 ∧ field 7 7 w = x7 + k9 * 4 ∧ field 14 14 w = k14 ∧ field 28 3 w = k28 ∧ field 31 1 w = k31 ∧ w < 2^32 ∧ w % 2 = k0 := by
  unfold field place at *
  omega

theorem fields35 {k0 k1 x7 k11 k14 x21 k24 k28 k31 c w : Nat} (h0 : k0 < 2) (h1 : k1 < 64) (h7 : x7 < 16) (h11 : k11 < 8) (h14 : k14 < 128) (h21 : x21 < 8) (h24 : k24 < 16) (h28 : k28 < 8) (h31 : k31 < 2) (hc : c = k0 + k1 * 2 + k11 * 2048 + k14 * 16384 + k24 * 16777216 + k28 * 268435456 + k31 * 2147483648)
    (hw : w = c + place 21 x21 + place 7 x7) :
    field 7 4 w = x7 ∧ field 21 3 w = x21 ∧ field 1 6 w = k1 ∧ field 7 7 w = x7 + k11 * 16 ∧ field 14 7 w = k14 ∧ field 21 7 w = x21 + k24 * 8 ∧ field 28 3 w = k28 ∧ field 31 1 w = k31 ∧ w < 2^32 ∧ w % 2 = k0 := by
  unfold field place at *
  omega

theorem fields36 {k0 k1 x7 k11 k14 k28 k31 c w : Nat} (h0 : k0 < 2) (h1 : k1 < 64) (h7 : x7 < 16) (h11 : k11 < 8) (h14 : k14 < 16384) (h28 : k28 < 8) (h31 : k31 < 2) (hc : c = k0 + k1 * 2 + k11 * 2048 + k14 * 16384 + k28 * 268435456 + k31 * 2147483648)
    (hw : w = c + place 7 x7) :
    field 7 4 w = x7 ∧ field 1 6 w = k1 ∧ field 7 7 w = x7 + k11 * 16 ∧ field 14 14 w = k14 ∧ field 28 3 w = k28 ∧ field 31 1 w = k31 ∧ w < 2^32 ∧ w % 2 = k0 := by
  unfold field place at *
  omega

theorem fields37 {k0 k1 x7 k11 x14 x21 k28 x31 c w : Nat} (h0 : k0 < 2) (h1 : k1 < 64) (h7 : x7 < 16) (h11 : k11 < 8) (h14 : x14 < 128) (h21 : x21 < 128) (h28 : k28 < 8) (h31 : x31 < 2) (hc : c = k0 + k1 * 2 + k11 * 2048 + k28 * 268435456)
    (hw : w = c + place 31 x31 + place 21 x21 + place 14 x14 + place 7 x7) :
    field 7 4 w = x7 ∧ field 14 7 w = x14 ∧ field 21 7 w = x21 ∧ field 1 6 w = k1 ∧ field 7 7 w = x7 + k11 * 16 ∧ field 28 3 w = k28 ∧ field 31 1 w = x31 ∧ w < 2^32 ∧ w % 2 = k0 := by
  unfold field place at *
  omega

theorem fields38 {k0 k1 k7 x14 k18 x21 k24 k28 k31 c w : Nat} (h0 : k0 < 2) (h1 : k1 < 64) (h7 : k7 < 128) (h14 : x14 < 16) (h18 : k18 < 8) (h21 : x21 < 8) (h24 : k24 < 16) (h28 : k28 < 8) (h31 : k31 < 2) (hc : c = k0 + k1 * 2 + k7 * 128 + k18 * 262144 + k24 * 16777216 + k28 * 268435456 + k31 * 2147483648)
    (hw : w = c + place 21 x21 + place 14 x14) :
    field 14 4 w = x14 ∧ field 21 3 w = x21 ∧ field 1 6 w = k1 ∧ field 7 7 w = k7 ∧ field 14 7 w = x14 + k18 * 16 ∧ field 21 7 w = x21 + k24 * 8 ∧ field 28 3 w = k28 ∧ field 31 1 w = k31 ∧ w < 2^32 ∧ w % 2 = k0 := by
  unfold field place at *
  omega

theorem fields39 {k0 k1 k7 k21 k25 c w : Nat} (h0 : k0 < 2) (h1 : k1 < 64) (h7 : k7 < 16384) (h21 : k21 < 16) (h25 : k25 < 128) (hc : c = k0 + k1 * 2 + k7 * 128 + k21 * 2097152 + k25 * 33554432)
    (hw : w = c) :
    field 1 6 w = k1 ∧ field 7 14 w = k7 ∧ field 21 4 w = k21 ∧ field 25 7 w = k25 ∧ w < 2^32 ∧ w % 2 = k0 := by
  unfold field at *
  omega

theorem fields40 {k0 k1 k7 k28 k31 c w : Nat} (h0 : k0 < 2) (h1 : k1 < 64) (h7 : k7 < 2097152) (h28 : k28 < 8) (h31 : k31 < 2) (hc : c = k0 + k1 * 2 + k7 * 128 + k28 * 268435456 + k31 * 2147483648)
    (hw : w = c) :
    field 1 6 w = k1 ∧ field 7 21 w = k7 ∧ field 28 3 w = k28 ∧ field 31 1 w = k31 ∧ w < 2^32 ∧ w % 2 = k0 := by
  unfold field at *
  omega

theorem add (sa : Bool) (b : BitVec 7) (a : BitVec 7) (d : BitVec 7) : Statement (.add sa b a d) := by
  refine word rfl (fun wf w hw => ?_)
  obtain ⟨b7_7, b14_7, b21_7, f1_6, f28_3, t31_1, lt, low⟩ := fields1 (k0 := 1) (k1 := 1) (k28 := 0) (by decide) (by decide) d.isLt a.isLt b.isLt (by decide) (Bool.toNat_lt sa) rfl hw
  refine ⟨?_, lt, low⟩
  rw [major1 f1_6]
  simp [decodeAlu, bits_of b7_7, bits_of b14_7, bits_of b21_7, f28_3, bitOf_of t31_1]

theorem sub (sa : Bool) (b : BitVec 7) (a : BitVec 7) (d : BitVec 7) : Statement (.sub sa b a d) := by
  refine word rfl (fun wf w hw => ?_)
  obtain ⟨b7_7, b14_7, b21_7, f1_6, f28_3, t31_1, lt, low⟩ := fields1 (k0 := 1) (k1 := 1) (k28 := 1) (by decide) (by decide) d.isLt a.isLt b.isLt (by decide) (Bool.toNat_lt sa) rfl hw
  refine ⟨?_, lt, low⟩
  rw [major1 f1_6]
  simp [decodeAlu, bits_of b7_7, bits_of b14_7, bits_of b21_7, f28_3, bitOf_of t31_1]

theorem and (sa : Bool) (b : BitVec 7) (a : BitVec 7) (d : BitVec 7) : Statement (.and sa b a d) := by
  refine word rfl (fun wf w hw => ?_)
  obtain ⟨b7_7, b14_7, b21_7, f1_6, f28_3, t31_1, lt, low⟩ := fields1 (k0 := 1) (k1 := 1) (k28 := 2) (by decide) (by decide) d.isLt a.isLt b.isLt (by decide) (Bool.toNat_lt sa) rfl hw
  refine ⟨?_, lt, low⟩
  rw [major1 f1_6]
  simp [decodeAlu, bits_of b7_7, bits_of b14_7, bits_of b21_7, f28_3, bitOf_of t31_1]

theorem or (sa : Bool) (b : BitVec 7) (a : BitVec 7) (d : BitVec 7) : Statement (.or sa b a d) := by
  refine word rfl (fun wf w hw => ?_)
  obtain ⟨b7_7, b14_7, b21_7, f1_6, f28_3, t31_1, lt, low⟩ := fields1 (k0 := 1) (k1 := 1) (k28 := 3) (by decide) (by decide) d.isLt a.isLt b.isLt (by decide) (Bool.toNat_lt sa) rfl hw
  refine ⟨?_, lt, low⟩
  rw [major1 f1_6]
  simp [decodeAlu, bits_of b7_7, bits_of b14_7, bits_of b21_7, f28_3, bitOf_of t31_1]

theorem xor (sa : Bool) (b : BitVec 7) (a : BitVec 7) (d : BitVec 7) : Statement (.xor sa b a d) := by
  refine word rfl (fun wf w hw => ?_)
  obtain ⟨b7_7, b14_7, b21_7, f1_6, f28_3, t31_1, lt, low⟩ := fields1 (k0 := 1) (k1 := 1) (k28 := 4) (by decide) (by decide) d.isLt a.isLt b.isLt (by decide) (Bool.toNat_lt sa) rfl hw
  refine ⟨?_, lt, low⟩
  rw [major1 f1_6]
  simp [decodeAlu, bits_of b7_7, bits_of b14_7, bits_of b21_7, f28_3, bitOf_of t31_1]

theorem sll (sa : Bool) (b : BitVec 7) (a : BitVec 7) (d : BitVec 7) : Statement (.sll sa b a d) := by
  refine word rfl (fun wf w hw => ?_)
  obtain ⟨b7_7, b14_7, b21_7, f1_6, f28_3, t31_1, lt, low⟩ := fields1 (k0 := 1) (k1 := 1) (k28 := 5) (by decide) (by decide) d.isLt a.isLt b.isLt (by decide) (Bool.toNat_lt sa) rfl hw
  refine ⟨?_, lt, low⟩
  rw [major1 f1_6]
  simp [decodeAlu, bits_of b7_7, bits_of b14_7, bits_of b21_7, f28_3, bitOf_of t31_1]

theorem srl (sa : Bool) (b : BitVec 7) (a : BitVec 7) (d : BitVec 7) : Statement (.srl sa b a d) := by
  refine word rfl (fun wf w hw => ?_)
  obtain ⟨b7_7, b14_7, b21_7, f1_6, f28_3, t31_1, lt, low⟩ := fields1 (k0 := 1) (k1 := 1) (k28 := 6) (by decide) (by decide) d.isLt a.isLt b.isLt (by decide) (Bool.toNat_lt sa) rfl hw
  refine ⟨?_, lt, low⟩
  rw [major1 f1_6]
  simp [decodeAlu, bits_of b7_7, bits_of b14_7, bits_of b21_7, f28_3, bitOf_of t31_1]

theorem sra (sa : Bool) (b : BitVec 7) (a : BitVec 7) (d : BitVec 7) : Statement (.sra sa b a d) := by
  refine word rfl (fun wf w hw => ?_)
  obtain ⟨b7_7, b14_7, b21_7, f1_6, f28_3, t31_1, lt, low⟩ := fields1 (k0 := 1) (k1 := 1) (k28 := 7) (by decide) (by decide) d.isLt a.isLt b.isLt (by decide) (Bool.toNat_lt sa) rfl hw
  refine ⟨?_, lt, low⟩
  rw [major1 f1_6]
  simp [decodeAlu, bits_of b7_7, bits_of b14_7, bits_of b21_7, f28_3, bitOf_of t31_1]

theorem addw (sa : Bool) (b : BitVec 7) (a : BitVec 7) (d : BitVec 7) : Statement (.addw sa b a d) := by
  refine word rfl (fun wf w hw => ?_)
  obtain ⟨b7_7, b14_7, b21_7, f1_6, f28_3, t31_1, lt, low⟩ := fields1 (k0 := 1) (k1 := 2) (k28 := 0) (by decide) (by decide) d.isLt a.isLt b.isLt (by decide) (Bool.toNat_lt sa) rfl hw
  refine ⟨?_, lt, low⟩
  rw [major2 f1_6]
  simp [decodeAluw, bits_of b7_7, bits_of b14_7, bits_of b21_7, f28_3, bitOf_of t31_1]

theorem subw (sa : Bool) (b : BitVec 7) (a : BitVec 7) (d : BitVec 7) : Statement (.subw sa b a d) := by
  refine word rfl (fun wf w hw => ?_)
  obtain ⟨b7_7, b14_7, b21_7, f1_6, f28_3, t31_1, lt, low⟩ := fields1 (k0 := 1) (k1 := 2) (k28 := 1) (by decide) (by decide) d.isLt a.isLt b.isLt (by decide) (Bool.toNat_lt sa) rfl hw
  refine ⟨?_, lt, low⟩
  rw [major2 f1_6]
  simp [decodeAluw, bits_of b7_7, bits_of b14_7, bits_of b21_7, f28_3, bitOf_of t31_1]

theorem sllw (sa : Bool) (b : BitVec 7) (a : BitVec 7) (d : BitVec 7) : Statement (.sllw sa b a d) := by
  refine word rfl (fun wf w hw => ?_)
  obtain ⟨b7_7, b14_7, b21_7, f1_6, f28_3, t31_1, lt, low⟩ := fields1 (k0 := 1) (k1 := 2) (k28 := 2) (by decide) (by decide) d.isLt a.isLt b.isLt (by decide) (Bool.toNat_lt sa) rfl hw
  refine ⟨?_, lt, low⟩
  rw [major2 f1_6]
  simp [decodeAluw, bits_of b7_7, bits_of b14_7, bits_of b21_7, f28_3, bitOf_of t31_1]

theorem srlw (sa : Bool) (b : BitVec 7) (a : BitVec 7) (d : BitVec 7) : Statement (.srlw sa b a d) := by
  refine word rfl (fun wf w hw => ?_)
  obtain ⟨b7_7, b14_7, b21_7, f1_6, f28_3, t31_1, lt, low⟩ := fields1 (k0 := 1) (k1 := 2) (k28 := 3) (by decide) (by decide) d.isLt a.isLt b.isLt (by decide) (Bool.toNat_lt sa) rfl hw
  refine ⟨?_, lt, low⟩
  rw [major2 f1_6]
  simp [decodeAluw, bits_of b7_7, bits_of b14_7, bits_of b21_7, f28_3, bitOf_of t31_1]

theorem sraw (sa : Bool) (b : BitVec 7) (a : BitVec 7) (d : BitVec 7) : Statement (.sraw sa b a d) := by
  refine word rfl (fun wf w hw => ?_)
  obtain ⟨b7_7, b14_7, b21_7, f1_6, f28_3, t31_1, lt, low⟩ := fields1 (k0 := 1) (k1 := 2) (k28 := 4) (by decide) (by decide) d.isLt a.isLt b.isLt (by decide) (Bool.toNat_lt sa) rfl hw
  refine ⟨?_, lt, low⟩
  rw [major2 f1_6]
  simp [decodeAluw, bits_of b7_7, bits_of b14_7, bits_of b21_7, f28_3, bitOf_of t31_1]

theorem slt (sa : Bool) (b : BitVec 7) (a : BitVec 7) (d : BitVec 7) : Statement (.slt sa b a d) := by
  refine word rfl (fun wf w hw => ?_)
  obtain ⟨b7_7, b14_7, b21_7, f1_6, f28_3, t31_1, lt, low⟩ := fields1 (k0 := 1) (k1 := 2) (k28 := 5) (by decide) (by decide) d.isLt a.isLt b.isLt (by decide) (Bool.toNat_lt sa) rfl hw
  refine ⟨?_, lt, low⟩
  rw [major2 f1_6]
  simp [decodeAluw, bits_of b7_7, bits_of b14_7, bits_of b21_7, f28_3, bitOf_of t31_1]

theorem sltu (sa : Bool) (b : BitVec 7) (a : BitVec 7) (d : BitVec 7) : Statement (.sltu sa b a d) := by
  refine word rfl (fun wf w hw => ?_)
  obtain ⟨b7_7, b14_7, b21_7, f1_6, f28_3, t31_1, lt, low⟩ := fields1 (k0 := 1) (k1 := 2) (k28 := 6) (by decide) (by decide) d.isLt a.isLt b.isLt (by decide) (Bool.toNat_lt sa) rfl hw
  refine ⟨?_, lt, low⟩
  rw [major2 f1_6]
  simp [decodeAluw, bits_of b7_7, bits_of b14_7, bits_of b21_7, f28_3, bitOf_of t31_1]

theorem andn (sa : Bool) (b : BitVec 7) (a : BitVec 7) (d : BitVec 7) : Statement (.andn sa b a d) := by
  refine word rfl (fun wf w hw => ?_)
  obtain ⟨b7_7, b14_7, b21_7, f1_6, f28_3, t31_1, lt, low⟩ := fields1 (k0 := 1) (k1 := 2) (k28 := 7) (by decide) (by decide) d.isLt a.isLt b.isLt (by decide) (Bool.toNat_lt sa) rfl hw
  refine ⟨?_, lt, low⟩
  rw [major2 f1_6]
  simp [decodeAluw, bits_of b7_7, bits_of b14_7, bits_of b21_7, f28_3, bitOf_of t31_1]

theorem min (sa : Bool) (b : BitVec 7) (a : BitVec 7) (d : BitVec 7) : Statement (.min sa b a d) := by
  refine word rfl (fun wf w hw => ?_)
  obtain ⟨b7_7, b14_7, b21_7, f1_6, f28_3, t31_1, lt, low⟩ := fields1 (k0 := 1) (k1 := 3) (k28 := 0) (by decide) (by decide) d.isLt a.isLt b.isLt (by decide) (Bool.toNat_lt sa) rfl hw
  refine ⟨?_, lt, low⟩
  rw [major3 f1_6]
  simp [decodeAlux, bits_of b7_7, bits_of b14_7, bits_of b21_7, f28_3, bitOf_of t31_1]

theorem max (sa : Bool) (b : BitVec 7) (a : BitVec 7) (d : BitVec 7) : Statement (.max sa b a d) := by
  refine word rfl (fun wf w hw => ?_)
  obtain ⟨b7_7, b14_7, b21_7, f1_6, f28_3, t31_1, lt, low⟩ := fields1 (k0 := 1) (k1 := 3) (k28 := 1) (by decide) (by decide) d.isLt a.isLt b.isLt (by decide) (Bool.toNat_lt sa) rfl hw
  refine ⟨?_, lt, low⟩
  rw [major3 f1_6]
  simp [decodeAlux, bits_of b7_7, bits_of b14_7, bits_of b21_7, f28_3, bitOf_of t31_1]

theorem minu (sa : Bool) (b : BitVec 7) (a : BitVec 7) (d : BitVec 7) : Statement (.minu sa b a d) := by
  refine word rfl (fun wf w hw => ?_)
  obtain ⟨b7_7, b14_7, b21_7, f1_6, f28_3, t31_1, lt, low⟩ := fields1 (k0 := 1) (k1 := 3) (k28 := 2) (by decide) (by decide) d.isLt a.isLt b.isLt (by decide) (Bool.toNat_lt sa) rfl hw
  refine ⟨?_, lt, low⟩
  rw [major3 f1_6]
  simp [decodeAlux, bits_of b7_7, bits_of b14_7, bits_of b21_7, f28_3, bitOf_of t31_1]

theorem maxu (sa : Bool) (b : BitVec 7) (a : BitVec 7) (d : BitVec 7) : Statement (.maxu sa b a d) := by
  refine word rfl (fun wf w hw => ?_)
  obtain ⟨b7_7, b14_7, b21_7, f1_6, f28_3, t31_1, lt, low⟩ := fields1 (k0 := 1) (k1 := 3) (k28 := 3) (by decide) (by decide) d.isLt a.isLt b.isLt (by decide) (Bool.toNat_lt sa) rfl hw
  refine ⟨?_, lt, low⟩
  rw [major3 f1_6]
  simp [decodeAlux, bits_of b7_7, bits_of b14_7, bits_of b21_7, f28_3, bitOf_of t31_1]

theorem clz (sa : Bool) (a : BitVec 7) (d : BitVec 7) : Statement (.clz sa a d) := by
  refine word rfl (fun wf w hw => ?_)
  obtain ⟨b7_7, b14_7, f1_6, f21_7, f28_3, t31_1, lt, low⟩ := fields2 (k0 := 1) (k1 := 3) (k21 := 0) (k28 := 4) (by decide) (by decide) d.isLt a.isLt (by decide) (by decide) (Bool.toNat_lt sa) rfl hw
  refine ⟨?_, lt, low⟩
  rw [major3 f1_6]
  simp [decodeAlux, bits_of b7_7, bits_of b14_7, f21_7, f28_3, bitOf_of t31_1]

theorem ctz (sa : Bool) (a : BitVec 7) (d : BitVec 7) : Statement (.ctz sa a d) := by
  refine word rfl (fun wf w hw => ?_)
  obtain ⟨b7_7, b14_7, f1_6, f21_7, f28_3, t31_1, lt, low⟩ := fields2 (k0 := 1) (k1 := 3) (k21 := 0) (k28 := 5) (by decide) (by decide) d.isLt a.isLt (by decide) (by decide) (Bool.toNat_lt sa) rfl hw
  refine ⟨?_, lt, low⟩
  rw [major3 f1_6]
  simp [decodeAlux, bits_of b7_7, bits_of b14_7, f21_7, f28_3, bitOf_of t31_1]

theorem popc (sa : Bool) (a : BitVec 7) (d : BitVec 7) : Statement (.popc sa a d) := by
  refine word rfl (fun wf w hw => ?_)
  obtain ⟨b7_7, b14_7, f1_6, f21_7, f28_3, t31_1, lt, low⟩ := fields2 (k0 := 1) (k1 := 3) (k21 := 0) (k28 := 6) (by decide) (by decide) d.isLt a.isLt (by decide) (by decide) (Bool.toNat_lt sa) rfl hw
  refine ⟨?_, lt, low⟩
  rw [major3 f1_6]
  simp [decodeAlux, bits_of b7_7, bits_of b14_7, f21_7, f28_3, bitOf_of t31_1]

theorem brev (sa : Bool) (a : BitVec 7) (d : BitVec 7) : Statement (.brev sa a d) := by
  refine word rfl (fun wf w hw => ?_)
  obtain ⟨b7_7, b14_7, f1_6, f21_7, f28_3, t31_1, lt, low⟩ := fields2 (k0 := 1) (k1 := 3) (k21 := 0) (k28 := 7) (by decide) (by decide) d.isLt a.isLt (by decide) (by decide) (Bool.toNat_lt sa) rfl hw
  refine ⟨?_, lt, low⟩
  rw [major3 f1_6]
  simp [decodeAlux, bits_of b7_7, bits_of b14_7, f21_7, f28_3, bitOf_of t31_1]

theorem mul (sa : Bool) (b : BitVec 7) (a : BitVec 7) (d : BitVec 7) : Statement (.mul sa b a d) := by
  refine word rfl (fun wf w hw => ?_)
  obtain ⟨b7_7, b14_7, b21_7, f1_6, f28_3, t31_1, lt, low⟩ := fields1 (k0 := 1) (k1 := 4) (k28 := 0) (by decide) (by decide) d.isLt a.isLt b.isLt (by decide) (Bool.toNat_lt sa) rfl hw
  refine ⟨?_, lt, low⟩
  rw [major4 f1_6]
  simp [decodeMulx, bits_of b7_7, bits_of b14_7, bits_of b21_7, f28_3, bitOf_of t31_1]

theorem mulh (sa : Bool) (b : BitVec 7) (a : BitVec 7) (d : BitVec 7) : Statement (.mulh sa b a d) := by
  refine word rfl (fun wf w hw => ?_)
  obtain ⟨b7_7, b14_7, b21_7, f1_6, f28_3, t31_1, lt, low⟩ := fields1 (k0 := 1) (k1 := 4) (k28 := 1) (by decide) (by decide) d.isLt a.isLt b.isLt (by decide) (Bool.toNat_lt sa) rfl hw
  refine ⟨?_, lt, low⟩
  rw [major4 f1_6]
  simp [decodeMulx, bits_of b7_7, bits_of b14_7, bits_of b21_7, f28_3, bitOf_of t31_1]

theorem mulhu (sa : Bool) (b : BitVec 7) (a : BitVec 7) (d : BitVec 7) : Statement (.mulhu sa b a d) := by
  refine word rfl (fun wf w hw => ?_)
  obtain ⟨b7_7, b14_7, b21_7, f1_6, f28_3, t31_1, lt, low⟩ := fields1 (k0 := 1) (k1 := 4) (k28 := 2) (by decide) (by decide) d.isLt a.isLt b.isLt (by decide) (Bool.toNat_lt sa) rfl hw
  refine ⟨?_, lt, low⟩
  rw [major4 f1_6]
  simp [decodeMulx, bits_of b7_7, bits_of b14_7, bits_of b21_7, f28_3, bitOf_of t31_1]

theorem mulw (sa : Bool) (b : BitVec 7) (a : BitVec 7) (d : BitVec 7) : Statement (.mulw sa b a d) := by
  refine word rfl (fun wf w hw => ?_)
  obtain ⟨b7_7, b14_7, b21_7, f1_6, f28_3, t31_1, lt, low⟩ := fields1 (k0 := 1) (k1 := 4) (k28 := 3) (by decide) (by decide) d.isLt a.isLt b.isLt (by decide) (Bool.toNat_lt sa) rfl hw
  refine ⟨?_, lt, low⟩
  rw [major4 f1_6]
  simp [decodeMulx, bits_of b7_7, bits_of b14_7, bits_of b21_7, f28_3, bitOf_of t31_1]

theorem sexb (sa : Bool) (a : BitVec 7) (d : BitVec 7) : Statement (.sexb sa a d) := by
  refine word rfl (fun wf w hw => ?_)
  obtain ⟨b7_7, b14_7, f1_6, f21_7, f28_3, t31_1, lt, low⟩ := fields2 (k0 := 1) (k1 := 4) (k21 := 0) (k28 := 4) (by decide) (by decide) d.isLt a.isLt (by decide) (by decide) (Bool.toNat_lt sa) rfl hw
  refine ⟨?_, lt, low⟩
  rw [major4 f1_6]
  simp [decodeMulx, bits_of b7_7, bits_of b14_7, f21_7, f28_3, bitOf_of t31_1]

theorem sexh (sa : Bool) (a : BitVec 7) (d : BitVec 7) : Statement (.sexh sa a d) := by
  refine word rfl (fun wf w hw => ?_)
  obtain ⟨b7_7, b14_7, f1_6, f21_7, f28_3, t31_1, lt, low⟩ := fields2 (k0 := 1) (k1 := 4) (k21 := 0) (k28 := 5) (by decide) (by decide) d.isLt a.isLt (by decide) (by decide) (Bool.toNat_lt sa) rfl hw
  refine ⟨?_, lt, low⟩
  rw [major4 f1_6]
  simp [decodeMulx, bits_of b7_7, bits_of b14_7, f21_7, f28_3, bitOf_of t31_1]

theorem sexw (sa : Bool) (a : BitVec 7) (d : BitVec 7) : Statement (.sexw sa a d) := by
  refine word rfl (fun wf w hw => ?_)
  obtain ⟨b7_7, b14_7, f1_6, f21_7, f28_3, t31_1, lt, low⟩ := fields2 (k0 := 1) (k1 := 4) (k21 := 0) (k28 := 6) (by decide) (by decide) d.isLt a.isLt (by decide) (by decide) (Bool.toNat_lt sa) rfl hw
  refine ⟨?_, lt, low⟩
  rw [major4 f1_6]
  simp [decodeMulx, bits_of b7_7, bits_of b14_7, f21_7, f28_3, bitOf_of t31_1]

theorem zexw (sa : Bool) (a : BitVec 7) (d : BitVec 7) : Statement (.zexw sa a d) := by
  refine word rfl (fun wf w hw => ?_)
  obtain ⟨b7_7, b14_7, f1_6, f21_7, f28_3, t31_1, lt, low⟩ := fields2 (k0 := 1) (k1 := 4) (k21 := 0) (k28 := 7) (by decide) (by decide) d.isLt a.isLt (by decide) (by decide) (Bool.toNat_lt sa) rfl hw
  refine ⟨?_, lt, low⟩
  rw [major4 f1_6]
  simp [decodeMulx, bits_of b7_7, bits_of b14_7, f21_7, f28_3, bitOf_of t31_1]

theorem addi (sa : Bool) (imm : BitVec 10) (a : BitVec 7) (d : BitVec 7) : Statement (.addi sa imm a d) := by
  refine word rfl (fun wf w hw => ?_)
  obtain ⟨b7_7, b14_7, b21_10, f1_6, t31_1, lt, low⟩ := fields3 (k0 := 1) (k1 := 5) (by decide) (by decide) d.isLt a.isLt imm.isLt (Bool.toNat_lt sa) rfl hw
  refine ⟨?_, lt, low⟩
  rw [major5 f1_6]
  simp [bits_of b7_7, bits_of b14_7, bits_of b21_10, bitOf_of t31_1]

theorem andi (sa : Bool) (imm : BitVec 10) (a : BitVec 7) (d : BitVec 7) : Statement (.andi sa imm a d) := by
  refine word rfl (fun wf w hw => ?_)
  obtain ⟨b7_7, b14_7, b21_10, f1_6, t31_1, lt, low⟩ := fields3 (k0 := 1) (k1 := 6) (by decide) (by decide) d.isLt a.isLt imm.isLt (Bool.toNat_lt sa) rfl hw
  refine ⟨?_, lt, low⟩
  rw [major6 f1_6]
  simp [bits_of b7_7, bits_of b14_7, bits_of b21_10, bitOf_of t31_1]

theorem ori (sa : Bool) (imm : BitVec 10) (a : BitVec 7) (d : BitVec 7) : Statement (.ori sa imm a d) := by
  refine word rfl (fun wf w hw => ?_)
  obtain ⟨b7_7, b14_7, b21_10, f1_6, t31_1, lt, low⟩ := fields3 (k0 := 1) (k1 := 7) (by decide) (by decide) d.isLt a.isLt imm.isLt (Bool.toNat_lt sa) rfl hw
  refine ⟨?_, lt, low⟩
  rw [major7 f1_6]
  simp [bits_of b7_7, bits_of b14_7, bits_of b21_10, bitOf_of t31_1]

theorem xori (sa : Bool) (imm : BitVec 10) (a : BitVec 7) (d : BitVec 7) : Statement (.xori sa imm a d) := by
  refine word rfl (fun wf w hw => ?_)
  obtain ⟨b7_7, b14_7, b21_10, f1_6, t31_1, lt, low⟩ := fields3 (k0 := 1) (k1 := 8) (by decide) (by decide) d.isLt a.isLt imm.isLt (Bool.toNat_lt sa) rfl hw
  refine ⟨?_, lt, low⟩
  rw [major8 f1_6]
  simp [bits_of b7_7, bits_of b14_7, bits_of b21_10, bitOf_of t31_1]

theorem slti (sa : Bool) (imm : BitVec 10) (a : BitVec 7) (d : BitVec 7) : Statement (.slti sa imm a d) := by
  refine word rfl (fun wf w hw => ?_)
  obtain ⟨b7_7, b14_7, b21_10, f1_6, t31_1, lt, low⟩ := fields3 (k0 := 1) (k1 := 10) (by decide) (by decide) d.isLt a.isLt imm.isLt (Bool.toNat_lt sa) rfl hw
  refine ⟨?_, lt, low⟩
  rw [major10 f1_6]
  simp [bits_of b7_7, bits_of b14_7, bits_of b21_10, bitOf_of t31_1]

theorem sltiu (sa : Bool) (imm : BitVec 10) (a : BitVec 7) (d : BitVec 7) : Statement (.sltiu sa imm a d) := by
  refine word rfl (fun wf w hw => ?_)
  obtain ⟨b7_7, b14_7, b21_10, f1_6, t31_1, lt, low⟩ := fields3 (k0 := 1) (k1 := 11) (by decide) (by decide) d.isLt a.isLt imm.isLt (Bool.toNat_lt sa) rfl hw
  refine ⟨?_, lt, low⟩
  rw [major11 f1_6]
  simp [bits_of b7_7, bits_of b14_7, bits_of b21_10, bitOf_of t31_1]

theorem slli (sa : Bool) (sh : BitVec 6) (a : BitVec 7) (d : BitVec 7) : Statement (.slli sa sh a d) := by
  refine word rfl (fun wf w hw => ?_)
  obtain ⟨b7_7, b14_7, b21_6, f1_6, f27_1, f28_3, t31_1, lt, low⟩ := fields4 (k0 := 1) (k1 := 9) (k27 := 0) (k28 := 0) (by decide) (by decide) d.isLt a.isLt sh.isLt (by decide) (by decide) (Bool.toNat_lt sa) rfl hw
  refine ⟨?_, lt, low⟩
  rw [major9 f1_6]
  simp [decodeShi, bits_of b7_7, bits_of b14_7, bits_of b21_6, f27_1, f28_3, bitOf_of t31_1]

theorem srli (sa : Bool) (sh : BitVec 6) (a : BitVec 7) (d : BitVec 7) : Statement (.srli sa sh a d) := by
  refine word rfl (fun wf w hw => ?_)
  obtain ⟨b7_7, b14_7, b21_6, f1_6, f27_1, f28_3, t31_1, lt, low⟩ := fields4 (k0 := 1) (k1 := 9) (k27 := 0) (k28 := 1) (by decide) (by decide) d.isLt a.isLt sh.isLt (by decide) (by decide) (Bool.toNat_lt sa) rfl hw
  refine ⟨?_, lt, low⟩
  rw [major9 f1_6]
  simp [decodeShi, bits_of b7_7, bits_of b14_7, bits_of b21_6, f27_1, f28_3, bitOf_of t31_1]

theorem srai (sa : Bool) (sh : BitVec 6) (a : BitVec 7) (d : BitVec 7) : Statement (.srai sa sh a d) := by
  refine word rfl (fun wf w hw => ?_)
  obtain ⟨b7_7, b14_7, b21_6, f1_6, f27_1, f28_3, t31_1, lt, low⟩ := fields4 (k0 := 1) (k1 := 9) (k27 := 0) (k28 := 2) (by decide) (by decide) d.isLt a.isLt sh.isLt (by decide) (by decide) (Bool.toNat_lt sa) rfl hw
  refine ⟨?_, lt, low⟩
  rw [major9 f1_6]
  simp [decodeShi, bits_of b7_7, bits_of b14_7, bits_of b21_6, f27_1, f28_3, bitOf_of t31_1]

theorem sllwi (sa : Bool) (sh : BitVec 5) (a : BitVec 7) (d : BitVec 7) : Statement (.sllwi sa sh a d) := by
  refine word rfl (fun wf w hw => ?_)
  obtain ⟨b7_7, b14_7, b21_5, f1_6, f26_2, f28_3, t31_1, lt, low⟩ := fields5 (k0 := 1) (k1 := 9) (k26 := 0) (k28 := 3) (by decide) (by decide) d.isLt a.isLt sh.isLt (by decide) (by decide) (Bool.toNat_lt sa) rfl hw
  refine ⟨?_, lt, low⟩
  rw [major9 f1_6]
  simp [decodeShi, bits_of b7_7, bits_of b14_7, bits_of b21_5, f26_2, f28_3, bitOf_of t31_1]

theorem srlwi (sa : Bool) (sh : BitVec 5) (a : BitVec 7) (d : BitVec 7) : Statement (.srlwi sa sh a d) := by
  refine word rfl (fun wf w hw => ?_)
  obtain ⟨b7_7, b14_7, b21_5, f1_6, f26_2, f28_3, t31_1, lt, low⟩ := fields5 (k0 := 1) (k1 := 9) (k26 := 0) (k28 := 4) (by decide) (by decide) d.isLt a.isLt sh.isLt (by decide) (by decide) (Bool.toNat_lt sa) rfl hw
  refine ⟨?_, lt, low⟩
  rw [major9 f1_6]
  simp [decodeShi, bits_of b7_7, bits_of b14_7, bits_of b21_5, f26_2, f28_3, bitOf_of t31_1]

theorem srawi (sa : Bool) (sh : BitVec 5) (a : BitVec 7) (d : BitVec 7) : Statement (.srawi sa sh a d) := by
  refine word rfl (fun wf w hw => ?_)
  obtain ⟨b7_7, b14_7, b21_5, f1_6, f26_2, f28_3, t31_1, lt, low⟩ := fields5 (k0 := 1) (k1 := 9) (k26 := 0) (k28 := 5) (by decide) (by decide) d.isLt a.isLt sh.isLt (by decide) (by decide) (Bool.toNat_lt sa) rfl hw
  refine ⟨?_, lt, low⟩
  rw [major9 f1_6]
  simp [decodeShi, bits_of b7_7, bits_of b14_7, bits_of b21_5, f26_2, f28_3, bitOf_of t31_1]

theorem lui (imm : BitVec 18) (d : BitVec 7) : Statement (.lui imm d) := by
  refine word rfl (fun wf w hw => ?_)
  obtain ⟨b7_7, b14_18, f1_6, lt, low⟩ := fields6 (k0 := 1) (k1 := 12) (by decide) (by decide) d.isLt imm.isLt rfl hw
  refine ⟨?_, lt, low⟩
  rw [major12 f1_6]
  simp [bits_of b7_7, bits_of b14_18]

theorem auipc (imm : BitVec 18) (d : BitVec 7) : Statement (.auipc imm d) := by
  refine word rfl (fun wf w hw => ?_)
  obtain ⟨b7_7, b14_18, f1_6, lt, low⟩ := fields6 (k0 := 1) (k1 := 13) (by decide) (by decide) d.isLt imm.isLt rfl hw
  refine ⟨?_, lt, low⟩
  rw [major13 f1_6]
  simp [bits_of b7_7, bits_of b14_18]

theorem jal (imm : BitVec 18) (d : BitVec 7) : Statement (.jal imm d) := by
  refine word rfl (fun wf w hw => ?_)
  obtain ⟨b7_7, b14_18, f1_6, lt, low⟩ := fields6 (k0 := 1) (k1 := 14) (by decide) (by decide) d.isLt imm.isLt rfl hw
  refine ⟨?_, lt, low⟩
  rw [major14 f1_6]
  simp [bits_of b7_7, bits_of b14_18]

theorem jalr (sa : Bool) (imm : BitVec 10) (a : BitVec 7) (d : BitVec 7) : Statement (.jalr sa imm a d) := by
  refine word rfl (fun wf w hw => ?_)
  obtain ⟨b7_7, b14_7, b21_10, f1_6, t31_1, lt, low⟩ := fields3 (k0 := 1) (k1 := 15) (by decide) (by decide) d.isLt a.isLt imm.isLt (Bool.toNat_lt sa) rfl hw
  refine ⟨?_, lt, low⟩
  rw [major15 f1_6]
  simp [bits_of b7_7, bits_of b14_7, bits_of b21_10, bitOf_of t31_1]

theorem beq (off : BitVec 11) (a : BitVec 7) (b : BitVec 7) : Statement (.beq off a b) := by
  refine word rfl (fun wf w hw => ?_)
  obtain ⟨b7_7, b14_7, b21_11, f1_6, lt, low⟩ := fields7 (k0 := 1) (k1 := 16) (by decide) (by decide) b.isLt a.isLt off.isLt rfl hw
  refine ⟨?_, lt, low⟩
  rw [major16 f1_6]
  simp [bits_of b7_7, bits_of b14_7, bits_of b21_11]

theorem bne (off : BitVec 11) (a : BitVec 7) (b : BitVec 7) : Statement (.bne off a b) := by
  refine word rfl (fun wf w hw => ?_)
  obtain ⟨b7_7, b14_7, b21_11, f1_6, lt, low⟩ := fields7 (k0 := 1) (k1 := 17) (by decide) (by decide) b.isLt a.isLt off.isLt rfl hw
  refine ⟨?_, lt, low⟩
  rw [major17 f1_6]
  simp [bits_of b7_7, bits_of b14_7, bits_of b21_11]

theorem blt (off : BitVec 11) (a : BitVec 7) (b : BitVec 7) : Statement (.blt off a b) := by
  refine word rfl (fun wf w hw => ?_)
  obtain ⟨b7_7, b14_7, b21_11, f1_6, lt, low⟩ := fields7 (k0 := 1) (k1 := 18) (by decide) (by decide) b.isLt a.isLt off.isLt rfl hw
  refine ⟨?_, lt, low⟩
  rw [major18 f1_6]
  simp [bits_of b7_7, bits_of b14_7, bits_of b21_11]

theorem bge (off : BitVec 11) (a : BitVec 7) (b : BitVec 7) : Statement (.bge off a b) := by
  refine word rfl (fun wf w hw => ?_)
  obtain ⟨b7_7, b14_7, b21_11, f1_6, lt, low⟩ := fields7 (k0 := 1) (k1 := 19) (by decide) (by decide) b.isLt a.isLt off.isLt rfl hw
  refine ⟨?_, lt, low⟩
  rw [major19 f1_6]
  simp [bits_of b7_7, bits_of b14_7, bits_of b21_11]

theorem bltu (off : BitVec 11) (a : BitVec 7) (b : BitVec 7) : Statement (.bltu off a b) := by
  refine word rfl (fun wf w hw => ?_)
  obtain ⟨b7_7, b14_7, b21_11, f1_6, lt, low⟩ := fields7 (k0 := 1) (k1 := 20) (by decide) (by decide) b.isLt a.isLt off.isLt rfl hw
  refine ⟨?_, lt, low⟩
  rw [major20 f1_6]
  simp [bits_of b7_7, bits_of b14_7, bits_of b21_11]

theorem bgeu (off : BitVec 11) (a : BitVec 7) (b : BitVec 7) : Statement (.bgeu off a b) := by
  refine word rfl (fun wf w hw => ?_)
  obtain ⟨b7_7, b14_7, b21_11, f1_6, lt, low⟩ := fields7 (k0 := 1) (k1 := 21) (by decide) (by decide) b.isLt a.isLt off.isLt rfl hw
  refine ⟨?_, lt, low⟩
  rw [major21 f1_6]
  simp [bits_of b7_7, bits_of b14_7, bits_of b21_11]

theorem div (la : BitVec 4) (b : BitVec 7) (a : BitVec 7) (d : BitVec 7) : Statement (.div la b a d) := by
  refine word rfl (fun wf w hw => ?_)
  obtain ⟨b7_7, b14_7, b21_7, b28_4, f1_6, lt, low⟩ := fields8 (k0 := 1) (k1 := 22) (by decide) (by decide) d.isLt a.isLt b.isLt la.isLt rfl hw
  refine ⟨?_, lt, low⟩
  rw [major22 f1_6]
  simp [bits_of b7_7, bits_of b14_7, bits_of b21_7, bits_of b28_4]

theorem divu (la : BitVec 4) (b : BitVec 7) (a : BitVec 7) (d : BitVec 7) : Statement (.divu la b a d) := by
  refine word rfl (fun wf w hw => ?_)
  obtain ⟨b7_7, b14_7, b21_7, b28_4, f1_6, lt, low⟩ := fields8 (k0 := 1) (k1 := 23) (by decide) (by decide) d.isLt a.isLt b.isLt la.isLt rfl hw
  refine ⟨?_, lt, low⟩
  rw [major23 f1_6]
  simp [bits_of b7_7, bits_of b14_7, bits_of b21_7, bits_of b28_4]

theorem rem (la : BitVec 4) (b : BitVec 7) (a : BitVec 7) (d : BitVec 7) : Statement (.rem la b a d) := by
  refine word rfl (fun wf w hw => ?_)
  obtain ⟨b7_7, b14_7, b21_7, b28_4, f1_6, lt, low⟩ := fields8 (k0 := 1) (k1 := 24) (by decide) (by decide) d.isLt a.isLt b.isLt la.isLt rfl hw
  refine ⟨?_, lt, low⟩
  rw [major24 f1_6]
  simp [bits_of b7_7, bits_of b14_7, bits_of b21_7, bits_of b28_4]

theorem remu (la : BitVec 4) (b : BitVec 7) (a : BitVec 7) (d : BitVec 7) : Statement (.remu la b a d) := by
  refine word rfl (fun wf w hw => ?_)
  obtain ⟨b7_7, b14_7, b21_7, b28_4, f1_6, lt, low⟩ := fields8 (k0 := 1) (k1 := 25) (by decide) (by decide) d.isLt a.isLt b.isLt la.isLt rfl hw
  refine ⟨?_, lt, low⟩
  rw [major25 f1_6]
  simp [bits_of b7_7, bits_of b14_7, bits_of b21_7, bits_of b28_4]

theorem lb (la : BitVec 4) (sc : BitVec 2) (str : Bool) (a : BitVec 7) (d : BitVec 7) : Statement (.lb la sc str a d) := by
  refine word rfl (fun wf w hw => ?_)
  obtain ⟨b7_7, b14_7, b26_2, b28_4, f1_6, f21_4, t25_1, lt, low⟩ := fields9 (k0 := 1) (k1 := 26) (k21 := 0) (by decide) (by decide) d.isLt a.isLt (by decide) (Bool.toNat_lt str) sc.isLt la.isLt rfl hw
  refine ⟨?_, lt, low⟩
  rw [major26 f1_6]
  simp [decodeLoad, bits_of b7_7, bits_of b14_7, bits_of b26_2, bits_of b28_4, f21_4, bitOf_of t25_1]

theorem lbz (la : BitVec 4) (sc : BitVec 2) (str : Bool) (a : BitVec 7) (d : BitVec 7) : Statement (.lbz la sc str a d) := by
  refine word rfl (fun wf w hw => ?_)
  obtain ⟨b7_7, b14_7, b26_2, b28_4, f1_6, f21_4, t25_1, lt, low⟩ := fields9 (k0 := 1) (k1 := 26) (k21 := 1) (by decide) (by decide) d.isLt a.isLt (by decide) (Bool.toNat_lt str) sc.isLt la.isLt rfl hw
  refine ⟨?_, lt, low⟩
  rw [major26 f1_6]
  simp [decodeLoad, bits_of b7_7, bits_of b14_7, bits_of b26_2, bits_of b28_4, f21_4, bitOf_of t25_1]

theorem lh (la : BitVec 4) (sc : BitVec 2) (str : Bool) (a : BitVec 7) (d : BitVec 7) : Statement (.lh la sc str a d) := by
  refine word rfl (fun wf w hw => ?_)
  obtain ⟨b7_7, b14_7, b26_2, b28_4, f1_6, f21_4, t25_1, lt, low⟩ := fields9 (k0 := 1) (k1 := 26) (k21 := 2) (by decide) (by decide) d.isLt a.isLt (by decide) (Bool.toNat_lt str) sc.isLt la.isLt rfl hw
  refine ⟨?_, lt, low⟩
  rw [major26 f1_6]
  simp [decodeLoad, bits_of b7_7, bits_of b14_7, bits_of b26_2, bits_of b28_4, f21_4, bitOf_of t25_1]

theorem lhz (la : BitVec 4) (sc : BitVec 2) (str : Bool) (a : BitVec 7) (d : BitVec 7) : Statement (.lhz la sc str a d) := by
  refine word rfl (fun wf w hw => ?_)
  obtain ⟨b7_7, b14_7, b26_2, b28_4, f1_6, f21_4, t25_1, lt, low⟩ := fields9 (k0 := 1) (k1 := 26) (k21 := 3) (by decide) (by decide) d.isLt a.isLt (by decide) (Bool.toNat_lt str) sc.isLt la.isLt rfl hw
  refine ⟨?_, lt, low⟩
  rw [major26 f1_6]
  simp [decodeLoad, bits_of b7_7, bits_of b14_7, bits_of b26_2, bits_of b28_4, f21_4, bitOf_of t25_1]

theorem lw (la : BitVec 4) (sc : BitVec 2) (str : Bool) (a : BitVec 7) (d : BitVec 7) : Statement (.lw la sc str a d) := by
  refine word rfl (fun wf w hw => ?_)
  obtain ⟨b7_7, b14_7, b26_2, b28_4, f1_6, f21_4, t25_1, lt, low⟩ := fields9 (k0 := 1) (k1 := 26) (k21 := 4) (by decide) (by decide) d.isLt a.isLt (by decide) (Bool.toNat_lt str) sc.isLt la.isLt rfl hw
  refine ⟨?_, lt, low⟩
  rw [major26 f1_6]
  simp [decodeLoad, bits_of b7_7, bits_of b14_7, bits_of b26_2, bits_of b28_4, f21_4, bitOf_of t25_1]

theorem lwz (la : BitVec 4) (sc : BitVec 2) (str : Bool) (a : BitVec 7) (d : BitVec 7) : Statement (.lwz la sc str a d) := by
  refine word rfl (fun wf w hw => ?_)
  obtain ⟨b7_7, b14_7, b26_2, b28_4, f1_6, f21_4, t25_1, lt, low⟩ := fields9 (k0 := 1) (k1 := 26) (k21 := 5) (by decide) (by decide) d.isLt a.isLt (by decide) (Bool.toNat_lt str) sc.isLt la.isLt rfl hw
  refine ⟨?_, lt, low⟩
  rw [major26 f1_6]
  simp [decodeLoad, bits_of b7_7, bits_of b14_7, bits_of b26_2, bits_of b28_4, f21_4, bitOf_of t25_1]

theorem ld (la : BitVec 4) (sc : BitVec 2) (str : Bool) (a : BitVec 7) (d : BitVec 7) : Statement (.ld la sc str a d) := by
  refine word rfl (fun wf w hw => ?_)
  obtain ⟨b7_7, b14_7, b26_2, b28_4, f1_6, f21_4, t25_1, lt, low⟩ := fields9 (k0 := 1) (k1 := 26) (k21 := 6) (by decide) (by decide) d.isLt a.isLt (by decide) (Bool.toNat_lt str) sc.isLt la.isLt rfl hw
  refine ⟨?_, lt, low⟩
  rw [major26 f1_6]
  simp [decodeLoad, bits_of b7_7, bits_of b14_7, bits_of b26_2, bits_of b28_4, f21_4, bitOf_of t25_1]

theorem lv (la : BitVec 4) (sc : BitVec 2) (str : Bool) (a : BitVec 7) (d : BitVec 7) : Statement (.lv la sc str a d) := by
  refine word rfl (fun wf w hw => ?_)
  obtain ⟨b7_7, b14_7, b26_2, b28_4, f1_6, f21_4, t25_1, lt, low⟩ := fields9 (k0 := 1) (k1 := 26) (k21 := 7) (by decide) (by decide) d.isLt a.isLt (by decide) (Bool.toNat_lt str) sc.isLt la.isLt rfl hw
  refine ⟨?_, lt, low⟩
  rw [major26 f1_6]
  simp [decodeLoad, bits_of b7_7, bits_of b14_7, bits_of b26_2, bits_of b28_4, f21_4, bitOf_of t25_1]

theorem lvS32 (la : BitVec 4) (sc : BitVec 2) (str : Bool) (a : BitVec 7) (d : BitVec 7) : Statement (.lvS32 la sc str a d) := by
  refine word rfl (fun wf w hw => ?_)
  obtain ⟨b7_7, b14_7, b26_2, b28_4, f1_6, f21_4, t25_1, lt, low⟩ := fields9 (k0 := 1) (k1 := 26) (k21 := 8) (by decide) (by decide) d.isLt a.isLt (by decide) (Bool.toNat_lt str) sc.isLt la.isLt rfl hw
  refine ⟨?_, lt, low⟩
  rw [major26 f1_6]
  simp [decodeLoad, bits_of b7_7, bits_of b14_7, bits_of b26_2, bits_of b28_4, f21_4, bitOf_of t25_1]

theorem lvZ32 (la : BitVec 4) (sc : BitVec 2) (str : Bool) (a : BitVec 7) (d : BitVec 7) : Statement (.lvZ32 la sc str a d) := by
  refine word rfl (fun wf w hw => ?_)
  obtain ⟨b7_7, b14_7, b26_2, b28_4, f1_6, f21_4, t25_1, lt, low⟩ := fields9 (k0 := 1) (k1 := 26) (k21 := 9) (by decide) (by decide) d.isLt a.isLt (by decide) (Bool.toNat_lt str) sc.isLt la.isLt rfl hw
  refine ⟨?_, lt, low⟩
  rw [major26 f1_6]
  simp [decodeLoad, bits_of b7_7, bits_of b14_7, bits_of b26_2, bits_of b28_4, f21_4, bitOf_of t25_1]

theorem lvF32 (la : BitVec 4) (sc : BitVec 2) (str : Bool) (a : BitVec 7) (d : BitVec 7) : Statement (.lvF32 la sc str a d) := by
  refine word rfl (fun wf w hw => ?_)
  obtain ⟨b7_7, b14_7, b26_2, b28_4, f1_6, f21_4, t25_1, lt, low⟩ := fields9 (k0 := 1) (k1 := 26) (k21 := 10) (by decide) (by decide) d.isLt a.isLt (by decide) (Bool.toNat_lt str) sc.isLt la.isLt rfl hw
  refine ⟨?_, lt, low⟩
  rw [major26 f1_6]
  simp [decodeLoad, bits_of b7_7, bits_of b14_7, bits_of b26_2, bits_of b28_4, f21_4, bitOf_of t25_1]

theorem lvBf16 (la : BitVec 4) (sc : BitVec 2) (str : Bool) (a : BitVec 7) (d : BitVec 7) : Statement (.lvBf16 la sc str a d) := by
  refine word rfl (fun wf w hw => ?_)
  obtain ⟨b7_7, b14_7, b26_2, b28_4, f1_6, f21_4, t25_1, lt, low⟩ := fields9 (k0 := 1) (k1 := 26) (k21 := 11) (by decide) (by decide) d.isLt a.isLt (by decide) (Bool.toNat_lt str) sc.isLt la.isLt rfl hw
  refine ⟨?_, lt, low⟩
  rw [major26 f1_6]
  simp [decodeLoad, bits_of b7_7, bits_of b14_7, bits_of b26_2, bits_of b28_4, f21_4, bitOf_of t25_1]

theorem lvF16 (la : BitVec 4) (sc : BitVec 2) (str : Bool) (a : BitVec 7) (d : BitVec 7) : Statement (.lvF16 la sc str a d) := by
  refine word rfl (fun wf w hw => ?_)
  obtain ⟨b7_7, b14_7, b26_2, b28_4, f1_6, f21_4, t25_1, lt, low⟩ := fields9 (k0 := 1) (k1 := 26) (k21 := 12) (by decide) (by decide) d.isLt a.isLt (by decide) (Bool.toNat_lt str) sc.isLt la.isLt rfl hw
  refine ⟨?_, lt, low⟩
  rw [major26 f1_6]
  simp [decodeLoad, bits_of b7_7, bits_of b14_7, bits_of b26_2, bits_of b28_4, f21_4, bitOf_of t25_1]

theorem lvS8 (la : BitVec 4) (sc : BitVec 2) (str : Bool) (a : BitVec 7) (d : BitVec 7) : Statement (.lvS8 la sc str a d) := by
  refine word rfl (fun wf w hw => ?_)
  obtain ⟨b7_7, b14_7, b26_2, b28_4, f1_6, f21_4, t25_1, lt, low⟩ := fields9 (k0 := 1) (k1 := 26) (k21 := 13) (by decide) (by decide) d.isLt a.isLt (by decide) (Bool.toNat_lt str) sc.isLt la.isLt rfl hw
  refine ⟨?_, lt, low⟩
  rw [major26 f1_6]
  simp [decodeLoad, bits_of b7_7, bits_of b14_7, bits_of b26_2, bits_of b28_4, f21_4, bitOf_of t25_1]

theorem lvZ8 (la : BitVec 4) (sc : BitVec 2) (str : Bool) (a : BitVec 7) (d : BitVec 7) : Statement (.lvZ8 la sc str a d) := by
  refine word rfl (fun wf w hw => ?_)
  obtain ⟨b7_7, b14_7, b26_2, b28_4, f1_6, f21_4, t25_1, lt, low⟩ := fields9 (k0 := 1) (k1 := 26) (k21 := 14) (by decide) (by decide) d.isLt a.isLt (by decide) (Bool.toNat_lt str) sc.isLt la.isLt rfl hw
  refine ⟨?_, lt, low⟩
  rw [major26 f1_6]
  simp [decodeLoad, bits_of b7_7, bits_of b14_7, bits_of b26_2, bits_of b28_4, f21_4, bitOf_of t25_1]

theorem lvSp32 (la : BitVec 4) (sc : BitVec 2) (str : Bool) (a : BitVec 7) (d : BitVec 7) : Statement (.lvSp32 la sc str a d) := by
  refine word rfl (fun wf w hw => ?_)
  obtain ⟨b7_7, b14_7, b26_2, b28_4, f1_6, f21_4, t25_1, lt, low⟩ := fields9 (k0 := 1) (k1 := 26) (k21 := 15) (by decide) (by decide) d.isLt a.isLt (by decide) (Bool.toNat_lt str) sc.isLt la.isLt rfl hw
  refine ⟨?_, lt, low⟩
  rw [major26 f1_6]
  simp [decodeLoad, bits_of b7_7, bits_of b14_7, bits_of b26_2, bits_of b28_4, f21_4, bitOf_of t25_1]

theorem sb (sc : BitVec 2) (str : Bool) (a : BitVec 7) (d : BitVec 7) : Statement (.sb sc str a d) := by
  refine word rfl (fun wf w hw => ?_)
  obtain ⟨b7_7, b14_7, b26_2, f1_6, f21_4, f28_4, t25_1, lt, low⟩ := fields10 (k0 := 1) (k1 := 27) (k21 := 0) (k28 := 0) (by decide) (by decide) d.isLt a.isLt (by decide) (Bool.toNat_lt str) sc.isLt (by decide) rfl hw
  refine ⟨?_, lt, low⟩
  rw [major27 f1_6]
  simp [decodeStore, bits_of b7_7, bits_of b14_7, bits_of b26_2, f21_4, f28_4, bitOf_of t25_1]

theorem sh (sc : BitVec 2) (str : Bool) (a : BitVec 7) (d : BitVec 7) : Statement (.sh sc str a d) := by
  refine word rfl (fun wf w hw => ?_)
  obtain ⟨b7_7, b14_7, b26_2, f1_6, f21_4, f28_4, t25_1, lt, low⟩ := fields10 (k0 := 1) (k1 := 27) (k21 := 1) (k28 := 0) (by decide) (by decide) d.isLt a.isLt (by decide) (Bool.toNat_lt str) sc.isLt (by decide) rfl hw
  refine ⟨?_, lt, low⟩
  rw [major27 f1_6]
  simp [decodeStore, bits_of b7_7, bits_of b14_7, bits_of b26_2, f21_4, f28_4, bitOf_of t25_1]

theorem sw (sc : BitVec 2) (str : Bool) (a : BitVec 7) (d : BitVec 7) : Statement (.sw sc str a d) := by
  refine word rfl (fun wf w hw => ?_)
  obtain ⟨b7_7, b14_7, b26_2, f1_6, f21_4, f28_4, t25_1, lt, low⟩ := fields10 (k0 := 1) (k1 := 27) (k21 := 2) (k28 := 0) (by decide) (by decide) d.isLt a.isLt (by decide) (Bool.toNat_lt str) sc.isLt (by decide) rfl hw
  refine ⟨?_, lt, low⟩
  rw [major27 f1_6]
  simp [decodeStore, bits_of b7_7, bits_of b14_7, bits_of b26_2, f21_4, f28_4, bitOf_of t25_1]

theorem sd (sc : BitVec 2) (str : Bool) (a : BitVec 7) (d : BitVec 7) : Statement (.sd sc str a d) := by
  refine word rfl (fun wf w hw => ?_)
  obtain ⟨b7_7, b14_7, b26_2, f1_6, f21_4, f28_4, t25_1, lt, low⟩ := fields10 (k0 := 1) (k1 := 27) (k21 := 3) (k28 := 0) (by decide) (by decide) d.isLt a.isLt (by decide) (Bool.toNat_lt str) sc.isLt (by decide) rfl hw
  refine ⟨?_, lt, low⟩
  rw [major27 f1_6]
  simp [decodeStore, bits_of b7_7, bits_of b14_7, bits_of b26_2, f21_4, f28_4, bitOf_of t25_1]

theorem sv (sc : BitVec 2) (str : Bool) (a : BitVec 7) (d : BitVec 7) : Statement (.sv sc str a d) := by
  refine word rfl (fun wf w hw => ?_)
  obtain ⟨b7_7, b14_7, b26_2, f1_6, f21_4, f28_4, t25_1, lt, low⟩ := fields10 (k0 := 1) (k1 := 27) (k21 := 4) (k28 := 0) (by decide) (by decide) d.isLt a.isLt (by decide) (Bool.toNat_lt str) sc.isLt (by decide) rfl hw
  refine ⟨?_, lt, low⟩
  rw [major27 f1_6]
  simp [decodeStore, bits_of b7_7, bits_of b14_7, bits_of b26_2, f21_4, f28_4, bitOf_of t25_1]

theorem lvsE4 (la : BitVec 4) (b : BitVec 7) (a : BitVec 7) (d : BitVec 7) : Statement (.lvsE4 la b a d) := by
  refine word rfl (fun wf w hw => ?_)
  obtain ⟨b7_7, b14_7, b21_7, b28_4, f1_6, lt, low⟩ := fields8 (k0 := 1) (k1 := 28) (by decide) (by decide) d.isLt a.isLt b.isLt la.isLt rfl hw
  refine ⟨?_, lt, low⟩
  rw [major28 f1_6]
  simp [bits_of b7_7, bits_of b14_7, bits_of b21_7, bits_of b28_4]

theorem lvsE5 (la : BitVec 4) (b : BitVec 7) (a : BitVec 7) (d : BitVec 7) : Statement (.lvsE5 la b a d) := by
  refine word rfl (fun wf w hw => ?_)
  obtain ⟨b7_7, b14_7, b21_7, b28_4, f1_6, lt, low⟩ := fields8 (k0 := 1) (k1 := 29) (by decide) (by decide) d.isLt a.isLt b.isLt la.isLt rfl hw
  refine ⟨?_, lt, low⟩
  rw [major29 f1_6]
  simp [bits_of b7_7, bits_of b14_7, bits_of b21_7, bits_of b28_4]

theorem svs (b : BitVec 7) (a : BitVec 7) (d : BitVec 7) : Statement (.svs b a d) := by
  refine word rfl (fun wf w hw => ?_)
  obtain ⟨b7_7, b14_7, b21_7, f1_6, f28_4, lt, low⟩ := fields11 (k0 := 1) (k1 := 30) (k28 := 0) (by decide) (by decide) d.isLt a.isLt b.isLt (by decide) rfl hw
  refine ⟨?_, lt, low⟩
  rw [major30 f1_6]
  simp [bits_of b7_7, bits_of b14_7, bits_of b21_7, f28_4]

theorem ldx (la : BitVec 4) (b : BitVec 7) (a : BitVec 7) (d : BitVec 7) : Statement (.ldx la b a d) := by
  refine word rfl (fun wf w hw => ?_)
  obtain ⟨b7_7, b14_7, b21_7, b28_4, f1_6, lt, low⟩ := fields8 (k0 := 1) (k1 := 31) (by decide) (by decide) d.isLt a.isLt b.isLt la.isLt rfl hw
  refine ⟨?_, lt, low⟩
  rw [major31 f1_6]
  simp [bits_of b7_7, bits_of b14_7, bits_of b21_7, bits_of b28_4]

theorem ldf (la : BitVec 4) (sc : BitVec 2) (tryIt : Bool) (consume : Bool) (a : BitVec 7) (d : BitVec 7) : Statement (.ldf la sc tryIt consume a d) := by
  refine word rfl (fun wf w hw => ?_)
  obtain ⟨b7_7, b14_7, b26_2, b28_4, f1_6, f23_3, t21_1, t22_1, lt, low⟩ := fields12 (k0 := 1) (k1 := 32) (k23 := 0) (by decide) (by decide) d.isLt a.isLt (Bool.toNat_lt consume) (Bool.toNat_lt tryIt) (by decide) sc.isLt la.isLt rfl hw
  refine ⟨?_, lt, low⟩
  rw [major32 f1_6]
  simp [bits_of b7_7, bits_of b14_7, bits_of b26_2, bits_of b28_4, f23_3, bitOf_of t21_1, bitOf_of t22_1]

theorem stf (sc : BitVec 2) (e : Bool) (a : BitVec 7) (d : BitVec 7) : Statement (.stf sc e a d) := by
  refine word rfl (fun wf w hw => ?_)
  obtain ⟨b7_7, b14_7, b26_2, f1_6, f22_4, f28_4, t21_1, lt, low⟩ := fields13 (k0 := 1) (k1 := 33) (k22 := 0) (k28 := 0) (by decide) (by decide) d.isLt a.isLt (Bool.toNat_lt e) (by decide) sc.isLt (by decide) rfl hw
  refine ⟨?_, lt, low⟩
  rw [major33 f1_6]
  simp [bits_of b7_7, bits_of b14_7, bits_of b26_2, f22_4, f28_4, bitOf_of t21_1]

theorem amoSwap (la : BitVec 4) (sc : BitVec 2) (wide : Bool) (a : BitVec 7) (d : BitVec 7) : Statement (.amoSwap la sc wide a d) := by
  refine word rfl (fun wf w hw => ?_)
  obtain ⟨b7_7, b14_7, b26_2, b28_4, f1_6, f21_4, t25_1, lt, low⟩ := fields9 (k0 := 1) (k1 := 34) (k21 := 0) (by decide) (by decide) d.isLt a.isLt (by decide) (Bool.toNat_lt wide) sc.isLt la.isLt rfl hw
  refine ⟨?_, lt, low⟩
  rw [major34 f1_6]
  simp [decodeAmo, bits_of b7_7, bits_of b14_7, bits_of b26_2, bits_of b28_4, f21_4, bitOf_of t25_1]

theorem amoAdd (la : BitVec 4) (sc : BitVec 2) (wide : Bool) (a : BitVec 7) (d : BitVec 7) : Statement (.amoAdd la sc wide a d) := by
  refine word rfl (fun wf w hw => ?_)
  obtain ⟨b7_7, b14_7, b26_2, b28_4, f1_6, f21_4, t25_1, lt, low⟩ := fields9 (k0 := 1) (k1 := 34) (k21 := 1) (by decide) (by decide) d.isLt a.isLt (by decide) (Bool.toNat_lt wide) sc.isLt la.isLt rfl hw
  refine ⟨?_, lt, low⟩
  rw [major34 f1_6]
  simp [decodeAmo, bits_of b7_7, bits_of b14_7, bits_of b26_2, bits_of b28_4, f21_4, bitOf_of t25_1]

theorem amoAnd (la : BitVec 4) (sc : BitVec 2) (wide : Bool) (a : BitVec 7) (d : BitVec 7) : Statement (.amoAnd la sc wide a d) := by
  refine word rfl (fun wf w hw => ?_)
  obtain ⟨b7_7, b14_7, b26_2, b28_4, f1_6, f21_4, t25_1, lt, low⟩ := fields9 (k0 := 1) (k1 := 34) (k21 := 2) (by decide) (by decide) d.isLt a.isLt (by decide) (Bool.toNat_lt wide) sc.isLt la.isLt rfl hw
  refine ⟨?_, lt, low⟩
  rw [major34 f1_6]
  simp [decodeAmo, bits_of b7_7, bits_of b14_7, bits_of b26_2, bits_of b28_4, f21_4, bitOf_of t25_1]

theorem amoOr (la : BitVec 4) (sc : BitVec 2) (wide : Bool) (a : BitVec 7) (d : BitVec 7) : Statement (.amoOr la sc wide a d) := by
  refine word rfl (fun wf w hw => ?_)
  obtain ⟨b7_7, b14_7, b26_2, b28_4, f1_6, f21_4, t25_1, lt, low⟩ := fields9 (k0 := 1) (k1 := 34) (k21 := 3) (by decide) (by decide) d.isLt a.isLt (by decide) (Bool.toNat_lt wide) sc.isLt la.isLt rfl hw
  refine ⟨?_, lt, low⟩
  rw [major34 f1_6]
  simp [decodeAmo, bits_of b7_7, bits_of b14_7, bits_of b26_2, bits_of b28_4, f21_4, bitOf_of t25_1]

theorem amoXor (la : BitVec 4) (sc : BitVec 2) (wide : Bool) (a : BitVec 7) (d : BitVec 7) : Statement (.amoXor la sc wide a d) := by
  refine word rfl (fun wf w hw => ?_)
  obtain ⟨b7_7, b14_7, b26_2, b28_4, f1_6, f21_4, t25_1, lt, low⟩ := fields9 (k0 := 1) (k1 := 34) (k21 := 4) (by decide) (by decide) d.isLt a.isLt (by decide) (Bool.toNat_lt wide) sc.isLt la.isLt rfl hw
  refine ⟨?_, lt, low⟩
  rw [major34 f1_6]
  simp [decodeAmo, bits_of b7_7, bits_of b14_7, bits_of b26_2, bits_of b28_4, f21_4, bitOf_of t25_1]

theorem amoMin (la : BitVec 4) (sc : BitVec 2) (wide : Bool) (a : BitVec 7) (d : BitVec 7) : Statement (.amoMin la sc wide a d) := by
  refine word rfl (fun wf w hw => ?_)
  obtain ⟨b7_7, b14_7, b26_2, b28_4, f1_6, f21_4, t25_1, lt, low⟩ := fields9 (k0 := 1) (k1 := 34) (k21 := 5) (by decide) (by decide) d.isLt a.isLt (by decide) (Bool.toNat_lt wide) sc.isLt la.isLt rfl hw
  refine ⟨?_, lt, low⟩
  rw [major34 f1_6]
  simp [decodeAmo, bits_of b7_7, bits_of b14_7, bits_of b26_2, bits_of b28_4, f21_4, bitOf_of t25_1]

theorem amoMax (la : BitVec 4) (sc : BitVec 2) (wide : Bool) (a : BitVec 7) (d : BitVec 7) : Statement (.amoMax la sc wide a d) := by
  refine word rfl (fun wf w hw => ?_)
  obtain ⟨b7_7, b14_7, b26_2, b28_4, f1_6, f21_4, t25_1, lt, low⟩ := fields9 (k0 := 1) (k1 := 34) (k21 := 6) (by decide) (by decide) d.isLt a.isLt (by decide) (Bool.toNat_lt wide) sc.isLt la.isLt rfl hw
  refine ⟨?_, lt, low⟩
  rw [major34 f1_6]
  simp [decodeAmo, bits_of b7_7, bits_of b14_7, bits_of b26_2, bits_of b28_4, f21_4, bitOf_of t25_1]

theorem amoMinu (la : BitVec 4) (sc : BitVec 2) (wide : Bool) (a : BitVec 7) (d : BitVec 7) : Statement (.amoMinu la sc wide a d) := by
  refine word rfl (fun wf w hw => ?_)
  obtain ⟨b7_7, b14_7, b26_2, b28_4, f1_6, f21_4, t25_1, lt, low⟩ := fields9 (k0 := 1) (k1 := 34) (k21 := 7) (by decide) (by decide) d.isLt a.isLt (by decide) (Bool.toNat_lt wide) sc.isLt la.isLt rfl hw
  refine ⟨?_, lt, low⟩
  rw [major34 f1_6]
  simp [decodeAmo, bits_of b7_7, bits_of b14_7, bits_of b26_2, bits_of b28_4, f21_4, bitOf_of t25_1]

theorem amoMaxu (la : BitVec 4) (sc : BitVec 2) (wide : Bool) (a : BitVec 7) (d : BitVec 7) : Statement (.amoMaxu la sc wide a d) := by
  refine word rfl (fun wf w hw => ?_)
  obtain ⟨b7_7, b14_7, b26_2, b28_4, f1_6, f21_4, t25_1, lt, low⟩ := fields9 (k0 := 1) (k1 := 34) (k21 := 8) (by decide) (by decide) d.isLt a.isLt (by decide) (Bool.toNat_lt wide) sc.isLt la.isLt rfl hw
  refine ⟨?_, lt, low⟩
  rw [major34 f1_6]
  simp [decodeAmo, bits_of b7_7, bits_of b14_7, bits_of b26_2, bits_of b28_4, f21_4, bitOf_of t25_1]

theorem amoCas (la : BitVec 4) (sc : BitVec 2) (wide : Bool) (a : BitVec 7) (d : BitVec 7) : Statement (.amoCas la sc wide a d) := by
  refine word rfl (fun wf w hw => ?_)
  obtain ⟨b7_7, b14_7, b26_2, b28_4, f1_6, f21_4, t25_1, lt, low⟩ := fields9 (k0 := 1) (k1 := 34) (k21 := 9) (by decide) (by decide) d.isLt a.isLt (by decide) (Bool.toNat_lt wide) sc.isLt la.isLt rfl hw
  refine ⟨?_, lt, low⟩
  rw [major34 f1_6]
  simp [decodeAmo, bits_of b7_7, bits_of b14_7, bits_of b26_2, bits_of b28_4, f21_4, bitOf_of t25_1]

theorem fenceFull (sc : BitVec 2) : Statement (.fenceFull sc) := by
  refine word rfl (fun wf w hw => ?_)
  obtain ⟨b21_2, f1_6, f7_14, f23_3, f26_6, lt, low⟩ := fields14 (k0 := 1) (k1 := 35) (k7 := 0) (k23 := 0) (k26 := 0) (by decide) (by decide) (by decide) sc.isLt (by decide) (by decide) rfl hw
  refine ⟨?_, lt, low⟩
  rw [major35 f1_6]
  simp [decodeFence, bits_of b21_2, f7_14, f23_3, f26_6]

theorem fenceAcq (sc : BitVec 2) : Statement (.fenceAcq sc) := by
  refine word rfl (fun wf w hw => ?_)
  obtain ⟨b21_2, f1_6, f7_14, f23_3, f26_6, lt, low⟩ := fields14 (k0 := 1) (k1 := 35) (k7 := 0) (k23 := 1) (k26 := 0) (by decide) (by decide) (by decide) sc.isLt (by decide) (by decide) rfl hw
  refine ⟨?_, lt, low⟩
  rw [major35 f1_6]
  simp [decodeFence, bits_of b21_2, f7_14, f23_3, f26_6]

theorem fenceRel (sc : BitVec 2) : Statement (.fenceRel sc) := by
  refine word rfl (fun wf w hw => ?_)
  obtain ⟨b21_2, f1_6, f7_14, f23_3, f26_6, lt, low⟩ := fields14 (k0 := 1) (k1 := 35) (k7 := 0) (k23 := 2) (k26 := 0) (by decide) (by decide) (by decide) sc.isLt (by decide) (by decide) rfl hw
  refine ⟨?_, lt, low⟩
  rw [major35 f1_6]
  simp [decodeFence, bits_of b21_2, f7_14, f23_3, f26_6]

theorem fenceEngine (sc : BitVec 2) : Statement (.fenceEngine sc) := by
  refine word rfl (fun wf w hw => ?_)
  obtain ⟨b21_2, f1_6, f7_14, f23_3, f26_6, lt, low⟩ := fields14 (k0 := 1) (k1 := 35) (k7 := 0) (k23 := 3) (k26 := 0) (by decide) (by decide) (by decide) sc.isLt (by decide) (by decide) rfl hw
  refine ⟨?_, lt, low⟩
  rw [major35 f1_6]
  simp [decodeFence, bits_of b21_2, f7_14, f23_3, f26_6]

theorem fenceStrings (sc : BitVec 2) : Statement (.fenceStrings sc) := by
  refine word rfl (fun wf w hw => ?_)
  obtain ⟨b21_2, f1_6, f7_14, f23_3, f26_6, lt, low⟩ := fields14 (k0 := 1) (k1 := 35) (k7 := 0) (k23 := 4) (k26 := 0) (by decide) (by decide) (by decide) sc.isLt (by decide) (by decide) rfl hw
  refine ⟨?_, lt, low⟩
  rw [major35 f1_6]
  simp [decodeFence, bits_of b21_2, f7_14, f23_3, f26_6]

theorem tld (la : BitVec 4) (b : BitVec 7) (a : BitVec 7) (d : BitVec 7) : Statement (.tld la b a d) := by
  refine word rfl (fun wf w hw => ?_)
  obtain ⟨b7_7, b14_7, b21_7, b28_4, f1_6, lt, low⟩ := fields8 (k0 := 1) (k1 := 36) (by decide) (by decide) d.isLt a.isLt b.isLt la.isLt rfl hw
  refine ⟨?_, lt, low⟩
  rw [major36 f1_6]
  simp [bits_of b7_7, bits_of b14_7, bits_of b21_7, bits_of b28_4]

theorem tst (b : BitVec 7) (a : BitVec 7) (d : BitVec 7) : Statement (.tst b a d) := by
  refine word rfl (fun wf w hw => ?_)
  obtain ⟨b7_7, b14_7, b21_7, f1_6, f28_4, lt, low⟩ := fields11 (k0 := 1) (k1 := 37) (k28 := 0) (by decide) (by decide) d.isLt a.isLt b.isLt (by decide) rfl hw
  refine ⟨?_, lt, low⟩
  rw [major37 f1_6]
  simp [bits_of b7_7, bits_of b14_7, bits_of b21_7, f28_4]

theorem marm (sc : BitVec 2) (a : BitVec 7) (d : BitVec 7) : Statement (.marm sc a d) := by
  refine word rfl (fun wf w hw => ?_)
  obtain ⟨b7_7, b14_7, b26_2, f1_6, f21_4, f25_1, f28_4, lt, low⟩ := fields15 (k0 := 1) (k1 := 38) (k21 := 0) (k25 := 0) (k28 := 0) (by decide) (by decide) d.isLt a.isLt (by decide) (by decide) sc.isLt (by decide) rfl hw
  refine ⟨?_, lt, low⟩
  rw [major38 f1_6]
  simp [decodeMarm, bits_of b7_7, bits_of b14_7, bits_of b26_2, f21_4, f25_1, f28_4]

theorem flush (sa : Bool) (a : BitVec 7) : Statement (.flush sa a) := by
  refine word rfl (fun wf w hw => ?_)
  obtain ⟨b14_7, f1_6, f7_7, f21_7, f28_3, t31_1, lt, low⟩ := fields16 (k0 := 1) (k1 := 39) (k7 := 0) (k21 := 0) (k28 := 0) (by decide) (by decide) (by decide) a.isLt (by decide) (by decide) (Bool.toNat_lt sa) rfl hw
  refine ⟨?_, lt, low⟩
  rw [major39 f1_6]
  simp [decodeCache, bits_of b14_7, f7_7, f21_7, f28_3, bitOf_of t31_1]

theorem clean (sa : Bool) (a : BitVec 7) : Statement (.clean sa a) := by
  refine word rfl (fun wf w hw => ?_)
  obtain ⟨b14_7, f1_6, f7_7, f21_7, f28_3, t31_1, lt, low⟩ := fields16 (k0 := 1) (k1 := 39) (k7 := 0) (k21 := 0) (k28 := 1) (by decide) (by decide) (by decide) a.isLt (by decide) (by decide) (Bool.toNat_lt sa) rfl hw
  refine ⟨?_, lt, low⟩
  rw [major39 f1_6]
  simp [decodeCache, bits_of b14_7, f7_7, f21_7, f28_3, bitOf_of t31_1]

theorem inval (sa : Bool) (a : BitVec 7) : Statement (.inval sa a) := by
  refine word rfl (fun wf w hw => ?_)
  obtain ⟨b14_7, f1_6, f7_7, f21_7, f28_3, t31_1, lt, low⟩ := fields16 (k0 := 1) (k1 := 39) (k7 := 0) (k21 := 0) (k28 := 2) (by decide) (by decide) (by decide) a.isLt (by decide) (by decide) (Bool.toNat_lt sa) rfl hw
  refine ⟨?_, lt, low⟩
  rw [major39 f1_6]
  simp [decodeCache, bits_of b14_7, f7_7, f21_7, f28_3, bitOf_of t31_1]

theorem pref (sa : Bool) (a : BitVec 7) : Statement (.pref sa a) := by
  refine word rfl (fun wf w hw => ?_)
  obtain ⟨b14_7, f1_6, f7_7, f21_7, f28_3, t31_1, lt, low⟩ := fields16 (k0 := 1) (k1 := 39) (k7 := 0) (k21 := 0) (k28 := 3) (by decide) (by decide) (by decide) a.isLt (by decide) (by decide) (Bool.toNat_lt sa) rfl hw
  refine ⟨?_, lt, low⟩
  rw [major39 f1_6]
  simp [decodeCache, bits_of b14_7, f7_7, f21_7, f28_3, bitOf_of t31_1]

theorem tlbinv (sa : Bool) (b : BitVec 7) (a : BitVec 7) : Statement (.tlbinv sa b a) := by
  refine word rfl (fun wf w hw => ?_)
  obtain ⟨b14_7, b21_7, f1_6, f7_7, f28_3, t31_1, lt, low⟩ := fields17 (k0 := 1) (k1 := 39) (k7 := 0) (k28 := 4) (by decide) (by decide) (by decide) a.isLt b.isLt (by decide) (Bool.toNat_lt sa) rfl hw
  refine ⟨?_, lt, low⟩
  rw [major39 f1_6]
  simp [decodeCache, bits_of b14_7, bits_of b21_7, f7_7, f28_3, bitOf_of t31_1]

theorem tlbsync (d : BitVec 7) : Statement (.tlbsync d) := by
  refine word rfl (fun wf w hw => ?_)
  obtain ⟨b7_7, f1_6, f14_14, f28_3, f31_1, lt, low⟩ := fields18 (k0 := 1) (k1 := 39) (k14 := 0) (k28 := 5) (k31 := 0) (by decide) (by decide) d.isLt (by decide) (by decide) (by decide) rfl hw
  refine ⟨?_, lt, low⟩
  rw [major39 f1_6]
  simp [decodeCache, bits_of b7_7, f14_14, f28_3, f31_1]

theorem migr (sa : Bool) (b : BitVec 7) (a : BitVec 7) (d : BitVec 7) : Statement (.migr sa b a d) := by
  refine word rfl (fun wf w hw => ?_)
  obtain ⟨b7_7, b14_7, b21_7, f1_6, f28_3, t31_1, lt, low⟩ := fields1 (k0 := 1) (k1 := 39) (k28 := 6) (by decide) (by decide) d.isLt a.isLt b.isLt (by decide) (Bool.toNat_lt sa) rfl hw
  refine ⟨?_, lt, low⟩
  rw [major39 f1_6]
  simp [decodeCache, bits_of b7_7, bits_of b14_7, bits_of b21_7, f28_3, bitOf_of t31_1]

theorem tdreg (sa : Bool) (a : BitVec 7) (d : BitVec 7) : Statement (.tdreg sa a d) := by
  refine word rfl (fun wf w hw => ?_)
  obtain ⟨b7_7, b14_7, f1_6, f21_7, f28_3, t31_1, lt, low⟩ := fields2 (k0 := 1) (k1 := 39) (k21 := 0) (k28 := 7) (by decide) (by decide) d.isLt a.isLt (by decide) (by decide) (Bool.toNat_lt sa) rfl hw
  refine ⟨?_, lt, low⟩
  rw [major39 f1_6]
  simp [decodeCache, bits_of b7_7, bits_of b14_7, f21_7, f28_3, bitOf_of t31_1]

theorem mfs (sys : BitVec 11) (d : BitVec 7) : Statement (.mfs sys d) := by
  refine word rfl (fun wf w hw => ?_)
  obtain ⟨b7_7, b21_11, f1_6, f14_7, f21_11, lt, low⟩ := fields19 (k0 := 1) (k1 := 40) (k14 := 0) (by decide) (by decide) d.isLt (by decide) sys.isLt rfl hw
  refine ⟨?_, lt, low⟩
  simp [Instr.wellFormed] at wf
  rw [major40 f1_6]
  simp [bits_of b7_7, bits_of b21_11, f14_7, f21_11] <;> omega

theorem mts (sys : BitVec 11) (a : BitVec 7) : Statement (.mts sys a) := by
  refine word rfl (fun wf w hw => ?_)
  obtain ⟨b14_7, b21_11, f1_6, f7_7, f21_11, lt, low⟩ := fields20 (k0 := 1) (k1 := 41) (k7 := 0) (by decide) (by decide) (by decide) a.isLt sys.isLt rfl hw
  refine ⟨?_, lt, low⟩
  simp [Instr.wellFormed] at wf
  rw [major41 f1_6]
  simp [bits_of b14_7, bits_of b21_11, f7_7, f21_11] <;> omega

theorem waitc (sa : Bool) (a : BitVec 7) (d : BitVec 7) : Statement (.waitc sa a d) := by
  refine word rfl (fun wf w hw => ?_)
  obtain ⟨b7_7, b14_7, f1_6, f21_7, f28_3, t31_1, lt, low⟩ := fields2 (k0 := 1) (k1 := 43) (k21 := 0) (k28 := 0) (by decide) (by decide) d.isLt a.isLt (by decide) (by decide) (Bool.toNat_lt sa) rfl hw
  refine ⟨?_, lt, low⟩
  rw [major43 f1_6]
  simp [decodeWait, bits_of b7_7, bits_of b14_7, f21_7, f28_3, bitOf_of t31_1]

theorem waitw (sa : Bool) (a : BitVec 7) (d : BitVec 7) : Statement (.waitw sa a d) := by
  refine word rfl (fun wf w hw => ?_)
  obtain ⟨b7_7, b14_7, f1_6, f21_7, f28_3, t31_1, lt, low⟩ := fields2 (k0 := 1) (k1 := 43) (k21 := 0) (k28 := 1) (by decide) (by decide) d.isLt a.isLt (by decide) (by decide) (Bool.toNat_lt sa) rfl hw
  refine ⟨?_, lt, low⟩
  rw [major43 f1_6]
  simp [decodeWait, bits_of b7_7, bits_of b14_7, f21_7, f28_3, bitOf_of t31_1]

theorem sleepm (d : BitVec 7) : Statement (.sleepm d) := by
  refine word rfl (fun wf w hw => ?_)
  obtain ⟨b7_7, f1_6, f14_14, f28_3, f31_1, lt, low⟩ := fields18 (k0 := 1) (k1 := 43) (k14 := 0) (k28 := 2) (k31 := 0) (by decide) (by decide) d.isLt (by decide) (by decide) (by decide) rfl hw
  refine ⟨?_, lt, low⟩
  rw [major43 f1_6]
  simp [decodeWait, bits_of b7_7, f14_14, f28_3, f31_1]

theorem waitk (sa : Bool) (a : BitVec 7) (d : BitVec 7) : Statement (.waitk sa a d) := by
  refine word rfl (fun wf w hw => ?_)
  obtain ⟨b7_7, b14_7, f1_6, f21_7, f28_3, t31_1, lt, low⟩ := fields2 (k0 := 1) (k1 := 43) (k21 := 0) (k28 := 3) (by decide) (by decide) d.isLt a.isLt (by decide) (by decide) (Bool.toNat_lt sa) rfl hw
  refine ⟨?_, lt, low⟩
  rw [major43 f1_6]
  simp [decodeWait, bits_of b7_7, bits_of b14_7, f21_7, f28_3, bitOf_of t31_1]

theorem rdres (sa : Bool) (a : BitVec 7) (d : BitVec 7) : Statement (.rdres sa a d) := by
  refine word rfl (fun wf w hw => ?_)
  obtain ⟨b7_7, b14_7, f1_6, f21_7, f28_3, t31_1, lt, low⟩ := fields2 (k0 := 1) (k1 := 43) (k21 := 0) (k28 := 4) (by decide) (by decide) d.isLt a.isLt (by decide) (by decide) (Bool.toNat_lt sa) rfl hw
  refine ⟨?_, lt, low⟩
  rw [major43 f1_6]
  simp [decodeWait, bits_of b7_7, bits_of b14_7, f21_7, f28_3, bitOf_of t31_1]

theorem tspawn (sa : Bool) (b : BitVec 7) (a : BitVec 7) (d : BitVec 7) : Statement (.tspawn sa b a d) := by
  refine word rfl (fun wf w hw => ?_)
  obtain ⟨b7_7, b14_7, b21_7, f1_6, f28_3, t31_1, lt, low⟩ := fields1 (k0 := 1) (k1 := 44) (k28 := 0) (by decide) (by decide) d.isLt a.isLt b.isLt (by decide) (Bool.toNat_lt sa) rfl hw
  refine ⟨?_, lt, low⟩
  rw [major44 f1_6]
  simp [decodeThread, bits_of b7_7, bits_of b14_7, bits_of b21_7, f28_3, bitOf_of t31_1]

theorem treap (sa : Bool) (a : BitVec 7) (d : BitVec 7) : Statement (.treap sa a d) := by
  refine word rfl (fun wf w hw => ?_)
  obtain ⟨b7_7, b14_7, f1_6, f21_7, f28_3, t31_1, lt, low⟩ := fields2 (k0 := 1) (k1 := 44) (k21 := 0) (k28 := 1) (by decide) (by decide) d.isLt a.isLt (by decide) (by decide) (Bool.toNat_lt sa) rfl hw
  refine ⟨?_, lt, low⟩
  rw [major44 f1_6]
  simp [decodeThread, bits_of b7_7, bits_of b14_7, f21_7, f28_3, bitOf_of t31_1]

theorem tkill (sa : Bool) (a : BitVec 7) (d : BitVec 7) : Statement (.tkill sa a d) := by
  refine word rfl (fun wf w hw => ?_)
  obtain ⟨b7_7, b14_7, f1_6, f21_7, f28_3, t31_1, lt, low⟩ := fields2 (k0 := 1) (k1 := 44) (k21 := 0) (k28 := 2) (by decide) (by decide) d.isLt a.isLt (by decide) (by decide) (Bool.toNat_lt sa) rfl hw
  refine ⟨?_, lt, low⟩
  rw [major44 f1_6]
  simp [decodeThread, bits_of b7_7, bits_of b14_7, f21_7, f28_3, bitOf_of t31_1]

theorem twake (sa : Bool) (a : BitVec 7) (d : BitVec 7) : Statement (.twake sa a d) := by
  refine word rfl (fun wf w hw => ?_)
  obtain ⟨b7_7, b14_7, f1_6, f21_7, f28_3, t31_1, lt, low⟩ := fields2 (k0 := 1) (k1 := 44) (k21 := 0) (k28 := 3) (by decide) (by decide) d.isLt a.isLt (by decide) (by decide) (Bool.toNat_lt sa) rfl hw
  refine ⟨?_, lt, low⟩
  rw [major44 f1_6]
  simp [decodeThread, bits_of b7_7, bits_of b14_7, f21_7, f28_3, bitOf_of t31_1]

theorem texit (sa : Bool) (a : BitVec 7) : Statement (.texit sa a) := by
  refine word rfl (fun wf w hw => ?_)
  obtain ⟨b14_7, f1_6, f7_7, f21_7, f28_3, t31_1, lt, low⟩ := fields16 (k0 := 1) (k1 := 44) (k7 := 0) (k21 := 0) (k28 := 4) (by decide) (by decide) (by decide) a.isLt (by decide) (by decide) (Bool.toNat_lt sa) rfl hw
  refine ⟨?_, lt, low⟩
  rw [major44 f1_6]
  simp [decodeThread, bits_of b14_7, f7_7, f21_7, f28_3, bitOf_of t31_1]

theorem mclass (sa : Bool) (a : BitVec 7) (d : BitVec 7) : Statement (.mclass sa a d) := by
  refine word rfl (fun wf w hw => ?_)
  obtain ⟨b7_7, b14_7, f1_6, f21_7, f28_3, t31_1, lt, low⟩ := fields2 (k0 := 1) (k1 := 44) (k21 := 0) (k28 := 5) (by decide) (by decide) d.isLt a.isLt (by decide) (by decide) (Bool.toNat_lt sa) rfl hw
  refine ⟨?_, lt, low⟩
  rw [major44 f1_6]
  simp [decodeThread, bits_of b7_7, bits_of b14_7, f21_7, f28_3, bitOf_of t31_1]

theorem tstat (sa : Bool) (a : BitVec 7) (d : BitVec 7) : Statement (.tstat sa a d) := by
  refine word rfl (fun wf w hw => ?_)
  obtain ⟨b7_7, b14_7, f1_6, f21_7, f28_3, t31_1, lt, low⟩ := fields2 (k0 := 1) (k1 := 44) (k21 := 0) (k28 := 6) (by decide) (by decide) d.isLt a.isLt (by decide) (by decide) (Bool.toNat_lt sa) rfl hw
  refine ⟨?_, lt, low⟩
  rw [major44 f1_6]
  simp [decodeThread, bits_of b7_7, bits_of b14_7, f21_7, f28_3, bitOf_of t31_1]

theorem msend (sa : Bool) (b : BitVec 7) (a : BitVec 7) : Statement (.msend sa b a) := by
  refine word rfl (fun wf w hw => ?_)
  obtain ⟨b14_7, b21_7, f1_6, f7_7, f28_3, t31_1, lt, low⟩ := fields17 (k0 := 1) (k1 := 45) (k7 := 0) (k28 := 0) (by decide) (by decide) (by decide) a.isLt b.isLt (by decide) (Bool.toNat_lt sa) rfl hw
  refine ⟨?_, lt, low⟩
  rw [major45 f1_6]
  simp [decodeMsg, bits_of b14_7, bits_of b21_7, f7_7, f28_3, bitOf_of t31_1]

theorem msend2 (sa : Bool) (b : BitVec 7) (a : BitVec 7) : Statement (.msend2 sa b a) := by
  refine word rfl (fun wf w hw => ?_)
  obtain ⟨b14_7, b21_7, f1_6, f7_7, f28_3, t31_1, lt, low⟩ := fields17 (k0 := 1) (k1 := 45) (k7 := 0) (k28 := 1) (by decide) (by decide) (by decide) a.isLt b.isLt (by decide) (Bool.toNat_lt sa) rfl hw
  refine ⟨?_, lt, low⟩
  rw [major45 f1_6]
  simp [decodeMsg, bits_of b14_7, bits_of b21_7, f7_7, f28_3, bitOf_of t31_1]

theorem mdrain (sa : Bool) (a : BitVec 7) (d : BitVec 7) : Statement (.mdrain sa a d) := by
  refine word rfl (fun wf w hw => ?_)
  obtain ⟨b7_7, b14_7, f1_6, f21_7, f28_3, t31_1, lt, low⟩ := fields2 (k0 := 1) (k1 := 45) (k21 := 0) (k28 := 2) (by decide) (by decide) d.isLt a.isLt (by decide) (by decide) (Bool.toNat_lt sa) rfl hw
  refine ⟨?_, lt, low⟩
  rw [major45 f1_6]
  simp [decodeMsg, bits_of b7_7, bits_of b14_7, f21_7, f28_3, bitOf_of t31_1]

theorem bar (sa : Bool) (a : BitVec 7) (d : BitVec 7) : Statement (.bar sa a d) := by
  refine word rfl (fun wf w hw => ?_)
  obtain ⟨b7_7, b14_7, f1_6, f21_7, f28_3, t31_1, lt, low⟩ := fields2 (k0 := 1) (k1 := 46) (k21 := 0) (k28 := 0) (by decide) (by decide) d.isLt a.isLt (by decide) (by decide) (Bool.toNat_lt sa) rfl hw
  refine ⟨?_, lt, low⟩
  rw [major46 f1_6]
  simp [decodeGroup, bits_of b7_7, bits_of b14_7, f21_7, f28_3, bitOf_of t31_1]

theorem bara (sa : Bool) (a : BitVec 7) (d : BitVec 7) : Statement (.bara sa a d) := by
  refine word rfl (fun wf w hw => ?_)
  obtain ⟨b7_7, b14_7, f1_6, f21_7, f28_3, t31_1, lt, low⟩ := fields2 (k0 := 1) (k1 := 46) (k21 := 0) (k28 := 1) (by decide) (by decide) d.isLt a.isLt (by decide) (by decide) (Bool.toNat_lt sa) rfl hw
  refine ⟨?_, lt, low⟩
  rw [major46 f1_6]
  simp [decodeGroup, bits_of b7_7, bits_of b14_7, f21_7, f28_3, bitOf_of t31_1]

theorem barw (sa : Bool) (b : BitVec 7) (a : BitVec 7) (d : BitVec 7) : Statement (.barw sa b a d) := by
  refine word rfl (fun wf w hw => ?_)
  obtain ⟨b7_7, b14_7, b21_7, f1_6, f28_3, t31_1, lt, low⟩ := fields1 (k0 := 1) (k1 := 46) (k28 := 2) (by decide) (by decide) d.isLt a.isLt b.isLt (by decide) (Bool.toNat_lt sa) rfl hw
  refine ⟨?_, lt, low⟩
  rw [major46 f1_6]
  simp [decodeGroup, bits_of b7_7, bits_of b14_7, bits_of b21_7, f28_3, bitOf_of t31_1]

theorem gqry (sa : Bool) (a : BitVec 7) (d : BitVec 7) : Statement (.gqry sa a d) := by
  refine word rfl (fun wf w hw => ?_)
  obtain ⟨b7_7, b14_7, f1_6, f21_7, f28_3, t31_1, lt, low⟩ := fields2 (k0 := 1) (k1 := 46) (k21 := 0) (k28 := 3) (by decide) (by decide) d.isLt a.isLt (by decide) (by decide) (Bool.toNat_lt sa) rfl hw
  refine ⟨?_, lt, low⟩
  rw [major46 f1_6]
  simp [decodeGroup, bits_of b7_7, bits_of b14_7, f21_7, f28_3, bitOf_of t31_1]

theorem wlpush (sa : Bool) (a : BitVec 7) (d : BitVec 7) : Statement (.wlpush sa a d) := by
  refine word rfl (fun wf w hw => ?_)
  obtain ⟨b7_7, b14_7, f1_6, f21_7, f28_3, t31_1, lt, low⟩ := fields2 (k0 := 1) (k1 := 47) (k21 := 0) (k28 := 0) (by decide) (by decide) d.isLt a.isLt (by decide) (by decide) (Bool.toNat_lt sa) rfl hw
  refine ⟨?_, lt, low⟩
  rw [major47 f1_6]
  simp [decodeLevel, bits_of b7_7, bits_of b14_7, f21_7, f28_3, bitOf_of t31_1]

theorem wlpop (d : BitVec 7) : Statement (.wlpop d) := by
  refine word rfl (fun wf w hw => ?_)
  obtain ⟨b7_7, f1_6, f14_14, f28_3, f31_1, lt, low⟩ := fields18 (k0 := 1) (k1 := 47) (k14 := 0) (k28 := 1) (k31 := 0) (by decide) (by decide) d.isLt (by decide) (by decide) (by decide) rfl hw
  refine ⟨?_, lt, low⟩
  rw [major47 f1_6]
  simp [decodeLevel, bits_of b7_7, f14_14, f28_3, f31_1]

theorem wlstat (d : BitVec 7) : Statement (.wlstat d) := by
  refine word rfl (fun wf w hw => ?_)
  obtain ⟨b7_7, f1_6, f14_14, f28_3, f31_1, lt, low⟩ := fields18 (k0 := 1) (k1 := 47) (k14 := 0) (k28 := 2) (k31 := 0) (by decide) (by decide) d.isLt (by decide) (by decide) (by decide) rfl hw
  refine ⟨?_, lt, low⟩
  rw [major47 f1_6]
  simp [decodeLevel, bits_of b7_7, f14_14, f28_3, f31_1]

theorem wldone (d : BitVec 7) : Statement (.wldone d) := by
  refine word rfl (fun wf w hw => ?_)
  obtain ⟨b7_7, f1_6, f14_14, f28_3, f31_1, lt, low⟩ := fields18 (k0 := 1) (k1 := 47) (k14 := 0) (k28 := 3) (k31 := 0) (by decide) (by decide) d.isLt (by decide) (by decide) (by decide) rfl hw
  refine ⟨?_, lt, low⟩
  rw [major47 f1_6]
  simp [decodeLevel, bits_of b7_7, f14_14, f28_3, f31_1]

theorem bind (sa : Bool) (v : Bool) (a : BitVec 7) (d : BitVec 7) : Statement (.bind sa v a d) := by
  refine word rfl (fun wf w hw => ?_)
  obtain ⟨b7_7, b14_7, f1_6, f22_6, f28_3, t21_1, t31_1, lt, low⟩ := fields21 (k0 := 1) (k1 := 48) (k22 := 0) (k28 := 0) (by decide) (by decide) d.isLt a.isLt (Bool.toNat_lt v) (by decide) (by decide) (Bool.toNat_lt sa) rfl hw
  refine ⟨?_, lt, low⟩
  rw [major48 f1_6]
  simp [decodeStream, bits_of b7_7, bits_of b14_7, f22_6, f28_3, bitOf_of t21_1, bitOf_of t31_1]

theorem unbind (sa : Bool) (a : BitVec 7) (d : BitVec 7) : Statement (.unbind sa a d) := by
  refine word rfl (fun wf w hw => ?_)
  obtain ⟨b7_7, b14_7, f1_6, f21_7, f28_3, t31_1, lt, low⟩ := fields2 (k0 := 1) (k1 := 48) (k21 := 0) (k28 := 1) (by decide) (by decide) d.isLt a.isLt (by decide) (by decide) (Bool.toNat_lt sa) rfl hw
  refine ⟨?_, lt, low⟩
  rw [major48 f1_6]
  simp [decodeStream, bits_of b7_7, bits_of b14_7, f21_7, f28_3, bitOf_of t31_1]

theorem sgdef (sa : Bool) (b : BitVec 7) (a : BitVec 7) (d : BitVec 7) : Statement (.sgdef sa b a d) := by
  refine word rfl (fun wf w hw => ?_)
  obtain ⟨b7_7, b14_7, b21_7, f1_6, f28_3, t31_1, lt, low⟩ := fields1 (k0 := 1) (k1 := 48) (k28 := 2) (by decide) (by decide) d.isLt a.isLt b.isLt (by decide) (Bool.toNat_lt sa) rfl hw
  refine ⟨?_, lt, low⟩
  rw [major48 f1_6]
  simp [decodeStream, bits_of b7_7, bits_of b14_7, bits_of b21_7, f28_3, bitOf_of t31_1]

theorem sstat (sa : Bool) (e : Bool) (a : BitVec 7) (d : BitVec 7) : Statement (.sstat sa e a d) := by
  refine word rfl (fun wf w hw => ?_)
  obtain ⟨b7_7, b14_7, f1_6, f22_6, f28_3, t21_1, t31_1, lt, low⟩ := fields21 (k0 := 1) (k1 := 48) (k22 := 0) (k28 := 3) (by decide) (by decide) d.isLt a.isLt (Bool.toNat_lt e) (by decide) (by decide) (Bool.toNat_lt sa) rfl hw
  refine ⟨?_, lt, low⟩
  rw [major48 f1_6]
  simp [decodeStream, bits_of b7_7, bits_of b14_7, f22_6, f28_3, bitOf_of t21_1, bitOf_of t31_1]

theorem sdrain (sa : Bool) (a : BitVec 7) (d : BitVec 7) : Statement (.sdrain sa a d) := by
  refine word rfl (fun wf w hw => ?_)
  obtain ⟨b7_7, b14_7, f1_6, f21_7, f28_3, t31_1, lt, low⟩ := fields2 (k0 := 1) (k1 := 48) (k21 := 0) (k28 := 4) (by decide) (by decide) d.isLt a.isLt (by decide) (by decide) (Bool.toNat_lt sa) rfl hw
  refine ⟨?_, lt, low⟩
  rw [major48 f1_6]
  simp [decodeStream, bits_of b7_7, bits_of b14_7, f21_7, f28_3, bitOf_of t31_1]

theorem cpost (sa : Bool) (b : BitVec 7) (a : BitVec 7) (d : BitVec 7) : Statement (.cpost sa b a d) := by
  refine word rfl (fun wf w hw => ?_)
  obtain ⟨b7_7, b14_7, b21_7, f1_6, f28_3, t31_1, lt, low⟩ := fields1 (k0 := 1) (k1 := 49) (k28 := 0) (by decide) (by decide) d.isLt a.isLt b.isLt (by decide) (Bool.toNat_lt sa) rfl hw
  refine ⟨?_, lt, low⟩
  rw [major49 f1_6]
  simp [decodeCopy, bits_of b7_7, bits_of b14_7, bits_of b21_7, f28_3, bitOf_of t31_1]

theorem sacq (sa : Bool) (b : BitVec 7) (a : BitVec 7) (d : BitVec 7) : Statement (.sacq sa b a d) := by
  refine word rfl (fun wf w hw => ?_)
  obtain ⟨b7_7, b14_7, b21_7, f1_6, f28_3, t31_1, lt, low⟩ := fields1 (k0 := 1) (k1 := 49) (k28 := 1) (by decide) (by decide) d.isLt a.isLt b.isLt (by decide) (Bool.toNat_lt sa) rfl hw
  refine ⟨?_, lt, low⟩
  rw [major49 f1_6]
  simp [decodeCopy, bits_of b7_7, bits_of b14_7, bits_of b21_7, f28_3, bitOf_of t31_1]

theorem sadd (sa : Bool) (b : BitVec 7) (a : BitVec 7) (d : BitVec 7) : Statement (.sadd sa b a d) := by
  refine word rfl (fun wf w hw => ?_)
  obtain ⟨b7_7, b14_7, b21_7, f1_6, f28_3, t31_1, lt, low⟩ := fields1 (k0 := 1) (k1 := 49) (k28 := 2) (by decide) (by decide) d.isLt a.isLt b.isLt (by decide) (Bool.toNat_lt sa) rfl hw
  refine ⟨?_, lt, low⟩
  rw [major49 f1_6]
  simp [decodeCopy, bits_of b7_7, bits_of b14_7, bits_of b21_7, f28_3, bitOf_of t31_1]

theorem sset (sa : Bool) (b : BitVec 7) (a : BitVec 7) : Statement (.sset sa b a) := by
  refine word rfl (fun wf w hw => ?_)
  obtain ⟨b14_7, b21_7, f1_6, f7_7, f28_3, t31_1, lt, low⟩ := fields17 (k0 := 1) (k1 := 49) (k7 := 0) (k28 := 3) (by decide) (by decide) (by decide) a.isLt b.isLt (by decide) (Bool.toNat_lt sa) rfl hw
  refine ⟨?_, lt, low⟩
  rw [major49 f1_6]
  simp [decodeCopy, bits_of b14_7, bits_of b21_7, f7_7, f28_3, bitOf_of t31_1]

theorem srd (sa : Bool) (a : BitVec 7) (d : BitVec 7) : Statement (.srd sa a d) := by
  refine word rfl (fun wf w hw => ?_)
  obtain ⟨b7_7, b14_7, f1_6, f21_7, f28_3, t31_1, lt, low⟩ := fields2 (k0 := 1) (k1 := 49) (k21 := 0) (k28 := 4) (by decide) (by decide) d.isLt a.isLt (by decide) (by decide) (Bool.toNat_lt sa) rfl hw
  refine ⟨?_, lt, low⟩
  rw [major49 f1_6]
  simp [decodeCopy, bits_of b7_7, bits_of b14_7, f21_7, f28_3, bitOf_of t31_1]

theorem cbget (sa : Bool) (a : BitVec 7) (d : BitVec 7) : Statement (.cbget sa a d) := by
  refine word rfl (fun wf w hw => ?_)
  obtain ⟨b7_7, b14_7, f1_6, f21_7, f28_3, t31_1, lt, low⟩ := fields2 (k0 := 1) (k1 := 49) (k21 := 0) (k28 := 5) (by decide) (by decide) d.isLt a.isLt (by decide) (by decide) (Bool.toNat_lt sa) rfl hw
  refine ⟨?_, lt, low⟩
  rw [major49 f1_6]
  simp [decodeCopy, bits_of b7_7, bits_of b14_7, f21_7, f28_3, bitOf_of t31_1]

theorem cbput (sa : Bool) (b : BitVec 7) (a : BitVec 7) (d : BitVec 7) : Statement (.cbput sa b a d) := by
  refine word rfl (fun wf w hw => ?_)
  obtain ⟨b7_7, b14_7, b21_7, f1_6, f28_3, t31_1, lt, low⟩ := fields1 (k0 := 1) (k1 := 49) (k28 := 6) (by decide) (by decide) d.isLt a.isLt b.isLt (by decide) (Bool.toNat_lt sa) rfl hw
  refine ⟨?_, lt, low⟩
  rw [major49 f1_6]
  simp [decodeCopy, bits_of b7_7, bits_of b14_7, bits_of b21_7, f28_3, bitOf_of t31_1]

theorem cbfree (sa : Bool) (a : BitVec 7) : Statement (.cbfree sa a) := by
  refine word rfl (fun wf w hw => ?_)
  obtain ⟨b14_7, f1_6, f7_7, f21_7, f28_3, t31_1, lt, low⟩ := fields16 (k0 := 1) (k1 := 49) (k7 := 0) (k21 := 0) (k28 := 7) (by decide) (by decide) (by decide) a.isLt (by decide) (by decide) (Bool.toNat_lt sa) rfl hw
  refine ⟨?_, lt, low⟩
  rw [major49 f1_6]
  simp [decodeCopy, bits_of b14_7, f7_7, f21_7, f28_3, bitOf_of t31_1]

theorem vadd (sa : Bool) (b : BitVec 7) (a : BitVec 7) (d : BitVec 7) : Statement (.vadd sa b a d) := by
  refine word rfl (fun wf w hw => ?_)
  obtain ⟨b7_7, b14_7, b21_7, f1_6, f28_3, t31_1, lt, low⟩ := fields1 (k0 := 1) (k1 := 50) (k28 := 0) (by decide) (by decide) d.isLt a.isLt b.isLt (by decide) (Bool.toNat_lt sa) rfl hw
  refine ⟨?_, lt, low⟩
  rw [major50 f1_6]
  simp [decodeVa, bits_of b7_7, bits_of b14_7, bits_of b21_7, f28_3, bitOf_of t31_1]

theorem vsub (sa : Bool) (b : BitVec 7) (a : BitVec 7) (d : BitVec 7) : Statement (.vsub sa b a d) := by
  refine word rfl (fun wf w hw => ?_)
  obtain ⟨b7_7, b14_7, b21_7, f1_6, f28_3, t31_1, lt, low⟩ := fields1 (k0 := 1) (k1 := 50) (k28 := 1) (by decide) (by decide) d.isLt a.isLt b.isLt (by decide) (Bool.toNat_lt sa) rfl hw
  refine ⟨?_, lt, low⟩
  rw [major50 f1_6]
  simp [decodeVa, bits_of b7_7, bits_of b14_7, bits_of b21_7, f28_3, bitOf_of t31_1]

theorem vmul (sa : Bool) (b : BitVec 7) (a : BitVec 7) (d : BitVec 7) : Statement (.vmul sa b a d) := by
  refine word rfl (fun wf w hw => ?_)
  obtain ⟨b7_7, b14_7, b21_7, f1_6, f28_3, t31_1, lt, low⟩ := fields1 (k0 := 1) (k1 := 50) (k28 := 2) (by decide) (by decide) d.isLt a.isLt b.isLt (by decide) (Bool.toNat_lt sa) rfl hw
  refine ⟨?_, lt, low⟩
  rw [major50 f1_6]
  simp [decodeVa, bits_of b7_7, bits_of b14_7, bits_of b21_7, f28_3, bitOf_of t31_1]

theorem vfma (sa : Bool) (b : BitVec 7) (a : BitVec 7) (d : BitVec 7) : Statement (.vfma sa b a d) := by
  refine word rfl (fun wf w hw => ?_)
  obtain ⟨b7_7, b14_7, b21_7, f1_6, f28_3, t31_1, lt, low⟩ := fields1 (k0 := 1) (k1 := 50) (k28 := 3) (by decide) (by decide) d.isLt a.isLt b.isLt (by decide) (Bool.toNat_lt sa) rfl hw
  refine ⟨?_, lt, low⟩
  rw [major50 f1_6]
  simp [decodeVa, bits_of b7_7, bits_of b14_7, bits_of b21_7, f28_3, bitOf_of t31_1]

theorem vfms (sa : Bool) (b : BitVec 7) (a : BitVec 7) (d : BitVec 7) : Statement (.vfms sa b a d) := by
  refine word rfl (fun wf w hw => ?_)
  obtain ⟨b7_7, b14_7, b21_7, f1_6, f28_3, t31_1, lt, low⟩ := fields1 (k0 := 1) (k1 := 50) (k28 := 4) (by decide) (by decide) d.isLt a.isLt b.isLt (by decide) (Bool.toNat_lt sa) rfl hw
  refine ⟨?_, lt, low⟩
  rw [major50 f1_6]
  simp [decodeVa, bits_of b7_7, bits_of b14_7, bits_of b21_7, f28_3, bitOf_of t31_1]

theorem vmin (sa : Bool) (b : BitVec 7) (a : BitVec 7) (d : BitVec 7) : Statement (.vmin sa b a d) := by
  refine word rfl (fun wf w hw => ?_)
  obtain ⟨b7_7, b14_7, b21_7, f1_6, f28_3, t31_1, lt, low⟩ := fields1 (k0 := 1) (k1 := 50) (k28 := 5) (by decide) (by decide) d.isLt a.isLt b.isLt (by decide) (Bool.toNat_lt sa) rfl hw
  refine ⟨?_, lt, low⟩
  rw [major50 f1_6]
  simp [decodeVa, bits_of b7_7, bits_of b14_7, bits_of b21_7, f28_3, bitOf_of t31_1]

theorem vmax (sa : Bool) (b : BitVec 7) (a : BitVec 7) (d : BitVec 7) : Statement (.vmax sa b a d) := by
  refine word rfl (fun wf w hw => ?_)
  obtain ⟨b7_7, b14_7, b21_7, f1_6, f28_3, t31_1, lt, low⟩ := fields1 (k0 := 1) (k1 := 50) (k28 := 6) (by decide) (by decide) d.isLt a.isLt b.isLt (by decide) (Bool.toNat_lt sa) rfl hw
  refine ⟨?_, lt, low⟩
  rw [major50 f1_6]
  simp [decodeVa, bits_of b7_7, bits_of b14_7, bits_of b21_7, f28_3, bitOf_of t31_1]

theorem vdiff (sa : Bool) (b : BitVec 7) (a : BitVec 7) (d : BitVec 7) : Statement (.vdiff sa b a d) := by
  refine word rfl (fun wf w hw => ?_)
  obtain ⟨b7_7, b14_7, b21_7, f1_6, f28_3, t31_1, lt, low⟩ := fields1 (k0 := 1) (k1 := 50) (k28 := 7) (by decide) (by decide) d.isLt a.isLt b.isLt (by decide) (Bool.toNat_lt sa) rfl hw
  refine ⟨?_, lt, low⟩
  rw [major50 f1_6]
  simp [decodeVa, bits_of b7_7, bits_of b14_7, bits_of b21_7, f28_3, bitOf_of t31_1]

theorem vand (sa : Bool) (b : BitVec 7) (a : BitVec 7) (d : BitVec 7) : Statement (.vand sa b a d) := by
  refine word rfl (fun wf w hw => ?_)
  obtain ⟨b7_7, b14_7, b21_7, f1_6, f28_3, t31_1, lt, low⟩ := fields1 (k0 := 1) (k1 := 51) (k28 := 0) (by decide) (by decide) d.isLt a.isLt b.isLt (by decide) (Bool.toNat_lt sa) rfl hw
  refine ⟨?_, lt, low⟩
  rw [major51 f1_6]
  simp [decodeVb, bits_of b7_7, bits_of b14_7, bits_of b21_7, f28_3, bitOf_of t31_1]

theorem vor (sa : Bool) (b : BitVec 7) (a : BitVec 7) (d : BitVec 7) : Statement (.vor sa b a d) := by
  refine word rfl (fun wf w hw => ?_)
  obtain ⟨b7_7, b14_7, b21_7, f1_6, f28_3, t31_1, lt, low⟩ := fields1 (k0 := 1) (k1 := 51) (k28 := 1) (by decide) (by decide) d.isLt a.isLt b.isLt (by decide) (Bool.toNat_lt sa) rfl hw
  refine ⟨?_, lt, low⟩
  rw [major51 f1_6]
  simp [decodeVb, bits_of b7_7, bits_of b14_7, bits_of b21_7, f28_3, bitOf_of t31_1]

theorem vxor (sa : Bool) (b : BitVec 7) (a : BitVec 7) (d : BitVec 7) : Statement (.vxor sa b a d) := by
  refine word rfl (fun wf w hw => ?_)
  obtain ⟨b7_7, b14_7, b21_7, f1_6, f28_3, t31_1, lt, low⟩ := fields1 (k0 := 1) (k1 := 51) (k28 := 2) (by decide) (by decide) d.isLt a.isLt b.isLt (by decide) (Bool.toNat_lt sa) rfl hw
  refine ⟨?_, lt, low⟩
  rw [major51 f1_6]
  simp [decodeVb, bits_of b7_7, bits_of b14_7, bits_of b21_7, f28_3, bitOf_of t31_1]

theorem vshl (sa : Bool) (b : BitVec 7) (a : BitVec 7) (d : BitVec 7) : Statement (.vshl sa b a d) := by
  refine word rfl (fun wf w hw => ?_)
  obtain ⟨b7_7, b14_7, b21_7, f1_6, f28_3, t31_1, lt, low⟩ := fields1 (k0 := 1) (k1 := 51) (k28 := 3) (by decide) (by decide) d.isLt a.isLt b.isLt (by decide) (Bool.toNat_lt sa) rfl hw
  refine ⟨?_, lt, low⟩
  rw [major51 f1_6]
  simp [decodeVb, bits_of b7_7, bits_of b14_7, bits_of b21_7, f28_3, bitOf_of t31_1]

theorem vsrl (sa : Bool) (b : BitVec 7) (a : BitVec 7) (d : BitVec 7) : Statement (.vsrl sa b a d) := by
  refine word rfl (fun wf w hw => ?_)
  obtain ⟨b7_7, b14_7, b21_7, f1_6, f28_3, t31_1, lt, low⟩ := fields1 (k0 := 1) (k1 := 51) (k28 := 4) (by decide) (by decide) d.isLt a.isLt b.isLt (by decide) (Bool.toNat_lt sa) rfl hw
  refine ⟨?_, lt, low⟩
  rw [major51 f1_6]
  simp [decodeVb, bits_of b7_7, bits_of b14_7, bits_of b21_7, f28_3, bitOf_of t31_1]

theorem vsra (sa : Bool) (b : BitVec 7) (a : BitVec 7) (d : BitVec 7) : Statement (.vsra sa b a d) := by
  refine word rfl (fun wf w hw => ?_)
  obtain ⟨b7_7, b14_7, b21_7, f1_6, f28_3, t31_1, lt, low⟩ := fields1 (k0 := 1) (k1 := 51) (k28 := 5) (by decide) (by decide) d.isLt a.isLt b.isLt (by decide) (Bool.toNat_lt sa) rfl hw
  refine ⟨?_, lt, low⟩
  rw [major51 f1_6]
  simp [decodeVb, bits_of b7_7, bits_of b14_7, bits_of b21_7, f28_3, bitOf_of t31_1]

theorem vsel (sa : Bool) (b : BitVec 7) (a : BitVec 7) (d : BitVec 7) : Statement (.vsel sa b a d) := by
  refine word rfl (fun wf w hw => ?_)
  obtain ⟨b7_7, b14_7, b21_7, f1_6, f28_3, t31_1, lt, low⟩ := fields1 (k0 := 1) (k1 := 51) (k28 := 6) (by decide) (by decide) d.isLt a.isLt b.isLt (by decide) (Bool.toNat_lt sa) rfl hw
  refine ⟨?_, lt, low⟩
  rw [major51 f1_6]
  simp [decodeVb, bits_of b7_7, bits_of b14_7, bits_of b21_7, f28_3, bitOf_of t31_1]

theorem vrelu (sa : Bool) (a : BitVec 7) (d : BitVec 7) : Statement (.vrelu sa a d) := by
  refine word rfl (fun wf w hw => ?_)
  obtain ⟨b7_7, b14_7, f1_6, f21_7, f28_3, t31_1, lt, low⟩ := fields2 (k0 := 1) (k1 := 51) (k21 := 0) (k28 := 7) (by decide) (by decide) d.isLt a.isLt (by decide) (by decide) (Bool.toNat_lt sa) rfl hw
  refine ⟨?_, lt, low⟩
  rw [major51 f1_6]
  simp [decodeVb, bits_of b7_7, bits_of b14_7, f21_7, f28_3, bitOf_of t31_1]

theorem vmov (s : BitVec 5) (d : BitVec 6) : Statement (.vmov s d) := by
  refine half ⟨rfl, rfl⟩ (fun wf w hw => ?_)
  obtain ⟨b5_6, b11_5, f1_4, f5_11, lt, low⟩ := fields22 (k0 := 0) (k1 := 0) (by decide) (by decide) d.isLt s.isLt rfl hw
  refine ⟨?_, lt, low⟩
  simp [Instr.wellFormed, ← BitVec.toNat_inj] at wf
  simp [decodeHalf, bits_of b5_6, bits_of b11_5, f1_4, f5_11] <;> omega

theorem vaddC16 (s : BitVec 5) (d : BitVec 6) : Statement (.vaddC16 s d) := by
  refine half ⟨rfl, rfl⟩ (fun wf w hw => ?_)
  obtain ⟨b5_6, b11_5, f1_4, lt, low⟩ := fields23 (k0 := 0) (k1 := 1) (by decide) (by decide) d.isLt s.isLt rfl hw
  refine ⟨?_, lt, low⟩
  simp [decodeHalf, bits_of b5_6, bits_of b11_5, f1_4]

theorem vsubC16 (s : BitVec 5) (d : BitVec 6) : Statement (.vsubC16 s d) := by
  refine half ⟨rfl, rfl⟩ (fun wf w hw => ?_)
  obtain ⟨b5_6, b11_5, f1_4, lt, low⟩ := fields23 (k0 := 0) (k1 := 2) (by decide) (by decide) d.isLt s.isLt rfl hw
  refine ⟨?_, lt, low⟩
  simp [decodeHalf, bits_of b5_6, bits_of b11_5, f1_4]

theorem vmulC16 (s : BitVec 5) (d : BitVec 6) : Statement (.vmulC16 s d) := by
  refine half ⟨rfl, rfl⟩ (fun wf w hw => ?_)
  obtain ⟨b5_6, b11_5, f1_4, lt, low⟩ := fields23 (k0 := 0) (k1 := 3) (by decide) (by decide) d.isLt s.isLt rfl hw
  refine ⟨?_, lt, low⟩
  simp [decodeHalf, bits_of b5_6, bits_of b11_5, f1_4]

theorem vminC16 (s : BitVec 5) (d : BitVec 6) : Statement (.vminC16 s d) := by
  refine half ⟨rfl, rfl⟩ (fun wf w hw => ?_)
  obtain ⟨b5_6, b11_5, f1_4, lt, low⟩ := fields23 (k0 := 0) (k1 := 4) (by decide) (by decide) d.isLt s.isLt rfl hw
  refine ⟨?_, lt, low⟩
  simp [decodeHalf, bits_of b5_6, bits_of b11_5, f1_4]

theorem vmaxC16 (s : BitVec 5) (d : BitVec 6) : Statement (.vmaxC16 s d) := by
  refine half ⟨rfl, rfl⟩ (fun wf w hw => ?_)
  obtain ⟨b5_6, b11_5, f1_4, lt, low⟩ := fields23 (k0 := 0) (k1 := 5) (by decide) (by decide) d.isLt s.isLt rfl hw
  refine ⟨?_, lt, low⟩
  simp [decodeHalf, bits_of b5_6, bits_of b11_5, f1_4]

theorem vandC16 (s : BitVec 5) (d : BitVec 6) : Statement (.vandC16 s d) := by
  refine half ⟨rfl, rfl⟩ (fun wf w hw => ?_)
  obtain ⟨b5_6, b11_5, f1_4, lt, low⟩ := fields23 (k0 := 0) (k1 := 6) (by decide) (by decide) d.isLt s.isLt rfl hw
  refine ⟨?_, lt, low⟩
  simp [decodeHalf, bits_of b5_6, bits_of b11_5, f1_4]

theorem vorC16 (s : BitVec 5) (d : BitVec 6) : Statement (.vorC16 s d) := by
  refine half ⟨rfl, rfl⟩ (fun wf w hw => ?_)
  obtain ⟨b5_6, b11_5, f1_4, lt, low⟩ := fields23 (k0 := 0) (k1 := 7) (by decide) (by decide) d.isLt s.isLt rfl hw
  refine ⟨?_, lt, low⟩
  simp [decodeHalf, bits_of b5_6, bits_of b11_5, f1_4]

theorem vxorC16 (s : BitVec 5) (d : BitVec 6) : Statement (.vxorC16 s d) := by
  refine half ⟨rfl, rfl⟩ (fun wf w hw => ?_)
  obtain ⟨b5_6, b11_5, f1_4, lt, low⟩ := fields23 (k0 := 0) (k1 := 8) (by decide) (by decide) d.isLt s.isLt rfl hw
  refine ⟨?_, lt, low⟩
  simp [decodeHalf, bits_of b5_6, bits_of b11_5, f1_4]

theorem vshlC16 (s : BitVec 5) (d : BitVec 6) : Statement (.vshlC16 s d) := by
  refine half ⟨rfl, rfl⟩ (fun wf w hw => ?_)
  obtain ⟨b5_6, b11_5, f1_4, lt, low⟩ := fields23 (k0 := 0) (k1 := 9) (by decide) (by decide) d.isLt s.isLt rfl hw
  refine ⟨?_, lt, low⟩
  simp [decodeHalf, bits_of b5_6, bits_of b11_5, f1_4]

theorem vsrlC16 (s : BitVec 5) (d : BitVec 6) : Statement (.vsrlC16 s d) := by
  refine half ⟨rfl, rfl⟩ (fun wf w hw => ?_)
  obtain ⟨b5_6, b11_5, f1_4, lt, low⟩ := fields23 (k0 := 0) (k1 := 10) (by decide) (by decide) d.isLt s.isLt rfl hw
  refine ⟨?_, lt, low⟩
  simp [decodeHalf, bits_of b5_6, bits_of b11_5, f1_4]

theorem vsraC16 (s : BitVec 5) (d : BitVec 6) : Statement (.vsraC16 s d) := by
  refine half ⟨rfl, rfl⟩ (fun wf w hw => ?_)
  obtain ⟨b5_6, b11_5, f1_4, lt, low⟩ := fields23 (k0 := 0) (k1 := 11) (by decide) (by decide) d.isLt s.isLt rfl hw
  refine ⟨?_, lt, low⟩
  simp [decodeHalf, bits_of b5_6, bits_of b11_5, f1_4]

theorem vneg (s : BitVec 5) (d : BitVec 6) : Statement (.vneg s d) := by
  refine half ⟨rfl, rfl⟩ (fun wf w hw => ?_)
  obtain ⟨b5_6, b11_5, f1_4, lt, low⟩ := fields23 (k0 := 0) (k1 := 12) (by decide) (by decide) d.isLt s.isLt rfl hw
  refine ⟨?_, lt, low⟩
  simp [decodeHalf, bits_of b5_6, bits_of b11_5, f1_4]

theorem vabs (s : BitVec 5) (d : BitVec 6) : Statement (.vabs s d) := by
  refine half ⟨rfl, rfl⟩ (fun wf w hw => ?_)
  obtain ⟨b5_6, b11_5, f1_4, lt, low⟩ := fields23 (k0 := 0) (k1 := 13) (by decide) (by decide) d.isLt s.isLt rfl hw
  refine ⟨?_, lt, low⟩
  simp [decodeHalf, bits_of b5_6, bits_of b11_5, f1_4]

theorem vreluC16 (s : BitVec 5) (d : BitVec 6) : Statement (.vreluC16 s d) := by
  refine half ⟨rfl, rfl⟩ (fun wf w hw => ?_)
  obtain ⟨b5_6, b11_5, f1_4, lt, low⟩ := fields23 (k0 := 0) (k1 := 14) (by decide) (by decide) d.isLt s.isLt rfl hw
  refine ⟨?_, lt, low⟩
  simp [decodeHalf, bits_of b5_6, bits_of b11_5, f1_4]

theorem vswap (s : BitVec 5) (d : BitVec 6) : Statement (.vswap s d) := by
  refine half ⟨rfl, rfl⟩ (fun wf w hw => ?_)
  obtain ⟨b5_6, b11_5, f1_4, lt, low⟩ := fields23 (k0 := 0) (k1 := 15) (by decide) (by decide) d.isLt s.isLt rfl hw
  refine ⟨?_, lt, low⟩
  simp [decodeHalf, bits_of b5_6, bits_of b11_5, f1_4]

theorem vceq (sa : Bool) (b : BitVec 7) (a : BitVec 7) (d : BitVec 3) : Statement (.vceq sa b a d) := by
  refine word rfl (fun wf w hw => ?_)
  obtain ⟨b7_3, b14_7, b21_7, f1_6, f7_7, f28_3, t31_1, lt, low⟩ := fields24 (k0 := 1) (k1 := 52) (k10 := 0) (k28 := 0) (by decide) (by decide) d.isLt (by decide) a.isLt b.isLt (by decide) (Bool.toNat_lt sa) rfl hw
  refine ⟨?_, lt, low⟩
  rw [major52 f1_6]
  simp [decodeVc, bits_of b7_3, bits_of b14_7, bits_of b21_7, f7_7, f28_3, bitOf_of t31_1] <;> omega

theorem vcne (sa : Bool) (b : BitVec 7) (a : BitVec 7) (d : BitVec 3) : Statement (.vcne sa b a d) := by
  refine word rfl (fun wf w hw => ?_)
  obtain ⟨b7_3, b14_7, b21_7, f1_6, f7_7, f28_3, t31_1, lt, low⟩ := fields24 (k0 := 1) (k1 := 52) (k10 := 0) (k28 := 1) (by decide) (by decide) d.isLt (by decide) a.isLt b.isLt (by decide) (Bool.toNat_lt sa) rfl hw
  refine ⟨?_, lt, low⟩
  rw [major52 f1_6]
  simp [decodeVc, bits_of b7_3, bits_of b14_7, bits_of b21_7, f7_7, f28_3, bitOf_of t31_1] <;> omega

theorem vclt (sa : Bool) (b : BitVec 7) (a : BitVec 7) (d : BitVec 3) : Statement (.vclt sa b a d) := by
  refine word rfl (fun wf w hw => ?_)
  obtain ⟨b7_3, b14_7, b21_7, f1_6, f7_7, f28_3, t31_1, lt, low⟩ := fields24 (k0 := 1) (k1 := 52) (k10 := 0) (k28 := 2) (by decide) (by decide) d.isLt (by decide) a.isLt b.isLt (by decide) (Bool.toNat_lt sa) rfl hw
  refine ⟨?_, lt, low⟩
  rw [major52 f1_6]
  simp [decodeVc, bits_of b7_3, bits_of b14_7, bits_of b21_7, f7_7, f28_3, bitOf_of t31_1] <;> omega

theorem vcle (sa : Bool) (b : BitVec 7) (a : BitVec 7) (d : BitVec 3) : Statement (.vcle sa b a d) := by
  refine word rfl (fun wf w hw => ?_)
  obtain ⟨b7_3, b14_7, b21_7, f1_6, f7_7, f28_3, t31_1, lt, low⟩ := fields24 (k0 := 1) (k1 := 52) (k10 := 0) (k28 := 3) (by decide) (by decide) d.isLt (by decide) a.isLt b.isLt (by decide) (Bool.toNat_lt sa) rfl hw
  refine ⟨?_, lt, low⟩
  rw [major52 f1_6]
  simp [decodeVc, bits_of b7_3, bits_of b14_7, bits_of b21_7, f7_7, f28_3, bitOf_of t31_1] <;> omega

theorem kand (b : BitVec 3) (a : BitVec 3) (d : BitVec 3) : Statement (.kand b a d) := by
  refine word rfl (fun wf w hw => ?_)
  obtain ⟨b7_3, b14_3, b21_3, f1_6, f7_7, f14_7, f21_7, f28_3, f31_1, lt, low⟩ := fields25 (k0 := 1) (k1 := 52) (k10 := 0) (k17 := 0) (k24 := 0) (k28 := 4) (k31 := 0) (by decide) (by decide) d.isLt (by decide) a.isLt (by decide) b.isLt (by decide) (by decide) (by decide) rfl hw
  refine ⟨?_, lt, low⟩
  rw [major52 f1_6]
  simp [decodeVc, bits_of b7_3, bits_of b14_3, bits_of b21_3, f7_7, f14_7, f21_7, f28_3, f31_1] <;> omega

theorem kor (b : BitVec 3) (a : BitVec 3) (d : BitVec 3) : Statement (.kor b a d) := by
  refine word rfl (fun wf w hw => ?_)
  obtain ⟨b7_3, b14_3, b21_3, f1_6, f7_7, f14_7, f21_7, f28_3, f31_1, lt, low⟩ := fields25 (k0 := 1) (k1 := 52) (k10 := 0) (k17 := 0) (k24 := 0) (k28 := 5) (k31 := 0) (by decide) (by decide) d.isLt (by decide) a.isLt (by decide) b.isLt (by decide) (by decide) (by decide) rfl hw
  refine ⟨?_, lt, low⟩
  rw [major52 f1_6]
  simp [decodeVc, bits_of b7_3, bits_of b14_3, bits_of b21_3, f7_7, f14_7, f21_7, f28_3, f31_1] <;> omega

theorem knot (a : BitVec 3) (d : BitVec 3) : Statement (.knot a d) := by
  refine word rfl (fun wf w hw => ?_)
  obtain ⟨b7_3, b14_3, f1_6, f7_7, f14_7, f21_7, f28_3, f31_1, lt, low⟩ := fields26 (k0 := 1) (k1 := 52) (k10 := 0) (k17 := 0) (k21 := 0) (k28 := 6) (k31 := 0) (by decide) (by decide) d.isLt (by decide) a.isLt (by decide) (by decide) (by decide) (by decide) rfl hw
  refine ⟨?_, lt, low⟩
  rw [major52 f1_6]
  simp [decodeVc, bits_of b7_3, bits_of b14_3, f7_7, f14_7, f21_7, f28_3, f31_1] <;> omega

theorem vcvtRne (sa : Bool) (tag : BitVec 4) (a : BitVec 7) (d : BitVec 7) : Statement (.vcvtRne sa tag a d) := by
  refine word rfl (fun wf w hw => ?_)
  obtain ⟨b7_7, b14_7, b21_4, f1_6, f25_3, f28_3, t31_1, lt, low⟩ := fields27 (k0 := 1) (k1 := 53) (k25 := 0) (k28 := 0) (by decide) (by decide) d.isLt a.isLt tag.isLt (by decide) (by decide) (Bool.toNat_lt sa) rfl hw
  refine ⟨?_, lt, low⟩
  rw [major53 f1_6]
  simp [decodeVcvt, bits_of b7_7, bits_of b14_7, bits_of b21_4, f25_3, f28_3, bitOf_of t31_1]

theorem vcvtRtz (sa : Bool) (tag : BitVec 4) (a : BitVec 7) (d : BitVec 7) : Statement (.vcvtRtz sa tag a d) := by
  refine word rfl (fun wf w hw => ?_)
  obtain ⟨b7_7, b14_7, b21_4, f1_6, f25_3, f28_3, t31_1, lt, low⟩ := fields27 (k0 := 1) (k1 := 53) (k25 := 0) (k28 := 1) (by decide) (by decide) d.isLt a.isLt tag.isLt (by decide) (by decide) (Bool.toNat_lt sa) rfl hw
  refine ⟨?_, lt, low⟩
  rw [major53 f1_6]
  simp [decodeVcvt, bits_of b7_7, bits_of b14_7, bits_of b21_4, f25_3, f28_3, bitOf_of t31_1]

theorem vcvtRdn (sa : Bool) (tag : BitVec 4) (a : BitVec 7) (d : BitVec 7) : Statement (.vcvtRdn sa tag a d) := by
  refine word rfl (fun wf w hw => ?_)
  obtain ⟨b7_7, b14_7, b21_4, f1_6, f25_3, f28_3, t31_1, lt, low⟩ := fields27 (k0 := 1) (k1 := 53) (k25 := 0) (k28 := 2) (by decide) (by decide) d.isLt a.isLt tag.isLt (by decide) (by decide) (Bool.toNat_lt sa) rfl hw
  refine ⟨?_, lt, low⟩
  rw [major53 f1_6]
  simp [decodeVcvt, bits_of b7_7, bits_of b14_7, bits_of b21_4, f25_3, f28_3, bitOf_of t31_1]

theorem vcvtRup (sa : Bool) (tag : BitVec 4) (a : BitVec 7) (d : BitVec 7) : Statement (.vcvtRup sa tag a d) := by
  refine word rfl (fun wf w hw => ?_)
  obtain ⟨b7_7, b14_7, b21_4, f1_6, f25_3, f28_3, t31_1, lt, low⟩ := fields27 (k0 := 1) (k1 := 53) (k25 := 0) (k28 := 3) (by decide) (by decide) d.isLt a.isLt tag.isLt (by decide) (by decide) (Bool.toNat_lt sa) rfl hw
  refine ⟨?_, lt, low⟩
  rw [major53 f1_6]
  simp [decodeVcvt, bits_of b7_7, bits_of b14_7, bits_of b21_4, f25_3, f28_3, bitOf_of t31_1]

theorem vcvtSr (sa : Bool) (tag : BitVec 4) (a : BitVec 7) (d : BitVec 7) : Statement (.vcvtSr sa tag a d) := by
  refine word rfl (fun wf w hw => ?_)
  obtain ⟨b7_7, b14_7, b21_4, f1_6, f25_3, f28_3, t31_1, lt, low⟩ := fields27 (k0 := 1) (k1 := 53) (k25 := 0) (k28 := 4) (by decide) (by decide) d.isLt a.isLt tag.isLt (by decide) (by decide) (Bool.toNat_lt sa) rfl hw
  refine ⟨?_, lt, low⟩
  rw [major53 f1_6]
  simp [decodeVcvt, bits_of b7_7, bits_of b14_7, bits_of b21_4, f25_3, f28_3, bitOf_of t31_1]

theorem vcvtSatrne (sa : Bool) (tag : BitVec 4) (a : BitVec 7) (d : BitVec 7) : Statement (.vcvtSatrne sa tag a d) := by
  refine word rfl (fun wf w hw => ?_)
  obtain ⟨b7_7, b14_7, b21_4, f1_6, f25_3, f28_3, t31_1, lt, low⟩ := fields27 (k0 := 1) (k1 := 53) (k25 := 0) (k28 := 5) (by decide) (by decide) d.isLt a.isLt tag.isLt (by decide) (by decide) (Bool.toNat_lt sa) rfl hw
  refine ⟨?_, lt, low⟩
  rw [major53 f1_6]
  simp [decodeVcvt, bits_of b7_7, bits_of b14_7, bits_of b21_4, f25_3, f28_3, bitOf_of t31_1]

theorem vexp2 (sa : Bool) (a : BitVec 7) (d : BitVec 7) : Statement (.vexp2 sa a d) := by
  refine word rfl (fun wf w hw => ?_)
  obtain ⟨b7_7, b14_7, f1_6, f21_7, f28_3, t31_1, lt, low⟩ := fields2 (k0 := 1) (k1 := 54) (k21 := 0) (k28 := 0) (by decide) (by decide) d.isLt a.isLt (by decide) (by decide) (Bool.toNat_lt sa) rfl hw
  refine ⟨?_, lt, low⟩
  rw [major54 f1_6]
  simp [decodeVfn, bits_of b7_7, bits_of b14_7, f21_7, f28_3, bitOf_of t31_1]

theorem vlog2 (sa : Bool) (a : BitVec 7) (d : BitVec 7) : Statement (.vlog2 sa a d) := by
  refine word rfl (fun wf w hw => ?_)
  obtain ⟨b7_7, b14_7, f1_6, f21_7, f28_3, t31_1, lt, low⟩ := fields2 (k0 := 1) (k1 := 54) (k21 := 0) (k28 := 1) (by decide) (by decide) d.isLt a.isLt (by decide) (by decide) (Bool.toNat_lt sa) rfl hw
  refine ⟨?_, lt, low⟩
  rw [major54 f1_6]
  simp [decodeVfn, bits_of b7_7, bits_of b14_7, f21_7, f28_3, bitOf_of t31_1]

theorem vrcp (sa : Bool) (a : BitVec 7) (d : BitVec 7) : Statement (.vrcp sa a d) := by
  refine word rfl (fun wf w hw => ?_)
  obtain ⟨b7_7, b14_7, f1_6, f21_7, f28_3, t31_1, lt, low⟩ := fields2 (k0 := 1) (k1 := 54) (k21 := 0) (k28 := 2) (by decide) (by decide) d.isLt a.isLt (by decide) (by decide) (Bool.toNat_lt sa) rfl hw
  refine ⟨?_, lt, low⟩
  rw [major54 f1_6]
  simp [decodeVfn, bits_of b7_7, bits_of b14_7, f21_7, f28_3, bitOf_of t31_1]

theorem vrsq (sa : Bool) (a : BitVec 7) (d : BitVec 7) : Statement (.vrsq sa a d) := by
  refine word rfl (fun wf w hw => ?_)
  obtain ⟨b7_7, b14_7, f1_6, f21_7, f28_3, t31_1, lt, low⟩ := fields2 (k0 := 1) (k1 := 54) (k21 := 0) (k28 := 3) (by decide) (by decide) d.isLt a.isLt (by decide) (by decide) (Bool.toNat_lt sa) rfl hw
  refine ⟨?_, lt, low⟩
  rw [major54 f1_6]
  simp [decodeVfn, bits_of b7_7, bits_of b14_7, f21_7, f28_3, bitOf_of t31_1]

theorem vsqrt (sa : Bool) (a : BitVec 7) (d : BitVec 7) : Statement (.vsqrt sa a d) := by
  refine word rfl (fun wf w hw => ?_)
  obtain ⟨b7_7, b14_7, f1_6, f21_7, f28_3, t31_1, lt, low⟩ := fields2 (k0 := 1) (k1 := 54) (k21 := 0) (k28 := 4) (by decide) (by decide) d.isLt a.isLt (by decide) (by decide) (Bool.toNat_lt sa) rfl hw
  refine ⟨?_, lt, low⟩
  rw [major54 f1_6]
  simp [decodeVfn, bits_of b7_7, bits_of b14_7, f21_7, f28_3, bitOf_of t31_1]

theorem vtanh (sa : Bool) (a : BitVec 7) (d : BitVec 7) : Statement (.vtanh sa a d) := by
  refine word rfl (fun wf w hw => ?_)
  obtain ⟨b7_7, b14_7, f1_6, f21_7, f28_3, t31_1, lt, low⟩ := fields2 (k0 := 1) (k1 := 54) (k21 := 0) (k28 := 5) (by decide) (by decide) d.isLt a.isLt (by decide) (by decide) (Bool.toNat_lt sa) rfl hw
  refine ⟨?_, lt, low⟩
  rw [major54 f1_6]
  simp [decodeVfn, bits_of b7_7, bits_of b14_7, f21_7, f28_3, bitOf_of t31_1]

theorem vexp (sa : Bool) (a : BitVec 7) (d : BitVec 7) : Statement (.vexp sa a d) := by
  refine word rfl (fun wf w hw => ?_)
  obtain ⟨b7_7, b14_7, f1_6, f21_7, f28_3, t31_1, lt, low⟩ := fields2 (k0 := 1) (k1 := 54) (k21 := 0) (k28 := 6) (by decide) (by decide) d.isLt a.isLt (by decide) (by decide) (Bool.toNat_lt sa) rfl hw
  refine ⟨?_, lt, low⟩
  rw [major54 f1_6]
  simp [decodeVfn, bits_of b7_7, bits_of b14_7, f21_7, f28_3, bitOf_of t31_1]

theorem vsigm (sa : Bool) (a : BitVec 7) (d : BitVec 7) : Statement (.vsigm sa a d) := by
  refine word rfl (fun wf w hw => ?_)
  obtain ⟨b7_7, b14_7, f1_6, f21_7, f28_3, t31_1, lt, low⟩ := fields2 (k0 := 1) (k1 := 54) (k21 := 0) (k28 := 7) (by decide) (by decide) d.isLt a.isLt (by decide) (by decide) (Bool.toNat_lt sa) rfl hw
  refine ⟨?_, lt, low⟩
  rw [major54 f1_6]
  simp [decodeVfn, bits_of b7_7, bits_of b14_7, f21_7, f28_3, bitOf_of t31_1]

theorem vrsum (sa : Bool) (b : BitVec 3) (a : BitVec 7) (d : BitVec 7) : Statement (.vrsum sa b a d) := by
  refine word rfl (fun wf w hw => ?_)
  obtain ⟨b7_7, b14_7, b21_3, f1_6, f21_7, f28_3, t31_1, lt, low⟩ := fields28 (k0 := 1) (k1 := 55) (k24 := 0) (k28 := 0) (by decide) (by decide) d.isLt a.isLt b.isLt (by decide) (by decide) (Bool.toNat_lt sa) rfl hw
  refine ⟨?_, lt, low⟩
  rw [major55 f1_6]
  simp [decodeVred, bits_of b7_7, bits_of b14_7, bits_of b21_3, f21_7, f28_3, bitOf_of t31_1] <;> omega

theorem vrmax (sa : Bool) (b : BitVec 3) (a : BitVec 7) (d : BitVec 7) : Statement (.vrmax sa b a d) := by
  refine word rfl (fun wf w hw => ?_)
  obtain ⟨b7_7, b14_7, b21_3, f1_6, f21_7, f28_3, t31_1, lt, low⟩ := fields28 (k0 := 1) (k1 := 55) (k24 := 0) (k28 := 1) (by decide) (by decide) d.isLt a.isLt b.isLt (by decide) (by decide) (Bool.toNat_lt sa) rfl hw
  refine ⟨?_, lt, low⟩
  rw [major55 f1_6]
  simp [decodeVred, bits_of b7_7, bits_of b14_7, bits_of b21_3, f21_7, f28_3, bitOf_of t31_1] <;> omega

theorem vrmin (sa : Bool) (b : BitVec 3) (a : BitVec 7) (d : BitVec 7) : Statement (.vrmin sa b a d) := by
  refine word rfl (fun wf w hw => ?_)
  obtain ⟨b7_7, b14_7, b21_3, f1_6, f21_7, f28_3, t31_1, lt, low⟩ := fields28 (k0 := 1) (k1 := 55) (k24 := 0) (k28 := 2) (by decide) (by decide) d.isLt a.isLt b.isLt (by decide) (by decide) (Bool.toNat_lt sa) rfl hw
  refine ⟨?_, lt, low⟩
  rw [major55 f1_6]
  simp [decodeVred, bits_of b7_7, bits_of b14_7, bits_of b21_3, f21_7, f28_3, bitOf_of t31_1] <;> omega

theorem vramx (sa : Bool) (b : BitVec 3) (a : BitVec 7) (d : BitVec 7) : Statement (.vramx sa b a d) := by
  refine word rfl (fun wf w hw => ?_)
  obtain ⟨b7_7, b14_7, b21_3, f1_6, f21_7, f28_3, t31_1, lt, low⟩ := fields28 (k0 := 1) (k1 := 55) (k24 := 0) (k28 := 3) (by decide) (by decide) d.isLt a.isLt b.isLt (by decide) (by decide) (Bool.toNat_lt sa) rfl hw
  refine ⟨?_, lt, low⟩
  rw [major55 f1_6]
  simp [decodeVred, bits_of b7_7, bits_of b14_7, bits_of b21_3, f21_7, f28_3, bitOf_of t31_1] <;> omega

theorem vscan (sa : Bool) (b : BitVec 3) (a : BitVec 7) (d : BitVec 7) : Statement (.vscan sa b a d) := by
  refine word rfl (fun wf w hw => ?_)
  obtain ⟨b7_7, b14_7, b21_3, f1_6, f21_7, f28_3, t31_1, lt, low⟩ := fields28 (k0 := 1) (k1 := 55) (k24 := 0) (k28 := 4) (by decide) (by decide) d.isLt a.isLt b.isLt (by decide) (by decide) (Bool.toNat_lt sa) rfl hw
  refine ⟨?_, lt, low⟩
  rw [major55 f1_6]
  simp [decodeVred, bits_of b7_7, bits_of b14_7, bits_of b21_3, f21_7, f28_3, bitOf_of t31_1] <;> omega

theorem vperm (sa : Bool) (b : BitVec 7) (a : BitVec 7) (d : BitVec 7) : Statement (.vperm sa b a d) := by
  refine word rfl (fun wf w hw => ?_)
  obtain ⟨b7_7, b14_7, b21_7, f1_6, f28_3, t31_1, lt, low⟩ := fields1 (k0 := 1) (k1 := 55) (k28 := 5) (by decide) (by decide) d.isLt a.isLt b.isLt (by decide) (Bool.toNat_lt sa) rfl hw
  refine ⟨?_, lt, low⟩
  rw [major55 f1_6]
  simp [decodeVred, bits_of b7_7, bits_of b14_7, bits_of b21_7, f28_3, bitOf_of t31_1]

theorem vsort (sa : Bool) (b : BitVec 3) (a : BitVec 7) (d : BitVec 7) : Statement (.vsort sa b a d) := by
  refine word rfl (fun wf w hw => ?_)
  obtain ⟨b7_7, b14_7, b21_3, f1_6, f21_7, f28_3, t31_1, lt, low⟩ := fields28 (k0 := 1) (k1 := 55) (k24 := 0) (k28 := 6) (by decide) (by decide) d.isLt a.isLt b.isLt (by decide) (by decide) (Bool.toNat_lt sa) rfl hw
  refine ⟨?_, lt, low⟩
  rw [major55 f1_6]
  simp [decodeVred, bits_of b7_7, bits_of b14_7, bits_of b21_3, f21_7, f28_3, bitOf_of t31_1] <;> omega

theorem vsplat (sa : Bool) (tag : BitVec 4) (a : BitVec 7) (d : BitVec 7) : Statement (.vsplat sa tag a d) := by
  refine word rfl (fun wf w hw => ?_)
  obtain ⟨b7_7, b14_7, b21_4, f1_6, f25_3, f28_3, t31_1, lt, low⟩ := fields27 (k0 := 1) (k1 := 56) (k25 := 0) (k28 := 0) (by decide) (by decide) d.isLt a.isLt tag.isLt (by decide) (by decide) (Bool.toNat_lt sa) rfl hw
  refine ⟨?_, lt, low⟩
  rw [major56 f1_6]
  simp [decodeVm, bits_of b7_7, bits_of b14_7, bits_of b21_4, f25_3, f28_3, bitOf_of t31_1]

theorem vins (sa : Bool) (b : BitVec 7) (a : BitVec 7) (d : BitVec 7) : Statement (.vins sa b a d) := by
  refine word rfl (fun wf w hw => ?_)
  obtain ⟨b7_7, b14_7, b21_7, f1_6, f28_3, t31_1, lt, low⟩ := fields1 (k0 := 1) (k1 := 56) (k28 := 1) (by decide) (by decide) d.isLt a.isLt b.isLt (by decide) (Bool.toNat_lt sa) rfl hw
  refine ⟨?_, lt, low⟩
  rw [major56 f1_6]
  simp [decodeVm, bits_of b7_7, bits_of b14_7, bits_of b21_7, f28_3, bitOf_of t31_1]

theorem vext (sa : Bool) (b : BitVec 7) (a : BitVec 7) (d : BitVec 7) : Statement (.vext sa b a d) := by
  refine word rfl (fun wf w hw => ?_)
  obtain ⟨b7_7, b14_7, b21_7, f1_6, f28_3, t31_1, lt, low⟩ := fields1 (k0 := 1) (k1 := 56) (k28 := 2) (by decide) (by decide) d.isLt a.isLt b.isLt (by decide) (Bool.toNat_lt sa) rfl hw
  refine ⟨?_, lt, low⟩
  rw [major56 f1_6]
  simp [decodeVm, bits_of b7_7, bits_of b14_7, bits_of b21_7, f28_3, bitOf_of t31_1]

theorem vidx (sa : Bool) (tag : BitVec 4) (a : BitVec 7) (d : BitVec 7) : Statement (.vidx sa tag a d) := by
  refine word rfl (fun wf w hw => ?_)
  obtain ⟨b7_7, b14_7, b21_4, f1_6, f25_3, f28_3, t31_1, lt, low⟩ := fields27 (k0 := 1) (k1 := 56) (k25 := 0) (k28 := 3) (by decide) (by decide) d.isLt a.isLt tag.isLt (by decide) (by decide) (Bool.toNat_lt sa) rfl hw
  refine ⟨?_, lt, low⟩
  rw [major56 f1_6]
  simp [decodeVm, bits_of b7_7, bits_of b14_7, bits_of b21_4, f25_3, f28_3, bitOf_of t31_1]

theorem vtag (sa : Bool) (tag : BitVec 4) (a : BitVec 7) (d : BitVec 7) : Statement (.vtag sa tag a d) := by
  refine word rfl (fun wf w hw => ?_)
  obtain ⟨b7_7, b14_7, b21_4, f1_6, f25_3, f28_3, t31_1, lt, low⟩ := fields27 (k0 := 1) (k1 := 56) (k25 := 0) (k28 := 4) (by decide) (by decide) d.isLt a.isLt tag.isLt (by decide) (by decide) (Bool.toNat_lt sa) rfl hw
  refine ⟨?_, lt, low⟩
  rw [major56 f1_6]
  simp [decodeVm, bits_of b7_7, bits_of b14_7, bits_of b21_4, f25_3, f28_3, bitOf_of t31_1]

theorem vqnt (sa : Bool) (tag : BitVec 4) (a : BitVec 7) (d : BitVec 7) : Statement (.vqnt sa tag a d) := by
  refine word rfl (fun wf w hw => ?_)
  obtain ⟨b7_7, b14_7, b21_4, f1_6, f25_3, f28_3, t31_1, lt, low⟩ := fields27 (k0 := 1) (k1 := 56) (k25 := 0) (k28 := 5) (by decide) (by decide) d.isLt a.isLt tag.isLt (by decide) (by decide) (Bool.toNat_lt sa) rfl hw
  refine ⟨?_, lt, low⟩
  rw [major56 f1_6]
  simp [decodeVm, bits_of b7_7, bits_of b14_7, bits_of b21_4, f25_3, f28_3, bitOf_of t31_1]

theorem kpop (a : BitVec 3) (d : BitVec 7) : Statement (.kpop a d) := by
  refine word rfl (fun wf w hw => ?_)
  obtain ⟨b7_7, b14_3, f1_6, f14_7, f21_7, f28_3, f31_1, lt, low⟩ := fields29 (k0 := 1) (k1 := 56) (k17 := 0) (k21 := 0) (k28 := 6) (k31 := 0) (by decide) (by decide) d.isLt a.isLt (by decide) (by decide) (by decide) (by decide) rfl hw
  refine ⟨?_, lt, low⟩
  rw [major56 f1_6]
  simp [decodeVm, bits_of b7_7, bits_of b14_3, f14_7, f21_7, f28_3, f31_1] <;> omega

theorem kmovToMask (sa : Bool) (a : BitVec 7) (d : BitVec 3) : Statement (.kmovToMask sa a d) := by
  refine word rfl (fun wf w hw => ?_)
  obtain ⟨b7_3, b14_7, f1_6, f7_7, f14_7, f21_7, f28_3, f31_1, t31_1, lt, low⟩ := fields30 (k0 := 1) (k1 := 56) (k10 := 0) (k21 := 0) (k28 := 7) (by decide) (by decide) d.isLt (by decide) a.isLt (by decide) (by decide) (Bool.toNat_lt sa) rfl hw
  refine ⟨?_, lt, low⟩
  rw [major56 f1_6]
  simp [decodeVm, bits_of b7_3, bits_of b14_7, f7_7, f14_7, f21_7, f28_3, f31_1, bitOf_of t31_1] <;> omega

theorem kmovFromMask (a : BitVec 3) (d : BitVec 7) : Statement (.kmovFromMask a d) := by
  refine word rfl (fun wf w hw => ?_)
  obtain ⟨b7_7, b14_3, f1_6, f7_7, f14_7, f21_7, f28_3, f31_1, lt, low⟩ := fields31 (k0 := 1) (k1 := 56) (k17 := 0) (k21 := 1) (k28 := 7) (k31 := 0) (by decide) (by decide) d.isLt a.isLt (by decide) (by decide) (by decide) (by decide) rfl hw
  refine ⟨?_, lt, low⟩
  rw [major56 f1_6]
  simp [decodeVm, bits_of b7_7, bits_of b14_3, f7_7, f14_7, f21_7, f28_3, f31_1] <;> omega

theorem mma (b : BitVec 4) (a : BitVec 4) (d : BitVec 2) : Statement (.mma b a d) := by
  refine word rfl (fun wf w hw => ?_)
  obtain ⟨b7_2, b14_4, b21_4, f1_6, f7_7, f14_7, f21_7, f28_3, f31_1, lt, low⟩ := fields32 (k0 := 1) (k1 := 57) (k9 := 0) (k18 := 0) (k25 := 0) (k28 := 0) (k31 := 0) (by decide) (by decide) d.isLt (by decide) a.isLt (by decide) b.isLt (by decide) (by decide) (by decide) rfl hw
  refine ⟨?_, lt, low⟩
  rw [major57 f1_6]
  simp [decodeMtx, bits_of b7_2, bits_of b14_4, bits_of b21_4, f7_7, f14_7, f21_7, f28_3, f31_1] <;> omega

theorem mmz (b : BitVec 4) (a : BitVec 4) (d : BitVec 2) : Statement (.mmz b a d) := by
  refine word rfl (fun wf w hw => ?_)
  obtain ⟨b7_2, b14_4, b21_4, f1_6, f7_7, f14_7, f21_7, f28_3, f31_1, lt, low⟩ := fields32 (k0 := 1) (k1 := 57) (k9 := 0) (k18 := 0) (k25 := 0) (k28 := 1) (k31 := 0) (by decide) (by decide) d.isLt (by decide) a.isLt (by decide) b.isLt (by decide) (by decide) (by decide) rfl hw
  refine ⟨?_, lt, low⟩
  rw [major57 f1_6]
  simp [decodeMtx, bits_of b7_2, bits_of b14_4, bits_of b21_4, f7_7, f14_7, f21_7, f28_3, f31_1] <;> omega

theorem aread (b : BitVec 7) (a : BitVec 2) (d : BitVec 7) : Statement (.aread b a d) := by
  refine word rfl (fun wf w hw => ?_)
  obtain ⟨b7_7, b14_2, b21_7, f1_6, f14_7, f28_3, f31_1, lt, low⟩ := fields33 (k0 := 1) (k1 := 57) (k16 := 0) (k28 := 2) (k31 := 0) (by decide) (by decide) d.isLt a.isLt (by decide) b.isLt (by decide) (by decide) rfl hw
  refine ⟨?_, lt, low⟩
  rw [major57 f1_6]
  simp [decodeMtx, bits_of b7_7, bits_of b14_2, bits_of b21_7, f14_7, f28_3, f31_1] <;> omega

theorem azero (d : BitVec 2) : Statement (.azero d) := by
  refine word rfl (fun wf w hw => ?_)
  obtain ⟨b7_2, f1_6, f7_7, f14_14, f28_3, f31_1, lt, low⟩ := fields34 (k0 := 1) (k1 := 57) (k9 := 0) (k14 := 0) (k28 := 3) (k31 := 0) (by decide) (by decide) d.isLt (by decide) (by decide) (by decide) (by decide) rfl hw
  refine ⟨?_, lt, low⟩
  rw [major57 f1_6]
  simp [decodeMtx, bits_of b7_2, f7_7, f14_14, f28_3, f31_1] <;> omega

theorem oclm (dir : BitVec 3) (d : BitVec 4) : Statement (.oclm dir d) := by
  refine word rfl (fun wf w hw => ?_)
  obtain ⟨b7_4, b21_3, f1_6, f7_7, f14_7, f21_7, f28_3, f31_1, lt, low⟩ := fields35 (k0 := 1) (k1 := 57) (k11 := 0) (k14 := 0) (k24 := 0) (k28 := 4) (k31 := 0) (by decide) (by decide) d.isLt (by decide) (by decide) dir.isLt (by decide) (by decide) (by decide) rfl hw
  refine ⟨?_, lt, low⟩
  simp [Instr.wellFormed] at wf
  rw [major57 f1_6]
  simp [decodeMtx, bits_of b7_4, bits_of b21_3, f7_7, f14_7, f21_7, f28_3, f31_1] <;> omega

theorem orel (d : BitVec 4) : Statement (.orel d) := by
  refine word rfl (fun wf w hw => ?_)
  obtain ⟨b7_4, f1_6, f7_7, f14_14, f28_3, f31_1, lt, low⟩ := fields36 (k0 := 1) (k1 := 57) (k11 := 0) (k14 := 0) (k28 := 5) (k31 := 0) (by decide) (by decide) d.isLt (by decide) (by decide) (by decide) (by decide) rfl hw
  refine ⟨?_, lt, low⟩
  rw [major57 f1_6]
  simp [decodeMtx, bits_of b7_4, f7_7, f14_14, f28_3, f31_1] <;> omega

theorem ofill (sa : Bool) (b : BitVec 7) (a : BitVec 7) (d : BitVec 4) : Statement (.ofill sa b a d) := by
  refine word rfl (fun wf w hw => ?_)
  obtain ⟨b7_4, b14_7, b21_7, f1_6, f7_7, f28_3, t31_1, lt, low⟩ := fields37 (k0 := 1) (k1 := 57) (k11 := 0) (k28 := 6) (by decide) (by decide) d.isLt (by decide) a.isLt b.isLt (by decide) (Bool.toNat_lt sa) rfl hw
  refine ⟨?_, lt, low⟩
  rw [major57 f1_6]
  simp [decodeMtx, bits_of b7_4, bits_of b14_7, bits_of b21_7, f7_7, f28_3, bitOf_of t31_1] <;> omega

theorem opass (dir : BitVec 3) (a : BitVec 4) : Statement (.opass dir a) := by
  refine word rfl (fun wf w hw => ?_)
  obtain ⟨b14_4, b21_3, f1_6, f7_7, f14_7, f21_7, f28_3, f31_1, lt, low⟩ := fields38 (k0 := 1) (k1 := 57) (k7 := 0) (k18 := 0) (k24 := 0) (k28 := 7) (k31 := 0) (by decide) (by decide) (by decide) a.isLt (by decide) dir.isLt (by decide) (by decide) (by decide) rfl hw
  refine ⟨?_, lt, low⟩
  simp [Instr.wellFormed] at wf
  rw [major57 f1_6]
  simp [decodeMtx, bits_of b14_4, bits_of b21_3, f7_7, f14_7, f21_7, f28_3, f31_1] <;> omega

theorem spup (sa : Bool) (b : BitVec 7) (a : BitVec 7) (d : BitVec 7) : Statement (.spup sa b a d) := by
  refine word rfl (fun wf w hw => ?_)
  obtain ⟨b7_7, b14_7, b21_7, f1_6, f28_3, t31_1, lt, low⟩ := fields1 (k0 := 1) (k1 := 58) (k28 := 0) (by decide) (by decide) d.isLt a.isLt b.isLt (by decide) (Bool.toNat_lt sa) rfl hw
  refine ⟨?_, lt, low⟩
  rw [major58 f1_6]
  simp [decodeSpe, bits_of b7_7, bits_of b14_7, bits_of b21_7, f28_3, bitOf_of t31_1]

theorem spdn (sa : Bool) (b : BitVec 7) (a : BitVec 7) (d : BitVec 7) : Statement (.spdn sa b a d) := by
  refine word rfl (fun wf w hw => ?_)
  obtain ⟨b7_7, b14_7, b21_7, f1_6, f28_3, t31_1, lt, low⟩ := fields1 (k0 := 1) (k1 := 58) (k28 := 1) (by decide) (by decide) d.isLt a.isLt b.isLt (by decide) (Bool.toNat_lt sa) rfl hw
  refine ⟨?_, lt, low⟩
  rw [major58 f1_6]
  simp [decodeSpe, bits_of b7_7, bits_of b14_7, bits_of b21_7, f28_3, bitOf_of t31_1]

theorem spld (sa : Bool) (a : BitVec 7) (d : BitVec 7) : Statement (.spld sa a d) := by
  refine word rfl (fun wf w hw => ?_)
  obtain ⟨b7_7, b14_7, f1_6, f21_7, f28_3, t31_1, lt, low⟩ := fields2 (k0 := 1) (k1 := 58) (k21 := 0) (k28 := 2) (by decide) (by decide) d.isLt a.isLt (by decide) (by decide) (Bool.toNat_lt sa) rfl hw
  refine ⟨?_, lt, low⟩
  rw [major58 f1_6]
  simp [decodeSpe, bits_of b7_7, bits_of b14_7, f21_7, f28_3, bitOf_of t31_1]

theorem spst (sa : Bool) (a : BitVec 7) (d : BitVec 7) : Statement (.spst sa a d) := by
  refine word rfl (fun wf w hw => ?_)
  obtain ⟨b7_7, b14_7, f1_6, f21_7, f28_3, t31_1, lt, low⟩ := fields2 (k0 := 1) (k1 := 58) (k21 := 0) (k28 := 3) (by decide) (by decide) d.isLt a.isLt (by decide) (by decide) (Bool.toNat_lt sa) rfl hw
  refine ⟨?_, lt, low⟩
  rw [major58 f1_6]
  simp [decodeSpe, bits_of b7_7, bits_of b14_7, f21_7, f28_3, bitOf_of t31_1]

theorem spget (sa : Bool) (a : BitVec 7) (d : BitVec 7) : Statement (.spget sa a d) := by
  refine word rfl (fun wf w hw => ?_)
  obtain ⟨b7_7, b14_7, f1_6, f21_7, f28_3, t31_1, lt, low⟩ := fields2 (k0 := 1) (k1 := 58) (k21 := 0) (k28 := 4) (by decide) (by decide) d.isLt a.isLt (by decide) (by decide) (Bool.toNat_lt sa) rfl hw
  refine ⟨?_, lt, low⟩
  rw [major58 f1_6]
  simp [decodeSpe, bits_of b7_7, bits_of b14_7, f21_7, f28_3, bitOf_of t31_1]

theorem spput (sa : Bool) (b : BitVec 7) (a : BitVec 7) : Statement (.spput sa b a) := by
  refine word rfl (fun wf w hw => ?_)
  obtain ⟨b14_7, b21_7, f1_6, f7_7, f28_3, t31_1, lt, low⟩ := fields17 (k0 := 1) (k1 := 58) (k7 := 0) (k28 := 5) (by decide) (by decide) (by decide) a.isLt b.isLt (by decide) (Bool.toNat_lt sa) rfl hw
  refine ⟨?_, lt, low⟩
  rw [major58 f1_6]
  simp [decodeSpe, bits_of b14_7, bits_of b21_7, f7_7, f28_3, bitOf_of t31_1]

theorem spclr (sa : Bool) (b : BitVec 7) (a : BitVec 7) : Statement (.spclr sa b a) := by
  refine word rfl (fun wf w hw => ?_)
  obtain ⟨b14_7, b21_7, f1_6, f7_7, f28_3, t31_1, lt, low⟩ := fields17 (k0 := 1) (k1 := 58) (k7 := 0) (k28 := 6) (by decide) (by decide) (by decide) a.isLt b.isLt (by decide) (Bool.toNat_lt sa) rfl hw
  refine ⟨?_, lt, low⟩
  rw [major58 f1_6]
  simp [decodeSpe, bits_of b14_7, bits_of b21_7, f7_7, f28_3, bitOf_of t31_1]

theorem spwait (d : BitVec 7) : Statement (.spwait d) := by
  refine word rfl (fun wf w hw => ?_)
  obtain ⟨b7_7, f1_6, f14_14, f28_3, f31_1, lt, low⟩ := fields18 (k0 := 1) (k1 := 58) (k14 := 0) (k28 := 7) (k31 := 0) (by decide) (by decide) d.isLt (by decide) (by decide) (by decide) rfl hw
  refine ⟨?_, lt, low⟩
  rw [major58 f1_6]
  simp [decodeSpe, bits_of b7_7, f14_14, f28_3, f31_1]

theorem bqget (sa : Bool) (a : BitVec 7) (d : BitVec 7) : Statement (.bqget sa a d) := by
  refine word rfl (fun wf w hw => ?_)
  obtain ⟨b7_7, b14_7, f1_6, f21_7, f28_3, t31_1, lt, low⟩ := fields2 (k0 := 1) (k1 := 59) (k21 := 0) (k28 := 0) (by decide) (by decide) d.isLt a.isLt (by decide) (by decide) (Bool.toNat_lt sa) rfl hw
  refine ⟨?_, lt, low⟩
  rw [major59 f1_6]
  simp [decodeGln, bits_of b7_7, bits_of b14_7, f21_7, f28_3, bitOf_of t31_1]

theorem baddq (sa : Bool) (b : BitVec 7) (a : BitVec 7) (d : BitVec 7) : Statement (.baddq sa b a d) := by
  refine word rfl (fun wf w hw => ?_)
  obtain ⟨b7_7, b14_7, b21_7, f1_6, f28_3, t31_1, lt, low⟩ := fields1 (k0 := 1) (k1 := 59) (k28 := 1) (by decide) (by decide) d.isLt a.isLt b.isLt (by decide) (Bool.toNat_lt sa) rfl hw
  refine ⟨?_, lt, low⟩
  rw [major59 f1_6]
  simp [decodeGln, bits_of b7_7, bits_of b14_7, bits_of b21_7, f28_3, bitOf_of t31_1]

theorem bqdone (sa : Bool) (a : BitVec 7) (d : BitVec 7) : Statement (.bqdone sa a d) := by
  refine word rfl (fun wf w hw => ?_)
  obtain ⟨b7_7, b14_7, f1_6, f21_7, f28_3, t31_1, lt, low⟩ := fields2 (k0 := 1) (k1 := 59) (k21 := 0) (k28 := 2) (by decide) (by decide) d.isLt a.isLt (by decide) (by decide) (Bool.toNat_lt sa) rfl hw
  refine ⟨?_, lt, low⟩
  rw [major59 f1_6]
  simp [decodeGln, bits_of b7_7, bits_of b14_7, f21_7, f28_3, bitOf_of t31_1]

theorem bqinit (sa : Bool) (b : BitVec 7) (a : BitVec 7) (d : BitVec 7) : Statement (.bqinit sa b a d) := by
  refine word rfl (fun wf w hw => ?_)
  obtain ⟨b7_7, b14_7, b21_7, f1_6, f28_3, t31_1, lt, low⟩ := fields1 (k0 := 1) (k1 := 59) (k28 := 3) (by decide) (by decide) d.isLt a.isLt b.isLt (by decide) (Bool.toNat_lt sa) rfl hw
  refine ⟨?_, lt, low⟩
  rw [major59 f1_6]
  simp [decodeGln, bits_of b7_7, bits_of b14_7, bits_of b21_7, f28_3, bitOf_of t31_1]

theorem rand (sa : Bool) (b : BitVec 7) (a : BitVec 7) (d : BitVec 7) : Statement (.rand sa b a d) := by
  refine word rfl (fun wf w hw => ?_)
  obtain ⟨b7_7, b14_7, b21_7, f1_6, f28_3, t31_1, lt, low⟩ := fields1 (k0 := 1) (k1 := 60) (k28 := 0) (by decide) (by decide) d.isLt a.isLt b.isLt (by decide) (Bool.toNat_lt sa) rfl hw
  refine ⟨?_, lt, low⟩
  rw [major60 f1_6]
  simp [decodeRng, bits_of b7_7, bits_of b14_7, bits_of b21_7, f28_3, bitOf_of t31_1]

theorem vrand (sa : Bool) (b : BitVec 7) (a : BitVec 7) (d : BitVec 7) : Statement (.vrand sa b a d) := by
  refine word rfl (fun wf w hw => ?_)
  obtain ⟨b7_7, b14_7, b21_7, f1_6, f28_3, t31_1, lt, low⟩ := fields1 (k0 := 1) (k1 := 60) (k28 := 1) (by decide) (by decide) d.isLt a.isLt b.isLt (by decide) (Bool.toNat_lt sa) rfl hw
  refine ⟨?_, lt, low⟩
  rw [major60 f1_6]
  simp [decodeRng, bits_of b7_7, bits_of b14_7, bits_of b21_7, f28_3, bitOf_of t31_1]

theorem marmOff : Statement (.marmOff) := by
  refine word rfl (fun wf w hw => ?_)
  obtain ⟨f1_6, f7_14, f21_4, f25_7, lt, low⟩ := fields39 (k0 := 1) (k1 := 38) (k7 := 0) (k21 := 1) (k25 := 0) (by decide) (by decide) (by decide) (by decide) (by decide) rfl hw
  refine ⟨?_, lt, low⟩
  rw [major38 f1_6]
  simp [decodeMarm, f7_14, f21_4, f25_7]

theorem ecall : Statement (.ecall) := by
  refine word rfl (fun wf w hw => ?_)
  obtain ⟨f1_6, f7_21, f28_3, f31_1, lt, low⟩ := fields40 (k0 := 1) (k1 := 42) (k7 := 0) (k28 := 0) (k31 := 0) (by decide) (by decide) (by decide) (by decide) (by decide) rfl hw
  refine ⟨?_, lt, low⟩
  rw [major42 f1_6]
  simp [decodeTrap, f7_21, f28_3, f31_1]

theorem brk : Statement (.brk) := by
  refine word rfl (fun wf w hw => ?_)
  obtain ⟨f1_6, f7_21, f28_3, f31_1, lt, low⟩ := fields40 (k0 := 1) (k1 := 42) (k7 := 0) (k28 := 1) (k31 := 0) (by decide) (by decide) (by decide) (by decide) (by decide) rfl hw
  refine ⟨?_, lt, low⟩
  rw [major42 f1_6]
  simp [decodeTrap, f7_21, f28_3, f31_1]

theorem rett : Statement (.rett) := by
  refine word rfl (fun wf w hw => ?_)
  obtain ⟨f1_6, f7_21, f28_3, f31_1, lt, low⟩ := fields40 (k0 := 1) (k1 := 42) (k7 := 0) (k28 := 2) (k31 := 0) (by decide) (by decide) (by decide) (by decide) (by decide) rfl hw
  refine ⟨?_, lt, low⟩
  rw [major42 f1_6]
  simp [decodeTrap, f7_21, f28_3, f31_1]

theorem halt : Statement (.halt) := by
  refine word rfl (fun wf w hw => ?_)
  obtain ⟨f1_6, f7_21, f28_3, f31_1, lt, low⟩ := fields40 (k0 := 1) (k1 := 42) (k7 := 0) (k28 := 3) (k31 := 0) (by decide) (by decide) (by decide) (by decide) (by decide) rfl hw
  refine ⟨?_, lt, low⟩
  rw [major42 f1_6]
  simp [decodeTrap, f7_21, f28_3, f31_1]

theorem yield : Statement (.yield) := by
  refine word rfl (fun wf w hw => ?_)
  obtain ⟨f1_6, f7_21, f28_3, f31_1, lt, low⟩ := fields40 (k0 := 1) (k1 := 42) (k7 := 0) (k28 := 4) (k31 := 0) (by decide) (by decide) (by decide) (by decide) (by decide) rfl hw
  refine ⟨?_, lt, low⟩
  rw [major42 f1_6]
  simp [decodeTrap, f7_21, f28_3, f31_1]

theorem saveContext (n : Nat) : Statement (.saveContext n) := noWord rfl

theorem saveCore (n : Nat) : Statement (.saveCore n) := noWord rfl

theorem restoreContext (n : Nat) : Statement (.restoreContext n) := noWord rfl

theorem restoreCore (n : Nat) : Statement (.restoreCore n) := noWord rfl

theorem fqans (part : Nat) (entry : BitVec 32) : Statement (.fqans part entry) := noWord rfl

theorem migpool (part : Nat) (frame : Word) : Statement (.migpool part frame) := noWord rfl

theorem longLatencyResult (n : Nat) : Statement (.longLatencyResult n) := noWord rfl

theorem messageArrival (n : Nat) : Statement (.messageArrival n) := noWord rfl

theorem depositRetry (core : Nat) : Statement (.depositRetry core) := noWord rfl

theorem reductionComplete (core : Nat) : Statement (.reductionComplete core) := noWord rfl

theorem trapEntry (core : Nat) (slot : Nat) : Statement (.trapEntry core slot) := noWord rfl

theorem waitlimExpiry (core : Nat) (slot : Nat) : Statement (.waitlimExpiry core slot) := noWord rfl

theorem deadlineExpiry (core : Nat) (slot : Nat) : Statement (.deadlineExpiry core slot) := noWord rfl

theorem waitcExpiry (core : Nat) (slot : Nat) : Statement (.waitcExpiry core slot) := noWord rfl

theorem waitwExpiry (core : Nat) (slot : Nat) : Statement (.waitwExpiry core slot) := noWord rfl

theorem clockHalt (core : Nat) : Statement (.clockHalt core) := noWord rfl

theorem clockResume (core : Nat) : Statement (.clockResume core) := noWord rfl

theorem accessPerform (n : Nat) (piece : Nat) : Statement (.accessPerform n piece) := noWord rfl

theorem portWithdrawal (n : Nat) : Statement (.portWithdrawal n) := noWord rfl

theorem withdrawalArrival (n : Nat) : Statement (.withdrawalArrival n) := noWord rfl

theorem monitorFire (n : Nat) : Statement (.monitorFire n) := noWord rfl

theorem fenceMarker (n : Nat) : Statement (.fenceMarker n) := noWord rfl

theorem fenceMarkerAck (n : Nat) : Statement (.fenceMarkerAck n) := noWord rfl

theorem transientRequest (n : Nat) : Statement (.transientRequest n) := noWord rfl

theorem transientRetry (n : Nat) : Statement (.transientRetry n) := noWord rfl

theorem persistentRequest (n : Nat) : Statement (.persistentRequest n) := noWord rfl

theorem persistentDeactivation (die : Nat) (n : Nat) : Statement (.persistentDeactivation die n) := noWord rfl

theorem tokenMessage (n : Nat) : Statement (.tokenMessage n) := noWord rfl

theorem softDirectoryHint (line : Nat) (core : Nat) : Statement (.softDirectoryHint line core) := noWord rfl

theorem writeBack (core : Nat) (line : Nat) : Statement (.writeBack core line) := noWord rfl

theorem writeBackBufferDrain (slice : Nat) : Statement (.writeBackBufferDrain slice) := noWord rfl

theorem linkSleep (die : Nat) (far : Nat) : Statement (.linkSleep die far) := noWord rfl

theorem linkWake (die : Nat) (far : Nat) : Statement (.linkWake die far) := noWord rfl

theorem linkWakeComplete (die : Nat) (far : Nat) : Statement (.linkWakeComplete die far) := noWord rfl

theorem heartbeat (die : Nat) (far : Nat) : Statement (.heartbeat die far) := noWord rfl

theorem dieLost (die : Nat) : Statement (.dieLost die) := noWord rfl

theorem flitUncorrectable (carried : FlitCargo) (link : Nat) (seq : BitVec 12) : Statement (.flitUncorrectable carried link seq) := noWord rfl

theorem recountReply (line : Nat) : Statement (.recountReply line) := noWord rfl

theorem landingRequest (n : Nat) : Statement (.landingRequest n) := noWord rfl

theorem landing (n : Nat) : Statement (.landing n) := noWord rfl

theorem faultSweep (core : Nat) (slot : Nat) (runAhead : List Word) : Statement (.faultSweep core slot runAhead) := noWord rfl

theorem copyNotification (n : Nat) : Statement (.copyNotification n) := noWord rfl

theorem packetStart (cluster : Nat) (queue : Nat) : Statement (.packetStart cluster queue) := noWord rfl

theorem packetComplete (n : Nat) : Statement (.packetComplete n) := noWord rfl

theorem fillComplete (n : Nat) : Statement (.fillComplete n) := noWord rfl

theorem stringMatch (core : Nat) (dir : BitVec 3) : Statement (.stringMatch core dir) := noWord rfl

theorem stringDelivery (n : Nat) : Statement (.stringDelivery n) := noWord rfl

theorem arrayEntryStart (core : Nat) : Statement (.arrayEntryStart core) := noWord rfl

theorem arrayEntryComplete (core : Nat) : Statement (.arrayEntryComplete core) := noWord rfl

theorem speEngineFinish (core : Nat) (n : Nat) : Statement (.speEngineFinish core n) := noWord rfl

theorem semaphoreSignal (n : Nat) : Statement (.semaphoreSignal n) := noWord rfl

theorem streamElementFetch (core : Nat) (gen : Nat) : Statement (.streamElementFetch core gen) := noWord rfl

theorem streamElementWrite (core : Nat) (gen : Nat) : Statement (.streamElementWrite core gen) := noWord rfl

theorem winnowSample (launch : Nat) : Statement (.winnowSample launch) := noWord rfl

theorem winnowShipmentArrival (n : Nat) : Statement (.winnowShipmentArrival n) := noWord rfl

theorem barrierArrival (n : Nat) : Statement (.barrierArrival n) := noWord rfl

theorem blockQueueRequest (n : Nat) : Statement (.blockQueueRequest n) := noWord rfl

theorem flitInjection (cluster : Nat) : Statement (.flitInjection cluster) := noWord rfl

theorem flitDelivery (n : Nat) : Statement (.flitDelivery n) := noWord rfl

theorem migration (n : Nat) (verified : Bool) : Statement (.migration n verified) := noWord rfl

theorem meterWindow (vf : Nat) : Statement (.meterWindow vf) := noWord rfl

theorem launchStart (part : Nat) : Statement (.launchStart part) := noWord rfl

theorem launchEnd (part : Nat) (launch : Nat) : Statement (.launchEnd part launch) := noWord rfl

theorem deferredReap (core : Nat) (slot : Nat) : Statement (.deferredReap core slot) := noWord rfl

theorem create : Statement (.create) := noWord rfl

theorem grow : Statement (.grow) := noWord rfl

theorem shrink : Statement (.shrink) := noWord rfl

theorem destroy : Statement (.destroy) := noWord rfl

theorem vfmap : Statement (.vfmap) := noWord rfl

theorem vfmeter : Statement (.vfmeter) := noWord rfl

theorem kill : Statement (.kill) := noWord rfl

theorem checkpoint : Statement (.checkpoint) := noWord rfl

theorem restore : Statement (.restore) := noWord rfl

theorem cfgrd (addr : Word) : Statement (.cfgrd addr) := noWord rfl

theorem cfgwr (addr : Word) (value : Word) : Statement (.cfgwr addr value) := noWord rfl

theorem capabilityRead (offset : Nat) (length : Nat) : Statement (.capabilityRead offset length) := noWord rfl

theorem controlPost (packet : List Word) : Statement (.controlPost packet) := noWord rfl

theorem attestation (nonce : BitVec 384) : Statement (.attestation nonce) := noWord rfl

theorem errorLogRead (first : Word) (count : BitVec 32) : Statement (.errorLogRead first count) := noWord rfl

theorem mgmtRefused (code : Word) : Statement (.mgmtRefused code) := noWord rfl

theorem post (vf : Nat) (queue : Word) (packet : List Word) : Statement (.post vf queue packet) := noWord rfl

theorem hmrdCompletion (addr : Word) (data : List Byte) : Statement (.hmrdCompletion addr data) := noWord rfl

theorem hmwrCompletion (n : Nat) : Statement (.hmwrCompletion n) := noWord rfl

theorem hamoAnswer (n : Nat) (old : Word) : Statement (.hamoAnswer n old) := noWord rfl

theorem tgrant (line : Nat) (exclusive : Bool) : Statement (.tgrant line exclusive) := noWord rfl

theorem tsnp (line : Nat) (exclusive : Bool) : Statement (.tsnp line exclusive) := noWord rfl

theorem xinv (vf : Nat) (addr : Word) (size : BitVec 2) : Statement (.xinv vf addr size) := noWord rfl

theorem xsync (number : Word) : Statement (.xsync number) := noWord rfl

theorem peerFlit (link : Nat) (header : Word) (payload : List Byte) (crcGood : Bool) : Statement (.peerFlit link header payload crcGood) := noWord rfl

theorem nack (link : Nat) (ackSeq : BitVec 12) : Statement (.nack link ackSeq) := noWord rfl

theorem linkRetrain (link : Nat) (delivered : Bool) : Statement (.linkRetrain link delivered) := noWord rfl

theorem linkDown (link : Nat) : Statement (.linkDown link) := noWord rfl

theorem softError (store : BitVec 8) (where_ : ErrorPlace) : Statement (.softError store where_) := noWord rfl

theorem uncorrectableError (store : BitVec 8) (where_ : ErrorPlace) : Statement (.uncorrectableError store where_) := noWord rfl

theorem patrolScrub (key : Nat) (found : ScrubFinding) : Statement (.patrolScrub key found) := noWord rfl

theorem packageReset (images : List (BitVec 384)) (signed : List Bool) (standby : Bool) : Statement (.packageReset images signed standby) := noWord rfl

theorem illegalEncoding (word : BitVec 32) : Statement (.illegalEncoding word) := noWord rfl

theorem coreRailLoss : Statement (.coreRailLoss) := noWord rfl

theorem laneRepair (module_ : Nat) (outcome : LaneOutcome) : Statement (.laneRepair module_ outcome) := noWord rfl

theorem fqrd (part : Nat) (value : BitVec 32) : Statement (.fqrd part value) := noWord rfl

theorem trrd (part : Nat) (value : BitVec 32) : Statement (.trrd part value) := noWord rfl

theorem krrd (part : Nat) (value : BitVec 32) : Statement (.krrd part value) := noWord rfl

end Sys2Proof.Laws.Encoding
end

