-- ==== Sys2Proof/Safety.lean ====
section
/-! DEFINITION. What counts as a safe run, and the terms in which claims speak of an instruction's turn: when a context can
issue, the state with that context replaced, and a context after a completed instruction. -/
namespace Sys2Proof

/-- The machine goes on from a state: its step answers a next state, neither a fault nor a refusal. -/
def GoesOn (s : Machine.State) : Prop := ∃ t, Machine.step s = .next t

/-- The invariant of every run: memory has its canonical form (assumption 6). -/
def Sound (s : Machine.State) : Prop := s.mem.wf = true

/-- A run of n steps stays safe: every step goes on and every state is sound. -/
def SafeFor : Nat → Machine.State → Prop
  | 0, s => Sound s
  | n + 1, s => Sound s ∧ ∃ t, Machine.step s = .next t ∧ SafeFor n t

namespace Machine

/-- The context whose turn it is can issue an instruction that reads the registers `reads` and uses the registers `uses`
(R13, R16, R24, R26, R27, R385): it is ready; no result whose window is over is still to come; every register lies in its
windows, is no destination of an open lookahead window and is bound to no stream; nothing it reads is poisoned; and no lane
reduction of its own is held. -/
structure CanIssue (s : State) (x : Context) (reads uses : List Reg) : Prop where
  turn : s.dev.cur = some x
  ready : x.phase = .ready
  arrived : ∀ p ∈ x.pending, p.left = 0 → p.arrived = true
  inside : ∀ r ∈ uses, x.inWindow r = true
  untouched : ∀ p ∈ x.pending, 0 < p.left → ∀ r ∈ uses, r ∉ p.dests
  unbound : ∀ r ∈ uses, s.dev.me.bindingOf s.dev.slot r = none
  sound : ∀ r ∈ reads, x.poisonedReg r = false
  notHeld : ∀ q ∈ s.dev.me.reductions, q.holds x s.dev.slot = false

/-- Nothing that the context did before can still be rolled back, or still holds back what an instruction does outside its
registers (R25, R124, R275): its loads have arrived, the accesses it has in flight can no longer fault, and no releasing fence that
it passed waits. -/
structure Settled (s : State) (x : Context) : Prop where
  arrived : ∀ p ∈ x.pending, p.mayFault = true → p.arrived = true
  flown : ∀ a ∈ s.dev.accesses, a.core = s.dev.core → a.slot = s.dev.slot → a.tid = x.tid → a.passed = true ∧ a.fault = none
  released : relOpen s.dev s.dev.core s.dev.slot x = false

/-- The state with the context whose turn it is replaced, and nothing else changed. -/
def State.withCur (s : State) (y : Context) : State := { s with dev := s.dev.setCtx s.dev.core s.dev.slot y }

/-- A context after an instruction that went on to `pc`: every lookahead window is one instruction shorter (R24). -/
def Context.movedTo (x : Context) (pc : Word) : Context :=
  { x with
    regs := { x.regs with pc := pc }
    phase := .ready
    stallSince := none
    stalled := false
    taken := []
    answered := none
    fence := none
    pending := advanceWindows x.pending }

/-- A context after a completed instruction of `len` bytes. -/
def Context.past (x : Context) (len : Word) : Context := x.movedTo (x.regs.pc + len)

/-- A context after the synchronised read of register A, when SA is 1 (R19): the full bit is cleared. -/
def Context.tookG (x : Context) (sa : Bool) (a : BitVec 7) : Context :=
  if sa then x.putG a.toNat { x.getG a.toNat with full := false } else x

/-- The same for a vector register. -/
def Context.tookV (x : Context) (sa : Bool) (a : Nat) : Context :=
  if sa then x.putV a { x.getV a with full := false } else x

/-- A synchronised read of register A can complete: A is full (R19). -/
def Context.canTakeG (x : Context) (sa : Bool) (a : BitVec 7) : Prop := sa = true → (x.getG a.toNat).full = true

/-- The same for a vector register. -/
def Context.canTakeV (x : Context) (sa : Bool) (a : Nat) : Prop := sa = true → (x.getV a).full = true

end Machine

end Sys2Proof
end

