-- ==== Sys2Proof/Certificates/Slice0/Obligations.lean ====
section
/-! DEFINITION. The statements for the provers, each a rule of the spec in the model's terms, with the tables and terms they
share. -/

namespace Sys2Proof.Claims
end Sys2Proof.Claims

open Sys2Proof Sys2Proof.Machine Sys2Proof.Claims

namespace Sys2Proof.Claims
open Sys2Proof.Machine

/-- A word that is 1 or 0. -/
def bit (p : Bool) : Word := if p then 1 else 0

/-- The low 32 bits, sign-extended (R105). -/
def low32 (x : BitVec 32) : Word := x.signExtend 64

/-- The scalar functions of two operands (R106). -/
inductive Binary where
  | add
  | sub
  | and
  | or
  | xor
  | sll
  | srl
  | sra
  | addw
  | subw
  | sllw
  | srlw
  | sraw
  | slt
  | sltu
  | andn
  | min
  | max
  | minu
  | maxu
  | mul
  | mulh
  | mulhu
  | mulw
  deriving DecidableEq, Repr

/-- The instruction of the opcode table. -/
def Binary.instr (o : Binary) (sa : Bool) (b a d : BitVec 7) : Instr :=
  match o with
  | .add => .add sa b a d
  | .sub => .sub sa b a d
  | .and => .and sa b a d
  | .or => .or sa b a d
  | .xor => .xor sa b a d
  | .sll => .sll sa b a d
  | .srl => .srl sa b a d
  | .sra => .sra sa b a d
  | .addw => .addw sa b a d
  | .subw => .subw sa b a d
  | .sllw => .sllw sa b a d
  | .srlw => .srlw sa b a d
  | .sraw => .sraw sa b a d
  | .slt => .slt sa b a d
  | .sltu => .sltu sa b a d
  | .andn => .andn sa b a d
  | .min => .min sa b a d
  | .max => .max sa b a d
  | .minu => .minu sa b a d
  | .maxu => .maxu sa b a d
  | .mul => .mul sa b a d
  | .mulh => .mulh sa b a d
  | .mulhu => .mulhu sa b a d
  | .mulw => .mulw sa b a d

/-- The value of gD from the values a and b (R106). -/
def Binary.value (o : Binary) : Word → Word → Word :=
  match o with
  | .add => fun x y => x + y
  | .sub => fun x y => x - y
  | .and => fun x y => x &&& y
  | .or => fun x y => x ||| y
  | .xor => fun x y => x ^^^ y
  | .sll => fun x y => BitVec.ofNat 64 (x.toNat * 2^(y.toNat % 64))
  | .srl => fun x y => BitVec.ofNat 64 (x.toNat / 2^(y.toNat % 64))
  | .sra => fun x y => BitVec.ofInt 64 (x.toInt / 2^(y.toNat % 64))
  | .addw => fun x y => low32 (x.setWidth 32 + y.setWidth 32)
  | .subw => fun x y => low32 (x.setWidth 32 - y.setWidth 32)
  | .sllw => fun x y => low32 (BitVec.ofNat 32 (x.toNat % 2^32 * 2^(y.toNat % 32)))
  | .srlw => fun x y => low32 (BitVec.ofNat 32 (x.toNat % 2^32 / 2^(y.toNat % 32)))
  | .sraw => fun x y => low32 (BitVec.ofInt 32 ((x.setWidth 32).toInt / 2^(y.toNat % 32)))
  | .slt => fun x y => bit (decide (x.toInt < y.toInt))
  | .sltu => fun x y => bit (decide (x.toNat < y.toNat))
  | .andn => fun x y => x &&& ~~~y
  | .min => fun x y => if x.toInt < y.toInt then x else y
  | .max => fun x y => if x.toInt < y.toInt then y else x
  | .minu => fun x y => if x.toNat < y.toNat then x else y
  | .maxu => fun x y => if x.toNat < y.toNat then y else x
  | .mul => fun x y => BitVec.ofInt 64 (x.toInt * y.toInt)
  | .mulh => fun x y => BitVec.ofInt 64 (x.toInt * y.toInt / 2^64)
  | .mulhu => fun x y => BitVec.ofNat 64 (x.toNat * y.toNat / 2^64)
  | .mulw => fun x y => low32 (x.setWidth 32 * y.setWidth 32)

/-- The scalar functions of one operand and the immediate forms (R106 to R108). -/
inductive Unary where
  | clz
  | ctz
  | popc
  | brev
  | sexb
  | sexh
  | sexw
  | zexw
  | addi (i : BitVec 10)
  | andi (i : BitVec 10)
  | ori (i : BitVec 10)
  | xori (i : BitVec 10)
  | slti (i : BitVec 10)
  | sltiu (i : BitVec 10)
  | slli (n : BitVec 6)
  | srli (n : BitVec 6)
  | srai (n : BitVec 6)
  | sllwi (n : BitVec 5)
  | srlwi (n : BitVec 5)
  | srawi (n : BitVec 5)
  deriving DecidableEq, Repr

/-- The instruction of the opcode table. -/
def Unary.instr (o : Unary) (sa : Bool) (a d : BitVec 7) : Instr :=
  match o with
  | .clz => .clz sa a d
  | .ctz => .ctz sa a d
  | .popc => .popc sa a d
  | .brev => .brev sa a d
  | .sexb => .sexb sa a d
  | .sexh => .sexh sa a d
  | .sexw => .sexw sa a d
  | .zexw => .zexw sa a d
  | .addi i => .addi sa i a d
  | .andi i => .andi sa i a d
  | .ori i => .ori sa i a d
  | .xori i => .xori sa i a d
  | .slti i => .slti sa i a d
  | .sltiu i => .sltiu sa i a d
  | .slli n => .slli sa n a d
  | .srli n => .srli sa n a d
  | .srai n => .srai sa n a d
  | .sllwi n => .sllwi sa n a d
  | .srlwi n => .srlwi sa n a d
  | .srawi n => .srawi sa n a d

/-- The value of gD from the value a (R106 to R108). -/
def Unary.value (o : Unary) : Word → Word :=
  match o with
  | .clz => fun x => BitVec.ofNat 64 ((List.range 64).countP fun n => x.toNat / 2^(63 - n) == 0)
  | .ctz => fun x => BitVec.ofNat 64 ((List.range 64).countP fun n => x.toNat % 2^(n + 1) == 0)
  | .popc => fun x => BitVec.ofNat 64 ((List.range 64).countP fun n => x.getLsbD n)
  | .brev => fun x => x.reverse
  | .sexb => fun x => (x.setWidth 8).signExtend 64
  | .sexh => fun x => (x.setWidth 16).signExtend 64
  | .sexw => fun x => (x.setWidth 32).signExtend 64
  | .zexw => fun x => BitVec.ofNat 64 (x.toNat % 2^32)
  | .addi i => fun x => x + i.signExtend 64
  | .andi i => fun x => x &&& i.signExtend 64
  | .ori i => fun x => x ||| i.signExtend 64
  | .xori i => fun x => x ^^^ i.signExtend 64
  | .slti i => fun x => bit (decide (x.toInt < i.toInt))
  | .sltiu i => fun x => bit (decide (x.toNat < (i.signExtend 64).toNat))
  | .slli n => fun x => BitVec.ofNat 64 (x.toNat * 2^n.toNat)
  | .srli n => fun x => BitVec.ofNat 64 (x.toNat / 2^n.toNat)
  | .srai n => fun x => BitVec.ofInt 64 (x.toInt / 2^n.toNat)
  | .sllwi n => fun x => low32 (BitVec.ofNat 32 (x.toNat % 2^32 * 2^n.toNat))
  | .srlwi n => fun x => low32 (BitVec.ofNat 32 (x.toNat % 2^32 / 2^n.toNat))
  | .srawi n => fun x => low32 (BitVec.ofInt 32 ((x.setWidth 32).toInt / 2^n.toNat))

/-- The conditional branches (R111). -/
inductive Branch where
  | beq
  | bne
  | blt
  | bge
  | bltu
  | bgeu
  deriving DecidableEq, Repr

/-- The instruction of the opcode table. -/
def Branch.instr (o : Branch) (off : BitVec 11) (a b : BitVec 7) : Instr :=
  match o with
  | .beq => .beq off a b
  | .bne => .bne off a b
  | .blt => .blt off a b
  | .bge => .bge off a b
  | .bltu => .bltu off a b
  | .bgeu => .bgeu off a b

/-- When the branch is taken (R111). -/
def Branch.taken (o : Branch) : Word → Word → Bool :=
  match o with
  | .beq => fun x y => decide (x = y)
  | .bne => fun x y => decide (x ≠ y)
  | .blt => fun x y => decide (x.toInt < y.toInt)
  | .bge => fun x y => decide (y.toInt ≤ x.toInt)
  | .bltu => fun x y => decide (x.toNat < y.toNat)
  | .bgeu => fun x y => decide (y.toNat ≤ x.toNat)

/-- The quotient of R113 as an integer, for the signed forms. -/
def signedQuotient (a b : Word) : Int := a.toInt.tdiv b.toInt

/-- The divides (R113). -/
inductive Divide where
  | div
  | divu
  | rem
  | remu
  deriving DecidableEq, Repr

/-- The instruction of the opcode table. -/
def Divide.instr (o : Divide) (la : BitVec 4) (b a d : BitVec 7) : Instr :=
  match o with
  | .div => .div la b a d
  | .divu => .divu la b a d
  | .rem => .rem la b a d
  | .remu => .remu la b a d

/-- The value written to gD (R113). -/
def Divide.value (o : Divide) : Word → Word → Word :=
  match o with
  | .div => fun x y => if y = 0 then BitVec.allOnes 64 else BitVec.ofInt 64 (signedQuotient x y)
  | .divu => fun x y => if y = 0 then BitVec.allOnes 64 else BitVec.ofNat 64 (x.toNat / y.toNat)
  | .rem => fun x y => if y = 0 then x else BitVec.ofInt 64 (x.toInt - y.toInt * signedQuotient x y)
  | .remu => fun x y => if y = 0 then x else BitVec.ofNat 64 (x.toNat - y.toNat * (x.toNat / y.toNat))

/-- Every byte of memory, every full bit and every poison mark reads as before. -/
def MemorySame (s t : State) : Prop :=
  ∀ k, t.mem.byte k = s.mem.byte k ∧ t.mem.isFull k = s.mem.isFull k ∧ t.mem.isPoisoned k = s.mem.isPoisoned k

/-- Nothing but the context whose turn it is has changed: every other core, and of its own core everything but its slot. -/
def OthersSame (s t : State) : Prop :=
  (∀ c, c ≠ s.dev.core → t.dev.coreAt c = s.dev.coreAt c) ∧
  (∀ j, j ≠ s.dev.slot → t.dev.me.ctx j = s.dev.me.ctx j) ∧
  t.dev.me = s.dev.me.setCtx s.dev.slot (t.dev.me.ctx s.dev.slot) ∧
  { t.dev with cores := [] } = { s.dev with cores := [] }

/-- Of the registers of a context, only the scalar registers of a list may differ, apart from the pc. -/
def ScalarsOnly (x y : Context) (gs : List Nat) : Prop :=
  (∀ n, n ∉ gs → y.getG n = x.getG n) ∧ y.regs.v = x.regs.v ∧ y.regs.k = x.regs.k ∧ y.regs.sys = x.regs.sys ∧
  y.regs.conflict = x.regs.conflict ∧ y.regs.wakePending = x.regs.wakePending ∧ y.monitor = x.monitor ∧ y.priv = x.priv

/-- A context whose pc is at an instruction took the trap `cause` there with a handler to go to (R119). -/
def InHandler (x y : Context) (cause : BitVec 8) (val pc : Word) : Prop :=
  y.phase = .ready ∧ y.pending = [] ∧
  y.regs = { x.regs with
    pc := x.regs.sys.trapvec
    sys := { x.regs.sys with trapcause := cause, trapval := val, trappc := pc, inh := true } }

/-- The context has a handler that is not running (R119). -/
def HasHandler (x : Context) : Prop := x.regs.sys.trapvec ≠ 0 ∧ x.regs.sys.inh = false

end Sys2Proof.Claims

/-! Encodings and the step. -/

/-- R71 to R87: the decoder reads back every well-formed instruction that has an encoding, whatever bytes follow it. -/
def Obligations.DecodeOfEncode : Prop :=
  ∀ i : Sys2Proof.Instr, Sys2Proof.Laws.Encoding.Statement i

/-- Words written out from the encodings and worked examples of the spec decode to the instructions they stand for. -/
def Obligations.DecodeSpecWords : Prop :=
  decodeTableWord 32 0x80404183 = some (.add true 2 1 3) ∧
  decodeTableWord 32 0x20C14235 = some (.ld 2 0 false 5 4) ∧
  decodeTableWord 32 0x10C143AD = some (.div 1 6 5 7) ∧
  decodeTableWord 32 0xFF814325 = some (.blt 0x7FC 5 6) ∧
  decodeTableWord 32 0x30000055 = some .halt ∧
  decodeTableWord 32 0x22410053 = some (.mts 0x112 4) ∧
  decodeTableWord 16 0x18A2 = some (.vaddC16 3 5) ∧
  decodeTableWord 16 0x0000 = none ∧
  decodeTableWord 32 0xFFFFFFFF = none

/-- A cycle of a core whose clock runs, at an instant that its clock allows, in which a context that was ready has not used its turn,
is not to be saved, and fetches the bytes of an instruction, runs exactly that instruction, with what the cycle adds around it (R10, R14, R30, R89, R367, R387). The
agenda and its instants are the model's own (log entries 1 and 4). -/
def Obligations.StepRunsDecoded : Prop :=
  ∀ (s : State) (core at_ : Nat) (rest : List Move) (x : Context) (bs tail : List Byte) (i : Instr) (d : Device),
    s.dev.agenda = .cycle core at_ :: rest →
    let s0 := pass { s with dev := { s.dev with agenda := rest } } (cycleAt { s.dev with agenda := rest } core at_)
    let slot := (s0.dev.coreAt core).cyc % 16
    let s1 := beforeTurn { s0 with dev := beginCycle { s0.dev with core := core, slot := slot } core } core
    clocked s0.dev core = true → cycleAt s0.dev core 0 ≤ s0.dev.now →
    (s0.dev.coreAt core).used ≠ some (s0.dev.coreAt core).cyc →
    (s0.dev.coreAt core).fenced = false →
    waitsAt s0.dev core slot = false →
    s1.dev.savingOf s1.dev.core s1.dev.slot = none →
    s1.dev.cur = some x →
    x.phase = .ready →
    fetchInstr s1.mem s1.dev x = (.bytes bs, d) →
    decode bs = .ok (i, tail) →
    step s = afterMove (match exec i { s1 with dev := d.onCur fun y => { y with held := some i } } with
      | .next t => .next { t with dev := afterTurn t.dev core }
      | o => o)

/-- Every step from a state whose memory has its canonical form leads to one. -/
def Obligations.StepKeepsMemoryForm : Prop :=
  ∀ s t : State, s.mem.wf = true → step s = .next t → t.mem.wf = true

/-- No state stops the machine: every step answers a next state. -/
def Obligations.EveryStepGoesOn : Prop := ∀ s : State, ∃ t, step s = .next t

/-- What bring-up leaves (R401): WALL is 0, memory reads zero, full and unpoisoned everywhere, no context exists, there is no
partition, no line of another die holds tokens, and the memory has its canonical form. -/
def Obligations.ResetState : Prop :=
  State.reset.mem.wf = true ∧ State.reset.dev.wall = 0 ∧
  (∀ k, State.reset.mem.byte k = 0 ∧ State.reset.mem.isFull k = true ∧ State.reset.mem.isPoisoned k = false) ∧
  (∀ core slot, State.reset.dev.ctxAt core slot = none) ∧
  (∀ p, State.reset.dev.partAt p = {}) ∧ State.reset.dev.launches = [] ∧
  (∀ line, (State.reset.dev.lineAt line).home = Config.tokensPerLine)

/-! Scalar instructions. -/

/-- R106: gD takes the value of the function of a and b; the operands are read before gD is written; SA clears A's full bit;
nothing else changes but the pc and the windows. -/
def Sys2Proof.Claims.BinaryScalarResult : Prop :=
  ∀ (o : Binary) (sa : Bool) (d a b : BitVec 7) (s : State) (x : Context),
    CanIssue s x [.g a.toNat, .g b.toNat] [.g d.toNat, .g a.toNat, .g b.toNat] → x.canTakeG sa a →
    exec (o.instr sa b a d) s = .next (s.withCur
      (((x.tookG sa a).writeG d.toNat (o.value (x.getG a.toNat).val (x.getG b.toNat).val)).past 4))

/-- R106 to R108: the same of the functions of one operand and of the immediate forms. -/
def Sys2Proof.Claims.UnaryScalarResult : Prop :=
  ∀ (o : Unary) (sa : Bool) (d a : BitVec 7) (s : State) (x : Context),
    CanIssue s x [.g a.toNat] [.g d.toNat, .g a.toNat] → x.canTakeG sa a →
    exec (o.instr sa a d) s =
      .next (s.withCur (((x.tookG sa a).writeG d.toNat (o.value (x.getG a.toNat).val)).past 4))

/-- R109, R110, R111: LUI and AUIPC write their constant, JAL and JALR the address after them, and jumps and branches go to
their targets. -/
def Obligations.JumpsAndBranches : Prop :=
  ∀ (s : State) (x : Context),
    (∀ (imm : BitVec 18) (d : BitVec 7), CanIssue s x [] [.g d.toNat] →
      exec (.lui imm d) s = .next (s.withCur ((x.writeG d.toNat (BitVec.ofInt 64 (imm.toInt * 1024))).past 4)) ∧
      exec (.auipc imm d) s =
        .next (s.withCur ((x.writeG d.toNat (x.regs.pc + BitVec.ofInt 64 (imm.toInt * 1024))).past 4)) ∧
      exec (.jal imm d) s =
        .next (s.withCur ((x.writeG d.toNat (x.regs.pc + 4)).movedTo (x.regs.pc + BitVec.ofInt 64 (2 * imm.toInt))))) ∧
    (∀ (sa : Bool) (imm : BitVec 10) (a d : BitVec 7),
      CanIssue s x [.g a.toNat] [.g d.toNat, .g a.toNat] → x.canTakeG sa a →
      exec (.jalr sa imm a d) s = .next (s.withCur
        (((x.tookG sa a).writeG d.toNat (x.regs.pc + 4)).movedTo (((x.getG a.toNat).val + imm.signExtend 64) &&& ~~~1)))) ∧
    (∀ (o : Branch) (off : BitVec 11) (a b : BitVec 7),
      CanIssue s x [.g a.toNat, .g b.toNat] [.g a.toNat, .g b.toNat] →
      exec (o.instr off a b) s = .next (s.withCur (x.movedTo
        (if o.taken (x.getG a.toNat).val (x.getG b.toNat).val then x.regs.pc + BitVec.ofInt 64 (2 * off.toInt)
         else x.regs.pc + 4))))

/-- R24, R113, R114: a divide reads its operands at issue, leaves its result pending with a window of LA instructions, due 40
cycles after its issue; a divide into g0 leaves no pending register. -/
def Sys2Proof.Claims.DivideIssues : Prop :=
  ∀ (o : Divide) (la : BitVec 4) (d a b : BitVec 7) (s : State) (x : Context),
    CanIssue s x [.g a.toNat, .g b.toNat] [.g d.toNat, .g a.toNat, .g b.toNat] →
    (d = 0 → exec (o.instr la b a d) s = .next (s.withCur (x.past 4))) ∧
    (d ≠ 0 → ∃ t y q, exec (o.instr la b a d) s = .next t ∧ t.mem = s.mem ∧ t.dev.cur = some y ∧
      y = { x.past 4 with pending := (x.past 4).pending ++ [q] } ∧
      q.left = la.toNat ∧ q.arrived = false ∧ q.dests = [.g d.toNat] ∧
      q.due = some (s.dev.me.cyc + 40, o.value (x.getG a.toNat).val (x.getG b.toNat).val) ∧ q.id = s.dev.nextAccess)

/-- R24, R114: a divide's result is written as an ordinary write once its 40 cycles are over, and retired with its window. -/
def Sys2Proof.Claims.DivideResultArrives : Prop :=
  ∀ (s : State) (core slot n : Nat) (x : Context) (p : Pending) (r at_ : Nat) (v : Word),
    s.dev.access n = none → dividing s.dev n = some (core, slot, p) → p.id = n →
    s.dev.ctxAt core slot = some x → x.phase = .ready → x.pending = [p] →
    p.dests = [.g r] → p.reserved = [] → p.due = some (at_, v) → at_ ≤ (s.dev.coreAt core).cyc →
    (s.dev.coreAt core).halted = false → (s.dev.coreAt core).lastDeposit = none →
    ∃ t y, exec (.longLatencyResult n) s = .next t ∧ t.mem = s.mem ∧ t.dev.ctxAt core slot = some y ∧
      y.regs = (x.writeG r v).regs ∧ y.phase = .ready ∧
      y.pending = if p.left = 0 then [] else [{ p with arrived := true, mayFault := false }]

/-- R15, R17, R18, R149: an ordinary write replaces the value, keeps the full bit and clears the poison mark of one register
and leaves every other alone; g0 reads zero and full and k0 all ones whatever is written to them. -/
def Obligations.RegisterWrites : Prop :=
  ∀ (x : Context) (n m : Nat) (w : Word) (k : BitVec 32) (b : VBits) (tag : BitVec 4) (scale : Lane),
    (0 < n → n < 128 → (x.writeG n w).getG n = ⟨w, (x.getG n).full, false⟩) ∧
    (m ≠ n → (x.writeG n w).getG m = x.getG m) ∧
    (x.writeG n w).getG 0 = ⟨0, true, false⟩ ∧
    (n < 64 → (x.writeV n b tag scale).getV n = ⟨b, tag, scale, (x.getV n).full, false⟩) ∧
    (m ≠ n → (x.writeV n b tag scale).getV m = x.getV m) ∧
    (0 < n → n < 8 → (x.writeK n k).getK n = k) ∧
    (m ≠ n → (x.writeK n k).getK m = x.getK m) ∧
    (x.writeK n k).getK 0 = BitVec.allOnes 32

/-- The frame of the scalar instructions when they complete: beside gD, and A's full bit when SA is 1, every register, flag
and special register is as before, and so is every byte of memory and everything else of the machine. -/
def Sys2Proof.Claims.ScalarFrame : Prop :=
  ∀ (i : Instr) (sa : Bool) (d a : BitVec 7) (reads : List Reg) (s t : State) (x : Context),
    ((∃ (o : Binary) (b : BitVec 7), i = o.instr sa b a d ∧ reads = [.g a.toNat, .g b.toNat]) ∨
      (∃ o : Unary, i = o.instr sa a d ∧ reads = [.g a.toNat])) →
    CanIssue s x reads (.g d.toNat :: reads) → x.canTakeG sa a → exec i s = .next t →
    MemorySame s t ∧ OthersSame s t ∧
      ∃ y, t.dev.cur = some y ∧ ScalarsOnly x y (if sa then [d.toNat, a.toNat] else [d.toNat])

/-- The frame of the scalar instructions and branches whatever their outcome (completion, stall, park, trap): with no poisoned
register in the context, every byte of memory reads as before, and no other core changes, unless a trap without a handler stops a
member of a group. -/
def Sys2Proof.Claims.ScalarNeverStores : Prop :=
  ∀ (i : Instr) (s t : State),
    ((∃ (o : Binary) (sa : Bool) (b a d : BitVec 7), i = o.instr sa b a d) ∨
      (∃ (o : Unary) (sa : Bool) (a d : BitVec 7), i = o.instr sa a d) ∨
      (∃ (o : Branch) (off : BitVec 11) (a b : BitVec 7), i = o.instr off a b) ∨
      (∃ (o : Divide) (la : BitVec 4) (b a d : BitVec 7), i = o.instr la b a d)) →
    (∀ x, s.dev.cur = some x → (∀ r, x.poisonedReg r = false) ∧ (x.groups = [] ∨ HasHandler x)) →
    exec i s = .next t →
    MemorySame s t ∧ ∀ c, c ≠ s.dev.core → t.dev.coreAt c = s.dev.coreAt c

namespace Sys2Proof.Claims
open Sys2Proof.Machine

/-- What MFS reads from each register of R115 and R260 that a program may read unprivileged. -/
def lowRegister (s : State) (x : Context) : Nat → Option Word
  | 0x00 => some (BitVec.ofNat 64 s.dev.me.cyc)
  | 0x01 => some (BitVec.ofNat 64 (s.dev.now / 1000000))
  | 0x02 => some (ratioAt s.dev.me s.dev.me.begun)
  | 0x03 => some 0x2333
  | 0x04 => some x.regs.sys.wlim
  | 0x05 => some x.regs.sys.dline
  | 0x06 => some (BitVec.ofNat 64 (16 * s.dev.core + s.dev.slot))
  | 0x07 => some (x.tid.setWidth 64)
  | 0x08 => some (BitVec.ofNat 64 x.launch)
  | 0x09 => some (groupsWord x.groups)
  | 0x0A => some x.regs.sys.srseed
  | 0x0B => some (x.regs.sys.trapcause.setWidth 64)
  | 0x0C => some x.regs.sys.trappc
  | 0x0D => some x.regs.sys.trapval
  | 0x0E => some x.regs.sys.trapvec
  | 0x0F => some (s.dev.me.rresSeq.setWidth 64)
  | 0x10 => some (BitVec.ofNat 64 x.part)
  | 0x11 => some (BitVec.ofNat 64 x.vf)
  | 0x12 => some (x.regs.sys.fflags.setWidth 64)
  | 0x13 => some (x.regs.sys.frm.setWidth 64)
  | 0x14 => some (x.regs.sys.srctr.setWidth 64)
  | 0x15 => some x.regs.sys.trapscr
  | 0x16 => some (bit x.regs.sys.inh)
  | 0x17 => some (bit x.regs.sys.pin)
  | 0x18 => some (x.regs.sys.shipcnt.setWidth 64)
  | 0x20 => some (s.dev.me.spcfg.setWidth 64)
  | _ => none

/-- What a privileged MFS reads from the registers of R352, R365, R390, R391, R395 and R397. -/
def highRegister (s : State) (x : Context) : Nat → Option Word
  | 0x100 => some (s.dev.partAt x.part).fqbase
  | 0x101 => some ((s.dev.partAt x.part).fqwr.setWidth 64)
  | 0x102 => some ((s.dev.partAt x.part).fqrd.setWidth 64)
  | 0x103 => some ((s.dev.partAt x.part).fqans.setWidth 64)
  | 0x104 => some ((s.dev.partAt x.part).xvfsel.setWidth 64)
  | 0x105 =>
    let f := s.dev.vfAt (s.dev.partAt x.part).xvfsel.toNat
    some (if f.part = some x.part then f.root else 0)
  | 0x106 => some (BitVec.ofNat 64 (s.dev.partAt x.part).pool.length)
  | 0x110 => some x.regs.sys.presel
  | 0x111 => some x.regs.sys.prearea
  | 0x112 => some (bit (s.dev.commands.any fun c => x.command == some c.id))
  | 0x120 => some (s.dev.partAt x.part).elbase
  | 0x121 => some (s.dev.partAt x.part).elwr
  | 0x122 => some ((s.dev.partAt x.part).elrd.setWidth 64)
  | 0x130 => some (s.dev.partAt x.part).trbase
  | 0x131 => some ((s.dev.partAt x.part).trwr.setWidth 64)
  | 0x132 => some ((s.dev.partAt x.part).trrd.setWidth 64)
  | 0x133 => some (s.dev.partAt x.part).trplay
  | 0x134 => some ((s.dev.partAt x.part).trpcnt.setWidth 64)
  | 0x135 => some (s.dev.partAt x.part).krbase
  | 0x136 => some ((s.dev.partAt x.part).krwr.setWidth 64)
  | 0x137 => some ((s.dev.partAt x.part).krrd.setWidth 64)
  | 0x138 => some (s.dev.partAt x.part).grbase
  | _ => none

/-- What MTS of a value makes of the context's own registers (R60, R64, R115, R260); none for a number that is not one of
them, or a value that the register refuses. -/
def writtenSys (r : SysRegs) (n : Nat) (v : Word) : Option SysRegs :=
  match n with
  | 0x04 => some { r with wlim := v }
  | 0x05 => some { r with dline := v }
  | 0x0A => some { r with srseed := v }
  | 0x0B => some { r with trapcause := v.setWidth 8 }
  | 0x0C => some { r with trappc := v &&& ~~~1 }
  | 0x0D => some { r with trapval := v }
  | 0x0E => some { r with trapvec := v &&& ~~~1 }
  | 0x12 => some { r with fflags := v.setWidth 6 }
  | 0x13 => if v.toNat ≤ 4 then some { r with frm := v.setWidth 3 } else none
  | 0x14 => some { r with srctr := v.setWidth 32 }
  | 0x15 => some { r with trapscr := v }
  | 0x16 => some { r with inh := v.getLsbD 0 }
  | 0x17 => if v.toNat ≤ 1 then some { r with pin := v.getLsbD 0 } else none
  | _ => none

/-- A partition after a privileged MTS of one of its plain registers (R352, R395): the number, the value, the change. -/
def writtenPart (p : Partition) (n : Nat) (v : Word) : Option Partition :=
  match n with
  | 0x104 => some { p with xvfsel := v.setWidth 9 }
  | 0x133 => if v &&& ~~~0x1FFFFFFFFFFF001 = 0 then some { p with trplay := v, replayed := [] } else none
  | 0x134 => some { p with trpcnt := v.setWidth 32 }
  | 0x138 => if v &&& ~~~0x1FFFFFFC000FFFF = 0 then some { p with grbase := v } else none
  | _ => none

/-- The instruction as TRAPVAL holds it: the word zero-extended (R90). -/
def wordOf (i : Instr) : Word := BitVec.ofNat 64 ((encodeWord i).getD 0)

/-- The step answers a state in which the context took a trap at its own instruction, going to its handler, and memory and
every other core are as before. -/
def TrapsTo (o : Host.Outcome State Fault Refusal) (s : State) (x : Context) (cause : BitVec 8) (val : Word) : Prop :=
  ∃ t y, o = .next t ∧ t.mem = s.mem ∧ t.dev.cur = some y ∧ InHandler x y cause val x.regs.pc ∧
    ∀ c, c ≠ s.dev.core → t.dev.coreAt c = s.dev.coreAt c

/-- A stop of a context counts in the group it belongs to at once, or from the next phase where it has arrived in this one, and may
complete the phase (R223, R301). -/
def StopCounts (s t : State) (x : Context) : Prop :=
  (x.groups = [] → t.dev.launches = s.dev.launches) ∧
  ∀ (l : Launch) (g : Group), x.groups = [g.id] → s.dev.launchAt x.part x.launch = some l →
    (l.groups.find? fun q => q.id == g.id) = some g →
    ∃ l' g', t.dev.launchAt x.part x.launch = some l' ∧ (l'.groups.find? fun q => q.id == g.id) = some g' ∧
      (x.tid ∈ g.arrived → g.arrived.length < g.members.length - g.gone.length → g' = { g with leaving := g.leaving ++ [x.tid] }) ∧
      (x.tid ∉ g.arrived → g.arrived.length < g.members.length - (g.gone.length + 1) →
        g' = { g with gone := g.gone ++ [x.tid] }) ∧
      (x.tid ∉ g.arrived → g.members.length - (g.gone.length + 1) ≤ g.arrived.length →
        g' = { g with generation := g.generation + 1, arrived := [], gone := g.gone ++ [x.tid] ++ g.leaving, leaving := [] })

/-- A register of R16 that lies outside the context's windows. -/
def outside (x : Context) : Reg → Bool
  | .g n => decide (x.gCount ≤ n) || decide (128 ≤ n)
  | .v n => decide (x.vCount ≤ n) || decide (64 ≤ n)

end Sys2Proof.Claims

/-! System registers, traps and the checks of an issue. -/

/-- R115, R116: MFS returns the value of the register it names as it stands at the issue cycle. -/
def Sys2Proof.Claims.MfsReads : Prop :=
  ∀ (s : State) (x : Context) (n : BitVec 11) (d : BitVec 7) (v : Word),
    CanIssue s x [] [.g d.toNat] →
    (lowRegister s x n.toNat = some v ∨ (x.priv = true ∧ highRegister s x n.toNat = some v)) →
    exec (.mfs n d) s = .next (s.withCur ((x.writeG d.toNat v).past 4))

/-- R60, R115, R260: MTS of a register of the context stores the value in that register and in no other; FRM above 4 and PIN
above 1 raise ILLEGAL with nothing written. -/
def Sys2Proof.Claims.MtsWrites : Prop :=
  ∀ (s : State) (x : Context) (n : BitVec 11) (a : BitVec 7),
    CanIssue s x [.g a.toNat] [.g a.toNat] → Settled s x →
    (∀ r, writtenSys x.regs.sys n.toNat (x.getG a.toNat).val = some r →
      exec (.mts n a) s = .next (s.withCur ({ x with regs := { x.regs with sys := r } }.past 4))) ∧
    ((n = 0x13 ∧ 4 < (x.getG a.toNat).val.toNat) ∨ (n = 0x17 ∧ 1 < (x.getG a.toNat).val.toNat) →
      x.pending = [] → HasHandler x → TrapsTo (exec (.mts n a) s) s x 0x01 (wordOf (.mts n a)))

/-- R352, R365, R391, R395: a privileged MTS of a plain partition register changes that register of the issuer's partition;
of PRESEL and PREAREA it changes the context's own; PRECMD 1 and 2 start a save or a restore that takes both with it. -/
def Sys2Proof.Claims.PrivilegedMtsWrites : Prop :=
  ∀ (s : State) (x : Context) (n : BitVec 11) (a : BitVec 7) (p : Partition),
    CanIssue s x [.g a.toNat] [.g a.toNat] → Settled s x → x.priv = true →
    assocGet x.part s.dev.parts = some p →
    let v := (x.getG a.toNat).val
    (∀ q, writtenPart p n.toNat v = some q →
      exec (.mts n a) s =
        .next { s with dev := { (s.withCur (x.past 4)).dev with parts := assocPut x.part q s.dev.parts } }) ∧
    (n = 0x110 → v.toNat < 2^19 →
      exec (.mts n a) s =
        .next (s.withCur ({ x with regs := { x.regs with sys := { x.regs.sys with presel := v } } }.past 4))) ∧
    (n = 0x111 → v &&& ~~~0x1FFFFFFFFFFF000 = 0 →
      exec (.mts n a) s =
        .next (s.withCur ({ x with regs := { x.regs with sys := { x.regs.sys with prearea := v } } }.past 4))) ∧
    (n = 0x112 → v.toNat % 4 = 1 ∨ v.toNat % 4 = 2 →
      exec (.mts n a) s =
        .next { s with dev := { (s.withCur ({ x with command := some s.dev.nextAccess }.past 4)).dev with
          nextAccess := s.dev.nextAccess + 1
          commands := s.dev.commands ++
            [{ save := v.toNat % 4 == 1, presel := x.regs.sys.presel, prearea := x.regs.sys.prearea, core := s.dev.core
               slot := s.dev.slot, vf := x.vf, part := x.part, after := s.dev.nextAccess, id := s.dev.nextAccess
               sent := s.dev.me.sent }] } })

/-- R85, R86, R118: a privileged encoding issued by an unprivileged context, and TSPAWN, TREAP or TKILL outside slot 0, raise
PRIV with the instruction word in TRAPVAL and have no effect. -/
def Sys2Proof.Claims.PrivilegeTraps : Prop :=
  ∀ (s : State) (x : Context) (n : BitVec 11) (sa : Bool) (a b d : BitVec 7),
    s.dev.cur = some x → x.phase = .ready → x.pending = [] → HasHandler x →
    (x.priv = false → ∀ i : Instr,
      (0x100 ≤ n.toNat ∧ (i = .mfs n d ∨ i = .mts n a)) ∨ i = .tlbinv sa b a ∨ i = .tlbsync d ∨ i = .migr sa b a d ∨
        i = .bqinit sa b a d → TrapsTo (exec i s) s x 0x02 (wordOf i)) ∧
    (s.dev.slot ≠ 0 → ∀ i : Instr, i = .tspawn sa b a d ∨ i = .treap sa a d ∨ i = .tkill sa a d →
      TrapsTo (exec i s) s x 0x02 (wordOf i))

/-- R16, R89: an instruction of the scalar forms that names a register outside the context's windows raises WINDOW before any
effect, and TRAPVAL names the first one in the order D, A, B. -/
def Sys2Proof.Claims.WindowTraps : Prop :=
  ∀ (o : Binary) (sa : Bool) (d a b : BitVec 7) (s : State) (x : Context) (r : Reg),
    [Reg.g d.toNat, Reg.g a.toNat, Reg.g b.toNat].find? (outside x) = some r →
    s.dev.cur = some x → x.phase = .ready → x.pending = [] → HasHandler x →
    TrapsTo (exec (o.instr sa b a d) s) s x 0x03 r.report

/-- R24: while a result whose window is over has not arrived, the turn stays empty; an instruction that names a register of a
result whose window is open raises LOOKAHEAD once every result has arrived. -/
def Sys2Proof.Claims.LookaheadWindows : Prop :=
  ∀ (o : Binary) (sa : Bool) (d a b : BitVec 7) (s : State) (x : Context) (p : Pending),
    let i := o.instr sa b a d
    s.dev.cur = some x → x.phase = .ready → p ∈ x.pending →
    (p.left = 0 → p.arrived = false → x.stalled = false → exec i s = .next s) ∧
    (∀ r, x.pending = [p] → 0 < p.left → p.dests = [r] → r ∈ [Reg.g d.toNat, Reg.g a.toNat, Reg.g b.toNat] →
      (∀ q ∈ [Reg.g d.toNat, Reg.g a.toNat, Reg.g b.toNat], x.inWindow q = true) →
      (sa = true → s.dev.me.bindingOf s.dev.slot (.g a.toNat) = none) → HasHandler x →
      (p.arrived = true → TrapsTo (exec i s) s x 0x13 r.report) ∧
      (p.arrived = false → ∃ t y, exec i s = .next t ∧ t.mem = s.mem ∧ t.dev.cur = some y ∧
        y.phase = .trapping 0x13 r.report x.regs.pc ∧ y.regs = x.regs ∧ y.pending = [p]))

/-- R119: on a core whose clock runs, a trap whose results have all arrived writes TRAPCAUSE, TRAPPC and TRAPVAL; with a handler that is
not running the context goes on there with INH set, and otherwise it stops with HOW 3 and leaves its groups. -/
def Sys2Proof.Claims.TrapEntry : Prop :=
  ∀ (s : State) (core slot : Nat) (x : Context) (cause : BitVec 8) (val pc : Word),
    s.dev.ctxAt core slot = some x → x.phase = .trapping cause val pc → (∀ p ∈ x.pending, p.arrived = true) →
    (s.dev.coreAt core).halted = false → (s.dev.coreAt core).woke = [] →
    ∃ t y, exec (.trapEntry core slot) s = .next t ∧ t.mem = s.mem ∧ t.dev.ctxAt core slot = some y ∧
      (HasHandler x → InHandler x y cause val pc) ∧
      (¬HasHandler x → y.phase = .stopped 3 0 cause ∧
        y.regs.sys = { x.regs.sys with trapcause := cause, trapval := val, trappc := pc } ∧
        y.regs.g = x.regs.g ∧ y.regs.pc = x.regs.pc ∧ StopCounts s t x)

/-- R119, R120: ECALL and BRK take their traps at themselves with TRAPVAL 0; RETT clears INH and goes on at TRAPPC, and outside
a handler raises ILLEGAL; YIELD with no pre-emption pending for the context goes on. -/
def Sys2Proof.Claims.TrapMajor : Prop :=
  ∀ (s : State) (x : Context), CanIssue s x [] [] →
    (x.pending = [] → HasHandler x → TrapsTo (exec .ecall s) s x 0x11 0 ∧ TrapsTo (exec .brk s) s x 0x12 0 ∧
      TrapsTo (exec .rett s) s x 0x01 (wordOf .rett)) ∧
    (x.regs.sys.inh = true → exec .rett s =
      .next (s.withCur ({ x with regs := { x.regs with sys := { x.regs.sys with inh := false } } }.movedTo x.regs.sys.trappc))) ∧
    (pendingSave s.dev s.dev.core s.dev.slot = none → preempting s.dev x = false → exec .yield s = .next (s.withCur (x.past 4)))

/-- R87, R89, R90: an encoding that is no instruction raises ILLEGAL with the word, or the halfword of a 16-bit encoding, in
TRAPVAL. -/
def Sys2Proof.Claims.IllegalEncodingTraps : Prop :=
  ∀ (s : State) (x : Context) (w : BitVec 32), s.dev.cur = some x → x.phase = .ready → x.pending = [] → HasHandler x →
    TrapsTo (exec (.illegalEncoding w) s) s x 0x01 (if w.getLsbD 0 then w.setWidth 64 else BitVec.ofNat 64 (w.toNat % 65536))

/-- R213, R216, R217: HALT and TEXIT of a context whose results have arrived, with nothing in flight that may fault, stop it with HOW 1
and 0 and the exit code; its groups count the stop. -/
def Obligations.ContextStops : Prop :=
  ∀ (s : State) (x : Context) (sa : Bool) (a : BitVec 7),
    Settled s x → (∀ p ∈ x.pending, p.arrived = true) → s.dev.me.woke = [] →
    (CanIssue s x [] [] →
      ∃ t y, exec .halt s = .next t ∧ t.mem = s.mem ∧ t.dev.cur = some y ∧ y.phase = .stopped 1 0 0 ∧ y.regs = x.regs ∧
        StopCounts s t x) ∧
    (CanIssue s x [.g a.toNat] [.g a.toNat] → x.canTakeG sa a →
      ∃ t y, exec (.texit sa a) s = .next t ∧ t.mem = s.mem ∧ t.dev.cur = some y ∧
        y.phase = .stopped 0 ((x.getG a.toNat).val.setWidth 16) 0 ∧ y.regs = (x.tookG sa a).regs ∧ StopCounts s t x)

namespace Sys2Proof.Claims
open Sys2Proof.Machine

/-- The scalar loads (R125). -/
inductive ScalarLoad where
  | lb
  | lbz
  | lh
  | lhz
  | lw
  | lwz
  | ld
  deriving DecidableEq, Repr

/-- The instruction of the opcode table. -/
def ScalarLoad.instr (o : ScalarLoad) (la : BitVec 4) (sc : BitVec 2) (str : Bool) (a d : BitVec 7) : Instr :=
  match o with
  | .lb => .lb la sc str a d
  | .lbz => .lbz la sc str a d
  | .lh => .lh la sc str a d
  | .lhz => .lhz la sc str a d
  | .lw => .lw la sc str a d
  | .lwz => .lwz la sc str a d
  | .ld => .ld la sc str a d

/-- Whether the value is sign-extended. -/
def ScalarLoad.signed (o : ScalarLoad) : Bool :=
  match o with
  | .lb => true
  | .lbz => false
  | .lh => true
  | .lhz => false
  | .lw => true
  | .lwz => false
  | .ld => false

/-- Bytes of the access. -/
def ScalarLoad.bytes (o : ScalarLoad) : Nat :=
  match o with
  | .lb => 1
  | .lbz => 1
  | .lh => 2
  | .lhz => 2
  | .lw => 4
  | .lwz => 4
  | .ld => 8

/-- The vector loads (R125). -/
inductive VectorLoad where
  | lv
  | lvS32
  | lvZ32
  | lvF32
  | lvBf16
  | lvF16
  | lvS8
  | lvZ8
  | lvSp32
  deriving DecidableEq, Repr

/-- The instruction of the opcode table. -/
def VectorLoad.instr (o : VectorLoad) (la : BitVec 4) (sc : BitVec 2) (str : Bool) (a d : BitVec 7) : Instr :=
  match o with
  | .lv => .lv la sc str a d
  | .lvS32 => .lvS32 la sc str a d
  | .lvZ32 => .lvZ32 la sc str a d
  | .lvF32 => .lvF32 la sc str a d
  | .lvBf16 => .lvBf16 la sc str a d
  | .lvF16 => .lvF16 la sc str a d
  | .lvS8 => .lvS8 la sc str a d
  | .lvZ8 => .lvZ8 la sc str a d
  | .lvSp32 => .lvSp32 la sc str a d

/-- The tag written (R125). -/
def VectorLoad.tag (o : VectorLoad) : BitVec 4 :=
  match o with
  | .lv => 0
  | .lvS32 => 1
  | .lvZ32 => 2
  | .lvF32 => 3
  | .lvBf16 => 4
  | .lvF16 => 5
  | .lvS8 => 6
  | .lvZ8 => 7
  | .lvSp32 => 10

/-- The loads with two addresses (R128, R129). -/
inductive ScaledLoad where
  | lvsE4
  | lvsE5
  | ldx
  deriving DecidableEq, Repr

/-- The instruction of the opcode table. -/
def ScaledLoad.instr (o : ScaledLoad) (la : BitVec 4) (b a d : BitVec 7) : Instr :=
  match o with
  | .lvsE4 => .lvsE4 la b a d
  | .lvsE5 => .lvsE5 la b a d
  | .ldx => .ldx la b a d

/-- The kind of access. -/
def ScaledLoad.kind (o : ScaledLoad) : AccessKind :=
  match o with
  | .lvsE4 => .loadScaled 8
  | .lvsE5 => .loadScaled 9
  | .ldx => .loadX

/-- Bytes and alignment of the part at gB. -/
def ScaledLoad.scaleBytes (o : ScaledLoad) : Nat :=
  match o with
  | .lvsE4 => 4
  | .lvsE5 => 4
  | .ldx => 2

/-- The scalar stores (R126). -/
inductive ScalarStore where
  | sb
  | sh
  | sw
  | sd
  deriving DecidableEq, Repr

/-- The instruction of the opcode table. -/
def ScalarStore.instr (o : ScalarStore) (sc : BitVec 2) (str : Bool) (a d : BitVec 7) : Instr :=
  match o with
  | .sb => .sb sc str a d
  | .sh => .sh sc str a d
  | .sw => .sw sc str a d
  | .sd => .sd sc str a d

/-- Bytes of the access. -/
def ScalarStore.bytes (o : ScalarStore) : Nat :=
  match o with
  | .sb => 1
  | .sh => 2
  | .sw => 4
  | .sd => 8

/-- The atomics (R134). -/
inductive Atomic where
  | amoSwap
  | amoAdd
  | amoAnd
  | amoOr
  | amoXor
  | amoMin
  | amoMax
  | amoMinu
  | amoMaxu
  | amoCas
  deriving DecidableEq, Repr

/-- The instruction of the opcode table. -/
def Atomic.instr (o : Atomic) (la : BitVec 4) (sc : BitVec 2) (w : Bool) (a d : BitVec 7) : Instr :=
  match o with
  | .amoSwap => .amoSwap la sc w a d
  | .amoAdd => .amoAdd la sc w a d
  | .amoAnd => .amoAnd la sc w a d
  | .amoOr => .amoOr la sc w a d
  | .amoXor => .amoXor la sc w a d
  | .amoMin => .amoMin la sc w a d
  | .amoMax => .amoMax la sc w a d
  | .amoMinu => .amoMinu la sc w a d
  | .amoMaxu => .amoMaxu la sc w a d
  | .amoCas => .amoCas la sc w a d

/-- AOP (R79). -/
def Atomic.op (o : Atomic) : Nat :=
  match o with
  | .amoSwap => 0
  | .amoAdd => 1
  | .amoAnd => 2
  | .amoOr => 3
  | .amoXor => 4
  | .amoMin => 5
  | .amoMax => 6
  | .amoMinu => 7
  | .amoMaxu => 8
  | .amoCas => 9

/-- What an atomic of n bytes stores when the word held `old`, with operand v and expected value e (R134); none when a CAS
fails and stores nothing. -/
def atomicStores (op n old v e : Nat) : Option Nat :=
  let signed (x : Nat) : Int := (BitVec.ofNat (8 * n) x).toInt
  match op with
  | 0 => some v
  | 1 => some ((old + v) % 2^(8 * n))
  | 2 => some (old &&& v)
  | 3 => some (old ||| v)
  | 4 => some (old ^^^ v)
  | 5 => some (if signed old < signed v then old else v)
  | 6 => some (if signed old < signed v then v else old)
  | 7 => some (min old v)
  | 8 => some (max old v)
  | _ => if old = e then some v else none

/-- The accesses of a state after an instruction that sent one: the old ones, and the new one last, with what it is for. -/
def Sends (s t : State) (x : Context) (kind : AccessKind) (addr : Word) (scope : BitVec 2) (strong : Bool) (parts : List Piece)
    (dest : Option Reg) (expiry : Option (Nat × BitVec 8)) : Prop :=
  t.mem = s.mem ∧
  t.dev.accesses = s.dev.accesses ++
    [{ id := s.dev.nextAccess, core := s.dev.core, slot := s.dev.slot, tid := x.tid, part := x.part, vf := x.vf
       launch := x.launch, seq := x.seq, kind := kind, addr := addr, scope := scope, strong := strong, pieces := parts
       before := some x.regs, after := x.rels, streams := streamsOf s.dev.me s.dev.slot, monitor := x.monitor, dest := dest, expiry := expiry }]

/-- A context after an instruction that sent an access and goes on (R126, R146). -/
def posted (x : Context) : Context := { x.past 4 with seq := x.seq + 1 }

/-- A context after a long-latency instruction: its destinations are pending with a window of `la` instructions (R24). -/
def awaiting (s : State) (x : Context) (la : BitVec 4) (dests : List Reg) : Context :=
  { x.past 4 with
    seq := x.seq + 1
    pending := (x.past 4).pending ++
      [{ id := s.dev.nextAccess, dests := dests, left := la.toNat, arrived := false, mayFault := true, due := none, reserved := [] }] }

/-- The address checks of R124 pass: the access of the context to an address of a VF goes to a place. -/
def ReachesAs (vf : Nat) (s : State) (x : Context) (a : Word) (need : BitVec 3) (q : Demand) (p : Place) : Prop :=
  (locate s.mem s.dev s.dev.core x.part vf (some (x, s.dev.slot)) true a need q).1 = .at_ p

/-- The same for an address of its own VF. -/
def Reaches (s : State) (x : Context) (a : Word) (need : BitVec 3) (q : Demand) (p : Place) : Prop := ReachesAs x.vf s x a need q p

/-- The same for a second address, located after a first. -/
def ReachesNext (s : State) (x : Context) (a : Word) (need : BitVec 3) (q : Demand) (b : Word) (need' : BitVec 3) (q' : Demand)
    (p : Place) : Prop :=
  (locate s.mem (locate s.mem s.dev s.dev.core x.part x.vf (some (x, s.dev.slot)) true a need q).2 s.dev.core x.part x.vf
    (some (x, s.dev.slot)) true b need' q').1 = .at_ p

/-- The parts of a 128-byte access (R122): four bytes in each lane's slice, or sixteen words. -/
def vectorParts (p : Place) (bits : VBits) : List Piece :=
  match p.port with
  | .lane _ => (List.range 32).map fun j =>
      { port := p.port, key := p.key + 4096 * j, bytes := 4, data := BitVec.ofNat 64 (bits.toNat / 2^(32 * j) % 2^32) }
  | _ => (List.range 16).map fun j =>
      { port := p.port, key := p.key + 8 * j, bytes := 8, data := BitVec.ofNat 64 (bits.toNat / 2^(64 * j)), tile := p.tile }

/-- The n words of a place. -/
def wordParts (p : Place) (n x : Nat) : List Piece :=
  (List.range n).map fun j =>
    { port := p.port, key := p.key + 8 * j, bytes := 8, data := BitVec.ofNat 64 (x / 2^(64 * j)), tile := p.tile }

/-- A part of an access that nothing holds back: it may perform now, the thread's own stores do not supply it, its line is not
lost, no trace ring or replay has a say in it, its place is on a chip or has all its tokens at home, and memory has its canonical
form. -/
structure Unhindered (s : State) (n i : Nat) (a : Access) (p : Piece) : Prop where
  there : s.dev.access n = some a
  part : a.pieces[i]? = some p
  free : performs s.dev a i p = true
  notForwarded : forwarded s.dev a p = none
  kept : ∀ q ∈ a.pieces, s.dev.lostLine q.line = false ∧ s.dev.lostDies.contains q.port.die = false
  inside : (∀ l, p.port ≠ .peer l) ∧ (∀ l, p.port ≠ .host l)
  home : Config.scratchpadBase ≤ p.key ∨ (s.dev.lineAt p.line).home = Config.tokensPerLine
  untraced : recorded s.dev a p = false
  notReplayed : (s.dev.partAt a.part).trplay.getLsbD 0 = false
  room : traceRoom s.dev a p = true
  clean : s.mem.isPoisoned p.key = false
  noWaiters : s.dev.waiters = []
  sorted : s.mem.wf = true

/-- The n bytes from a place hold a number, least significant first, and every other byte is as before. -/
def Stored (m m' : Memory) (key n x : Nat) : Prop :=
  ∀ k, m'.byte k = if key ≤ k ∧ k < key + n then BitVec.ofNat 8 (x / 256^(k - key)) else m.byte k

/-- The dies that have received an access after one of its parts arrived at a port (R259). -/
def landedAt (a : Access) (p : Piece) : List Nat := if p.port.die ∈ a.landed then a.landed else p.port.die :: a.landed

/-- Full bits and poison marks are as before. -/
def MarksSame (m m' : Memory) : Prop := ∀ k, m'.isFull k = m.isFull k ∧ m'.isPoisoned k = m.isPoisoned k

end Sys2Proof.Claims

/-! Memory: the instructions as they issue. -/

/-- R24, R121, R125: a scalar load sends one access of its width and leaves gD pending with a window of LA instructions. -/
def Sys2Proof.Claims.ScalarLoadsIssue : Prop :=
  ∀ (o : ScalarLoad) (la : BitVec 4) (sc : BitVec 2) (str : Bool) (a d : BitVec 7) (s : State) (x : Context) (p : Place),
    CanIssue s x [.g a.toNat] [.g d.toNat, .g a.toNat] →
    let ad := (x.getG a.toNat).val
    ad.toNat % o.bytes = 0 → Reaches s x ad needR .plain p →
    ∃ t, exec (o.instr la sc str a d) s = .next t ∧
      t.dev.cur = some (awaiting s x la (if d = 0 then [] else [.g d.toNat])) ∧
      Sends s t x (.load o.signed o.bytes) ad sc str [{ port := p.port, key := p.key, bytes := o.bytes }] (some (.g d.toNat)) none

/-- R122, R125: a vector load sends its sixteen words, or its 32 lane words, and leaves vD pending. -/
def Sys2Proof.Claims.VectorLoadsIssue : Prop :=
  ∀ (o : VectorLoad) (la : BitVec 4) (sc : BitVec 2) (str : Bool) (a d : BitVec 7) (s : State) (x : Context) (p : Place),
    CanIssue s x [.g a.toNat] [.v d.toNat, .g a.toNat] →
    let ad := (x.getG a.toNat).val
    ad.toNat % (if ad.toNat / 2^48 = 0xFE03 then 4 else 128) = 0 → Reaches s x ad needR .vector p →
    ∃ t, exec (o.instr la sc str a d) s = .next t ∧ t.dev.cur = some (awaiting s x la [.v d.toNat]) ∧
      Sends s t x (.loadV o.tag) ad sc str (vectorParts p 0) (some (.v d.toNat)) none

/-- R128, R129, R141: LVS reads a vector and its scale word, LDX two blocks and their scale bytes, and TLD the eight vectors of
a tile of a registered tensor. -/
def Sys2Proof.Claims.ScaledAndTileLoadsIssue : Prop :=
  (∀ (o : ScaledLoad) (la : BitVec 4) (a b d : BitVec 7) (s : State) (x : Context) (p q : Place),
    CanIssue s x [.g a.toNat, .g b.toNat] [.v d.toNat, .g a.toNat, .g b.toNat] →
    let ad := (x.getG a.toNat).val
    let sd := (x.getG b.toNat).val
    let dem : Demand := if o = .ldx then .expand else .vector
    ad.toNat % (if o = .ldx then 32 else if ad.toNat / 2^48 = 0xFE03 then 4 else 128) = 0 → sd.toNat % o.scaleBytes = 0 →
    Reaches s x ad needR dem p →
    ReachesNext s x ad needR dem sd needR (if o = .ldx then .expand else .plain) q →
    ∃ t, exec (o.instr la b a d) s = .next t ∧ t.dev.cur = some (awaiting s x la [.v d.toNat]) ∧
      Sends s t x o.kind ad 3 false
        ((if o = .ldx then wordParts p 4 0 else vectorParts p 0) ++
          [{ port := q.port, key := q.key, bytes := o.scaleBytes, own := some sd }])
        (some (.v d.toNat)) none) ∧
  (∀ (la : BitVec 4) (a b d : BitVec 7) (s : State) (x : Context) (p : Place) (tn : Tensor) (row col : Nat),
    CanIssue s x [.g a.toNat, .g b.toNat] (tileRegs d.toNat ++ [.g a.toNat, .g b.toNat]) →
    (s.dev.partAt x.part).tensor (x.getG a.toNat).val = some tn →
    (x.getG b.toNat).val.toNat = col * 2^32 + row → row < tn.tiles.1 → row < 2^32 → col < tn.tiles.2 →
    let ad := tn.base + BitVec.ofNat 64 ((row * tn.tiles.2 + col) * 1024)
    ReachesAs tn.vf s x ad needRW .tile p →
    ∃ t, exec (.tld la b a d) s = .next t ∧ t.dev.cur = some (awaiting s x la (tileRegs d.toNat)) ∧
      Sends s t x (.tileLoad tn.tag) ad 3 false (wordParts p 128 0) (some (.v d.toNat)) none)

/-- R126, R128, R141, R146: a store is posted: it sends the low bytes of gD, the bits of vD, the bits and the scale word (SVS),
or the eight vectors of a tile, and its context goes on. -/
def Sys2Proof.Claims.StoresIssue : Prop :=
  (∀ (o : ScalarStore) (sc : BitVec 2) (str : Bool) (a d : BitVec 7) (s : State) (x : Context) (p : Place),
    CanIssue s x [.g a.toNat, .g d.toNat] [.g d.toNat, .g a.toNat] →
    let ad := (x.getG a.toNat).val
    ad.toNat % o.bytes = 0 → Reaches s x ad needW .plain p →
    ∃ t, exec (o.instr sc str a d) s = .next t ∧ t.dev.cur = some (posted x) ∧
      Sends s t x .store ad sc str [{ port := p.port, key := p.key, bytes := o.bytes, data := (x.getG d.toNat).val }] none none) ∧
  (∀ (sc : BitVec 2) (str : Bool) (a d : BitVec 7) (s : State) (x : Context) (p : Place),
    CanIssue s x [.g a.toNat, .v d.toNat] [.v d.toNat, .g a.toNat] →
    let ad := (x.getG a.toNat).val
    ad.toNat % (if ad.toNat / 2^48 = 0xFE03 then 4 else 128) = 0 → Reaches s x ad needW .vector p →
    ∃ t, exec (.sv sc str a d) s = .next t ∧ t.dev.cur = some (posted x) ∧
      Sends s t x .store ad sc str (vectorParts p (x.getV d.toNat).bits) none none) ∧
  (∀ (a b d : BitVec 7) (s : State) (x : Context) (p q : Place),
    CanIssue s x [.g a.toNat, .g b.toNat, .v d.toNat] [.v d.toNat, .g a.toNat, .g b.toNat] →
    let ad := (x.getG a.toNat).val
    let sd := (x.getG b.toNat).val
    ad.toNat % (if ad.toNat / 2^48 = 0xFE03 then 4 else 128) = 0 → sd.toNat % 4 = 0 → Reaches s x ad needW .vector p →
    ReachesNext s x ad needW .vector sd needW .plain q →
    ∃ t, exec (.svs b a d) s = .next t ∧ t.dev.cur = some (posted x) ∧
      Sends s t x .store ad 3 false
        (vectorParts p (x.getV d.toNat).bits ++
          [{ port := q.port, key := q.key, bytes := 4, data := (x.getV d.toNat).scale.setWidth 64, own := some sd }]) none none) ∧
  (∀ (a b d : BitVec 7) (s : State) (x : Context) (p : Place) (tn : Tensor) (row col : Nat),
    CanIssue s x ([.g a.toNat, .g b.toNat] ++ tileRegs d.toNat) (tileRegs d.toNat ++ [.g a.toNat, .g b.toNat]) →
    (s.dev.partAt x.part).tensor (x.getG a.toNat).val = some tn →
    (x.getG b.toNat).val.toNat = col * 2^32 + row → row < tn.tiles.1 → row < 2^32 → col < tn.tiles.2 →
    (∀ k, k < 8 → (x.getV (d.toNat + k)).tag = tn.tag) →
    let ad := tn.base + BitVec.ofNat 64 ((row * tn.tiles.2 + col) * 1024)
    ReachesAs tn.vf s x ad needW .tile p →
    ∃ t bits, exec (.tst b a d) s = .next t ∧ t.dev.cur = some (posted x) ∧
      (∀ k, k < 8 → bits / 2^(1024 * k) % 2^1024 = (x.getV (d.toNat + k)).bits.toNat) ∧
      Sends s t x .tileStore ad 3 false (wordParts p 128 bits) none none)

/-- R130 to R135: LDF and the atomics leave gD pending, STF is posted, and STF.E parks its issuer at the port; all are strong
accesses of one word, and an LDF or STF.E that is not late carries its bound. -/
def Sys2Proof.Claims.SynchronisingAccessesIssue : Prop :=
  (∀ (la : BitVec 4) (sc : BitVec 2) (tryIt consume : Bool) (a d : BitVec 7) (s : State) (x : Context) (p : Place),
    CanIssue s x [.g a.toNat] [.g d.toNat, .g a.toNat] →
    let ad := (x.getG a.toNat).val
    let e := if tryIt then none else expiryOf x.regs.sys s.dev.wall
    ad.toNat % 8 = 0 → Reaches s x ad (if consume then needRW else needR) .sync p → expired e s.dev.wall = none →
    ∃ t, exec (.ldf la sc tryIt consume a d) s = .next t ∧
      t.dev.cur = some (awaiting s x la (if d = 0 then [] else [.g d.toNat])) ∧
      Sends s t x (.ldf consume tryIt) ad sc true [{ port := p.port, key := p.key, bytes := 8 }] (some (.g d.toNat)) e) ∧
  (∀ (sc : BitVec 2) (a d : BitVec 7) (s : State) (x : Context) (p : Place),
    CanIssue s x [.g a.toNat, .g d.toNat] [.g d.toNat, .g a.toNat] →
    let ad := (x.getG a.toNat).val
    let parts : List Piece := [{ port := p.port, key := p.key, bytes := 8, data := (x.getG d.toNat).val }]
    let e := expiryOf x.regs.sys s.dev.wall
    ad.toNat % 8 = 0 → Reaches s x ad needRW .sync p →
    (∃ t, exec (.stf sc false a d) s = .next t ∧ t.dev.cur = some (posted x) ∧
      Sends s t x (.stf false) ad sc true parts none none) ∧
    (Settled s x → x.stallSince = none → expired e s.dev.wall = none →
      ∃ t y, exec (.stf sc true a d) s = .next t ∧ t.dev.cur = some y ∧ y.phase = .parked ⟨.port, s.dev.wall, e, 0⟩ ∧
        y.regs = x.regs ∧ Sends s t x (.stf true) ad sc true parts none e)) ∧
  (∀ (o : Atomic) (la : BitVec 4) (sc : BitVec 2) (w : Bool) (a d : BitVec 7) (s : State) (x : Context) (p : Place),
    let ex : List Reg := if o = .amoCas then [.g (d.toNat + 1)] else []
    let n := if w then 8 else 4
    CanIssue s x ([.g a.toNat, .g d.toNat] ++ ex) ([.g d.toNat] ++ ex ++ [.g a.toNat]) →
    let ad := (x.getG a.toNat).val
    ad.toNat % n = 0 → Reaches s x ad needRW (.atomic w) p →
    ∃ t, exec (o.instr la sc w a d) s = .next t ∧ t.dev.cur = some (awaiting s x la (if d = 0 then [] else [.g d.toNat])) ∧
      Sends s t x (.amo o.op w (if o = .amoCas then (x.getG (d.toNat + 1)).val else 0)) ad sc true
        [{ port := p.port, key := p.key, bytes := n, data := (x.getG d.toNat).val }] (some (.g d.toNat)) none)

/-- R121, R124: a load, store, LDF, STF or atomic whose address is not a multiple of its width raises ALIGN with the address. -/
def Sys2Proof.Claims.MisalignedAccessesTrap : Prop :=
  ∀ (s : State) (x : Context) (a d : BitVec 7),
    CanIssue s x [.g a.toNat, .g d.toNat] [.g d.toNat, .g a.toNat] → x.pending = [] → HasHandler x →
    let ad := (x.getG a.toNat).val
    (∀ (o : ScalarLoad) la sc str, ad.toNat % o.bytes ≠ 0 → TrapsTo (exec (o.instr la sc str a d) s) s x 0x05 ad) ∧
    (∀ (o : ScalarStore) sc str, ad.toNat % o.bytes ≠ 0 → TrapsTo (exec (o.instr sc str a d) s) s x 0x05 ad) ∧
    (ad.toNat % 8 ≠ 0 → ∀ la sc tryIt consume e, TrapsTo (exec (.ldf la sc tryIt consume a d) s) s x 0x05 ad ∧
      TrapsTo (exec (.stf sc e a d) s) s x 0x05 ad) ∧
    (∀ (o : Atomic) la sc w, o ≠ .amoCas → ad.toNat % (if w then 8 else 4) ≠ 0 →
      TrapsTo (exec (o.instr la sc w a d) s) s x 0x05 ad)

/-! Memory: what happens at the owning port and back at the core. -/

/-- R46, R122, R126, R127, R251: a part of a load takes the bytes of its place, least significant first, and changes no memory;
a part of a store writes the bytes of its place and no other byte. -/
def Sys2Proof.Claims.PlainAccessesPerform : Prop :=
  ∀ (s : State) (n i : Nat) (a : Access) (p : Piece), Unhindered s n i a p →
    (a.kind.plainLoad = true →
      ∃ t, exec (.accessPerform n i) s = .next t ∧ t.mem = s.mem ∧
        t.dev.access n = some { a with
          pieces := a.pieces.set i { p with done := true, waiting := none, data := BitVec.ofNat 64 (s.mem.nat p.key p.bytes) } }) ∧
    (a.kind = .store ∨ a.kind = .tileStore →
      ∃ t, exec (.accessPerform n i) s = .next t ∧ Stored s.mem t.mem p.key p.bytes p.data.toNat ∧ MarksSame s.mem t.mem ∧
        ∀ f, f ∈ t.dev.fires ↔ f ∈ s.dev.fires ∨ f ∈ monitorFires s.dev [p.key / 8])

/-- R134, R251: an atomic returns the old value of its word and stores the result of its operation there, or nothing when a
CAS fails. -/
def Sys2Proof.Claims.AtomicsPerform : Prop :=
  ∀ (s : State) (n i : Nat) (a : Access) (p : Piece) (op : Nat) (w : Bool) (e : Word), Unhindered s n i a p →
    a.kind = .amo op w e → a.pieces = [p] → 0 < p.bytes →
    let old := s.mem.nat p.key p.bytes
    let md := 2^(8 * p.bytes)
    ∃ t, exec (.accessPerform n i) s = .next t ∧ MarksSame s.mem t.mem ∧
      t.dev.access n = some { a with
        landed := landedAt a p, pieces := [{ p with done := true, waiting := none, data := BitVec.ofNat 64 old }] } ∧
      (∀ v, atomicStores op p.bytes old (p.data.toNat % md) (e.toNat % md) = some v → Stored s.mem t.mem p.key p.bytes v) ∧
      (atomicStores op p.bytes old (p.data.toNat % md) (e.toNat % md) = none → ∀ k, t.mem.byte k = s.mem.byte k)

/-- R130 to R132: an LDF of a full word takes its value and, when it consumes, empties the word; of an empty word it waits, or
with T answers 2^63; an STF stores its word and fills it; an STF.E of a full word waits. -/
def Sys2Proof.Claims.SynchronisingAccessesPerform : Prop :=
  ∀ (s : State) (n i : Nat) (a : Access) (p : Piece), Unhindered s n i a p → a.pieces = [p] → p.bytes = 8 → p.key % 8 = 0 →
    a.orphan = false →
    (∀ consume tryIt, a.kind = .ldf consume tryIt → s.mem.isFull p.key = true →
      ∃ t, exec (.accessPerform n i) s = .next t ∧ (∀ k, t.mem.byte k = s.mem.byte k) ∧
        (∀ k, t.mem.isFull k = if consume ∧ k / 8 = p.key / 8 then false else s.mem.isFull k) ∧
        t.dev.access n = some { a with pieces := [{ p with done := true, waiting := none, data := s.mem.word p.key }] }) ∧
    (∀ consume, a.kind = .ldf consume true → s.mem.isFull p.key = false →
      ∃ t, exec (.accessPerform n i) s = .next t ∧ t.mem = s.mem ∧
        t.dev.access n = some { a with pieces := [{ p with done := true, waiting := none, data := 0x8000000000000000 }] }) ∧
    (∀ consume, a.kind = .ldf consume false → s.mem.isFull p.key = false →
      ∃ t, exec (.accessPerform n i) s = .next t ∧ t.mem = s.mem ∧
        t.dev.access n = some { a with pieces := [{ p with waiting := some s.dev.nextAccess }] }) ∧
    (∀ wait, a.kind = .stf wait → wait = false ∨ s.mem.isFull p.key = false →
      ∃ t, exec (.accessPerform n i) s = .next t ∧ Stored s.mem t.mem p.key 8 p.data.toNat ∧
        ∀ k, t.mem.isFull k = if k / 8 = p.key / 8 then true else s.mem.isFull k) ∧
    (a.kind = .stf true → s.mem.isFull p.key = true →
      ∃ t, exec (.accessPerform n i) s = .next t ∧ t.mem = s.mem ∧
        t.dev.access n = some { a with landed := landedAt a p, pieces := [{ p with waiting := some s.dev.nextAccess }] })

/-- R18, R24, R125, R128, R130, R134, R141: when every part of an access has performed, its result is written to its
destinations as an ordinary write: extended to 64 bits, or with the tag and scale word the load gives. -/
def Sys2Proof.Claims.ResultsArrive : Prop :=
  ∀ (s : State) (n : Nat) (a : Access) (x : Context) (q : Pending),
    s.dev.access n = some a → a.id = n → a.complete = true → a.fault = none → a.orphan = false →
    (s.dev.coreAt a.core).halted = false → (s.dev.coreAt a.core).inbound = [] → (s.dev.coreAt a.core).lastDeposit = none →
    s.dev.ctxAt a.core a.slot = some x → x.phase = .ready → x.pending = [q] → q.id = n → q.reserved = [] →
    let raw := assemble a.pieces
    let returns (regs : Regs) : Prop := ∃ t y, exec (.longLatencyResult n) s = .next t ∧ t.mem = s.mem ∧
      t.dev.ctxAt a.core a.slot = some y ∧ y.regs = regs ∧ y.phase = .ready ∧
      y.pending = (if q.left = 0 then [] else [{ q with arrived := true, mayFault := false }])
    (∀ sg b d, a.kind = .load sg b → a.dest = some (.g d) →
      returns (x.writeG d (if sg then (BitVec.ofNat (8 * b) raw).signExtend 64 else (BitVec.ofNat (8 * b) raw).setWidth 64)).regs) ∧
    (∀ tag d, a.kind = .loadV tag → a.dest = some (.v d) → returns (x.writeV d (BitVec.ofNat 1024 raw) tag 0x3F800000).regs) ∧
    (∀ tag d ps c, a.kind = .loadScaled tag → a.dest = some (.v d) → a.pieces = ps ++ [c] →
      returns (x.writeV d (BitVec.ofNat 1024 (assemble ps)) tag (BitVec.ofNat 32 c.data.toNat)).regs) ∧
    (∀ d ps c, a.kind = .loadX → a.dest = some (.v d) → a.pieces = ps ++ [c] →
      returns (x.writeV d (expandBlocks (assemble ps) c.data.toNat) 4 0x3F800000).regs) ∧
    (∀ tag d, a.kind = .tileLoad tag → a.dest = some (.v d) →
      returns ((List.range 8).foldl (fun y k => y.writeV (d + k) (BitVec.ofNat 1024 (raw / 2^(1024 * k))) tag 0x3F800000) x).regs) ∧
    (∀ c t d, a.kind = .ldf c t → a.dest = some (.g d) → returns (x.writeG d (BitVec.ofNat 64 raw)).regs) ∧
    (∀ op w e d, a.kind = .amo op w e → a.dest = some (.g d) →
      returns (x.writeG d (if w then BitVec.ofNat 64 raw else (BitVec.ofNat 32 raw).signExtend 64)).regs)

/-- R25, R124: a fault that an access met is delivered at the access: the registers go back to what they were before it, what
issued after it is withdrawn, and the trap is taken there. -/
def Sys2Proof.Claims.FaultsArePrecise : Prop :=
  ∀ (s : State) (n : Nat) (a : Access) (x : Context) (r : Regs) (c : BitVec 8) (v : Word),
    s.dev.access n = some a → a.id = n → a.fault = some (c, v) → a.orphan = false → a.before = some r →
    (s.dev.coreAt a.core).halted = false → (s.dev.coreAt a.core).inbound = [] → s.dev.ctxAt a.core a.slot = some x → x.tid = a.tid → x.phase = .ready →
    s.dev.savingOf a.core a.slot = none → (∀ p ∈ x.pending, p.id < n → p.arrived = true) → r.sys.trapvec ≠ 0 → r.sys.inh = false →
    ∃ t y, exec (.longLatencyResult n) s = .next t ∧ t.mem = s.mem ∧ t.dev.ctxAt a.core a.slot = some y ∧
      InHandler { x with regs := r } y c v r.pc ∧
      ∀ b ∈ t.dev.accesses, ¬(b.core = a.core ∧ b.slot = a.slot ∧ b.tid = a.tid ∧ n ≤ b.id)

namespace Sys2Proof.Claims
open Sys2Proof.Machine

/-- No access of the context whose turn it is is in flight, none of its fence markers either, its core has sent no write to any
die, and no write to the host is unanswered. -/
def Drained (s : State) (x : Context) : Prop :=
  (∀ a ∈ s.dev.accesses, ¬(a.core = s.dev.core ∧ a.slot = s.dev.slot ∧ a.tid = x.tid ∧ a.orphan = false)) ∧
  (∀ m ∈ s.dev.markers, ¬(m.core = s.dev.core ∧ m.slot = s.dev.slot)) ∧ s.dev.me.sent = [] ∧ s.dev.hmwrs = []

/-- The wall ns of the first turn at which the instruction of a ready context could not complete (R38): that of its stream stall, or
the present one. -/
def since (s : State) (x : Context) : Nat := x.stallSince.getD s.dev.wall

/-- A wait that the ready context begins now has not expired. -/
def InTime (s : State) (x : Context) : Prop := expired (expiryOf x.regs.sys (since s x)) s.dev.wall = none

/-- The wait of a context that begins now, under the bound of R38, for a value in register d. -/
def waitOf (s : State) (x : Context) (k : WaitKind) (d : Nat) : Wait := ⟨k, since s x, expiryOf x.regs.sys (since s x), d⟩

/-- What the synchronised read of register A took, when SA is 1 (R8, R19). -/
def tookOf (sa : Bool) (a : BitVec 7) : List Taken := if sa = true ∧ a ≠ 0 then [.full (.g a.toNat) none] else []

/-- A context that sleeps in the instruction at its pc for a reason, and writes register d when woken. -/
def sleepsFor (s : State) (x : Context) (k : WaitKind) (d : Nat) (ts : List Taken) : Context :=
  { x with
    phase := .sleeping (waitOf s x k d)
    stallSince := none
    stalled := false
    taken := ts
    pending := advanceWindows x.pending }

/-- A context after its wait ended with a value for its destination (R14, R212). -/
def woken (x : Context) (d : Nat) (w : Word) : Context :=
  { (x.writeG d w) with
    regs := { (x.writeG d w).regs with pc := x.regs.pc + 4 }
    phase := .ready
    stallSince := none
    stalled := false
    taken := [] }

/-- The register of a context's slot is bound to no stream, and no deposit of this cycle stands in it. -/
def Unbound (s : State) (core slot n : Nat) : Prop :=
  (s.dev.coreAt core).bindingOf slot (.g n) = none ∧ (s.dev.coreAt core).justDeposited slot (.g n) = none

/-- An event completes with the context of a slot replaced; memory, every other context and every other core are as before. -/
def OnlyContext (o : Host.Outcome State Fault Refusal) (s : State) (core slot : Nat) (y : Context) : Prop :=
  ∃ t, o = .next t ∧ t.mem = s.mem ∧ t.dev.ctxAt core slot = some y ∧
    (∀ j, j ≠ slot → t.dev.ctxAt core j = s.dev.ctxAt core j) ∧ ∀ c, c ≠ core → t.dev.coreAt c = s.dev.coreAt c

end Sys2Proof.Claims

/-! Fences, monitors, caches and waits. -/

/-- R137: a fence completes at once when nothing of the context is in flight, FENCE.STRINGS when none of its OPASS is; FENCE.FULL and
FENCE.ENGINE with a part of an access in its scope outstanding park with no effect, and FENCE.REL parks, or goes on with the writes
after it waiting for what was outstanding (the choice between the two is the model's, log entry 23). -/
def Sys2Proof.Claims.Fences : Prop :=
  ∀ (s : State) (x : Context) (sc : BitVec 2), CanIssue s x [] [] → s.mem.wf = true →
    (Drained s x → ∀ i : Instr, i = .fenceFull sc ∨ i = .fenceAcq sc ∨ i = .fenceRel sc ∨ i = .fenceEngine sc →
      ∃ t, exec i s = .next t ∧ t.mem = s.mem ∧ t.dev.cur = some (x.past 4) ∧ t.dev.markers = s.dev.markers) ∧
    ((∀ q ∈ s.dev.me.sends, q.owner ≠ s.dev.slot) →
      ∃ t, exec (.fenceStrings sc) s = .next t ∧ t.mem = s.mem ∧ t.dev.cur = some (x.past 4)) ∧
    (∀ a ∈ s.dev.accesses, ∀ p ∈ a.pieces, a.core = s.dev.core → a.slot = s.dev.slot → a.tid = x.tid → a.orphan = false →
      p.done = false → p.port.within sc s.dev.core = true → InTime s x →
      (∀ i : Instr, i = .fenceFull sc ∨ i = .fenceEngine sc →
        ∃ t y, exec i s = .next t ∧ t.mem = s.mem ∧ t.dev.cur = some y ∧ y.regs = x.regs ∧ y.phase = .parked (waitOf s x .retry 0)) ∧
      ∃ t y, exec (.fenceRel sc) s = .next t ∧ t.mem = s.mem ∧ t.dev.cur = some y ∧
        ((y.regs = x.regs ∧ y.phase = .parked (waitOf s x .retry 0)) ∨
          (y.regs = (x.past 4).regs ∧ y.phase = .ready ∧ (s.dev.nextAccess, sc) ∈ y.rels)))

/-- R259: over an active link a fence marker reaches its die and stands there, and is acknowledged once the die has received as many
writes of its core as the marker counts, modulo 2^32; the marker of a releasing fence that its context has passed then stands no
more. -/
def Sys2Proof.Claims.FenceMarkers : Prop :=
  ∀ (s : State) (n : Nat) (m : Marker), s.dev.markers[n]? = some m → s.dev.linkState (dieOfCore m.core) m.die = .active →
    (exec (.fenceMarker n) s = .next { s with dev := { s.dev with markers := s.dev.markers.set n { m with arrived := true } } }) ∧
    (m.arrived = true →
      ((((assocGet m.die (s.dev.coreAt m.core).got).getD 0 - m.count).toNat < 2^31) →
        (m.rel = none → exec (.fenceMarkerAck n) s =
          .next { s with dev := { s.dev with markers := s.dev.markers.set n { m with acked := true } } }) ∧
        (m.rel ≠ none → exec (.fenceMarkerAck n) s =
          .next { s with dev := { s.dev with markers := s.dev.markers.eraseIdx n } })) ∧
      (2^31 ≤ ((assocGet m.die (s.dev.coreAt m.core).got).getD 0 - m.count).toNat → exec (.fenceMarkerAck n) s = .next s))

/-- R138, R139, R213, R258: MARM replaces the context's monitor, sends its registration and answers whether one was there; MARM.OFF
removes it; a fire marks it and ends a SLEEPM with code 0, and SLEEPM on a fired monitor ends at once. The permission that MARM
needs is the model's choice (log entry 87). -/
def Obligations.Monitors : Prop :=
  (∀ (sc : BitVec 2) (a d : BitVec 7) (s : State) (x : Context) (p : Place),
    CanIssue s x [.g a.toNat] [.g d.toNat, .g a.toNat] → Settled s x →
    let ad := (x.getG a.toNat).val
    ad.toNat % 8 = 0 → Reaches s x ad needR .sync p →
    ∃ t, exec (.marm sc a d) s = .next t ∧
      t.dev.cur = some ({ (x.writeG d.toNat (bit x.monitor.isSome)) with
        monitor := some ⟨ad, p.key, false, s.dev.nextAccess, false⟩, seq := x.seq + 1 }.past 4) ∧
      Sends s t x (.marm s.dev.nextAccess) ad sc false [{ port := p.port, key := p.key, bytes := 8 }] none none) ∧
  (∀ (s : State) (x : Context), CanIssue s x [] [] → Settled s x →
    exec .marmOff s = .next (s.withCur ({ x with monitor := none }.past 4))) ∧
  (∀ (d : BitVec 7) (s : State) (x : Context), CanIssue s x [] [.g d.toNat] →
    (∀ m, x.monitor = some m → m.fired = true →
      exec (.sleepm d) s = .next (s.withCur ((x.writeG d.toNat 0).past 4))) ∧
    ((∀ m, x.monitor = some m → m.fired = false) → x.regs.wakePending = false → InTime s x →
      exec (.sleepm d) s = .next (s.withCur (sleepsFor s x .monitor d.toNat [])))) ∧
  (∀ (s : State) (n : Nat) (f : Fire) (core slot : Nat) (x : Context) (m : Monitor) (w : Wait),
    s.dev.fires[n]? = some f → s.dev.findTid f.part f.launch f.tid = some (core, slot) → s.dev.ctxAt core slot = some x →
    x.monitor = some m → m.reg = f.reg → (s.dev.coreAt core).halted = false →
    x.phase = .sleeping w → w.kind = .monitor → expired w.expiry s.dev.wall = none → Unbound s core slot w.dest →
    ∃ t, exec (.monitorFire n) s = .next t ∧ t.mem = s.mem ∧ t.dev.fires = s.dev.fires.eraseIdx n ∧
      t.dev.ctxAt core slot = some (woken { x with monitor := some { m with fired := true } } w.dest 0))

/-- R73, R143, R244: FLUSH and CLEAN of an on-chip address do nothing, and of another send a posted request for its line, of 1 KiB
on a tile-view page and of 128 bytes elsewhere; INVAL drops the line from the core's L1 data cache, and its next FENCE.FULL has the
line's instructions fetched anew; PREF changes nothing. That PREF has no effect to be seen, and the tile line, are the model's
reading (log entries 43 and 46). -/
def Obligations.CacheInstructions : Prop :=
  ∀ (sa : Bool) (a : BitVec 7) (s : State) (x : Context),
    CanIssue s x [.g a.toNat] [.g a.toNat] → x.canTakeG sa a →
    let ad := (x.getG a.toNat).val
    (isWindow ad = true → ∀ i : Instr, i = .flush sa a ∨ i = .clean sa a →
      exec i s = .next (s.withCur ((x.tookG sa a).past 4))) ∧
    (exec (.pref sa a) s = .next (s.withCur ((x.tookG sa a).past 4))) ∧
    (∀ p : Place, isWindow ad = false → Reaches s (x.tookG sa a) ad 0 .tile p →
      ∀ (i : Instr) (k : AccessKind), (i = .flush sa a ∧ k = .flush) ∨ (i = .clean sa a ∧ k = .clean) →
      ∃ t, exec i s = .next t ∧ t.dev.cur = some (posted (x.tookG sa a)) ∧
        Sends s t x k ad 3 false
          [{ port := p.port, key := p.line * 128, bytes := if p.tile then 1024 else 128, tile := p.tile }] none none) ∧
    (isWindow ad = true → Settled s x → exec (.inval sa a) s = .next (s.withCur ((x.tookG sa a).past 4))) ∧
    (∀ p : Place, isWindow ad = false → Settled s x → Reaches s (x.tookG sa a) ad 0 .tile p →
      ∃ t, exec (.inval sa a) s = .next t ∧ t.mem = s.mem ∧ t.dev.cur = some ((x.tookG sa a).past 4) ∧
        p.key / 128 ∈ t.dev.me.stale ∧ ∀ h ∈ (t.dev.lineAt p.line).holders, h.1 ≠ s.dev.core)

/-- R37, R213: WAITC of 0 cycles, WAITW of an instant that has come, and WAITK whose mask names a stopped context, or no context, end at
once with 0, 0, the lowest stopped slot and all ones; otherwise a pending wake ends them with code 2, or the context sleeps. -/
def Sys2Proof.Claims.SleepingWaits : Prop :=
  ∀ (sa : Bool) (a d : BitVec 7) (s : State) (x : Context),
    CanIssue s x [.g a.toNat] [.g d.toNat, .g a.toNat] → x.canTakeG sa a →
    let n := (x.getG a.toNat).val
    let x1 := x.tookG sa a
    let sleeps (i : Instr) (k : WaitKind) : Prop :=
      (x.regs.wakePending = true → exec i s = .next (s.withCur
        (({ x1 with regs := { x1.regs with wakePending := false } }.writeG d.toNat 2).past 4))) ∧
      (x.regs.wakePending = false → InTime s x → exec i s = .next (s.withCur (sleepsFor s x1 k d.toNat (tookOf sa a))))
    (n = 0 → exec (.waitc sa a d) s = .next (s.withCur ((x1.writeG d.toNat 0).past 4))) ∧
    (n ≠ 0 → sleeps (.waitc sa a d) (.cycle (s.dev.me.cyc + n.toNat))) ∧
    (n.toNat ≤ s.dev.wall → exec (.waitw sa a d) s = .next (s.withCur ((x1.writeG d.toNat 0).past 4))) ∧
    (s.dev.wall < n.toNat → sleeps (.waitw sa a d) (.wall n.toNat)) ∧
    (∀ j y, j < 16 → n.getLsbD j = true → s.dev.me.ctx j = some y → y.isStopped = true →
      (∀ i z, i < j → n.getLsbD i = true → s.dev.me.ctx i = some z → z.isStopped = false) →
      exec (.waitk sa a d) s = .next (s.withCur ((x1.writeG d.toNat (BitVec.ofNat 64 j)).past 4))) ∧
    ((∀ j, j < 16 → n.getLsbD j = true → s.dev.me.ctx j = none) →
      exec (.waitk sa a d) s = .next (s.withCur ((x1.writeG d.toNat (BitVec.allOnes 64)).past 4))) ∧
    ((∀ j y, j < 16 → n.getLsbD j = true → s.dev.me.ctx j = some y → y.isStopped = false) →
      (∃ j y, j < 16 ∧ n.getLsbD j = true ∧ s.dev.me.ctx j = some y) → sleeps (.waitk sa a d) (.slots (n.setWidth 16)))

/-- R37: a cycle-counted wait ends with code 0 once its cycle has come, and a wall-time wait once its instant has. -/
def Sys2Proof.Claims.TimedWaitsEnd : Prop :=
  ∀ (s : State) (core slot : Nat) (x : Context) (w : Wait),
    s.dev.ctxAt core slot = some x → x.phase = .sleeping w → expired w.expiry s.dev.wall = none →
    (s.dev.coreAt core).halted = false → Unbound s core slot w.dest →
    (∀ n, w.kind = .cycle n →
      (n ≤ (s.dev.coreAt core).cyc → OnlyContext (exec (.waitcExpiry core slot) s) s core slot (woken x w.dest 0)) ∧
      ((s.dev.coreAt core).cyc < n → exec (.waitcExpiry core slot) s = .next s)) ∧
    (∀ n, w.kind = .wall n →
      (n ≤ s.dev.wall → OnlyContext (exec (.waitwExpiry core slot) s) s core slot (woken x w.dest 0)) ∧
      (s.dev.wall < n → exec (.waitwExpiry core slot) s = .next s))

/-- R8, R38: a wait whose expiry instant E has passed ends, in the slot's own cycle, in the trap of its cause at its instruction
with TRAPVAL E; a synchronised read that the instruction made is undone. The ns of a tie, and the return of what the wait had taken,
are the model's (log entries 36 and 78). -/
def Sys2Proof.Claims.ExpiredWaitsTrap : Prop :=
  ∀ (s : State) (core slot : Nat) (x : Context) (w : Wait) (e : Nat),
    s.dev.ctxAt core slot = some x → x.wait? = some w → x.pending = [] → HasHandler x →
    w.kind = .monitor ∨ w.kind = .retry ∨ w.kind = .queued ∨ (∃ n, w.kind = .cycle n) ∨ (∃ m, w.kind = .slots m) ∨
      (∃ n, w.kind = .wall n ∧ e < n) →
    (s.dev.coreAt core).halted = false → (s.dev.coreAt core).fenced = false → (s.dev.coreAt core).cyc % 16 = slot →
    (s.dev.coreAt core).used ≠ some (s.dev.coreAt core).cyc → (s.dev.coreAt core).overdue = [] →
    (s.dev.coreAt core).semWaiters = [] → s.dev.landings = [] → e < s.dev.wall →
    let traps (i : Instr) (c : BitVec 8) : Prop := w.expiry = some (e, c) →
      (x.taken = [] → ∃ t y, exec i s = .next t ∧ t.mem = s.mem ∧ t.dev.ctxAt core slot = some y ∧
        InHandler x y c (BitVec.ofNat 64 e) x.regs.pc) ∧
      (∀ n, x.taken = [.full (.g n) none] → ∃ t y, exec i s = .next t ∧ t.mem = s.mem ∧ t.dev.ctxAt core slot = some y ∧
        InHandler (x.putG n { x.getG n with full := true }) y c (BitVec.ofNat 64 e) x.regs.pc)
    traps (.waitlimExpiry core slot) 0x0A ∧ traps (.deadlineExpiry core slot) 0x0B

/-- R131: when the last wall ns of an LDF or STF.E has ended unserved, its port withdraws it and leaves the word as it is; the
withdrawal, on a core whose clock runs, brings its context back to the instruction, parked under the bound that has passed, so that
its first turn after that traps there with TRAPVAL E (R38). -/
def Sys2Proof.Claims.Withdrawals : Prop :=
  ∀ (s : State) (n : Nat) (a : Access) (e : Nat) (c : BitVec 8),
    s.dev.access n = some a → a.id = n → a.expiry = some (e, c) → a.fault = none →
    (e < s.dev.wall → a.complete = false →
      ∃ t, exec (.portWithdrawal n) s = .next t ∧ t.mem = s.mem ∧
        t.dev.access n = some { a with withdrawn := true, pieces := a.pieces.map fun p => { p with waiting := none } }) ∧
    (∀ x r, a.withdrawn = true → a.orphan = false → a.before = some r → s.dev.ctxAt a.core a.slot = some x →
      x.tid = a.tid → x.isStopped = false → (s.dev.coreAt a.core).halted = false →
      ∃ t y, exec (.withdrawalArrival n) s = .next t ∧ t.mem = s.mem ∧ t.dev.ctxAt a.core a.slot = some y ∧
        y.regs = r ∧ y.phase = .parked ⟨.retry, e, some (e, c), 0⟩ ∧ y.pending = x.pending.filter fun p => p.id < n)

/-- R40, R41: a halted core has no cycle until its resume; at the resume the contexts whose instants passed are overdue, in the order of
those instants. -/
def Obligations.ClockHaltAndResume : Prop :=
  ∀ (s : State) (core : Nat),
    (∃ t, exec (.clockHalt core) s = .next t ∧ t.mem = s.mem ∧ (t.dev.coreAt core).halted = true ∧
      (t.dev.coreAt core).slots = (s.dev.coreAt core).slots ∧ (t.dev.coreAt core).cyc = (s.dev.coreAt core).cyc) ∧
    ((s.dev.coreAt core).halted = true → (s.dev.coreAt core).semWaiters = [] → (s.dev.coreAt core).bufWaiters = [] →
      ∃ t, exec (.clockResume core) s = .next t ∧ t.mem = s.mem ∧ (t.dev.coreAt core).halted = false ∧
        (t.dev.coreAt core).cyc = (s.dev.coreAt core).cyc ∧
        (t.dev.coreAt core).overdue = overdueSlots { s.dev.coreAt core with
          slots := (s.dev.coreAt core).slots.map fun o => o.map fun x => x.overStall s.dev.wall } s.dev.wall) ∧
    ((s.dev.coreAt core).halted = true → ∀ at_ rest t, s.dev.agenda = .cycle core at_ :: rest → step s = .next t →
      (t.dev.coreAt core).cyc = (s.dev.coreAt core).cyc)

/-- R20 to R23, R213: a message whose class is bound to an empty register is deposited: the payload is written, the full bit set
and a sleeping context woken with code 1; with a full register it waits at the interface. -/
def Sys2Proof.Claims.MessagesArrive : Prop :=
  ∀ (s : State) (n : Nat) (m : Message) (slot r : Nat) (x : Context),
    s.dev.messages[n]? = some m → m.delivered = true → m.follows = none → m.cls < 16 → r ≠ 0 → r < 128 →
    (∀ q ∈ s.dev.messages.take n, ¬(q.sender = m.sender ∧ q.to_ = m.to_ ∧ q.cls = m.cls)) →
    let k := s.dev.coreAt m.to_
    k.classes[m.cls]? = some (some (slot, .g r)) → k.ctx slot = some x → k.waiting = [] → k.saved = false → k.tied = [] →
    k.halted = false → k.lastDeposit = none → k.woke = [] → x.taken = [] →
    (∀ a ∈ s.dev.accesses, ¬(a.core = m.to_ ∧ a.slot = slot ∧ a.tid = x.tid)) →
    ((x.getG r).full = false → x.phase = .ready →
      ∃ t, exec (.messageArrival n) s = .next t ∧ t.mem = s.mem ∧ t.dev.messages = s.dev.messages.eraseIdx n ∧
        t.dev.ctxAt m.to_ slot = some (x.putG r ⟨m.payload, true, false⟩) ∧ (t.dev.coreAt m.to_).lastDeposit = some (slot, .g r, m.payload)) ∧
    ((x.getG r).full = false → ∀ w, x.phase = .sleeping w → expired w.expiry s.dev.wall = none → Unbound s m.to_ slot w.dest →
      ∃ t, exec (.messageArrival n) s = .next t ∧
        t.dev.ctxAt m.to_ slot = some ((woken (x.putG r ⟨m.payload, true, false⟩) w.dest 1).putG r ⟨m.payload, true, false⟩)) ∧
    ((x.getG r).full = true → x.isStopped = false →
      ∃ t, exec (.messageArrival n) s = .next t ∧ t.mem = s.mem ∧ t.dev.ctxAt m.to_ slot = some x ∧
        (t.dev.coreAt m.to_).waiting = [⟨m.cls, m.payload, m.sender, m.id, none⟩])

/-- R21: a waiting deposit whose register was empty when the core's present cycle began is applied in that cycle. The cycle of a
retry is the model's reading (log entry 26). -/
def Sys2Proof.Claims.DepositRetries : Prop :=
  ∀ (s : State) (core slot r : Nat) (q : Deposit) (x : Context),
    let k := s.dev.coreAt core
    k.waiting = [q] → k.dueNow = [q] → q.follows = none → q.cls < 16 → r ≠ 0 → r < 128 → k.classes[q.cls]? = some (some (slot, .g r)) →
    k.ctx slot = some x → x.phase = .ready → (x.getG r).full = false → k.halted = false → k.lastDeposit = none → k.woke = [] →
    x.taken = [] → (∀ a ∈ s.dev.accesses, ¬(a.core = core ∧ a.slot = slot ∧ a.tid = x.tid)) →
    ∃ t, exec (.depositRetry core) s = .next t ∧ t.mem = s.mem ∧ (t.dev.coreAt core).waiting = [] ∧
      t.dev.ctxAt core slot = some (x.putG r ⟨q.payload, true, false⟩)


namespace Sys2Proof.Claims
open Sys2Proof.Machine

/-- The bits of a vector register hold, under a tag's layout, the elements of a function (R46, R147). -/
def Holds (t : Tag) (bits : VBits) (f : Nat → Nat) : Prop :=
  ∀ e, e < t.count → bits.toNat / 2^(t.width * e) % 2^t.width = f e % 2^t.width

/-- Element e of a context's vector register, under the register's own tag. -/
def elem (x : Context) (n e : Nat) : Nat := elemAt (x.getV n).bits (tagOf (x.getV n).tag).width e

/-- Lane j of a context's vector register. -/
def lane (x : Context) (n j : Nat) : Nat := (x.getV n).bits.toNat / 2^(32 * j) % 2^32

/-- The flags of n elements together. -/
def flagsUpTo (n : Nat) (f : Nat → Flags) : Flags := (List.range n).foldl (fun a e => a ||| f e) 0

/-- A context after a rounding instruction: flags are ORed into FFLAGS, and SRCTR advances once in SR mode (R63, R64). -/
def rounded (x : Context) (fl : Flags) (sr : Bool) : Context :=
  x.onSys fun y => { y with fflags := y.fflags ||| fl, srctr := if sr then y.srctr + 1 else y.srctr }

/-- The instruction completes with a vector result that holds the elements of a function, a tag, a scale word, flags, and
nothing else changed but the pc and the windows. -/
def VectorResult (o : Host.Outcome State Fault Refusal) (s : State) (x : Context) (d : Nat) (tag : BitVec 4) (scale : Lane)
    (fl : Flags) (sr : Bool) (len : Word) (f : Nat → Nat) : Prop :=
  ∃ bits : VBits, o = .next (s.withCur ((rounded (x.writeV d bits tag scale) fl sr).past len)) ∧ Holds (tagOf tag) bits f

/-- The instruction of a VA function (R150). -/
def lanewise (fn : VaFn) (sa : Bool) (b a d : BitVec 7) : Instr :=
  match fn with
  | .add => .vadd sa b a d
  | .sub => .vsub sa b a d
  | .mul => .vmul sa b a d
  | .fma => .vfma sa b a d
  | .fms => .vfms sa b a d
  | .min => .vmin sa b a d
  | .max => .vmax sa b a d
  | .diff => .vdiff sa b a d

/-- Its 16-bit form, where there is one (R150). -/
def lanewiseShort (fn : VaFn) (src : BitVec 5) (d : BitVec 6) : Option Instr :=
  match fn with
  | .add => some (.vaddC16 src d)
  | .sub => some (.vsubC16 src d)
  | .mul => some (.vmulC16 src d)
  | .min => some (.vminC16 src d)
  | .max => some (.vmaxC16 src d)
  | .fma => none
  | .fms => none
  | .diff => none

/-- Whether a VA function reads vD as well. -/
def fused (fn : VaFn) : Bool :=
  match fn with
  | .fma => true
  | .fms => true
  | _ => false

/-- Whether a VA function rounds. -/
def rounding (fn : VaFn) : Bool :=
  match fn with
  | .min => false
  | .max => false
  | _ => true

/-- The tags a VA function accepts (R58). -/
def acceptsVa (fn : VaFn) (c : BitVec 4) : Bool :=
  match fn with
  | .add => accArithSp c
  | .mul => accArithSp c
  | .min => accArithSp c
  | .max => accArithSp c
  | _ => accArith c

/-- The exact integer value of a VA function (R150, R151). -/
def exactVa (fn : VaFn) (x y z : Int) : Int :=
  match fn with
  | .add => x + y
  | .sub => x - y
  | .mul => x * y
  | .fma => x * y + z
  | .fms => x * y - z
  | .min => if x < y then x else y
  | .max => if x < y then y else x
  | .diff => if x < y then y - x else x - y

/-- The value of an integer element: two's complement for S tags, unsigned for Z tags (R47). -/
def elementInt (signed : Bool) (w x : Nat) : Int := if signed then (BitVec.ofNat w x).toInt else (x : Int)

/-- The least value of an integer element. -/
def elementMin (signed : Bool) (w : Nat) : Int := if signed then -(2^(w - 1) : Nat) else 0
/-- The greatest value of an integer element. -/
def elementMax (signed : Bool) (w : Nat) : Int := if signed then (2^(w - 1) : Nat) - 1 else (2^w : Nat) - 1

/-- The bitwise functions of VB (R154). -/
inductive VecLogic where
  | and
  | or
  | xor
  deriving DecidableEq, Repr

/-- The instruction of the opcode table. -/
def VecLogic.instr (o : VecLogic) (sa : Bool) (b a d : BitVec 7) : Instr :=
  match o with
  | .and => .vand sa b a d
  | .or => .vor sa b a d
  | .xor => .vxor sa b a d

/-- Its 16-bit form. -/
def VecLogic.short (o : VecLogic) (src : BitVec 5) (d : BitVec 6) : Instr :=
  match o with
  | .and => .vandC16 src d
  | .or => .vorC16 src d
  | .xor => .vxorC16 src d

/-- Its value. -/
def VecLogic.value (o : VecLogic) : VBits → VBits → VBits :=
  match o with
  | .and => fun x y => x &&& y
  | .or => fun x y => x ||| y
  | .xor => fun x y => x ^^^ y

/-- The element shifts of VB (R155). -/
inductive VecShift where
  | shl
  | srl
  | sra
  deriving DecidableEq, Repr

/-- The instruction of the opcode table. -/
def VecShift.instr (o : VecShift) (sa : Bool) (b a d : BitVec 7) : Instr :=
  match o with
  | .shl => .vshl sa b a d
  | .srl => .vsrl sa b a d
  | .sra => .vsra sa b a d

/-- Its 16-bit form. -/
def VecShift.short (o : VecShift) (src : BitVec 5) (d : BitVec 6) : Instr :=
  match o with
  | .shl => .vshlC16 src d
  | .srl => .vsrlC16 src d
  | .sra => .vsraC16 src d

/-- Its value for an element x of width w and an amount n (R155). -/
def VecShift.value (o : VecShift) (w x n : Nat) : Nat :=
  match o with
  | .shl => x * 2^n % 2^w
  | .srl => x / 2^n
  | .sra => (BitVec.ofInt w ((BitVec.ofNat w x).toInt / (2^n : Nat))).toNat

/-- The compares of VC (R158). -/
inductive Compare where
  | eq
  | ne
  | lt
  | le
  deriving DecidableEq, Repr

/-- The instruction of the opcode table. -/
def Compare.instr (o : Compare) (sa : Bool) (b a : BitVec 7) (d : BitVec 3) : Instr :=
  match o with
  | .eq => .vceq sa b a d
  | .ne => .vcne sa b a d
  | .lt => .vclt sa b a d
  | .le => .vcle sa b a d

/-- When an element meets the condition, from the order of the two values; none when one is NaN (R158). -/
def Compare.met (o : Compare) (r : Option Ordering) : Prop :=
  match o with
  | .eq => r = some .eq
  | .ne => r ≠ some .eq
  | .lt => r = some .lt
  | .le => r = some .lt ∨ r = some .eq

/-- The instruction of a conversion under a rounding mode (R159). -/
def convert (md : RMode) (sa : Bool) (tag : BitVec 4) (a d : BitVec 7) : Instr :=
  match md with
  | .rne => .vcvtRne sa tag a d
  | .rtz => .vcvtRtz sa tag a d
  | .rdn => .vcvtRdn sa tag a d
  | .rup => .vcvtRup sa tag a d
  | .sr => .vcvtSr sa tag a d
  | .satrne => .vcvtSatrne sa tag a d

/-- One converted element (R69, R70): an element of the target's own tag stays as it is, with NaN and the SP32 zero written
canonically. -/
def convertElem (src tgt : BitVec 4) (scale sd : Lane) (r : Rnd) (x : Nat) : Elem :=
  if src = tgt then
    match tagOf tgt with
    | .float f =>
      (if decodeNum f x = .nan then f.nan else if f = .sp32 ∧ (decodeNum f x).isZero = true then 0 else x, 0)
    | _ => (x, 0)
  else cvtElem (tagOf src) (tagOf tgt) scale sd r x

/-- The instruction of a VFN function (R160). -/
def functionOf (fn : Fn) (sa : Bool) (a d : BitVec 7) : Instr :=
  match fn with
  | .exp2 => .vexp2 sa a d
  | .log2 => .vlog2 sa a d
  | .rcp => .vrcp sa a d
  | .rsq => .vrsq sa a d
  | .sqrt => .vsqrt sa a d
  | .tanh => .vtanh sa a d
  | .exp => .vexp sa a d
  | .sigm => .vsigm sa a d

/-- The format of a floating tag. -/
def formatOf (c : BitVec 4) : Fmt := if c = 4 then .bf16 else if c = 5 then .f16 else .f32

/-- The lane reductions (R162). -/
inductive Reduce where
  | sum
  | max
  | min
  | argmax
  deriving DecidableEq, Repr

/-- The instruction of the opcode table. -/
def Reduce.instr (o : Reduce) (sa : Bool) (b : BitVec 3) (a d : BitVec 7) : Instr :=
  match o with
  | .sum => .vrsum sa b a d
  | .max => .vrmax sa b a d
  | .min => .vrmin sa b a d
  | .argmax => .vramx sa b a d

/-- What it computes from the elements that take part (R163, R164). -/
def Reduce.value (o : Reduce) (t : Tag) (env : RoundEnv) (xs : List (Option Nat)) : Word × Flags :=
  match o with
  | .sum => rsumValue t env xs
  | .max => (extremeValue false t xs, 0)
  | .min => (extremeValue true t xs, 0)
  | .argmax => (argMaxValue t xs, 0)

/-- The elements of a register that take part under a mask (R161): bit j governs every element of lane j. -/
def participants (x : Context) (a : Nat) (m : BitVec 32) : List (Option Nat) :=
  (List.range (tagOf (x.getV a).tag).count).map fun e =>
    if m.getLsbD (e * (tagOf (x.getV a).tag).width / 32) then some (elem x a e) else none

end Sys2Proof.Claims

/-! The data side. -/

/-- R151: on integer tags the VA functions form the exact value and saturate it to the element range, setting SAT when it
changed; VMIN and VMAX compare signed for S tags and unsigned for Z tags. -/
def Obligations.IntegerElementsSaturate : Prop :=
  ∀ (fn : VaFn) (c : BitVec 4) (signed : Bool) (w : Nat) (env : RoundEnv) (e x y z : Nat),
    tagOf c = .int signed w → x < 2^w → y < 2^w → z < 2^w →
    let v := exactVa fn (elementInt signed w x) (elementInt signed w y) (elementInt signed w z)
    let r := vaElem (.int signed w) fn env e x y z
    (elementMin signed w ≤ v → v ≤ elementMax signed w → elementInt signed w r.1 = v ∧ r.2 = 0) ∧
    (v < elementMin signed w → elementInt signed w r.1 = elementMin signed w ∧ r.2 = flagSAT) ∧
    (elementMax signed w < v → elementInt signed w r.1 = elementMax signed w ∧ r.2 = flagSAT)

/-- R150 to R153: every element of vD is the function of the elements of vA and vB (and vD), rounded once; the result has vA's
tag and scale word 1.0, the flags of all elements are ORed into FFLAGS, and SRCTR advances once under SR. -/
def Sys2Proof.Claims.LanewiseArithmetic : Prop :=
  ∀ (fn : VaFn) (s : State) (x : Context),
    let result (i : Instr) (x1 : Context) (d a b : Nat) (len : Word) : Prop :=
      let c := (x.getV a).tag
      let el (e : Nat) : Elem := vaElem (tagOf c) fn x.rounding e (elem x a e) (elem x b e) (elem x d e)
      VectorResult (exec i s) s x1 d c 0x3F800000 (flagsUpTo (tagOf c).count fun e => (el e).2)
        (isFloatTag c && rounding fn && decide (x.regs.sys.frm = 4)) len fun e => (el e).1
    (∀ (sa : Bool) (b a d : BitVec 7),
      CanIssue s x ([.v a.toNat, .v b.toNat] ++ (if fused fn then [.v d.toNat] else [])) [.v d.toNat, .v a.toNat, .v b.toNat] →
      x.canTakeV sa a.toNat → acceptsVa fn (x.getV a.toNat).tag = true → (x.getV b.toNat).tag = (x.getV a.toNat).tag →
      (fused fn = true → (x.getV d.toNat).tag = (x.getV a.toNat).tag) →
      result (lanewise fn sa b a d) (x.tookV sa a.toNat) d.toNat a.toNat b.toNat 4) ∧
    (∀ (src : BitVec 5) (d : BitVec 6) (i : Instr), lanewiseShort fn src d = some i →
      CanIssue s x [.v d.toNat, .v src.toNat] [.v d.toNat, .v src.toNat] →
      acceptsVa fn (x.getV d.toNat).tag = true → (x.getV src.toNat).tag = (x.getV d.toNat).tag →
      result i x d.toNat d.toNat src.toNat 2)

/-- R154 to R156: logic works on all 1,024 bits, shifts on elements of vA's width by the low bits of vB's, VSEL takes whole
lanes under k1; tag and scale word are vA's. VRELU keeps what is above zero and writes scale word 1.0. -/
def Sys2Proof.Claims.LogicShiftsAndSelect : Prop :=
  ∀ (s : State) (x : Context),
    (∀ (o : VecLogic) (sa : Bool) (b a d : BitVec 7),
      CanIssue s x [.v a.toNat, .v b.toNat] [.v d.toNat, .v a.toNat, .v b.toNat] → x.canTakeV sa a.toNat →
      exec (o.instr sa b a d) s = .next (s.withCur (((x.tookV sa a.toNat).writeV d.toNat
        (o.value (x.getV a.toNat).bits (x.getV b.toNat).bits) (x.getV a.toNat).tag (x.getV a.toNat).scale).past 4))) ∧
    (∀ (o : VecLogic) (src : BitVec 5) (d : BitVec 6), CanIssue s x [.v d.toNat, .v src.toNat] [.v d.toNat, .v src.toNat] →
      exec (o.short src d) s = .next (s.withCur ((x.writeV d.toNat
        (o.value (x.getV d.toNat).bits (x.getV src.toNat).bits) (x.getV d.toNat).tag (x.getV d.toNat).scale).past 2))) ∧
    (∀ (o : VecShift) (sa : Bool) (b a d : BitVec 7),
      CanIssue s x [.v a.toNat, .v b.toNat] [.v d.toNat, .v a.toNat, .v b.toNat] → x.canTakeV sa a.toNat →
      let c := (x.getV a.toNat).tag
      let w := (tagOf c).width
      (c = 0 ∨ isIntTag c = true) →
      VectorResult (exec (o.instr sa b a d) s) s (x.tookV sa a.toNat) d.toNat c (x.getV a.toNat).scale 0 false 4
        fun e => o.value w (elem x a.toNat e) (elemAt (x.getV b.toNat).bits w e % w)) ∧
    (∀ (o : VecShift) (src : BitVec 5) (d : BitVec 6), CanIssue s x [.v d.toNat, .v src.toNat] [.v d.toNat, .v src.toNat] →
      let c := (x.getV d.toNat).tag
      let w := (tagOf c).width
      (c = 0 ∨ isIntTag c = true) →
      VectorResult (exec (o.short src d) s) s x d.toNat c (x.getV d.toNat).scale 0 false 2
        fun e => o.value w (elem x d.toNat e) (elemAt (x.getV src.toNat).bits w e % w)) ∧
    (∀ (sa : Bool) (b a d : BitVec 7),
      CanIssue s x [.v a.toNat, .v b.toNat] [.v d.toNat, .v a.toNat, .v b.toNat] → x.canTakeV sa a.toNat →
      ∃ bits : VBits, exec (.vsel sa b a d) s = .next (s.withCur (((x.tookV sa a.toNat).writeV d.toNat bits (x.getV a.toNat).tag
          (x.getV a.toNat).scale).past 4)) ∧
        ∀ j, j < 32 → bits.toNat / 2^(32 * j) % 2^32 = if (x.getK 1).getLsbD j then lane x a.toNat j else lane x b.toNat j) ∧
    (∀ (sa : Bool) (a d : BitVec 7), CanIssue s x [.v a.toNat] [.v d.toNat, .v a.toNat] → x.canTakeV sa a.toNat →
      accArith (x.getV a.toNat).tag = true →
      VectorResult (exec (.vrelu sa a d) s) s (x.tookV sa a.toNat) d.toNat (x.getV a.toNat).tag 0x3F800000 0 false 4
        fun e => reluElem (tagOf (x.getV a.toNat).tag) (elem x a.toNat e)) ∧
    (∀ (src : BitVec 5) (d : BitVec 6), CanIssue s x [.v src.toNat] [.v d.toNat, .v src.toNat] →
      accArith (x.getV src.toNat).tag = true →
      VectorResult (exec (.vreluC16 src d) s) s x d.toNat (x.getV src.toNat).tag 0x3F800000 0 false 2
        fun e => reluElem (tagOf (x.getV src.toNat).tag) (elem x src.toNat e))

/-- R157: VMOV copies bits, tag and scale word; VNEG and VABS saturate integers and change the sign bit of floats; VSWAP
exchanges two registers whole, full bits included. -/
def Obligations.ShortVectorForms : Prop :=
  ∀ (s : State) (x : Context) (src : BitVec 5) (d : BitVec 6),
    (CanIssue s x [.v src.toNat] [.v d.toNat, .v src.toNat] →
      exec (.vmov src d) s = .next (s.withCur ((x.writeV d.toNat (x.getV src.toNat).bits (x.getV src.toNat).tag
        (x.getV src.toNat).scale).past 2)) ∧
      (accArith (x.getV src.toNat).tag = true → ∀ (i : Instr) (f : Tag → Nat → Elem),
        (i = .vneg src d ∧ f = negElem) ∨ (i = .vabs src d ∧ f = absElem) →
        let t := tagOf (x.getV src.toNat).tag
        VectorResult (exec i s) s x d.toNat (x.getV src.toNat).tag 0x3F800000
          (flagsUpTo t.count fun e => (f t (elem x src.toNat e)).2) false 2 fun e => (f t (elem x src.toNat e)).1)) ∧
    (CanIssue s x [.v src.toNat, .v d.toNat] [.v d.toNat, .v src.toNat] →
      exec (.vswap src d) s =
        .next (s.withCur (((x.putV d.toNat (x.getV src.toNat)).putV src.toNat (x.getV d.toNat)).past 2)))

/-- R158, R161, R168: a compare sets bit j of kD when every element of lane j meets its condition, a NaN meeting VCNE only; the
mask instructions compute on whole masks, KPOP counts and KMOV moves. -/
def Obligations.ComparesAndMasks : Prop :=
  ∀ (s : State) (x : Context),
    (∀ (o : Compare) (sa : Bool) (b a : BitVec 7) (d : BitVec 3),
      CanIssue s x [.v a.toNat, .v b.toNat] [.v a.toNat, .v b.toNat] → x.canTakeV sa a.toNat →
      let c := (x.getV a.toNat).tag
      let t := tagOf c
      accArithSp c = true → (x.getV b.toNat).tag = c →
      ∃ m : BitVec 32, exec (o.instr sa b a d) s = .next (s.withCur (((x.tookV sa a.toNat).writeK d.toNat m).past 4)) ∧
        ∀ j, j < 32 → (m.getLsbD j = true ↔ ∀ e, e < t.count → e / (32 / t.width) = j →
          o.met ((elemNum t (elem x a.toNat e)).compare (elemNum t (elem x b.toNat e))))) ∧
    (CanIssue s x [] [] → ∀ a b d : BitVec 3,
      exec (.kand b a d) s = .next (s.withCur ((x.writeK d.toNat (x.getK a.toNat &&& x.getK b.toNat)).past 4)) ∧
      exec (.kor b a d) s = .next (s.withCur ((x.writeK d.toNat (x.getK a.toNat ||| x.getK b.toNat)).past 4)) ∧
      exec (.knot a d) s = .next (s.withCur ((x.writeK d.toNat (~~~(x.getK a.toNat))).past 4))) ∧
    (∀ (a : BitVec 3) (d : BitVec 7), CanIssue s x [] [.g d.toNat] →
      exec (.kpop a d) s = .next (s.withCur ((x.writeG d.toNat
        (BitVec.ofNat 64 ((List.range 32).countP fun j => (x.getK a.toNat).getLsbD j))).past 4)) ∧
      exec (.kmovFromMask a d) s = .next (s.withCur ((x.writeG d.toNat ((x.getK a.toNat).setWidth 64)).past 4))) ∧
    (∀ (sa : Bool) (a : BitVec 7) (d : BitVec 3), CanIssue s x [.g a.toNat] [.g a.toNat] → x.canTakeG sa a →
      exec (.kmovToMask sa a d) s =
        .next (s.withCur (((x.tookG sa a).writeK d.toNat ((x.getG a.toNat).val.setWidth 32)).past 4)))

/-- R69, R70, R159: a conversion reads as many registers as fill the target's elements and writes as many as hold them; each element
is converted under its source register's scale word, and a scaled source's scale word goes to every result. The corners of log
entries 11, 15, 95 and 96 are the model's. -/
def Sys2Proof.Claims.Conversions : Prop :=
  ∀ (md : RMode) (sa : Bool) (code : BitVec 4) (a d : BitVec 7) (s : State) (x : Context),
    let c := (x.getV a.toNat).tag
    let st := tagOf c
    let tt := tagOf code
    let ns := max 1 (st.width / tt.width)
    let nd := max 1 (tt.width / st.width)
    CanIssue s x (vRange a.toNat ns) (vRange d.toNat nd ++ vRange a.toNat ns) → x.canTakeV sa a.toNat →
    c ≠ 0 → (∀ j, j < ns → (x.getV (a.toNat + j)).tag = c) → code ≠ 0 → code.toNat < 13 →
    let sd : Lane := if c = 8 ∨ c = 9 then (x.getV a.toNat).scale else 0x3F800000
    let env : RoundEnv := ⟨md, x.regs.sys.srseed.setWidth 32, x.regs.sys.srctr⟩
    let el (g : Nat) : Elem :=
      convertElem c code (x.getV (a.toNat + g / st.count)).scale sd (env.at_ g) (elem x (a.toNat + g / st.count) (g % st.count))
    ∃ y : Context, exec (convert md sa code a d) s =
        .next (s.withCur ((rounded y (flagsUpTo (ns * st.count) fun g => (el g).2) (decide (md = .sr))).past 4)) ∧
      { y with regs := { y.regs with v := x.regs.v } } =
        { x.tookV sa a.toNat with regs := { (x.tookV sa a.toNat).regs with v := x.regs.v } } ∧
      (∀ n, (n < d.toNat ∨ d.toNat + nd ≤ n) → y.getV n = (x.tookV sa a.toNat).getV n) ∧
      ∀ r, r < nd → ∃ bits : VBits,
        y.getV (d.toNat + r) = ⟨bits, code, sd, ((x.tookV sa a.toNat).getV (d.toNat + r)).full, false⟩ ∧
        Holds tt bits fun e => (el (r * tt.count + e)).1

/-- R160, R169, R193: the VFN functions round the function's value to vA's format; VQNT quantises to FP8 under a power-of-two
scale; BADDQ adds two scaled blocks in F32 and quantises the sums. -/
def Sys2Proof.Claims.FunctionsAndQuantising : Prop :=
  ∀ (s : State) (x : Context),
    (∀ (fn : Fn) (sa : Bool) (a d : BitVec 7), CanIssue s x [.v a.toNat] [.v d.toNat, .v a.toNat] → x.canTakeV sa a.toNat →
      let c := (x.getV a.toNat).tag
      isFloatTag c = true →
      let el (e : Nat) : Elem :=
        let r := fnValue fn (decodeNum (formatOf c) (elem x a.toNat e))
        let q := roundNum (formatOf c) (x.rounding.at_ e) r.1
        (q.1, r.2 ||| q.2)
      VectorResult (exec (functionOf fn sa a d) s) s (x.tookV sa a.toNat) d.toNat c 0x3F800000
        (flagsUpTo (tagOf c).count fun e => (el e).2) (decide (x.regs.sys.frm = 4)) 4 fun e => (el e).1) ∧
    (∀ (sa : Bool) (code : BitVec 4) (a d : BitVec 7),
      let c := (x.getV a.toNat).tag
      let n := if c = 3 then 4 else 2
      CanIssue s x (vRange a.toNat n) (.v d.toNat :: vRange a.toNat n) → x.canTakeV sa a.toNat →
      isFloatTag c = true → (∀ j, j < n → (x.getV (a.toNat + j)).tag = c) → code = 8 ∨ code = 9 →
      let per := (tagOf c).count
      let q := quantise (if code = 8 then .e4m3 else .e5m2)
        ((List.range 128).map fun g => elemNum (tagOf c) (elem x (a.toNat + g / per) (g % per)))
      VectorResult (exec (.vqnt sa code a d) s) s (x.tookV sa a.toNat) d.toNat code q.2.2 q.2.1 false 4 fun e => q.1.getD e 0) ∧
    (∀ (sa : Bool) (b a d : BitVec 7),
      CanIssue s x [.v a.toNat, .v b.toNat] [.v d.toNat, .v a.toNat, .v b.toNat] → x.canTakeV sa a.toNat →
      (x.getV a.toNat).tag = 8 → (x.getV b.toNat).tag = 8 →
      let t : Tag := .float .e4m3
      let sum (e : Nat) : Machine.Num := decodeNum .f32 (rne .f32
        ((elemValue t (x.getV a.toNat).scale (elem x a.toNat e)).add .rne (elemValue t (x.getV b.toNat).scale (elem x b.toNat e))))
      let k := quantScale (amaxOf ((List.range 128).map sum)) (decodeNum .e4m3 0x7E)
      VectorResult (exec (.baddq sa b a d) s) s (x.tookV sa a.toNat) d.toNat 8 (BitVec.ofNat 32 (rne .f32 (pow2Num k))) 0 false 4
        fun e => match sum e with
          | .nan => 0x7F
          | .inf true => 0xFE
          | .inf false => 0x7E
          | y => rne .e4m3 (y.mul (pow2Num (-k))))

/-- R27, R162 to R164: a lane reduction writes its sequence number to gD at issue, and its value enters RRES when it completes, at
most 15 cycles later; a full file holds it, and RDRES takes the oldest entry and lets the held one in. An earlier instant of
completion is the model's reading (log entry 73). -/
def Obligations.Reductions : Prop :=
  (∀ (o : Reduce) (sa : Bool) (b : BitVec 3) (a d : BitVec 7) (s : State) (x : Context),
    CanIssue s x [.v a.toNat] [.g d.toNat, .v a.toNat] → x.canTakeV sa a.toNat → Settled s x →
    let c := (x.getV a.toNat).tag
    accArithSp c = true →
    let r := o.value (tagOf c) x.rounding (participants x a.toNat (x.getK b.toNat))
    let n := s.dev.me.redCtr
    let x1 := x.tookV sa a.toNat
    let y := rounded ({ x1 with reductions := x1.reductions ++ [n] }.writeG d.toNat (n.setWidth 64)) r.2
      (decide (o = .sum) && isFloatTag c && decide (x.regs.sys.frm = 4))
    let q : Reduction :=
      { seq := n, value := r.1, slot := s.dev.slot, held := false, launch := x.launch, tid := x.tid, at_ := s.dev.me.cyc }
    let dv := s.dev.onMe fun k => { k with redCtr := n + 1, reductions := k.reductions ++ [q] }
    exec (o.instr sa b a d) s = .next { s with dev := dv.setCtx s.dev.core s.dev.slot (y.past 4) }) ∧
  (∀ (s : State) (core : Nat) (r : Reduction) (rest : List Reduction),
    let k := s.dev.coreAt core
    k.reductions = r :: rest → r.held = false → k.halted = false →
    let k1 := { k with rres := r.value, rresSeq := r.seq, rresTaken := false, rresPoison := false, reductions := rest }
    let k2 := { k with reductions := { r with held := true } :: rest }
    exec (.reductionComplete core) s =
      .next { s with dev := s.dev.setCore core (if k.rresTaken then k1 else k2) }) ∧
  (∀ (sa : Bool) (a d : BitVec 7) (s : State) (x : Context),
    CanIssue s x [.g a.toNat] [.g d.toNat, .g a.toNat] → x.canTakeG sa a → Settled s x →
    let k := s.dev.me
    k.rresSeq = (x.getG a.toNat).val.setWidth 32 → k.rresTaken = false → k.rresPoison = false →
    ∃ t y, exec (.rdres sa a d) s = .next t ∧ t.mem = s.mem ∧ t.dev.cur = some y ∧
      y.regs = (((x.tookG sa a).writeG d.toNat k.rres).past 4).regs ∧ y.phase = .ready ∧
      (k.reductions = [] → t.dev.me.rresTaken = true) ∧
      ∀ r rest, k.reductions = r :: rest →
        (r.held = true → t.dev.me.rres = r.value ∧ t.dev.me.rresSeq = r.seq ∧ t.dev.me.rresTaken = false ∧
          t.dev.me.reductions = rest) ∧
        (r.held = false → t.dev.me.rresTaken = true ∧ t.dev.me.reductions = k.reductions))

/-- R165 to R167: VSCAN writes running values, VPERM selects lanes by the low five bits, and VSORT writes the sorted lanes and
the lane numbers they came from. -/
def Sys2Proof.Claims.ScansAndPermutations : Prop :=
  ∀ (s : State) (x : Context) (sa : Bool) (a d : BitVec 7), x.canTakeV sa a.toNat →
    let va := x.getV a.toNat
    (∀ b : BitVec 3, CanIssue s x [.v a.toNat] [.v d.toNat, .v a.toNat] → accArithSp va.tag = true →
      let es := scanElems (tagOf va.tag) x.rounding 0 none (participants x a.toNat (x.getK b.toNat))
      VectorResult (exec (.vscan sa b a d) s) s (x.tookV sa a.toNat) d.toNat va.tag 0x3F800000 (flagsOf es)
        (isFloatTag va.tag && decide (x.regs.sys.frm = 4)) 4 fun e => (es.getD e (0, 0)).1) ∧
    (∀ b : BitVec 7, CanIssue s x [.v a.toNat, .v b.toNat] [.v d.toNat, .v a.toNat, .v b.toNat] →
      ∃ bits : VBits, exec (.vperm sa b a d) s =
          .next (s.withCur (((x.tookV sa a.toNat).writeV d.toNat bits va.tag va.scale).past 4)) ∧
        ∀ j, j < 32 → bits.toNat / 2^(32 * j) % 2^32 = lane x a.toNat (lane x b.toNat j % 32)) ∧
    (∀ b : BitVec 3, CanIssue s x [.v a.toNat] [.v d.toNat, .v (d.toNat + 1), .v a.toNat] →
      va.tag = 1 ∨ va.tag = 2 ∨ va.tag = 3 ∨ va.tag = 10 →
      ∃ (lanes from_ : VBits) (p : List Nat), exec (.vsort sa b a d) s =
          .next (s.withCur ((((x.tookV sa a.toNat).writeV d.toNat lanes va.tag va.scale).writeV (d.toNat + 1) from_ 2
            0x3F800000).past 4)) ∧
        List.Perm p (List.range 32) ∧
        (∀ j, j < 32 → from_.toNat / 2^(32 * j) % 2^32 = p.getD j 0 ∧
          lanes.toNat / 2^(32 * j) % 2^32 = lane x a.toNat (p.getD j 0)) ∧
        (∀ i, i + 1 < 32 →
          let u := p.getD i 0
          let v := p.getD (i + 1) 0
          let m := x.getK b.toNat
          let lt (n k : Nat) : Bool := sortLt (tagOf va.tag) (lane x a.toNat n, n) (lane x a.toNat k, k)
          (m.getLsbD v = true → m.getLsbD u = true) ∧
          (m.getLsbD u = true → m.getLsbD v = true → lt v u = false ∧ (lt u v = false → u < v)) ∧
          (m.getLsbD u = false → u < v)))

/-- R168, R170: VSPLAT, VINS, VEXT, VIDX and VTAG move values between files and tags; RAND and VRAND are the counter hash of
R62. -/
def Sys2Proof.Claims.MovesBetweenFiles : Prop :=
  ∀ (s : State) (x : Context) (sa : Bool),
    (∀ (a d : BitVec 7) (c : BitVec 4), CanIssue s x [.g a.toNat] [.v d.toNat, .g a.toNat] → x.canTakeG sa a →
      (c.toNat < 13 → VectorResult (exec (.vsplat sa c a d) s) s (x.tookG sa a) d.toNat c 0x3F800000 0 false 4
        fun _ => (x.getG a.toNat).val.toNat) ∧
      (isIntTag c = true → VectorResult (exec (.vidx sa c a d) s) s (x.tookG sa a) d.toNat c 0x3F800000 0 false 4
        fun e => (x.getG a.toNat).val.toNat + e)) ∧
    (∀ a b d : BitVec 7, CanIssue s x [.g a.toNat, .g b.toNat, .v d.toNat] [.v d.toNat, .g a.toNat, .g b.toNat] →
      x.canTakeG sa a →
      let t := tagOf (x.getV d.toNat).tag
      VectorResult (exec (.vins sa b a d) s) s (x.tookG sa a) d.toNat (x.getV d.toNat).tag (x.getV d.toNat).scale 0 false 4
        fun e => if e = (x.getG b.toNat).val.toNat % t.count then (x.getG a.toNat).val.toNat else elem x d.toNat e) ∧
    (∀ a b d : BitVec 7, CanIssue s x [.v a.toNat, .g b.toNat] [.g d.toNat, .v a.toNat, .g b.toNat] → x.canTakeV sa a.toNat →
      let t := tagOf (x.getV a.toNat).tag
      let v := elem x a.toNat ((x.getG b.toNat).val.toNat % t.count)
      exec (.vext sa b a d) s = .next (s.withCur (((x.tookV sa a.toNat).writeG d.toNat
        (match t with
          | .int signed w => BitVec.ofInt 64 (elementInt signed w v)
          | _ => BitVec.ofNat 64 v)).past 4))) ∧
    (∀ (a d : BitVec 7) (c : BitVec 4), CanIssue s x [.v a.toNat] [.v d.toNat, .v a.toNat] → x.canTakeV sa a.toNat →
      c.toNat < 13 → exec (.vtag sa c a d) s = .next (s.withCur (((x.tookV sa a.toNat).writeV d.toNat (x.getV a.toNat).bits c
        (x.getV a.toNat).scale).past 4))) ∧
    (∀ a b d : BitVec 7, CanIssue s x [.g a.toNat, .g b.toNat] [.g d.toNat, .g a.toNat, .g b.toNat] → x.canTakeG sa a →
      exec (.rand sa b a d) s = .next (s.withCur (((x.tookG sa a).writeG d.toNat
        ((mix32 ((x.getG a.toNat).val.setWidth 32) ((x.getG b.toNat).val.setWidth 32)).setWidth 64)).past 4))) ∧
    (∀ a b d : BitVec 7, CanIssue s x [.g a.toNat, .g b.toNat] [.v d.toNat, .g a.toNat, .g b.toNat] → x.canTakeG sa a →
      VectorResult (exec (.vrand sa b a d) s) s (x.tookG sa a) d.toNat 2 0x3F800000 0 false 4 fun j =>
        (mix32 ((x.getG a.toNat).val.setWidth 32) ((x.getG b.toNat).val.setWidth 32 + BitVec.ofNat 32 j)).toNat)

namespace Sys2Proof.Claims
open Sys2Proof.Machine

/-- The state in which the core whose turn it is and the context whose turn it is are replaced, and nothing else. -/
def withMe (s : State) (f : Core → Core) (y : Context) : State :=
  { s with dev := (s.dev.onMe f).setCtx s.dev.core s.dev.slot y }

/-- A context parked at its instruction for a reason, under the bound of R38. -/
def parksFor (s : State) (x : Context) (k : WaitKind) (d : Nat) (ts : List Taken) : Context :=
  { x with
    phase := .parked (waitOf s x k d)
    stallSince := none
    stalled := false
    taken := ts
    pending := advanceWindows x.pending }

/-- A context goes on after the instruction that it waited in (R14). -/
def wentOn (x y : Context) : Context :=
  { y with
    regs := { y.regs with pc := x.regs.pc + 4 }
    phase := .ready
    stallSince := none
    stalled := false
    taken := [] }

/-- Two slots pair for a multiply (R173, R183): an A operand first, a B operand second, both BF16 or neither. -/
def Paired (a b : OpSlot) : Prop :=
  a.state = .full ∧ b.state = .full ∧ a.poison = false ∧ b.poison = false ∧ a.tag % 2 = 0 ∧ b.tag % 2 = 1 ∧
  (4 ≤ a.tag ↔ 4 ≤ b.tag)

/-- Element j of an accumulator row. -/
def accElem (k : Core) (acc i j : Nat) : Nat := (k.accRow acc i).toNat / 2^(32 * j) % 2^32

/-- No scratch word of a list is poisoned. -/
def CleanScratch (k : Core) (l : List Nat) : Prop := ∀ i ∈ l, i % 4096 ∉ k.scratchPoison

/-- The distance of a scratch word from a start, upwards through the wrap (R194). -/
def scratchOffset (start n : Nat) : Nat := (n + 4096 - start % 4096) % 4096

end Sys2Proof.Claims

/-! The matrix array, block queues and the sum-product engine. -/

/-- R173, R177 to R179, R181: OCLM claims a FREE slot, for itself or for a string from a neighbour of its launch; OREL frees a
slot that nothing uses; OFILL posts a fill into a claimed slot; OPASS posts a send. -/
def Obligations.OperandSlots : Prop :=
  ∀ (s : State) (x : Context) (n : BitVec 4) (o : OpSlot), isGleaner s.dev.core = false → Settled s x →
    s.dev.me.opSlots[n.toNat]? = some o →
    let slot := s.dev.slot
    (CanIssue s x [] [] → o.state = .free →
      exec (.oclm 0 n) s = .next (withMe s (fun k => { k with opSlots := k.opSlots.set n.toNat { state := .local_, owner := slot } })
        (x.past 4)) ∧
      ∀ dir : BitVec 3, dir ≠ 0 → dir.toNat ≤ 4 → neighbourIn s.dev x dir.toNat = true →
        exec (.oclm dir n) s = .next (withMe s (fun k =>
          { k with
            opSlots := k.opSlots.set n.toNat { state := .recv dir, owner := slot, claim := k.claims }
            claims := k.claims + 1 }) (x.past 4))) ∧
    (CanIssue s x [] [] → o.state ≠ .free → o.owner = slot → slotInUse s.dev s.dev.core n.toNat = false →
      exec (.orel n) s = .next (withMe s (fun k => { k with opSlots := k.opSlots.set n.toNat {} }) (x.past 4))) ∧
    (∀ (sa : Bool) (b a : BitVec 7), CanIssue s x [.g a.toNat, .g b.toNat] [.g a.toNat, .g b.toNat] → x.canTakeG sa a →
      o.state = .local_ ∨ o.state = .full → o.owner = slot →
      let ad := (x.getG a.toNat).val
      let desc := (x.getG b.toNat).val
      let tag := desc.toNat % 16
      let pitch := desc.toNat / 2^16 % 2^24
      tag < 6 → desc.toNat / 2^10 % 64 = 0 → pitch % 64 = 0 → (if tag = 1 ∨ tag = 3 then 64 else 128) ≤ pitch →
      ad.toNat % 64 = 0 →
      ∃ t, exec (.ofill sa b a n) s = .next t ∧ t.mem = s.mem ∧ t.dev.cur = some ((x.tookG sa a).past 4) ∧
        t.dev.me.opSlots[n.toNat]? = some { o with
          state := .local_, fills := o.fills + 1, firstFault := if o.state = .full then none else o.firstFault } ∧
        t.dev.fills = s.dev.fills ++
          [{ core := s.dev.core, slot := slot, op := n.toNat, addr := ad, desc := desc, pc := x.regs.pc, vf := x.vf, part := x.part }]) ∧
    (∀ dir : BitVec 3, CanIssue s x [] [] → o.poison = false ∨ o.state ≠ .full → o.state ≠ .free → (∀ c v, o.state ≠ .faulted c v) → o.owner = slot →
      neighbourIn s.dev x dir.toNat = true →
      exec (.opass dir n) s = .next (withMe s (fun k =>
        { k with sends := k.sends ++ [{ slot := n.toNat, dir := dir, owner := slot, ready := decide (o.state = .full) }] }) (x.past 4)))

/-- R179, R180: a fill whose bytes arrived makes its slot FULL with its tag, its 8,192 operand bytes and its scales, when it is
the last one issued into the slot and none faulted. -/
def Sys2Proof.Claims.FillsComplete : Prop :=
  ∀ (s : State) (n : Nat) (f : Fill) (bs : List Byte) (d : Device) (o : OpSlot),
    s.dev.fills[n]? = some f → f.waiting = none → f.got = [] → (∀ g ∈ s.dev.fills.take n, ¬(g.core = f.core ∧ g.op = f.op)) →
    (s.dev.coreAt f.core).sends = [] → (s.dev.coreAt f.core).arrayQ = [] →
    f.units = fillUnits f.addr (f.desc.toNat % 16) (f.desc.toNat / 2^16 % 2^24) (f.desc.toNat / 2^40) →
    (fillAgent f).units s.mem .plain f.units s.dev [] = (.bytes bs, d) →
    (d.coreAt f.core).opSlots[f.op]? = some o → o.fills = 1 → o.firstFault = none → (d.coreAt f.core).semImage = none →
    ∃ t, exec (.fillComplete n) s = .next t ∧ t.mem = s.mem ∧ t.dev.fills = d.fills.eraseIdx n ∧
      (t.dev.coreAt f.core).opSlots[f.op]? = some { o with
        state := .full, fills := 0, poison := false, fullAt := d.now, tag := f.desc.toNat % 16
        bits := BitVec.ofNat 65536 (bytesNat (bs.take 8192)), scales := BitVec.ofNat 2048 (bytesNat (bs.drop 8192)) }

/-- R181, R182: the first ready send of a port is matched with the neighbour's oldest claim, and after one ns per 128 bytes and
two more the target slot is FULL with the source's operand. -/
def Sys2Proof.Claims.OperandStrings : Prop :=
  (∀ (s : State) (core to_ t : Nat) (dir : BitVec 3) (q : Send) (o : OpSlot),
    (s.dev.coreAt core).sends = [q] → q.dir = dir → q.ready = true → q.matched = false →
    neighbour core dir.toNat = some to_ → oldestClaim (s.dev.coreAt to_) (opposite dir.toNat) = some t →
    (s.dev.coreAt core).saved = false → (s.dev.coreAt to_).saved = false → (s.dev.coreAt core).opSlots[q.slot]? = some o → o.state = .full →
    ∃ u, exec (.stringMatch core dir) s = .next u ∧ u.mem = s.mem ∧
      (u.dev.coreAt core).sends = [{ q with matched := true }] ∧
      u.dev.transfers = s.dev.transfers ++
        [{ from_ := core, source := q.slot, to_ := to_, target := t
           due := s.dev.wall + (8192 + (if 4 ≤ o.tag then 0 else if o.tag % 2 = 0 then 256 else 4) + 127) / 128 + 2 }]) ∧
  (∀ (s : State) (n : Nat) (t : Transfer) (o p : OpSlot),
    s.dev.transfers[n]? = some t → t.due ≤ s.dev.wall → t.from_ ≠ t.to_ → (s.dev.coreAt t.to_).saved = false →
    (s.dev.coreAt t.from_).opSlots[t.source]? = some o → o.state = .full →
    (s.dev.coreAt t.to_).opSlots[t.target]? = some p →
    ∃ u, exec (.stringDelivery n) s = .next u ∧ u.mem = s.mem ∧ u.dev.transfers = s.dev.transfers.eraseIdx n ∧
      (u.dev.coreAt t.to_).opSlots[t.target]? = some { p with
        state := .full, matched := false, fullAt := t.due * 1000000, tag := o.tag, bits := o.bits, scales := o.scales
        poison := o.poison })

/-- R183 to R185: MMA and MMZ of two paired slots, and AREAD, queue an entry and park their issuer; AZERO is posted. -/
def Sys2Proof.Claims.ArrayInstructions : Prop :=
  ∀ (s : State) (x : Context), isGleaner s.dev.core = false → Settled s x → s.dev.me.arrayQ.length < 8 →
    let queues (op : ArrayOp) (y : Context) : State :=
      withMe s (fun k => { k with arrayQ := k.arrayQ ++ [{ op := op, slot := s.dev.slot }] }) y
    (CanIssue s x [] [] → ∀ d : BitVec 2, exec (.azero d) s = .next (queues (.azero d.toNat) (x.past 4))) ∧
    (CanIssue s x [] [] → InTime s x → ∀ (a b : BitVec 4) (d : BitVec 2) (oa ob : OpSlot),
      s.dev.me.opSlots[a.toNat]? = some oa → s.dev.me.opSlots[b.toNat]? = some ob → oa.owner = s.dev.slot →
      ob.owner = s.dev.slot → Paired oa ob →
      exec (.mma b a d) s = .next (queues (.mma d.toNat a.toNat b.toNat) (parksFor s x .array 0 [])) ∧
      exec (.mmz b a d) s = .next (queues (.mmz d.toNat a.toNat b.toNat) (parksFor s x .array 0 []))) ∧
    (InTime s x → ∀ (b : BitVec 7) (a : BitVec 2) (d : BitVec 7),
      let v := (x.getG b.toNat).val.toNat
      let row := v % 64
      let form := v / 256 % 4
      CanIssue s x [.g b.toNat] ((if form = 0 then [.v (d.toNat + 1)] else []) ++ [.v d.toNat, .g b.toNat]) →
      64 * a.toNat + row ∉ s.dev.me.accPoison →
      exec (.aread b a d) s = .next (queues (.aread d.toNat a.toNat row form) (parksFor s x .array 0 [])))

/-- R183, R184: the array begins the entry at its head when its slots have become FULL, and it then takes its array time: 16 or 32
cycles for each of eight row groups on a matrix die, 16 times as long on another, 16 for AZERO and 1 for AREAD. The cycle of a start
is the model's reading (log entry 72). -/
def Sys2Proof.Claims.ArrayStarts : Prop :=
  ∀ (s : State) (core : Nat) (e : ArrayEntry), let k := s.dev.coreAt core
    k.arrayQ = [e] → e.started = false → k.halted = false → k.saved = false → e.groups = 0 → entryLate s.dev k e = false →
    let begins (cycles : Nat) : Prop := exec (.arrayEntryStart core) s =
      .next { s with dev := s.dev.setCore core { k with
        arrayQ := [{ e with started := true, begun := true, until_ := k.cyc + cycles }] } }
    (∀ acc a b oa ob, e.op = .mma acc a b ∨ e.op = .mmz acc a b → k.opSlots[a]? = some oa → k.opSlots[b]? = some ob → Paired oa ob →
      (∀ o : OpSlot, o = oa ∨ o = ob → o.fullAt = 0 ∨ o.fullAt < s.dev.now) →
      begins (8 * (if 4 ≤ oa.tag then 32 else 16) * (if isMatrixDie core then 1 else 16))) ∧
    (∀ acc, e.op = .azero acc → begins 16) ∧
    (∀ dest acc row form, e.op = .aread dest acc row form → 64 * acc + row ∉ k.accPoison → begins 1)

/-- R67, R68, R183, R185: at the end of its array time a multiply has changed every element of its accumulator by the block
product (MMZ from zero), AZERO has cleared it, and AREAD has written its row; a parked issuer goes on after its instruction. -/
def Sys2Proof.Claims.ArrayCompletes : Prop :=
  ∀ (s : State) (core : Nat) (e : ArrayEntry) (rest : List ArrayEntry) (x : Context) (w : Wait), let k := s.dev.coreAt core
    k.arrayQ = e :: rest → e.started = true → k.halted = false → e.until_ ≤ k.cyc → e.groups = 0 →
    k.ctx e.slot = some x → x.phase = .parked w → w.kind = .array →
    (∀ acc a b, acc < 4 → e.op = .mma acc a b ∨ e.op = .mmz acc a b →
      ∃ t, exec (.arrayEntryComplete core) s = .next t ∧ t.mem = s.mem ∧ (t.dev.coreAt core).arrayQ = rest ∧
        t.dev.ctxAt core e.slot = some (wentOn x x) ∧
        (∀ i j, i < 64 → j < 64 → accElem (t.dev.coreAt core) acc i j =
          multiplyElem (k.slotAt a) (k.slotAt b) i j (if e.op = .mma acc a b then accElem k acc i j else 0) % 2^32) ∧
        ∀ acc' i, acc' ≠ acc → i < 64 → (t.dev.coreAt core).accRow acc' i = k.accRow acc' i) ∧
    (∀ acc, e.op = .azero acc →
      ∃ t, exec (.arrayEntryComplete core) s = .next t ∧ t.mem = s.mem ∧ (t.dev.coreAt core).arrayQ = rest ∧
        (∀ i, i < 64 → (t.dev.coreAt core).accRow acc i = 0) ∧
        ∀ acc' i, acc' ≠ acc → i < 64 → (t.dev.coreAt core).accRow acc' i = k.accRow acc' i) ∧
    (∀ dest acc row, e.op = .aread dest acc row 0 → (∀ n, k.bindingOf e.slot (.v n) = none) →
      let r := (k.accRow acc row).toNat
      let y := (x.writeV dest (BitVec.ofNat 1024 r) 3 0x3F800000).writeV (dest + 1) (BitVec.ofNat 1024 (r / 2^1024)) 3 0x3F800000
      ∃ t, exec (.arrayEntryComplete core) s = .next t ∧ t.mem = s.mem ∧ (t.dev.coreAt core).arrayQ = rest ∧
        t.dev.ctxAt core e.slot = some (wentOn x y)) ∧
    (∀ dest acc row form, e.op = .aread dest acc row form → form = 1 ∨ form = 2 ∨ form = 3 →
      (∀ n, k.bindingOf e.slot (.v n) = none) →
      let env : RoundEnv := ⟨if form = 3 then .sr else .rne, x.regs.sys.srseed.setWidth 32, x.regs.sys.srctr⟩
      let el (j : Nat) : Elem :=
        let v := decodeNum .f32 (accElem k acc row j)
        roundM (if form = 2 then .f16 else .bf16) env j v [v]
      ∃ t bits, exec (.arrayEntryComplete core) s = .next t ∧ t.mem = s.mem ∧ (t.dev.coreAt core).arrayQ = rest ∧
        Holds (.int false 16) bits (fun j => (el j).1) ∧
        let y := rounded (x.writeV dest bits (if form = 2 then 5 else 4) 0x3F800000) (flagsUpTo 64 fun j => (el j).2) (decide (form = 3))
        t.dev.ctxAt core e.slot = some (wentOn x y))

/-- R191, R192: a block-queue instruction parks until its reply; BQGET takes the next index, BQDONE counts one done and answers
how many are left, both all ones when none is, and BQINIT sets up a queue that is new or finished; another's queue makes the issuer trap PROT. -/
def Obligations.BlockQueues : Prop :=
  (∀ (s : State) (x : Context) (sa : Bool) (a b d : BitVec 7), x.canTakeG sa a → Settled s x → InTime s x →
    let q := (x.getG a.toNat).val
    let asks (i : Instr) (kind : Nat) (n : BitVec 32) : Prop :=
      exec i s = .next { s with dev := { (s.withCur (parksFor s (x.tookG sa a) .queued d.toNat (tookOf sa a))).dev with
        blockReqs := s.dev.blockReqs ++ [⟨kind, q, n, s.dev.core, s.dev.slot, x.part⟩] } }
    (CanIssue s x [.g a.toNat] [.g d.toNat, .g a.toNat] → asks (.bqget sa a d) 0 0 ∧ asks (.bqdone sa a d) 2 0) ∧
    (CanIssue s x [.g a.toNat, .g b.toNat] [.g d.toNat, .g a.toNat, .g b.toNat] → x.priv = true →
      asks (.bqinit sa b a d) 3 ((x.getG b.toNat).val.setWidth 32))) ∧
  (∀ (s : State) (n : Nat) (r : BlockReq) (x : Context) (w : Wait) (v : Word) (b' : BlockQueue),
    s.dev.blockReqs[n]? = some r → s.dev.ctxAt r.core r.slot = some x → x.phase = .parked w →
    expired w.expiry s.dev.wall = none → (s.dev.coreAt r.core).halted = false → Unbound s r.core r.slot w.dest →
    r.q.toNat < 64 → s.dev.lostDies = [] →
    s.dev.linkState (dieOfCore r.core) (if r.q.toNat < 32 then 8 else 9) = .active →
    let old := s.dev.blockQueues.find? fun b => b.id == r.q.toNat
    (∃ b, old = some b ∧ b.owner = r.part ∧
      ((r.kind = 0 ∧ b.next < b.n ∧ v = b.next.setWidth 64 ∧ b' = { b with next := b.next + 1 }) ∨
        (r.kind = 0 ∧ ¬b.next < b.n ∧ v = BitVec.allOnes 64 ∧ b' = b) ∨
        (r.kind = 2 ∧ b.done < b.n ∧ v = (b.n - (b.done + 1)).setWidth 64 ∧ b' = { b with done := b.done + 1 }) ∨
        (r.kind = 2 ∧ ¬b.done < b.n ∧ v = BitVec.allOnes 64 ∧ b' = b) ∨
        (r.kind = 3 ∧ b.done ≠ b.n ∧ v = 1 ∧ b' = b))) ∨
      (r.kind = 3 ∧ (old = none ∨ ∃ b, old = some b ∧ b.done = b.n) ∧ v = 0 ∧ b' = ⟨r.q.toNat, r.n, 0, 0, r.part⟩) →
    ∃ t, exec (.blockQueueRequest n) s = .next t ∧ t.mem = s.mem ∧ t.dev.blockReqs = s.dev.blockReqs.eraseIdx n ∧
      t.dev.ctxAt r.core r.slot = some (woken x w.dest v) ∧
      (t.dev.blockQueues.find? fun b => b.id == r.q.toNat) = some b') ∧
  (∀ (s : State) (n : Nat) (r : BlockReq) (x : Context) (w : Wait) (b : BlockQueue),
    s.dev.blockReqs[n]? = some r → s.dev.ctxAt r.core r.slot = some x → x.phase = .parked w →
    expired w.expiry s.dev.wall = none → (s.dev.coreAt r.core).halted = false → x.taken = [] →
    s.dev.linkState (dieOfCore r.core) (if r.q.toNat < 32 then 8 else 9) = .active →
    (s.dev.blockQueues.find? fun b => b.id == r.q.toNat) = some b → b.owner ≠ r.part → b.done ≠ b.n →
    ∃ t, exec (.blockQueueRequest n) s = .next t ∧ t.mem = s.mem ∧ t.dev.blockReqs = s.dev.blockReqs.eraseIdx n ∧
      t.dev.ctxAt r.core r.slot = some { x with phase := .trapping 0x07 r.q x.regs.pc })

/-- R198 to R201, R206 to R208: SPUP stores the root's value, with the old one added when bit 12 of gD asks for it, and SPDN
stores at each leaf's adjoint word what the pass brings it; both hold a tree for 8 + X cycles; a bad descriptor raises SPSHAPE. -/
def Sys2Proof.Claims.SumProductPasses : Prop :=
  ∀ (sa : Bool) (b a d : BitVec 7) (s : State) (x : Context),
    CanIssue s x [.g a.toNat, .v b.toNat, .g d.toNat] [.g d.toNat, .g a.toNat, .v b.toNat] → x.canTakeG sa a → Settled s x →
    spBusy true s.dev = false →
    let k := s.dev.me
    let desc := (x.getG a.toNat).val
    let idx := (List.range (leafCount desc)).map (leafIndex (x.getV b.toNat))
    let leaf (i : Nat) : Machine.Num := k.spVal (leafIndex (x.getV b.toNat) i)
    let rix := (x.getG d.toNat).val.toNat % 4096
    let acc := (x.getG d.toNat).val.getLsbD 12
    let adj (i : Nat) : Nat := (i + k.spOff) % 4096
    let c := conflictCycles (x.getV b.toNat) (leafCount desc)
    let x1 := x.tookG sa a
    let y := { x1 with regs := { x1.regs with conflict := x1.regs.conflict + BitVec.ofNat 32 c } }
    (∀ tree, buildTree desc = some tree → CleanScratch k (idx ++ (if acc then [rix] else [])) →
      let r := rootValue leaf tree
      exec (.spup sa b a d) s = .next (withMe s (fun k =>
        (k.setSp rix (BitVec.ofNat 32 (rne k.spFmt (if acc then r.add .rne (k.spVal rix) else r)))).engage s.dev.slot
          (some (8 + c)) (1 + c) (8 + c)) (y.past 4))) ∧
    (∀ tree, buildTree desc = some tree → CleanScratch k (idx ++ [adj rix] ++ (if acc then idx.map adj else [])) →
      let gs := idx.zip (leafAdjoints leaf tree (k.spVal (adj rix)))
      ∃ t, exec (.spdn sa b a d) s = .next t ∧ t.mem = s.mem ∧ t.dev.cur = some (y.past 4) ∧
        (∀ i ∈ idx, t.dev.me.sp (adj i) = BitVec.ofNat 32 (match addAdjoints k.spFmt (if acc then some (k.spVal (adj i)) else none)
            ((gs.filter fun p => p.1 == i).map Prod.snd) with
          | some g => rne k.spFmt g
          | none => 0)) ∧
        ∀ n, n < 4096 → (∀ i ∈ idx, adj i ≠ n) → t.dev.me.sp n = k.sp n) ∧
    (buildTree desc = none → x.pending = [] → HasHandler x → TrapsTo (exec (.spup sa b a d) s) s x 0x10 desc ∧
      TrapsTo (exec (.spdn sa b a d) s) s x 0x10 desc)

/-- R194, R203 to R206, R208: the scratch accesses move lanes and words between registers and the scratch memory, whose word
numbers wrap at 4,096; SPWAIT waits for the context's engine instructions and takes its conflict count. -/
def Sys2Proof.Claims.SumProductScratch : Prop :=
  (∀ (sa : Bool) (a d : BitVec 7) (s : State) (x : Context), x.canTakeG sa a →
    let k := s.dev.me
    let i := (x.getG a.toNat).val.toNat % 4096
    let x1 := x.tookG sa a
    (CanIssue s x [.g a.toNat] [.v d.toNat, .g a.toNat] → spBusy false s.dev = false →
      CleanScratch k ((List.range 32).map (i + ·)) →
      ∃ bits : VBits, exec (.spld sa a d) s = .next (withMe s (fun k => k.engage s.dev.slot none 4 4)
          ((x1.writeV d.toNat bits (if k.spcfg.getLsbD 12 then 10 else 3) 0x3F800000).past 4)) ∧
        Holds (.int false 32) bits fun j => (k.sp (i + j)).toNat) ∧
    (CanIssue s x [.g a.toNat, .v d.toNat] [.v d.toNat, .g a.toNat] → Settled s x →
      ∃ t, exec (.spst sa a d) s = .next t ∧ t.mem = s.mem ∧ t.dev.cur = some (x1.past 4) ∧
        t.dev.me.engine = k.engine ++ [(s.dev.slot, k.cyc + 4)] ∧
        ∀ n, n < 4096 → t.dev.me.sp n =
          if scratchOffset i n < 32 then BitVec.ofNat 32 (lane x d.toNat (scratchOffset i n)) else k.sp n) ∧
    (CanIssue s x [.g a.toNat] [.g d.toNat, .g a.toNat] → spBusy false s.dev = false → CleanScratch k [i] →
      exec (.spget sa a d) s = .next (withMe s (fun k => k.engage s.dev.slot none 1 1)
        ((x1.writeG d.toNat ((k.sp i).setWidth 64)).past 4)))) ∧
  (∀ (sa : Bool) (a b : BitVec 7) (s : State) (x : Context), x.canTakeG sa a → Settled s x →
    CanIssue s x [.g a.toNat, .g b.toNat] [.g a.toNat, .g b.toNat] →
    let k := s.dev.me
    let i := (x.getG a.toNat).val.toNat % 4096
    let v := (x.getG b.toNat).val
    exec (.spput sa b a) s = .next (withMe s (fun k => (k.setSp i (v.setWidth 32)).engage s.dev.slot none 0 1)
      ((x.tookG sa a).past 4)) ∧
    ∃ t, exec (.spclr sa b a) s = .next t ∧ t.mem = s.mem ∧ t.dev.cur = some ((x.tookG sa a).past 4) ∧
      t.dev.me.engine = k.engine ++ [(s.dev.slot, k.cyc + (v.toNat % 64 + 8) / 8)] ∧
      ∀ n, n < 4096 → t.dev.me.sp n = if scratchOffset i n ≤ v.toNat % 64 then 0 else k.sp n) ∧
  (∀ (d : BitVec 7) (s : State) (x : Context), CanIssue s x [] [.g d.toNat] → Settled s x →
    ((∀ e ∈ s.dev.me.engine, e.1 = s.dev.slot → e.2 ≤ s.dev.me.cyc) →
      exec (.spwait d) s = .next (s.withCur (({ x with regs := { x.regs with conflict := 0 } }.writeG d.toNat
        (x.regs.conflict.setWidth 64)).past 4))) ∧
    ((∃ e ∈ s.dev.me.engine, e.1 = s.dev.slot ∧ s.dev.me.cyc < e.2) → InTime s x →
      ∃ t y, exec (.spwait d) s = .next t ∧ t.mem = s.mem ∧ t.dev.cur = some y ∧ y.regs = x.regs ∧
        y.phase = .parked (waitOf s x .retry 0))) ∧
  (∀ (s : State) (core n : Nat) (e : Nat × Nat), (s.dev.coreAt core).engine[n]? = some e → e.2 ≤ (s.dev.coreAt core).cyc →
    ∃ t, exec (.speEngineFinish core n) s = .next t ∧ t.mem = s.mem ∧
      (t.dev.coreAt core).engine = (s.dev.coreAt core).engine.eraseIdx n)

namespace Sys2Proof.Claims
open Sys2Proof.Machine

/-- Two spans [b, b + n) and [c, c + m) have no entry in common. -/
def Apart (b n c m : Nat) : Prop := b + n ≤ c ∨ c + m ≤ b ∨ n = 0 ∨ m = 0

/-- n dwords at an address of a context read as `ws` at issue (R124); `d'` is the device with the translations that were made. -/
def Dwords (m : Memory) (x : Context) (d : Device) (a : Word) (ws : List Word) (d' : Device) : Prop :=
  (∀ f : Device → List Word → Verdict, readDwords m x ws.length d a [] f = f d' ws) ∧
  d'.cores = d.cores ∧ d'.core = d.core ∧ d'.slot = d.slot ∧ d'.accesses = d.accesses

/-- The device in which the synchronised read of gA has taken place. -/
def tookDevice (s : State) (x1 : Context) : Device := s.dev.setCtx s.dev.core s.dev.slot x1

/-- The state over another device in which the core whose turn it is and its context are replaced. -/
def overDevice (s : State) (d : Device) (f : Core → Core) (y : Context) : State :=
  { s with dev := (d.onMe f).setCtx s.dev.core s.dev.slot y }

/-- The fields of a stream descriptor that is valid (R227). -/
structure ValidStream (base stride d2 d3 : Word) : Prop where
  none3 : d3 = 0
  high : d2.toNat < 2^39
  width : d2.toNat / 2^32 % 8 ≤ 4
  count : d2.toNat % 2^32 ≠ 0
  strides : stride.toInt % ((if d2.toNat / 2^32 % 8 = 4 then 128 else 2^(d2.toNat / 2^32 % 8) : Nat) : Int) = 0
  aligned : base.toNat % (if d2.toNat / 2^32 % 8 = 4 then 128 else 2^(d2.toNat / 2^32 % 8)) = 0

/-- The generator that SGDEF makes of a valid descriptor (R227). -/
def streamFrom (s : State) (x : Context) (base stride d2 : Word) : Gen :=
  { defined := true
    write := d2.getLsbD 35
    sext := d2.getLsbD 36
    scope := BitVec.ofNat 2 (d2.toNat / 2^37)
    width := if d2.toNat / 2^32 % 8 = 4 then 128 else 2^(d2.toNat / 2^32 % 8)
    count := d2.toNat % 2^32
    stride := stride.toInt
    base := base
    owner := s.dev.slot
    vf := x.vf
    pc := x.regs.pc }

/-- A core in whose present cycle a slot is readied: the slot's turn in the next cycle, where it is that one, stays empty (R14). -/
def readied (slot : Nat) (k : Core) : Core := if slot = (k.cyc + 1) % 16 then { k with used := some (k.cyc + 1) } else k

/-- The group of the context's launch that a barrier instruction names (R224). -/
def groupIs (s : State) (x : Context) (v : Word) (g : Group) : Prop :=
  v.toNat < 255 ∧ ∃ l, s.dev.launchAt x.part x.launch = some l ∧ (l.groups.find? fun q => q.id == v.toNat) = some g

end Sys2Proof.Claims

/-! Contexts, messages, groups, streams, semaphores and copies. -/

/-- R215 to R218: TSPAWN starts a fresh context in an empty slot, with a TID made of the slot's spawn count, the core's number in
the launch and the slot, and its groups in ascending order, and refuses by number; TREAP empties a stopped slot and tells how it stopped; TKILL stops a context;
TWAKE ends a sleep; TSTAT reads a slot. A slot that TSPAWN or TWAKE readies has no turn in the very next cycle (R14). -/
def Obligations.Threads : Prop :=
  (∀ (sa : Bool) (a b d : BitVec 7) (s : State) (x : Context) (l : Launch),
    CanIssue s x [.g a.toNat, .g b.toNat] [.g d.toNat, .g a.toNat, .g b.toNat] → x.canTakeG sa a → Settled s x → s.dev.slot = 0 →
    s.dev.launchAt x.part x.launch = some l →
    let v := (x.getG a.toNat).val.toNat
    let sl := v % 16
    let gb := v / 2^4 % 2^11
    let gc := v / 2^15 % 2^8
    let vb := v / 2^23 % 2^9
    let vc := v / 2^32 % 2^7
    let k := s.dev.me
    let gives (n : Word) : Prop := exec (.tspawn sa b a d) s = .next (s.withCur (((x.tookG sa a).writeG d.toNat n).past 4))
    (sl = 0 ∨ (k.ctx sl).isSome = true → gives 1) ∧
    (sl ≠ 0 → k.slots[sl]? = some none → reservedSlot s.dev s.dev.core sl = false → sl ∉ k.tied →
      (2^39 ≤ v ∨ gc = 0 ∨ gc % 8 ≠ 0 ∨ 128 < gc ∨ vc % 4 ≠ 0 ∨ 64 < vc ∨ 2048 < gb + gc ∨ 512 < vb + vc → gives 2) ∧
      (v < 2^39 → gc ≠ 0 → gc % 8 = 0 → gc ≤ 128 → vc % 4 = 0 → vc ≤ 64 → gb + gc ≤ 2048 → vb + vc ≤ 512 →
        (∀ q ∈ heldWindows s.dev s.dev.core, Apart gb gc q.1 q.2.1 ∧ Apart vb vc q.2.2.1 q.2.2.2) →
        ∀ (n : Nat) (gs : List Nat), k.spawns[sl]? = some n →
        let tid := BitVec.ofNat 32 (n % 256 * 2^24 + 16 * l.coreNumber s.dev.core + sl)
        gs.Perm ((l.groups.filter fun g => g.members.contains tid).map Group.id) → gs.Pairwise (· ≤ ·) →
        let y : Context :=
          { tid := tid
            launch := x.launch
            part := x.part
            vf := x.vf
            priv := x.priv
            groups := gs
            gBase := gb
            gCount := gc
            vBase := vb
            vCount := vc
            regs := { pc := (x.getG b.toNat).val &&& ~~~1 } }
        exec (.tspawn sa b a d) s = .next (withMe s (fun k => (readied sl { (k.setCtx sl (some y)) with spawns := k.spawns.set sl (n + 1) }))
          (((x.tookG sa a).writeG d.toNat 0).past 4))))) ∧
  (∀ (sa : Bool) (a d : BitVec 7) (s : State) (x y : Context),
    CanIssue s x [.g a.toNat] [.g d.toNat, .g a.toNat] → x.canTakeG sa a → Settled s x → s.dev.slot = 0 →
    let sl := (x.getG a.toNat).val.toNat % 16
    let said (n : Word) : Context := ((x.tookG sa a).writeG d.toNat n).past 4
    (sl = 0 ∨ s.dev.me.ctx sl = none → exec (.treap sa a d) s = .next (s.withCur (said (BitVec.allOnes 64)))) ∧
    (sl = 0 → exec (.tkill sa a d) s = .next (s.withCur (said 2))) ∧
    (sl ≠ 0 → s.dev.me.ctx sl = none → exec (.tkill sa a d) s = .next (s.withCur (said 1))) ∧
    (sl ≠ 0 → s.dev.me.ctx sl = some y → y.isStopped = true → exec (.tkill sa a d) s = .next (s.withCur (said 1))) ∧
    (sl ≠ 0 → s.dev.me.ctx sl = some y → reapable s.dev s.dev.core sl = true → ∀ how code cause, y.phase = .stopped how code cause →
      ∃ t z, exec (.treap sa a d) s = .next t ∧ t.mem = s.mem ∧ t.dev.me.ctx sl = none ∧ t.dev.cur = some z ∧
        z.regs = (said (BitVec.ofNat 64 (y.tid.toNat * 2^32 + code.toNat * 2^16 + how.toNat * 2^8 +
          (if how = 3 then cause.toNat else 0)))).regs) ∧
    (sl ≠ 0 → s.dev.me.ctx sl = some y → y.phase = .ready → y.pending = [] → s.dev.me.woke = [] →
      ∃ t z, exec (.tkill sa a d) s = .next t ∧ t.mem = s.mem ∧ t.dev.cur = some (said 0) ∧ t.dev.me.ctx sl = some z ∧
        z.phase = .stopped 2 0 0 ∧ z.regs = y.regs)) ∧
  (∀ (sa : Bool) (a d : BitVec 7) (s : State) (x y : Context),
    CanIssue s x [.g a.toNat] [.g d.toNat, .g a.toNat] → x.canTakeG sa a →
    let sl := (x.getG a.toNat).val.toNat % 16
    let said (n : Word) : Context := ((x.tookG sa a).writeG d.toNat n).past 4
    (sl ≠ s.dev.slot → Settled s x → s.dev.me.ctx sl = some y →
      (y.isStopped = true → exec (.twake sa a d) s = .next (s.withCur (said 2))) ∧
      (∀ w, y.phase = .sleeping w → expired w.expiry s.dev.wall = none → Unbound s s.dev.core sl w.dest →
        exec (.twake sa a d) s = .next (withMe s (fun k =>
          readied sl { (k.setCtx sl (some (woken y w.dest 2))) with woke := ⟨sl, w.kind, w.dest, 2⟩ :: k.woke }) (said 0))) ∧
      (y.phase = .ready → ∃ t, exec (.twake sa a d) s = .next t ∧ t.mem = s.mem ∧ t.dev.cur = some (said 1) ∧
        t.dev.me.ctx sl = some { y with regs := { y.regs with wakePending := true } })) ∧
    (s.dev.me.ctx sl = none → exec (.tstat sa a d) s = .next (s.withCur (said 0))) ∧
    (sl = s.dev.slot → Settled s x →
      let x1 := x.tookG sa a
      ∃ t, exec (.twake sa a d) s = .next t ∧ t.mem = s.mem ∧
        t.dev.cur = some (({ x1 with regs := { x1.regs with wakePending := true } }.writeG d.toNat 1).past 4)) ∧
    (s.dev.me.ctx sl = some y →
      let code := match y.phase with
        | .parked _ => 2
        | .faulted _ _ _ _ => 2
        | .swept _ => 2
        | .sleeping _ => 3
        | .stopped _ _ _ => 4
        | _ => 1
      exec (.tstat sa a d) s = .next (s.withCur (said (BitVec.ofNat 64
        (y.tid.toNat * 2^32 + (if y.regs.wakePending then 8 else 0) + code))))))

/-- R22, R219 to R222: MCLASS binds a class to a register of a slot or unbinds it; MSEND and MSEND2 hand their words to the
network when the destination's interface has room, and raise PROT outside the partition; MDRAIN discards and counts. -/
def Obligations.Messages : Prop :=
  (∀ (sa : Bool) (a d : BitVec 7) (s : State) (x : Context),
    CanIssue s x [.g a.toNat] [.g d.toNat, .g a.toNat] → x.canTakeG sa a → Settled s x →
    let v := (x.getG a.toNat).val
    let cls := v.toNat % 16
    let sl := v.toNat / 16 % 16
    let r : Reg := if v.getLsbD 15 then .v (v.toNat / 2^8 % 128) else .g (v.toNat / 2^8 % 128)
    let said (n : Word) : Context := ((x.tookG sa a).writeG d.toNat n).past 4
    let k := s.dev.me
    (2^17 ≤ v.toNat → exec (.mclass sa a d) s = .next (s.withCur (said 2))) ∧
    (v.toNat < 2^17 → v.getLsbD 16 = true →
      exec (.mclass sa a d) s = .next (withMe s (fun k => { k with classes := k.classes.set cls none }) (said 0))) ∧
    (v.toNat < 2^16 → k.ctx sl = none → exec (.mclass sa a d) s = .next (s.withCur (said 3))) ∧
    (∀ y, v.toNat < 2^16 → k.ctx sl = some y → y.isStopped = true → exec (.mclass sa a d) s = .next (s.withCur (said 3))) ∧
    (∀ y, v.toNat < 2^16 → k.ctx sl = some y → y.isStopped = false → k.tied = [] →
      (∀ q q', k.classes[cls]? = some (some (q, q')) → q ≠ sl → (k.ctx q).isSome = true →
        exec (.mclass sa a d) s = .next (s.withCur (said 1))) ∧
      ((∀ q q', k.classes[cls]? = some (some (q, q')) → q = sl ∨ k.ctx q = none) → (y.inWindow r = false → exec (.mclass sa a d) s = .next (s.withCur (said 2))) ∧
        (y.inWindow r = true → k.bindingOf sl r = none →
          exec (.mclass sa a d) s =
            .next (withMe s (fun k => { k with classes := k.classes.set cls (some (sl, r)) }) (said 0)))))) ∧
  (∀ (sa : Bool) (a b : BitVec 7) (s : State) (x : Context), x.canTakeG sa a → Settled s x →
    let v := (x.getG a.toNat).val
    let to_ := v.toNat / 16 % 2^14
    let cls := v.toNat / 2^18 % 16
    let msg (c : Nat) (p : Word) (n : Nat) (f : Option Nat) : Message :=
      { from_ := s.dev.core, sender := x.tid, part := x.part, to_ := to_, cls := c % 16, payload := p, slot := s.dev.slot
        handAt := s.dev.me.cyc + 2, id := s.dev.nextAccess + n, follows := f }
    let sends (i : Instr) (ms : List Message) : Prop :=
      exec i s = .next { s with dev := { (s.withCur ((x.tookG sa a).past 4)).dev with
        messages := s.dev.messages ++ ms, nextAccess := s.dev.nextAccess + ms.length } }
    (CanIssue s x [.g a.toNat, .g b.toNat] [.g a.toNat, .g b.toNat] →
      (v.toNat < 2^22 → (s.dev.partAt x.part).hasCore to_ = true → interfaceRoom s.dev to_ cls 1 = true →
        sends (.msend sa b a) [msg cls (x.getG b.toNat).val 0 none]) ∧
      (2^22 ≤ v.toNat ∨ (s.dev.partAt x.part).hasCore to_ = false → x.pending = [] → HasHandler x →
        TrapsTo (exec (.msend sa b a) s) s x 0x07 v)) ∧
    (CanIssue s x [.g a.toNat, .g b.toNat, .g (b.toNat + 1)] [.g a.toNat, .g b.toNat, .g (b.toNat + 1)] →
      v.toNat < 2^22 → (s.dev.partAt x.part).hasCore to_ = true → interfaceRoom s.dev to_ cls 2 = true →
      sends (.msend2 sa b a) [msg cls (x.getG b.toNat).val 0 none,
        msg (cls + 1) (x.getG (b.toNat + 1)).val 1 (some s.dev.nextAccess)])) ∧
  (∀ (sa : Bool) (a d : BitVec 7) (s : State) (x : Context),
    CanIssue s x [.g a.toNat] [.g d.toNat, .g a.toNat] → x.canTakeG sa a → Settled s x →
    let cls := (x.getG a.toNat).val.toNat % 16
    let said (n : Word) : Context := ((x.tookG sa a).writeG d.toNat n).past 4
    (s.dev.me.classes[cls]? = some none ∨ (∃ r, s.dev.me.classes[cls]? = some (some (s.dev.slot, r))) →
      exec (.mdrain sa a d) s = .next (withMe s (fun k => { k with waiting := k.waiting.filter fun q => q.cls != cls })
        (said (BitVec.ofNat 64 (s.dev.me.waiting.countP fun q => q.cls == cls))))) ∧
    (∀ q r, s.dev.me.classes[cls]? = some (some (q, r)) → q ≠ s.dev.slot →
      exec (.mdrain sa a d) s = .next (s.withCur (said (BitVec.allOnes 64)))))

/-- R223, R224: BAR and BARA of a context with nothing in flight send their arrival and park; BARW of one ends once the phase has gone,
and parks before that; GQRY reads the group. The
arrival of the last member that counts ends the phase: G advances and the waiting contexts go on with the phase's number. -/
def Sys2Proof.Claims.Barriers : Prop :=
  (∀ (sa : Bool) (a b d : BitVec 7) (s : State) (x : Context) (g : Group), x.canTakeG sa a →
    groupIs s x (x.getG a.toNat).val g →
    let said (n : Word) : Context := ((x.tookG sa a).writeG d.toNat n).past 4
    (CanIssue s x [.g a.toNat] [.g d.toNat, .g a.toNat] → Drained s x → Settled s x → InTime s x → x.tid ∈ g.members →
      ∀ (i : Instr) (waits : Bool), (i = .bar sa a d ∧ waits = true) ∨ (i = .bara sa a d ∧ waits = false) →
      ∃ t, exec i s = .next t ∧ t.mem = s.mem ∧
        t.dev.cur = some { parksFor s (x.tookG sa a) .queued d.toNat (tookOf sa a) with fence := none } ∧
        t.dev.arrivals = s.dev.arrivals ++ [⟨x.launch, 0, g.id, x.tid, s.dev.core, s.dev.slot, waits, 0⟩]) ∧
    (CanIssue s x [.g a.toNat, .g b.toNat] [.g d.toNat, .g a.toNat, .g b.toNat] →
      let ph : BitVec 32 := (x.getG b.toNat).val.setWidth 32
      (Drained s x → g.members.length ≤ g.gone.length ∨ (g.generation - ph - 1).toNat < 2^31 →
        exec (.barw sa b a d) s = .next (s.withCur (said (g.generation.setWidth 64)))) ∧
      (g.gone.length < g.members.length → 2^31 ≤ (g.generation - ph - 1).toNat → InTime s x →
        ∃ t y, exec (.barw sa b a d) s = .next t ∧ t.mem = s.mem ∧ t.dev.cur = some y ∧ y.regs = x.regs ∧
          y.phase = .parked (waitOf s x (.phase g.id ph) 0))) ∧
    (CanIssue s x [.g a.toNat] [.g d.toNat, .g a.toNat] →
      exec (.gqry sa a d) s = .next (s.withCur (said (BitVec.ofNat 64
        ((g.members.length - g.gone.length) * 2^48 + g.arrived.length * 2^32 + g.generation.toNat)))))) ∧
  (∀ (s : State) (n : Nat) (r : Arrival) (x : Context) (w : Wait) (l : Launch) (g : Group),
    s.dev.arrivals[n]? = some r → r.kind = 0 → (∀ q ∈ s.dev.arrivals.take n, q.tid ≠ r.tid) →
    s.dev.ctxAt r.core r.slot = some x → x.tid = r.tid → x.phase = .parked w → expired w.expiry s.dev.wall = none →
    (s.dev.coreAt r.core).halted = false → Unbound s r.core r.slot w.dest →
    s.dev.launchAt (s.dev.coreAt r.core).part r.launch = some l → (l.groups.find? fun q => q.id == r.group) = some g →
    r.tid ∉ g.arrived → (s.dev.cores.map Prod.fst).Nodup →
    x.part = (s.dev.coreAt r.core).part → x.launch = r.launch →
    ∃ t l' g', exec (.barrierArrival n) s = .next t ∧ t.mem = s.mem ∧ t.dev.arrivals = s.dev.arrivals.eraseIdx n ∧
      t.dev.launchAt (s.dev.coreAt r.core).part r.launch = some l' ∧ (l'.groups.find? fun q => q.id == r.group) = some g' ∧
      (g.members.length - g.gone.length ≤ g.arrived.length + 1 →
        g' = { g with generation := g.generation + 1, arrived := [], gone := g.gone ++ g.leaving, leaving := [] } ∧
        t.dev.ctxAt r.core r.slot = some (woken x w.dest (g.generation.setWidth 64))) ∧
      (g.arrived.length + 1 < g.members.length - g.gone.length →
        g' = { g with arrived := g.arrived ++ [r.tid] } ∧
        (r.waits = false → t.dev.ctxAt r.core r.slot = some (woken x w.dest (g.generation.setWidth 64))) ∧
        (r.waits = true → t.dev.ctxAt r.core r.slot =
          some { x with phase := .parked { w with kind := .barrier r.group g.generation } })))

/-- R225, R226: WLPUSH appends an item and parks until the work count has grown, WLPOP takes the oldest, WLSTAT reads and clears the
counts of shipped items, WLDONE parks until the count has shrunk; a sample ships the newest items of lists, which join their
neighbours' lists at the tail. What an expiry leaves of a WLPUSH is the model's reading (log entry 53). -/
def Sys2Proof.Claims.WorkLists : Prop :=
  (∀ (sa : Bool) (a d : BitVec 7) (s : State) (x : Context),
    CanIssue s x [.g a.toNat] [.g d.toNat, .g a.toNat] → x.canTakeG sa a → Settled s x →
    let v := (x.getG a.toNat).val
    let coming := (s.dev.shipments.map fun q => if q.to_ = s.dev.core then q.items.length else 0).sum
    let gives (n : Word) : Prop := exec (.wlpush sa a d) s = .next (s.withCur (((x.tookG sa a).writeG d.toNat n).past 4))
    (v = BitVec.allOnes 64 → gives 2) ∧
    (v ≠ BitVec.allOnes 64 → 64 ≤ s.dev.me.workList.length + coming → gives 1) ∧
    (v ≠ BitVec.allOnes 64 → s.dev.me.workList.length + coming < 64 → InTime s x →
      ∃ t, exec (.wlpush sa a d) s = .next t ∧ t.mem = s.mem ∧ t.dev.cur = some (parksFor s (x.tookG sa a) (.pushed s.dev.nextAccess) d.toNat (tookOf sa a)) ∧
        t.dev.me.workList = s.dev.me.workList ++ [v] ∧
        t.dev.arrivals = s.dev.arrivals ++ [⟨x.launch, 2, 0, x.tid, s.dev.core, s.dev.slot, true, s.dev.nextAccess⟩])) ∧
  (∀ (d : BitVec 7) (s : State) (x : Context), CanIssue s x [] [.g d.toNat] → Settled s x →
    let k := s.dev.me
    (k.workList = [] → exec (.wlpop d) s = .next (s.withCur ((x.writeG d.toNat (BitVec.allOnes 64)).past 4))) ∧
    (∀ v rest, k.workList = v :: rest →
      exec (.wlpop d) s = .next (withMe s (fun k => { k with workList := rest }) ((x.writeG d.toNat v).past 4))) ∧
    exec (.wlstat d) s = .next (withMe s (fun k => { k with shippedOut := 0, receivedIn := 0 })
      ((x.writeG d.toNat (BitVec.ofNat 64 (min k.shippedOut 255 * 2^16 + min k.receivedIn 255 * 2^8 + k.workList.length))).past 4)) ∧
    (InTime s x → ∃ t, exec (.wldone d) s = .next t ∧ t.mem = s.mem ∧ t.dev.cur = some (parksFor s x .queued d.toNat []) ∧
      t.dev.arrivals = s.dev.arrivals ++ [⟨x.launch, 3, 0, x.tid, s.dev.core, s.dev.slot, true, 0⟩])) ∧
  (∀ (s : State) (n : Nat) (r : Arrival) (x : Context) (w : Wait) (l : Launch),
    s.dev.arrivals[n]? = some r → r.kind = 2 ∨ r.kind = 3 → (s.dev.coreAt r.core).halted = false → s.dev.ctxAt r.core r.slot = some x → x.tid = r.tid →
    x.phase = .parked w → expired w.expiry s.dev.wall = none → Unbound s r.core r.slot w.dest →
    s.dev.launchAt (s.dev.coreAt r.core).part r.launch = some l →
    ∃ t l', exec (.barrierArrival n) s = .next t ∧ t.mem = s.mem ∧
      t.dev.launchAt (s.dev.coreAt r.core).part r.launch = some l' ∧
      (r.kind = 2 → w.kind = .pushed r.id → l'.workCount = l.workCount + 1 ∧ t.dev.ctxAt r.core r.slot = some (woken x w.dest 0)) ∧
      (r.kind = 3 → l'.workCount = l.workCount - 1 ∧ t.dev.ctxAt r.core r.slot = some (woken x w.dest
        (if l.workCount = 0 then BitVec.allOnes 64 else BitVec.ofNat 64 (l.workCount - 1))))) ∧
  (∀ (s : State) (n : Nat) (q : Shipment), s.dev.shipments[n]? = some q → (∀ r ∈ s.dev.shipments.take n, r.to_ ≠ q.to_) →
    ∃ t, exec (.winnowShipmentArrival n) s = .next t ∧ t.mem = s.mem ∧ t.dev.shipments = s.dev.shipments.eraseIdx n ∧
      (t.dev.coreAt q.to_).workList = (s.dev.coreAt q.to_).workList ++ q.items ∧
      (t.dev.coreAt q.to_).receivedIn = min 255 ((s.dev.coreAt q.to_).receivedIn + q.items.length)) ∧
  (∀ (s : State) (n : Nat) (l : Launch), s.dev.launches[n]? = some l → l.ended = none → l.preempted = false → s.dev.shipments = [] → l.cores.Nodup →
    l.started < s.dev.wall → (s.dev.wall - l.started) % (1000 * l.interval) = 0 →
    l.sampled < (s.dev.wall - l.started) / (1000 * l.interval) →
    ∃ t, exec (.winnowSample n) s = .next t ∧ t.mem = s.mem ∧ t.dev.shipments = winnowPlan s.dev l ∧
      ∀ q ∈ t.dev.shipments, ∃ kept, (s.dev.coreAt q.from_).workList = kept ++ q.items ∧ (t.dev.coreAt q.from_).workList = kept)

/-- R26, R227 to R229: SGDEF makes a generator of a descriptor, refusing a bound one with 1 and a bad descriptor with 2; BIND and
UNBIND tie it to a register; SSTAT and SDRAIN read it, a read generator being faulted once a pop has reached its fault. That a bound generator that has
reached COUNT reads ended is the model's choice (log entry 109). -/
def Sys2Proof.Claims.Streams : Prop :=
  (∀ (sa : Bool) (a b d : BitVec 7) (s : State) (x : Context) (g : Gen) (d' : Device) (base stride d2 d3 : Word),
    CanIssue s x [.g a.toNat, .g b.toNat] [.g d.toNat, .g a.toNat, .g b.toNat] → x.canTakeG sa a → Settled s x →
    let n := (x.getG a.toNat).val.toNat % 16
    let x1 := x.tookG sa a
    s.dev.me.gens[n]? = some g →
    (g.bound.isSome = true → exec (.sgdef sa b a d) s = .next (s.withCur ((x1.writeG d.toNat 1).past 4))) ∧
    (g.bound = none → (g.write = true → g.queue = []) → (x.getG b.toNat).val.toNat % 8 = 0 →
      Dwords s.mem x1 (tookDevice s x1) (x.getG b.toNat).val [base, stride, d2, d3] d' →
      (¬ValidStream base stride d2 d3 →
        exec (.sgdef sa b a d) s = .next (overDevice s d' id ((x1.writeG d.toNat 2).past 4))) ∧
      (ValidStream base stride d2 d3 →
        exec (.sgdef sa b a d) s = .next (overDevice s d' (fun k => k.setGen n (streamFrom s x base stride d2))
          ((x1.writeG d.toNat 0).past 4))))) ∧
  (∀ (sa v : Bool) (a d : BitVec 7) (s : State) (x : Context) (g : Gen),
    let r : Reg := if v then .v d.toNat else .g d.toNat
    CanIssue s x [.g a.toNat] [r, .g a.toNat] → x.canTakeG sa a → Settled s x → r ≠ .g 0 →
    (∀ c, c ∈ s.dev.me.classes → c ≠ some (s.dev.slot, r)) →
    let n := (x.getG a.toNat).val.toNat % 16
    s.dev.me.gens[n]? = some g → g.defined = true → g.bound = none → (g.width = 128 ↔ v = true) →
    exec (.bind sa v a d) s = .next (withMe s
      (fun k => k.setGen n { g with
        bound := some (s.dev.slot, r), owner := s.dev.slot, vf := x.vf
        prior := (g.prior.filter fun q => decide (g.performed < q.2.2)) ++
          (if g.write = true ∧ g.queue ≠ [] ∧ g.owner ≠ s.dev.slot then [(g.owner, g.vf, g.position)] else []) })
      ((x.tookG sa a).past 4))) ∧
  (∀ (sa : Bool) (a d : BitVec 7) (s : State) (x : Context) (g : Gen),
    CanIssue s x [.g a.toNat] [.g d.toNat, .g a.toNat] → x.canTakeG sa a →
    let n := (x.getG a.toNat).val.toNat % 16
    let said (v : Word) : Context := ((x.tookG sa a).writeG d.toNat v).past 4
    let fault := if g.write ∨ g.reached then g.fault else none
    s.dev.me.gens[n]? = some g →
    (Settled s x → (∀ r, g.bound ≠ some (s.dev.slot, r)) → exec (.unbind sa a d) s = .next (s.withCur (said (BitVec.allOnes 64)))) ∧
    (Settled s x → ∀ r, g.bound = some (s.dev.slot, r) →
      exec (.unbind sa a d) s = .next (withMe s (fun k => k.setGen n
        (if g.write then { g with bound := none }
          else { g with bound := none, queue := [], spent := [], part := [], fault := if g.reached then g.fault else none, waiting := none }))
        (said (BitVec.ofNat 64 g.position)))) ∧
    ((g.write = true → g.queue = [] ∧ g.fault = none) →
      exec (.sdrain sa a d) s = .next (s.withCur (said (BitVec.ofNat 64 g.position)))) ∧
    (exec (.sstat sa true a d) s = .next (s.withCur (said ((fault.map Prod.snd).getD 0)))) ∧
    (let status := if g.defined = false then 0 else if fault ≠ none then 4
        else if g.position = g.count then 3 else if g.bound ≠ none then 2 else 1
      let bound := match g.bound with
        | some (q, .g r) => q * 2^56 + r * 2^48
        | some (q, .v r) => q * 2^56 + 2^55 + r * 2^48
        | none => 0
      let cause := match fault with
        | some f => f.1.toNat
        | none => 0
      exec (.sstat sa false a d) s = .next (s.withCur (said (BitVec.ofNat 64
        (bound + cause * 2^40 + (if g.write then 2^35 else 0) + status * 2^32 + (g.count - g.position)))))))

/-- R26, R227, R228, R250: a stream-bound operand pops the oldest element; a bound read generator fetches ahead, and a write
generator performs its oldest element at its address. -/
def Sys2Proof.Claims.StreamElements : Prop :=
  (∀ (o : Unary) (a d : BitVec 7) (s : State) (x : Context) (n : Nat) (g : Gen) (v : VBits) (rest : List (Option VBits)),
    CanIssue s x [] [.g d.toNat] → Settled s x → a ≠ d → x.inWindow (.g a.toNat) = true →
    (∀ p ∈ x.pending, 0 < p.left → .g a.toNat ∉ p.dests) →
    s.dev.me.bindingOf s.dev.slot (.g a.toNat) = some n → s.dev.me.gens[n]? = some g → g.write = false →
    g.queue = some v :: rest → g.position < g.count → g.reached = false →
    exec (o.instr false a d) s = .next (withMe s
      (fun k => k.setGen n { g with queue := rest, position := g.position + 1, spent := [some v] })
      ((x.writeG d.toNat (o.value (v.setWidth 64))).past 4))) ∧
  (∀ (s : State) (core n : Nat) (g : Gen) (p : Place), (s.dev.coreAt core).gens[n]? = some g → g.defined = true → g.write = false →
    g.bound.isSome = true → g.fault = none → g.waiting = none → g.part = [] → g.queue.length < 8 → s.dev.accesses = [] →
    (s.dev.coreAt core).halted = false →
    g.position + g.queue.length < g.count → g.width = 1 ∨ g.width = 2 ∨ g.width = 4 ∨ g.width = 8 →
    let a := g.base + BitVec.ofInt 64 (g.stride * ((g.position + g.queue.length : Nat) : Int))
    ({ agentOf s.dev core g.vf core with
        l1 := true, who := some (3, core, n), owner := (s.dev.ctxAt core g.owner).map fun x => (x, g.owner) } : Agent).find s.mem s.dev a needR .plain = (.place p, s.dev) →
    s.mem.isPoisoned p.key = false → p.port = .scratchpad core → Config.scratchpadBase ≤ p.key →
    exec (.streamElementFetch core n) s = .next { s with dev := s.dev.setCore core ((s.dev.coreAt core).setGen n
      { g with
        queue := g.queue ++ [some ((if g.sext then (BitVec.ofNat (8 * g.width) (s.mem.nat p.key g.width)).signExtend 64
          else (BitVec.ofNat (8 * g.width) (s.mem.nat p.key g.width)).setWidth 64).setWidth 1024)]
        answered := none }) }) ∧
  (∀ (s : State) (core n : Nat) (g : Gen) (v : VBits) (rest : List (Option VBits)) (p : Place) (x : Context),
    (s.dev.coreAt core).gens[n]? = some g → g.write = true → g.fault = none → g.waiting = none → g.gaps = [] → g.prior = [] →
    g.holds = [] → g.part = [] → (s.dev.coreAt core).halted = false →
    g.queue = some v :: rest → s.dev.ctxAt core g.owner = some x → s.dev.accesses = [] → s.dev.waiters = [] →
    g.width = 1 ∨ g.width = 2 ∨ g.width = 4 ∨ g.width = 8 → p.key % g.width = 0 → s.mem.wf = true →
    s.mem.isPoisoned p.key = false →
    let a := g.base + BitVec.ofInt 64 (g.stride * (g.performed : Int))
    ({ agentOf s.dev core g.vf core with who := some (3, core, n), owner := some (x, g.owner) } : Agent).find s.mem s.dev a needW .plain = (.place p, s.dev) →
    p.port = .scratchpad core → Config.scratchpadBase ≤ p.key →
    ∃ t, exec (.streamElementWrite core n) s = .next t ∧
      Stored s.mem t.mem p.key g.width (v.toNat % 256^g.width) ∧ MarksSame s.mem t.mem ∧
      ∃ g', (t.dev.coreAt core).gens[n]? = some g' ∧ g'.queue = rest ∧ g'.performed = g.performed + 1)

namespace Sys2Proof.Claims
open Sys2Proof.Machine

/-- The context's access to an address goes to a place at once; `d'` is the device with the translation that was made. -/
def Placed (m : Memory) (d : Device) (x : Context) (a : Word) (align : Nat) (need : BitVec 3) (p : Place) (d' : Device) : Prop :=
  (∀ f : Device → Place → Verdict, withPlace m d x a align need .plain f = f d' p) ∧
  d'.cores = d.cores ∧ d'.core = d.core ∧ d'.slot = d.slot ∧ d'.notices = d.notices ∧ d'.accesses = d.accesses ∧ d'.waiters = d.waiters

/-- The eight dwords of a queue header are a queue's, with its fields (R230). -/
structure QueueHeader (s : State) (x : Context) (hs : List Word) (wr rd : Nat) (ring : Word) (log2n cluster : Nat) : Prop where
  length : hs.length = 8
  write : (hs.getD 0 0).toNat = wr
  read : (hs.getD 1 0).toNat = rd
  start : hs.getD 2 0 = ring
  aligned : ring.toNat % 64 = 0
  fields : (hs.getD 3 0).toNat = log2n + 16 * (64 * cluster)
  size : 1 ≤ log2n ∧ log2n ≤ 12
  engine : (s.dev.partAt x.part).hasCore (cluster * 4) = true
  range : cluster < 4096
  zero : hs.getD 4 0 = 0 ∧ hs.getD 5 0 = 0 ∧ hs.getD 6 0 = 0 ∧ hs.getD 7 0 = 0

end Sys2Proof.Claims

/-- R234: SACQ takes from a semaphore whose count suffices and otherwise waits in its line; SADD adds, saturating at 2^32 − 1, here
or at another core of the partition; SSET sets and SRD reads; a number above 63 raises PROT. -/
def Sys2Proof.Claims.Semaphores : Prop :=
  (∀ (sa : Bool) (a b d : BitVec 7) (s : State) (x : Context) (c : BitVec 32), x.canTakeG sa a →
    let v := (x.getG a.toNat).val
    let n := v.toNat
    let w : BitVec 32 := (x.getG b.toNat).val.setWidth 32
    let x1 := x.tookG sa a
    let said (u : Word) : Context := (x1.writeG d.toNat u).past 4
    s.dev.me.sems[n]? = some c → n < 64 →
    (CanIssue s x [.g a.toNat, .g b.toNat] [.g d.toNat, .g a.toNat, .g b.toNat] → Settled s x →
      (w.toNat ≤ c.toNat → (∀ q ∈ s.dev.me.semWaiters, q.sem ≠ n) →
        exec (.sacq sa b a d) s = .next (withMe s (fun k => { k with sems := k.sems.set n (c - w) }) (said ((c - w).setWidth 64)))) ∧
      (c.toNat < w.toNat → InTime s x →
        exec (.sacq sa b a d) s = .next (withMe s (fun k => { k with semWaiters := k.semWaiters ++ [⟨n, w, s.dev.slot⟩] })
          (parksFor s x1 .queued d.toNat (tookOf sa a)))) ∧
      (s.dev.me.semWaiters = [] →
        let sum := min (c.toNat + w.toNat) (2^32 - 1)
        exec (.sadd sa b a d) s = .next (withMe s (fun k => { k with sems := k.sems.set n (BitVec.ofNat 32 sum) })
          (said (BitVec.ofNat 64 sum))))) ∧
    (CanIssue s x [.g a.toNat, .g b.toNat] [.g a.toNat, .g b.toNat] → Settled s x → s.dev.me.semWaiters = [] →
      exec (.sset sa b a) s = .next (withMe s (fun k => { k with sems := k.sems.set n w }) (x1.past 4))) ∧
    (CanIssue s x [.g a.toNat] [.g d.toNat, .g a.toNat] → exec (.srd sa a d) s = .next (s.withCur (said (c.setWidth 64))))) ∧
  (∀ (sa : Bool) (a b d : BitVec 7) (s : State) (x : Context), x.canTakeG sa a → Settled s x →
    CanIssue s x [.g a.toNat, .g b.toNat] [.g d.toNat, .g a.toNat, .g b.toNat] →
    let v := (x.getG a.toNat).val
    (64 ≤ v.toNat → v.getLsbD 24 = false → x.pending = [] → HasHandler x → ∀ i : Instr,
      i = .sacq sa b a d ∨ i = .sadd sa b a d ∨ i = .sset sa b a ∨ i = .srd sa a d → TrapsTo (exec i s) s x 0x07 v) ∧
    (v.getLsbD 24 = true → v.toNat < 2^25 → v.toNat / 2^6 % 16 = 0 → (s.dev.partAt x.part).hasCore (v.toNat / 2^10 % 2^14) = true →
      exec (.sadd sa b a d) s = .next { s with dev := { (s.withCur (((x.tookG sa a).writeG d.toNat 0).past 4)).dev with
        signals := s.dev.signals ++ [⟨v.toNat / 2^10 % 2^14, v.toNat % 64, (x.getG b.toNat).val.setWidth 32⟩] } })) ∧
  (∀ (s : State) (n : Nat) (q : Signal) (c : BitVec 32), s.dev.signals[n]? = some q → (s.dev.coreAt q.core).semImage = none →
    (s.dev.coreAt q.core).sems[q.sem]? = some c → (s.dev.coreAt q.core).halted = false →
    let sum := min (c.toNat + q.add.toNat) (2^32 - 1)
    ((s.dev.coreAt q.core).semWaiters = [] →
      ∃ t, exec (.semaphoreSignal n) s = .next t ∧ t.mem = s.mem ∧ t.dev.signals = s.dev.signals.eraseIdx n ∧
        (t.dev.coreAt q.core).sems = (s.dev.coreAt q.core).sems.set q.sem (BitVec.ofNat 32 sum)) ∧
    (∀ (y : SemWaiter) (x : Context) (w : Wait), (s.dev.coreAt q.core).semWaiters = [y] → y.sem = q.sem → y.need.toNat ≤ sum →
      s.dev.ctxAt q.core y.slot = some x → x.phase = .parked w → expired w.expiry s.dev.wall = none →
      Unbound s q.core y.slot w.dest →
      ∃ t, exec (.semaphoreSignal n) s = .next t ∧ t.mem = s.mem ∧
        t.dev.ctxAt q.core y.slot = some (woken x w.dest (BitVec.ofNat 64 (sum - y.need.toNat))) ∧
        (t.dev.coreAt q.core).sems =
          (s.dev.coreAt q.core).sems.set q.sem (BitVec.ofNat 32 (sum - y.need.toNat)) ∧
        (t.dev.coreAt q.core).semWaiters = []))

/-- R235, R249: CBGET takes the oldest filled entry and gives its address, or waits; CBFREE frees the oldest taken one; CBPUT claims
the next entry of a core's buffer and hands the copy into it to the issuing cluster's engine. A buffer that is not defined raises
PROT. The core of a CBPUT's window addresses is the model's reading (log entry 45). -/
def Sys2Proof.Claims.CircularBuffers : Prop :=
  (∀ (sa : Bool) (a d : BitVec 7) (s : State) (x : Context) (c : CircBuf), x.canTakeG sa a → Settled s x →
    let j := (x.getG a.toNat).val.toNat % 8
    let x1 := x.tookG sa a
    s.dev.me.bufs[j]? = some (some c) →
    (CanIssue s x [.g a.toNat] [.g d.toNat, .g a.toNat] →
      (c.taken < c.filled → (∀ q ∈ s.dev.me.bufWaiters, q.1 ≠ j) →
        exec (.cbget sa a d) s = .next (withMe s (fun k => { k with bufs := k.bufs.set j (some { c with taken := c.taken + 1 }) })
          ((x1.writeG d.toNat (c.base + BitVec.ofNat 64 (c.bytes * (c.taken % c.entries)))).past 4))) ∧
      (c.filled ≤ c.taken → InTime s x →
        exec (.cbget sa a d) s = .next (withMe s (fun k => { k with bufWaiters := k.bufWaiters ++ [(j, s.dev.slot)] })
          (parksFor s x1 .queued d.toNat (tookOf sa a))))) ∧
    (CanIssue s x [.g a.toNat] [.g a.toNat] →
      exec (.cbfree sa a) s = .next (withMe s
        (fun k => { k with bufs := k.bufs.set j (some (if c.freed < c.taken then { c with freed := c.freed + 1 } else c)) })
        (x1.past 4)))) ∧
  (∀ (sa : Bool) (a b d : BitVec 7) (s : State) (x : Context) (c : CircBuf), x.canTakeG sa a → Settled s x →
    CanIssue s x [.g a.toNat, .g b.toNat] [.g d.toNat, .g a.toNat, .g b.toNat] →
    let v := (x.getG a.toNat).val.toNat
    let core := v / 2^8 % 2^14
    let j := v % 8
    v < 2^22 → (s.dev.partAt x.part).hasCore core = true → (s.dev.coreAt core).saved = false → (s.dev.coreAt core).bufs[j]? = some (some c) →
    c.claimed - c.freed < c.entries →
    ∃ t pk, exec (.cbput sa b a d) s = .next t ∧ t.mem = s.mem ∧
      t.dev.cur = some (((x.tookG sa a).writeG d.toNat (BitVec.ofNat 64 c.claimed)).past 4) ∧
      (t.dev.coreAt core).bufs[j]? = some (some { c with claimed := c.claimed + 1 }) ∧
      t.dev.packets = s.dev.packets ++ [pk] ∧ pk.cbput = true ∧ pk.claim = some c.claimed ∧ pk.origin = core ∧
      pk.words.getD 1 0 = (x.getG b.toNat).val ∧ pk.words.getD 3 0 = BitVec.ofNat 64 c.bytes) ∧
  (∀ (sa : Bool) (a b d : BitVec 7) (s : State) (x : Context), x.canTakeG sa a → Settled s x →
    CanIssue s x [.g a.toNat, .g b.toNat] [.g d.toNat, .g a.toNat, .g b.toNat] → x.pending = [] → HasHandler x →
    let j := (x.getG a.toNat).val.toNat % 8
    s.dev.me.bufs[j]? = some none →
    TrapsTo (exec (.cbget sa a d) s) s x 0x07 (BitVec.ofNat 64 j) ∧ TrapsTo (exec (.cbfree sa a) s) s x 0x07 (BitVec.ofNat 64 j))

/-- R230 to R233, R246, R303: CPOST writes its packet into the next slot of a queue that is not full, moves the write index and
notifies the engine, in whose ring a queue with nothing left to start goes to the end; the engine starts packets in order, and
writes a chunk's bytes to their place, making their words full; the end of a CBPUT's copy fills its entry. That CPOST answers in its
turn, and the instants of chunks, are the model's reading (log entries 44 and 49). -/
def Obligations.Copies : Prop :=
  (∀ (sa : Bool) (a b d : BitVec 7) (s : State) (x : Context) (ws hs : List Word) (wr rd : Nat) (ring : Word) (log2n cluster : Nat)
      (p q : Place) (d1 d2 d3 d4 : Device),
    CanIssue s x [.g a.toNat, .g b.toNat] [.g d.toNat, .g a.toNat, .g b.toNat] → x.canTakeG sa a → Settled s x →
    let ha := (x.getG a.toNat).val
    let ba := (x.getG b.toNat).val
    let x1 := x.tookG sa a
    ha.toNat % 64 = 0 → ba.toNat % 64 = 0 → ws.length = 8 → (ws.getD 0 0).toNat % 256 ≠ 0x10 →
    Dwords s.mem x1 (tookDevice s x1) ba ws d1 → Placed s.mem d1 x1 ha 64 needRW p d2 → queuePlace p = true →
    Dwords s.mem x1 d2 ha hs d3 → d3.partAt x.part = s.dev.partAt x.part → QueueHeader s x hs wr rd ring log2n cluster →
    (2^log2n ≤ (wr + 2^64 - rd) % 2^64 →
      exec (.cpost sa b a d) s = .next (overDevice s d3 id ((x1.writeG d.toNat (BitVec.ofNat 64 (2^64 - 1))).past 4))) ∧
    ((wr + 2^64 - rd) % 2^64 < 2^log2n →
      let slot := ring + BitVec.ofNat 64 (64 * (wr % 2^log2n))
      Placed s.mem d3 x1 slot 64 needW q d4 → queuePlace q = true → d4.waiters = [] → s.mem.wf = true →
      d4.lostLine q.line = false → (q.kind = .chip → d4.lostDies.contains q.port.die = false) →
      (∀ e : Place, e = p ∨ e = q → e.kind = .device → (d4.lineAt e.line).home = 16384) →
      (∀ k, p.key ≤ k → k < p.key + 8 → ¬(q.key ≤ k ∧ k < q.key + 64)) → (∀ i, s.mem.isPoisoned (q.key + i) = false) →
      s.mem.isPoisoned p.key = false → p.key % 8 = 0 → q.key % 8 = 0 → (cluster = 0 → d4.queueOwner x.part p.key = none) →
      ∃ t, exec (.cpost sa b a d) s = .next t ∧ t.dev.cur = some ((x1.writeG d.toNat (BitVec.ofNat 64 wr)).past 4) ∧
        t.mem.word p.key = BitVec.ofNat 64 (wr + 1) ∧ (∀ i, i < 8 → t.mem.word (q.key + 8 * i) = ws.getD i 0) ∧
        (∀ k, ¬(p.key ≤ k ∧ k < p.key + 8) → ¬(q.key ≤ k ∧ k < q.key + 64) → t.mem.byte k = s.mem.byte k) ∧
        t.dev.notices = d4.notices ++ [{ cluster := cluster, vf := x.vf, header := ha, ring := ring, log2n := log2n, index := wr
                                         privileged := x.priv, words := ws, poster := some x.poster, home := s.dev.core }])) ∧
  (∀ (s : State) (n : Nat) (q : Notice) (c : CopyQueue) (pre post : List CopyQueue), s.dev.notices[n]? = some q →
    s.dev.engineAt q.cluster = pre ++ c :: post → c.vf = q.vf → c.header = q.header →
    c.home = homeCore q.home q.header → (∀ e ∈ pre, ¬(e.vf = q.vf ∧ e.header = q.header ∧ e.home = homeCore q.home q.header)) →
    ∃ t c', exec (.copyNotification n) s = .next t ∧ t.mem = s.mem ∧ t.dev.notices = s.dev.notices.eraseIdx n ∧
      t.dev.engineAt q.cluster = (if c.waiting = [] then pre ++ post ++ [c'] else pre ++ c' :: post) ∧ c'.notified = c.notified + 1 ∧ q ∈ c'.waiting ∧
      ∀ e ∈ c.waiting, e ∈ c'.waiting) ∧
  (∀ (s : State) (cluster n : Nat) (c : CopyQueue) (q : Notice) (rest : List Notice),
    (s.dev.packets.filter fun p => p.cluster == cluster && p.started).length < 16 →
    ((s.dev.engineAt cluster).findIdx? fun c => startable s.dev cluster c) = some n → (s.dev.engineAt cluster)[n]? = some c →
    c.waiting = q :: rest → (q.words.getD 0 0).getLsbD 9 = false →
    ∃ t pk, exec (.packetStart cluster n) s = .next t ∧ t.mem = s.mem ∧ t.dev.packets = s.dev.packets ++ [pk] ∧
      pk.cluster = cluster ∧ pk.vf = c.vf ∧ pk.index = q.index ∧ pk.words = q.words ∧ pk.chunks = 0 ∧
      t.dev.engineAt cluster = (s.dev.engineAt cluster).eraseIdx n ++ [{ c with waiting := rest, started := c.started + 1 }]) ∧
  (∀ (s : State) (n : Nat) (pk : Packet) (c : CircBuf) (e : Nat) (bs : List Byte) (pl : Place) (q : Plan),
    s.dev.packets[n]? = some pk → pk.cbput = true → pk.waiting = none → pk.migrating = false → pk.chunks = 0 →
    pk.started = true → pk.status = none → pk.rest = [] →
    pk.claim = some e → planOf s.dev pk = .ok q → q.rows = 1 → q.rowBytes = bs.length → 0 < bs.length →
    (∃ base, q.src = .mem base) → bs.length ≤ 128 - q.dst.toNat % 128 → (pk.words.getD 0 0).toNat % 256 = 1 →
    chunkBytes (packetAgent s.dev pk) s.mem s.dev pk q 0 bs.length = (.bytes bs, s.dev) →
    (packetAgent s.dev pk).targets s.mem (cuts (bs.length + 1) q.dst bs.length) s.dev [] = (.ok [(pl, bs.length)], s.dev) →
    pl.kind = .chip → (∀ i, s.mem.isPoisoned (pl.key + i) = false) → s.mem.wf = true → s.dev.waiters = [] →
    (pk.words.getD 0 0).getLsbD 9 = true → (pk.words.getD 0 0).getLsbD 10 = false →
    let core := (pk.words.getD 0 0).toNat / 2^20 % 2^14
    let j := (pk.words.getD 0 0).toNat / 2^34 % 8
    (s.dev.partAt (agentOf s.dev (pk.cluster * 4) pk.vf (pk.cluster * 4)).part).hasCore core = true → s.dev.lostDies = [] →
    (s.dev.coreAt core).bufs[j]? = some (some c) → c.filled = e → c.ready = [] → (s.dev.coreAt core).bufWaiters = [] →
    ∃ t, exec (.packetComplete n) s = .next t ∧
      (∀ k, t.mem.byte k = if pl.key ≤ k ∧ k < pl.key + bs.length then bs.getD (k - pl.key) 0 else s.mem.byte k) ∧
      (∀ k, t.mem.isFull k = if pl.key / 8 ≤ k / 8 ∧ k / 8 ≤ (pl.key + bs.length - 1) / 8 then true else s.mem.isFull k) ∧
      (t.dev.coreAt core).bufs[j]? = some (some { c with filled := e + 1 }) ∧
      pk ∉ t.dev.packets)

/-- R140, R144: TDREG registers or deregisters a tensor with its refusal code; TLBINV drops the named translations of a VF of the
issuer's partition and no other; TLBSYNC completes once the accesses before it have performed. The order of TDREG's codes is the
model's reading (log entry 37). -/
def Obligations.Translations : Prop :=
  (∀ (sa : Bool) (a d : BitVec 7) (s : State) (x : Context) (ws : List Word) (d' : Device) (p : Partition),
    CanIssue s x [.g a.toNat] [.g d.toNat, .g a.toNat] → x.canTakeG sa a → Settled s x →
    let x1 := x.tookG sa a
    (x.getG a.toNat).val.toNat % 8 = 0 → ws.length = 4 → Dwords s.mem x1 (tookDevice s x1) (x.getG a.toNat).val ws d' →
    assocGet x.part d'.parts = some p →
    let ident := (ws.getD 1 0).toNat % 2^32
    let tag := (ws.getD 1 0).toNat / 2^32
    let rows := (ws.getD 2 0).toNat % 2^32
    let cols := (ws.getD 2 0).toNat / 2^32
    let tn : Tensor := ⟨ident, ws.getD 0 0, BitVec.ofNat 4 tag, rows, cols, x.vf, x.launch⟩
    let named : Prop := ws.getD 3 0 = 0 ∧ 0 < tag ∧ tag ≤ 12 ∧ ident ≠ 0xFFFFFFFF ∧ (ws.getD 0 0).toNat % 65536 = 0
    let whole : Prop := named ∧ 0 < rows ∧ rows ≤ 2^24 ∧ 0 < cols ∧ cols ≤ 2^24
    let free (t : Tensor) : Prop := ∀ f ∈ t.pages.filterMap (fun a => ordinaryFrame s.mem d' x.part t.vf a),
      busyFrame d' f 65536 = false ∧ cachedIn d' f 65536 = false
    let overlaps (u : Tensor) : Prop := u.vf = x.vf ∧ u.base.toNat < tn.base.toNat + tn.footprint ∧ tn.base.toNat < u.base.toNat + u.footprint
    let refused (code : Word) : Prop := exec (.tdreg sa a d) s = .next (overDevice s d' id ((x1.writeG d.toNat code).past 4))
    (¬(named ∧ ws.getD 2 0 = 0) → ¬whole → refused 3) ∧
    (named → ws.getD 2 0 = 0 → (∀ t ∈ p.tensors, t.id ≠ ident) → refused 5) ∧
    (whole → (∃ t ∈ p.tensors, t.id = ident) → refused 1) ∧
    (whole → (∀ t ∈ p.tensors, t.id ≠ ident) → 4096 ≤ p.tensors.length → refused 2) ∧
    (whole → (∀ t ∈ p.tensors, t.id ≠ ident) → p.tensors.length < 4096 → (∀ a ∈ tn.pages, walk s.mem d' x.part x.vf a ≠ .held) →
      ((∃ u ∈ p.tensors, overlaps u) ∨ ∃ a ∈ tn.pages, ordinaryFrame s.mem d' x.part x.vf a = none) → refused 4) ∧
    (whole → (∀ t ∈ p.tensors, t.id ≠ ident ∧ ¬overlaps t) → p.tensors.length < 4096 →
      (∀ a ∈ tn.pages, ordinaryFrame s.mem d' x.part x.vf a ≠ none) → free tn →
      ∃ t, exec (.tdreg sa a d) s = .next t ∧ t.mem = s.mem ∧ t.dev.cur = some ((x1.writeG d.toNat 0).past 4) ∧
        (t.dev.partAt x.part).tensors = p.tensors ++ [tn]) ∧
    (named → ws.getD 2 0 = 0 → (∃ t ∈ p.tensors, t.id = ident) → (∀ t ∈ p.tensors, t.id = ident → free t) →
      ∃ t, exec (.tdreg sa a d) s = .next t ∧ t.mem = s.mem ∧ t.dev.cur = some ((x1.writeG d.toNat 0).past 4) ∧
        (t.dev.partAt x.part).tensors = p.tensors.filter fun t => t.id != ident)) ∧
  (∀ (sa : Bool) (a b : BitVec 7) (s : State) (x : Context), CanIssue s x [.g a.toNat, .g b.toNat] [.g a.toNat, .g b.toNat] →
    x.canTakeG sa a → Settled s x → x.priv = true →
    let v := (x.getG b.toNat).val.toNat
    ∃ t, exec (.tlbinv sa b a) s = .next t ∧ t.mem = s.mem ∧
      t.dev.cur = some { (x.tookG sa a).past 4 with tlbMark := s.dev.nextAccess } ∧
      ((s.dev.vfAt (v % 512)).part = some x.part → ∀ e, e ∈ t.dev.tlb ↔
        e ∈ s.dev.tlb ∧ e.named (v % 512) (x.getG a.toNat).val (v / 512 % 4) = false) ∧
      ((s.dev.vfAt (v % 512)).part ≠ some x.part → t.dev.tlb = s.dev.tlb)) ∧
  (∀ (d : BitVec 7) (s : State) (x : Context), CanIssue s x [] [.g d.toNat] → x.priv = true →
    (∀ a ∈ s.dev.accesses, a.part = x.part → a.id < x.tlbMark → a.complete = true) →
    (∀ k ∈ s.dev.packets, (s.dev.vfAt k.vf).part = some x.part → k.rest = []) →
    exec (.tlbsync d) s = .next (s.withCur ((x.writeG d.toNat 0).past 4)))

/-- R145, R360 to R364: MIGR refuses by number, or sets the MIG bit of the page's entry, takes a frame of the target die's pool and
answers 0; a verified migration then carries every byte and full bit of the page, a line with a poisoned word as a poisoned line, and
remaps it. -/
def Sys2Proof.Claims.Migrations : Prop :=
  (∀ (sa : Bool) (a b d : BitVec 7) (s : State) (x : Context),
    CanIssue s x [.g a.toNat, .g b.toNat] [.g d.toNat, .g a.toNat, .g b.toNat] → x.canTakeG sa a → Settled s x → x.priv = true →
    let page := (x.getG a.toNat).val
    let v := (x.getG b.toNat).val.toNat
    let said (n : Word) : Context := ((x.tookG sa a).writeG d.toNat n).past 4
    (2^10 ≤ v ∨ 7 < v % 16 → exec (.migr sa b a d) s = .next (s.withCur (said 4))) ∧
    (v < 2^10 → v % 16 < 8 → walk s.mem s.dev x.part x.vf page ≠ .held →
      ((∀ level e key, walk s.mem s.dev x.part x.vf page ≠ .leaf level e key) ∨ canonical page = false) →
      exec (.migr sa b a d) s = .next (s.withCur (said 1))) ∧
    (∀ e key target, v < 2^10 → v % 16 < 8 → canonical page = true → walk s.mem s.dev x.part x.vf page = .leaf 4 e key →
      e.getLsbD 4 = false → e.getLsbD 5 = false → e.getLsbD 11 = false →
      (s.dev.partAt x.part).tileView x.vf 4 page = false →
      ((s.dev.partAt x.part).pool.find? fun q => q.1 == v % 16) = some (v % 16, target) → s.dev.waiters = [] → s.mem.wf = true →
      ∃ t, exec (.migr sa b a d) s = .next t ∧ t.dev.cur = some (said 0) ∧ t.mem.word key = e ||| 0x800 ∧
        (∀ k, ¬(key ≤ k ∧ k < key + 8) → t.mem.byte k = s.mem.byte k) ∧
        t.dev.migrations = s.dev.migrations ++
          [{ part := x.part, vf := x.vf, page := BitVec.ofNat 64 (page.toNat / 65536 * 65536), entryKey := key, entry := e ||| 0x800
             source := frameOf e, target := target, sourceDie := dieOfPa (frameOf e), targetDie := v % 16
             sem := some (s.dev.core, v / 16), packet := none, asker := packName s.dev.core s.dev.slot }] ∧
        ∀ u ∈ t.dev.tlb, u.named x.vf (BitVec.ofNat 64 (page.toNat / 65536 * 65536)) 0 = false)) ∧
  (∀ (s : State) (n : Nat) (g : Migration), s.dev.migrations[n]? = some g → s.dev.lostDies = [] → s.dev.lines = [] →
    s.dev.accesses = [] → (∀ k ∈ s.dev.packets, k.rest = []) → (s.dev.vfAt g.vf).memLim = 0 →
    (s.dev.partAt g.part).fqbase = 0 → s.mem.wf = true → s.mem.word g.entryKey = g.entry →
    g.source % 65536 = 0 → g.target % 65536 = 0 → g.source ≠ g.target →
    (g.entryKey + 8 ≤ g.source ∨ g.source + 65536 ≤ g.entryKey) → (g.entryKey + 8 ≤ g.target ∨ g.target + 65536 ≤ g.entryKey) →
    ∃ t, exec (.migration n true) s = .next t ∧ t.dev.migrations = s.dev.migrations.eraseIdx n ∧
      (∀ i, i < 65536 → t.mem.byte (g.target + i) = s.mem.byte (g.source + i) ∧
        t.mem.isFull (g.target + i) = s.mem.isFull (g.source + i) ∧
        (t.mem.isPoisoned (g.target + i) = true ↔ ∃ j, j < 128 ∧ s.mem.isPoisoned (g.source + i / 128 * 128 + j) = true) ∧
        t.mem.byte (g.source + i) = 0) ∧
      t.mem.word g.entryKey = BitVec.ofNat 64 ((g.entry &&& ~~~0x800).toNat - g.source + g.target))

/-- R352, R354 to R357, R395, R397: a fault sweep writes one entry of 256 bytes, or keeps it while the queue is full, and parks its
context, whose answer makes it ready; none is written before run-ahead has stopped, and none with another batch than it has found;
run-ahead's instructions change the shadow registers alone; the read indices move within what was written; a frame of the partition joins its die's pool. What run-ahead takes as
known is the model's reading (log entry 19). -/
def Sys2Proof.Claims.FaultQueues : Prop :=
  (∀ (s : State) (core slot cls : Nat) (addr : Word) (need : BitVec 3) (h : Ahead) (x : Context), s.dev.ctxAt core slot = some x →
    x.phase = .faulted cls addr need h → h.stopped = true → h.pages.length ≤ 16 → (∀ l, s.dev.lostLine l = false) →
    (s.dev.partAt x.part).fqbase ≠ 0 → (∀ f ∈ (s.dev.partAt x.part).faults, f.index.isSome = true) →
    assocGet x.part s.dev.parts = some (s.dev.partAt x.part) → s.dev.waiters = [] → s.mem.wf = true →
    let p := s.dev.partAt x.part
    let n := 2^(p.fqbase.toNat % 16)
    let entry := [BitVec.ofNat 64 (cls * 2^48 + packName core slot % 2^18 * 2^28 + x.vf % 512 * 2^16 + h.pages.length * 2^8 + 1),
      addr, x.regs.pc, 0] ++ h.pages
    let at_ := p.fqbase.toNat % 2^57 / 256 * 256 + 256 * (p.fqwr.toNat % n)
    ∃ t, exec (.faultSweep core slot h.pages) s = .next t ∧ t.dev.ctxAt core slot = some { x with phase := .swept p.fqwr.toNat } ∧
      ((p.fqwr - p.fqrd).toNat < n → (t.dev.partAt x.part).fqwr = p.fqwr + 1 ∧
        (∀ i, i < 32 → t.mem.word (at_ + 8 * i) = entry.getD i 0) ∧
        ∀ k, ¬(at_ ≤ k ∧ k < at_ + 256) → t.mem.byte k = s.mem.byte k) ∧
      (n ≤ (p.fqwr - p.fqrd).toNat → (t.dev.partAt x.part).fqwr = p.fqwr ∧ t.mem = s.mem)) ∧
  (∀ (s : State) (core slot cls : Nat) (addr : Word) (need : BitVec 3) (h : Ahead) (x : Context) (pages : List Word), s.dev.ctxAt core slot = some x →
    x.phase = .faulted cls addr need h → (h.stopped = false ∨ pages ≠ h.pages) → exec (.faultSweep core slot pages) s = .next s) ∧
  (∀ (o : Binary) (d a b : BitVec 7) (s : State) (x : Context) (cls : Nat) (addr : Word) (need : BitVec 3) (h : Ahead),
    s.dev.cur = some x → x.phase = .faulted cls addr need h → h.stopped = false → h.hidden = false →
    (∀ n, s.dev.me.bindingOf s.dev.slot (.g n) = none) →
    (∀ r ∈ [Reg.g d.toNat, Reg.g a.toNat, Reg.g b.toNat], x.inWindow r = true) →
    Reg.g a.toNat ∉ h.unknown → Reg.g b.toNat ∉ h.unknown →
    let y : Context := { x with regs := h.regs, phase := .ready, pending := [] }
    (y.getG a.toNat).poison = false → (y.getG b.toNat).poison = false →
    exec (o.instr false b a d) s = .next (s.withCur { x with phase := .faulted cls addr need { h with
      regs := { (y.writeG d.toNat (o.value (y.getG a.toNat).val (y.getG b.toNat).val)).regs with pc := h.regs.pc + 4 }
      unknown := (h.unknown.filter (· != .g d.toNat)).eraseDups
      awaited := h.awaited.filter fun q => q.2 != .g d.toNat
      issued := h.issued + 1
      stopped := decide (64 ≤ h.issued + 1) || decide (16 ≤ h.pages.length) } })) ∧
  (∀ (s : State) (part : Nat) (p : Partition) (i : BitVec 32) (f : FaultEntry) (core slot : Nat) (x : Context),
    assocGet part s.dev.parts = some p → (p.faults.find? fun f => f.index == some i.toNat) = some f →
    s.dev.ctxAt core slot = some x → x.part = part → (s.dev.coreAt core).part = part → x.phase = .swept i.toNat →
    ∃ t, exec (.fqans part i) s = .next t ∧ t.mem = s.mem ∧ (t.dev.partAt part).fqans = i ∧
      t.dev.ctxAt core slot = some { x with phase := .ready, answered := some (f.words.getD 1 0) }) ∧
  (∀ (s : State) (part : Nat) (p : Partition) (v : BitVec 32), assocGet part s.dev.parts = some p → s.dev.waiters = [] →
    (p.faults = [] → (p.fqwr - v).toNat ≤ 2^(p.fqbase.toNat % 16) → exec (.fqrd part v) s =
      .next { s with dev := { s.dev with parts := assocPut part { p with fqrd := v } s.dev.parts } }) ∧
    ((p.trwr - v).toNat ≤ 2^(p.trbase.toNat % 32) → exec (.trrd part v) s =
      .next { s with dev := { s.dev with parts := assocPut part { p with trrd := v } s.dev.parts } }) ∧
    (p.held = [] → (p.krwr - v).toNat ≤ 2^(p.krbase.toNat % 32) → exec (.krrd part v) s =
      .next { s with dev := { s.dev with parts := assocPut part { p with krrd := v, held := [] } s.dev.parts } }) ∧
    (2^(p.fqbase.toNat % 16) < (p.fqwr - v).toNat → exec (.fqrd part v) s = .next s)) ∧
  (∀ (s : State) (part : Nat) (p : Partition) (frame : Word), assocGet part s.dev.parts = some p →
    let f := frame.toNat % 2^57 / 65536 * 65536
    p.owns f = true → (dieOfPa f, f) ∉ p.pool →
    exec (.migpool part frame) s =
      .next { s with dev := { s.dev with parts := assocPut part { p with pool := p.pool ++ [(dieOfPa f, f)] } s.dev.parts } })

namespace Sys2Proof.Claims
open Sys2Proof.Machine

/-- A core without what coherence alone changes of it: the tags of its L1 and its counts of writes. -/
def besideL1 (k : Core) : Core := { k with l1 := [], sent := [], got := [] }

/-- The same memory, accesses, messages, launches, partitions and grants, and the same cores beside their L1 tags and counts of
writes: nothing outside coherence changed. -/
def OnlyCoherence (s t : State) : Prop :=
  t.mem = s.mem ∧ (∀ c, besideL1 (t.dev.coreAt c) = besideL1 (s.dev.coreAt c)) ∧ t.dev.accesses = s.dev.accesses ∧
    t.dev.messages = s.dev.messages ∧ t.dev.launches = s.dev.launches ∧ t.dev.parts = s.dev.parts ∧ t.dev.grants = s.dev.grants

/-- Every other line stands as it stood. -/
def OtherLines (s t : State) (line : Nat) : Prop := ∀ l, l ≠ line → t.dev.lineAt l = s.dev.lineAt l

end Sys2Proof.Claims

/-! Tokens, links, landings and the mesh. -/

/-- R242, R254 to R257, R266: an L1 miss takes a tag in its core's L1 and asks for a token; the home answers a read with one token it
can spare, and the holders answer a write at the home with all they have, those of the directory's dies first; a request is sent
again 250 ns after its last sending, at most three times; one that failed for 1 µs or four times enters its home's table and
is activated, unless a link on its way sleeps or wakes; once its requester has performed it is deactivated, the next of its line is
activated, and it frees when every die has acknowledged. -/
def Sys2Proof.Claims.TokenRequests : Prop :=
  (∀ (s : State) (n : Nat) (a : Access) (r : Need) (pc : Piece), s.dev.access n = some a → needOf s.dev a = some (r, pc) →
    (∀ q ∈ s.dev.tokenReqs, ¬(q.line = r.line ∧ q.core = r.core)) → (∀ q ∈ s.dev.persist, q.line ≠ r.line) →
    s.dev.missRoom r.line = true → s.dev.lostLine r.line = false →
    let l : LineState := { s.dev.lineAt r.line with tile := pc.tile || (s.dev.lineAt r.line).tile }
    let req : TokenReq := { line := r.line, core := r.core, write := r.write, first := s.dev.wall, sentAt := s.dev.wall }
    (∀ c tag, r.core = some c → r.write = false → r.line < 2^51 → (s.dev.coreAt c).l1 = [] →
      missTag s.dev c a.vf pc.tile (a.issued pc) r.line = some tag → s.dev.linkState (dieOfCore c) (dieOfLine r.line) = .active → s.dev.armedOn r.line < l.home →
      ∃ t, exec (.transientRequest n) s = .next t ∧ OnlyCoherence s t ∧ OtherLines s t r.line ∧
        (t.dev.coreAt c).l1 = [tag] ∧ t.dev.tokenReqs = s.dev.tokenReqs ++ [req] ∧
        t.dev.lineAt r.line = { l with
          home := l.home - 1
          homeOwner := l.homeOwner && decide (l.home ≠ 1)
          homeDirty := l.homeDirty && decide (l.home ≠ 1)
          directory := dieOfCore c :: l.directory.filter (· != dieOfCore c) } ∧
        t.dev.tokenMsgs = s.dev.tokenMsgs ++
          [⟨r.line, 1, decide (l.home = 1) && l.homeOwner, decide (l.home = 1) && l.homeDirty, some c, dieOfLine r.line, none⟩]) ∧
    (r.core = none → r.write = true → (∀ h ∈ l.holders, s.dev.linkState (dieOfCore h.1) (dieOfLine r.line) = .active) →
      ∃ t, exec (.transientRequest n) s = .next t ∧ OnlyCoherence s t ∧ OtherLines s t r.line ∧
        t.dev.tokenReqs = s.dev.tokenReqs ++ [req] ∧ t.dev.lineAt r.line = { l with holders := [] } ∧
        t.dev.tokenMsgs = s.dev.tokenMsgs ++ ((l.holders.filter fun h => l.directory.contains (dieOfCore h.1)) ++
          l.holders.filter fun h => !l.directory.contains (dieOfCore h.1)).map fun h =>
            ⟨r.line, h.2.1, h.2.2.1, h.2.2.2, none, dieOfCore h.1, if h.2.2.2 then some h.1 else none⟩)) ∧
  (∀ (s : State) (n : Nat) (r : TokenReq), s.dev.tokenReqs[n]? = some r →
    (satisfied s.dev r.line r.core r.write = true →
      exec (.transientRetry n) s = .next { s with dev := { s.dev with tokenReqs := s.dev.tokenReqs.eraseIdx n } }) ∧
    (satisfied s.dev r.line r.core r.write = false →
      (r.tries < 3 → r.sentAt + 250 ≤ s.dev.wall → ∃ t, exec (.transientRetry n) s = .next t ∧ OnlyCoherence s t ∧
        t.dev.tokenReqs = s.dev.tokenReqs.set n { r with tries := r.tries + 1, sentAt := s.dev.wall }) ∧
      (3 ≤ r.tries ∨ s.dev.wall < r.sentAt + 250 → exec (.transientRetry n) s = .next s) ∧
      let at_ := requesterDie r.line r.core
      let ways := dieOfLine r.line :: (s.dev.lineAt r.line).holders.map fun h => dieOfCore h.1
      let due := r.first + 1000 ≤ s.dev.wall ∨ 3 ≤ r.tries ∧ r.sentAt + 250 ≤ s.dev.wall
      (¬due ∨ (∃ b ∈ ways, s.dev.linkState at_ b = .asleep ∨ s.dev.linkState at_ b = .waking) →
        exec (.persistentRequest n) s = .next s) ∧
      (due → (∀ b ∈ ways, s.dev.linkState at_ b ≠ .asleep ∧ s.dev.linkState at_ b ≠ .waking) → s.dev.persist = [] →
        ∃ t, exec (.persistentRequest n) s = .next t ∧ OnlyCoherence s t ∧ OtherLines s t r.line ∧
          t.dev.tokenReqs = s.dev.tokenReqs.eraseIdx n ∧
          t.dev.persist = [{ die := dieOfLine r.line, line := r.line, core := r.core, write := r.write, active := true, admitted := true
                             engine := r.engine }]))) ∧
  (∀ (s : State) (r q : PersistReq), s.dev.persist = [r, q] → r.active = true → q.active = false → q.die = r.die → q.line = r.line →
    r.closing = none → q.closing = none → r.engine = false →
    (∀ a ∈ s.dev.accesses, (∀ u pc, needOf s.dev a = some (u, pc) → ¬(u.line = r.line ∧ u.core = r.core)) ∧
      (needOf s.dev a = none → a.fault ≠ none ∨ a.orphan = true ∨ ∀ p ∈ a.pieces, p.line = r.line → p.done = true)) →
    ∃ t, exec (.persistentDeactivation r.die 0) s = .next t ∧ OnlyCoherence s t ∧ OtherLines s t r.line ∧
      t.dev.persist = [{ r with active := false, admitted := true, closing := some (acknowledgers s.dev r.line) },
        { q with active := true, admitted := true }]) ∧
  (∀ (s : State) (r : PersistReq) (dies : List Nat), s.dev.persist = [r] → r.closing = some dies →
    (∀ b ∈ dies, s.dev.linkState b r.die = .active ∨ b ∈ s.dev.lostDies) →
    exec (.persistentDeactivation r.die 0) s = .next { s with dev := { s.dev with persist := [] } })

/-- R242, R254, R255, R257, R259, R378: tokens that arrive add to what the home or an L1 holds, with the owner token, and go home from an L1 that has no place for the line
any more; a dirty line that
comes home enters its slice's cache or one of the 16 entries of its write-back buffer (a free choice, log entry 90), which
drains; an L1 returns a line with all its tokens, counts its dirty data among the writes it has sent and drops it, with a
hint where its die then holds none; a hint takes such a die out of the directory; the proxy writes back what is dirty of a host line that it
held exclusively and returns it. -/
def Sys2Proof.Claims.TokenMessages : Prop :=
  (∀ (s : State) (n : Nat) (m : TokenMsg), s.dev.tokenMsgs[n]? = some m → (∀ r ∈ s.dev.persist, r.line ≠ m.line) →
    let l := s.dev.lineAt m.line
    let arrives (t : State) : Prop := exec (.tokenMessage n) s = .next t ∧ OnlyCoherence s t ∧ OtherLines s t m.line ∧
      t.dev.tokenMsgs = s.dev.tokenMsgs.eraseIdx n
    let come : LineState := { l with
      home := l.home + m.tokens
      homeOwner := l.homeOwner || m.owner
      homeDirty := l.homeDirty || m.dirty }
    (m.to_ = none → s.dev.linkState m.from_ (dieOfLine m.line) = .active →
      (m.dirty = false ∨ s.dev.sliceOf m.line = none → ∃ t, arrives t ∧ t.dev.lineAt m.line = come ∧ t.dev.writeBacks = s.dev.writeBacks) ∧
      (∀ sl, m.dirty = true → s.dev.sliceOf m.line = some sl →
        let buffered := Config.freeBit s.dev.freeCtr = true ∧ (sl, m.line) ∉ s.dev.writeBacks
        let used := (s.dev.writeBacks.filter fun q => q.1 == sl).length
        (¬buffered → ∃ t, arrives t ∧ t.dev.lineAt m.line = come ∧ t.dev.writeBacks = s.dev.writeBacks) ∧
        (buffered → used < 16 → ∃ t, arrives t ∧ t.dev.lineAt m.line = come ∧ t.dev.writeBacks = s.dev.writeBacks ++ [(sl, m.line)]) ∧
        (buffered → 16 ≤ used → exec (.tokenMessage n) s = .next { s with dev := { s.dev with freeCtr := s.dev.freeCtr + 1 } }))) ∧
    (∀ c, m.to_ = some c → s.dev.linkState m.from_ (dieOfCore c) = .active → (∀ q ∈ (s.dev.coreAt c).l1, q.line ≠ m.line) →
      ∃ t, exec (.tokenMessage n) s = .next t ∧ OnlyCoherence s t ∧ OtherLines s t m.line ∧ (t.dev.lineAt m.line).heldBy c = 0) ∧
    (∀ c, m.to_ = some c → s.dev.linkState m.from_ (dieOfCore c) = .active → (∃ q ∈ (s.dev.coreAt c).l1, q.line = m.line) →
      ∃ t, arrives t ∧ (t.dev.lineAt m.line).home = l.home ∧
        (∀ o, o ≠ c → (t.dev.lineAt m.line).heldBy o = l.heldBy o) ∧
        ((∀ h ∈ l.holders, h.1 ≠ c) → (t.dev.lineAt m.line).holders = l.holders ++ [(c, m.tokens, m.owner, m.dirty)]) ∧
        (∀ h, (l.holders.filter fun h => h.1 == c) = [h] → (t.dev.lineAt m.line).heldBy c = h.2.1 + m.tokens))) ∧
  (∀ (s : State) (line core : Nat), let die := dieOfCore core
    ((line, die) ∉ s.dev.hints → exec (.softDirectoryHint line core) s = .next s) ∧
    ((line, die) ∈ s.dev.hints → ∃ t, exec (.softDirectoryHint line core) s = .next t ∧ OnlyCoherence s t ∧ OtherLines s t line ∧
      t.dev.hints = s.dev.hints.erase (line, die) ∧
      ((∃ h ∈ (s.dev.lineAt line).holders, dieOfCore h.1 = die) → t.dev.lineAt line = s.dev.lineAt line) ∧
      ((∀ h ∈ (s.dev.lineAt line).holders, dieOfCore h.1 ≠ die) → t.dev.lineAt line =
        { s.dev.lineAt line with directory := (s.dev.lineAt line).directory.filter (· != die) }))) ∧
  (∀ (s : State) (core line tokens : Nat) (owner dirty : Bool) (pre post : List (Nat × Nat × Bool × Bool)), 0 < tokens →
    (s.dev.lineAt line).holders = pre ++ (core, tokens, owner, dirty) :: post → (∀ h ∈ pre ++ post, h.1 ≠ core) →
    let l := s.dev.lineAt line
    let die := dieOfCore core
    let n := (assocGet (dieOfLine line) (s.dev.coreAt core).sent).getD 0
    ∃ t, exec (.writeBack core line) s = .next t ∧ OnlyCoherence s t ∧ OtherLines s t line ∧
      t.dev.lineAt line = { l with holders := pre ++ post } ∧
      t.dev.tokenMsgs = s.dev.tokenMsgs ++ [⟨line, tokens, owner, dirty, none, die, if dirty then some core else none⟩] ∧
      assocGet (dieOfLine line) (t.dev.coreAt core).sent =
        (if dirty then some (n + 1) else assocGet (dieOfLine line) (s.dev.coreAt core).sent) ∧
      t.dev.hints = s.dev.hints ++ (if die ∈ l.directory ∧ ∀ h ∈ pre ++ post, dieOfCore h.1 ≠ die then [(line, die)] else [])) ∧
  (∀ (s : State) (line : Nat), 2^51 ≤ line → (s.dev.lineAt line).home = Config.tokensPerLine → (s.dev.lineAt line).holders = [] →
    assocGet line s.dev.grants = some 6 → s.dev.hostBusy line = false →
    let dirty := (s.dev.lineAt line).homeDirty
    ∃ t, exec (.writeBack 0x2000 line) s = .next t ∧ t.mem = s.mem ∧ t.dev.grants = assocDrop line s.dev.grants ∧
      t.dev.lineAt line = { s.dev.lineAt line with homeDirty := false } ∧
      t.dev.hmwrs = s.dev.hmwrs ++ (if dirty then [(s.dev.nextAccess, line)] else []) ∧
      t.dev.hostOut = s.dev.hostOut ++
        (if dirty then [.hmwr (BitVec.ofNat 64 (128 * line - Config.hostBase)) (s.mem.bytes (128 * line) 128)] else []) ++ [.tret line]) ∧
  (∀ (s : State) (slice line : Nat) (pre post : List (Nat × Nat)), line < 2^51 → s.dev.writeBacks = pre ++ (slice, line) :: post →
    (∀ q ∈ pre, q.1 ≠ slice) →
    ∃ t, exec (.writeBackBufferDrain slice) s = .next t ∧ OnlyCoherence s t ∧ OtherLines s t line ∧
      t.dev.writeBacks = (s.dev.writeBacks.filter fun q => q.2 != line) ∧
      t.dev.lineAt line = { s.dev.lineAt line with homeDirty := false })

/-- R45, R266, R304, R340: a link between two dies goes active, asleep where nothing is on its way over it, waking and active again, alone; a heartbeat is noted; in an
owned slot a port sends its oldest flit, ties by the lower core and slot, unless flits of another kind stand before it, which reaches its destination when due, or starts the wake
of a link that sleeps; a meter window takes off what the limit let pass. Instants between dies are the agenda's (log entries 55 and
89). -/
def Sys2Proof.Claims.LinksAndFlits : Prop :=
  (∀ (s : State) (a b : Nat), a ≠ b → (∀ r ∈ s.dev.persist, r.active = false) →
    let goes (i : Instr) (from_ to_ : LinkState) : Prop :=
      (s.dev.linkState a b = from_ → ∃ t, exec i s = .next t ∧ t.mem = s.mem ∧ t.dev.linkState a b = to_ ∧ t.dev.linkState b a = to_ ∧
        (∀ c e, ¬((c = a ∧ e = b) ∨ (c = b ∧ e = a)) → t.dev.linkState c e = s.dev.linkState c e) ∧
        t.dev.cores = s.dev.cores ∧ t.dev.tokenMsgs = s.dev.tokenMsgs) ∧
      (s.dev.linkState a b ≠ from_ → exec i s = .next s)
    (linkBusy s.dev a b = true → exec (.linkSleep a b) s = .next s) ∧ (linkBusy s.dev a b = false → goes (.linkSleep a b) .active .asleep) ∧
    goes (.linkWake a b) .asleep .waking ∧ goes (.linkWakeComplete a b) .waking .active) ∧
  (∀ (s : State) (die far : Nat),
    (far < 16 → die ∉ s.dev.lostDies →
      exec (.heartbeat die far) s = .next { s with dev := { s.dev with heard := assocPut die s.dev.wall s.dev.heard } }) ∧
    (16 ≤ far → ∃ t, exec (.heartbeat die far) s = .next t ∧ t.mem = s.mem ∧
      t.dev.peerAt (far - 16) = { s.dev.peerAt (far - 16) with heard := s.dev.wall } ∧
      ∀ l, l ≠ far - 16 → t.dev.peerAt l = s.dev.peerAt l)) ∧
  (∀ (s : State) (cluster : Nat), let owned (m : Message) : Bool :=
      ((assocGet (cluster / 256) (s.dev.partAt m.part).tdm).getD 0).getLsbD (s.dev.wall % 64)
    ((∀ m ∈ s.dev.messages, clusterOf m.from_ = cluster → owned m = false) ∨
        (∃ m ∈ s.dev.messages, clusterOf m.from_ = cluster ∧ m.injected = some s.dev.wall) →
      exec (.flitInjection cluster) s = .next s) ∧
    (∀ (i : Nat) (m : Message) (at_ : Nat), s.dev.messages[i]? = some m → clusterOf m.from_ = cluster → m.injected = none →
      m.atPort = some at_ → owned m = true → (∀ q ∈ s.dev.messages, clusterOf q.from_ = cluster → q.part ≠ m.part → owned q = false) →
      (∀ j q at', j ≠ i → s.dev.messages[j]? = some q → clusterOf q.from_ = cluster → q.part = m.part → q.injected = none → q.atPort = some at' →
        at_ < at' ∨ at_ = at' ∧ (m.from_ < q.from_ ∨ m.from_ = q.from_ ∧ m.slot < q.slot)) →
      (∀ q ∈ s.dev.messages, clusterOf q.from_ = cluster → q.injected ≠ some s.dev.wall) →
      (m.ahead = 0 → exec (.flitInjection cluster) s = .next { s with dev := { s.dev with
        messages := s.dev.messages.set i { m with
          injected := some s.dev.wall
          due := some (if dieOfCore m.from_ = dieOfCore m.to_ then s.dev.wall + 2 * hops m.from_ m.to_ + 2 else s.dev.wall) } } }) ∧
      (m.ahead ≠ 0 → exec (.flitInjection cluster) s = .next s))) ∧
  (∀ (s : State) (n : Nat) (m : Message) (due : Nat), s.dev.messages[n]? = some m → m.due = some due →
    let link := s.dev.linkState (dieOfCore m.from_) (dieOfCore m.to_)
    (link = .active → due ≤ s.dev.wall →
      exec (.flitDelivery n) s = .next { s with dev := { s.dev with messages := s.dev.messages.set n { m with delivered := true } } }) ∧
    (link = .active → s.dev.wall < due → exec (.flitDelivery n) s = .next s) ∧
    (link = .asleep → ∃ t, exec (.flitDelivery n) s = .next t ∧ t.dev.messages = s.dev.messages ∧
      t.dev.linkState (dieOfCore m.from_) (dieOfCore m.to_) = .waking) ∧
    (link = .waking → exec (.flitDelivery n) s = .next s) ∧
    (link = .lost → exec (.flitDelivery n) s = .next { s with dev := { s.dev with messages := s.dev.messages.eraseIdx n } })) ∧
  (∀ (s : State) (vf : Nat), (s.dev.vfAt vf).window ≠ 0 →
    let v := s.dev.vfAt vf
    let no := s.dev.wall / (1000 * v.window)
    (no ≤ v.windowNo → exec (.meterWindow vf) s = .next s) ∧
    (v.windowNo < no → ∃ t, exec (.meterWindow vf) s = .next t ∧ t.mem = s.mem ∧ t.dev.cores = s.dev.cores ∧
      (t.dev.vfAt vf).windowNo = no ∧ (∀ w, w ≠ vf → t.dev.vfAt w = s.dev.vfAt w) ∧
      ∀ q, q ∈ (t.dev.vfAt vf).used ↔
        0 < q.2 ∧ ∃ p ∈ v.used, p.1 = q.1 ∧ q.2 = p.2 - (no - v.windowNo) * 64 * (if p.1 < 100000 then v.memLim else v.fabLim)))

/-- R262 to R264, R266: a landing request that reaches its die over an active link reserves the slot and windows of the nearest core of its launch that has room,
and the landing then carries the context there, ready, with SHIPCNT one higher, and empties its old slot. -/
def Sys2Proof.Claims.Landings : Prop :=
  (∀ (s : State) (n : Nat) (q : Landing) (x : Context) (l : Launch), s.dev.landings[n]? = some q → q.arrived = false → q.reserved = none →
    (∀ p ∈ s.dev.landings, p.die = q.die → p.arrived = true → p.reserved ≠ none) → s.dev.ctxAt q.core q.slot = some x →
    (∀ w, x.wait? = some w → expired w.expiry s.dev.wall = none) → s.dev.launchAt x.part x.launch = some l →
    s.dev.linkState (dieOfCore q.core) q.die = .active →
    let d1 : Device := { s.dev with landings := s.dev.landings.eraseIdx n ++ [{ q with arrived := true }] }
    exec (.landingRequest n) s = .next { s with dev := { s.dev with
      landings := s.dev.landings.eraseIdx n ++
        [{ q with arrived := true, reserved := (landingCores d1 l q.die q.line).findSome? fun c => landingSpot d1 c x }] } }) ∧
  (∀ (s : State) (n : Nat) (q : Landing) (x : Context) (core slot gb vb : Nat), s.dev.landings[n]? = some q →
    q.reserved = some (core, slot, gb, vb) → s.dev.ctxAt q.core q.slot = some x → (s.dev.coreAt q.core).halted = false →
    (s.dev.coreAt core).halted = false → (core, slot) ≠ (q.core, q.slot) → slot < (s.dev.coreAt core).slots.length →
    s.dev.linkState (dieOfCore q.core) q.die = .active → (∀ g ∈ (s.dev.coreAt q.core).gens, g.keeps q.slot = false) →
    ∃ t, exec (.landing n) s = .next t ∧ t.mem = s.mem ∧ t.dev.landings = s.dev.landings.eraseIdx n ∧
      t.dev.ctxAt q.core q.slot = none ∧
      t.dev.ctxAt core slot = some { x with
        gBase := gb
        vBase := vb
        phase := .ready
        stallSince := none
        stalled := false
        taken := []
        held := none
        regs := { x.regs with sys := { x.regs.sys with shipcnt := BitVec.ofNat 32 (min (x.regs.sys.shipcnt.toNat + 1) (2^32 - 1)) } } } ∧
      ∀ c i, (c, i) ≠ (core, slot) → (c, i) ≠ (q.core, q.slot) → t.dev.ctxAt c i = s.dev.ctxAt c i)

namespace Sys2Proof.Claims
open Sys2Proof.Machine

/-- A command with its STATUS in w7's low byte (R332). -/
def answered (c : Control) (status : Nat) : Control :=
  { c with packet := c.packet.take 7 ++ [BitVec.ofNat 64 ((c.packet.getD 7 0).toNat / 256 * 256 + status % 256)], kept := none }

/-- A command whose OP no rule names: it is malformed, and completes with STATUS 3 when it comes to the head. -/
def unnamed (c : Control) : Bool := decide ((c.packet.getD 0 0).toNat % 256 = 0 ∨ 9 < (c.packet.getD 0 0).toNat % 256)

/-- The command at the head of the control queue completed with a STATUS, and the malformed ones behind it with 3 (R332). -/
def Completed (s t : State) (ws : List Word) (status : Nat) : Prop :=
  ∃ c rest, s.dev.control = c :: rest ∧ c.packet = ws ∧ t.dev.control = rest.dropWhile unnamed ∧
    t.dev.controlDone = s.dev.controlDone ++ answered c status :: (rest.takeWhile unnamed).map (answered · 3) ∧
    t.dev.controlRd = s.dev.controlRd + 1 + (rest.takeWhile unnamed).length

/-- Nothing of the machine waits at a memory port. -/
def NoWaiters (s : State) : Prop := s.dev.waiters = []

/-- A state with one partition replaced and a command completed. -/
def Command1 (i : Instr) (s : State) (ws : List Word) (status : Nat) (parts : List (Nat × Partition)) : Prop :=
  ∃ t, exec i s = .next t ∧ Completed s t ws status ∧ t.dev.parts = parts ∧ t.mem = s.mem

/-- The launch that the dispatcher makes of a queue's head (R103, R342). -/
def launchOf (s : State) (part : Nat) (q : QueuedLaunch) (f : Gof) (blocks : List Nat) : Launch :=
  { id := (s.dev.partAt part).launches + 1
    part := part
    vf := q.vf
    queue := q.queue
    index := q.index
    prio := (q.words.getD 0 0).toNat / 2^32 % 8
    at_ := q.at_
    slotAddr := q.slotAddr
    trace := (q.words.getD 0 0).getLsbD 8
    cores := sortBy (fun a b => decide (a ≤ b)) (blocks.map blockCores).flatten
    interval := f.launch.interval
    started := s.dev.wall }

end Sys2Proof.Claims

/-! Launches and partition control. -/

/-- R103, R343: the dispatcher takes the head of a partition's one queue whose blocks are free and whose file no check refuses: it loads
the image, spawns a ready context zero on every core with the file's windows at the entry, and the head leaves the queue. A pre-empted
launch with nothing set aside goes on. -/
def Obligations.LaunchesStart : Prop :=
  (∀ (s : State) (part : Nat) (q : QueuedLaunch) (f : Gof) (d1 d2 : Device) (w : Work), (s.dev.partAt part).holding = false →
    (s.dev.partAt part).queued = [q] → (∀ l ∈ s.dev.launches, l.part ≠ part) → s.dev.saved = [] → NoWaiters s →
    let blocks := maskBlocks (s.dev.partAt part) (maskOf q.words)
    let l := launchOf s part q f blocks
    (∀ k ∈ s.dev.launches, ∀ c ∈ k.cores, c ∉ l.cores) → packetMalformed q = false →
    readGof (dispatchAgent s.dev part q.vf) s.mem (q.words.getD 1 0) (q.words.getD 4 0).toNat s.dev = .ok f d1 →
    headCause s.mem s.dev part q f = none → (Work.start s).load (dispatchAgent s.dev part q.vf) l f = .ok w d2 →
    w.d.waiters = [] →
    exec (.launchStart part) s = .next ⟨s.mem.apply w.es,
      w.d.onPart part fun p => { p with launches := l.id, queued := p.queued.erase q }⟩ ∧
    (∃ k ∈ w.d.launches, k = { l with groups := f.groups }) ∧
    ∀ core ∈ l.cores,
      ∃ x, w.d.ctxAt core 0 = some x ∧ x.phase = .ready ∧ x.regs.pc = f.launch.entry &&& ~~~1 ∧ x.gBase = 0 ∧ x.gCount = f.launch.gCount ∧
        x.vBase = 0 ∧ x.vCount = f.launch.vCount ∧ x.priv = f.launch.priv ∧ x.vf = q.vf ∧ x.part = part ∧ x.launch = l.id ∧
        x.tid = BitVec.ofNat 32 (16 * l.coreNumber core)) ∧
  (∀ (s : State) (part : Nat) (l : Launch), (s.dev.partAt part).holding = false → (s.dev.partAt part).queued = [] →
    s.dev.launches = [l] → l.part = part → l.preempted = true → l.ended = none → s.dev.saved = [] → NoWaiters s →
    exec (.launchStart part) s = .next { s with dev := { s.dev with launches := [{ l with preempted := false }] } })

/-- R346, R347: a launch goes on while a context zero runs and none has trapped; once every one has stopped it has END 0, once one has
stopped by a trap END 1 with its core and cause, and its contexts that can be reaped leave their slots; KILL ends a launch with END 2;
a deferred reap empties its slot once nothing of the slot is in flight. -/
def Obligations.LaunchesEnd : Prop :=
  (∀ (s : State) (part id : Nat) (l : Launch), s.dev.launchAt part id = some l → l.ended = none →
    (∀ c ∈ l.cores, ∀ x, contextZero s.dev l c = some x → ∀ code cause, x.phase ≠ .stopped 3 code cause) →
    (∃ c ∈ l.cores, ∃ x, contextZero s.dev l c = some x ∧ x.isStopped = false) →
    exec (.launchEnd part id) s = .next s) ∧
  (∀ (s : State) (part id core : Nat) (l : Launch) (x : Context) (how : BitVec 8) (code : BitVec 16) (cause : BitVec 8) (a : Access),
    s.dev.launchAt part id = some l → l.id = id → l.part = part → l.ended = none → l.cores = [core] → s.dev.ctxAt core 0 = some x →
    x.launch = id → x.part = part → x.phase = .stopped how code cause →
    (∀ c i y, (c, i) ≠ (core, 0) → s.dev.ctxAt c i = some y → ¬(y.launch = id ∧ y.part = part)) → s.dev.saved = [] →
    reapable s.dev core 0 = true → (∀ q ∈ s.dev.deferred, q.1 ≠ id) → NoWaiters s →
    a ∈ s.dev.accesses → a.launch = id → a.part = part → a.complete = false → a.fault = none →
    ∃ t, exec (.launchEnd part id) s = .next t ∧ t.mem = s.mem ∧ t.dev.ctxAt core 0 = none ∧
      t.dev.launches = s.dev.launches.map fun k => if k.part = part ∧ k.id = id then
        { k with ended := some (if how = 3 then (1, l.coreNumber core, cause.toNat) else (0, 0, 0)), preempted := false } else k) ∧
  (∀ (s : State) (part id : Nat) (l : Launch) (why : Nat × Nat × Nat) (w : Work),
    s.dev.launchAt part id = some l → l.id = id → l.part = part → l.ended = some why →
    (∀ c i y, s.dev.ctxAt c i = some y → ¬(y.launch = id ∧ y.part = part)) → settled s.dev l = true →
    (∀ f ∈ launchFrames s.mem s.dev l, busyFrame s.dev f 65536 = false ∧ cachedIn s.dev f 65536 = false) →
    (Work.start s).closePacket part l.vf l.queue l.index l.slotAddr (launchRecordWord id why.1 why.2.1 why.2.2) = some w →
    w.d.waiters = [] →
    ∃ t, exec (.launchEnd part id) s = .next t ∧ t.mem = s.mem.apply w.es ∧ t.dev.launchAt part id = none) ∧
  (∀ (s : State) (core slot id : Nat) (rest : List (Nat × Nat × Nat)) (l : Launch) (why : Nat × Nat × Nat) (a : Access),
    s.dev.deferred = (id, core, slot) :: rest → reapable s.dev core slot = true → NoWaiters s →
    s.dev.launchAt (s.dev.coreAt core).part id = some l → l.id = id → l.part = (s.dev.coreAt core).part → l.ended = some why →
    a ∈ s.dev.accesses → a.launch = id → a.part = l.part → a.complete = false → a.fault = none →
    ∃ t, exec (.deferredReap core slot) s = .next t ∧ t.mem = s.mem ∧ t.dev.ctxAt core slot = none ∧ t.dev.deferred = rest ∧
      t.dev.launches = s.dev.launches) ∧
  (∀ (s : State) (ws : List Word) (l : Launch), controlHead s.dev 7 = some ws →
    (s.dev.launchAt (partId ws) ((ws.getD 3 0).toNat % 2^32) = none →
      Command1 .kill s ws 4 s.dev.parts) ∧
    (s.dev.launchAt (partId ws) ((ws.getD 3 0).toNat % 2^32) = some l → l.ended ≠ none → Command1 .kill s ws 0 s.dev.parts) ∧
    (s.dev.launchAt (partId ws) ((ws.getD 3 0).toNat % 2^32) = some l → l.ended = none → s.dev.saved = [] →
      ∃ t, exec .kill s = .next t ∧ Completed s t ws 0 ∧ t.mem = s.mem ∧
        (∃ k, t.dev.launchAt l.part l.id = some k ∧ k.ended = some (2, 0, 0) ∧ k.preempted = false ∧ k.cores = l.cores) ∧
        (∀ k ∈ s.dev.launches, ¬(k.part = l.part ∧ k.id = l.id) → k ∈ t.dev.launches) ∧
        ∀ c i x, i < 16 → s.dev.ctxAt c i = some x → x.launch = l.id → x.part = l.part →
          ∃ y, t.dev.ctxAt c i = some y ∧ y.isStopped = true))

/-- R328, R332 to R334, R338, R339: CREATE makes a partition of units that are free, with every register 0, or completes with STATUS
4 where it stands already; VFMAP binds or frees a VF and VFMETER sets its limits, with their STATUS. The order of two STATUS values
that hold at once is the model's reading (log entry 61). -/
def Obligations.PartitionsAndFunctions : Prop :=
  (∀ (s : State) (ws : List Word) (es : List Share) (d : Device), controlHead s.dev 1 = some ws → commandShares s.mem s.dev ws = .ok es d →
    ((assocGet (partId ws) s.dev.parts).isSome = true → Command1 .create s ws 4 s.dev.parts) ∧
    (assocGet (partId ws) s.dev.parts = none →
      (∀ c, reshape {} es (addShare d (partId ws)) = .error c → c < 256 → Command1 .create s ws c s.dev.parts) ∧
      (∀ p, reshape {} es (addShare d (partId ws)) = .ok p →
        Command1 .create s ws 0 (assocPut (partId ws) p s.dev.parts) ∧ p.fair = true ∧
        (∀ b, b ∈ p.blocks ↔ ∃ e ∈ es, b ∈ e.blocks) ∧ p.channels = (es.map Share.groups).flatten ∧
        p.links = (es.map Share.links).flatten ∧ p.fqbase = 0 ∧ p.fqwr = 0 ∧ p.fqrd = 0 ∧ p.fqans = 0 ∧ p.elbase = 0 ∧ p.elwr = 0 ∧
        p.elrd = 0 ∧ p.trbase = 0 ∧ p.trwr = 0 ∧ p.trrd = 0 ∧ p.trplay = 0 ∧ p.krbase = 0 ∧ p.krwr = 0 ∧ p.krrd = 0 ∧ p.grbase = 0 ∧
        p.xvfsel = 0))) ∧
  (∀ (s : State) (ws : List Word), controlHead s.dev 5 = some ws →
    let part := partId ws
    let vf := (ws.getD 3 0).toNat % 2^9
    let leave := (ws.getD 3 0).getLsbD 9
    (assocGet part s.dev.parts = none → Command1 .vfmap s ws 4 s.dev.parts) ∧
    ((assocGet part s.dev.parts).isSome = true → ∀ other, (s.dev.vfAt vf).part = some other → other ≠ part →
      Command1 .vfmap s ws 1 s.dev.parts) ∧
    ((assocGet part s.dev.parts).isSome = true → (s.dev.vfAt vf).part = none → leave = false →
      ∃ t, exec .vfmap s = .next t ∧ Completed s t ws 0 ∧ t.mem = s.mem ∧ t.dev.vfAt vf = { part := some part } ∧
        (∀ w, w ≠ vf → t.dev.vfAt w = s.dev.vfAt w) ∧ t.dev.cores = s.dev.cores) ∧
    ((assocGet part s.dev.parts).isSome = true → (s.dev.vfAt vf).part = some part → leave = true →
      ((∃ l ∈ s.dev.launches, l.part = part ∧ l.vf = vf) → Command1 .vfmap s ws 2 s.dev.parts) ∧
      ((∀ l ∈ s.dev.launches, ¬(l.part = part ∧ l.vf = vf)) →
        ∃ t, exec .vfmap s = .next t ∧ Completed s t ws 0 ∧ t.mem = s.mem ∧ (t.dev.vfAt vf).part = none ∧
          (∀ w, w ≠ vf → t.dev.vfAt w = s.dev.vfAt w) ∧ ∀ e ∈ t.dev.tlb, e.vf ≠ vf))) ∧
  (∀ (s : State) (ws : List Word), controlHead s.dev 6 = some ws →
    let part := partId ws
    let vf := (ws.getD 3 0).toNat
    let mem := (ws.getD 4 0).toNat
    let fab := (ws.getD 5 0).toNat
    let win := (ws.getD 6 0).toNat
    let unused := (ws.getD 0 0).toNat / 2^14 % 2^34
    (assocGet part s.dev.parts = none → Command1 .vfmeter s ws 4 s.dev.parts) ∧
    ((assocGet part s.dev.parts).isSome = true → win = 0 ∨ 64 < win ∨ 2^9 ≤ vf ∨ 2^32 ≤ mem ∨ 2^32 ≤ fab ∨ unused ≠ 0 →
      Command1 .vfmeter s ws 3 s.dev.parts) ∧
    ((assocGet part s.dev.parts).isSome = true → vf < 2^9 → mem < 2^32 → fab < 2^32 → 1 ≤ win → win ≤ 64 → unused = 0 →
      (s.dev.vfAt vf).part = some part →
      ∃ t, exec .vfmeter s = .next t ∧ Completed s t ws 0 ∧ t.mem = s.mem ∧ (∀ w, w ≠ vf → t.dev.vfAt w = s.dev.vfAt w) ∧
        t.dev.vfAt vf = { s.dev.vfAt vf with memLim := mem, fabLim := fab, window := win, used := [], windowNo := s.dev.wall / (1000 * win) }))

/-- R335, R337, R403: GROW and SHRINK put a partition's new shape into effect and leave memory outside die scratch and outside what a removed
channel held; what a removed channel held, and everything a DESTROY frees, reads zero, full and unpoisoned. -/
def Obligations.PartitionShapes : Prop :=
  (∀ (s : State) (ws : List Word) (es : List Share) (d : Device) (p q : Partition), controlHead s.dev 2 = some ws → NoWaiters s → s.mem.wf = true →
    commandShares s.mem s.dev ws = .ok es d → assocGet (partId ws) s.dev.parts = some p →
    reshape p es (addShare d (partId ws)) = .ok q →
    ∃ t, exec .grow s = .next t ∧ Completed s t ws 0 ∧ assocGet (partId ws) t.dev.parts = some q ∧
      (∀ b, b ∈ q.blocks ↔ b ∈ p.blocks ∨ ∃ e ∈ es, b ∈ e.blocks) ∧ q.fqbase = p.fqbase ∧ q.grbase = p.grbase ∧
      ∀ k, k < Config.dieScratchBase → t.mem.byte k = s.mem.byte k ∧ t.mem.isFull k = s.mem.isFull k) ∧
  (∀ (s : State) (ws : List Word) (es : List Share) (d : Device) (p q : Partition), controlHead s.dev 3 = some ws → NoWaiters s → s.mem.wf = true →
    commandShares s.mem s.dev ws = .ok es d → assocGet (partId ws) s.dev.parts = some p → reshape p es dropShare = .ok q →
    let blocks := (es.map Share.blocks).flatten
    let spans := ((es.map Share.groups).flatten).map groupSpan
    ((∃ l ∈ s.dev.launches, l.part = partId ws ∧ ∃ c ∈ l.cores, blockOf c ∈ blocks) → Command1 .shrink s ws 2 s.dev.parts) ∧
    ((∀ l ∈ s.dev.launches, l.part ≠ partId ws) → (∀ v ∈ s.dev.vfs, v.2.part ≠ some (partId ws)) →
      ∃ t, exec .shrink s = .next t ∧ Completed s t ws 0 ∧
        (∃ r, assocGet (partId ws) t.dev.parts = some r ∧ r.blocks = q.blocks ∧ r.channels = q.channels) ∧
        (∀ sp ∈ spans, ∀ k, sp.1 ≤ k → k < sp.1 + sp.2 → t.mem.byte k = 0 ∧ t.mem.isFull k = true ∧ t.mem.isPoisoned k = false) ∧
        ∀ k, k < Config.dieScratchBase → (∀ sp ∈ spans, ¬(sp.1 ≤ k ∧ k < sp.1 + sp.2)) → t.mem.byte k = s.mem.byte k)) ∧
  (∀ (s : State) (ws : List Word) (p : Partition), controlHead s.dev 4 = some ws → NoWaiters s → s.mem.wf = true →
    (assocGet (partId ws) s.dev.parts = none → Command1 .destroy s ws 4 s.dev.parts) ∧
    (assocGet (partId ws) s.dev.parts = some p → (∀ l ∈ s.dev.launches, l.part ≠ partId ws) →
      ∃ t, exec .destroy s = .next t ∧ Completed s t ws 0 ∧ (∀ q ∈ t.dev.parts, q.1 ≠ partId ws) ∧
        (∀ v ∈ t.dev.vfs, v.2.part ≠ some (partId ws)) ∧ (∀ c, p.hasCore c = true → t.dev.coreAt c = {}) ∧
        (∀ sp ∈ ownedSpans p, ∀ k, sp.1 ≤ k → k < sp.1 + sp.2 →
          t.mem.byte k = 0 ∧ t.mem.isFull k = true ∧ t.mem.isPoisoned k = false) ∧
        ∀ k, (∀ sp ∈ ownedSpans p, ¬(sp.1 ≤ k ∧ k < sp.1 + sp.2)) → t.mem.byte k = s.mem.byte k))

/-- R392 to R394: CHECKPOINT of a partition with nothing running copies what it holds at one instant into its granary, under a manifest whose
digest is that of the copies, changes no other memory, and releases what it held back, unless HOLD; a granary that does not fit completes
with STATUS 6. RESTORE copies a granary's spans back to their places, with STATUS 6 without an image and 7 where the shape differs. What an
image keeps beside the granary's bytes, and where the copies stand there, are the model's choice (log entry 22). -/
def Obligations.Checkpoints : Prop :=
  (∀ (s : State) (ws : List Word) (p : Partition), controlHead s.dev 8 = some ws → (ws.getD 3 0).getLsbD 0 = false →
    let part := partId ws
    (assocGet part s.dev.parts = none → Command1 .checkpoint s ws 4 s.dev.parts) ∧
    (assocGet part s.dev.parts = some p → granaryFits s.mem s.dev part = false → (∀ c ∈ s.dev.control.head?, c.kept = none) →
      Command1 .checkpoint s ws 6 s.dev.parts) ∧
    (assocGet part s.dev.parts = some p → granaryFits s.mem s.dev part = true → (∀ g ∈ s.dev.migrations, g.part ≠ part) →
      (∀ l ∈ s.dev.launches, l.part ≠ part) → (∀ q ∈ s.dev.packets, (s.dev.vfAt q.vf).part ≠ some part) → s.dev.saved = [] →
      NoWaiters s →
      s.mem.wf = true → let base := p.grbase.toNat % 2^57 / 2^30 * 2^30
      let size := p.grbase.toNat % 2^16 * 2^30
      ∃ t, exec .checkpoint s = .next t ∧ Completed s t ws 0 ∧
        (∀ k, ¬(base ≤ k ∧ k < base + size) → t.mem.byte k = s.mem.byte k) ∧
        (∃ im ∈ t.dev.images, im.part = part ∧ im.base = base ∧ im.size = size ∧ im.wall = s.dev.wall ∧
          im.started = p.launches ∧ im.tensors = p.tensors ∧ im.copies.map (fun q => (q.1, q.2.1)) = copiedSpans s.mem s.dev part ∧
          manifestHolds t.mem im = true ∧
          ∀ q ∈ im.copies, base + 4096 ≤ q.2.2 ∧ q.2.2 + q.2.1 ≤ base + size ∧
            ∀ i, i < q.2.1 → t.mem.byte (q.2.2 + i) = s.mem.byte (q.1 + i)) ∧
        ((ws.getD 3 0).getLsbD 1 = false → (t.dev.partAt part).holding = false ∧ (t.dev.partAt part).held = [] ∧
          t.dev.agenda = p.held.map (fun e => Move.input e.2 e.1 s.dev.now) ++ s.dev.agenda) ∧
        ((ws.getD 3 0).getLsbD 1 = true → (t.dev.partAt part).holding = true))) ∧
  (∀ (s : State) (ws : List Word) (p : Partition), controlHead s.dev 9 = some ws → (ws.getD 3 0).getLsbD 0 = false →
    let part := partId ws
    (assocGet part s.dev.parts = none → Command1 .restore s ws 4 s.dev.parts) ∧
    (assocGet part s.dev.parts = some p →
      (imageFor s.mem s.dev part = none → Command1 .restore s ws 6 s.dev.parts) ∧
      ∀ im, imageFor s.mem s.dev part = some im →
        (im.shape ≠ shapeOf p → Command1 .restore s ws 7 s.dev.parts) ∧
        (im.shape = shapeOf p → im.cores = [] → im.launches = [] → im.kept = [] → s.dev.launches = [] → NoWaiters s → s.mem.wf = true →
          ∃ t, exec .restore s = .next t ∧ Completed s t ws 0 ∧ (t.dev.partAt part).launches = im.started ∧
            (t.dev.partAt part).tensors = im.tensors ∧ (t.dev.partAt part).holding = false ∧
            (∀ c, p.hasCore c = true → besideL1 (t.dev.coreAt c) = besideL1 (s.dev.coreAt c).bare) ∧
            let place (q : Nat × Nat × Nat) : Nat := movedKey im.blocks p.ordered q.1
            (im.copies.Pairwise fun a b => place a + a.2.1 ≤ place b ∨ place b + b.2.1 ≤ place a) →
            (∀ q ∈ im.copies, place q % 8 = 0 ∧ q.2.1 % 8 = 0 ∧ q.2.2 % 8 = 0) →
            (∀ q ∈ im.copies, ∀ i, i < q.2.1 → t.mem.byte (place q + i) = s.mem.byte (q.2.2 + i)) ∧
            ∀ k, (∀ q ∈ im.copies, ¬(place q ≤ k ∧ k < place q + q.2.1)) → t.mem.byte k = s.mem.byte k)))

namespace Sys2Proof.Claims
open Sys2Proof.Machine

/-- Command n of the device is one for which everything that FENCE.FULL.SY waits for has come about (R137, R365). -/
def Runs (s : State) (n : Nat) (save whole : Bool) (c : Command) : Prop :=
  s.dev.commands[n]? = some c ∧ c.save = save ∧ c.presel.getLsbD 18 = whole ∧
    (∀ a ∈ s.dev.accesses, a.core = c.core → a.slot = c.slot → a.id < c.after → a.orphan = false → a.complete = true) ∧
    (∀ q ∈ c.sent, s.dev.received c.core q.1 q.2 = true ∨ q.1 ∈ s.dev.lostDies) ∧ (∀ h ∈ s.dev.hmwrs, c.after ≤ h.1) ∧
    ∀ q ∈ s.dev.restoring, q.2.2 ≠ c.id

/-- The flits that stand once the peer has acknowledged one (R381). -/
def unacked (ack : BitVec 12) : List Flit → List Flit
  | [] => []
  | q :: rest => if q.seq = ack then rest else unacked ack rest

/-- What the host is told, and nothing else changes. -/
def Answers (i : Instr) (s : State) (o : HostOut) : Prop :=
  exec i s = .next { s with dev := { s.dev with hostOut := s.dev.hostOut ++ [o] } }

/-- The host port works, and no partition has a traced launch. -/
def HostReady (s : State) : Prop :=
  s.dev.failedStep = 0 ∧ s.dev.railLost = false ∧ s.dev.waiters = [] ∧ ∀ l ∈ s.dev.launches, l.trace = false

/-- The link replaced, and nothing else changed. -/
def OnlyPeer (i : Instr) (s : State) (link : Nat) (l : PeerLink) : Prop :=
  ∃ t, exec i s = .next t ∧ t.mem = s.mem ∧ t.dev.peerAt link = l ∧ (∀ k, k ≠ link → t.dev.peerAt k = s.dev.peerAt k) ∧
    t.dev.cores = s.dev.cores ∧ t.dev.accesses = s.dev.accesses ∧ t.dev.log = s.dev.log

end Sys2Proof.Claims

/-! Pre-emption, the host port, host lines and peer links. -/

/-- R369, R370: the registers of a context inside its windows, its masks, its counts, its TID, its expiry and its saved system registers come
back from the dwords of its context save area, STATUS first, whatever registers stood there before; bit 0 of an address of code reads 0
(R71). What the area gives no field to is the model's choice (log entry 21). -/
def Obligations.SaveAreaHoldsContext : Prop :=
  ∀ (k : Core) (core slot : Nat) (x y : Context) (tied whole : Bool) (state : Nat) (e : Option (Nat × BitVec 8))
      (status : Word),
    x.gCount ≤ 128 → x.vCount ≤ 64 →
    let area := status :: contextArea k core slot x tied whole state e
    let z := contextFrom area y
    z.gCount = x.gCount ∧ z.vCount = x.vCount ∧ (core < 2^14 → slot < 16 → z.tid = x.tid) ∧
    ((∀ q, e = some q → 0 < q.1 ∧ q.1 < 2^64) → areaExpiry area e = e) ∧
    z.regs.pc = x.regs.pc &&& ~~~1 ∧ z.regs.conflict = x.regs.conflict ∧
    z.regs.sys = { x.regs.sys with
      trappc := x.regs.sys.trappc &&& ~~~1
      trapvec := x.regs.sys.trapvec &&& ~~~1
      presel := y.regs.sys.presel
      prearea := y.regs.sys.prearea } ∧
    (∀ n, 1 ≤ n → n < x.gCount → (z.getG n).val = (x.getG n).val ∧ (z.getG n).full = (x.getG n).full) ∧
    (∀ n, n < x.vCount → (z.getV n).bits = (x.getV n).bits ∧ (z.getV n).tag = (x.getV n).tag ∧ (z.getV n).scale = (x.getV n).scale ∧
      (z.getV n).full = (x.getV n).full) ∧
    ∀ n, 1 ≤ n → n < 8 → z.getK n = x.getK n

/-- R366 to R371, R373: a SAVE reaches its core and takes a context at its turn, or a whole core, off the hardware and keeps it under its area's place
(what the area holds is SaveAreaHoldsContext's); a RESTORE puts the registers that the area holds into the named slot at windows
that fit, or the state that a core area holds into the core; each command ends. What is kept beside the area is the model's choice
(log entry 21). -/
def Obligations.SavesAndRestores : Prop :=
  (∀ (s : State) (n : Nat) (c : Command) (x0 : Context),
    Runs s n true false c → s.dev.ctxAt c.target.1 c.target.2 = some x0 →
    exec (.saveContext n) s = .next { s with dev := { s.dev with
      commands := s.dev.commands.map fun q => if q.id = c.id then { q with reached := true } else q } }) ∧
  (∀ (s : State) (c : Command) (x0 x : Context) (d0 d1 : Device) (e : Option (Nat × BitVec 8)) (ts : List (Place × Nat)),
    s.dev.savingOf s.dev.core s.dev.slot = some c → c.target = (s.dev.core, s.dev.slot) → c.presel.getLsbD 18 = false →
    s.dev.cur = some x0 → x0.part = c.part → (s.dev.partAt c.part).hasCore s.dev.core = true →
    c.agent.targets s.mem (cuts 10241 (c.area + 8) 10232) s.dev [] = (.ok ts, d0) →
    takeContext d0 s.dev.core s.dev.slot = some (d1, e) → d1.ctxAt s.dev.core s.dev.slot = some x → d1.waiters = [] →
    ∃ t v, turn s = .next t ∧ t.dev.ctxAt s.dev.core s.dev.slot = none ∧
      t.dev.saved = d1.saved ++ [v] ∧ v.ctx = some x ∧ v.core = s.dev.core ∧ v.slot = s.dev.slot ∧ v.whole = false ∧ v.expiry = e ∧
      t.dev.commands = d1.commands.filter fun q => q.id != c.id) ∧
  (∀ (s : State) (n : Nat) (c : Command) (d' d2 : Device) (bs : List Byte) (v : Saved) (x0 : Context) (gb vb : Nat) (p : Place),
    Runs s n false false c → NoWaiters s → (s.dev.coreAt c.target.1).halted = false →
    c.agent.read s.mem s.dev c.area 10240 .plain = (.bytes bs, d') →
    c.agent.find s.mem s.dev (c.area + 8) needR .plain = (.place p, d2) →
    (s.dev.partAt c.part).hasCore c.target.1 = true → s.dev.ctxAt c.target.1 c.target.2 = none →
    reservedSlot s.dev c.target.1 c.target.2 = false → c.target.2 < (s.dev.coreAt c.target.1).slots.length →
    recordFor s.dev c c.target.1 p.key (dwordsFrom bs) = v → v.ctx = some x0 → v.tied = false →
    c.target.2 ∉ (s.dev.coreAt c.target.1).tied → (s.dev.coreAt c.target.1).spill = [] →
    let x := contextFrom (dwordsFrom bs) x0
    x.phase = .ready → areaExpiry (dwordsFrom bs) v.expiry = none →
    fitWindows s.dev c.target.1 x.gCount x.vCount = some (gb, vb) → badTag (dwordsFrom bs) x = none →
    ∃ t, exec (.restoreContext n) s = .next t ∧
      t.dev.ctxAt c.target.1 c.target.2 = some { x with gBase := gb, vBase := vb } ∧
      t.dev.saved = s.dev.saved.erase v ∧ t.dev.commands = s.dev.commands.filter fun q => q.id != c.id) ∧
  (∀ (s : State) (n : Nat) (c : Command) (d0 d1 : Device) (xs : List (Nat × Context × Option (Nat × BitVec 8))) (k : Core)
      (ts : List (Place × Nat)) (bs : List (Nat × Nat)),
    Runs s n true true c → (s.dev.partAt c.part).hasCore c.target.1 = true → (s.dev.coreAt c.target.1).saved = false →
    c.area.toNat % 2^20 = 0 →
    c.agent.targets s.mem (((coreArea {} c.target.1 [] fun _ => 0).map fun q =>
      cuts (q.2.length + 1) (c.area + BitVec.ofNat 64 q.1) q.2.length).flatten) (s.dev.reach c) [] = (.ok ts, d0) →
    blockPlaces c.agent s.mem s.dev c.area needW c.target.1 = .ok bs →
    takeCore d0 c.target.1 = some (d1, xs, k) → d1.waiters = [] →
    ∃ t v, exec (.saveCore n) s = .next t ∧ (t.dev.coreAt c.target.1).saved = true ∧ (t.dev.coreAt c.target.1).semImage ≠ none ∧
      (∀ i, t.dev.ctxAt c.target.1 i = none) ∧ t.dev.saved = d1.saved ++ [v] ∧ v.whole = true ∧ v.ctxs = xs ∧ v.unit = some k ∧
      t.dev.commands = d1.commands.filter fun q => q.id != c.id) ∧
  (∀ (s : State) (n : Nat) (c : Command) (d' : Device) (bs : List Byte) (blocks : List (Nat × Nat)) (v : Saved) (u : Core) (p : Place) (d2 : Device),
    Runs s n false true c → NoWaiters s → (s.dev.coreAt c.target.1).halted = false →
    (s.dev.partAt c.part).hasCore c.target.1 = true → (∀ i, s.dev.ctxAt c.target.1 i = none) →
    c.area.toNat % 2^20 = 0 → c.agent.read s.mem s.dev c.area 0xC4000 .plain = (.bytes bs, d') →
    blockPlaces c.agent s.mem s.dev c.area needR c.target.1 = .ok blocks →
    (∀ q ∈ blocks, ∀ i, i < 64 → s.mem.isPoisoned (q.1 + i) = false) →
    c.agent.find s.mem s.dev c.area needR .plain = (.place p, d2) → ((dwordsFrom bs).getD 1 0).toNat % 2^18 / 16 = c.target.1 →
    (s.dev.saved.find? fun v => v.whole && v.core == c.target.1 && v.area == p.key) = some v → v.unit = some u →
    areaContexts s.dev c c.target.1 (dwordsFrom bs) v = [] →
    (s.dev.coreAt c.target.1).saved = true → (s.dev.coreAt c.target.1).spill = [] →
    let w (off : Nat) : Word := (dwordsFrom bs).getD (off / 8) 0
    let half (off : Nat) : BitVec 32 := BitVec.ofNat 32 ((w off).toNat / 2^(8 * (off % 8)))
    ∃ t k, exec (.restoreCore n) s = .next t ∧ t.dev.coreAt c.target.1 = k ∧ k.saved = false ∧ k.semImage = none ∧
      k.redCtr = half 0xC ∧ k.rres = w 0x10 ∧ k.rresSeq = half 0x1C ∧ k.rresTaken = !(w 0x18).getLsbD 0 ∧ k.spcfg = (w 0x20).setWidth 13 ∧
      (∀ i, i < 64 → k.sems.getD i 0 = half (0x800 + 4 * i)) ∧
      (∀ i, i < 4096 → (assocGet i k.scratch).getD 0 = half (0x70000 + 4 * i)) ∧
      (∀ r, r < 256 → k.accRow (r / 64) (r % 64) = BitVec.ofNat 2048 (areaNat (dwordsFrom bs) (0x60000 + 256 * r) 256)) ∧
      k.cyc = (s.dev.coreAt c.target.1).cyc ∧
      t.dev.saved = s.dev.saved.filter (fun r => r != v) ∧ t.dev.commands = s.dev.commands.filter fun q => q.id != c.id)

/-- R329 to R332, R376, R380, R390, R400: the host's configuration register keeps what is written; the capability table, an
attestation quote over the measurements, and the held records from a SEQ on are answered; a posted command joins the control queue,
unless that is full, and one that comes to the head with an OP that no rule names completes as malformed; an unnamed management request
is refused with 0xFD. The unnamed registers and the signature are the
model's choice (log entries 30 and 31). -/
def Sys2Proof.Claims.HostRequests : Prop :=
  (∀ (s : State) (addr value : Word), addr ≠ Config.stepRegister →
    ∃ t, exec (.cfgwr addr value) s = .next t ∧ t.mem = s.mem ∧ t.dev.hostOut = s.dev.hostOut ++ [.cfgDone addr] ∧
      Answers (.cfgrd addr) t (.cfgData addr value) ∧ t.dev.cores = s.dev.cores) ∧
  (∀ s : State, Answers (.cfgrd Config.stepRegister) s (.cfgData Config.stepRegister (BitVec.ofNat 64 s.dev.failedStep))) ∧
  (∀ s : State, HostReady s →
    (∀ offset length : Nat, Answers (.capabilityRead offset length) s
      (.capability (((capabilityTable s.dev).drop offset).take length))) ∧
    (∀ nonce : BitVec 384, Answers (.attestation nonce) s (.quote s.dev.measurements nonce (BitVec.ofNat 64 s.dev.wall)
      (BitVec.ofNat 64 s.dev.bootCount)
      (Config.signature (sha384 (quoteBytes s.dev.measurements nonce (BitVec.ofNat 64 s.dev.wall) (BitVec.ofNat 64 s.dev.bootCount)))
        s.dev.bootCount))) ∧
    (∀ (first : Word) (count : BitVec 32), count.toNat ≤ 64 → Answers (.errorLogRead first count) s
      (.records ((s.dev.log.reverse.filter fun r => decide (first.toNat ≤ (r.getD 0 0).toNat)).take count.toNat))) ∧
    (∀ packet : List Word, (s.dev.partAt (partId packet)).holding = false →
      let commands := s.dev.control ++ [{ packet := packet, index := s.dev.controlWr }]
      (2^s.dev.controlLog2n ≤ s.dev.controlWr - s.dev.controlRd →
        Answers (.controlPost packet) s (.slotIndex (BitVec.ofNat 64 (2^64 - 1)))) ∧
      (s.dev.controlWr - s.dev.controlRd < 2^s.dev.controlLog2n →
        exec (.controlPost packet) s = .next { s with dev := { s.dev with
          hostOut := s.dev.hostOut ++ [.accepted]
          control := commands.dropWhile unnamed
          controlDone := (s.dev.controlDone.filter fun c => decide (s.dev.controlWr < c.index + 2^s.dev.controlLog2n)) ++
            (commands.takeWhile unnamed).map (answered · 3)
          controlRd := s.dev.controlRd + (commands.takeWhile unnamed).length
          controlWr := s.dev.controlWr + 1 } }))) ∧
  (∀ (s : State) (code : Word), (code = 0 ∨ 4 < code.toNat) → Answers (.mgmtRefused code) s (.refusedCode 0xFD))

/-- R230, R341, R376: a host POST into a queue that is not full writes the packet into the next slot, moves the write index, notifies the
queue's engine, or the dispatcher for a launch queue, and answers the slot's index; into a full queue it answers all ones. Which queues are launch
queues is the model's reading (log entry 82). -/
def Sys2Proof.Claims.HostPosts : Prop :=
  ∀ (s : State) (vf part : Nat) (queue : Word) (packet hs : List Word) (p q : Place) (wr rd : Nat) (ring : Word) (log2n cluster : Nat)
      (d1 d2 : Device) (n1 n2 : Nat),
    HostReady s → s.mem.wf = true → (s.dev.vfAt vf).part = some part → (s.dev.partAt part).holding = false → packet.length = 8 →
    queue.toNat % 64 = 0 →
    (dispatchAgent s.dev part vf).targets s.mem (cuts 65 queue 64) s.dev [] = (.ok [(p, n1)], d1) → queuePlace p = true →
    hs = (List.range 8).map (fun i => s.mem.word (p.key + 8 * i)) →
    headerOf (s.dev.partAt part) hs = some (wr, rd, ring, log2n, cluster) →
    (2^log2n ≤ (wr + 2^64 - rd) % 2^64 → Answers (.post vf queue packet) s (.slotIndex (BitVec.ofNat 64 (2^64 - 1)))) ∧
    ((wr + 2^64 - rd) % 2^64 < 2^log2n →
      (dispatchAgent s.dev part vf).targets s.mem (cuts 65 (ring + BitVec.ofNat 64 (64 * (wr % 2^log2n))) 64) d1 [] = (.ok [(q, n2)], d2) →
      queuePlace q = true → d2.waiters = [] → p.key % 8 = 0 → q.key % 8 = 0 → s.mem.isPoisoned p.key = false →
      (∀ i, i < 64 → s.mem.isPoisoned (q.key + i) = false) → (p.key + 8 ≤ q.key ∨ q.key + 64 ≤ p.key) →
      ∃ t, exec (.post vf queue packet) s = .next t ∧ t.dev.hostOut = d2.hostOut ++ [.slotIndex (BitVec.ofNat 64 wr)] ∧
        t.mem.word p.key = BitVec.ofNat 64 (wr + 1) ∧ (∀ i, i < 8 → t.mem.word (q.key + 8 * i) = packet.getD i 0) ∧
        (∀ k, ¬(p.key ≤ k ∧ k < p.key + 8) → ¬(q.key ≤ k ∧ k < q.key + 64) → t.mem.byte k = s.mem.byte k) ∧
        (launchVf d2 part vf cluster p.key packet = none → t.dev.notices = d2.notices ++ [{
          cluster := cluster
          vf := vf
          header := queue
          ring := ring
          log2n := log2n
          index := wr
          privileged := false
          words := packet
          poster := none
          home := (dispatchAgent s.dev part vf).core }]) ∧
        ∀ owner, launchVf d2 part vf cluster p.key packet = some owner → (t.dev.partAt part).queued = (d2.partAt part).queued ++
          [⟨owner, queue, wr, d2.wall, packet, ring + BitVec.ofNat 64 (64 * (wr % 2^log2n))⟩])

/-- R359, R376 to R379: TGRANT is noted and asks for the line's data once, whole or in halves (log entry 106); HMRD_COMPLETION brings them, with
nothing else changed in memory; HMWR_COMPLETION ends its write; HAMO_ANSWER completes its atomic with the value that the word held; a snoop of
a line whose tokens are home lowers the grant, with a write back of dirty data, and calls tokens home that are away; XINV drops the named translations, and XSYNC is acknowledged once the accesses that used them are complete, in order of arrival. -/
def Obligations.HostLines : Prop :=
  (∀ (s : State) (line : Nat) (exclusive : Bool), (line, exclusive) ∈ s.dev.treqs →
    (assocGet line s.dev.grants = none →
      let (halves, d1) := s.dev.drawBit
      let a := 128 * line - Config.hostBase
      exec (.tgrant line exclusive) s = .next { s with dev := { d1 with
        treqs := s.dev.treqs.erase (line, exclusive)
        grants := assocPut line ((if exclusive then 2 else 1) + if halves then 32 else 0) s.dev.grants
        hostOut := s.dev.hostOut ++ if halves then [.hmrd (BitVec.ofNat 64 a) 64, .hmrd (BitVec.ofNat 64 (a + 64)) 64]
          else [.hmrd (BitVec.ofNat 64 a) 128] } }) ∧
    ∀ g, assocGet line s.dev.grants = some g → g ≠ 0 →
      exec (.tgrant line exclusive) s = .next { s with dev := { s.dev with
        treqs := s.dev.treqs.erase (line, exclusive)
        grants := assocPut line ((if exclusive = true ∨ g % 4 = 2 then 2 else 1) + g / 4 * 4) s.dev.grants } }) ∧
  (∀ (s : State) (addr : Word) (data : List Byte) (g after : Nat), HostReady s → s.mem.wf = true →
    let key := Config.hostBase + addr.toNat % 2^57
    let half := if addr.toNat % 128 = 0 then 8 else 16
    assocGet (key / 128) s.dev.grants = some g →
    (addr.toNat % 128 = 0 ∧ data.length = 128 ∧ (g = 1 ∨ g = 2) ∧ after = g + 4 ∨
      addr.toNat % 64 = 0 ∧ data.length = 64 ∧ (g = 33 ∨ g = 34) ∧ after = g + half ∨
      addr.toNat % 64 = 0 ∧ data.length = 64 ∧ (g + half = 57 ∨ g + half = 58) ∧ after = g % 4 + 4) →
    ∃ t, exec (.hmrdCompletion addr data) s = .next t ∧
      (∀ i, i < data.length → t.mem.byte (key + i) = data.getD i 0 ∧ t.mem.isPoisoned (key + i) = false) ∧
      (∀ k, ¬(key ≤ k ∧ k < key + data.length) → t.mem.byte k = s.mem.byte k) ∧
      t.mem.empties = s.mem.empties ∧ t.dev = { s.dev with grants := assocPut (key / 128) after s.dev.grants }) ∧
  (∀ (s : State) (n : Nat),
    exec (.hmwrCompletion n) s = .next { s with dev := { s.dev with hmwrs := s.dev.hmwrs.eraseIdx n } }) ∧
  (∀ (s : State) (n : Nat) (old : Word) (a : Access) (p : Piece) (op : Nat) (wide : Bool) (e : Word) (new : Nat), HostReady s → s.mem.wf = true →
    s.dev.access n = some a → a.id = n → a.pieces = [p] → p.done = false → a.hostPending = true → a.kind = .amo op wide e →
    amoNew op 8 old.toNat p.data.toNat e.toNat = some new → Config.hostBase ≤ p.key → p.key < Config.peerBase →
    (s.mem.word p.key ≠ old → exec (.hamoAnswer n old) s = .next s) ∧
    (s.mem.word p.key = old → ∃ t, exec (.hamoAnswer n old) s = .next t ∧
      t.mem.word p.key = BitVec.ofNat 64 new ∧ (∀ k, ¬(p.key ≤ k ∧ k < p.key + 8) → t.mem.byte k = s.mem.byte k) ∧
      ∀ b, t.dev.access n = some b → b.complete = true)) ∧
  (∀ (s : State) (line : Nat) (exclusive : Bool), s.dev.snoops = [] →
    let l := s.dev.lineAt line
    (assocGet line s.dev.grants = none → l.homeDirty = false →
      ∃ t, exec (.tsnp line exclusive) s = .next t ∧ t.mem = s.mem ∧ t.dev.snoops = [] ∧
        t.dev.hostOut = s.dev.hostOut ++ [.snoopAnswer line 0]) ∧
    ∀ g, assocGet line s.dev.grants = some g → g ≠ 0 →
      (l.home = Config.tokensPerLine → grantData g = true → 2^51 ≤ line → s.dev.hostAtomic line = false → (∀ r ∈ s.dev.hostAsks, r.line ≠ line) →
        ∃ t, exec (.tsnp line exclusive) s = .next t ∧ t.mem = s.mem ∧ t.dev.snoops = [] ∧
          t.dev.grants = (if exclusive then assocDrop line s.dev.grants else assocPut line 5 s.dev.grants) ∧
          t.dev.hmwrs = s.dev.hmwrs ++ (if l.homeDirty then [(s.dev.nextAccess, line)] else []) ∧
          t.dev.hostOut = s.dev.hostOut ++
            (if l.homeDirty then [.hmwr (BitVec.ofNat 64 (128 * line - Config.hostBase)) (s.mem.bytes (128 * line) 128)] else []) ++
            [.snoopAnswer line (if exclusive then 0 else 1)]) ∧
      (l.home ≠ Config.tokensPerLine →
        ∃ t, exec (.tsnp line exclusive) s = .next t ∧ t.mem = s.mem ∧ t.dev.snoops = [⟨line, exclusive, s.dev.wall⟩] ∧
          (t.dev.lineAt line).holders = [] ∧ t.dev.grants = s.dev.grants ∧ t.dev.hostOut = s.dev.hostOut)) ∧
  (∀ (s : State) (vf : Nat) (addr : Word) (size : BitVec 2), s.dev.xinvs.length < 64 → s.dev.failedStep = 0 → s.dev.railLost = false →
    ∃ t, exec (.xinv vf addr size) s = .next t ∧ t.mem = s.mem ∧ t.dev.xinvs = s.dev.xinvs ++ [(vf % 512, s.dev.nextAccess)] ∧
      ∀ e, e ∈ t.dev.tlb ↔ e ∈ s.dev.tlb ∧ e.named (vf % 512) addr size.toNat = false) ∧
  (∀ (s : State) (number : Word), s.dev.xsyncs = [] →
    ((∀ a ∈ s.dev.accesses, a.complete = true ∨ a.fault ≠ none ∨ ∀ x ∈ s.dev.xinvs, ¬(x.1 = a.vf ∧ a.id < x.2)) →
      (∀ k ∈ s.dev.packets, k.rest = [] ∨ ∀ x ∈ s.dev.xinvs, x.1 ≠ k.vf) →
      exec (.xsync number) s = .next { s with dev := { s.dev with xinvs := [], hostOut := s.dev.hostOut ++ [.xsyncAck number] } }) ∧
    (∀ a ∈ s.dev.accesses, a.complete = false → a.fault = none → ∀ x ∈ s.dev.xinvs, x.1 = a.vf → a.id < x.2 →
      exec (.xsync number) s = .next { s with dev := { s.dev with xsyncs := [(number, s.dev.xinvs.length)] } })) ∧
  (∀ (s : State) (number : Word) (q : Word × Nat) (rest : List (Word × Nat)), s.dev.xsyncs = q :: rest →
    ∀ a ∈ s.dev.accesses, a.complete = false → a.fault = none → ∀ x ∈ s.dev.xinvs.take q.2, x.1 = a.vf → a.id < x.2 →
      exec (.xsync number) s = .next { s with dev := { s.dev with xsyncs := s.dev.xsyncs ++ [(number, s.dev.xinvs.length)] } })

/-- R381, R382: a peer link accepts a good flit of the next sequence number, adds its credits and drops the flits it acknowledges; another
flit is discarded and refused; a NACK counts against the flit behind it; a retrain delivers every flit, or each is delivered or logged and
sent again; a link silent for 64 µs goes down. -/
def Obligations.PeerLinks : Prop :=
  (∀ (s : State) (link : Nat) (header : Word) (payload : List Byte) (good : Bool), link < 16 → (s.dev.peerAt link).down = false →
    s.dev.failedStep = 0 → s.dev.railLost = false → s.dev.lostDies = [] → NoWaiters s → (∀ l ∈ s.dev.launches, l.trace = false) →
    let l := s.dev.peerAt link
    let seq : BitVec 12 := BitVec.ofNat 12 (header.toNat / 2^52)
    let ack : BitVec 12 := BitVec.ofNat 12 (header.toNat / 2^40)
    let kind := header.toNat / 2^32 % 16
    ((good = false ∨ seq ≠ l.expect) → OnlyPeer (.peerFlit link header payload good) s link { l with nackSent := some (l.expect - 1) }) ∧
    (good = true → seq = l.expect → (∀ part, linkOwner s.dev link = some part → (s.dev.partAt part).holding = false) →
      (3 ≤ kind → OnlyPeer (.peerFlit link header payload good) s link
        { l with expect := l.expect + 1, nackSent := none, heard := s.dev.wall }) ∧
      (kind < 3 → ∃ q, OnlyPeer (.peerFlit link header payload good) s link q ∧ q.expect = l.expect + 1 ∧ q.nackSent = none ∧
        q.heard = s.dev.wall ∧ q.down = false ∧ q.nextSeq = l.nextSeq ∧
        (∀ i, i < 4 → q.credit.toNat / 256^i % 256 = (l.credit.toNat / 256^i % 256 + header.toNat / 256^i % 256) % 256) ∧
        (header.getLsbD 39 = false → (∃ f ∈ l.sent, f.seq = ack) → q.sent = unacked ack l.sent) ∧
        (header.getLsbD 39 = false → (∀ f ∈ l.sent, f.seq ≠ ack) → q.sent = l.sent) ∧
        (header.getLsbD 39 = true → q = { l.nacked ack with
          expect := l.expect + 1
          nackSent := none
          heard := s.dev.wall
          credit := q.credit })))) ∧
  (∀ (s : State) (link : Nat) (pre post : List Flit) (f : Flit), let l := s.dev.peerAt link
    l.sent = pre ++ f :: post → (∀ q ∈ pre, q.seq ≠ f.seq) →
    OnlyPeer (.nack link f.seq) s link { l with
      sent := post.modify 0 fun q => { q with fails := q.fails + 1 }
      reports := l.reports ++ (pre ++ [f]).filterMap Flit.req }) ∧
  (∀ (s : State) (link : Nat), NoWaiters s → (∃ q ∈ (s.dev.peerAt link).sent, 9 ≤ q.fails) →
    OnlyPeer (.linkRetrain link true) s link { s.dev.peerAt link with
      sent := []
      reports := (s.dev.peerAt link).reports ++ (s.dev.peerAt link).sent.filterMap Flit.req } ∧
    ∃ t, exec (.linkRetrain link false) s = .next t ∧
      t.dev.logSeq = s.dev.logSeq + (t.dev.peerAt link).sent.length ∧
      (∀ q ∈ (t.dev.peerAt link).sent, q.fails = 0 ∧ ∃ p ∈ (s.dev.peerAt link).sent, q = { p with fails := 0 }) ∧
      ∀ p ∈ (s.dev.peerAt link).sent, { p with fails := 0 } ∈ (t.dev.peerAt link).sent ∨ ∀ r, p.req = some r → r ∈ (t.dev.peerAt link).reports) ∧
  (∀ (s : State) (link : Nat), link < 16 → (s.dev.peerAt link).down = false → NoWaiters s →
    (s.dev.wall < (s.dev.peerAt link).heard + 64000 → exec (.linkDown link) s = .next s) ∧
    ((s.dev.peerAt link).heard + 64000 ≤ s.dev.wall → (∀ a ∈ s.dev.accesses, ∀ p ∈ a.pieces, p.port ≠ .peer link) →
      ∃ t, exec (.linkDown link) s = .next t ∧ t.dev.peerAt link = { s.dev.peerAt link with down := true, sent := [], reports := [] } ∧
        t.dev.accesses = s.dev.accesses ∧ t.dev.logSeq = s.dev.logSeq + 1))

namespace Sys2Proof.Claims
open Sys2Proof.Machine

/-- One more record stands in the package log, newest first, with the next SEQ, this WALL and a CLASS (R389). -/
def Logged (s t : State) (cls : Nat) : Prop :=
  t.dev.logSeq = s.dev.logSeq + 1 ∧ ∃ r, t.dev.log = (r :: s.dev.log).take 65536 ∧ r.length = 8 ∧
    r.getD 0 0 = BitVec.ofNat 64 s.dev.logSeq ∧ r.getD 1 0 = BitVec.ofNat 64 s.dev.wall ∧ (r.getD 2 0).toNat / 2^56 = cls

/-- No partition holds units: a record belongs to none. -/
def Unpartitioned (s : State) : Prop := s.dev.parts = [] ∧ s.dev.waiters = []

end Sys2Proof.Claims

/-! Errors, lost dies and reset. -/

/-- R384, R385, R387, R389: a corrected error is logged and does nothing else, and so is one of a clean line of a slice, which is fetched again
(log entry 112); an uncorrectable one in memory poisons the words of its codeword, or the one word of a dirty line of a slice, and one in a register, slot, accumulator row or RRES marks it; one in a context's control state stops the context with
its CAUSE; one in a core's issue state fences the core; a scrubber finds nothing, a corrected or an uncorrectable error. The codes
that no rule numbers are the model's choice (log entry 34). -/
def Obligations.StorageErrors : Prop :=
  (∀ (s : State) (store : BitVec 8) (key : Nat), Unpartitioned s → s.dev.log = [] →
    (∃ t, exec (.softError store (.memory key)) s = .next t ∧ t.mem = s.mem ∧ t.dev.cores = s.dev.cores ∧ Logged s t 1) ∧
    exec (.patrolScrub key .clean) s = .next s ∧
    (∃ t, exec (.patrolScrub key .corrected) s = .next t ∧ t.mem = s.mem ∧ t.dev.cores = s.dev.cores ∧ Logged s t 1) ∧
    (store = 0x0A → key < Config.hostBase → (s.dev.lineAt (key / 128)).homeDirty = false →
      ∃ t, exec (.uncorrectableError store (.memory key)) s = .next t ∧ t.mem = s.mem ∧ t.dev.cores = s.dev.cores ∧ Logged s t 1) ∧
    ∀ i : Instr, (∀ a ∈ s.dev.accesses, a.passed = false) → s.mem.wf = true →
      (i = .uncorrectableError store (.memory key) ∧ (store = 0x0A → Config.hostBase ≤ key ∨ (s.dev.lineAt (key / 128)).homeDirty = true)) ∨
        i = .patrolScrub key .uncorrectable →
      ∃ t, exec i s = .next t ∧ Logged s t 2 ∧ (∀ k, t.mem.byte k = s.mem.byte k ∧ t.mem.isFull k = s.mem.isFull k) ∧
        ∀ k, t.mem.isPoisoned k = true ↔ s.mem.isPoisoned k = true ∨
          if key < Config.hostBase ∧ ¬(store = 0x0A ∧ i = .uncorrectableError store (.memory key)) then k / 32 = key / 32 else k / 8 = key / 8) ∧
  (∀ (s : State) (store : BitVec 8) (core slot r : Nat) (x : Context), Unpartitioned s → s.dev.ctxAt core slot = some x → 1 ≤ r → r < 128 →
    ∃ t y, exec (.uncorrectableError store (.gReg core slot r)) s = .next t ∧ t.mem = s.mem ∧ Logged s t 2 ∧
      t.dev.ctxAt core slot = some y ∧ y.getG r = { x.getG r with poison := true } ∧ (∀ n, n ≠ r → y.getG n = x.getG n) ∧
      y.regs.v = x.regs.v ∧ y.regs.pc = x.regs.pc ∧ y.phase = x.phase) ∧
  (∀ (s : State) (store : BitVec 8) (core slot r : Nat) (x : Context), Unpartitioned s → s.dev.ctxAt core slot = some x → r < 64 →
    ∃ t y, exec (.uncorrectableError store (.vReg core slot r)) s = .next t ∧ t.mem = s.mem ∧ Logged s t 2 ∧
      t.dev.ctxAt core slot = some y ∧ y.getV r = { x.getV r with poison := true } ∧ (∀ n, n ≠ r → y.getV n = x.getV n) ∧
      y.regs.g = x.regs.g ∧ y.regs.pc = x.regs.pc ∧ y.phase = x.phase) ∧
  (∀ (s : State) (store : BitVec 8) (core i : Nat) (o : OpSlot), Unpartitioned s → (s.dev.coreAt core).opSlots[i]? = some o →
    ∃ t, exec (.uncorrectableError store (.slot core i)) s = .next t ∧ t.mem = s.mem ∧ Logged s t 2 ∧
      (t.dev.coreAt core).opSlots[i]? = some { o with poison := true }) ∧
  (∀ (s : State) (store : BitVec 8) (core acc row : Nat), Unpartitioned s →
    (∃ t, exec (.uncorrectableError store (.accumulator core acc row)) s = .next t ∧ Logged s t 2 ∧
      64 * acc + row ∈ (t.dev.coreAt core).accPoison ∧ (t.dev.coreAt core).acc = (s.dev.coreAt core).acc) ∧
    (∃ t, exec (.uncorrectableError store (.rres core)) s = .next t ∧ Logged s t 2 ∧ (t.dev.coreAt core).rresPoison = true ∧
      (t.dev.coreAt core).rres = (s.dev.coreAt core).rres)) ∧
  (∀ (s : State) (store : BitVec 8) (core slot : Nat) (x : Context), Unpartitioned s → s.dev.ctxAt core slot = some x → x.isStopped = false →
    ∃ t y, exec (.uncorrectableError store (.control core slot)) s = .next t ∧ Logged s t 10 ∧ t.dev.ctxAt core slot = some y ∧
      y.phase = .stopped 3 0 0x0C ∧ y.regs.sys.trapcause = 0x0C ∧ y.regs.sys.trapval = 0 ∧ y.regs.sys.trappc = x.regs.pc) ∧
  (∀ (s : State) (store : BitVec 8) (core : Nat), Unpartitioned s →
    ∃ t, exec (.uncorrectableError store (.issue core)) s = .next t ∧ Logged s t 10 ∧ (t.dev.coreAt core).fenced = true)

/-- R266 to R269, R388: a die silent for 64 µs is lost: its cores stand empty, its links are lost, and lines with tokens there are
coherence-lost; a lost token flit loses its line; a recount gives the home the tokens that nobody holds, where an owner is left, and
otherwise writes the line poisoned. How an error event names a link is the model's choice (log entry 94). -/
def Obligations.LostTokensAndDies : Prop :=
  (∀ (s : State) (die : Nat), die < 10 → Unpartitioned s → die ∉ s.dev.lostDies → s.dev.packets = [] → s.dev.launches = [] → s.dev.peers = [] →
    (s.dev.wall < (assocGet die s.dev.heard).getD 0 + 64000 → exec (.dieLost die) s = .next s) ∧
    ((assocGet die s.dev.heard).getD 0 + 64000 ≤ s.dev.wall → s.dev.accesses = [] →
      ∃ t, exec (.dieLost die) s = .next t ∧ t.mem = s.mem ∧ t.dev.lostDies = s.dev.lostDies ++ [die] ∧
        (∀ c, dieOfCore c = die → t.dev.coreAt c = {}) ∧ (∀ o, o < 10 → o ≠ die → t.dev.linkState die o = .lost) ∧
        (∀ l h, h ∈ (s.dev.lineAt l).holders → dieOfCore h.1 = die → assocGet l s.dev.lines = some (s.dev.lineAt l) →
          (t.dev.lineAt l).lost = true))) ∧
  (∀ (s : State) (n link : Nat) (seq : BitVec 12) (m : TokenMsg), Unpartitioned s → s.dev.tokenMsgs[n]? = some m →
    (∀ a ∈ s.dev.accesses, a.passed = false ∨ ∀ p ∈ a.pieces, p.line ≠ m.line) →
    ∃ t, exec (.flitUncorrectable (.tokens n) link seq) s = .next t ∧ t.mem = s.mem ∧ Logged s t 5 ∧
      t.dev.tokenMsgs = s.dev.tokenMsgs.erase m ∧ (t.dev.lineAt m.line).lost = true ∧
      (t.dev.lineAt m.line).home = (s.dev.lineAt m.line).home) ∧
  (∀ (s : State) (n link : Nat) (seq : BitVec 12) (r : TokenReq), Unpartitioned s → s.dev.tokenReqs[n]? = some r →
    ∃ t, exec (.flitUncorrectable (.request n) link seq) s = .next t ∧ t.mem = s.mem ∧ Logged s t 7 ∧ t.dev.lines = s.dev.lines) ∧
  (∀ (s : State) (link : Nat) (seq : BitVec 12) (h : Nat × Nat) (rest : List (Nat × Nat)), Unpartitioned s → s.dev.hints = h :: rest →
    ∃ t, exec (.flitUncorrectable .hint link seq) s = .next t ∧ t.mem = s.mem ∧ Logged s t 6 ∧ t.dev.lines = s.dev.lines ∧
      t.dev.hints = rest) ∧
  (∀ (s : State) (line : Nat), Unpartitioned s → (s.dev.lineAt line).lost = true → s.dev.lostDies = [] →
    (∀ m ∈ s.dev.tokenMsgs, m.line ≠ line) →
    let l := s.dev.lineAt line
    let held := (l.holders.map fun h => h.2.1).sum
    ((l.homeOwner = true ∨ ∃ h ∈ l.holders, h.2.2.1 = true) →
      ∃ t, exec (.recountReply line) s = .next t ∧ t.mem = s.mem ∧ Logged s t 8 ∧ (t.dev.lineAt line).lost = false ∧
        (t.dev.lineAt line).home = 16384 - held ∧ (t.dev.lineAt line).holders = l.holders) ∧
    (l.homeOwner = false → (∀ h ∈ l.holders, h.2.2.1 = false) → (∀ a ∈ s.dev.accesses, a.passed = false) → s.mem.wf = true →
      ∃ t, exec (.recountReply line) s = .next t ∧ Logged s t 9 ∧ t.dev.lineAt line = {} ∧
        (∀ k, t.mem.byte k = s.mem.byte k) ∧ ∀ k, k / 128 = line → t.mem.isPoisoned k = true))

/-- R375, R391, R399, R401: a package reset leaves no partition, no context, WALL 0 and all memory zero, full and unpoisoned, but
for what stands in self-refresh; each image is measured before it runs, and a failed signature stops bring-up at step 2; the loss of
the core rail leaves only the granaries; a failed lane narrows its module. Which images have good signatures is an input of the
event (log entries 17, 30 and 66). -/
def Obligations.ResetAndPower : Prop :=
  (∀ (s : State) (images : List (BitVec 384)) (signed : List Bool), s.mem.wf = true →
    ∃ t, exec (.packageReset images signed false) s = .next t ∧ t.mem.cells = [] ∧ t.mem.empties = [] ∧ t.mem.poisoned = [] ∧ t.dev.now = 0 ∧
      t.dev.cores = [] ∧ t.dev.parts = [] ∧ t.dev.vfs = [] ∧ t.dev.launches = [] ∧ t.dev.accesses = [] ∧ t.dev.log = [] ∧ t.dev.logSeq = 1 ∧
      t.dev.bootCount = s.dev.bootCount + 1 ∧ t.dev.lostDies = [] ∧ t.dev.railLost = false ∧
      (images.length = 4 → signed = [true, true, true, true] → t.dev.failedStep = 0 ∧
        t.dev.measurements = images.map fun i => sha384 (hashBytes 0 ++ hashBytes i)) ∧
      (images.length = 4 → signed.length = 4 → false ∈ signed → t.dev.failedStep = 2)) ∧
  (∀ (s : State) (images : List (BitVec 384)) (signed : List Bool), s.mem.wf = true →
    ∃ t, exec (.packageReset images signed true) s = .next t ∧
      ∀ k, t.mem.byte k = if inSpans (granaries s.dev) k then s.mem.byte k else 0) ∧
  (∀ s : State, s.mem.wf = true →
    ∃ t, exec .coreRailLoss s = .next t ∧ t.dev.railLost = true ∧ t.dev.parts = [] ∧ t.dev.cores = [] ∧
      (∀ k, t.mem.byte k = if inSpans (granaries s.dev) k then s.mem.byte k else 0) ∧
      ∀ packet : List Word, exec (.controlPost packet) t = .next t) ∧
  (∀ (s : State) (n lanes : Nat), s.dev.lanes[n]? = some lanes →
    exec (.laneRepair n .repaired) s = .next { s with dev := { s.dev with lanes := s.dev.lanes.set n (min lanes 64) } } ∧
    exec (.laneRepair n .halved) s = .next { s with dev := { s.dev with lanes := s.dev.lanes.set n (min lanes 32) } } ∧
    exec (.laneRepair n .disabled) s = .next { s with dev := { s.dev with lanes := s.dev.lanes.set n 0 } })

/-! Statements of several parts. -/

/-- R106 to R108: the results of the scalar functions of two operands, of one operand and of an immediate. -/
def Obligations.ScalarResults : Prop :=
  Sys2Proof.Claims.BinaryScalarResult ∧ Sys2Proof.Claims.UnaryScalarResult

/-- R24, R113, R114: a divide issues, and its result arrives 40 cycles later. -/
def Obligations.Divides : Prop :=
  Sys2Proof.Claims.DivideIssues ∧ Sys2Proof.Claims.DivideResultArrives

/-- What a scalar instruction leaves unchanged: registers, masks, system registers, every other context, and every byte of memory. -/
def Obligations.ScalarFrame : Prop :=
  Sys2Proof.Claims.ScalarFrame ∧ Sys2Proof.Claims.ScalarNeverStores

/-- R60, R115, R116, R260, R352, R365, R391, R395: what MFS reads and MTS writes, register by register. -/
def Obligations.SystemRegisters : Prop :=
  Sys2Proof.Claims.MfsReads ∧ Sys2Proof.Claims.MtsWrites ∧ Sys2Proof.Claims.PrivilegedMtsWrites

/-- R16, R24, R85 to R90, R118, R121, R124: an instruction that may not issue raises the exception of its check, in the order of the checks. -/
def Obligations.InstructionChecks : Prop :=
  Sys2Proof.Claims.PrivilegeTraps ∧ Sys2Proof.Claims.WindowTraps ∧ Sys2Proof.Claims.LookaheadWindows ∧ Sys2Proof.Claims.IllegalEncodingTraps ∧ Sys2Proof.Claims.MisalignedAccessesTrap

/-- R119, R120: taking a trap, and the instructions ECALL, BRK, RETT and YIELD. -/
def Obligations.TrapEntry : Prop :=
  Sys2Proof.Claims.TrapEntry ∧ Sys2Proof.Claims.TrapMajor

/-- R24, R121, R122, R125, R128, R129, R141: a load makes its access and leaves its result pending. -/
def Obligations.LoadsIssue : Prop :=
  Sys2Proof.Claims.ScalarLoadsIssue ∧ Sys2Proof.Claims.VectorLoadsIssue ∧ Sys2Proof.Claims.ScaledAndTileLoadsIssue

/-- R121, R126, R128, R130 to R135, R141: a store, a full/empty access or an atomic makes its access. -/
def Obligations.StoresIssue : Prop :=
  Sys2Proof.Claims.StoresIssue ∧ Sys2Proof.Claims.SynchronisingAccessesIssue

/-- R122, R126, R127, R130 to R134, R251: what an access does to memory at its owning port. -/
def Obligations.AccessesPerform : Prop :=
  Sys2Proof.Claims.PlainAccessesPerform ∧ Sys2Proof.Claims.AtomicsPerform ∧ Sys2Proof.Claims.SynchronisingAccessesPerform

/-- R18, R24, R25, R124: a result arrives in its register, and a fault rolls its context back to its instruction. -/
def Obligations.ResultsAndFaults : Prop :=
  Sys2Proof.Claims.ResultsArrive ∧ Sys2Proof.Claims.FaultsArePrecise

/-- R137, R259: fences and their markers. -/
def Obligations.Fences : Prop :=
  Sys2Proof.Claims.Fences ∧ Sys2Proof.Claims.FenceMarkers

/-- R37, R38, R131, R213: waits, their ends, their expiry and withdrawal. -/
def Obligations.Waits : Prop :=
  Sys2Proof.Claims.SleepingWaits ∧ Sys2Proof.Claims.TimedWaitsEnd ∧ Sys2Proof.Claims.ExpiredWaitsTrap ∧ Sys2Proof.Claims.Withdrawals

/-- R20 to R23: messages are deposited, or wait and are retried. -/
def Obligations.Deposits : Prop :=
  Sys2Proof.Claims.MessagesArrive ∧ Sys2Proof.Claims.DepositRetries

/-- R150 to R156: elementwise arithmetic, logic, shifts and selection. -/
def Obligations.ElementwiseVectors : Prop :=
  Sys2Proof.Claims.LanewiseArithmetic ∧ Sys2Proof.Claims.LogicShiftsAndSelect

/-- R69, R70, R159, R160, R169, R193: conversions between formats, elementary functions and quantising. -/
def Obligations.ConversionsAndFunctions : Prop :=
  Sys2Proof.Claims.Conversions ∧ Sys2Proof.Claims.FunctionsAndQuantising

/-- R165 to R168, R170: scans, permutations and moves between the register files. -/
def Obligations.PermutationsAndMoves : Prop :=
  Sys2Proof.Claims.ScansAndPermutations ∧ Sys2Proof.Claims.MovesBetweenFiles

/-- R179 to R182: fills of operand slots complete, and operand strings are passed. -/
def Obligations.FillsAndStrings : Prop :=
  Sys2Proof.Claims.FillsComplete ∧ Sys2Proof.Claims.OperandStrings

/-- R67, R68, R183 to R185: the array: its instructions join its queue, start in order and complete with their results. -/
def Obligations.MatrixArray : Prop :=
  Sys2Proof.Claims.ArrayInstructions ∧ Sys2Proof.Claims.ArrayStarts ∧ Sys2Proof.Claims.ArrayCompletes

/-- R194, R198 to R208: the sum-product engine: its passes over scratch, and its scratch instructions. -/
def Obligations.SumProductEngine : Prop :=
  Sys2Proof.Claims.SumProductPasses ∧ Sys2Proof.Claims.SumProductScratch

/-- R223 to R226: barriers of groups, work lists and winnowing. -/
def Obligations.GroupsAndWorkLists : Prop :=
  Sys2Proof.Claims.Barriers ∧ Sys2Proof.Claims.WorkLists

/-- R26, R227 to R229, R250: stream generators are defined, read, written and ended, and fetch and store their elements. -/
def Obligations.StreamGenerators : Prop :=
  Sys2Proof.Claims.Streams ∧ Sys2Proof.Claims.StreamElements

/-- R234, R235, R249: semaphores and circular buffers. -/
def Obligations.SemaphoresAndBuffers : Prop :=
  Sys2Proof.Claims.Semaphores ∧ Sys2Proof.Claims.CircularBuffers

/-- R145, R352 to R364, R395, R397: page migrations and the fault queue. -/
def Obligations.PagesAndFaultQueues : Prop :=
  Sys2Proof.Claims.Migrations ∧ Sys2Proof.Claims.FaultQueues

/-- R242, R253 to R257, R378: token requests, and the messages that answer them. -/
def Obligations.CoherenceTokens : Prop :=
  Sys2Proof.Claims.TokenRequests ∧ Sys2Proof.Claims.TokenMessages

/-- R45, R262 to R266, R304, R340: die links, the mesh, meter windows, and landings of shipped contexts. -/
def Obligations.LinksAndLandings : Prop :=
  Sys2Proof.Claims.LinksAndFlits ∧ Sys2Proof.Claims.Landings

/-- R230, R329 to R332, R341, R376, R380, R390, R400: what the host and management ask of the device, and posts to its queues. -/
def Obligations.HostRequests : Prop :=
  Sys2Proof.Claims.HostRequests ∧ Sys2Proof.Claims.HostPosts
end

