-- ==== Sys2Proof/Laws/State.lean ====
section
/-! SUPPORT. What a read of the device, of a core or of a context's registers gives after an update of it: one lemma for
each field and update, so that no later proof unfolds a record update. -/
namespace Sys2Proof.Machine

@[simp] theorem assocGet_assocPut_self {α : Type} (k : Nat) (x : α) (l : List (Nat × α)) :
    assocGet k (assocPut k x l) = some x := by
  induction l with
  | nil => simp [assocPut, assocGet]
  | cons p r ih =>
    obtain ⟨a, y⟩ := p
    unfold assocPut
    split
    · simp [assocGet]
    · split
      · simp [assocGet]
      · simp [assocGet, *]

theorem assocGet_assocPut_ne {α : Type} {k j : Nat} (x : α) (l : List (Nat × α)) (h : j ≠ k) :
    assocGet j (assocPut k x l) = assocGet j l := by
  induction l with
  | nil => simp [assocPut, assocGet, Ne.symm h]
  | cons p r ih =>
    obtain ⟨a, y⟩ := p
    unfold assocPut
    split
    · subst_vars; simp [assocGet, Ne.symm h]
    · split
      · simp [assocGet, Ne.symm h]
      · simp [assocGet, ih]

@[simp] theorem assocPut_assocPut_self {α : Type} (k : Nat) (x y : α) (l : List (Nat × α)) :
    assocPut k x (assocPut k y l) = assocPut k x l := by
  induction l with
  | nil => simp [assocPut]
  | cons p r ih =>
    obtain ⟨a, z⟩ := p
    by_cases h : a = k
    · simp [assocPut, h]
    · by_cases h2 : k < a
      · simp [assocPut, h, h2]
      · simp [assocPut, h, h2, ih]

/-! The device after a core is replaced. -/

@[simp] theorem Device.setCore_now (d : Device) (c : Nat) (k : Core) : (d.setCore c k).now = d.now := rfl
@[simp] theorem Device.setCore_focus (d : Device) (c : Nat) (k : Core) : (d.setCore c k).focus = d.focus := rfl
@[simp] theorem Device.setCore_core (d : Device) (c : Nat) (k : Core) : (d.setCore c k).core = d.core := rfl
@[simp] theorem Device.setCore_slot (d : Device) (c : Nat) (k : Core) : (d.setCore c k).slot = d.slot := rfl
@[simp] theorem Device.setCore_agenda (d : Device) (c : Nat) (k : Core) : (d.setCore c k).agenda = d.agenda := rfl
@[simp] theorem Device.setCore_freeCtr (d : Device) (c : Nat) (k : Core) : (d.setCore c k).freeCtr = d.freeCtr := rfl
@[simp] theorem Device.setCore_parts (d : Device) (c : Nat) (k : Core) : (d.setCore c k).parts = d.parts := rfl
@[simp] theorem Device.setCore_vfs (d : Device) (c : Nat) (k : Core) : (d.setCore c k).vfs = d.vfs := rfl
@[simp] theorem Device.setCore_launches (d : Device) (c : Nat) (k : Core) : (d.setCore c k).launches = d.launches := rfl
@[simp] theorem Device.setCore_accesses (d : Device) (c : Nat) (k : Core) : (d.setCore c k).accesses = d.accesses := rfl
@[simp] theorem Device.setCore_nextAccess (d : Device) (c : Nat) (k : Core) : (d.setCore c k).nextAccess = d.nextAccess := rfl
@[simp] theorem Device.setCore_lines (d : Device) (c : Nat) (k : Core) : (d.setCore c k).lines = d.lines := rfl
@[simp] theorem Device.setCore_tokenMsgs (d : Device) (c : Nat) (k : Core) : (d.setCore c k).tokenMsgs = d.tokenMsgs := rfl
@[simp] theorem Device.setCore_tokenReqs (d : Device) (c : Nat) (k : Core) : (d.setCore c k).tokenReqs = d.tokenReqs := rfl
@[simp] theorem Device.setCore_persist (d : Device) (c : Nat) (k : Core) : (d.setCore c k).persist = d.persist := rfl
@[simp] theorem Device.setCore_hints (d : Device) (c : Nat) (k : Core) : (d.setCore c k).hints = d.hints := rfl
@[simp] theorem Device.setCore_writeBacks (d : Device) (c : Nat) (k : Core) : (d.setCore c k).writeBacks = d.writeBacks := rfl
@[simp] theorem Device.setCore_dieLinks (d : Device) (c : Nat) (k : Core) : (d.setCore c k).dieLinks = d.dieLinks := rfl
@[simp] theorem Device.setCore_heard (d : Device) (c : Nat) (k : Core) : (d.setCore c k).heard = d.heard := rfl
@[simp] theorem Device.setCore_lostDies (d : Device) (c : Nat) (k : Core) : (d.setCore c k).lostDies = d.lostDies := rfl
@[simp] theorem Device.setCore_messages (d : Device) (c : Nat) (k : Core) : (d.setCore c k).messages = d.messages := rfl
@[simp] theorem Device.setCore_markers (d : Device) (c : Nat) (k : Core) : (d.setCore c k).markers = d.markers := rfl
@[simp] theorem Device.setCore_fires (d : Device) (c : Nat) (k : Core) : (d.setCore c k).fires = d.fires := rfl
@[simp] theorem Device.setCore_landings (d : Device) (c : Nat) (k : Core) : (d.setCore c k).landings = d.landings := rfl
@[simp] theorem Device.setCore_commands (d : Device) (c : Nat) (k : Core) : (d.setCore c k).commands = d.commands := rfl
@[simp] theorem Device.setCore_saved (d : Device) (c : Nat) (k : Core) : (d.setCore c k).saved = d.saved := rfl
@[simp] theorem Device.setCore_restoring (d : Device) (c : Nat) (k : Core) : (d.setCore c k).restoring = d.restoring := rfl
@[simp] theorem Device.setCore_images (d : Device) (c : Nat) (k : Core) : (d.setCore c k).images = d.images := rfl
@[simp] theorem Device.setCore_engines (d : Device) (c : Nat) (k : Core) : (d.setCore c k).engines = d.engines := rfl
@[simp] theorem Device.setCore_packets (d : Device) (c : Nat) (k : Core) : (d.setCore c k).packets = d.packets := rfl
@[simp] theorem Device.setCore_notices (d : Device) (c : Nat) (k : Core) : (d.setCore c k).notices = d.notices := rfl
@[simp] theorem Device.setCore_fills (d : Device) (c : Nat) (k : Core) : (d.setCore c k).fills = d.fills := rfl
@[simp] theorem Device.setCore_transfers (d : Device) (c : Nat) (k : Core) : (d.setCore c k).transfers = d.transfers := rfl
@[simp] theorem Device.setCore_signals (d : Device) (c : Nat) (k : Core) : (d.setCore c k).signals = d.signals := rfl
@[simp] theorem Device.setCore_meterQueue (d : Device) (c : Nat) (k : Core) : (d.setCore c k).meterQueue = d.meterQueue := rfl
@[simp] theorem Device.setCore_arrivals (d : Device) (c : Nat) (k : Core) : (d.setCore c k).arrivals = d.arrivals := rfl
@[simp] theorem Device.setCore_blockQueues (d : Device) (c : Nat) (k : Core) : (d.setCore c k).blockQueues = d.blockQueues := rfl
@[simp] theorem Device.setCore_blockReqs (d : Device) (c : Nat) (k : Core) : (d.setCore c k).blockReqs = d.blockReqs := rfl
@[simp] theorem Device.setCore_shipments (d : Device) (c : Nat) (k : Core) : (d.setCore c k).shipments = d.shipments := rfl
@[simp] theorem Device.setCore_migrations (d : Device) (c : Nat) (k : Core) : (d.setCore c k).migrations = d.migrations := rfl
@[simp] theorem Device.setCore_tlb (d : Device) (c : Nat) (k : Core) : (d.setCore c k).tlb = d.tlb := rfl
@[simp] theorem Device.setCore_log (d : Device) (c : Nat) (k : Core) : (d.setCore c k).log = d.log := rfl
@[simp] theorem Device.setCore_logSeq (d : Device) (c : Nat) (k : Core) : (d.setCore c k).logSeq = d.logSeq := rfl
@[simp] theorem Device.setCore_control (d : Device) (c : Nat) (k : Core) : (d.setCore c k).control = d.control := rfl
@[simp] theorem Device.setCore_controlDone (d : Device) (c : Nat) (k : Core) : (d.setCore c k).controlDone = d.controlDone := rfl
@[simp] theorem Device.setCore_controlWr (d : Device) (c : Nat) (k : Core) : (d.setCore c k).controlWr = d.controlWr := rfl
@[simp] theorem Device.setCore_controlRd (d : Device) (c : Nat) (k : Core) : (d.setCore c k).controlRd = d.controlRd := rfl
@[simp] theorem Device.setCore_controlLog2n (d : Device) (c : Nat) (k : Core) : (d.setCore c k).controlLog2n = d.controlLog2n := rfl
@[simp] theorem Device.setCore_granaries (d : Device) (c : Nat) (k : Core) : (d.setCore c k).granaries = d.granaries := rfl
@[simp] theorem Device.setCore_cfg (d : Device) (c : Nat) (k : Core) : (d.setCore c k).cfg = d.cfg := rfl
@[simp] theorem Device.setCore_hostOut (d : Device) (c : Nat) (k : Core) : (d.setCore c k).hostOut = d.hostOut := rfl
@[simp] theorem Device.setCore_grants (d : Device) (c : Nat) (k : Core) : (d.setCore c k).grants = d.grants := rfl
@[simp] theorem Device.setCore_snoops (d : Device) (c : Nat) (k : Core) : (d.setCore c k).snoops = d.snoops := rfl
@[simp] theorem Device.setCore_hostAsks (d : Device) (c : Nat) (k : Core) : (d.setCore c k).hostAsks = d.hostAsks := rfl
@[simp] theorem Device.setCore_treqs (d : Device) (c : Nat) (k : Core) : (d.setCore c k).treqs = d.treqs := rfl
@[simp] theorem Device.setCore_hmwrs (d : Device) (c : Nat) (k : Core) : (d.setCore c k).hmwrs = d.hmwrs := rfl
@[simp] theorem Device.setCore_xinvs (d : Device) (c : Nat) (k : Core) : (d.setCore c k).xinvs = d.xinvs := rfl
@[simp] theorem Device.setCore_xsyncs (d : Device) (c : Nat) (k : Core) : (d.setCore c k).xsyncs = d.xsyncs := rfl
@[simp] theorem Device.setCore_peers (d : Device) (c : Nat) (k : Core) : (d.setCore c k).peers = d.peers := rfl
@[simp] theorem Device.setCore_inputs (d : Device) (c : Nat) (k : Core) : (d.setCore c k).inputs = d.inputs := rfl
@[simp] theorem Device.setCore_entering (d : Device) (c : Nat) (k : Core) : (d.setCore c k).entering = d.entering := rfl
@[simp] theorem Device.setCore_lanes (d : Device) (c : Nat) (k : Core) : (d.setCore c k).lanes = d.lanes := rfl
@[simp] theorem Device.setCore_measurements (d : Device) (c : Nat) (k : Core) : (d.setCore c k).measurements = d.measurements := rfl
@[simp] theorem Device.setCore_bootCount (d : Device) (c : Nat) (k : Core) : (d.setCore c k).bootCount = d.bootCount := rfl
@[simp] theorem Device.setCore_failedStep (d : Device) (c : Nat) (k : Core) : (d.setCore c k).failedStep = d.failedStep := rfl
@[simp] theorem Device.setCore_railLost (d : Device) (c : Nat) (k : Core) : (d.setCore c k).railLost = d.railLost := rfl
@[simp] theorem Device.setCore_deferred (d : Device) (c : Nat) (k : Core) : (d.setCore c k).deferred = d.deferred := rfl
@[simp] theorem Device.setCore_wall (d : Device) (c : Nat) (k : Core) : (d.setCore c k).wall = d.wall := rfl

@[simp] theorem Device.coreAt_setCore_self (d : Device) (c : Nat) (k : Core) : (d.setCore c k).coreAt c = k := by
  simp [Device.coreAt, Device.setCore]

theorem Device.coreAt_setCore_ne (d : Device) {c e : Nat} (k : Core) (h : e ≠ c) :
    (d.setCore c k).coreAt e = d.coreAt e := by
  simp [Device.coreAt, Device.setCore, assocGet_assocPut_ne _ _ h]

@[simp] theorem Device.setCore_setCore_self (d : Device) (c : Nat) (k j : Core) :
    (d.setCore c k).setCore c j = d.setCore c j := by
  simp [Device.setCore]

/-! A core after a slot is replaced. -/

@[simp] theorem Core.setCtx_setCtx_self (k : Core) (slot : Nat) (x y : Option Context) :
    (k.setCtx slot x).setCtx slot y = k.setCtx slot y := by
  simp [Core.setCtx]

theorem Core.slot_exists {k : Core} {slot : Nat} {x : Context} (h : k.ctx slot = some x) : slot < k.slots.length := by
  rcases Nat.lt_or_ge slot k.slots.length with hs | hs
  · exact hs
  · simp [Core.ctx, List.getElem?_eq_none hs] at h

theorem Core.ctx_setCtx_self {k : Core} {slot : Nat} (h : slot < k.slots.length) (y : Option Context) :
    (k.setCtx slot y).ctx slot = y := by
  simp [Core.ctx, Core.setCtx, h]

theorem Core.ctx_setCtx_ne (k : Core) {slot i : Nat} (y : Option Context) (h : i ≠ slot) :
    (k.setCtx slot y).ctx i = k.ctx i := by
  simp [Core.ctx, Core.setCtx, List.getElem?_set_ne (Ne.symm h)]

@[simp] theorem Core.setCtx_cyc (k : Core) (slot : Nat) (y : Option Context) : (k.setCtx slot y).cyc = k.cyc := rfl
@[simp] theorem Core.setCtx_cycles (k : Core) (slot : Nat) (y : Option Context) : (k.setCtx slot y).cycles = k.cycles := rfl
@[simp] theorem Core.setCtx_begun (k : Core) (slot : Nat) (y : Option Context) : (k.setCtx slot y).begun = k.begun := rfl
@[simp] theorem Core.setCtx_halted (k : Core) (slot : Nat) (y : Option Context) : (k.setCtx slot y).halted = k.halted := rfl
@[simp] theorem Core.setCtx_haltAt (k : Core) (slot : Nat) (y : Option Context) : (k.setCtx slot y).haltAt = k.haltAt := rfl
@[simp] theorem Core.setCtx_fenced (k : Core) (slot : Nat) (y : Option Context) : (k.setCtx slot y).fenced = k.fenced := rfl
@[simp] theorem Core.setCtx_overdue (k : Core) (slot : Nat) (y : Option Context) : (k.setCtx slot y).overdue = k.overdue := rfl
@[simp] theorem Core.setCtx_spawns (k : Core) (slot : Nat) (y : Option Context) : (k.setCtx slot y).spawns = k.spawns := rfl
@[simp] theorem Core.setCtx_classes (k : Core) (slot : Nat) (y : Option Context) : (k.setCtx slot y).classes = k.classes := rfl
@[simp] theorem Core.setCtx_waiting (k : Core) (slot : Nat) (y : Option Context) : (k.setCtx slot y).waiting = k.waiting := rfl
@[simp] theorem Core.setCtx_lastDeposit (k : Core) (slot : Nat) (y : Option Context) : (k.setCtx slot y).lastDeposit = k.lastDeposit := rfl
@[simp] theorem Core.setCtx_dueNow (k : Core) (slot : Nat) (y : Option Context) : (k.setCtx slot y).dueNow = k.dueNow := rfl
@[simp] theorem Core.setCtx_woke (k : Core) (slot : Nat) (y : Option Context) : (k.setCtx slot y).woke = k.woke := rfl
@[simp] theorem Core.setCtx_used (k : Core) (slot : Nat) (y : Option Context) : (k.setCtx slot y).used = k.used := rfl
@[simp] theorem Core.setCtx_inbound (k : Core) (slot : Nat) (y : Option Context) : (k.setCtx slot y).inbound = k.inbound := rfl
@[simp] theorem Core.setCtx_runSince (k : Core) (slot : Nat) (y : Option Context) : (k.setCtx slot y).runSince = k.runSince := rfl
@[simp] theorem Core.setCtx_spill (k : Core) (slot : Nat) (y : Option Context) : (k.setCtx slot y).spill = k.spill := rfl
@[simp] theorem Core.setCtx_spilt (k : Core) (slot : Nat) (y : Option Context) : (k.setCtx slot y).spilt = k.spilt := rfl
@[simp] theorem Core.setCtx_tied (k : Core) (slot : Nat) (y : Option Context) : (k.setCtx slot y).tied = k.tied := rfl
@[simp] theorem Core.setCtx_saved (k : Core) (slot : Nat) (y : Option Context) : (k.setCtx slot y).saved = k.saved := rfl
@[simp] theorem Core.setCtx_rres (k : Core) (slot : Nat) (y : Option Context) : (k.setCtx slot y).rres = k.rres := rfl
@[simp] theorem Core.setCtx_rresSeq (k : Core) (slot : Nat) (y : Option Context) : (k.setCtx slot y).rresSeq = k.rresSeq := rfl
@[simp] theorem Core.setCtx_rresTaken (k : Core) (slot : Nat) (y : Option Context) : (k.setCtx slot y).rresTaken = k.rresTaken := rfl
@[simp] theorem Core.setCtx_rresPoison (k : Core) (slot : Nat) (y : Option Context) : (k.setCtx slot y).rresPoison = k.rresPoison := rfl
@[simp] theorem Core.setCtx_redCtr (k : Core) (slot : Nat) (y : Option Context) : (k.setCtx slot y).redCtr = k.redCtr := rfl
@[simp] theorem Core.setCtx_reductions (k : Core) (slot : Nat) (y : Option Context) : (k.setCtx slot y).reductions = k.reductions := rfl
@[simp] theorem Core.setCtx_sems (k : Core) (slot : Nat) (y : Option Context) : (k.setCtx slot y).sems = k.sems := rfl
@[simp] theorem Core.setCtx_semWaiters (k : Core) (slot : Nat) (y : Option Context) : (k.setCtx slot y).semWaiters = k.semWaiters := rfl
@[simp] theorem Core.setCtx_semImage (k : Core) (slot : Nat) (y : Option Context) : (k.setCtx slot y).semImage = k.semImage := rfl
@[simp] theorem Core.setCtx_bufs (k : Core) (slot : Nat) (y : Option Context) : (k.setCtx slot y).bufs = k.bufs := rfl
@[simp] theorem Core.setCtx_bufWaiters (k : Core) (slot : Nat) (y : Option Context) : (k.setCtx slot y).bufWaiters = k.bufWaiters := rfl
@[simp] theorem Core.setCtx_gens (k : Core) (slot : Nat) (y : Option Context) : (k.setCtx slot y).gens = k.gens := rfl
@[simp] theorem Core.setCtx_workList (k : Core) (slot : Nat) (y : Option Context) : (k.setCtx slot y).workList = k.workList := rfl
@[simp] theorem Core.setCtx_shippedOut (k : Core) (slot : Nat) (y : Option Context) : (k.setCtx slot y).shippedOut = k.shippedOut := rfl
@[simp] theorem Core.setCtx_receivedIn (k : Core) (slot : Nat) (y : Option Context) : (k.setCtx slot y).receivedIn = k.receivedIn := rfl
@[simp] theorem Core.setCtx_opSlots (k : Core) (slot : Nat) (y : Option Context) : (k.setCtx slot y).opSlots = k.opSlots := rfl
@[simp] theorem Core.setCtx_claims (k : Core) (slot : Nat) (y : Option Context) : (k.setCtx slot y).claims = k.claims := rfl
@[simp] theorem Core.setCtx_acc (k : Core) (slot : Nat) (y : Option Context) : (k.setCtx slot y).acc = k.acc := rfl
@[simp] theorem Core.setCtx_accPoison (k : Core) (slot : Nat) (y : Option Context) : (k.setCtx slot y).accPoison = k.accPoison := rfl
@[simp] theorem Core.setCtx_arrayQ (k : Core) (slot : Nat) (y : Option Context) : (k.setCtx slot y).arrayQ = k.arrayQ := rfl
@[simp] theorem Core.setCtx_sends (k : Core) (slot : Nat) (y : Option Context) : (k.setCtx slot y).sends = k.sends := rfl
@[simp] theorem Core.setCtx_l1 (k : Core) (slot : Nat) (y : Option Context) : (k.setCtx slot y).l1 = k.l1 := rfl
@[simp] theorem Core.setCtx_spcfg (k : Core) (slot : Nat) (y : Option Context) : (k.setCtx slot y).spcfg = k.spcfg := rfl
@[simp] theorem Core.setCtx_scratch (k : Core) (slot : Nat) (y : Option Context) : (k.setCtx slot y).scratch = k.scratch := rfl
@[simp] theorem Core.setCtx_scratchPoison (k : Core) (slot : Nat) (y : Option Context) : (k.setCtx slot y).scratchPoison = k.scratchPoison := rfl
@[simp] theorem Core.setCtx_trees (k : Core) (slot : Nat) (y : Option Context) : (k.setCtx slot y).trees = k.trees := rfl
@[simp] theorem Core.setCtx_leafPort (k : Core) (slot : Nat) (y : Option Context) : (k.setCtx slot y).leafPort = k.leafPort := rfl
@[simp] theorem Core.setCtx_engine (k : Core) (slot : Nat) (y : Option Context) : (k.setCtx slot y).engine = k.engine := rfl
@[simp] theorem Core.setCtx_sent (k : Core) (slot : Nat) (y : Option Context) : (k.setCtx slot y).sent = k.sent := rfl
@[simp] theorem Core.setCtx_got (k : Core) (slot : Nat) (y : Option Context) : (k.setCtx slot y).got = k.got := rfl
@[simp] theorem Core.setCtx_icache (k : Core) (slot : Nat) (y : Option Context) : (k.setCtx slot y).icache = k.icache := rfl
@[simp] theorem Core.setCtx_stale (k : Core) (slot : Nat) (y : Option Context) : (k.setCtx slot y).stale = k.stale := rfl
@[simp] theorem Core.setCtx_launch (k : Core) (slot : Nat) (y : Option Context) : (k.setCtx slot y).launch = k.launch := rfl
@[simp] theorem Core.setCtx_part (k : Core) (slot : Nat) (y : Option Context) : (k.setCtx slot y).part = k.part := rfl
@[simp] theorem Core.bindingOf_setCtx (k : Core) (slot i : Nat) (y : Option Context) (r : Reg) :
    (k.setCtx slot y).bindingOf i r = k.bindingOf i r := rfl
@[simp] theorem Core.gen_setCtx (k : Core) (slot n : Nat) (y : Option Context) : (k.setCtx slot y).gen n = k.gen n := rfl

/-! The device after the context whose turn it is was replaced. -/

/-- The device with the context whose turn it is replaced. -/
theorem Device.onCur_eq {d : Device} {x : Context} (h : d.cur = some x) (f : Context → Context) :
    d.onCur f = d.setCtx d.core d.slot (f x) := by
  unfold Device.cur at h
  simp [Device.onCur, Device.onCtx, h]

theorem Device.cur_setCtx {d : Device} {x : Context} (h : d.cur = some x) (y : Context) :
    (d.setCtx d.core d.slot y).cur = some y := by
  have hs : d.slot < (d.coreAt d.core).slots.length := Core.slot_exists (k := d.coreAt d.core) (x := x) h
  simp [Device.cur, Device.ctxAt, Device.setCtx, Device.onCore, Core.ctx_setCtx_self hs]

@[simp] theorem Device.setCtx_now (d : Device) (c slot : Nat) (y : Context) : (d.setCtx c slot y).now = d.now := rfl
@[simp] theorem Device.setCtx_focus (d : Device) (c slot : Nat) (y : Context) : (d.setCtx c slot y).focus = d.focus := rfl
@[simp] theorem Device.setCtx_core (d : Device) (c slot : Nat) (y : Context) : (d.setCtx c slot y).core = d.core := rfl
@[simp] theorem Device.setCtx_slot (d : Device) (c slot : Nat) (y : Context) : (d.setCtx c slot y).slot = d.slot := rfl
@[simp] theorem Device.setCtx_agenda (d : Device) (c slot : Nat) (y : Context) : (d.setCtx c slot y).agenda = d.agenda := rfl
@[simp] theorem Device.setCtx_freeCtr (d : Device) (c slot : Nat) (y : Context) : (d.setCtx c slot y).freeCtr = d.freeCtr := rfl
@[simp] theorem Device.setCtx_parts (d : Device) (c slot : Nat) (y : Context) : (d.setCtx c slot y).parts = d.parts := rfl
@[simp] theorem Device.setCtx_vfs (d : Device) (c slot : Nat) (y : Context) : (d.setCtx c slot y).vfs = d.vfs := rfl
@[simp] theorem Device.setCtx_launches (d : Device) (c slot : Nat) (y : Context) : (d.setCtx c slot y).launches = d.launches := rfl
@[simp] theorem Device.setCtx_accesses (d : Device) (c slot : Nat) (y : Context) : (d.setCtx c slot y).accesses = d.accesses := rfl
@[simp] theorem Device.setCtx_nextAccess (d : Device) (c slot : Nat) (y : Context) : (d.setCtx c slot y).nextAccess = d.nextAccess := rfl
@[simp] theorem Device.setCtx_lines (d : Device) (c slot : Nat) (y : Context) : (d.setCtx c slot y).lines = d.lines := rfl
@[simp] theorem Device.setCtx_tokenMsgs (d : Device) (c slot : Nat) (y : Context) : (d.setCtx c slot y).tokenMsgs = d.tokenMsgs := rfl
@[simp] theorem Device.setCtx_tokenReqs (d : Device) (c slot : Nat) (y : Context) : (d.setCtx c slot y).tokenReqs = d.tokenReqs := rfl
@[simp] theorem Device.setCtx_persist (d : Device) (c slot : Nat) (y : Context) : (d.setCtx c slot y).persist = d.persist := rfl
@[simp] theorem Device.setCtx_hints (d : Device) (c slot : Nat) (y : Context) : (d.setCtx c slot y).hints = d.hints := rfl
@[simp] theorem Device.setCtx_writeBacks (d : Device) (c slot : Nat) (y : Context) : (d.setCtx c slot y).writeBacks = d.writeBacks := rfl
@[simp] theorem Device.setCtx_dieLinks (d : Device) (c slot : Nat) (y : Context) : (d.setCtx c slot y).dieLinks = d.dieLinks := rfl
@[simp] theorem Device.setCtx_heard (d : Device) (c slot : Nat) (y : Context) : (d.setCtx c slot y).heard = d.heard := rfl
@[simp] theorem Device.setCtx_lostDies (d : Device) (c slot : Nat) (y : Context) : (d.setCtx c slot y).lostDies = d.lostDies := rfl
@[simp] theorem Device.setCtx_messages (d : Device) (c slot : Nat) (y : Context) : (d.setCtx c slot y).messages = d.messages := rfl
@[simp] theorem Device.setCtx_markers (d : Device) (c slot : Nat) (y : Context) : (d.setCtx c slot y).markers = d.markers := rfl
@[simp] theorem Device.setCtx_fires (d : Device) (c slot : Nat) (y : Context) : (d.setCtx c slot y).fires = d.fires := rfl
@[simp] theorem Device.setCtx_landings (d : Device) (c slot : Nat) (y : Context) : (d.setCtx c slot y).landings = d.landings := rfl
@[simp] theorem Device.setCtx_commands (d : Device) (c slot : Nat) (y : Context) : (d.setCtx c slot y).commands = d.commands := rfl
@[simp] theorem Device.setCtx_saved (d : Device) (c slot : Nat) (y : Context) : (d.setCtx c slot y).saved = d.saved := rfl
@[simp] theorem Device.setCtx_restoring (d : Device) (c slot : Nat) (y : Context) : (d.setCtx c slot y).restoring = d.restoring := rfl
@[simp] theorem Device.setCtx_images (d : Device) (c slot : Nat) (y : Context) : (d.setCtx c slot y).images = d.images := rfl
@[simp] theorem Device.setCtx_engines (d : Device) (c slot : Nat) (y : Context) : (d.setCtx c slot y).engines = d.engines := rfl
@[simp] theorem Device.setCtx_packets (d : Device) (c slot : Nat) (y : Context) : (d.setCtx c slot y).packets = d.packets := rfl
@[simp] theorem Device.setCtx_notices (d : Device) (c slot : Nat) (y : Context) : (d.setCtx c slot y).notices = d.notices := rfl
@[simp] theorem Device.setCtx_fills (d : Device) (c slot : Nat) (y : Context) : (d.setCtx c slot y).fills = d.fills := rfl
@[simp] theorem Device.setCtx_transfers (d : Device) (c slot : Nat) (y : Context) : (d.setCtx c slot y).transfers = d.transfers := rfl
@[simp] theorem Device.setCtx_signals (d : Device) (c slot : Nat) (y : Context) : (d.setCtx c slot y).signals = d.signals := rfl
@[simp] theorem Device.setCtx_meterQueue (d : Device) (c slot : Nat) (y : Context) : (d.setCtx c slot y).meterQueue = d.meterQueue := rfl
@[simp] theorem Device.setCtx_arrivals (d : Device) (c slot : Nat) (y : Context) : (d.setCtx c slot y).arrivals = d.arrivals := rfl
@[simp] theorem Device.setCtx_blockQueues (d : Device) (c slot : Nat) (y : Context) : (d.setCtx c slot y).blockQueues = d.blockQueues := rfl
@[simp] theorem Device.setCtx_blockReqs (d : Device) (c slot : Nat) (y : Context) : (d.setCtx c slot y).blockReqs = d.blockReqs := rfl
@[simp] theorem Device.setCtx_shipments (d : Device) (c slot : Nat) (y : Context) : (d.setCtx c slot y).shipments = d.shipments := rfl
@[simp] theorem Device.setCtx_migrations (d : Device) (c slot : Nat) (y : Context) : (d.setCtx c slot y).migrations = d.migrations := rfl
@[simp] theorem Device.setCtx_tlb (d : Device) (c slot : Nat) (y : Context) : (d.setCtx c slot y).tlb = d.tlb := rfl
@[simp] theorem Device.setCtx_log (d : Device) (c slot : Nat) (y : Context) : (d.setCtx c slot y).log = d.log := rfl
@[simp] theorem Device.setCtx_logSeq (d : Device) (c slot : Nat) (y : Context) : (d.setCtx c slot y).logSeq = d.logSeq := rfl
@[simp] theorem Device.setCtx_control (d : Device) (c slot : Nat) (y : Context) : (d.setCtx c slot y).control = d.control := rfl
@[simp] theorem Device.setCtx_controlDone (d : Device) (c slot : Nat) (y : Context) : (d.setCtx c slot y).controlDone = d.controlDone := rfl
@[simp] theorem Device.setCtx_controlWr (d : Device) (c slot : Nat) (y : Context) : (d.setCtx c slot y).controlWr = d.controlWr := rfl
@[simp] theorem Device.setCtx_controlRd (d : Device) (c slot : Nat) (y : Context) : (d.setCtx c slot y).controlRd = d.controlRd := rfl
@[simp] theorem Device.setCtx_controlLog2n (d : Device) (c slot : Nat) (y : Context) : (d.setCtx c slot y).controlLog2n = d.controlLog2n := rfl
@[simp] theorem Device.setCtx_granaries (d : Device) (c slot : Nat) (y : Context) : (d.setCtx c slot y).granaries = d.granaries := rfl
@[simp] theorem Device.setCtx_cfg (d : Device) (c slot : Nat) (y : Context) : (d.setCtx c slot y).cfg = d.cfg := rfl
@[simp] theorem Device.setCtx_hostOut (d : Device) (c slot : Nat) (y : Context) : (d.setCtx c slot y).hostOut = d.hostOut := rfl
@[simp] theorem Device.setCtx_grants (d : Device) (c slot : Nat) (y : Context) : (d.setCtx c slot y).grants = d.grants := rfl
@[simp] theorem Device.setCtx_snoops (d : Device) (c slot : Nat) (y : Context) : (d.setCtx c slot y).snoops = d.snoops := rfl
@[simp] theorem Device.setCtx_hostAsks (d : Device) (c slot : Nat) (y : Context) : (d.setCtx c slot y).hostAsks = d.hostAsks := rfl
@[simp] theorem Device.setCtx_treqs (d : Device) (c slot : Nat) (y : Context) : (d.setCtx c slot y).treqs = d.treqs := rfl
@[simp] theorem Device.setCtx_hmwrs (d : Device) (c slot : Nat) (y : Context) : (d.setCtx c slot y).hmwrs = d.hmwrs := rfl
@[simp] theorem Device.setCtx_xinvs (d : Device) (c slot : Nat) (y : Context) : (d.setCtx c slot y).xinvs = d.xinvs := rfl
@[simp] theorem Device.setCtx_xsyncs (d : Device) (c slot : Nat) (y : Context) : (d.setCtx c slot y).xsyncs = d.xsyncs := rfl
@[simp] theorem Device.setCtx_peers (d : Device) (c slot : Nat) (y : Context) : (d.setCtx c slot y).peers = d.peers := rfl
@[simp] theorem Device.setCtx_inputs (d : Device) (c slot : Nat) (y : Context) : (d.setCtx c slot y).inputs = d.inputs := rfl
@[simp] theorem Device.setCtx_entering (d : Device) (c slot : Nat) (y : Context) : (d.setCtx c slot y).entering = d.entering := rfl
@[simp] theorem Device.setCtx_lanes (d : Device) (c slot : Nat) (y : Context) : (d.setCtx c slot y).lanes = d.lanes := rfl
@[simp] theorem Device.setCtx_measurements (d : Device) (c slot : Nat) (y : Context) : (d.setCtx c slot y).measurements = d.measurements := rfl
@[simp] theorem Device.setCtx_bootCount (d : Device) (c slot : Nat) (y : Context) : (d.setCtx c slot y).bootCount = d.bootCount := rfl
@[simp] theorem Device.setCtx_failedStep (d : Device) (c slot : Nat) (y : Context) : (d.setCtx c slot y).failedStep = d.failedStep := rfl
@[simp] theorem Device.setCtx_railLost (d : Device) (c slot : Nat) (y : Context) : (d.setCtx c slot y).railLost = d.railLost := rfl
@[simp] theorem Device.setCtx_deferred (d : Device) (c slot : Nat) (y : Context) : (d.setCtx c slot y).deferred = d.deferred := rfl
@[simp] theorem Device.setCtx_wall (d : Device) (c slot : Nat) (y : Context) : (d.setCtx c slot y).wall = d.wall := rfl
@[simp] theorem Device.setCtx_setCtx_self (d : Device) (c slot : Nat) (x y : Context) :
    (d.setCtx c slot x).setCtx c slot y = d.setCtx c slot y := by
  simp [Device.setCtx, Device.onCore]

theorem Device.onCur_setCtx {d : Device} {x : Context} (h : d.cur = some x) (y : Context) (f : Context → Context) :
    (d.setCtx d.core d.slot y).onCur f = d.setCtx d.core d.slot (f y) := by
  rw [Device.onCur_eq (Device.cur_setCtx h y)]
  simp

theorem Device.me_setCtx (d : Device) (y : Context) :
    (d.setCtx d.core d.slot y).me = d.me.setCtx d.slot (some y) := by
  simp [Device.me, Device.setCtx, Device.onCore]

/-! A context's registers after a write. -/

theorem Context.getG_zero (x : Context) : x.getG 0 = ⟨0, true, false⟩ := rfl

theorem Context.getG_putG_self (x : Context) {n : Nat} (h0 : n ≠ 0) (hn : n < 128) (r : GReg) : (x.putG n r).getG n = r := by
  simp [Context.getG, Context.putG, h0, hn]

theorem Context.getG_putG_ne (x : Context) {n m : Nat} (h : m ≠ n) (r : GReg) : (x.putG n r).getG m = x.getG m := by
  unfold Context.putG
  split
  · rfl
  · unfold Context.getG
    split
    · rfl
    · simp [Vector.getElem?_setIfInBounds_ne (Ne.symm h)]

@[simp] theorem Context.putG_zero (x : Context) (r : GReg) : x.putG 0 r = x := rfl

theorem Context.getV_putV_self (x : Context) {n : Nat} (hn : n < 64) (r : VReg) : (x.putV n r).getV n = r := by
  simp [Context.getV, Context.putV, hn]

theorem Context.getV_putV_ne (x : Context) {n m : Nat} (h : m ≠ n) (r : VReg) : (x.putV n r).getV m = x.getV m := by
  simp [Context.getV, Context.putV, Vector.getElem?_setIfInBounds_ne (Ne.symm h)]

@[simp] theorem Context.getV_putG (x : Context) (n m : Nat) (r : GReg) : (x.putG n r).getV m = x.getV m := by
  unfold Context.putG; split <;> rfl
@[simp] theorem Context.getK_putG (x : Context) (n m : Nat) (r : GReg) : (x.putG n r).getK m = x.getK m := by
  unfold Context.putG; split <;> rfl
@[simp] theorem Context.getG_putV (x : Context) (n m : Nat) (r : VReg) : (x.putV n r).getG m = x.getG m := rfl
@[simp] theorem Context.getK_putV (x : Context) (n m : Nat) (r : VReg) : (x.putV n r).getK m = x.getK m := rfl
@[simp] theorem Context.putG_pc (x : Context) (n : Nat) (r : GReg) : (x.putG n r).regs.pc = x.regs.pc := by
  unfold Context.putG; split <;> rfl
@[simp] theorem Context.putG_sys (x : Context) (n : Nat) (r : GReg) : (x.putG n r).regs.sys = x.regs.sys := by
  unfold Context.putG; split <;> rfl
@[simp] theorem Context.putV_pc (x : Context) (n : Nat) (r : VReg) : (x.putV n r).regs.pc = x.regs.pc := rfl
@[simp] theorem Context.putV_sys (x : Context) (n : Nat) (r : VReg) : (x.putV n r).regs.sys = x.regs.sys := rfl

theorem Context.getK_writeK_self (x : Context) {n : Nat} (h0 : n ≠ 0) (hn : n < 8) (w : BitVec 32) :
    (x.writeK n w).getK n = w := by
  simp [Context.getK, Context.writeK, h0, hn]

theorem Context.getK_writeK_ne (x : Context) {n m : Nat} (h : m ≠ n) (w : BitVec 32) : (x.writeK n w).getK m = x.getK m := by
  unfold Context.writeK
  split
  · rfl
  · unfold Context.getK
    split
    · rfl
    · simp [Vector.getElem?_setIfInBounds_ne (Ne.symm h)]

@[simp] theorem Context.getG_writeK (x : Context) (n m : Nat) (w : BitVec 32) : (x.writeK n w).getG m = x.getG m := by
  unfold Context.writeK; split <;> rfl
@[simp] theorem Context.getV_writeK (x : Context) (n m : Nat) (w : BitVec 32) : (x.writeK n w).getV m = x.getV m := by
  unfold Context.writeK; split <;> rfl

end Sys2Proof.Machine
end

