-- ==== Sys2Proof/Laws/Issue.lean ====
section
/-! SUPPORT. The spec of the shared issue: an instruction whose context can issue passes every check of R89 and runs its body
on the registers as they stand; and what follows its body when it completes. -/
namespace Sys2Proof.Machine

theorem State.withCur_mem (s : State) (y : Context) : (s.withCur y).mem = s.mem := rfl

theorem State.cur_withCur {s : State} {x : Context} (h : s.dev.cur = some x) (y : Context) : (s.withCur y).dev.cur = some y :=
  Device.cur_setCtx h y

theorem find?_none_of {α : Type} {p : α → Bool} {l : List α} (h : ∀ a ∈ l, p a = false) : l.find? p = none := by
  simp only [List.find?_eq_none]
  intro a ha
  simp [h a ha]

theorem any_false_of {α : Type} {p : α → Bool} {l : List α} (h : ∀ a ∈ l, p a = false) : l.any p = false := by
  simp only [List.any_eq_false]
  intro a ha
  simp [h a ha]

theorem boundGens_nil {k : Core} {slot : Nat} {rs : List Reg} (h : ∀ r ∈ rs, k.bindingOf slot r = none) :
    boundGens k slot rs = [] := by
  simp only [boundGens, List.filterMap_eq_nil_iff]
  exact h

theorem readOperands_unbound (k : Core) (x : Context) (slot : Nat) {rs : List Reg}
    (h : ∀ r ∈ rs, k.bindingOf slot r = none) : readOperands k x slot rs = (rs.map x.peek, k) := by
  induction rs with
  | nil => rfl
  | cons r rs ih =>
    have hr : k.bindingOf slot r = none := h r (by simp)
    have ih := ih fun q hq => h q (by simp [hq])
    simp [readOperands, readOperand, hr, ih]

/-- What an instruction's own checks ask beyond `CanIssue`. -/
structure Passes (s : State) (x : Context) (u : Uses) : Prop where
  reads : ∀ r ∈ u.reads, r ∈ u.report
  writes : ∀ r ∈ u.writes, r ∈ u.report
  sync : ∀ r, u.sync = some r → r ∈ u.report
  legal : u.illegal s.dev = false
  allowed : u.privilege s.dev x = none
  tags : u.tags (s.dev.foretold x) = none
  binds : u.binds s.dev.me s.dev.slot = none
  idle : u.busy s.dev = false
  settled : u.outside = true → Settled s x
  full : syncEmpty x u.sync = false

theorem Settled.unsettled_none {s : State} {x : Context} (h : Settled s x) : x.unsettled = none := by
  have : (x.pending.filter fun p => p.mayFault && !p.arrived) = [] := by
    simp only [List.filter_eq_nil_iff]
    intro p hp
    cases hf : p.mayFault
    · simp
    · simp [h.arrived p hp hf]
  simp [Context.unsettled, this]

theorem Settled.heldBack_false {s : State} {x : Context} (h : Settled s x) (inner : Bool) : heldBack s.dev x inner = false := by
  cases inner
  · simp [heldBack, h.unsettled_none]
  · simp only [heldBack, if_true]
    refine any_false_of fun p hp => ?_
    cases hf : p.mayFault
    · simp
    · simp [h.arrived p hp hf]

theorem Settled.tainted_false {s : State} {x : Context} (h : Settled s x) (m : Memory) :
    tainted m s.dev s.dev.core s.dev.slot x = false :=
  any_false_of fun a ha => by
    by_cases hc : a.core = s.dev.core ∧ a.slot = s.dev.slot ∧ a.tid = x.tid
    · simp [(h.flown a ha hc.1 hc.2.1 hc.2.2).1]
    · have : (a.core == s.dev.core && a.slot == s.dev.slot && a.tid == x.tid) = false := by
        rw [Bool.eq_false_iff]
        intro hm
        simp only [Bool.and_eq_true, beq_iff_eq] at hm
        exact hc ⟨hm.1.1, hm.1.2, hm.2⟩
      rw [this]
      rfl

theorem Settled.doomed_false {s : State} {x : Context} (h : Settled s x) : doomed s.dev s.dev.core s.dev.slot x = false :=
  any_false_of fun a ha => by
    by_cases hc : a.core = s.dev.core ∧ a.slot = s.dev.slot ∧ a.tid = x.tid
    · obtain ⟨hp, hf⟩ := h.flown a ha hc.1 hc.2.1 hc.2.2
      simp [hp, hf]
    · have : (a.core == s.dev.core && a.slot == s.dev.slot && a.tid == x.tid) = false := by
        rw [Bool.eq_false_iff]
        intro hm
        simp only [Bool.and_eq_true, beq_iff_eq] at hm
        exact hc ⟨hm.1.1, hm.1.2, hm.2⟩
      rw [this]
      rfl

/-- Where nothing in flight can still fault, an effect outside the registers passes nothing that had not been passed. -/
theorem Settled.passed_eq {s : State} {x : Context} (h : Settled s x) {d : Device} (ha : d.accesses = s.dev.accesses)
    (hc : d.core = s.dev.core) (hs : d.slot = s.dev.slot) (upto : Nat) : d.passed d.core d.slot x.tid upto = d := by
  unfold Device.passed
  have : (d.accesses.map fun a => if a.core == d.core && a.slot == d.slot && a.tid == x.tid && decide (a.id < upto) then { a with passed := true } else a) = d.accesses := by
    conv => rhs; rw [← List.map_id d.accesses]
    refine List.map_congr_left fun a ham => ?_
    split
    · rename_i hm
      simp only [Bool.and_eq_true, beq_iff_eq] at hm
      have := (h.flown a (ha ▸ ham) (hc ▸ hm.1.1.1) (hs ▸ hm.1.1.2) hm.1.2).1
      cases a
      simp_all
    · rfl
  rw [this]

theorem precheck_none {s : State} {x : Context} {i : Instr} {u : Uses} (h : CanIssue s x u.reads u.report)
    (hu : Passes s x u) : precheck s.dev x i u = none := by
  have hp : boundGens s.dev.me s.dev.slot u.reads = [] := boundGens_nil fun r hr => h.unbound r (hu.reads r hr)
  have hw : boundGens s.dev.me s.dev.slot u.writes = [] := boundGens_nil fun r hr => h.unbound r (hu.writes r hr)
  have h1 : (x.pending.any fun p => p.left == 0 && !p.arrived) = false :=
    any_false_of fun p hm => by
      cases hl : p.left == 0
      · rfl
      · simp [h.arrived p hm (by simpa using hl)]
  have h2 : windowFault x u.report = none := by
    rw [windowFault, find?_none_of fun r hr => by simp [h.inside r hr]]
    rfl
  have h3 : lookaheadFault x u.report = none := by
    rw [lookaheadFault, find?_none_of]
    · rfl
    · intro r hr
      refine any_false_of fun p hm => ?_
      by_cases hl : 0 < p.left
      · simp [h.untouched p hm hl r hr]
      · simp [hl]
  have h4 : (u.sync.filter fun r => (s.dev.me.bindingOf s.dev.slot r).isSome).map Reg.report = none := by
    cases hs : u.sync with
    | none => rfl
    | some r => simp [Option.filter, h.unbound r (hu.sync r hs)]
  have h5 : (u.outside && (heldBack s.dev x u.inner || relOpen s.dev s.dev.core s.dev.slot x || doomed s.dev s.dev.core s.dev.slot x)) = false := by
    cases ho : u.outside
    · rfl
    · have hset := hu.settled ho
      simp [hset.heldBack_false, hset.released, hset.doomed_false]
  unfold precheck
  simp [h1, hu.legal, hu.allowed, h2, hu.tags, h4, hu.binds, h3, hp, hw, streamTrap, streamStall, hu.idle, h5]

/-- The body runs on the device with the synchronised register taken, on that context, and on the operands as they stood. -/
theorem issue_runs {s : State} {x : Context} {i : Instr} {u : Uses} {body : Device → Context → List Val → Verdict}
    (h : CanIssue s x u.reads u.report) (hu : Passes s x u) :
    issue s i u body =
      carryOut s s.dev x (instrBytes i) (takenBy s.dev.me s.dev.slot u) u.writes
        (if u.outside then
          (body (s.dev.setCtx s.dev.core s.dev.slot (syncClear x u.sync)) (syncClear x u.sync) (u.reads.map x.peek)).passing x s.dev.nextAccess
        else body (s.dev.setCtx s.dev.core s.dev.slot (syncClear x u.sync)) (syncClear x u.sync) (u.reads.map x.peek)) := by
  have hi : x.issues = true := by simp [Context.issues, h.ready]
  have hh : heldReduction s.dev.me x s.dev.slot = false := any_false_of h.notHeld
  have ht : (u.outside && tainted s.mem s.dev s.dev.core s.dev.slot x) = false := by
    cases ho : u.outside
    · rfl
    · simp [(hu.settled ho).tainted_false]
  have hg : (if (s.dev.unsettled s.dev.core s.dev.slot).isSome then s.dev.me else forgetSpent s.dev.me (boundGens s.dev.me s.dev.slot u.reads)) = s.dev.me := by
    rw [boundGens_nil fun r hr => h.unbound r (hu.reads r hr)]
    split <;> rfl
  have hp : (u.reads.find? fun r => (s.dev.me.bindingOf s.dev.slot r).isNone && x.poisonedReg r) = none :=
    find?_none_of fun r hr => by simp [h.sound r hr]
  unfold issue
  simp only [h.turn, hi, Bool.not_true, Bool.false_eq_true, if_false, precheck_none h hu, hh, ht, hp, hu.full, hg]
  rw [readOperands_unbound _ _ _ fun r hr => h.unbound r (hu.reads r hr)]
  rfl

theorem settle_cur {d : Device} {y : Context} (h : d.cur = some y) (len : Word) (jump : Option Word) (pend : Option Pending) :
    settle d len jump pend =
      d.setCtx d.core d.slot
        { y with
          regs := { y.regs with pc := jump.getD (y.regs.pc + len) }
          phase := .ready
          stallSince := none
          stalled := false
          taken := []
          answered := none
          fence := none
          pending := advanceWindows y.pending ++ pend.toList } := by
  rw [settle, Device.onCur_eq h]

/-- A completed instruction that changed only its own context and jumps nowhere. -/
theorem carryOut_ok {s : State} {x0 x y : Context} {len : Word} {ts : List Taken} {ds : List Reg} (h : s.dev.cur = some x) :
    carryOut s s.dev x0 len ts ds (.ok (s.dev.setCtx s.dev.core s.dev.slot y)) = .next (s.withCur (y.past len)) := by
  simp only [Verdict.ok, carryOut, finishEdits, conclude]
  rw [settle_cur (Device.cur_setCtx h y)]
  simp [Memory.apply, State.withCur, Context.past, Context.movedTo]

/-- A completed instruction that changed only its own context and may jump. -/
theorem carryOut_jump {s : State} {x0 x y : Context} {len : Word} {ts : List Taken} {ds : List Reg} {jump : Option Word} (h : s.dev.cur = some x) :
    carryOut s s.dev x0 len ts ds (.done (s.dev.setCtx s.dev.core s.dev.slot y) [] jump none) =
      .next (s.withCur (y.movedTo (jump.getD (y.regs.pc + len)))) := by
  simp only [carryOut, finishEdits, conclude]
  rw [settle_cur (Device.cur_setCtx h y)]
  simp [Memory.apply, State.withCur, Context.movedTo]

theorem bindingOf_me_setCtx (d : Device) (y : Context) (slot : Nat) (r : Reg) :
    (d.setCtx d.core d.slot y).me.bindingOf slot r = d.me.bindingOf slot r := by
  rw [Device.me_setCtx]
  rfl

/-- A scalar result of the context whose turn it is, into a register bound to no stream. -/
theorem putG_unbound {d : Device} {x : Context} (h : d.cur = some x) (y : Context) {n : Nat} (w : Word)
    (hb : d.me.bindingOf d.slot (.g n) = none) :
    (d.setCtx d.core d.slot y).putG n w = d.setCtx d.core d.slot (y.writeG n w) := by
  have hb' : ((d.setCtx d.core d.slot y).coreAt d.core).bindingOf d.slot (.g n) = none := by
    have := bindingOf_me_setCtx d y d.slot (.g n)
    rw [hb] at this
    exact this
  have hc : (d.setCtx d.core d.slot y).ctxAt d.core d.slot = some y := Device.cur_setCtx h y
  simp [Device.putG, Device.writeReg, hb', Device.onCtx, hc]

/-- A vector result of the context whose turn it is, into a register bound to no stream. -/
theorem putV_unbound {d : Device} {x : Context} (h : d.cur = some x) (y : Context) {n : Nat} (b : VBits) (tag : BitVec 4)
    (scale : Lane) (hb : d.me.bindingOf d.slot (.v n) = none) :
    (d.setCtx d.core d.slot y).putV n b tag scale = d.setCtx d.core d.slot (y.writeV n b tag scale) := by
  have hb' : ((d.setCtx d.core d.slot y).coreAt d.core).bindingOf d.slot (.v n) = none := by
    have := bindingOf_me_setCtx d y d.slot (.v n)
    rw [hb] at this
    exact this
  have hc : (d.setCtx d.core d.slot y).ctxAt d.core d.slot = some y := Device.cur_setCtx h y
  simp [Device.putV, Device.writeReg, hb', Device.onCtx, hc]

theorem syncClear_g (x : Context) (sa : Bool) (a : BitVec 7) :
    syncClear x (if sa then some (.g a.toNat) else none) = x.tookG sa a := by
  cases sa <;> rfl

theorem syncEmpty_g {x : Context} {sa : Bool} {a : BitVec 7} (h : x.canTakeG sa a) :
    syncEmpty x (if sa then some (.g a.toNat) else none) = false := by
  cases sa
  · rfl
  · simp [syncEmpty, Context.isFull, h rfl]

theorem syncClear_v (x : Context) (sa : Bool) (a : Nat) :
    syncClear x (if sa then some (.v a) else none) = x.tookV sa a := by
  cases sa <;> rfl

theorem syncEmpty_v {x : Context} {sa : Bool} {a : Nat} (h : x.canTakeV sa a) :
    syncEmpty x (if sa then some (.v a) else none) = false := by
  cases sa
  · rfl
  · simp [syncEmpty, Context.isFull, h rfl]

/-- A two-operand scalar instruction completes with its result in gD. -/
theorem scalar2_result {s : State} {x : Context} {i : Instr} {sa : Bool} {d a b : BitVec 7} {f : Word → Word → Word}
    (h : CanIssue s x [.g a.toNat, .g b.toNat] [.g d.toNat, .g a.toNat, .g b.toNat]) (hs : x.canTakeG sa a) :
    scalar2 s i sa d a b f =
      .next (s.withCur (((x.tookG sa a).writeG d.toNat (f (x.getG a.toNat).val (x.getG b.toNat).val)).past (instrBytes i))) := by
  have hu : Passes s x (usesDAB sa d a b) :=
    { reads := by simp [usesDAB]
      writes := by simp [usesDAB]
      sync := by cases sa <;> simp [usesDAB]
      legal := rfl
      allowed := rfl
      tags := rfl
      binds := rfl
      idle := rfl
      settled := by intro ho; cases ho
      full := syncEmpty_g hs }
  unfold scalar2
  rw [issue_runs h hu]
  have hb : s.dev.me.bindingOf s.dev.slot (.g d.toNat) = none := h.unbound _ (by simp)
  simp only [usesDAB, List.map_cons, List.map_nil, Context.peek, syncClear_g]
  rw [putG_unbound h.turn _ _ hb]
  exact carryOut_ok h.turn

/-- A one-operand scalar instruction completes with its result in gD. -/
theorem scalar1_result {s : State} {x : Context} {i : Instr} {sa : Bool} {d a : BitVec 7} {f : Word → Word}
    (h : CanIssue s x [.g a.toNat] [.g d.toNat, .g a.toNat]) (hs : x.canTakeG sa a) :
    scalar1 s i sa d a f =
      .next (s.withCur (((x.tookG sa a).writeG d.toNat (f (x.getG a.toNat).val)).past (instrBytes i))) := by
  have hu : Passes s x (usesDA sa d a) :=
    { reads := by simp [usesDA]
      writes := by simp [usesDA]
      sync := by cases sa <;> simp [usesDA]
      legal := rfl
      allowed := rfl
      tags := rfl
      binds := rfl
      idle := rfl
      settled := by intro ho; cases ho
      full := syncEmpty_g hs }
  unfold scalar1
  rw [issue_runs h hu]
  have hb : s.dev.me.bindingOf s.dev.slot (.g d.toNat) = none := h.unbound _ (by simp)
  simp only [usesDA, List.map_cons, List.map_nil, Context.peek, syncClear_g]
  rw [putG_unbound h.turn _ _ hb]
  exact carryOut_ok h.turn

end Sys2Proof.Machine
end

