-- ==== Sys2Proof/Laws/Memory.lean ====
section
/-! SUPPORT. The laws of memory: a byte, a full bit and a mark read back what an edit wrote and nothing else, and every edit
keeps the canonical form. -/
namespace Sys2Proof.Machine

theorem rising_iff {l : List Nat} : rising l = true ↔ l.Pairwise (· < ·) := by
  induction l with
  | nil => simp [rising]
  | cons a l ih =>
    cases l with
    | nil => simp [rising]
    | cons b l =>
      simp only [rising, Bool.and_eq_true, decide_eq_true_eq, ih, List.pairwise_cons, List.mem_cons]
      constructor
      · rintro ⟨hab, hb, hl⟩
        exact ⟨fun c hc => hc.elim (fun e => e ▸ hab) fun hc => hab.trans (hb c hc), hb, hl⟩
      · rintro ⟨ha, hb, hl⟩
        exact ⟨ha b (.inl rfl), hb, hl⟩

theorem mem_keyAdd {k j : Nat} {l : List Nat} : j ∈ keyAdd k l ↔ j = k ∨ j ∈ l := by
  induction l with
  | nil => simp [keyAdd]
  | cons a l ih =>
    unfold keyAdd
    split
    · rename_i h; subst h; simp
    · split
      · simp
      · simp only [List.mem_cons, ih]; tauto

theorem rising_keyAdd {k : Nat} {l : List Nat} (h : rising l = true) : rising (keyAdd k l) = true := by
  rw [rising_iff] at *
  induction l with
  | nil => simp [keyAdd]
  | cons a l ih =>
    obtain ⟨ha, hl⟩ := List.pairwise_cons.1 h
    unfold keyAdd
    split
    · exact h
    · split
      · exact List.pairwise_cons.2 ⟨fun b hb => (List.mem_cons.1 hb).elim (fun e => e ▸ ‹_›) fun hb => ‹k < a›.trans (ha b hb), h⟩
      · exact List.pairwise_cons.2 ⟨fun b hb => (mem_keyAdd.1 hb).elim (fun e => by omega) (ha b), ih hl⟩

theorem keyDrop_sublist (k : Nat) (l : List Nat) : (keyDrop k l).Sublist l := by
  induction l with
  | nil => exact .slnil
  | cons a l ih =>
    unfold keyDrop
    split
    · exact List.sublist_cons_self a l
    · exact ih.cons_cons a

theorem rising_keyDrop {k : Nat} {l : List Nat} (h : rising l = true) : rising (keyDrop k l) = true :=
  rising_iff.2 ((rising_iff.1 h).sublist (keyDrop_sublist k l))

theorem mem_keyDrop {k j : Nat} {l : List Nat} (h : rising l = true) : j ∈ keyDrop k l ↔ j ≠ k ∧ j ∈ l := by
  rw [rising_iff] at h
  induction l with
  | nil => simp [keyDrop]
  | cons a l ih =>
    obtain ⟨ha, hl⟩ := List.pairwise_cons.1 h
    unfold keyDrop
    split
    · rename_i e
      subst e
      simp only [List.mem_cons]
      constructor
      · intro hj; exact ⟨(ha j hj).ne', .inr hj⟩
      · rintro ⟨hn, hj⟩; exact hj.resolve_left hn
    · rename_i e
      simp only [List.mem_cons, ih hl]
      constructor
      · rintro (rfl | ⟨hn, hj⟩)
        · exact ⟨e, .inl rfl⟩
        · exact ⟨hn, .inr hj⟩
      · rintro ⟨hn, rfl | hj⟩
        · exact .inl rfl
        · exact .inr ⟨hn, hj⟩

theorem keys_cellPut {k j : Nat} {x : Byte} {l : List Host.Cell} (h : j ∈ (cellPut k x l).map Prod.fst) :
    j = k ∨ j ∈ l.map Prod.fst := by
  induction l with
  | nil =>
    unfold cellPut at h
    split at h <;> simp_all
  | cons c l ih =>
    obtain ⟨a, y⟩ := c
    unfold cellPut at h
    split at h
    · split at h
      · exact .inr (List.mem_cons_of_mem _ h)
      · simp_all
    · split at h
      · split at h <;> simp_all
      · rw [List.map_cons, List.mem_cons] at h
        rcases h with h | h
        · exact .inr (h ▸ List.mem_cons_self ..)
        · exact (ih h).imp_right (List.mem_cons_of_mem _)

theorem rising_cellPut {k : Nat} {x : Byte} {l : List Host.Cell} (h : rising (l.map Prod.fst) = true) :
    rising ((cellPut k x l).map Prod.fst) = true := by
  rw [rising_iff] at *
  induction l with
  | nil => unfold cellPut; split <;> simp
  | cons c l ih =>
    obtain ⟨a, y⟩ := c
    obtain ⟨ha, hl⟩ := List.pairwise_cons.1 h
    unfold cellPut
    split
    · rename_i e
      split
      · exact hl
      · exact List.pairwise_cons.2 ⟨fun b hb => e ▸ ha b hb, hl⟩
    · split
      · split
        · exact h
        · refine List.pairwise_cons.2 ⟨fun b hb => ?_, h⟩
          rcases List.mem_cons.1 hb with e | hb
          · rw [e]; assumption
          · exact ‹k < a›.trans (ha b hb)
      · exact List.pairwise_cons.2 ⟨fun b hb => (keys_cellPut hb).elim (fun e => by subst e; simp only; omega) (ha b), ih hl⟩

theorem values_cellPut {k : Nat} {x : Byte} {l : List Host.Cell} (h : ∀ c ∈ l, c.2 ≠ 0) : ∀ c ∈ cellPut k x l, c.2 ≠ 0 := by
  induction l with
  | nil => unfold cellPut; split <;> simp_all
  | cons c l ih =>
    obtain ⟨a, y⟩ := c
    have hy := h (a, y) (by simp)
    have hl : ∀ c ∈ l, c.2 ≠ 0 := fun c hc => h c (by simp [hc])
    unfold cellPut
    split
    · split
      · exact hl
      · intro c hc
        rcases List.mem_cons.1 hc with rfl | hc
        · assumption
        · exact hl c hc
    · split
      · split
        · exact h
        · intro c hc
          rcases List.mem_cons.1 hc with rfl | hc
          · assumption
          · exact h c hc
      · intro c hc
        rcases List.mem_cons.1 hc with rfl | hc
        · exact hy
        · exact ih hl c hc

/-- A byte of a rising list below its first key reads zero. -/
theorem cellAt_below {k : Nat} {l : List Host.Cell} (h : ∀ j ∈ l.map Prod.fst, k < j) : cellAt k l = 0 := by
  cases l with
  | nil => rfl
  | cons c l =>
    have := h c.1 (by simp)
    simp [cellAt, this, this.ne']

theorem cellAt_cellPut {k j : Nat} {x : Byte} {l : List Host.Cell} (h : rising (l.map Prod.fst) = true) :
    cellAt j (cellPut k x l) = if j = k then x else cellAt j l := by
  rw [rising_iff] at h
  induction l with
  | nil =>
    unfold cellPut
    split
    · simp_all [cellAt]
    · simp only [cellAt]
      by_cases hj : j = k
      · simp [hj]
      · simp [hj, Ne.symm hj]
  | cons c l ih =>
    obtain ⟨a, y⟩ := c
    obtain ⟨ha, hl⟩ := List.pairwise_cons.1 h
    have hb : ∀ i : Nat, i ≤ a → cellAt i l = 0 := fun i hi => cellAt_below fun q hq => lt_of_le_of_lt hi (ha q hq)
    unfold cellPut
    split
    · rename_i e
      subst e
      split
      · rename_i hx
        by_cases hj : j = a
        · simp [hj, hx, hb]
        · by_cases hlt : j < a
          · simp [hj, cellAt, Ne.symm hj, hlt, hb j hlt.le]
          · simp [hj, cellAt, Ne.symm hj, hlt]
      · by_cases hj : j = a
        · simp [hj, cellAt]
        · simp [hj, cellAt, Ne.symm hj]
    · rename_i e
      split
      · rename_i hlt
        split
        · rename_i hx
          by_cases hj : j = k
          · subst hj; simp [cellAt, e, hlt, hx]
          · simp [hj]
        · by_cases hj : j = k
          · simp [hj, cellAt]
          · have hne := Ne.symm hj
            by_cases hjk : j < k
            · have hja : j < a := hjk.trans hlt
              simp [hj, cellAt, hne, hjk, hja, hja.ne']
            · simp [hj, cellAt, hne, hjk]
      · rename_i hlt
        simp only [cellAt, ih hl]
        by_cases hj : j = k
        · subst hj; simp [e, hlt]
        · simp [hj]

/-- The three parts of the canonical form. -/
theorem Memory.wf_iff {m : Memory} : m.wf = true ↔ rising (m.cells.map Prod.fst) = true ∧ (∀ c ∈ m.cells, c.2 ≠ 0) ∧
    rising m.empties = true ∧ rising m.poisoned = true := by
  simp [Memory.wf, and_assoc]

theorem rising_filter {l : List Nat} {p : Nat → Bool} (h : rising l = true) : rising (l.filter p) = true :=
  rising_iff.2 ((rising_iff.1 h).sublist List.filter_sublist)

/-- Every edit keeps the canonical form. -/
theorem Memory.edit_wf {m : Memory} (h : m.wf = true) (e : Edit) : (m.edit e).wf = true := by
  rw [Memory.wf_iff] at *
  obtain ⟨h1, h2, h3, h4⟩ := h
  cases e with
  | byte k x => exact ⟨rising_cellPut h1, values_cellPut h2, h3, h4⟩
  | full w b => cases b; exacts [⟨h1, h2, rising_keyAdd h3, h4⟩, ⟨h1, h2, rising_keyDrop h3, h4⟩]
  | poison w b => cases b; exacts [⟨h1, h2, h3, rising_keyDrop h4⟩, ⟨h1, h2, h3, rising_keyAdd h4⟩]
  | clear lo hi =>
    exact ⟨rising_iff.2 ((rising_iff.1 h1).sublist (List.filter_sublist.map _)), fun c hc => h2 c (List.mem_filter.1 hc).1,
      rising_filter h3, rising_filter h4⟩

/-- Any number of edits keep the canonical form. -/
theorem Memory.apply_wf {m : Memory} (h : m.wf = true) (es : List Edit) : (m.apply es).wf = true := by
  induction es generalizing m with
  | nil => exact h
  | cons e es ih => exact ih (Memory.edit_wf h e)

/-- Memory after reset has the canonical form. -/
theorem State.reset_mem_wf : State.reset.mem.wf = true := by decide

@[simp] theorem Memory.apply_nil (m : Memory) : m.apply [] = m := rfl
@[simp] theorem Memory.apply_cons (m : Memory) (e : Edit) (es : List Edit) : m.apply (e :: es) = (m.edit e).apply es := rfl
theorem Memory.apply_append (m : Memory) (a b : List Edit) : m.apply (a ++ b) = (m.apply a).apply b := List.foldl_append ..

/-- A byte reads what was put there, and every other byte what it held. -/
theorem Memory.byte_edit_byte {m : Memory} (h : m.wf = true) (k j : Nat) (x : Byte) :
    (m.edit (.byte k x)).byte j = if j = k then x else m.byte j :=
  cellAt_cellPut (Memory.wf_iff.1 h).1

@[simp] theorem Memory.byte_edit_full (m : Memory) (w j : Nat) (b : Bool) : (m.edit (.full w b)).byte j = m.byte j := by cases b <;> rfl
@[simp] theorem Memory.byte_edit_poison (m : Memory) (w j : Nat) (b : Bool) : (m.edit (.poison w b)).byte j = m.byte j := by cases b <;> rfl
@[simp] theorem Memory.isFull_edit_byte (m : Memory) (k j : Nat) (x : Byte) : (m.edit (.byte k x)).isFull j = m.isFull j := rfl
@[simp] theorem Memory.isFull_edit_poison (m : Memory) (w j : Nat) (b : Bool) : (m.edit (.poison w b)).isFull j = m.isFull j := by
  cases b <;> rfl
@[simp] theorem Memory.isPoisoned_edit_byte (m : Memory) (k j : Nat) (x : Byte) : (m.edit (.byte k x)).isPoisoned j = m.isPoisoned j := rfl
@[simp] theorem Memory.isPoisoned_edit_full (m : Memory) (w j : Nat) (b : Bool) : (m.edit (.full w b)).isPoisoned j = m.isPoisoned j := by
  cases b <;> rfl

/-- A full bit reads what was set, and every other one what it was. -/
theorem Memory.isFull_edit_full {m : Memory} (h : m.wf = true) (w j : Nat) (b : Bool) :
    (m.edit (.full w b)).isFull j = if j / 8 = w then b else m.isFull j := by
  have hr := (Memory.wf_iff.1 h).2.2.1
  have e : ∀ l : List Nat, (!(l.contains (j / 8))) = decide (j / 8 ∉ l) := by intro l; simp
  cases b
  · simp only [Memory.edit, Memory.isFull, e, mem_keyAdd]; split <;> simp_all
  · simp only [Memory.edit, Memory.isFull, e, mem_keyDrop hr]; split <;> simp_all

/-- A mark of poison reads what was set, and every other one what it was. -/
theorem Memory.isPoisoned_edit_poison {m : Memory} (h : m.wf = true) (w j : Nat) (b : Bool) :
    (m.edit (.poison w b)).isPoisoned j = if j / 8 = w then b else m.isPoisoned j := by
  have hr := (Memory.wf_iff.1 h).2.2.2
  have e : ∀ l : List Nat, (l.contains (j / 8)) = decide (j / 8 ∈ l) := by intro l; simp
  cases b
  · simp only [Memory.edit, Memory.isPoisoned, e, mem_keyDrop hr]; split <;> simp_all
  · simp only [Memory.edit, Memory.isPoisoned, e, mem_keyAdd]; split <;> simp_all

/-- Storing leaves every byte outside its range alone. -/
theorem Memory.byte_store_outside {m : Memory} (h : m.wf = true) (k n x j : Nat) (hj : j < k ∨ k + n ≤ j) :
    (m.apply (storeEdits k n x)).byte j = m.byte j := by
  induction n generalizing m k x with
  | zero => rfl
  | succ n ih =>
    rw [storeEdits, Memory.apply_cons, ih (Memory.edit_wf h _) (k + 1) _ (by omega), Memory.byte_edit_byte h, if_neg (by omega)]

/-- Storing puts byte i of the value at the i-th place of its range. -/
theorem Memory.byte_store_inside {m : Memory} (h : m.wf = true) (k n x i : Nat) (hi : i < n) :
    (m.apply (storeEdits k n x)).byte (k + i) = BitVec.ofNat 8 (x / 256 ^ i) := by
  induction n generalizing m k x i with
  | zero => omega
  | succ n ih =>
    rw [storeEdits, Memory.apply_cons]
    cases i with
    | zero => rw [Memory.byte_store_outside (Memory.edit_wf h _) _ _ _ _ (by omega), Memory.byte_edit_byte h]; simp
    | succ i =>
      rw [show k + (i + 1) = k + 1 + i by omega, ih (Memory.edit_wf h _) _ _ _ (by omega), Nat.div_div_eq_div_mul, pow_succ']

/-- A store changes no full bit and no mark of poison. -/
@[simp] theorem Memory.isFull_store (m : Memory) (k n x j : Nat) : (m.apply (storeEdits k n x)).isFull j = m.isFull j := by
  induction n generalizing m k x with
  | zero => rfl
  | succ n ih => rw [storeEdits, Memory.apply_cons, ih, Memory.isFull_edit_byte]
@[simp] theorem Memory.isPoisoned_store (m : Memory) (k n x j : Nat) :
    (m.apply (storeEdits k n x)).isPoisoned j = m.isPoisoned j := by
  induction n generalizing m k x with
  | zero => rfl
  | succ n ih => rw [storeEdits, Memory.apply_cons, ih, Memory.isPoisoned_edit_byte]

/-- Reading the value just stored. -/
theorem Memory.nat_store {m : Memory} (h : m.wf = true) (k n x : Nat) :
    (m.apply (storeEdits k n x)).nat k n = x % 256 ^ n := by
  have key : ∀ (p q : Nat) (f : Memory), (∀ i < p, f.byte (q + i) = BitVec.ofNat 8 (x / 256 ^ (n - p + i))) → p ≤ n →
      f.nat q p = x / 256 ^ (n - p) % 256 ^ p := by
    intro p
    induction p with
    | zero => intro q f _ _; simp [Memory.nat, Nat.mod_one]
    | succ p ih =>
      intro q f hf hp
      have h0 := hf 0 (by omega)
      rw [Memory.nat, ih (q + 1) f (fun i hi => by
        have := hf (i + 1) (by omega)
        rw [show q + 1 + i = q + (i + 1) by omega, this, show n - (p + 1) + (i + 1) = n - p + i by omega]) (by omega)]
      simp only [Nat.add_zero] at h0
      rw [h0, BitVec.toNat_ofNat, show n - p = n - (p + 1) + 1 by omega, pow_succ 256 (n - (p + 1)), ← Nat.div_div_eq_div_mul,
        pow_succ' 256 p, Nat.mod_mul]
  simpa using key n k _ (fun i hi => by simpa using Memory.byte_store_inside h k n x i hi) le_rfl

end Sys2Proof.Machine
end

