-- ==== Sys2Proof/Laws/Outcome.lean ====
section
/-! SUPPORT. What the shared operations of an instruction can do, said once each: a step ends in a state whose memory is the
old memory after edits; the checks of R89 either pass or leave memory alone; a trap enters its handler or stops its context. -/
namespace Sys2Proof.Machine

/-- The outcome is a next state whose memory is this one after edits. -/
def Goes (s : State) (o : Out) : Prop := ∃ d es, o = .next ⟨s.mem.apply es, d⟩

theorem conclude_goes (s : State) (d : Device) (es : List Edit) : Goes s (conclude s d es) := ⟨d, es, rfl⟩

theorem Work.finish_goes (s : State) (w : Work) : Goes s (w.finish s) := conclude_goes s _ _

theorem finishEdits_goes (s : State) (d : Device) (es : List Edit) : Goes s (finishEdits s d es) := by
  cases es
  · exact conclude_goes s d []
  · exact Work.finish_goes s _

theorem poisonHere_goes (s : State) (d : Device) (x : Context) (v : Word) (n : Nat) (a : Word) :
    Goes s (poisonHere s d x v n a) :=
  Work.finish_goes s _

/-- Whatever its body decided, an instruction ends in a next state. -/
theorem carryOut_goes (s : State) (d : Device) (x : Context) (len : Word) (ts : List Taken) (ds : List Reg) (v : Verdict) :
    Goes s (carryOut s d x len ts ds v) := by
  match v with
  | .trap c v => simp only [carryOut]; split <;> first | exact poisonHere_goes .. | exact conclude_goes ..
  | .poison v key => exact poisonHere_goes ..
  | .stall => exact conclude_goes ..
  | .pause => exact conclude_goes ..
  | .retry => exact conclude_goes ..
  | .sweep cls addr need => simp only [carryOut]; split <;> exact conclude_goes ..
  | .ship die line =>
    simp only [carryOut]
    split
    · exact conclude_goes ..
    · split <;> exact conclude_goes ..
  | .wait asleep kind dest d es => simp only [carryOut]; split <;> first | exact conclude_goes .. | exact finishEdits_goes ..
  | .done d es jump pend => exact finishEdits_goes ..
  | .over d es => exact finishEdits_goes ..

/-- An instruction of run-ahead leaves memory as it is (R354). -/
theorem aheadIssue_mem (s : State) (x : Context) (i : Instr) (u : Uses) (body : Device → Context → List Val → Verdict) :
    ∃ d, aheadIssue s x i u body = .next ⟨s.mem, d⟩ := by
  unfold aheadIssue
  split
  · split
    · exact ⟨_, rfl⟩
    · exact ⟨_, rfl⟩
  · exact ⟨_, rfl⟩

theorem aheadIssue_goes (s : State) (x : Context) (i : Instr) (u : Uses) (body : Device → Context → List Val → Verdict) :
    Goes s (aheadIssue s x i u body) := by
  obtain ⟨d, h⟩ := aheadIssue_mem s x i u body
  exact ⟨d, [], h⟩

/-- An issue ends in a next state, whatever the state and the body. -/
theorem issue_goes (s : State) (i : Instr) (u : Uses) (body : Device → Context → List Val → Verdict) :
    Goes s (issue s i u body) := by
  unfold issue
  split
  · exact conclude_goes ..
  · split
    · exact aheadIssue_goes ..
    · simp only
      split
      · exact conclude_goes ..
      · split
        · exact conclude_goes ..
        · split
          · exact conclude_goes ..
          · split
            · exact poisonHere_goes ..
            · split
              · exact conclude_goes ..
              · exact carryOut_goes ..

/-- A step that goes on keeps the canonical form of memory. -/
theorem Goes.keeps_form {s t : State} {o : Out} (h : Goes s o) (wf : s.mem.wf = true) (ho : o = .next t) :
    t.mem.wf = true := by
  obtain ⟨d, es, rfl⟩ := h
  cases ho
  exact Memory.apply_wf wf es

/-- An instruction one of whose checks fails leaves memory as it is. -/
theorem issue_checked {s : State} {x : Context} {i : Instr} {u : Uses} {body : Device → Context → List Val → Verdict} {d : Device}
    (h : s.dev.cur = some x) (hx : x.issues = true) (hd : precheck s.dev x i u = some d) :
    issue s i u body = .next ⟨s.mem, d⟩ := by
  simp [issue, h, hx, hd, conclude]

/-- A turn whose context is not there, or can neither issue nor run ahead, changes nothing (R13). -/
theorem issue_idle {s : State} {i : Instr} {u : Uses} {body : Device → Context → List Val → Verdict}
    (h : ∀ x, s.dev.cur = some x → x.issues = false ∧ ∀ c a n q, x.phase ≠ .faulted c a n q) : issue s i u body = .next s := by
  unfold issue
  cases hc : s.dev.cur with
  | none => rfl
  | some x =>
    obtain ⟨h1, h2⟩ := h x hc
    simp only [h1, Bool.not_false, if_true]
    unfold aheadIssue
    split
    · rename_i hp
      exact absurd hp (h2 _ _ _ _)
    · rfl

/-- A trap with nothing awaited, in a context with a handler that does not run: the trap registers are written and the program
goes on at the handler (R119). -/
theorem takeTrap_handler {d : Device} {c slot : Nat} {x : Context} {cause : BitVec 8} {val pc : Word}
    (h : d.ctxAt c slot = some x) (hp : x.awaits = false) (hv : x.regs.sys.trapvec ≠ 0) (hi : x.regs.sys.inh = false) :
    takeTrap d c slot cause val pc = (d.onCore c fun k => { k with overdue := k.overdue.filter (· != slot) }).setCtx c slot
      { x with
        regs := { x.regs with
          pc := x.regs.sys.trapvec
          sys := { x.regs.sys with trapcause := cause, trappc := pc, trapval := val, inh := true } }
        pending := []
        stallSince := none
        stalled := false
        taken := []
        fence := none
        phase := .ready } := by
  simp only [takeTrap, h, hp, enterTrap, hv, hi]
  simp [Context.onSys, Context.setPc]

/-- A trap while results are awaited waits for them; its cause, value and pc are kept (R25, R119). -/
theorem takeTrap_waits {d : Device} {c slot : Nat} {x : Context} {cause : BitVec 8} {val pc : Word}
    (h : d.ctxAt c slot = some x) (hp : x.awaits = true) :
    takeTrap d c slot cause val pc = d.setCtx c slot 
      { x with phase := .trapping cause val pc, stallSince := none, stalled := false, taken := [], fence := none } := by
  simp [takeTrap, h, hp]

/-- The return from a trap: the program goes on at TRAPPC and a trap can be taken again (R120). -/
theorem returnTrap_regs (x : Context) :
    (returnTrap x).regs = { x.regs with pc := x.regs.sys.trappc, sys := { x.regs.sys with inh := false } } := rfl

end Sys2Proof.Machine
end

