-- ==== Sys2Proof/Tests/Slice0.lean ====
section
/-! SUPPORT. The model's own tests: the checks of WellFormed, words of the spec, one step of each kind of instruction, and for every
statement of the certificates a concrete state that meets its hypotheses. -/
namespace Sys2Proof.Tests
set_option Elab.async false
open Sys2Proof.Machine Sys2Proof.Claims

/-- A context with whole register windows, at address 0. -/
def whole : Context := { gCount := 128, vCount := 64 }
/-- The same with a trap handler. -/
def handled : Context := whole.onSys fun r => { r with trapvec := 0x1000 }
/-- A context with a full scalar register. -/
def holding (n : Nat) (w : Word) (x : Context := whole) : Context := x.putG n ⟨w, true, false⟩
/-- Core 0 with a context in slot 0. -/
def coreWith (x : Context) : Core := ({} : Core).setCtx 0 (some x)
/-- The state after reset with a core 0. -/
def ofCore (k : Core) : State := { mem := {}, dev := { cores := [(0, k)] } }
/-- The state after reset with a context in slot 0 of core 0, whose turn it is. -/
def one (x : Context) : State := ofCore (coreWith x)
/-- A state with a page table that maps page 0, and a context in slot 0 of core 0. -/
def mapped (x : Context) : State :=
  let s := State.reset.withFetchWord 32 0
  { s with dev := s.dev.setCtx 0 0 x }

/-- What `CanIssue` asks of the registers, as a check. -/
def issuable (s : State) (x : Context) (reads uses : List Reg) : Bool :=
  x.pending.all (fun p => p.left != 0 || p.arrived) &&
  uses.all (fun r => x.inWindow r) && x.pending.all (fun p => p.left == 0 || uses.all fun r => !p.dests.contains r) &&
  uses.all (fun r => (s.dev.me.bindingOf s.dev.slot r).isNone) && reads.all (fun r => !x.poisonedReg r) &&
  s.dev.me.reductions.all (fun q => !q.holds x s.dev.slot)

theorem canIssue_of {s : State} {x : Context} {reads uses : List Reg} (h : issuable s x reads uses = true)
    (h1 : s.dev.cur = some x := by rfl) (h2 : x.phase = .ready := by rfl) : CanIssue s x reads uses := by
  simp only [issuable, Bool.and_eq_true, List.all_eq_true, Bool.or_eq_true, Bool.not_eq_true', bne_iff_ne,
    beq_iff_eq, Option.isNone_iff_eq_none, List.contains_eq_mem, decide_eq_false_iff_not] at h
  obtain ⟨⟨⟨⟨⟨h3, h4⟩, h5⟩, h6⟩, h7⟩, h8⟩ := h
  refine ⟨h1, h2, fun p hp hl => ?_, h4, fun p hp hl r hr => ?_, h6, h7, h8⟩
  · exact (h3 p hp).resolve_left (by simp [hl])
  · rcases h5 p hp with h | h
    · omega
    · exact h r hr

/-- What `Settled` asks, as a check. -/
def settles (s : State) (x : Context) : Bool :=
  (x.pending.all fun p => !p.mayFault || p.arrived) &&
  (s.dev.accesses.all fun a => a.core != s.dev.core || a.slot != s.dev.slot || a.tid != x.tid || (a.passed && a.fault.isNone)) &&
  !relOpen s.dev s.dev.core s.dev.slot x

theorem settled_of {s : State} {x : Context} (h : settles s x = true) : Settled s x := by
  simp only [settles, Bool.and_eq_true, List.all_eq_true, Bool.or_eq_true, Bool.not_eq_true', bne_iff_ne,
    Option.isNone_iff_eq_none] at h
  obtain ⟨⟨h1, h2⟩, h3⟩ := h
  refine ⟨fun p hp hm => (h1 p hp).resolve_left (by simp [hm]), fun a ha hc hs ht => ?_, h3⟩
  rcases h2 a ha with ((h | h) | h) | h
  · exact absurd hc h
  · exact absurd hs h
  · exact absurd ht h
  · exact h

theorem canTakeG_of {x : Context} {a : BitVec 7} (h : (x.getG a.toNat).full = true) (sa : Bool) : x.canTakeG sa a := fun _ => h

theorem canTakeV_of {x : Context} {a : Nat} (h : (x.getV a).full = true) (sa : Bool) : x.canTakeV sa a := fun _ => h

/-- Whether an outcome is a next state. -/
def goes (o : Out) : Bool :=
  match o with
  | .next _ => true
  | _ => false

theorem goes_of {o : Out} (h : goes o = true) : ∃ t, o = .next t := by
  cases o with
  | next t => exact ⟨t, rfl⟩
  | fault f => simp [goes] at h
  | refused r => simp [goes] at h

/-! Words of every instruction, put together field by field as R74 lays the formats out and with the numbers of R77 to R80; fields are
distinct, so that no two can be exchanged. -/

/-- The formats of R74. -/
def rWord (sa fn b a d op : Nat) : Nat := sa * 2^31 + fn * 2^28 + b * 2^21 + a * 2^14 + d * 2^7 + op * 2 + 1
def iWord (sa imm a d op : Nat) : Nat := sa * 2^31 + imm * 2^21 + a * 2^14 + d * 2^7 + op * 2 + 1
def uWord (imm d op : Nat) : Nat := imm * 2^14 + d * 2^7 + op * 2 + 1
def jWord (off a b op : Nat) : Nat := off * 2^21 + a * 2^14 + b * 2^7 + op * 2 + 1
def mWord (la sc str wx a d op : Nat) : Nat := la * 2^28 + sc * 2^26 + str * 2^25 + wx * 2^21 + a * 2^14 + d * 2^7 + op * 2 + 1
def mbWord (la b a d op : Nat) : Nat := la * 2^28 + b * 2^21 + a * 2^14 + d * 2^7 + op * 2 + 1
def sWord (sys a d op : Nat) : Nat := sys * 2^21 + a * 2^14 + d * 2^7 + op * 2 + 1
def cWord (s d op4 : Nat) : Nat := s * 2^11 + d * 2^5 + op4 * 2

theorem test_decode_c16 :
    decodeTableWord 16 (cWord 2 3 0) = some (.vmov 2 3) ∧
    decodeTableWord 16 (cWord 2 3 1) = some (.vaddC16 2 3) ∧
    decodeTableWord 16 (cWord 2 3 2) = some (.vsubC16 2 3) ∧
    decodeTableWord 16 (cWord 2 3 3) = some (.vmulC16 2 3) ∧
    decodeTableWord 16 (cWord 2 3 4) = some (.vminC16 2 3) ∧
    decodeTableWord 16 (cWord 2 3 5) = some (.vmaxC16 2 3) ∧
    decodeTableWord 16 (cWord 2 3 6) = some (.vandC16 2 3) ∧
    decodeTableWord 16 (cWord 2 3 7) = some (.vorC16 2 3) ∧
    decodeTableWord 16 (cWord 2 3 8) = some (.vxorC16 2 3) ∧
    decodeTableWord 16 (cWord 2 3 9) = some (.vshlC16 2 3) ∧
    decodeTableWord 16 (cWord 2 3 10) = some (.vsrlC16 2 3) ∧
    decodeTableWord 16 (cWord 2 3 11) = some (.vsraC16 2 3) ∧
    decodeTableWord 16 (cWord 2 3 12) = some (.vneg 2 3) ∧
    decodeTableWord 16 (cWord 2 3 13) = some (.vabs 2 3) ∧
    decodeTableWord 16 (cWord 2 3 14) = some (.vreluC16 2 3) ∧
    decodeTableWord 16 (cWord 2 3 15) = some (.vswap 2 3) :=
  ⟨rfl, rfl, rfl, rfl, rfl, rfl, rfl, rfl, rfl, rfl, rfl, rfl, rfl, rfl, rfl, rfl⟩

theorem test_decode_integers :
    decodeTableWord 32 (rWord 1 0 1 2 3 1) = some (.add true 1 2 3) ∧
    decodeTableWord 32 (rWord 1 1 1 2 3 1) = some (.sub true 1 2 3) ∧
    decodeTableWord 32 (rWord 1 2 1 2 3 1) = some (.and true 1 2 3) ∧
    decodeTableWord 32 (rWord 1 3 1 2 3 1) = some (.or true 1 2 3) ∧
    decodeTableWord 32 (rWord 1 4 1 2 3 1) = some (.xor true 1 2 3) ∧
    decodeTableWord 32 (rWord 1 5 1 2 3 1) = some (.sll true 1 2 3) ∧
    decodeTableWord 32 (rWord 1 6 1 2 3 1) = some (.srl true 1 2 3) ∧
    decodeTableWord 32 (rWord 1 7 1 2 3 1) = some (.sra true 1 2 3) ∧
    decodeTableWord 32 (rWord 1 0 1 2 3 2) = some (.addw true 1 2 3) ∧
    decodeTableWord 32 (rWord 1 1 1 2 3 2) = some (.subw true 1 2 3) ∧
    decodeTableWord 32 (rWord 1 2 1 2 3 2) = some (.sllw true 1 2 3) ∧
    decodeTableWord 32 (rWord 1 3 1 2 3 2) = some (.srlw true 1 2 3) ∧
    decodeTableWord 32 (rWord 1 4 1 2 3 2) = some (.sraw true 1 2 3) ∧
    decodeTableWord 32 (rWord 1 5 1 2 3 2) = some (.slt true 1 2 3) ∧
    decodeTableWord 32 (rWord 1 6 1 2 3 2) = some (.sltu true 1 2 3) ∧
    decodeTableWord 32 (rWord 1 7 1 2 3 2) = some (.andn true 1 2 3) ∧
    decodeTableWord 32 (rWord 1 0 1 2 3 3) = some (.min true 1 2 3) ∧
    decodeTableWord 32 (rWord 1 1 1 2 3 3) = some (.max true 1 2 3) ∧
    decodeTableWord 32 (rWord 1 2 1 2 3 3) = some (.minu true 1 2 3) ∧
    decodeTableWord 32 (rWord 1 3 1 2 3 3) = some (.maxu true 1 2 3) ∧
    decodeTableWord 32 (rWord 1 4 0 2 3 3) = some (.clz true 2 3) ∧
    decodeTableWord 32 (rWord 1 5 0 2 3 3) = some (.ctz true 2 3) ∧
    decodeTableWord 32 (rWord 1 6 0 2 3 3) = some (.popc true 2 3) ∧
    decodeTableWord 32 (rWord 1 7 0 2 3 3) = some (.brev true 2 3) ∧
    decodeTableWord 32 (rWord 1 0 1 2 3 4) = some (.mul true 1 2 3) ∧
    decodeTableWord 32 (rWord 1 1 1 2 3 4) = some (.mulh true 1 2 3) ∧
    decodeTableWord 32 (rWord 1 2 1 2 3 4) = some (.mulhu true 1 2 3) ∧
    decodeTableWord 32 (rWord 1 3 1 2 3 4) = some (.mulw true 1 2 3) ∧
    decodeTableWord 32 (rWord 1 4 0 2 3 4) = some (.sexb true 2 3) ∧
    decodeTableWord 32 (rWord 1 5 0 2 3 4) = some (.sexh true 2 3) ∧
    decodeTableWord 32 (rWord 1 6 0 2 3 4) = some (.sexw true 2 3) ∧
    decodeTableWord 32 (rWord 1 7 0 2 3 4) = some (.zexw true 2 3) :=
  ⟨rfl, rfl, rfl, rfl, rfl, rfl, rfl, rfl, rfl, rfl, rfl, rfl, rfl, rfl, rfl, rfl, rfl, rfl, rfl, rfl, rfl, rfl, rfl, rfl, rfl, rfl, rfl, rfl, rfl, rfl, rfl, rfl⟩

theorem test_decode_immediates_and_jumps :
    decodeTableWord 32 (iWord 1 512 2 3 5) = some (.addi true 512 2 3) ∧
    decodeTableWord 32 (iWord 1 512 2 3 6) = some (.andi true 512 2 3) ∧
    decodeTableWord 32 (iWord 1 512 2 3 7) = some (.ori true 512 2 3) ∧
    decodeTableWord 32 (iWord 1 512 2 3 8) = some (.xori true 512 2 3) ∧
    decodeTableWord 32 (iWord 1 512 2 3 10) = some (.slti true 512 2 3) ∧
    decodeTableWord 32 (iWord 1 512 2 3 11) = some (.sltiu true 512 2 3) ∧
    decodeTableWord 32 (iWord 1 512 2 3 15) = some (.jalr true 512 2 3) ∧
    decodeTableWord 32 (iWord 1 (0 * 2^7 + 63) 2 3 9) = some (.slli true 63 2 3) ∧
    decodeTableWord 32 (iWord 1 (1 * 2^7 + 63) 2 3 9) = some (.srli true 63 2 3) ∧
    decodeTableWord 32 (iWord 1 (2 * 2^7 + 63) 2 3 9) = some (.srai true 63 2 3) ∧
    decodeTableWord 32 (iWord 1 (3 * 2^7 + 31) 2 3 9) = some (.sllwi true 31 2 3) ∧
    decodeTableWord 32 (iWord 1 (4 * 2^7 + 31) 2 3 9) = some (.srlwi true 31 2 3) ∧
    decodeTableWord 32 (iWord 1 (5 * 2^7 + 31) 2 3 9) = some (.srawi true 31 2 3) ∧
    decodeTableWord 32 (uWord 0x20001 3 12) = some (.lui 0x20001 3) ∧
    decodeTableWord 32 (uWord 0x20001 3 13) = some (.auipc 0x20001 3) ∧
    decodeTableWord 32 (uWord 0x20001 3 14) = some (.jal 0x20001 3) ∧
    decodeTableWord 32 (jWord 0x401 2 1 16) = some (.beq 0x401 2 1) ∧
    decodeTableWord 32 (jWord 0x401 2 1 17) = some (.bne 0x401 2 1) ∧
    decodeTableWord 32 (jWord 0x401 2 1 18) = some (.blt 0x401 2 1) ∧
    decodeTableWord 32 (jWord 0x401 2 1 19) = some (.bge 0x401 2 1) ∧
    decodeTableWord 32 (jWord 0x401 2 1 20) = some (.bltu 0x401 2 1) ∧
    decodeTableWord 32 (jWord 0x401 2 1 21) = some (.bgeu 0x401 2 1) ∧
    decodeTableWord 32 (mbWord 9 1 2 3 22) = some (.div 9 1 2 3) ∧
    decodeTableWord 32 (mbWord 9 1 2 3 23) = some (.divu 9 1 2 3) ∧
    decodeTableWord 32 (mbWord 9 1 2 3 24) = some (.rem 9 1 2 3) ∧
    decodeTableWord 32 (mbWord 9 1 2 3 25) = some (.remu 9 1 2 3) :=
  ⟨rfl, rfl, rfl, rfl, rfl, rfl, rfl, rfl, rfl, rfl, rfl, rfl, rfl, rfl, rfl, rfl, rfl, rfl, rfl, rfl, rfl, rfl, rfl, rfl, rfl, rfl⟩

theorem test_decode_loads_and_stores :
    decodeTableWord 32 (mWord 9 2 1 0 2 3 26) = some (.lb 9 2 true 2 3) ∧
    decodeTableWord 32 (mWord 9 2 1 1 2 3 26) = some (.lbz 9 2 true 2 3) ∧
    decodeTableWord 32 (mWord 9 2 1 2 2 3 26) = some (.lh 9 2 true 2 3) ∧
    decodeTableWord 32 (mWord 9 2 1 3 2 3 26) = some (.lhz 9 2 true 2 3) ∧
    decodeTableWord 32 (mWord 9 2 1 4 2 3 26) = some (.lw 9 2 true 2 3) ∧
    decodeTableWord 32 (mWord 9 2 1 5 2 3 26) = some (.lwz 9 2 true 2 3) ∧
    decodeTableWord 32 (mWord 9 2 1 6 2 3 26) = some (.ld 9 2 true 2 3) ∧
    decodeTableWord 32 (mWord 9 2 1 7 2 3 26) = some (.lv 9 2 true 2 3) ∧
    decodeTableWord 32 (mWord 9 2 1 8 2 3 26) = some (.lvS32 9 2 true 2 3) ∧
    decodeTableWord 32 (mWord 9 2 1 9 2 3 26) = some (.lvZ32 9 2 true 2 3) ∧
    decodeTableWord 32 (mWord 9 2 1 10 2 3 26) = some (.lvF32 9 2 true 2 3) ∧
    decodeTableWord 32 (mWord 9 2 1 11 2 3 26) = some (.lvBf16 9 2 true 2 3) ∧
    decodeTableWord 32 (mWord 9 2 1 12 2 3 26) = some (.lvF16 9 2 true 2 3) ∧
    decodeTableWord 32 (mWord 9 2 1 13 2 3 26) = some (.lvS8 9 2 true 2 3) ∧
    decodeTableWord 32 (mWord 9 2 1 14 2 3 26) = some (.lvZ8 9 2 true 2 3) ∧
    decodeTableWord 32 (mWord 9 2 1 15 2 3 26) = some (.lvSp32 9 2 true 2 3) ∧
    decodeTableWord 32 (mWord 0 2 1 0 2 3 27) = some (.sb 2 true 2 3) ∧
    decodeTableWord 32 (mWord 0 2 1 1 2 3 27) = some (.sh 2 true 2 3) ∧
    decodeTableWord 32 (mWord 0 2 1 2 2 3 27) = some (.sw 2 true 2 3) ∧
    decodeTableWord 32 (mWord 0 2 1 3 2 3 27) = some (.sd 2 true 2 3) ∧
    decodeTableWord 32 (mWord 0 2 1 4 2 3 27) = some (.sv 2 true 2 3) ∧
    decodeTableWord 32 (mbWord 9 1 2 3 28) = some (.lvsE4 9 1 2 3) ∧
    decodeTableWord 32 (mbWord 9 1 2 3 29) = some (.lvsE5 9 1 2 3) ∧
    decodeTableWord 32 (mbWord 0 1 2 3 30) = some (.svs 1 2 3) ∧
    decodeTableWord 32 (mbWord 9 1 2 3 31) = some (.ldx 9 1 2 3) ∧
    decodeTableWord 32 (mbWord 9 1 2 3 36) = some (.tld 9 1 2 3) ∧
    decodeTableWord 32 (mbWord 0 1 2 3 37) = some (.tst 1 2 3) ∧
    decodeTableWord 32 (mWord 9 2 0 1 2 3 32) = some (.ldf 9 2 false true 2 3) ∧
    decodeTableWord 32 (mWord 9 2 0 2 2 3 32) = some (.ldf 9 2 true false 2 3) ∧
    decodeTableWord 32 (mWord 0 2 0 1 2 3 33) = some (.stf 2 true 2 3) ∧
    decodeTableWord 32 (mWord 0 2 0 0 2 3 33) = some (.stf 2 false 2 3) :=
  ⟨rfl, rfl, rfl, rfl, rfl, rfl, rfl, rfl, rfl, rfl, rfl, rfl, rfl, rfl, rfl, rfl, rfl, rfl, rfl, rfl, rfl, rfl, rfl, rfl, rfl, rfl, rfl, rfl, rfl, rfl, rfl⟩

theorem test_decode_atomics_and_caches :
    decodeTableWord 32 (mWord 9 2 1 0 2 3 34) = some (.amoSwap 9 2 true 2 3) ∧
    decodeTableWord 32 (mWord 9 2 1 1 2 3 34) = some (.amoAdd 9 2 true 2 3) ∧
    decodeTableWord 32 (mWord 9 2 1 2 2 3 34) = some (.amoAnd 9 2 true 2 3) ∧
    decodeTableWord 32 (mWord 9 2 1 3 2 3 34) = some (.amoOr 9 2 true 2 3) ∧
    decodeTableWord 32 (mWord 9 2 1 4 2 3 34) = some (.amoXor 9 2 true 2 3) ∧
    decodeTableWord 32 (mWord 9 2 1 5 2 3 34) = some (.amoMin 9 2 true 2 3) ∧
    decodeTableWord 32 (mWord 9 2 1 6 2 3 34) = some (.amoMax 9 2 true 2 3) ∧
    decodeTableWord 32 (mWord 9 2 1 7 2 3 34) = some (.amoMinu 9 2 true 2 3) ∧
    decodeTableWord 32 (mWord 9 2 1 8 2 3 34) = some (.amoMaxu 9 2 true 2 3) ∧
    decodeTableWord 32 (mWord 9 2 1 9 2 3 34) = some (.amoCas 9 2 true 2 3) ∧
    decodeTableWord 32 (iWord 0 (0 * 4 + 2) 0 0 35) = some (.fenceFull 2) ∧
    decodeTableWord 32 (iWord 0 (1 * 4 + 2) 0 0 35) = some (.fenceAcq 2) ∧
    decodeTableWord 32 (iWord 0 (2 * 4 + 2) 0 0 35) = some (.fenceRel 2) ∧
    decodeTableWord 32 (iWord 0 (3 * 4 + 2) 0 0 35) = some (.fenceEngine 2) ∧
    decodeTableWord 32 (iWord 0 (4 * 4 + 2) 0 0 35) = some (.fenceStrings 2) ∧
    decodeTableWord 32 (mWord 0 2 0 0 2 3 38) = some (.marm 2 2 3) ∧
    decodeTableWord 32 (mWord 0 0 0 1 0 0 38) = some (.marmOff) ∧
    decodeTableWord 32 (rWord 1 0 0 2 0 39) = some (.flush true 2) ∧
    decodeTableWord 32 (rWord 1 1 0 2 0 39) = some (.clean true 2) ∧
    decodeTableWord 32 (rWord 1 2 0 2 0 39) = some (.inval true 2) ∧
    decodeTableWord 32 (rWord 1 3 0 2 0 39) = some (.pref true 2) ∧
    decodeTableWord 32 (rWord 1 4 1 2 0 39) = some (.tlbinv true 1 2) ∧
    decodeTableWord 32 (rWord 0 5 0 0 3 39) = some (.tlbsync 3) ∧
    decodeTableWord 32 (rWord 1 6 1 2 3 39) = some (.migr true 1 2 3) ∧
    decodeTableWord 32 (rWord 1 7 0 2 3 39) = some (.tdreg true 2 3) :=
  ⟨rfl, rfl, rfl, rfl, rfl, rfl, rfl, rfl, rfl, rfl, rfl, rfl, rfl, rfl, rfl, rfl, rfl, rfl, rfl, rfl, rfl, rfl, rfl, rfl, rfl⟩

theorem test_decode_system_and_waits :
    decodeTableWord 32 (sWord 0x13 0 3 40) = some (.mfs 0x13 3) ∧
    decodeTableWord 32 (sWord 0x7FF 0 3 40) = some (.mfs 0x7FF 3) ∧
    decodeTableWord 32 (sWord 0x12 2 0 41) = some (.mts 0x12 2) ∧
    decodeTableWord 32 (rWord 0 0 0 0 0 42) = some (.ecall) ∧
    decodeTableWord 32 (rWord 0 1 0 0 0 42) = some (.brk) ∧
    decodeTableWord 32 (rWord 0 2 0 0 0 42) = some (.rett) ∧
    decodeTableWord 32 (rWord 0 3 0 0 0 42) = some (.halt) ∧
    decodeTableWord 32 (rWord 0 4 0 0 0 42) = some (.yield) ∧
    decodeTableWord 32 (rWord 1 0 0 2 3 43) = some (.waitc true 2 3) ∧
    decodeTableWord 32 (rWord 1 1 0 2 3 43) = some (.waitw true 2 3) ∧
    decodeTableWord 32 (rWord 0 2 0 0 3 43) = some (.sleepm 3) ∧
    decodeTableWord 32 (rWord 1 3 0 2 3 43) = some (.waitk true 2 3) ∧
    decodeTableWord 32 (rWord 1 4 0 2 3 43) = some (.rdres true 2 3) :=
  ⟨rfl, rfl, rfl, rfl, rfl, rfl, rfl, rfl, rfl, rfl, rfl, rfl, rfl⟩

theorem test_decode_threads_and_messages :
    decodeTableWord 32 (rWord 1 0 1 2 3 44) = some (.tspawn true 1 2 3) ∧
    decodeTableWord 32 (rWord 1 1 0 2 3 44) = some (.treap true 2 3) ∧
    decodeTableWord 32 (rWord 1 2 0 2 3 44) = some (.tkill true 2 3) ∧
    decodeTableWord 32 (rWord 1 3 0 2 3 44) = some (.twake true 2 3) ∧
    decodeTableWord 32 (rWord 1 5 0 2 3 44) = some (.mclass true 2 3) ∧
    decodeTableWord 32 (rWord 1 6 0 2 3 44) = some (.tstat true 2 3) ∧
    decodeTableWord 32 (rWord 1 4 0 2 0 44) = some (.texit true 2) ∧
    decodeTableWord 32 (rWord 1 0 1 2 0 45) = some (.msend true 1 2) ∧
    decodeTableWord 32 (rWord 1 1 1 2 0 45) = some (.msend2 true 1 2) ∧
    decodeTableWord 32 (rWord 1 2 0 2 3 45) = some (.mdrain true 2 3) ∧
    decodeTableWord 32 (rWord 1 0 0 2 3 46) = some (.bar true 2 3) ∧
    decodeTableWord 32 (rWord 1 1 0 2 3 46) = some (.bara true 2 3) ∧
    decodeTableWord 32 (rWord 1 2 1 2 3 46) = some (.barw true 1 2 3) ∧
    decodeTableWord 32 (rWord 1 3 0 2 3 46) = some (.gqry true 2 3) ∧
    decodeTableWord 32 (rWord 1 0 0 2 3 47) = some (.wlpush true 2 3) ∧
    decodeTableWord 32 (rWord 0 1 0 0 3 47) = some (.wlpop 3) ∧
    decodeTableWord 32 (rWord 0 2 0 0 3 47) = some (.wlstat 3) ∧
    decodeTableWord 32 (rWord 0 3 0 0 3 47) = some (.wldone 3) :=
  ⟨rfl, rfl, rfl, rfl, rfl, rfl, rfl, rfl, rfl, rfl, rfl, rfl, rfl, rfl, rfl, rfl, rfl, rfl⟩

theorem test_decode_streams_and_copies :
    decodeTableWord 32 (rWord 1 0 1 2 3 48) = some (.bind true true 2 3) ∧
    decodeTableWord 32 (rWord 1 1 0 2 3 48) = some (.unbind true 2 3) ∧
    decodeTableWord 32 (rWord 1 2 1 2 3 48) = some (.sgdef true 1 2 3) ∧
    decodeTableWord 32 (rWord 1 3 1 2 3 48) = some (.sstat true true 2 3) ∧
    decodeTableWord 32 (rWord 1 4 0 2 3 48) = some (.sdrain true 2 3) ∧
    decodeTableWord 32 (rWord 1 0 1 2 3 49) = some (.cpost true 1 2 3) ∧
    decodeTableWord 32 (rWord 1 1 1 2 3 49) = some (.sacq true 1 2 3) ∧
    decodeTableWord 32 (rWord 1 2 1 2 3 49) = some (.sadd true 1 2 3) ∧
    decodeTableWord 32 (rWord 1 6 1 2 3 49) = some (.cbput true 1 2 3) ∧
    decodeTableWord 32 (rWord 1 3 1 2 0 49) = some (.sset true 1 2) ∧
    decodeTableWord 32 (rWord 1 4 0 2 3 49) = some (.srd true 2 3) ∧
    decodeTableWord 32 (rWord 1 5 0 2 3 49) = some (.cbget true 2 3) ∧
    decodeTableWord 32 (rWord 1 7 0 2 0 49) = some (.cbfree true 2) :=
  ⟨rfl, rfl, rfl, rfl, rfl, rfl, rfl, rfl, rfl, rfl, rfl, rfl, rfl⟩

theorem test_decode_vectors :
    decodeTableWord 32 (rWord 1 0 1 2 3 50) = some (.vadd true 1 2 3) ∧
    decodeTableWord 32 (rWord 1 1 1 2 3 50) = some (.vsub true 1 2 3) ∧
    decodeTableWord 32 (rWord 1 2 1 2 3 50) = some (.vmul true 1 2 3) ∧
    decodeTableWord 32 (rWord 1 3 1 2 3 50) = some (.vfma true 1 2 3) ∧
    decodeTableWord 32 (rWord 1 4 1 2 3 50) = some (.vfms true 1 2 3) ∧
    decodeTableWord 32 (rWord 1 5 1 2 3 50) = some (.vmin true 1 2 3) ∧
    decodeTableWord 32 (rWord 1 6 1 2 3 50) = some (.vmax true 1 2 3) ∧
    decodeTableWord 32 (rWord 1 7 1 2 3 50) = some (.vdiff true 1 2 3) ∧
    decodeTableWord 32 (rWord 1 0 1 2 3 51) = some (.vand true 1 2 3) ∧
    decodeTableWord 32 (rWord 1 1 1 2 3 51) = some (.vor true 1 2 3) ∧
    decodeTableWord 32 (rWord 1 2 1 2 3 51) = some (.vxor true 1 2 3) ∧
    decodeTableWord 32 (rWord 1 3 1 2 3 51) = some (.vshl true 1 2 3) ∧
    decodeTableWord 32 (rWord 1 4 1 2 3 51) = some (.vsrl true 1 2 3) ∧
    decodeTableWord 32 (rWord 1 5 1 2 3 51) = some (.vsra true 1 2 3) ∧
    decodeTableWord 32 (rWord 1 6 1 2 3 51) = some (.vsel true 1 2 3) ∧
    decodeTableWord 32 (rWord 1 7 0 2 3 51) = some (.vrelu true 2 3) ∧
    decodeTableWord 32 (rWord 1 0 1 2 3 52) = some (.vceq true 1 2 3) ∧
    decodeTableWord 32 (rWord 1 1 1 2 3 52) = some (.vcne true 1 2 3) ∧
    decodeTableWord 32 (rWord 1 2 1 2 3 52) = some (.vclt true 1 2 3) ∧
    decodeTableWord 32 (rWord 1 3 1 2 3 52) = some (.vcle true 1 2 3) ∧
    decodeTableWord 32 (rWord 0 4 1 2 3 52) = some (.kand 1 2 3) ∧
    decodeTableWord 32 (rWord 0 5 1 2 3 52) = some (.kor 1 2 3) ∧
    decodeTableWord 32 (rWord 0 6 0 2 3 52) = some (.knot 2 3) :=
  ⟨rfl, rfl, rfl, rfl, rfl, rfl, rfl, rfl, rfl, rfl, rfl, rfl, rfl, rfl, rfl, rfl, rfl, rfl, rfl, rfl, rfl, rfl, rfl⟩

theorem test_decode_vector_functions :
    decodeTableWord 32 (rWord 1 0 7 2 3 53) = some (.vcvtRne true 7 2 3) ∧
    decodeTableWord 32 (rWord 1 1 7 2 3 53) = some (.vcvtRtz true 7 2 3) ∧
    decodeTableWord 32 (rWord 1 2 7 2 3 53) = some (.vcvtRdn true 7 2 3) ∧
    decodeTableWord 32 (rWord 1 3 7 2 3 53) = some (.vcvtRup true 7 2 3) ∧
    decodeTableWord 32 (rWord 1 4 7 2 3 53) = some (.vcvtSr true 7 2 3) ∧
    decodeTableWord 32 (rWord 1 5 7 2 3 53) = some (.vcvtSatrne true 7 2 3) ∧
    decodeTableWord 32 (rWord 1 0 0 2 3 54) = some (.vexp2 true 2 3) ∧
    decodeTableWord 32 (rWord 1 1 0 2 3 54) = some (.vlog2 true 2 3) ∧
    decodeTableWord 32 (rWord 1 2 0 2 3 54) = some (.vrcp true 2 3) ∧
    decodeTableWord 32 (rWord 1 3 0 2 3 54) = some (.vrsq true 2 3) ∧
    decodeTableWord 32 (rWord 1 4 0 2 3 54) = some (.vsqrt true 2 3) ∧
    decodeTableWord 32 (rWord 1 5 0 2 3 54) = some (.vtanh true 2 3) ∧
    decodeTableWord 32 (rWord 1 6 0 2 3 54) = some (.vexp true 2 3) ∧
    decodeTableWord 32 (rWord 1 7 0 2 3 54) = some (.vsigm true 2 3) ∧
    decodeTableWord 32 (rWord 1 0 1 2 3 55) = some (.vrsum true 1 2 3) ∧
    decodeTableWord 32 (rWord 1 1 1 2 3 55) = some (.vrmax true 1 2 3) ∧
    decodeTableWord 32 (rWord 1 2 1 2 3 55) = some (.vrmin true 1 2 3) ∧
    decodeTableWord 32 (rWord 1 3 1 2 3 55) = some (.vramx true 1 2 3) ∧
    decodeTableWord 32 (rWord 1 4 1 2 3 55) = some (.vscan true 1 2 3) ∧
    decodeTableWord 32 (rWord 1 5 1 2 3 55) = some (.vperm true 1 2 3) ∧
    decodeTableWord 32 (rWord 1 6 1 2 3 55) = some (.vsort true 1 2 3) ∧
    decodeTableWord 32 (rWord 1 0 1 2 3 56) = some (.vsplat true 1 2 3) ∧
    decodeTableWord 32 (rWord 1 1 1 2 3 56) = some (.vins true 1 2 3) ∧
    decodeTableWord 32 (rWord 1 2 1 2 3 56) = some (.vext true 1 2 3) ∧
    decodeTableWord 32 (rWord 1 3 1 2 3 56) = some (.vidx true 1 2 3) ∧
    decodeTableWord 32 (rWord 1 4 1 2 3 56) = some (.vtag true 1 2 3) ∧
    decodeTableWord 32 (rWord 1 5 1 2 3 56) = some (.vqnt true 1 2 3) ∧
    decodeTableWord 32 (rWord 0 6 0 2 3 56) = some (.kpop 2 3) ∧
    decodeTableWord 32 (rWord 1 7 0 2 3 56) = some (.kmovToMask true 2 3) ∧
    decodeTableWord 32 (rWord 0 7 1 2 3 56) = some (.kmovFromMask 2 3) :=
  ⟨rfl, rfl, rfl, rfl, rfl, rfl, rfl, rfl, rfl, rfl, rfl, rfl, rfl, rfl, rfl, rfl, rfl, rfl, rfl, rfl, rfl, rfl, rfl, rfl, rfl, rfl, rfl, rfl, rfl, rfl⟩

theorem test_decode_matrix_and_engines :
    decodeTableWord 32 (rWord 0 0 1 2 3 57) = some (.mma 1 2 3) ∧
    decodeTableWord 32 (rWord 0 1 1 2 3 57) = some (.mmz 1 2 3) ∧
    decodeTableWord 32 (rWord 0 2 1 2 3 57) = some (.aread 1 2 3) ∧
    decodeTableWord 32 (rWord 0 3 0 0 3 57) = some (.azero 3) ∧
    decodeTableWord 32 (rWord 0 4 1 0 3 57) = some (.oclm 1 3) ∧
    decodeTableWord 32 (rWord 0 5 0 0 3 57) = some (.orel 3) ∧
    decodeTableWord 32 (rWord 1 6 1 2 3 57) = some (.ofill true 1 2 3) ∧
    decodeTableWord 32 (rWord 0 7 1 2 0 57) = some (.opass 1 2) ∧
    decodeTableWord 32 (rWord 1 0 1 2 3 58) = some (.spup true 1 2 3) ∧
    decodeTableWord 32 (rWord 1 1 1 2 3 58) = some (.spdn true 1 2 3) ∧
    decodeTableWord 32 (rWord 1 2 0 2 3 58) = some (.spld true 2 3) ∧
    decodeTableWord 32 (rWord 1 3 0 2 3 58) = some (.spst true 2 3) ∧
    decodeTableWord 32 (rWord 1 4 0 2 3 58) = some (.spget true 2 3) ∧
    decodeTableWord 32 (rWord 1 5 1 2 0 58) = some (.spput true 1 2) ∧
    decodeTableWord 32 (rWord 1 6 1 2 0 58) = some (.spclr true 1 2) ∧
    decodeTableWord 32 (rWord 0 7 0 0 3 58) = some (.spwait 3) ∧
    decodeTableWord 32 (rWord 1 0 0 2 3 59) = some (.bqget true 2 3) ∧
    decodeTableWord 32 (rWord 1 1 1 2 3 59) = some (.baddq true 1 2 3) ∧
    decodeTableWord 32 (rWord 1 2 0 2 3 59) = some (.bqdone true 2 3) ∧
    decodeTableWord 32 (rWord 1 3 1 2 3 59) = some (.bqinit true 1 2 3) ∧
    decodeTableWord 32 (rWord 1 0 1 2 3 60) = some (.rand true 1 2 3) ∧
    decodeTableWord 32 (rWord 1 1 1 2 3 60) = some (.vrand true 1 2 3) :=
  ⟨rfl, rfl, rfl, rfl, rfl, rfl, rfl, rfl, rfl, rfl, rfl, rfl, rfl, rfl, rfl, rfl, rfl, rfl, rfl, rfl, rfl, rfl⟩

/-- R87: encodings that are no instruction. -/
theorem test_decode_refuses :
    decodeTableWord 16 0 = none ∧ decodeTableWord 32 (rWord 0 0 0 0 0 0) = none ∧ decodeTableWord 32 (rWord 0 0 0 0 0 61) = none ∧
    decodeTableWord 32 (rWord 0 5 0 0 0 42) = none ∧ decodeTableWord 32 (mWord 0 0 0 5 2 3 27) = none ∧ decodeTableWord 32 (mWord 1 0 0 3 2 3 27) = none ∧
    decodeTableWord 32 (iWord 0 (6 * 2^7) 2 3 9) = none ∧ decodeTableWord 32 (iWord 0 (3 * 2^7 + 32) 2 3 9) = none ∧
    decodeTableWord 32 (mWord 0 0 0 10 2 3 34) = none ∧ decodeTableWord 32 (rWord 0 0 2 1 8 52) = none ∧ decodeTableWord 32 (rWord 0 0 16 1 0 57) = none ∧
    decodeTableWord 32 (rWord 1 5 0 0 3 39) = none ∧ decodeTableWord 32 (sWord 0x19 0 3 40) = none ∧ decodeTableWord 32 (sWord 0x10 2 0 41) = none ∧
    decodeTableWord 32 (rWord 0 0 0x10 2 3 53) = none :=
  ⟨rfl, rfl, rfl, rfl, rfl, rfl, rfl, rfl, rfl, rfl, rfl, rfl, rfl, rfl, rfl⟩

/-! Ill-formed terms, which the checks of WellFormed refuse (R81, R86, R87, R176). -/

theorem test_wellFormed_vmov : (Instr.vmov 0 0).wellFormed = false ∧ (Instr.vmov 1 0).wellFormed = true := ⟨rfl, rfl⟩
theorem test_wellFormed_mfs : (Instr.mfs 0x19 3).wellFormed = false ∧ (Instr.mfs 0x18 3).wellFormed = true := ⟨rfl, rfl⟩
theorem test_wellFormed_mts : (Instr.mts 0x10 3).wellFormed = false ∧ (Instr.mts 0x19 3).wellFormed = false ∧
    (Instr.mts 0x12 3).wellFormed = true := ⟨rfl, rfl, rfl⟩
theorem test_wellFormed_oclm : (Instr.oclm 5 3).wellFormed = false ∧ (Instr.oclm 4 3).wellFormed = true := ⟨rfl, rfl⟩
theorem test_wellFormed_opass : (Instr.opass 0 3).wellFormed = false ∧ (Instr.opass 5 3).wellFormed = false ∧
    (Instr.opass 1 3).wellFormed = true := ⟨rfl, rfl, rfl⟩

/-! Witnesses: the step and the scalar instructions. -/

/-- A context at a divide whose 40 cycles are over. -/
def dividend (left : Nat) : Context := { whole with pending := [⟨7, [.g 127], left, false, false, some (40, 5), []⟩] }

theorem witness_BinaryScalarResult :
    CanIssue (one (holding 127 9)) (holding 127 9) [.g 127, .g 0] [.g 127, .g 127, .g 0] ∧ (holding 127 9).canTakeG true 127 :=
  ⟨canIssue_of (by decide +kernel), canTakeG_of (by decide +kernel) true⟩

theorem witness_UnaryScalarResult :
    CanIssue (one (holding 127 9)) (holding 127 9) [.g 127] [.g 0, .g 127] ∧ (holding 127 9).canTakeG true 127 :=
  ⟨canIssue_of (by decide +kernel), canTakeG_of (by decide +kernel) true⟩

theorem witness_JumpsAndBranches :
    CanIssue (one (holding 127 9)) (holding 127 9) [] [.g 127] ∧
    CanIssue (one (holding 127 9)) (holding 127 9) [.g 127] [.g 127, .g 127] ∧ (holding 127 9).canTakeG true 127 ∧
    CanIssue (one (holding 127 9)) (holding 127 9) [.g 0, .g 127] [.g 0, .g 127] :=
  ⟨canIssue_of (by decide +kernel), canIssue_of (by decide +kernel), canTakeG_of (by decide +kernel) true,
    canIssue_of (by decide +kernel)⟩

theorem witness_DivideIssues :
    CanIssue (one (holding 1 9)) (holding 1 9) [.g 1, .g 0] [.g 0, .g 1, .g 0] := canIssue_of (by decide +kernel)

theorem witness_DivideResultArrives :
    let s := ofCore { coreWith (dividend 0) with cyc := 40 }
    let p : Pending := ⟨7, [.g 127], 0, false, false, some (40, 5), []⟩
    s.dev.access 7 = none ∧ dividing s.dev 7 = some (0, 0, p) ∧ p.id = 7 ∧ s.dev.ctxAt 0 0 = some (dividend 0) ∧
    (dividend 0).phase = .ready ∧ (dividend 0).pending = [p] ∧ p.dests = [.g 127] ∧ p.reserved = [] ∧ p.due = some (40, 5) ∧
    40 ≤ (s.dev.coreAt 0).cyc ∧ (s.dev.coreAt 0).halted = false ∧ (s.dev.coreAt 0).lastDeposit = none :=
  ⟨rfl, by decide +kernel, rfl, rfl, rfl, rfl, rfl, rfl, rfl, by decide +kernel, rfl, rfl⟩

theorem witness_ScalarFrame :
    CanIssue (one (holding 127 9)) (holding 127 9) [.g 127] [.g 127, .g 127] ∧ (holding 127 9).canTakeG true 127 ∧
    ∃ t, exec (.clz true 127 127) (one (holding 127 9)) = .next t :=
  ⟨canIssue_of (by decide +kernel), canTakeG_of (by decide +kernel) true, goes_of (by decide +kernel)⟩

theorem witness_ScalarNeverStores :
    (∀ r, whole.poisonedReg r = false) ∧ (one whole).dev.cur = some whole ∧ ∃ t, exec (.beq 0 1 2) (one whole) = .next t := by
  refine ⟨fun r => ?_, rfl, goes_of (by decide +kernel)⟩
  have hg : ∀ n : Nat, (whole.getG n).poison = false := fun n => by
    by_cases h : n = 0
    · simp [Context.getG, h]
    · by_cases hn : n < 128 <;> simp [Context.getG, h, whole, hn]
  have hv : ∀ n : Nat, (whole.getV n).poison = false := fun n => by
    by_cases hn : n < 64 <;> simp [Context.getV, whole, hn]
  cases r with
  | g n => exact hg n
  | v n => exact hv n

/-- A state at whose next cycle context zero fetches AUIPC g4, 64. -/
def atFetch : State := State.reset.withFetchWord 32 0x0010021B
/-- The same when the move has left the agenda and its instant has come. -/
def atCycle : State :=
  let d : Device := { atFetch.dev with agenda := [] }
  pass ⟨atFetch.mem, d⟩ (cycleAt d 0 0)
/-- The same at the turn. -/
def atTurn : State := beforeTurn { atCycle with dev := beginCycle { atCycle.dev with core := 0, slot := 0 } 0 } 0

/-- The bytes a fetch answered. -/
def fetchedBytes : Encoding × Device → Option (List Byte)
  | (.bytes bs, _) => some bs
  | _ => none

theorem fetched_of {r : Encoding × Device} {bs : List Byte} (h : fetchedBytes r = some bs) : ∃ d, r = (.bytes bs, d) := by
  obtain ⟨e, d⟩ := r
  cases e with
  | bytes cs => exact ⟨d, by rw [Option.some.inj h]⟩
  | ended v => simp [fetchedBytes] at h

theorem witness_StepRunsDecoded :
    (atFetch.dev.agenda = [.cycle 0 0] ∧ clocked atCycle.dev 0 = true ∧ cycleAt atCycle.dev 0 0 ≤ atCycle.dev.now ∧
      (atCycle.dev.coreAt 0).used ≠ some (atCycle.dev.coreAt 0).cyc ∧ (atCycle.dev.coreAt 0).cyc % 16 = 0 ∧ waitsAt atCycle.dev 0 0 = false ∧ atTurn.dev.cur = some fetchContext ∧ fetchContext.phase = .ready) ∧
    (∃ d, fetchInstr atTurn.mem atTurn.dev fetchContext = (.bytes [0x1B, 0x02, 0x10, 0x00], d)) ∧
    decode [0x1B, 0x02, 0x10, 0x00] = .ok (.auipc 64 4, []) :=
  ⟨by decide +kernel, fetched_of (by decide +kernel), rfl⟩

theorem witness_StepKeepsMemoryForm :
    atFetch.mem.wf = true ∧ ∃ t, step atFetch = .next t :=
  ⟨by decide +kernel, goes_of (by decide +kernel)⟩

theorem witness_DecodeOfEncode : (Instr.mfs 0 127).wellFormed = true ∧ encode (.mfs 0 127) = some [0xD1, 0x3F, 0x00, 0x00] := by
  decide

/-! Witnesses: system registers, traps and the checks of an issue. -/

/-- A privileged context with a handler and a value in g127. -/
def privileged (w : Word) : Context := { holding 127 w handled with priv := true }
/-- A state with partition 0 and a context in slot 0. -/
def inPartition (p : Partition) (x : Context) : State := { one x with dev := { (one x).dev with parts := [(0, p)] } }
/-- A context whose one pending result is for g127. -/
def waitsFor (left : Nat) (arrived : Bool) : Context :=
  { handled with pending := [⟨7, [.g 127], left, arrived, false, none, []⟩] }

theorem witness_MfsReads :
    (CanIssue (one whole) whole [] [.g 127] ∧ lowRegister (one whole) whole 0x20 = some 0 ∧ lowRegister (one whole) whole 0 = some 0) ∧
    (CanIssue (one (privileged 0)) (privileged 0) [] [.g 127] ∧ (privileged 0).priv = true ∧
      highRegister (one (privileged 0)) (privileged 0) 0x138 = some 0 ∧
      highRegister (one (privileged 0)) (privileged 0) 0x100 = some 0) :=
  ⟨⟨canIssue_of (by decide +kernel), by decide +kernel, by decide +kernel⟩,
    canIssue_of (by decide +kernel), by decide +kernel, by decide +kernel, by decide +kernel⟩

theorem witness_MtsWrites :
    (CanIssue (one (privileged 4)) (privileged 4) [.g 127] [.g 127] ∧ Settled (one (privileged 4)) (privileged 4) ∧
      (writtenSys (privileged 4).regs.sys 0x13 ((privileged 4).getG 127).val).isSome = true) ∧
    (CanIssue (one (privileged 5)) (privileged 5) [.g 127] [.g 127] ∧ Settled (one (privileged 5)) (privileged 5) ∧
      4 < ((privileged 5).getG 127).val.toNat ∧ (privileged 5).pending = [] ∧ HasHandler (privileged 5)) :=
  ⟨⟨canIssue_of (by decide +kernel), settled_of (by decide +kernel), by decide +kernel⟩,
    canIssue_of (by decide +kernel), settled_of (by decide +kernel), by decide +kernel, rfl, by unfold HasHandler; decide +kernel⟩

theorem witness_PrivilegedMtsWrites : let p : Partition := {}
    (∀ w ∈ [(0x7FFFF : Word), 0x1FFFFFFFFFFF000, 2], let x := privileged w; let s := inPartition p x;
      CanIssue s x [.g 127] [.g 127] ∧ Settled s x ∧ x.priv = true ∧ assocGet x.part s.dev.parts = some p) ∧
    (writtenPart p 0x104 2).isSome = true ∧ (writtenPart p 0x133 0x1FFFFFFFFFFF001).isSome = true ∧
    ((privileged 0x7FFFF).getG 127).val.toNat < 2^19 ∧ ((privileged 0x1FFFFFFFFFFF000).getG 127).val &&& ~~~0x1FFFFFFFFFFF000 = 0 ∧
    ((privileged 2).getG 127).val.toNat % 4 = 2 := by
  refine ⟨fun w hw => ?_, by decide +kernel⟩
  simp only [List.mem_cons, List.not_mem_nil, or_false] at hw
  rcases hw with rfl | rfl | rfl <;>
    exact ⟨canIssue_of (by decide +kernel), settled_of (by decide +kernel), rfl, rfl⟩

theorem witness_PrivilegeTraps :
    (let s := one handled; s.dev.cur = some handled ∧ handled.phase = .ready ∧ handled.pending = [] ∧ handled.priv = false) ∧
    HasHandler handled ∧
    (let s : State := { mem := {}, dev := { slot := 15, cores := [(0, ({} : Core).setCtx 15 (some handled))] } };
      s.dev.cur = some handled ∧ s.dev.slot ≠ 0) :=
  ⟨⟨rfl, rfl, rfl, rfl⟩, by unfold HasHandler; decide +kernel, rfl, by decide⟩

theorem witness_WindowTraps :
    let x : Context := { handled with gCount := 8 }
    ([Reg.g 7, Reg.g 0, Reg.g 8].find? (outside x) = some (.g 8) ∧ (one x).dev.cur = some x ∧ x.phase = .ready ∧ x.pending = []) ∧
    HasHandler x :=
  ⟨⟨by decide +kernel, rfl, rfl, rfl⟩, by unfold HasHandler; decide +kernel⟩

theorem witness_LookaheadWindows :
    (∀ q ∈ [(0, false), (1, true), (1, false)], let x := waitsFor q.1 q.2
      (one x).dev.cur = some x ∧ x.phase = .ready ∧ HasHandler x ∧
      ∃ p, p ∈ x.pending ∧ x.pending = [p] ∧ p.left = q.1 ∧ p.arrived = q.2 ∧ p.dests = [.g 127]) ∧
    (waitsFor 1 true).inWindow (.g 127) = true ∧ (waitsFor 1 true).inWindow (.g 0) = true ∧
    (one (waitsFor 1 true)).dev.me.bindingOf 0 (.g 127) = none := by
  refine ⟨fun q hq => ?_, by decide +kernel⟩
  simp only [List.mem_cons, List.not_mem_nil, or_false] at hq
  rcases hq with rfl | rfl | rfl <;>
    exact ⟨rfl, rfl, by unfold HasHandler; decide +kernel, _, List.mem_singleton.2 rfl, rfl, rfl, rfl, rfl⟩

theorem witness_TrapEntry :
    ∀ x ∈ [handled, whole], let y : Context := { x with phase := .trapping 0x07 5 8, pending := [⟨7, [], 1, true, false, none, []⟩] }
      (one y).dev.ctxAt 0 0 = some y ∧ y.phase = .trapping 0x07 5 8 ∧ (∀ p ∈ y.pending, p.arrived = true) ∧
        ((one y).dev.coreAt 0).halted = false ∧ ((one y).dev.coreAt 0).woke = [] := by
  intro x hx
  simp only [List.mem_cons, List.not_mem_nil, or_false] at hx
  rcases hx with rfl | rfl <;> exact ⟨rfl, rfl, by decide +kernel, rfl, rfl⟩

theorem witness_TrapEntry_handler : HasHandler handled ∧ ¬HasHandler whole := by unfold HasHandler; decide +kernel

theorem witness_TrapMajor :
    (CanIssue (one handled) handled [] [] ∧ handled.pending = [] ∧ HasHandler handled) ∧
    (let x : Context := handled.onSys (fun r => { r with inh := true });
      CanIssue (one x) x [] [] ∧ x.regs.sys.inh = true) ∧ pendingSave (one handled).dev 0 0 = none :=
  ⟨⟨canIssue_of (by decide +kernel), rfl, by unfold HasHandler; decide +kernel⟩, ⟨canIssue_of (by decide +kernel), rfl⟩, rfl⟩

theorem witness_IllegalEncodingTraps :
    ((one handled).dev.cur = some handled ∧ handled.phase = .ready ∧ handled.pending = []) ∧ HasHandler handled :=
  ⟨⟨rfl, rfl, rfl⟩, by unfold HasHandler; decide +kernel⟩

theorem witness_ContextStops :
    let x := holding 127 0xFFFF { whole with groups := [3], pending := [⟨7, [.g 1], 1, true, false, none, []⟩] }
    (Settled (one x) x ∧ (∀ p ∈ x.pending, p.arrived = true) ∧ (one x).dev.me.woke = []) ∧
    CanIssue (one x) x [] [] ∧ CanIssue (one x) x [.g 127] [.g 127] ∧ x.canTakeG true 127 :=
  ⟨⟨settled_of (by decide +kernel), by decide +kernel, rfl⟩, canIssue_of (by decide +kernel), canIssue_of (by decide +kernel),
    canTakeG_of (by decide +kernel) true⟩

/-- A group of two members, TID 0 and 16, of which some have arrived. -/
def pairGroup (arrived : List (BitVec 32)) : Group := { id := 3, members := [0, 16], arrived := arrived }
/-- A launch with that group. -/
def pairLaunch (arrived : List (BitVec 32)) : Launch :=
  { id := 0, part := 0, vf := 0, queue := 0, index := 0, prio := 0, trace := false, cores := [0], groups := [pairGroup arrived] }
/-- A state with that launch. -/
def grouped (x : Context) (arrived : List (BitVec 32)) : State :=
  { one x with dev := { (one x).dev with launches := [pairLaunch arrived] } }

/-- Each case of `StopCounts`: the member has arrived; it has not, and another is missing; it has not, and the phase is complete
without it. -/
theorem witness_StopCounts :
    (∀ as ∈ [[0], [], [(16 : BitVec 32)]], let x : Context := { whole with groups := [3] }
      let g := pairGroup as
      (grouped x as).dev.launchAt x.part x.launch = some (pairLaunch as) ∧
      ([g].find? fun q => q.id == g.id) = some g) ∧
    (whole.tid ∈ (pairGroup [0]).arrived ∧ (pairGroup [0]).arrived.length < 2) ∧
    (whole.tid ∉ (pairGroup []).arrived ∧ (pairGroup []).arrived.length < 1) ∧
    (whole.tid ∉ (pairGroup [16]).arrived ∧ 1 ≤ (pairGroup [16]).arrived.length) := by
  refine ⟨fun as h => ?_, by decide +kernel⟩
  simp only [List.mem_cons, List.not_mem_nil, or_false] at h
  rcases h with rfl | rfl | rfl <;> decide +kernel

/-! Witnesses: memory. -/

theorem reaches_of {s : State} {x : Context} {a : Word} {need : BitVec 3} {q : Demand} {p : Place}
    (h : decide ((locate s.mem s.dev s.dev.core x.part x.vf (some (x, s.dev.slot)) true a need q).1 = .at_ p) = true) :
    Reaches s x a need q p := by
  simpa [Reaches, ReachesAs] using h

/-- Whether an access has a place. -/
def isAt (l : Located) : Bool :=
  match l with
  | .at_ _ => true
  | _ => false

theorem at_of {l : Located} (h : isAt l = true) : ∃ p, l = .at_ p := by
  cases l <;> simp_all [isAt]

/-- A context with addresses in g127 and g126. -/
def addressing (a b : Word) : Context := holding 126 b (holding 127 a)

theorem witness_ScalarLoadsIssue :
    let x := holding 127 0xFE0000000003FFF8
    CanIssue (one x) x [.g 127] [.g 0, .g 127] ∧ (x.getG 127).val.toNat % 8 = 0 ∧
    Reaches (one x) x (x.getG 127).val needR .plain (scratchPlace 0 0x3FFF8) :=
  ⟨canIssue_of (by decide +kernel), by decide +kernel, reaches_of (by decide +kernel)⟩

theorem witness_VectorLoadsIssue :
    (let x := holding 127 0xFE03000000000FFC;
      CanIssue (one x) x [.g 127] [.v 63, .g 127] ∧ (x.getG 127).val.toNat % 4 = 0 ∧ (x.getG 127).val.toNat / 2^48 = 0xFE03 ∧
      Reaches (one x) x (x.getG 127).val needR .vector ⟨.lane 0, Config.laneBase + 4092, .chip, false⟩) ∧
    (let x := holding 127 0xFE0000000003FF80;
      CanIssue (one x) x [.g 127] [.v 0, .g 127] ∧ (x.getG 127).val.toNat % 128 = 0 ∧ (x.getG 127).val.toNat / 2^48 ≠ 0xFE03 ∧
      Reaches (one x) x (x.getG 127).val needR .vector (scratchPlace 0 0x3FF80)) :=
  ⟨⟨canIssue_of (by decide +kernel), by decide +kernel, by decide +kernel, reaches_of (by decide +kernel)⟩,
    canIssue_of (by decide +kernel), by decide +kernel, by decide +kernel, reaches_of (by decide +kernel)⟩

/-- A 32 by 32 tensor of S8 at address 0 of the mapped page. -/
def tileTensor : Tensor := { id := 5, base := 0, tag := 6, rows := 32, cols := 32, vf := 0, launch := 0 }
/-- The mapped state with that tensor in partition 0. -/
def tiled (x : Context) : State :=
  let s := mapped x
  { s with dev := s.dev.onPart 0 fun p => { p with tensors := [tileTensor] } }
/-- A context that names tile (0, 0) of tensor 5, with a tile of S8 in v56 to v63. -/
def tileNamer : Context := (List.range 8).foldl (fun x k => x.writeV (56 + k) 0 6 0x3F800000) (addressing 5 0)

theorem witness_ScaledAndTileLoadsIssue :
    (let x := addressing 0x80 0xFC; let s := mapped x;
      CanIssue s x [.g 127, .g 126] [.v 63, .g 127, .g 126] ∧
      ((x.getG 127).val.toNat % 128 = 0 ∧ (x.getG 126).val.toNat % 4 = 0) ∧
      (∃ p, Reaches s x (x.getG 127).val needR .expand p) ∧
      ∃ q, ReachesNext s x (x.getG 127).val needR .expand (x.getG 126).val needR .expand q) ∧
    (let x := addressing 0xFE0000000003FF80 0xFE0000000003FFFC; let s := one x;
      (∃ p, Reaches s x (x.getG 127).val needR .vector p) ∧
      ∃ q, ReachesNext s x (x.getG 127).val needR .vector (x.getG 126).val needR .plain q) ∧
    (let x := tileNamer; let s := tiled x;
      CanIssue s x [.g 127, .g 126] (tileRegs 56 ++ [.g 127, .g 126]) ∧
      ((s.dev.partAt x.part).tensor (x.getG 127).val = some tileTensor ∧ (x.getG 126).val.toNat = 0 * 2^32 + 0 ∧
        0 < tileTensor.tiles.1 ∧ 0 < tileTensor.tiles.2) ∧
      ∃ p, ReachesAs tileTensor.vf s x (tileTensor.base + BitVec.ofNat 64 0) needRW .tile p) :=
  ⟨⟨canIssue_of (by decide +kernel), by decide +kernel, at_of (by decide +kernel), at_of (by decide +kernel)⟩,
    ⟨at_of (by decide +kernel), at_of (by decide +kernel)⟩,
    canIssue_of (by decide +kernel), by decide +kernel, at_of (by decide +kernel)⟩

theorem witness_StoresIssue :
    (let x := addressing 0xFE0000000003FFF8 0xFE0000000003FFFC; let s := one x;
      CanIssue s x [.g 127, .g 126] [.g 126, .g 127] ∧ (x.getG 127).val.toNat % 8 = 0 ∧
      ∃ p, Reaches s x (x.getG 127).val needW .plain p) ∧
    (let x := addressing 0xFE03000000000FFC 0xFE0000000003FFFC; let s := one x;
      CanIssue s x [.g 127, .v 63] [.v 63, .g 127] ∧ CanIssue s x [.g 127, .g 126, .v 63] [.v 63, .g 127, .g 126] ∧
      (x.getG 127).val.toNat % 4 = 0 ∧ (x.getG 127).val.toNat / 2^48 = 0xFE03 ∧ (x.getG 126).val.toNat % 4 = 0 ∧
      (∃ p, Reaches s x (x.getG 127).val needW .vector p) ∧
      ∃ q, ReachesNext s x (x.getG 127).val needW .vector (x.getG 126).val needW .plain q) ∧
    (let x := tileNamer; let s := tiled x;
      CanIssue s x ([.g 127, .g 126] ++ tileRegs 56) (tileRegs 56 ++ [.g 127, .g 126]) ∧
      (∀ k, k < 8 → (x.getV (56 + k)).tag = tileTensor.tag) ∧ ∃ p, ReachesAs tileTensor.vf s x (tileTensor.base + BitVec.ofNat 64 0) needW .tile p) :=
  ⟨⟨canIssue_of (by decide +kernel), by decide +kernel, at_of (by decide +kernel)⟩,
    ⟨canIssue_of (by decide +kernel), canIssue_of (by decide +kernel), by decide +kernel, by decide +kernel, by decide +kernel,
      at_of (by decide +kernel), at_of (by decide +kernel)⟩,
    canIssue_of (by decide +kernel), by decide +kernel, at_of (by decide +kernel)⟩

theorem witness_SynchronisingAccessesIssue :
    let x := addressing 0xFE0000000003FFF8 0; let s := one x;
    CanIssue s x [.g 127] [.g 126, .g 127] ∧ CanIssue s x [.g 127, .g 126] [.g 126, .g 127] ∧
    CanIssue s x ([.g 127, .g 126] ++ [.g 127]) ([.g 126] ++ [.g 127] ++ [.g 127]) ∧ Settled s x ∧ x.stallSince = none ∧
    (x.getG 127).val.toNat % 8 = 0 ∧ expired (expiryOf x.regs.sys s.dev.wall) s.dev.wall = none ∧
    (∃ p, Reaches s x (x.getG 127).val needRW .sync p) ∧ (∃ p, Reaches s x (x.getG 127).val needR .sync p) ∧
    ∃ p, Reaches s x (x.getG 127).val needRW (.atomic false) p :=
  ⟨canIssue_of (by decide +kernel), canIssue_of (by decide +kernel), canIssue_of (by decide +kernel), settled_of (by decide +kernel), rfl,
    by decide +kernel, by decide +kernel, at_of (by decide +kernel), at_of (by decide +kernel), at_of (by decide +kernel)⟩

theorem witness_MisalignedAccessesTrap :
    let x := holding 127 0xFE00000000000001 handled;
    CanIssue (one x) x [.g 127, .g 0] [.g 0, .g 127] ∧ x.pending = [] ∧ HasHandler x ∧
    ∀ n ∈ [2, 4, 8], (x.getG 127).val.toNat % n ≠ 0 :=
  ⟨canIssue_of (by decide +kernel), rfl, by unfold HasHandler; decide +kernel, by decide +kernel⟩

/-- An access of one part, of the 8 bytes of a place. -/
def accessOf (kind : AccessKind) (key : Nat) (port : Port) (dest : Option Reg := none) : Access :=
  { id := 0, core := 0, slot := 0, tid := 0, part := 0, vf := 0, launch := 0, seq := 0, kind := kind, addr := 0, scope := 0
    strong := false, pieces := [{ port := port, key := key, bytes := 8, data := 3 }], dest := dest }
/-- The last word of the scratchpad of core 0 below the banks. -/
def lastKey : Nat := Config.scratchpadBase + 0x3FFF8
/-- A state with one access in flight, whose word holds 5, and is empty or full. -/
def inFlight (a : Access) (key : Nat) (full : Bool) : State :=
  { mem := Memory.apply {} ([.byte key 5] ++ (if full then [] else [.full (key / 8) false]))
    dev := { (one whole).dev with accesses := [a], nextAccess := 1 } }

/-- What `Unhindered` asks beyond its access, as a check, of a place on a chip or of device memory. -/
def unhindered (s : State) (i : Nat) (a : Access) (p : Piece) : Bool :=
  performs s.dev a i p &&
  decide (forwarded s.dev a p = none) && (a.pieces.all fun q => !s.dev.lostLine q.line && !s.dev.lostDies.contains q.port.die) &&
  decide ((match p.port with
    | .peer _ => 1
    | .host _ => 1
    | _ => 0) = 0) &&
  (decide (Config.scratchpadBase ≤ p.key) || decide ((s.dev.lineAt p.line).home = Config.tokensPerLine)) &&
  !(recorded s.dev a p) && !((s.dev.partAt a.part).trplay.getLsbD 0) && traceRoom s.dev a p && !(s.mem.isPoisoned p.key) && decide (s.dev.waiters = []) &&
  s.mem.wf

theorem unhindered_of {s : State} {n i : Nat} {a : Access} {p : Piece} (h : unhindered s i a p = true)
    (h1 : s.dev.access n = some a := by rfl) (h2 : a.pieces[i]? = some p := by rfl) : Unhindered s n i a p := by
  simp only [unhindered, Bool.and_eq_true, decide_eq_true_eq, Bool.not_eq_true', Bool.or_eq_true, List.all_eq_true] at h
  obtain ⟨⟨⟨⟨⟨⟨⟨⟨⟨⟨h3, h4⟩, h5⟩, h7⟩, h8⟩, h9⟩, h10⟩, h14⟩, h11⟩, h12⟩, h13⟩ := h
  refine ⟨h1, h2, h3, h4, h5, ⟨fun l e => ?_, fun l e => ?_⟩, h8, h9, h10, h14, h11, h12, h13⟩ <;>
    simp [e] at h7

/-- The part of an access made by `accessOf`. -/
def partAt (key : Nat) (port : Port) : Piece := { port := port, key := key, bytes := 8, data := 3 }

theorem witness_PlainAccessesPerform :
    (∀ kind ∈ [AccessKind.load true 8, .store, .tileStore], let a := accessOf kind lastKey (.scratchpad 0)
      Unhindered (inFlight a lastKey true) 0 0 a (partAt lastKey (.scratchpad 0))) ∧
    (let a := accessOf .store 0x100000 (.slice 2 0x2000);
      Unhindered (inFlight a 0x100000 true) 0 0 a (partAt 0x100000 (.slice 2 0x2000))) ∧ (AccessKind.load true 8).plainLoad = true := by
  refine ⟨fun kind hk => ?_, unhindered_of (by decide +kernel), rfl⟩
  simp only [List.mem_cons, List.not_mem_nil, or_false] at hk
  rcases hk with rfl | rfl | rfl <;> exact unhindered_of (by decide +kernel)

theorem witness_AtomicsPerform :
    (∀ op ∈ [0, 9], let a := accessOf (.amo op true 5) lastKey (.scratchpad 0)
      Unhindered (inFlight a lastKey true) 0 0 a (partAt lastKey (.scratchpad 0)) ∧ a.pieces = [partAt lastKey (.scratchpad 0)]) ∧
    (inFlight (accessOf (.amo 9 true 5) lastKey (.scratchpad 0)) lastKey true).mem.nat lastKey 8 = 5 ∧
    atomicStores 9 8 5 3 5 = some 3 ∧ atomicStores 9 8 5 3 4 = none := by
  refine ⟨fun op ho => ?_, by decide +kernel⟩
  simp only [List.mem_cons, List.not_mem_nil, or_false] at ho
  rcases ho with rfl | rfl <;> exact ⟨unhindered_of (by decide +kernel), rfl⟩

theorem witness_SynchronisingAccessesPerform :
    ∀ q ∈ [(AccessKind.ldf true false, true), (.ldf false true, false), (.ldf true false, false), (.stf false, true),
        (.stf true, false), (.stf true, true)],
      let a := accessOf q.1 lastKey (.scratchpad 0); let s := inFlight a lastKey q.2;
      Unhindered s 0 0 a (partAt lastKey (.scratchpad 0)) ∧ a.pieces = [partAt lastKey (.scratchpad 0)] ∧ lastKey % 8 = 0 ∧
      a.orphan = false ∧ s.mem.isFull lastKey = q.2 := by
  intro q hq
  simp only [List.mem_cons, List.not_mem_nil, or_false] at hq
  rcases hq with rfl | rfl | rfl | rfl | rfl | rfl <;>
    exact ⟨unhindered_of (by decide +kernel), rfl, by decide +kernel, rfl, by decide +kernel⟩

/-- A context that waits for the result of access 0, with registers to go back to. -/
def awaitsResult (dest : List Reg) (left : Nat) (fault : Bool) : Context :=
  { handled with pending := [⟨0, dest, left, false, fault, none, []⟩] }
/-- A finished access of a kind for that context. -/
def finished (kind : AccessKind) (dest : Reg) (pieces : List Piece) (fault : Option (BitVec 8 × Word) := none) : Access :=
  { accessOf kind 0 (.scratchpad 0) (some dest) with pieces := pieces, fault := fault, before := some handled.regs }
/-- The state with such an access and its context. -/
def arriving (x : Context) (a : Access) : State := { mem := {}, dev := { (one x).dev with accesses := [a], nextAccess := 1 } }

/-- A core that no stream is bound on. -/
theorem no_binding (slot : Nat) (r : Reg) : ({} : Core).bindingOf slot r = none := by
  simp [Core.bindingOf, List.findIdx?_eq_none_iff]

theorem witness_ResultsArrive_unbound (x : Context) (a : Access) (r : Reg) :
    ((arriving x a).dev.coreAt 0).bindingOf 0 r = none := no_binding 0 r

theorem witness_ResultsArrive :
    let c : Piece := { port := .scratchpad 0, key := lastKey, bytes := 8, data := 3, done := true };
    ∀ q ∈ [(AccessKind.load true 8, Reg.g 127, [c]), (.loadV 3, .v 63, List.replicate 16 c),
        (.loadScaled 8, .v 0, List.replicate 16 c ++ [{ c with bytes := 4 }]), (.loadX, .v 1, List.replicate 4 c ++ [{ c with bytes := 2 }]),
        (.tileLoad 6, .v 56, List.replicate 128 c), (.ldf true true, .g 1, [c]), (.amo 9 false 0, .g 1, [{ c with bytes := 4 }])],
      let x := awaitsResult [q.2.1] 0 true; let a := finished q.1 q.2.1 q.2.2; let s := arriving x a;
      s.dev.access 0 = some a ∧ a.id = 0 ∧ a.complete = true ∧ a.fault = none ∧ a.orphan = false ∧
      (s.dev.coreAt a.core).halted = false ∧ (s.dev.coreAt a.core).inbound = [] ∧ (s.dev.coreAt a.core).lastDeposit = none ∧
      s.dev.ctxAt a.core a.slot = some x ∧ x.phase = .ready ∧ (∃ p, x.pending = [p] ∧ p.id = 0 ∧ p.reserved = [] ∧ p.left = 0) ∧ a.dest = some q.2.1 := by
  intro c q hq
  simp only [List.mem_cons, List.not_mem_nil, or_false] at hq
  rcases hq with rfl | rfl | rfl | rfl | rfl | rfl | rfl <;>
    exact ⟨rfl, rfl, by decide +kernel, rfl, rfl, rfl, rfl, rfl, rfl, rfl, ⟨_, rfl, rfl, rfl, rfl⟩, rfl⟩

theorem witness_FaultsArePrecise :
    let x := awaitsResult [.g 127] 15 true
    let c : Piece := { port := .scratchpad 0, key := lastKey, bytes := 8 };
    let a := finished (.load true 8) (.g 127) [c] (some (0x07, 8));
    let s := arriving x a;
    s.dev.access 0 = some a ∧ a.id = 0 ∧ a.fault = some (0x07, 8) ∧ a.orphan = false ∧ a.before = some handled.regs ∧
    (s.dev.coreAt a.core).halted = false ∧ (s.dev.coreAt a.core).inbound = [] ∧ s.dev.ctxAt a.core a.slot = some x ∧ x.tid = a.tid ∧ x.phase = .ready ∧
    (∀ p ∈ x.pending, p.id < 0 → p.arrived = true) ∧ handled.regs.sys.trapvec ≠ 0 ∧
    handled.regs.sys.inh = false :=
  ⟨rfl, rfl, rfl, rfl, rfl, rfl, rfl, rfl, rfl, rfl, by decide +kernel, by decide +kernel, rfl⟩

/-! The worked examples of the spec, as words and as results; results of R106 to R113 by hand from their formulas. -/

/-- The context in slot 0 of core 0 after an instruction. -/
def after (i : Instr) (s : State) : Option Context :=
  match exec i s with
  | .next t => t.dev.ctxAt 0 0
  | _ => none
/-- What an instruction that reads g1 and g2 leaves in g3. -/
def g3 (i : Instr) (a b : Word) : Option Word := (after i (one (holding 1 a (holding 2 b)))).map fun x => (x.getG 3).val
/-- What an instruction that reads v1 and v2 leaves in v3, of one tag and in element 0. -/
def v3 (i : Instr) (tag : BitVec 4) (a b c : VBits) (scale : Lane := 0x3F800000) (frm : BitVec 3 := 0) : Option VBits :=
  (after i (one (((whole.onSys fun r => { r with frm := frm }).writeV 1 a tag scale).writeV 2 b tag scale |>.writeV 3 c tag scale))).map
    fun x => (x.getV 3).bits

/-- R76, R78, R80, R114, R115, R120, R134, R141 and R112: the words of the worked examples of the chapters on formats, scalars and memory. -/
theorem test_decode_examples :
    decodeTableWord 16 0x18A2 = some (.vaddC16 3 5) ∧ decodeTableWord 32 0x21A14213 = some (.srai false 13 5 4) ∧
    decodeTableWord 32 0x55A14213 = none ∧ decodeTableWord 32 0x2421C345 = some (.amoAdd 2 1 false 7 6) ∧
    decodeTableWord 32 0x2581FFC5 = none ∧ decodeTableWord 32 0xFF814325 = some (.blt 0x7FC 5 6) ∧
    decodeTableWord 32 0x10C143AD = some (.div 1 6 5 7) ∧ decodeTableWord 32 0x01C10053 = some (.mts 0x0E 4) ∧
    decodeTableWord 32 0x00000055 = some .ecall ∧ decodeTableWord 32 0x01800551 = some (.mfs 0x0C 10) ∧
    decodeTableWord 32 0x0082850B = some (.addi false 4 10 10) ∧ decodeTableWord 32 0x20000055 = some .rett ∧
    decodeTableWord 32 0x1B224345 = some (.amoCas 1 2 true 9 6) ∧ decodeTableWord 32 0x20A10139 = some (.lvsE4 2 5 4 2) ∧
    decodeTableWord 32 0x30A10449 = some (.tld 3 5 4 8) ∧ decodeTableWord 32 0x000241CD = some (.marm 0 9 3) ∧
    decodeTableWord 32 0x0001004F = some (.flush false 4) :=
  ⟨rfl, rfl, rfl, rfl, rfl, rfl, rfl, rfl, rfl, rfl, rfl, rfl, rfl, rfl, rfl, rfl, rfl⟩

/-- R106: sums and differences wrap, shifts take six bits, SRA floors. -/
theorem test_alu_results :
    g3 (.add false 2 1 3) 0xFFFFFFFFFFFFFFFF 2 = some 1 ∧
    g3 (.sub false 2 1 3) 0 1 = some 0xFFFFFFFFFFFFFFFF ∧
    g3 (.andn false 2 1 3) 0xFF 0x0F = some 0xF0 ∧
    g3 (.sll false 2 1 3) 1 65 = some 2 ∧
    g3 (.srl false 2 1 3) 0x8000000000000000 63 = some 1 ∧
    g3 (.sra false 2 1 3) 0xFFFFFFFFFFFFFFF7 1 = some 0xFFFFFFFFFFFFFFFB := by decide +kernel

/-- R106: word results are sign-extended, a shift of 0 too; comparisons by s() and u(). -/
theorem test_aluw_results :
    g3 (.addw false 2 1 3) 0x7FFFFFFF 1 = some 0xFFFFFFFF80000000 ∧
    g3 (.subw false 2 1 3) 0x100000000 1 = some 0xFFFFFFFFFFFFFFFF ∧
    g3 (.srlw false 2 1 3) 0x80000000 0 = some 0xFFFFFFFF80000000 ∧
    g3 (.sraw false 2 1 3) 0x80000000 31 = some 0xFFFFFFFFFFFFFFFF ∧
    g3 (.slt false 2 1 3) 0xFFFFFFFFFFFFFFFF 0 = some 1 ∧
    g3 (.sltu false 2 1 3) 0xFFFFFFFFFFFFFFFF 0 = some 0 := by decide +kernel

/-- R106: the lesser by s(), the greater by u(), and the counts of bits. -/
theorem test_alux_results :
    g3 (.min false 2 1 3) 0x8000000000000000 1 = some 0x8000000000000000 ∧
    g3 (.maxu false 2 1 3) 0x8000000000000000 1 = some 0x8000000000000000 ∧
    g3 (.clz false 1 3) 0 9 = some 64 ∧
    g3 (.ctz false 1 3) 0x50 9 = some 4 ∧
    g3 (.popc false 1 3) 0x8000000000000007 9 = some 4 ∧
    g3 (.brev false 1 3) 1 9 = some 0x8000000000000000 := by decide +kernel

/-- R106: high and low products, and extensions. -/
theorem test_mulx_results :
    g3 (.mulh false 2 1 3) 0xFFFFFFFFFFFFFFFF 0xFFFFFFFFFFFFFFFF = some 0 ∧
    g3 (.mulhu false 2 1 3) 0xFFFFFFFFFFFFFFFF 0xFFFFFFFFFFFFFFFF = some 0xFFFFFFFFFFFFFFFE ∧
    g3 (.mulw false 2 1 3) 0x10000 0x8000 = some 0xFFFFFFFF80000000 ∧
    g3 (.sexb false 1 3) 0x180 9 = some 0xFFFFFFFFFFFFFF80 ∧
    g3 (.zexw false 1 3) 0xFFFFFFFF80000000 9 = some 0x80000000 := by decide +kernel

/-- R107 to R109: immediates are sign-extended. -/
theorem test_immediate_results :
    g3 (.addi false 0x200 1 3) 0 9 = some 0xFFFFFFFFFFFFFE00 ∧
    g3 (.sltiu false 0x3FF 1 3) 5 9 = some 1 ∧
    g3 (.sllwi false 31 1 3) 1 9 = some 0xFFFFFFFF80000000 ∧
    g3 (.lui 0x20000 3) 0 9 = some 0xFFFFFFFFF8000000 := by decide +kernel

theorem test_g0_discards_writes : (after (.addi false 5 0 0) (one whole)).map (fun x => ((x.getG 0).val, x.regs.pc)) = some (0, 4) := by
  decide +kernel

/-- R110: a jump at 0x100 by −2 halfwords, and one through the register it links. -/
theorem test_jumps :
    (after (.jal 0x3FFFE 3) (one { whole with regs := { whole.regs with pc := 0x100 } })).map
    (fun x => ((x.getG 3).val, x.regs.pc)) = some (0x104, 0xFC) ∧
    (after (.jalr false 3 1 1) (one (holding 1 0x1000))).map (fun x => ((x.getG 1).val, x.regs.pc)) = some (4, 0x1002) := by decide +kernel
/-- R111: the worked branch, taken and not taken. -/
theorem test_branches :
    (after (.blt 0x7FC 5 6) (one (holding 5 0xFFFFFFFFFFFFFFFF { whole with regs := { whole.regs with pc := 0x20 } }))).map
    (fun x => x.regs.pc) = some 0x18 ∧
    (after (.bltu 0x7FC 5 6) (one (holding 5 0xFFFFFFFFFFFFFFFF { whole with regs := { whole.regs with pc := 0x20 } }))).map
    (fun x => x.regs.pc) = some 0x24 := by decide +kernel

/-- R119, R120: the ECALL of the worked example, with a handler and without one. -/
theorem test_ecall :
    (after .ecall (one handled)).map (fun x => (x.regs.sys.trapcause, x.regs.sys.trappc, x.regs.sys.trapval)) =
    some (0x11, 0, 0) ∧
    (after .ecall (one whole)).map (fun x => (x.regs.sys.trapcause, x.phase)) = some (0x11, .stopped 3 0 0x11) := by decide +kernel
/-- R86, R115: MTS TRAPVEC, g4 and MFS g10, TRAPPC of the worked example. -/
theorem test_system_registers :
    (after (.mts 0x0E 4) (one (holding 4 0x1C))).map (fun x => x.regs.sys.trapvec) = some 0x1C ∧
    (after (.mfs 0x0C 10) (one (whole.onSys fun r => { r with trappc := 0x10 }))).map (fun x => (x.getG 10).val) = some 0x10 := by decide +kernel

/-- R151: S8 elements saturate. -/
theorem test_vadd_s8_saturates : v3 (.vadd false 2 1 3) 6 0x9C64 0x9C64 0 = some 0x807F := by decide +kernel
/-- R65: the worked VFMA, under RNE and RDN, with an addend of −2^−70; the other elements are 0. -/
theorem test_vfma_rounds_once :
    v3 (.vfma false 2 1 3) 3 0x3F800000 0x3F800000 0x9C800000 = some 0x3F800000 ∧
    v3 (.vfma false 2 1 3) 3 0x3F800000 0x3F800000 0x9C800000 0x3F800000 2 = some 0x3F7FFFFF ∧
    v3 (.vfma false 2 1 3) 3 0x3F800000 0x3F800000 0x1C800000 0x3F800000 3 = some 0x3F800001 := by decide +kernel
/-- R56, R69: the worked E4M3 element 0x5C under scale 0.25 is 6.0. -/
theorem test_vcvt_scaled : (v3 (.vcvtRne false 3 1 3) 8 0x5C 0 0 0x3E800000).map (fun v => v.toNat % 2^32) = some 0x40C00000 := by decide +kernel
/-- R76: the unary C16 forms and the exchange. -/
theorem test_c16_forms :
    v3 (.vneg 1 3) 3 0x3F800000 0 0 = some (BitVec.ofNat 1024 ((List.range 32).map fun i => (if i = 0 then 0xBF800000 else 0x80000000) * 2^(32 * i)).sum) ∧
    v3 (.vswap 1 3) 1 7 0 9 = some 7 := by decide +kernel

/-- R134: the worked AMO.ADD.W on 0x7FFFFFFF: the word becomes 0x80000000 and the old value returns. -/
theorem test_amo_add_w :
    let a : Access := { accessOf (.amo 1 false 0) lastKey (.scratchpad 0) (some (.g 6)) with
      pieces := [{ port := .scratchpad 0, key := lastKey, bytes := 4, data := 1 }] }
    let s : State := { mem := Memory.apply {} (storeEdits lastKey 4 0x7FFFFFFF), dev := { (one whole).dev with accesses := [a], nextAccess := 1 } }
    (match exec (.accessPerform 0 0) s with
      | .next t => some (t.mem.nat lastKey 8)
      | _ => none) = some 0x80000000 := by decide +kernel
/-- R132, R133: LDF.C takes a full word and leaves it empty. -/
theorem test_ldf_consumes :
    let a := accessOf (.ldf true false) lastKey (.scratchpad 0) (some (.g 8))
    (match exec (.accessPerform 0 0) (inFlight a lastKey true) with
      | .next t => some (t.mem.isFull lastKey)
      | _ => none) = some false := by decide +kernel

/-! Witnesses: fences, monitors, caches, waits and messages. -/

theorem witness_Fences :
    (CanIssue (one whole) whole [] [] ∧ (one whole).mem.wf = true ∧ Drained (one whole) whole ∧
      ∀ q ∈ (one whole).dev.me.sends, q.owner ≠ (one whole).dev.slot) ∧
    (let a := accessOf .store lastKey (.scratchpad 0); let s := inFlight a lastKey true;
      CanIssue s whole [] [] ∧ s.mem.wf = true ∧ a ∈ s.dev.accesses ∧ partAt lastKey (.scratchpad 0) ∈ a.pieces ∧
      a.core = s.dev.core ∧ a.slot = s.dev.slot ∧ a.tid = whole.tid ∧ a.orphan = false ∧
      (partAt lastKey (.scratchpad 0)).done = false ∧ (Port.scratchpad 0).within 0 s.dev.core = true ∧ InTime s whole) :=
  ⟨⟨canIssue_of (by decide +kernel), by decide, ⟨by decide +kernel, by decide +kernel, rfl, rfl⟩, by decide +kernel⟩,
    canIssue_of (by decide +kernel), by decide +kernel, List.mem_singleton.2 rfl, List.mem_singleton.2 rfl, rfl, rfl, rfl, rfl, rfl,
    by decide +kernel, by unfold InTime; decide +kernel⟩

/-- Core 0 with a fence marker at its own die, which has received none of its writes. -/
def marking (count : BitVec 32) : State :=
  { mem := {}, dev := { (one whole).dev with markers := [{ core := 0, slot := 0, die := 0, count := count, arrived := true }] } }

theorem witness_FenceMarkers :
    ∀ count ∈ [(0 : BitVec 32), 0x80000001, 0x80000000, 1], let s := marking count;
      ∃ m, s.dev.markers[0]? = some m ∧ s.dev.linkState (dieOfCore m.core) m.die = .active ∧ m.arrived = true ∧ m.rel = none ∧
        (((assocGet m.die (s.dev.coreAt m.core).got).getD 0 - m.count).toNat < 2^31 ↔ count = 0 ∨ count = 0x80000001) := by
  intro count hc
  simp only [List.mem_cons, List.not_mem_nil, or_false] at hc
  rcases hc with rfl | rfl | rfl | rfl <;> exact ⟨_, rfl, by decide +kernel, rfl, rfl, by decide +kernel⟩

/-- A context with a monitor, which sleeps in SLEEPM. -/
def watcher : Context :=
  { whole with monitor := some ⟨0, lastKey, false, 3, true⟩, phase := .sleeping ⟨.monitor, 0, none, 127⟩ }

theorem witness_Monitors :
    (let x := holding 127 0xFE0000000003FFF8;
      CanIssue (one x) x [.g 127] [.g 0, .g 127] ∧ Settled (one x) x ∧ (x.getG 127).val.toNat % 8 = 0 ∧
      ∃ p, Reaches (one x) x (x.getG 127).val needR .sync p) ∧
    (CanIssue (one whole) whole [] [] ∧ Settled (one whole) whole) ∧
    (let x := { whole with monitor := some ⟨0, lastKey, true, 3, true⟩ };
      CanIssue (one x) x [] [.g 127] ∧ ∃ m, x.monitor = some m ∧ m.fired = true) ∧
    (let x := { whole with monitor := some ⟨0, lastKey, false, 3, true⟩ };
      CanIssue (one x) x [] [.g 127] ∧ (∀ m, x.monitor = some m → m.fired = false) ∧ x.regs.wakePending = false ∧ InTime (one x) x) ∧
    (let s : State := { mem := {}, dev := { (one watcher).dev with fires := [⟨0, 0, 0, 3⟩] } };
      s.dev.fires[0]? = some ⟨0, 0, 0, 3⟩ ∧ s.dev.findTid 0 0 0 = some (0, 0) ∧ s.dev.ctxAt 0 0 = some watcher ∧
      watcher.monitor = some ⟨0, lastKey, false, 3, true⟩ ∧ (s.dev.coreAt 0).halted = false ∧
      watcher.phase = .sleeping ⟨.monitor, 0, none, 127⟩ ∧ expired none s.dev.wall = none ∧ Unbound s 0 0 127) :=
  ⟨⟨canIssue_of (by decide +kernel), settled_of (by decide +kernel), by decide +kernel, at_of (by decide +kernel)⟩,
    ⟨canIssue_of (by decide +kernel), settled_of (by decide +kernel)⟩,
    ⟨canIssue_of (by decide +kernel), _, rfl, rfl⟩,
    ⟨canIssue_of (by decide +kernel), (by intro m h; cases h; rfl), rfl, by unfold InTime; decide +kernel⟩,
    rfl, by decide +kernel, rfl, rfl, rfl, rfl, rfl, ⟨no_binding 0 (.g 127), rfl⟩⟩

theorem witness_CacheInstructions :
    (let x := holding 127 0xFE0000000003FFF8;
      CanIssue (one x) x [.g 127] [.g 127] ∧ x.canTakeG true 127 ∧ isWindow (x.getG 127).val = true ∧ Settled (one x) x) ∧
    (∀ sa, let x := holding 127 0xFFF8;
      CanIssue (mapped x) x [.g 127] [.g 127] ∧ x.canTakeG sa 127 ∧ isWindow (x.getG 127).val = false ∧ Settled (mapped x) x ∧
      ∃ p, Reaches (mapped x) (x.tookG sa 127) (x.getG 127).val 0 .tile p) :=
  ⟨⟨canIssue_of (by decide +kernel), canTakeG_of (by decide +kernel) true, by decide +kernel, settled_of (by decide +kernel)⟩,
    fun sa => ⟨canIssue_of (by decide +kernel), canTakeG_of (by decide +kernel) sa, by decide +kernel, settled_of (by decide +kernel),
      by cases sa <;> exact at_of (by decide +kernel)⟩⟩

/-- Core 0 with one context in slot 0 and a stopped one in slot 15. -/
def besideStopped (x : Context) : State := ofCore ((coreWith x).setCtx 15 (some { whole with phase := .stopped 0 3 0 }))

theorem witness_SleepingWaits :
    (∀ n ∈ [(0 : Word), 1], ∀ w ∈ [false, true], let x := (holding 127 n).onRegs fun r => { r with wakePending := w };
      CanIssue (one x) x [.g 127] [.g 126, .g 127] ∧ x.canTakeG true 127 ∧ x.regs.wakePending = w ∧ InTime (one x) x ∧
      (x.getG 127).val = n ∧ (one x).dev.wall = 0) ∧
    (let x := holding 127 0x8000; let s := besideStopped x;
      CanIssue s x [.g 127] [.g 126, .g 127] ∧ x.canTakeG true 127 ∧ (x.getG 127).val.getLsbD 15 = true ∧
      (s.dev.me.ctx 15).map (·.isStopped) = some true ∧ ∀ i, i < 15 → (x.getG 127).val.getLsbD i = false) ∧
    (let x := holding 127 0x8000;
      CanIssue (one x) x [.g 127] [.g 126, .g 127] ∧ x.canTakeG true 127 ∧
      ∀ j, j < 16 → (x.getG 127).val.getLsbD j = true → (one x).dev.me.ctx j = none) ∧
    (∀ w ∈ [false, true], let x := (holding 127 0x8000).onRegs fun r => { r with wakePending := w };
      let s := ofCore ((coreWith x).setCtx 15 (some whole));
      CanIssue s x [.g 127] [.g 126, .g 127] ∧ x.canTakeG true 127 ∧ x.regs.wakePending = w ∧ InTime s x ∧
      (∀ j, j < 15 → (x.getG 127).val.getLsbD j = false) ∧ (x.getG 127).val.getLsbD 15 = true ∧
      s.dev.me.ctx 15 = some whole ∧ whole.isStopped = false) := by
  refine ⟨fun n hn w hw => ?_, ⟨canIssue_of (by decide +kernel), canTakeG_of (by decide +kernel) true, by decide +kernel, by decide +kernel,
    by decide +kernel⟩, ⟨canIssue_of (by decide +kernel), canTakeG_of (by decide +kernel) true, by decide +kernel⟩, fun w hw => ?_⟩
  · simp only [List.mem_cons, List.not_mem_nil, or_false] at hn hw
    rcases hn with rfl | rfl <;> rcases hw with rfl | rfl <;>
      exact ⟨canIssue_of (by decide +kernel), canTakeG_of (by decide +kernel) true, rfl, by unfold InTime; decide +kernel,
        by decide +kernel, by decide +kernel⟩
  · simp only [List.mem_cons, List.not_mem_nil, or_false] at hw
    rcases hw with rfl | rfl <;>
      exact ⟨canIssue_of (by decide +kernel), canTakeG_of (by decide +kernel) true, rfl, by unfold InTime; decide +kernel,
        by decide +kernel, by decide +kernel, rfl, rfl⟩

/-- A context that sleeps for a reason, bounded by an expiry. -/
def sleeper (k : WaitKind) (e : Option (Nat × BitVec 8)) : Context := { handled with phase := .sleeping ⟨k, 0, e, 127⟩ }
/-- The state of such a context at cycle 16 of its core and wall instant 7 ns. -/
def sleeping (x : Context) : State := { mem := {}, dev := { (ofCore { coreWith x with cyc := 16 }).dev with now := 7000000 } }

theorem witness_TimedWaitsEnd :
    ∀ k ∈ [WaitKind.cycle 16, .cycle 17, .wall 7, .wall 8], let x := sleeper k none; let s := sleeping x;
      s.dev.ctxAt 0 0 = some x ∧ x.phase = .sleeping ⟨k, 0, none, 127⟩ ∧ expired none s.dev.wall = none ∧ (s.dev.coreAt 0).halted = false ∧ Unbound s 0 0 127 ∧
      (s.dev.coreAt 0).cyc = 16 ∧ s.dev.wall = 7 := by
  intro k hk
  simp only [List.mem_cons, List.not_mem_nil, or_false] at hk
  rcases hk with rfl | rfl | rfl | rfl <;> exact ⟨rfl, rfl, rfl, rfl, ⟨no_binding 0 (.g 127), rfl⟩, rfl, by decide +kernel⟩

theorem witness_ExpiredWaitsTrap :
    ∀ c ∈ [(0x0A : BitVec 8), 0x0B], ∀ ts ∈ [[], [Taken.full (.g 127) none]],
    ∀ p ∈ [Phase.sleeping ⟨.monitor, 0, some (6, c), 127⟩, .sleeping ⟨.cycle 99, 0, some (6, c), 127⟩,
        .sleeping ⟨.slots 2, 0, some (6, c), 127⟩, .sleeping ⟨.wall 7, 0, some (6, c), 127⟩,
        .parked ⟨.retry, 0, some (6, c), 0⟩, .parked ⟨.queued, 0, some (6, c), 127⟩],
      let x := { handled with phase := p, taken := ts }; let s := sleeping x;
      s.dev.ctxAt 0 0 = some x ∧ (∃ w, x.wait? = some w ∧ w.expiry = some (6, c)) ∧ x.pending = [] ∧ HasHandler x ∧ x.taken = ts ∧
      (s.dev.coreAt 0).halted = false ∧ (s.dev.coreAt 0).fenced = false ∧ (s.dev.coreAt 0).cyc % 16 = 0 ∧
      (s.dev.coreAt 0).used ≠ some (s.dev.coreAt 0).cyc ∧
      (s.dev.coreAt 0).overdue = [] ∧ (s.dev.coreAt 0).semWaiters = [] ∧ s.dev.landings = [] ∧ 6 < s.dev.wall := by
  intro c hc ts ht p hp
  simp only [List.mem_cons, List.not_mem_nil, or_false] at hc ht hp
  rcases hc with rfl | rfl <;> rcases ht with rfl | rfl <;> rcases hp with rfl | rfl | rfl | rfl | rfl | rfl <;>
    exact ⟨rfl, ⟨_, rfl, rfl⟩, rfl, by unfold HasHandler; decide +kernel, rfl, rfl, rfl, by decide +kernel, by decide +kernel, rfl,
      rfl, rfl, by decide +kernel⟩

theorem witness_Withdrawals :
    (let a := { accessOf (.ldf true false) lastKey (.scratchpad 0) (some (.g 127)) with expiry := some (6, 0x0A) };
      let s : State := { mem := {}, dev := { (one whole).dev with accesses := [a], now := 7000000 } };
      s.dev.access 0 = some a ∧ a.id = 0 ∧ a.expiry = some (6, 0x0A) ∧ a.fault = none ∧ 6 < s.dev.wall ∧ a.complete = false) ∧
    (let x := awaitsResult [.g 127] 15 true
      let a := { accessOf (.ldf true false) lastKey (.scratchpad 0) (some (.g 127)) with
        expiry := some (6, 0x0A), withdrawn := true, before := some handled.regs };
      let s := arriving x a;
      s.dev.access 0 = some a ∧ a.id = 0 ∧ a.expiry = some (6, 0x0A) ∧ a.fault = none ∧ a.withdrawn = true ∧ a.orphan = false ∧
      a.before = some handled.regs ∧ s.dev.ctxAt a.core a.slot = some x ∧ x.tid = a.tid ∧ x.isStopped = false ∧
      (s.dev.coreAt a.core).halted = false) :=
  ⟨⟨rfl, rfl, rfl, rfl, by decide +kernel, by decide +kernel⟩, rfl, rfl, rfl, rfl, rfl, rfl, rfl, rfl, rfl, rfl, rfl⟩

theorem witness_ClockHaltAndResume :
    let s : State := { mem := {}, dev := { (ofCore { coreWith whole with halted := true, haltAt := 5 }).dev with agenda := [.cycle 0 9] } };
    (s.dev.coreAt 0).halted = true ∧ (s.dev.coreAt 0).semWaiters = [] ∧ (s.dev.coreAt 0).bufWaiters = [] ∧
    s.dev.agenda = [.cycle 0 9] ∧ ∃ t, step s = .next t :=
  ⟨rfl, rfl, rfl, rfl, goes_of (by decide +kernel)⟩

/-- A message of class 15 to core 0. -/
def note : Message := { from_ := 4, sender := 9, part := 0, to_ := 0, cls := 15, payload := 0xABC, atPort := some 0, delivered := true }
/-- Core 0 with class 15 bound to g127 of the context in slot 15. -/
def listening (x : Context) : Core := { ({} : Core).setCtx 15 (some x) with classes := ({} : Core).classes.set 15 (some (15, .g 127)) }

theorem witness_MessagesArrive :
    let sleeps := { whole with phase := .sleeping ⟨.monitor, 0, none, 1⟩ };
    ∀ x ∈ [whole, sleeps, holding 127 1],
      let s : State := { mem := {}, dev := { (ofCore (listening x)).dev with messages := [note] } }; let k := s.dev.coreAt 0;
      s.dev.messages[0]? = some note ∧ note.delivered = true ∧ note.follows = none ∧ note.cls < 16 ∧
      (∀ q ∈ s.dev.messages.take 0, ¬(q.sender = note.sender ∧ q.to_ = note.to_ ∧ q.cls = note.cls)) ∧
      k.classes[15]? = some (some (15, .g 127)) ∧ k.ctx 15 = some x ∧ k.waiting = [] ∧ k.saved = false ∧ k.tied = [] ∧
      k.halted = false ∧ k.lastDeposit = none ∧ k.woke = [] ∧ x.taken = [] ∧
      (∀ a ∈ s.dev.accesses, ¬(a.core = 0 ∧ a.slot = 15 ∧ a.tid = x.tid)) ∧ x.isStopped = false ∧
      Unbound s 0 15 1 ∧ expired none s.dev.wall = none := by
  intro sleeps x hx
  simp only [List.mem_cons, List.not_mem_nil, or_false] at hx
  rcases hx with rfl | rfl | rfl <;>
    exact ⟨rfl, rfl, rfl, by decide, by simp, rfl, rfl, rfl, rfl, rfl, rfl, rfl, rfl, rfl, fun a h => absurd h List.not_mem_nil, rfl,
      ⟨no_binding 15 (.g 1), rfl⟩, rfl⟩

theorem witness_MessagesArrive_registers :
    (whole.getG 127).full = false ∧ whole.phase = .ready ∧ ((holding 127 1).getG 127).full = true := by
  decide +kernel

theorem witness_DepositRetries :
    let q : Deposit := ⟨15, 0xABC, 9, 0, none⟩; let s := ofCore { listening whole with waiting := [q], dueNow := [q] };
    let k := s.dev.coreAt 0;
    k.waiting = [q] ∧ k.dueNow = [q] ∧ q.follows = none ∧ q.cls < 16 ∧ k.classes[q.cls]? = some (some (15, .g 127)) ∧
    k.ctx 15 = some whole ∧ whole.phase = .ready ∧ (whole.getG 127).full = false ∧ k.halted = false ∧ k.lastDeposit = none ∧
    k.woke = [] ∧ whole.taken = [] ∧ ∀ a ∈ s.dev.accesses, ¬(a.core = 0 ∧ a.slot = 15 ∧ a.tid = whole.tid) :=
  ⟨rfl, rfl, rfl, by decide, rfl, rfl, rfl, by decide +kernel, rfl, rfl, rfl, rfl, fun a h => absurd h List.not_mem_nil⟩

/-! Witnesses: the data side. -/

/-- A context all of whose vector registers are full and have a tag. -/
def tagged (c : BitVec 4) : Context :=
  { whole with regs := { whole.regs with v := Vector.replicate 64 ⟨0x3F3F3F3F, c, 0x3F800000, true, false⟩ } }
/-- The same with values in g127 and g126. -/
def taggedG (c : BitVec 4) (u w : Word) : Context := holding 126 w (holding 127 u (tagged c))

theorem canTakeV63 (c : BitVec 4) : (tagged c).canTakeV true 63 := canTakeV_of rfl true

theorem witness_IntegerElementsSaturate :
    tagOf 6 = .int true 8 ∧ tagOf 2 = .int false 32 ∧
    (elementMin true 8 ≤ exactVa .add (elementInt true 8 0x7F) (elementInt true 8 0) 0 ∧
      exactVa .add (elementInt true 8 0x7F) (elementInt true 8 0) 0 ≤ elementMax true 8) ∧
    exactVa .sub (elementInt true 8 0x80) (elementInt true 8 1) 0 < elementMin true 8 ∧
    elementMax false 32 < exactVa .add (elementInt false 32 0xFFFFFFFF) (elementInt false 32 1) 0 := by
  decide

theorem witness_LanewiseArithmetic :
    (∀ c ∈ [(3 : BitVec 4), 6], let x := tagged c;
      CanIssue (one x) x [.v 63, .v 0, .v 63] [.v 63, .v 63, .v 0] ∧ (x.getV 63).tag = c ∧ (x.getV 0).tag = c ∧
      acceptsVa .fma c = true ∧ acceptsVa .add c = true) ∧ fused .fma = true ∧
    (CanIssue (one (tagged 10)) (tagged 10) [.v 63, .v 31] [.v 63, .v 31] ∧ acceptsVa .add 10 = true ∧
      lanewiseShort .add 31 63 = some (.vaddC16 31 63)) := by
  refine ⟨fun c hc => ?_, rfl, canIssue_of (by decide +kernel), rfl, rfl⟩
  simp only [List.mem_cons, List.not_mem_nil, or_false] at hc
  rcases hc with rfl | rfl <;> exact ⟨canIssue_of (by decide +kernel), rfl, rfl, rfl, rfl⟩

theorem witness_LogicShiftsAndSelect :
    (∀ c ∈ [(0 : BitVec 4), 7], let x := tagged c;
      CanIssue (one x) x [.v 63, .v 0] [.v 63, .v 63, .v 0] ∧ CanIssue (one x) x [.v 63, .v 31] [.v 63, .v 31] ∧
      ((x.getV 63).tag = 0 ∨ isIntTag (x.getV 63).tag = true)) ∧
    (CanIssue (one (tagged 4)) (tagged 4) [.v 63] [.v 0, .v 63] ∧ accArith ((tagged 4).getV 63).tag = true ∧
      CanIssue (one (tagged 4)) (tagged 4) [.v 31] [.v 63, .v 31]) := by
  refine ⟨fun c hc => ?_, canIssue_of (by decide +kernel), rfl, canIssue_of (by decide +kernel)⟩
  simp only [List.mem_cons, List.not_mem_nil, or_false] at hc
  rcases hc with rfl | rfl <;> exact ⟨canIssue_of (by decide +kernel), canIssue_of (by decide +kernel), by decide +kernel⟩

theorem witness_ShortVectorForms :
    let x := tagged 6;
    CanIssue (one x) x [.v 31] [.v 63, .v 31] ∧ accArith (x.getV 31).tag = true ∧ CanIssue (one x) x [.v 31, .v 31] [.v 31, .v 31] :=
  ⟨canIssue_of (by decide +kernel), rfl, canIssue_of (by decide +kernel)⟩

theorem witness_ComparesAndMasks :
    (let x := tagged 10; CanIssue (one x) x [.v 63, .v 0] [.v 63, .v 0] ∧ accArithSp (x.getV 63).tag = true ∧ (x.getV 0).tag = 10) ∧
    CanIssue (one whole) whole [] [] ∧ CanIssue (one whole) whole [] [.g 127] ∧
    (let x := holding 127 5; CanIssue (one x) x [.g 127] [.g 127] ∧ x.canTakeG true 127) :=
  ⟨⟨canIssue_of (by decide +kernel), rfl, rfl⟩, canIssue_of (by decide +kernel), canIssue_of (by decide +kernel),
    canIssue_of (by decide +kernel), canTakeG_of (by decide +kernel) true⟩

theorem witness_Conversions :
    (CanIssue (one (tagged 3)) (tagged 3) (vRange 60 4) (vRange 63 1 ++ vRange 60 4) ∧ (∀ j, j < 4 → ((tagged 3).getV (60 + j)).tag = 3) ∧
      (tagOf 3).width / (tagOf 6).width = 4) ∧
    (CanIssue (one (tagged 8)) (tagged 8) (vRange 63 1) (vRange 60 4 ++ vRange 63 1) ∧ ((tagged 8).getV 63).tag = 8 ∧
      (tagOf 3).width / (tagOf 8).width = 4) ∧ (tagged 8).canTakeV true 63 :=
  ⟨⟨canIssue_of (by decide +kernel), by decide +kernel, rfl⟩, ⟨canIssue_of (by decide +kernel), rfl, rfl⟩, canTakeV63 8⟩

theorem witness_FunctionsAndQuantising :
    (CanIssue (one (tagged 5)) (tagged 5) [.v 63] [.v 63, .v 63] ∧ isFloatTag ((tagged 5).getV 63).tag = true) ∧
    (CanIssue (one (tagged 3)) (tagged 3) (vRange 60 4) (.v 63 :: vRange 60 4) ∧ ∀ j, j < 4 → ((tagged 3).getV (60 + j)).tag = 3) ∧
    (CanIssue (one (tagged 4)) (tagged 4) (vRange 62 2) (.v 63 :: vRange 62 2) ∧ ∀ j, j < 2 → ((tagged 4).getV (62 + j)).tag = 4) ∧
    (CanIssue (one (tagged 8)) (tagged 8) [.v 63, .v 0] [.v 1, .v 63, .v 0] ∧ ((tagged 8).getV 63).tag = 8 ∧
      ((tagged 8).getV 0).tag = 8) ∧ (tagged 3).canTakeV true 63 :=
  ⟨⟨canIssue_of (by decide +kernel), rfl⟩, ⟨canIssue_of (by decide +kernel), by decide +kernel⟩,
    ⟨canIssue_of (by decide +kernel), by decide +kernel⟩, ⟨canIssue_of (by decide +kernel), rfl, rfl⟩, canTakeV63 3⟩

/-- A core with a reduction in flight behind a result that is taken or not. -/
def reducing (taken held : Bool) (x : Context) : Core :=
  { coreWith x with rresSeq := 4, rresTaken := taken, reductions := [{ seq := 5, value := 9, slot := 15, held := held, launch := 0 }] }

theorem witness_Reductions :
    (let x := tagged 3; CanIssue (one x) x [.v 63] [.g 127, .v 63] ∧ x.canTakeV true 63 ∧ Settled (one x) x ∧
      accArithSp (x.getV 63).tag = true) ∧
    (∀ taken ∈ [true, false], let k := (ofCore (reducing taken false whole)).dev.coreAt 0;
      k.reductions = [{ seq := 5, value := 9, slot := 15, held := false, launch := 0 }] ∧ k.rresTaken = taken ∧ k.halted = false) ∧
    (∀ held ∈ [true, false], let x := holding 127 4; let s := ofCore (reducing false held x);
      CanIssue s x [.g 127] [.g 0, .g 127] ∧ x.canTakeG true 127 ∧ Settled s x ∧
      s.dev.me.rresSeq = (x.getG 127).val.setWidth 32 ∧ s.dev.me.rresTaken = false ∧ s.dev.me.rresPoison = false ∧
      s.dev.me.reductions = [{ seq := 5, value := 9, slot := 15, held := held, launch := 0 }]) := by
  refine ⟨⟨canIssue_of (by decide +kernel), canTakeV63 3, settled_of (by decide +kernel), rfl⟩, fun b hb => ?_, fun b hb => ?_⟩
  · simp only [List.mem_cons, List.not_mem_nil, or_false] at hb
    rcases hb with rfl | rfl <;> exact ⟨rfl, rfl, rfl⟩
  · simp only [List.mem_cons, List.not_mem_nil, or_false] at hb
    rcases hb with rfl | rfl <;>
      exact ⟨canIssue_of (by decide +kernel), canTakeG_of (by decide +kernel) true, settled_of (by decide +kernel),
        by decide +kernel, rfl, rfl, rfl⟩

theorem witness_ScansAndPermutations :
    let x := tagged 10;
    CanIssue (one x) x [.v 63] [.v 0, .v 63] ∧ accArithSp (x.getV 63).tag = true ∧ x.canTakeV true 63 ∧
    CanIssue (one x) x [.v 63, .v 62] [.v 0, .v 63, .v 62] ∧ CanIssue (one x) x [.v 63] [.v 62, .v 63, .v 63] ∧ (x.getV 63).tag = 10 :=
  ⟨canIssue_of (by decide +kernel), rfl, canTakeV63 10, canIssue_of (by decide +kernel), canIssue_of (by decide +kernel), rfl⟩

theorem witness_MovesBetweenFiles :
    let x := taggedG 6 5 127;
    (CanIssue (one x) x [.g 127] [.v 63, .g 127] ∧ x.canTakeG true 127 ∧ (12 : BitVec 4).toNat < 13 ∧ isIntTag 7 = true) ∧
    CanIssue (one x) x [.g 127, .g 126, .v 63] [.v 63, .g 127, .g 126] ∧ CanIssue (one x) x [.v 63, .g 126] [.g 0, .v 63, .g 126] ∧
    x.canTakeV true 63 ∧ CanIssue (one x) x [.v 63] [.v 63, .v 63] ∧ CanIssue (one x) x [.g 127, .g 126] [.g 126, .g 127, .g 126] ∧
    CanIssue (one x) x [.g 127, .g 126] [.v 63, .g 127, .g 126] :=
  ⟨⟨canIssue_of (by decide +kernel), canTakeG_of (by decide +kernel) true, by decide, rfl⟩,
    canIssue_of (by decide +kernel), canIssue_of (by decide +kernel), canTakeV_of (by decide +kernel) true,
    canIssue_of (by decide +kernel), canIssue_of (by decide +kernel), canIssue_of (by decide +kernel)⟩

/-! Witnesses: the matrix array, block queues and the sum-product engine. -/

/-- Core 0 with a slot 15 in some state, beside a context in slot 0. -/
def withSlot (o : OpSlot) (x : Context) : Core := { coreWith x with opSlots := ({} : Core).opSlots.set 15 o }
/-- The same in a launch that holds core 0 and its neighbour to the east. -/
def inLaunch (k : Core) : State :=
  let l : Launch := { id := 0, part := 0, vf := 0, queue := 0, index := 0, prio := 0, trace := false, cores := [0, 4] }
  { mem := {}, dev := { (ofCore k).dev with launches := [l] } }
/-- A descriptor of a fill: tag 4, rows 128 bytes apart. -/
def fillWord : Word := 0x800004

theorem witness_OperandSlots :
    (∀ o ∈ [({} : OpSlot), { state := .local_ }, { state := .full }, { state := .recv 2 }], let s := inLaunch (withSlot o whole);
      isGleaner s.dev.core = false ∧ Settled s whole ∧ s.dev.me.opSlots[15]? = some o ∧ CanIssue s whole [] [] ∧ o.owner = s.dev.slot ∧
      slotInUse s.dev s.dev.core 15 = false ∧ neighbourIn s.dev whole 2 = true ∧ o.poison = false) ∧
    (let x := addressing 0xFE0000000003FFC0 fillWord; let s := inLaunch (withSlot { state := .full } x);
      CanIssue s x [.g 127, .g 126] [.g 127, .g 126] ∧ x.canTakeG true 127 ∧ Settled s x ∧ (x.getG 126).val.toNat % 16 < 6 ∧
      (x.getG 126).val.toNat / 2^10 % 64 = 0 ∧ (x.getG 126).val.toNat / 2^16 % 2^24 = 128 ∧ (x.getG 127).val.toNat % 64 = 0) := by
  refine ⟨fun o ho => ?_, canIssue_of (by decide +kernel), canTakeG_of (by decide +kernel) true, settled_of (by decide +kernel),
    by decide +kernel⟩
  simp only [List.mem_cons, List.not_mem_nil, or_false] at ho
  rcases ho with rfl | rfl | rfl | rfl <;>
    exact ⟨by decide, settled_of (by decide +kernel), rfl, canIssue_of (by decide +kernel), rfl, by decide +kernel, by decide +kernel, rfl⟩

/-- Whether an engine got its bytes. -/
def gotBytes : Grab × Device → Bool
  | (.bytes _, _) => true
  | _ => false

theorem got_of {r : Grab × Device} (h : gotBytes r = true) : ∃ bs d, r = (.bytes bs, d) := by
  obtain ⟨g, d⟩ := r
  cases g with
  | bytes bs => exact ⟨bs, d, rfl⟩
  | _ => simp [gotBytes] at h

/-- A fill of slot 15 of core 0 from its own scratchpad. -/
def fill : Fill := { core := 0, slot := 0, op := 15, addr := 0xFE00000000000000, desc := fillWord, pc := 0, vf := 0, part := 0 }
/-- The state in which it is the only one. -/
def filling : State :=
  { mem := {}, dev := { (ofCore (withSlot { state := .local_, fills := 1 } whole)).dev with fills := [fill] } }

theorem witness_FillsComplete :
    let r := (fillAgent fill).units filling.mem .plain
      (fillUnits fill.addr (fill.desc.toNat % 16) (fill.desc.toNat / 2^16 % 2^24) (fill.desc.toNat / 2^40)) filling.dev [];
    filling.dev.fills[0]? = some fill ∧ fill.waiting = none ∧ fill.got = [] ∧ (∀ g ∈ filling.dev.fills.take 0, ¬(g.core = 0 ∧ g.op = 15)) ∧
    (filling.dev.coreAt 0).sends = [] ∧ (filling.dev.coreAt 0).arrayQ = [] ∧ (∃ bs d, r = (.bytes bs, d)) ∧
    ((r.2.coreAt 0).opSlots[15]?).map (fun o => (o.fills, o.firstFault)) = some (1, none) ∧ (r.2.coreAt 0).semImage = none :=
  ⟨rfl, rfl, rfl, by simp, rfl, rfl, got_of (by decide +kernel), by decide +kernel, by decide +kernel⟩

theorem witness_OperandStrings :
    (let q : Send := { slot := 15, dir := 2, owner := 0, ready := true }
      let o : OpSlot := { state := .full, tag := 5 };
      let k := { withSlot o whole with sends := [q] };
      let to_ : Core := { ({} : Core) with opSlots := ({} : Core).opSlots.set 0 { state := .recv 4 } };
      let s : State := { mem := {}, dev := { cores := [(0, k), (4, to_)] } };
      (s.dev.coreAt 0).sends = [q] ∧ q.ready = true ∧ q.matched = false ∧ neighbour 0 2 = some 4 ∧
      oldestClaim (s.dev.coreAt 4) (opposite 2) = some 0 ∧ (s.dev.coreAt 0).saved = false ∧ (s.dev.coreAt 4).saved = false ∧
      (s.dev.coreAt 0).opSlots[15]? = some o ∧ o.state = .full) ∧
    (let t : Transfer := { from_ := 0, source := 15, to_ := 4, target := 0, due := 66 }
      let o : OpSlot := { state := .full, tag := 5 };
      let s : State := { mem := {}, dev := { cores := [(0, withSlot o whole), (4, {})], transfers := [t], now := 66000000 } };
      s.dev.transfers[0]? = some t ∧ t.due ≤ s.dev.wall ∧ t.from_ ≠ t.to_ ∧ (s.dev.coreAt t.to_).saved = false ∧
      (s.dev.coreAt t.from_).opSlots[t.source]? = some o ∧ o.state = .full ∧ (s.dev.coreAt t.to_).opSlots[t.target]? = some {}) :=
  ⟨⟨rfl, rfl, rfl, by decide, by decide +kernel, rfl, rfl, rfl, rfl⟩, rfl, by decide +kernel, by decide, rfl, rfl, rfl, rfl⟩

/-- Core 0 with a paired A and B operand in its slots 0 and 1. -/
def pairedCore (x : Context) : Core :=
  { coreWith x with opSlots := (({} : Core).opSlots.set 0 { state := .full, tag := 4 }).set 1 { state := .full, tag := 5 } }

theorem witness_ArrayInstructions :
    let x := holding 127 0x13F; let s := ofCore (pairedCore x);
    isGleaner s.dev.core = false ∧ Settled s x ∧ s.dev.me.arrayQ.length < 8 ∧ CanIssue s x [] [] ∧ InTime s x ∧
    s.dev.me.opSlots[0]? = some { state := .full, tag := 4 } ∧ s.dev.me.opSlots[1]? = some { state := .full, tag := 5 } ∧
    Paired { state := .full, tag := 4 } { state := .full, tag := 5 } ∧ ({ state := .full, tag := 4 } : OpSlot).owner = s.dev.slot ∧
    CanIssue s x [.g 127] [.v 63, .g 127] ∧ (x.getG 127).val.toNat % 64 = 63 ∧ (x.getG 127).val.toNat / 256 % 4 = 1 ∧
    64 * 3 + 63 ∉ s.dev.me.accPoison :=
  ⟨by decide, settled_of (by decide +kernel), by decide +kernel, canIssue_of (by decide +kernel), by unfold InTime; decide +kernel, rfl, rfl,
    by unfold Paired; decide +kernel, rfl, canIssue_of (by decide +kernel), by decide +kernel, by decide +kernel, by decide +kernel⟩

/-- Core 0 with one entry of the array queue, of a context that is parked for it. -/
def arrayCore (op : ArrayOp) (started : Bool) : Core :=
  { pairedCore { whole with phase := .parked ⟨.array, 0, none, 0⟩ } with
    cyc := 16, arrayQ := [{ op := op, slot := 0, started := started, until_ := 16 }] }

theorem witness_ArrayStarts :
    ∀ op ∈ [ArrayOp.mma 0 0 1, .mmz 3 0 1, .azero 3, .aread 63 3 63 1], let e : ArrayEntry := { op := op, slot := 0, until_ := 16 }
      let s := ofCore (arrayCore op false); let k := s.dev.coreAt 0;
      k.arrayQ = [e] ∧ e.started = false ∧ k.halted = false ∧ k.saved = false ∧ e.groups = 0 ∧ entryLate s.dev k e = false ∧
      k.opSlots[0]? = some { state := .full, tag := 4 } ∧ k.opSlots[1]? = some { state := .full, tag := 5 } ∧
      64 * 3 + 63 ∉ k.accPoison := by
  intro op ho
  simp only [List.mem_cons, List.not_mem_nil, or_false] at ho
  rcases ho with rfl | rfl | rfl | rfl <;> exact ⟨rfl, rfl, rfl, rfl, rfl, by decide +kernel, rfl, rfl, by decide +kernel⟩

theorem witness_ArrayCompletes :
    ∀ op ∈ [ArrayOp.mma 3 0 1, .mmz 0 0 1, .azero 3, .aread 62 3 63 0, .aread 63 3 63 3],
      let e : ArrayEntry := { op := op, slot := 0, started := true, until_ := 16 }
      let s := ofCore (arrayCore op true); let k := s.dev.coreAt 0;
      k.arrayQ = [e] ∧ e.started = true ∧ k.halted = false ∧ e.until_ ≤ k.cyc ∧ e.groups = 0 ∧
      k.ctx 0 = some { whole with phase := .parked ⟨.array, 0, none, 0⟩ } ∧ ∀ n, k.bindingOf 0 (.v n) = none := by
  intro op ho
  simp only [List.mem_cons, List.not_mem_nil, or_false] at ho
  rcases ho with rfl | rfl | rfl | rfl | rfl <;> exact ⟨rfl, rfl, rfl, by decide +kernel, rfl, rfl, fun n => no_binding 0 (.v n)⟩

/-- A context parked until the reply to a block-queue request. -/
def asker : Context := { handled with phase := .parked ⟨.queued, 0, none, 127⟩ }
/-- A state with one request and perhaps one block queue 63. -/
def asking (kind : Nat) (b : List BlockQueue) : State :=
  { mem := {}, dev := { (one asker).dev with blockReqs := [⟨kind, 63, 9, 0, 0, 0⟩], blockQueues := b } }

theorem witness_BlockQueues :
    (let x := privileged 63; let s := one x;
      x.canTakeG true 127 ∧ Settled s x ∧ InTime s x ∧ CanIssue s x [.g 127] [.g 0, .g 127] ∧
      CanIssue s x [.g 127, .g 0] [.g 0, .g 127, .g 0] ∧ x.priv = true) ∧
    (∀ q ∈ [(0, [⟨63, 2, 1, 0, 0⟩]), (0, [⟨63, 2, 2, 0, 0⟩]), (2, [⟨63, 2, 2, 1, 0⟩]), (2, [⟨63, 2, 2, 2, 0⟩]), (3, [⟨63, 2, 2, 1, 0⟩]),
          (3, [⟨63, 2, 2, 2, 0⟩]), (3, []), (0, [(⟨63, 2, 1, 0, 1⟩ : BlockQueue)])],
      let s := asking q.1 q.2;
      s.dev.blockReqs[0]? = some ⟨q.1, 63, 9, 0, 0, 0⟩ ∧ s.dev.ctxAt 0 0 = some asker ∧ (s.dev.coreAt 0).halted = false ∧
      Unbound s 0 0 127 ∧ s.dev.lostDies = [] ∧ expired none s.dev.wall = none ∧ s.dev.linkState (dieOfCore 0) 9 = .active ∧ (s.dev.blockQueues.find? fun b => b.id == 63) = q.2.head?) ∧
    asker.phase = .parked ⟨.queued, 0, none, 127⟩ ∧ asker.taken = [] := by
  refine ⟨⟨canTakeG_of (by decide +kernel) true, settled_of (by decide +kernel), by unfold InTime; decide +kernel,
    canIssue_of (by decide +kernel), canIssue_of (by decide +kernel), rfl⟩, fun q hq => ?_, rfl, rfl⟩
  simp only [List.mem_cons, List.not_mem_nil, or_false] at hq
  rcases hq with rfl | rfl | rfl | rfl | rfl | rfl | rfl | rfl <;>
    exact ⟨rfl, rfl, rfl, ⟨no_binding 0 (.g 127), rfl⟩, rfl, rfl, by decide +kernel, by decide +kernel⟩

theorem witness_SumProductPasses :
    (let x := holding 126 0x1FFF (holding 127 146); let s := one x;
      CanIssue s x [.g 127, .v 63, .g 126] [.g 126, .g 127, .v 63] ∧ x.canTakeG true 127 ∧ Settled s x ∧ spBusy true s.dev = false ∧
      (buildTree (x.getG 127).val).isSome = true ∧ (x.getG 126).val.getLsbD 12 = true ∧ ∀ l, CleanScratch s.dev.me l) ∧
    (let x := holding 127 1 handled; let s := one x;
      CanIssue s x [.g 127, .v 63, .g 126] [.g 126, .g 127, .v 63] ∧ buildTree (x.getG 127).val = none ∧ x.pending = [] ∧ HasHandler x) :=
  ⟨⟨canIssue_of (by decide +kernel), canTakeG_of (by decide +kernel) true, settled_of (by decide +kernel), by decide +kernel,
      by decide +kernel, by decide +kernel, (fun _ _ _ h => by cases h)⟩,
    canIssue_of (by decide +kernel), by decide +kernel, rfl, by unfold HasHandler; decide +kernel⟩

theorem witness_SumProductScratch :
    (let x := holding 127 0xFFF; let s := one x;
      x.canTakeG true 127 ∧ Settled s x ∧ CanIssue s x [.g 127] [.v 63, .g 127] ∧ spBusy false s.dev = false ∧
      (∀ l, CleanScratch s.dev.me l) ∧ CanIssue s x [.g 127, .v 63] [.v 63, .g 127] ∧ CanIssue s x [.g 127] [.g 0, .g 127] ∧
      CanIssue s x [.g 127, .g 126] [.g 127, .g 126] ∧ CanIssue s x [] [.g 126]) ∧
    (∀ u ∈ [0, 9], let s := ofCore { coreWith whole with cyc := 8, engine := [(0, u)] };
      CanIssue s whole [] [.g 127] ∧ Settled s whole ∧ (0, u) ∈ s.dev.me.engine ∧ s.dev.me.cyc = 8 ∧ InTime s whole ∧
      (s.dev.coreAt 0).engine[0]? = some (0, u)) := by
  refine ⟨⟨canTakeG_of (by decide +kernel) true, settled_of (by decide +kernel), canIssue_of (by decide +kernel), by decide +kernel,
    (fun _ _ _ h => by cases h), canIssue_of (by decide +kernel), canIssue_of (by decide +kernel), canIssue_of (by decide +kernel),
    canIssue_of (by decide +kernel)⟩, fun u hu => ?_⟩
  simp only [List.mem_cons, List.not_mem_nil, or_false] at hu
  rcases hu with rfl | rfl <;>
    exact ⟨canIssue_of (by decide +kernel), settled_of (by decide +kernel), List.mem_singleton.2 rfl, rfl, by unfold InTime; decide +kernel, rfl⟩

/-! Witnesses: contexts, messages, groups and streams. -/

/-- Core 0 with a context in slot 0 and another in slot 15, in launch 0. -/
def pair (x y : Context) : State := inLaunch ((coreWith x).setCtx 15 (some y))
/-- The word that spawns slot 15 with the last windows of the register files. -/
def lastWindows : Word := 15 + 1920 * 16 + 128 * 2^15 + 448 * 2^23 + 64 * 2^32
/-- A stopped context. -/
def ended : Context := { whole with tid := 7, gBase := 128, phase := .stopped 3 9 0x13 }

theorem witness_Threads_spawn :
    (∀ w ∈ [(0 : Word), 15, lastWindows], let x := holding 127 w; let s := inLaunch (coreWith x);
      CanIssue s x [.g 127, .g 0] [.g 0, .g 127, .g 0] ∧ x.canTakeG true 127 ∧ Settled s x ∧ s.dev.slot = 0 ∧
      (∃ l, s.dev.launchAt x.part x.launch = some l) ∧ s.dev.me.slots[15]? = some none ∧ reservedSlot s.dev s.dev.core 15 = false ∧
      15 ∉ s.dev.me.tied ∧ s.dev.me.spawns[15]? = some 0) ∧
    (let x := holding 127 lastWindows; let v := (x.getG 127).val.toNat;
      v < 2^39 ∧ v % 16 = 15 ∧ v / 2^15 % 2^8 = 128 ∧ v / 2^32 % 2^7 = 64 ∧ v / 2^4 % 2^11 + v / 2^15 % 2^8 = 2048 ∧
      v / 2^23 % 2^9 + v / 2^32 % 2^7 = 512) ∧
    (let x := holding 127 lastWindows; ∀ q ∈ heldWindows (inLaunch (coreWith x)).dev 0,
      Apart 1920 128 q.1 q.2.1 ∧ Apart 448 64 q.2.2.1 q.2.2.2) := by
  refine ⟨fun w hw => ?_, by decide +kernel, by unfold Apart; decide +kernel⟩
  simp only [List.mem_cons, List.not_mem_nil, or_false] at hw
  rcases hw with rfl | rfl | rfl <;>
    exact ⟨canIssue_of (by decide +kernel), canTakeG_of (by decide +kernel) true, settled_of (by decide +kernel), rfl, ⟨_, rfl⟩,
      rfl, rfl, by decide +kernel, rfl⟩

theorem witness_Threads_others :
    (∀ w ∈ [(0 : Word), 15], let x := holding 127 w; let s := inLaunch (coreWith x);
      CanIssue s x [.g 127] [.g 0, .g 127] ∧ x.canTakeG true 127 ∧ Settled s x ∧ s.dev.slot = 0 ∧ s.dev.me.ctx 15 = none) ∧
    (∀ y ∈ [ended, whole, { whole with phase := .sleeping ⟨.monitor, 0, none, 1⟩ }],
      let x := holding 127 15; let s := pair x y;
      CanIssue s x [.g 127] [.g 0, .g 127] ∧ x.canTakeG true 127 ∧ Settled s x ∧ s.dev.me.ctx 15 = some y ∧ y.pending = [] ∧
      Unbound s s.dev.core 15 1 ∧ s.dev.me.woke = [] ∧ expired none s.dev.wall = none) ∧
    (ended.isStopped = true ∧ ended.phase = .stopped 3 9 0x13 ∧
      reapable (pair (holding 127 15) ended).dev (pair (holding 127 15) ended).dev.core 15 = true) := by
  refine ⟨fun w hw => ?_, fun y hy => ?_, rfl, rfl, by decide +kernel⟩
  · simp only [List.mem_cons, List.not_mem_nil, or_false] at hw
    rcases hw with rfl | rfl <;>
      exact ⟨canIssue_of (by decide +kernel), canTakeG_of (by decide +kernel) true, settled_of (by decide +kernel), rfl, rfl⟩
  · simp only [List.mem_cons, List.not_mem_nil, or_false] at hy
    rcases hy with rfl | rfl | rfl <;>
      exact ⟨canIssue_of (by decide +kernel), canTakeG_of (by decide +kernel) true, settled_of (by decide +kernel), rfl, rfl,
        ⟨no_binding 15 (.g 1), rfl⟩, rfl, rfl⟩

/-- A context with a word for MCLASS, in a core whose class 15 is bound to a slot. -/
def classed (w : Word) (o : Option (Nat × Reg)) : State :=
  ofCore { (coreWith (holding 127 w)).setCtx 15 (some whole) with classes := ({} : Core).classes.set 15 o }

theorem witness_Messages :
    (∀ q ∈ [((0x2000F : Word), none), (0x1000F, none), (0x7FEF, none), (0x00FF, some (0, Reg.g 1)), (0xC0FF, some (15, Reg.g 1)),
        (0xBFFF, some (15, Reg.g 1))],
      let x := holding 127 q.1; let s := classed q.1 q.2;
      CanIssue s x [.g 127] [.g 0, .g 127] ∧ x.canTakeG true 127 ∧ Settled s x ∧ s.dev.me.ctx 15 = some whole ∧
      s.dev.me.ctx 14 = none ∧ whole.isStopped = false ∧ s.dev.me.tied = [] ∧ s.dev.me.classes[15]? = some q.2 ∧
      (s.dev.me.ctx 0).isSome = true ∧ ∀ r, s.dev.me.bindingOf 15 r = none) ∧
    (whole.inWindow (.v 63) = true ∧ whole.inWindow (.v 64) = false ∧ whole.inWindow (.g 127) = true) := by
  refine ⟨fun q hq => ?_, by decide +kernel⟩
  simp only [List.mem_cons, List.not_mem_nil, or_false] at hq
  rcases hq with rfl | rfl | rfl | rfl | rfl | rfl <;>
    exact ⟨canIssue_of (by decide +kernel), canTakeG_of (by decide +kernel) true, settled_of (by decide +kernel), rfl, rfl, rfl,
      rfl, rfl, rfl, fun r => no_binding 15 r⟩

theorem witness_Messages_send :
    (let x := holding 127 0x3C0000 handled; let s := inPartition { blocks := [0] } x;
      x.canTakeG true 127 ∧ Settled s x ∧ CanIssue s x [.g 127, .g 126] [.g 127, .g 126] ∧
      CanIssue s x [.g 127, .g 126, .g 127] [.g 127, .g 126, .g 127] ∧ (x.getG 127).val.toNat < 2^22 ∧
      (s.dev.partAt x.part).hasCore 0 = true ∧ interfaceRoom s.dev 0 15 2 = true) ∧
    (let x := holding 127 0x400000 handled; let s := inPartition { blocks := [0] } x;
      CanIssue s x [.g 127, .g 126] [.g 127, .g 126] ∧ 2^22 ≤ (x.getG 127).val.toNat ∧ x.pending = [] ∧ HasHandler x) ∧
    (∀ o ∈ [none, some (0, Reg.g 1), some (15, Reg.g 1)],
      CanIssue (classed 15 o) (holding 127 15) [.g 127] [.g 0, .g 127] ∧ (holding 127 15).canTakeG true 127 ∧
      Settled (classed 15 o) (holding 127 15) ∧ (classed 15 o).dev.me.classes[15]? = some o ∧
      (classed 15 o).dev.slot = 0) := by
  refine ⟨⟨canTakeG_of (by decide +kernel) true, settled_of (by decide +kernel), canIssue_of (by decide +kernel),
      canIssue_of (by decide +kernel), by decide +kernel, by decide +kernel, by decide +kernel⟩,
    ⟨canIssue_of (by decide +kernel), by decide +kernel, rfl, by unfold HasHandler; decide +kernel⟩, fun o ho => ?_⟩
  simp only [List.mem_cons, List.not_mem_nil, or_false] at ho
  rcases ho with rfl | rfl | rfl <;>
    exact ⟨canIssue_of (by decide +kernel), canTakeG_of (by decide +kernel) true, settled_of (by decide +kernel), rfl, rfl⟩

/-- A launch whose group 254 has two members, in some phase. -/
def inGroup (g : Group) (x : Context) : State :=
  let l : Launch :=
    { id := 0, part := 0, vf := 0, queue := 0, index := 0, prio := 0, trace := false, cores := [0], groups := [g], workCount := 1 }
  { mem := {}, dev := { (one x).dev with launches := [l] } }
/-- The group. -/
def two (gen : BitVec 32) (here : List (BitVec 32)) : Group := { id := 254, members := [0, 1], generation := gen, arrived := here }

theorem witness_Barriers_issue :
    ∀ gen ∈ [(0 : BitVec 32), 1], let x := holding 127 254; let s := inGroup (two gen []) x;
      x.canTakeG true 127 ∧ groupIs s x (x.getG 127).val (two gen []) ∧ CanIssue s x [.g 127] [.g 0, .g 127] ∧ Drained s x ∧
      Settled s x ∧ InTime s x ∧ x.tid ∈ (two gen []).members ∧ CanIssue s x [.g 127, .g 0] [.g 1, .g 127, .g 0] := by
  intro gen hg
  simp only [List.mem_cons, List.not_mem_nil, or_false] at hg
  rcases hg with rfl | rfl <;>
    exact ⟨canTakeG_of (by decide +kernel) true, ⟨by decide +kernel, _, rfl, by decide +kernel⟩, canIssue_of (by decide +kernel),
      ⟨by decide +kernel, by decide +kernel, rfl, rfl⟩, settled_of (by decide +kernel), by unfold InTime; decide +kernel, by decide,
      canIssue_of (by decide +kernel)⟩

theorem witness_Barriers_phase : ((0 : BitVec 32) - 0 - 1).toNat ≥ 2^31 ∧ ((1 : BitVec 32) - 0 - 1).toNat < 2^31 := by decide

/-- A context parked for a reply. -/
def parkedFor (k : WaitKind) : Context := { whole with phase := .parked ⟨k, 0, none, 127⟩ }
/-- A state with one arrival on its way. -/
def arrivalOf (kind : Nat) (waits : Bool) (here : List (BitVec 32)) (k : WaitKind) : State :=
  let s := inGroup (two 5 here) (parkedFor k)
  { s with dev := { s.dev with arrivals := [⟨0, kind, 254, 0, 0, 0, waits, 3⟩] } }

theorem witness_Barriers_arrival :
    ∀ here ∈ [[], [1]], ∀ waits ∈ [true, false], let s := arrivalOf 0 waits here .queued;
      s.dev.arrivals[0]? = some ⟨0, 0, 254, 0, 0, 0, waits, 3⟩ ∧ s.dev.ctxAt 0 0 = some (parkedFor .queued) ∧ expired none s.dev.wall = none ∧
      (parkedFor .queued).part = (s.dev.coreAt 0).part ∧ (parkedFor .queued).launch = 0 ∧
      (s.dev.coreAt 0).halted = false ∧ Unbound s 0 0 127 ∧
      (∃ l, s.dev.launchAt (s.dev.coreAt 0).part 0 = some l ∧ (l.groups.find? fun q => q.id == 254) = some (two 5 here)) ∧
      0 ∉ (two 5 here).arrived ∧ (s.dev.cores.map Prod.fst).Nodup := by
  intro here hh waits hw
  simp only [List.mem_cons, List.not_mem_nil, or_false] at hh hw
  rcases hh with rfl | rfl <;> rcases hw with rfl | rfl <;>
    exact ⟨rfl, rfl, rfl, rfl, rfl, rfl, ⟨no_binding 0 (.g 127), rfl⟩, ⟨_, rfl, rfl⟩, by decide, by decide⟩

theorem witness_WorkLists :
    (∀ q ∈ [(BitVec.allOnes 64, []), (5, List.replicate 64 (1 : Word)), (5, List.replicate 63 (1 : Word))], let x := holding 127 q.1
      let s := ofCore { coreWith x with workList := q.2 };
      CanIssue s x [.g 127] [.g 0, .g 127] ∧ x.canTakeG true 127 ∧ Settled s x ∧ CanIssue s x [] [.g 126] ∧
      InTime s x ∧ s.dev.me.workList = q.2 ∧ (x.getG 127).val = q.1) ∧
    (∀ q ∈ [(2, WaitKind.pushed 3), (3, .queued)], let s := arrivalOf q.1 true [] q.2;
      s.dev.arrivals[0]? = some ⟨0, q.1, 254, 0, 0, 0, true, 3⟩ ∧ expired none s.dev.wall = none ∧ (parkedFor q.2).tid = 0 ∧ s.dev.ctxAt 0 0 = some (parkedFor q.2) ∧
      (s.dev.coreAt 0).halted = false ∧ Unbound s 0 0 127 ∧ ∃ l, s.dev.launchAt (s.dev.coreAt 0).part 0 = some l) := by
  refine ⟨fun q hq => ?_, fun q hq => ?_⟩
  · simp only [List.mem_cons, List.not_mem_nil, or_false] at hq
    rcases hq with rfl | rfl | rfl <;>
      exact ⟨canIssue_of (by decide +kernel), canTakeG_of (by decide +kernel) true, settled_of (by decide +kernel),
        canIssue_of (by decide +kernel), by unfold InTime; decide +kernel, rfl, by decide +kernel⟩
  · simp only [List.mem_cons, List.not_mem_nil, or_false] at hq
    rcases hq with rfl | rfl <;> exact ⟨rfl, rfl, rfl, rfl, rfl, ⟨no_binding 0 (.g 127), rfl⟩, _, rfl⟩

theorem witness_WorkLists_shipments :
    (let s : State := { mem := {}, dev := { shipments := [⟨0, 4, [9]⟩] } };
      s.dev.shipments[0]? = some ⟨0, 4, [9]⟩ ∧ ∀ r ∈ s.dev.shipments.take 0, r.to_ ≠ 4) ∧
    (let l : Launch := { id := 0, part := 0, vf := 0, queue := 0, index := 0, prio := 0, trace := false, cores := [0, 1] }
      let s : State := { mem := {}, dev := { launches := [l], now := 1000000000, cores := [(0, { workList := [1, 2] })] } };
      s.dev.launches[0]? = some l ∧ l.ended = none ∧ l.preempted = false ∧ s.dev.shipments = [] ∧ l.cores.Nodup ∧ l.started < s.dev.wall ∧
      (s.dev.wall - l.started) % (1000 * l.interval) = 0 ∧ l.sampled < (s.dev.wall - l.started) / (1000 * l.interval)) :=
  ⟨⟨rfl, by simp⟩, rfl, rfl, rfl, rfl, by decide, by decide +kernel, by decide +kernel, by decide +kernel⟩

/-- Dwords that are read at issue from a chip. -/
def dwordsAt (m : Memory) (x : Context) : Nat → Device → Word → List Word → Option (Device × List Word)
  | 0, d, _, acc => some (d.peerForget 7 (d.core, d.slot), acc)
  | n + 1, d, a, acc =>
    match locate m d d.core x.part x.vf (some (x, d.slot)) true a needR .plain with
    | (.at_ p, d1) =>
      if ownPending d1 p.key || d1.lostLine p.line || d1.lostDies.contains p.port.die || m.isPoisoned p.key || decide (p.kind ≠ .chip) then none
      else dwordsAt m x n d1 (a + 8) (acc ++ [m.word p.key])
    | _ => none

theorem readDwords_of {m : Memory} {x : Context} {n : Nat} {d d' : Device} {a : Word} {acc ws : List Word}
    (h : dwordsAt m x n d a acc = some (d', ws)) (f : Device → List Word → Verdict) : readDwords m x n d a acc f = f d' ws := by
  induction n generalizing d a acc with
  | zero =>
    simp only [dwordsAt, Option.some.injEq, Prod.mk.injEq] at h
    simp [readDwords, h.1, h.2]
  | succ n ih =>
    unfold dwordsAt at h
    split at h
    · rename_i p d1 hl
      split at h
      · cases h
      · rename_i hc
        simp only [Bool.or_eq_true, decide_eq_true_eq, not_or, Bool.not_eq_true, ne_eq, not_not] at hc
        obtain ⟨⟨⟨⟨h1, h2⟩, h3⟩, h4⟩, h5⟩ := hc
        have hm : misaligned a 1 = false := by simp [misaligned, Nat.mod_one]
        simp_all [readDwords, withPlace, withPlaceOf]
    · cases h

theorem dwords_of {m : Memory} {x : Context} {d : Device} {a : Word} {ws : List Word} {r : Option (Device × List Word)}
    (hr : dwordsAt m x ws.length d a [] = r) (h : r.map Prod.snd = some ws)
    (hc : r.map (fun q => (q.1.cores, q.1.core, q.1.slot, q.1.accesses)) = some (d.cores, d.core, d.slot, d.accesses)) : ∃ d', Dwords m x d a ws d' := by
  cases r with
  | none => simp at h
  | some q =>
    obtain ⟨d', ws'⟩ := q
    simp only [Option.map_some, Option.some.injEq, Prod.mk.injEq] at h hc
    subst h
    exact ⟨d', fun f => readDwords_of hr f, hc.1, hc.2.1, hc.2.2.1, hc.2.2.2⟩

/-- A memory with dwords from the first byte of the scratchpad of core 0. -/
def scratchWords (ws : List Word) : Memory :=
  Memory.apply {} (ws.zipIdx.map fun q => storeEdits (Config.scratchpadBase + 8 * q.2) 8 q.1.toNat).flatten
/-- A context with a generator number in g127 and the address of its scratchpad in g126. -/
def definer : Context := addressing 15 0xFE00000000000000
/-- A core whose generator 15 is as given. -/
def withGen (g : Gen) (x : Context) (m : Memory := {}) : State := { (ofCore { coreWith x with gens := ({} : Core).gens.set 15 g }) with mem := m }
/-- A defined generator of 8-byte elements in the scratchpad. -/
def stream (write : Bool) : Gen :=
  { defined := true, write := write, width := 8, count := 2, stride := 8, base := 0xFE00000000000000, vf := 0, owner := 0 }

theorem witness_Streams_define :
    (let x := definer; let s := withGen { stream false with bound := some (0, .g 1) } x;
      CanIssue s x [.g 127, .g 126] [.g 0, .g 127, .g 126] ∧ x.canTakeG true 127 ∧ Settled s x ∧
      (s.dev.me.gens[15]?).map (·.bound.isSome) = some true) ∧
    (∀ d2 ∈ [(0x300000000 : Word), 0x300000002], let x := definer; let ws := [0xFE00000000000000, 8, d2, 0]
      let s := withGen { stream true with queue := [] } x (scratchWords ws);
      CanIssue s x [.g 127, .g 126] [.g 0, .g 127, .g 126] ∧ x.canTakeG false 127 ∧ Settled s x ∧
      s.dev.me.gens[15]? = some { stream true with queue := [] } ∧
      (x.getG 126).val.toNat % 8 = 0 ∧ ∃ d', Dwords s.mem (x.tookG false 127) (tookDevice s (x.tookG false 127)) (x.getG 126).val ws d') ∧
    ¬ValidStream 0xFE00000000000000 8 0x300000000 0 ∧ ValidStream 0xFE00000000000000 8 0x300000002 0 := by
  refine ⟨⟨canIssue_of (by decide +kernel), canTakeG_of (by decide +kernel) true, settled_of (by decide +kernel), rfl⟩,
    fun d2 hd => ?_, fun h => h.count (by decide), ⟨rfl, by decide, by decide, by decide, by decide, by decide⟩⟩
  simp only [List.mem_cons, List.not_mem_nil, or_false] at hd
  rcases hd with rfl | rfl <;>
    exact ⟨canIssue_of (by decide +kernel), canTakeG_of (by decide +kernel) false, settled_of (by decide +kernel), rfl, by decide +kernel,
      dwords_of rfl (by decide +kernel) (by decide +kernel)⟩

theorem witness_Streams_others :
    (let x := holding 127 15; let s := withGen (stream false) x;
      CanIssue s x [.g 127] [.g 126, .g 127] ∧ x.canTakeG true 127 ∧ Settled s x ∧
      (∀ c, c ∈ s.dev.me.classes → c ≠ some (s.dev.slot, .g 126)) ∧ s.dev.me.gens[15]? = some (stream false) ∧
      (stream false).defined = true ∧ (stream false).bound = none ∧ (stream false).width = 8) ∧
    (∀ g ∈ [stream false, { stream false with bound := some (0, .g 1) }, { stream true with bound := some (0, .g 1), position := 2 }],
      let x := holding 127 15; let s := withGen g x;
      CanIssue s x [.g 127] [.g 0, .g 127] ∧ x.canTakeG true 127 ∧ Settled s x ∧ s.dev.me.gens[15]? = some g ∧ (g.write = true → g.queue = [] ∧ g.fault = none)) := by
  refine ⟨⟨canIssue_of (by decide +kernel), canTakeG_of (by decide +kernel) true, settled_of (by decide +kernel),
    by decide +kernel, rfl, rfl, rfl, rfl⟩, fun g hg => ?_⟩
  simp only [List.mem_cons, List.not_mem_nil, or_false] at hg
  rcases hg with rfl | rfl | rfl <;>
    exact ⟨canIssue_of (by decide +kernel), canTakeG_of (by decide +kernel) true, settled_of (by decide +kernel), rfl, by decide +kernel⟩

theorem witness_StreamElements_pop :
    let g := { stream false with bound := some (0, .g 127), queue := [some 5] }; let s := withGen g whole;
    CanIssue s whole [] [.g 126] ∧ Settled s whole ∧ whole.inWindow (.g 127) = true ∧ s.dev.me.bindingOf s.dev.slot (.g 127) = some 15 ∧
    s.dev.me.gens[15]? = some g ∧ g.write = false ∧ g.position < g.count ∧ g.reached = false :=
  ⟨canIssue_of (by decide +kernel), settled_of (by decide +kernel), by decide +kernel, by decide +kernel, rfl, rfl, by decide +kernel, rfl⟩

theorem witness_StreamElements_memory :
    (let g := { stream false with bound := some (0, .g 127), position := 1 }; let s := withGen g whole; let p := scratchPlace 0 8;
      (s.dev.coreAt 0).gens[15]? = some g ∧ g.defined = true ∧ g.write = false ∧ g.bound.isSome = true ∧ g.fault = none ∧ g.waiting = none ∧
      (s.dev.coreAt 0).halted = false ∧ g.queue.length < 8 ∧ s.dev.accesses = [] ∧ g.position + g.queue.length < g.count ∧
      ({ agentOf s.dev 0 g.vf 0 with l1 := true } : Agent).find s.mem s.dev (g.base + BitVec.ofInt 64 (g.stride * 1)) needR .plain = (.place p, s.dev) ∧
      s.mem.isPoisoned p.key = false ∧ p.port = .scratchpad 0 ∧ Config.scratchpadBase ≤ p.key) ∧
    (let g := { stream true with queue := [some 5], position := 1 }; let s := withGen g whole; let p := scratchPlace 0 0;
      (s.dev.coreAt 0).gens[15]? = some g ∧ g.fault = none ∧ g.waiting = none ∧ g.gaps = [] ∧ g.prior = [] ∧ g.holds = [] ∧
      (s.dev.coreAt 0).halted = false ∧ s.mem.isPoisoned p.key = false ∧ s.dev.ctxAt 0 g.owner = some whole ∧
      s.dev.accesses = [] ∧ s.dev.waiters = [] ∧ p.key % g.width = 0 ∧ s.mem.wf = true ∧
      (agentOf s.dev 0 g.vf 0).find s.mem s.dev (g.base + BitVec.ofInt 64 (g.stride * 0)) needW .plain = (.place p, s.dev)) :=
  ⟨⟨rfl, rfl, rfl, rfl, rfl, rfl, rfl, by decide, rfl, by decide, rfl, rfl, rfl, by decide +kernel⟩,
    rfl, rfl, rfl, rfl, rfl, rfl, rfl, by decide +kernel, rfl, rfl, by decide +kernel, by decide +kernel, by decide, rfl⟩

/-! Witnesses: semaphores, buffers, copies, translations and migrations. -/

/-- A core with semaphore 63 at a count, and perhaps a waiter. -/
def counting (c : BitVec 32) (ws : List SemWaiter) (x : Context) : State :=
  let s := ofCore { coreWith x with sems := ({} : Core).sems.set 63 c, semWaiters := ws }
  { s with dev := { s.dev with parts := [(0, { blocks := [0] })], signals := [⟨0, 63, 2⟩] } }

theorem witness_Semaphores :
    (∀ c ∈ [(5 : BitVec 32), 6], let x := addressing 63 6; let s := counting c [] x;
      x.canTakeG true 127 ∧ Settled s x ∧ s.dev.me.sems[63]? = some c ∧ CanIssue s x [.g 127, .g 126] [.g 0, .g 127, .g 126] ∧
      CanIssue s x [.g 127, .g 126] [.g 127, .g 126] ∧ CanIssue s x [.g 127] [.g 0, .g 127] ∧ InTime s x ∧
      s.dev.me.semWaiters = [] ∧ ((x.getG 126).val.setWidth 32 : BitVec 32).toNat = 6) ∧
    (let x := holding 127 64 handled; let s := counting 0 [] x; x.canTakeG true 127 ∧ Settled s x ∧
      CanIssue s x [.g 127, .g 126] [.g 0, .g 127, .g 126] ∧ 64 ≤ (x.getG 127).val.toNat ∧ (x.getG 127).val.getLsbD 24 = false ∧
      x.pending = [] ∧ HasHandler x) ∧
    (let x := holding 127 0x100003F; let s := counting 0 [] x; let v := (x.getG 127).val;
      CanIssue s x [.g 127, .g 126] [.g 0, .g 127, .g 126] ∧ x.canTakeG true 127 ∧ Settled s x ∧ v.getLsbD 24 = true ∧ v.toNat < 2^25 ∧ v.toNat / 2^6 % 16 = 0 ∧ (s.dev.partAt x.part).hasCore (v.toNat / 2^10 % 2^14) = true) ∧
    (∀ ws ∈ [[], [(⟨63, 5, 0⟩ : SemWaiter)]], let x := parkedFor .queued; let s := counting 3 ws x;
      s.dev.signals[0]? = some ⟨0, 63, 2⟩ ∧ (s.dev.coreAt 0).semImage = none ∧ (s.dev.coreAt 0).sems[63]? = some 3 ∧
      (s.dev.coreAt 0).halted = false ∧ (s.dev.coreAt 0).semWaiters = ws ∧ s.dev.ctxAt 0 0 = some x ∧ Unbound s 0 0 127 ∧
      expired none s.dev.wall = none) := by
  refine ⟨fun c hc => ?_, ⟨canTakeG_of (by decide +kernel) true, settled_of (by decide +kernel), canIssue_of (by decide +kernel), by decide +kernel,
    by decide +kernel, rfl, by unfold HasHandler; decide +kernel⟩,
    ⟨canIssue_of (by decide +kernel), canTakeG_of (by decide +kernel) true, settled_of (by decide +kernel), by decide +kernel⟩, fun ws hw => ?_⟩
  · simp only [List.mem_cons, List.not_mem_nil, or_false] at hc
    rcases hc with rfl | rfl <;>
      exact ⟨canTakeG_of (by decide +kernel) true, settled_of (by decide +kernel), rfl, canIssue_of (by decide +kernel),
        canIssue_of (by decide +kernel), canIssue_of (by decide +kernel), by unfold InTime; decide +kernel, rfl, by decide +kernel⟩
  · simp only [List.mem_cons, List.not_mem_nil, or_false] at hw
    rcases hw with rfl | rfl <;> exact ⟨rfl, rfl, rfl, rfl, rfl, rfl, ⟨no_binding 0 (.g 127), rfl⟩, rfl⟩

/-- A core with a circular buffer 7. -/
def buffered (b : Option CircBuf) (x : Context) : State :=
  let s := ofCore { coreWith x with bufs := ({} : Core).bufs.set 7 b }
  { s with dev := { s.dev with parts := [(0, { blocks := [0] })] } }
/-- A buffer of two entries of 8 bytes in the scratchpad of core 0. -/
def ring (claimed filled taken : Nat) : CircBuf :=
  { base := 0xFE00000000000080, entries := 2, bytes := 8, claimed := claimed, filled := filled, taken := taken }

theorem witness_CircularBuffers :
    (∀ b ∈ [ring 1 1 0, ring 1 0 0], let x := holding 127 7; let s := buffered (some b) x;
      x.canTakeG true 127 ∧ Settled s x ∧ s.dev.me.bufs[7]? = some (some b) ∧ CanIssue s x [.g 127] [.g 0, .g 127] ∧
      CanIssue s x [.g 127] [.g 127] ∧ InTime s x ∧ s.dev.me.bufWaiters = [] ∧
      CanIssue s x [.g 127, .g 126] [.g 0, .g 127, .g 126] ∧ (x.getG 127).val.toNat < 2^22 ∧ (s.dev.partAt x.part).hasCore 0 = true ∧
      b.claimed - b.freed < b.entries) ∧
    (let x := holding 127 7 handled; let s := buffered none x; x.canTakeG true 127 ∧ Settled s x ∧
      CanIssue s x [.g 127, .g 126] [.g 0, .g 127, .g 126] ∧ x.pending = [] ∧ HasHandler x ∧ s.dev.me.bufs[7]? = some none) := by
  refine ⟨fun b hb => ?_, canTakeG_of (by decide +kernel) true, settled_of (by decide +kernel), canIssue_of (by decide +kernel), rfl, by unfold HasHandler; decide +kernel, rfl⟩
  simp only [List.mem_cons, List.not_mem_nil, or_false] at hb
  rcases hb with rfl | rfl <;>
    exact ⟨canTakeG_of (by decide +kernel) true, settled_of (by decide +kernel), rfl, canIssue_of (by decide +kernel),
      canIssue_of (by decide +kernel), by unfold InTime; decide +kernel, rfl, canIssue_of (by decide +kernel), by decide +kernel,
      by decide +kernel, by decide +kernel⟩

theorem dwords_at {m : Memory} {x : Context} {d : Device} {a : Word} {ws : List Word}
    (h : dwordsAt m x ws.length d a [] = some (d, ws)) : Dwords m x d a ws d :=
  ⟨fun f => readDwords_of h f, rfl, rfl, rfl, rfl⟩

theorem placed_at {m : Memory} {x : Context} {d : Device} {a : Word} {align : Nat} {need : BitVec 3} {p : Place}
    (hm : misaligned a align = false) (h : locate m d d.core x.part x.vf (some (x, d.slot)) true a need .plain = (.at_ p, d)) :
    Placed m d x a align need p d := by
  refine ⟨fun f => ?_, rfl, rfl, rfl, rfl, rfl, rfl⟩
  simp [withPlace, withPlaceOf, hm, h]

/-- A memory with a queue header in the first 64 bytes of the memory that cluster 0 shares. -/
def headerWords (wr : Word) : Memory :=
  Memory.apply {} (([wr, 0, 0xFE01000000000040, 1, 0, 0, 0, 0].zipIdx.map fun q =>
    storeEdits (Config.scratchpadBase + 0x40000 + 8 * q.2) 8 q.1.toNat).flatten)
/-- A poster of the packet at the start of its scratchpad. -/
def poster : Context := addressing 0xFE01000000000000 0xFE00000000000000
/-- The state of the poster, whose queue has a write index. -/
def posting (wr : Word) : State := { inPartition { blocks := [0] } poster with mem := headerWords wr }

theorem witness_Copies_post : let d := tookDevice (posting 1) poster; let m := (posting 1).mem;
    (CanIssue (posting 1) poster [.g 127, .g 126] [.g 0, .g 127, .g 126] ∧ poster.canTakeG true 127 ∧ Settled (posting 1) poster ∧
      (poster.getG 127).val.toNat % 64 = 0 ∧ (poster.getG 126).val.toNat % 64 = 0) ∧
    Dwords m poster d (poster.getG 126).val (List.replicate 8 0) d ∧
    Placed m d poster (poster.getG 127).val 64 needRW (sharedPlace 0 0) d ∧ queuePlace (sharedPlace 0 0) = true ∧
    Dwords m poster d (poster.getG 127).val [1, 0, 0xFE01000000000040, 1, 0, 0, 0, 0] d ∧
    QueueHeader (posting 1) poster [1, 0, 0xFE01000000000040, 1, 0, 0, 0, 0] 1 0 0xFE01000000000040 1 0 ∧
    (let slot : Word := 0xFE01000000000040 + BitVec.ofNat 64 (64 * (1 % 2^1));
      Placed m d poster slot 64 needW (sharedPlace 0 128) d ∧ queuePlace (sharedPlace 0 128) = true ∧ m.wf = true ∧
      m.poisoned = [] ∧ (sharedPlace 0 0).key % 8 = 0 ∧ (sharedPlace 0 128).key % 8 = 0 ∧
      (sharedPlace 0 0).key + 8 ≤ (sharedPlace 0 128).key ∧
      d.waiters = [] ∧ d.lostLine (sharedPlace 0 128).line = false ∧ d.lostDies = [] ∧ (sharedPlace 0 0).kind = .chip ∧
      (sharedPlace 0 128).kind = .chip) ∧
    2^1 ≤ (2 + 2^64 - 0) % 2^64 ∧ (1 + 2^64 - 0) % 2^64 < 2^1 :=
  ⟨⟨canIssue_of (by decide +kernel), canTakeG_of (by decide +kernel) true, settled_of (by decide +kernel), by decide +kernel,
      by decide +kernel⟩, dwords_at (by decide +kernel), placed_at (by decide +kernel) (by decide +kernel), rfl,
    dwords_at (by decide +kernel),
    ⟨rfl, rfl, rfl, rfl, by decide, by decide, by decide, by decide +kernel, by decide, by decide⟩,
    ⟨placed_at (by decide +kernel) (by decide +kernel), rfl, by decide +kernel, by decide +kernel, by decide +kernel, by decide +kernel,
      by decide +kernel, rfl, by decide +kernel, rfl, rfl, rfl⟩, by decide, by decide⟩

/-- A notification for the engine of cluster 0. -/
def notice : Notice :=
  { cluster := 0, vf := 0, header := 0xFE01000000000000, ring := 0xFE01000000000040, log2n := 1, index := 0, privileged := false
    words := [1, 0, 0, 8, 0, 0, 0, 0], poster := some (0, 0) }
/-- Its queue. -/
def queueOf (l : List Notice) : CopyQueue :=
  { vf := 0, header := 0xFE01000000000000, ring := 0xFE01000000000040, log2n := 1, waiting := l, notified := 1, started := 0, read := 0 }

theorem witness_Copies_engine :
    (∀ l ∈ [[], [notice]], let s : State := { mem := {}, dev := { notices := [notice], engines := [(0, [queueOf l])] } };
      s.dev.notices[0]? = some notice ∧ s.dev.engineAt notice.cluster = [] ++ queueOf l :: [] ∧ (queueOf l).vf = notice.vf ∧
      (queueOf l).header = notice.header ∧ (queueOf l).waiting = l) ∧
    (let s : State := { mem := {}, dev := { engines := [(0, [queueOf [notice]])] } };
      (s.dev.packets.filter fun p => p.cluster == 0 && p.started).length < 16 ∧
      ((s.dev.engineAt 0).findIdx? fun c => startable s.dev 0 c) = some 0 ∧ (s.dev.engineAt 0)[0]? = some (queueOf [notice]) ∧
      (queueOf [notice]).waiting = [notice] ∧ (notice.words.getD 0 0).getLsbD 9 = false) := by
  refine ⟨fun l hl => ?_, by decide +kernel, by decide +kernel, rfl, rfl, rfl⟩
  simp only [List.mem_cons, List.not_mem_nil, or_false] at hl
  rcases hl with rfl | rfl <;> exact ⟨rfl, rfl, rfl, rfl, rfl⟩

/-- The copy of a CBPUT into entry 1 of buffer 7 of core 0. -/
def bufferCopy : Packet :=
  { cluster := 0, queue := 0, vf := 0, index := 0, slotAddr := 0, words := [0x1C00000201, 0xFE00000000000000, 0, 8, 0, 0, 0, 0]
    privileged := false, poster := some (0, 0), claim := some 1, cbput := true }
/-- The state in which it runs. -/
def copying : State :=
  let s := buffered (some (ring 2 1 0)) whole
  { s with dev := { s.dev with packets := [bufferCopy], vfs := [(0, { part := some 0 })] } }

theorem witness_Copies_complete : let s := copying; let pk := bufferCopy;
    ∃ q, planOf s.dev pk = .ok q ∧ q.rows = 1 ∧ q.rowBytes = 8 ∧ q.src = .mem 0xFE00000000000000 ∧ q.dst = 0xFE00000000000088 ∧
      chunkBytes (packetAgent s.dev pk) s.mem s.dev pk q 0 8 = (.bytes (List.replicate 8 0), s.dev) ∧
      (packetAgent s.dev pk).targets s.mem (cuts (8 + 1) q.dst 8) s.dev [] = (.ok [(scratchPlace 0 0x88, 8)], s.dev) ∧
      s.dev.packets[0]? = some pk ∧ (pk.cbput = true ∧ pk.waiting = none ∧ pk.migrating = false ∧ pk.chunks = 0 ∧ pk.started = true ∧
        pk.status = none ∧ pk.rest = [] ∧ pk.claim = some 1 ∧ (ring 2 1 0).ready = [] ∧ s.dev.lostDies = [] ∧ s.dev.waiters = [] ∧
        (scratchPlace 0 0x88).kind = .chip ∧ ∀ i, s.mem.isPoisoned ((scratchPlace 0 0x88).key + i) = false) ∧ (pk.words.getD 0 0).toNat % 256 = 1 ∧ (pk.words.getD 0 0).getLsbD 9 = true ∧
      (pk.words.getD 0 0).getLsbD 10 = false ∧ (pk.words.getD 0 0).toNat / 2^20 % 2^14 = 0 ∧
      (pk.words.getD 0 0).toNat / 2^34 % 8 = 7 ∧
      (s.dev.partAt (agentOf s.dev (pk.cluster * 4) pk.vf (pk.cluster * 4)).part).hasCore 0 = true ∧
      (s.dev.coreAt 0).bufs[7]? = some (some (ring 2 1 0)) ∧ (ring 2 1 0).filled = 1 ∧ (s.dev.coreAt 0).bufWaiters = [] ∧
      8 ≤ 128 - q.dst.toNat % 128 ∧ s.mem.wf = true :=
  ⟨⟨0xFE00000000000088, 1, 8, 0, 0, .mem 0xFE00000000000000⟩, rfl, rfl, rfl, rfl, rfl, by rfl, by rfl, rfl,
    ⟨rfl, rfl, rfl, rfl, rfl, rfl, rfl, rfl, rfl, rfl, rfl, rfl, fun _ => rfl⟩, by decide, by decide, by decide,
    by decide, by decide, by decide +kernel, rfl, rfl, rfl, by decide, by decide⟩

/-! Witnesses: a full queue, translations, migrations and fault queues. -/

theorem witness_Copies_full : let d := tookDevice (posting 2) poster; let m := (posting 2).mem;
    CanIssue (posting 2) poster [.g 127, .g 126] [.g 0, .g 127, .g 126] ∧ poster.canTakeG true 127 ∧ Settled (posting 2) poster ∧
    2^1 ≤ (2 + 2^64 - 0) % 2^64 ∧ Dwords m poster d (poster.getG 126).val (List.replicate 8 0) d ∧
    Placed m d poster (poster.getG 127).val 64 needRW (sharedPlace 0 0) d ∧
    Dwords m poster d (poster.getG 127).val [2, 0, 0xFE01000000000040, 1, 0, 0, 0, 0] d ∧
    QueueHeader (posting 2) poster [2, 0, 0xFE01000000000040, 1, 0, 0, 0, 0] 2 0 0xFE01000000000040 1 0 :=
  ⟨canIssue_of (by decide +kernel), canTakeG_of (by decide +kernel) true, settled_of (by decide +kernel), by decide,
    dwords_at (by decide +kernel), placed_at (by decide +kernel) (by decide +kernel),
    dwords_at (by decide +kernel), ⟨rfl, rfl, rfl, rfl, by decide, by decide, by decide, by decide +kernel, by decide, by decide⟩⟩

/-- A context with the address of a tensor record, and the record in its scratchpad. -/
def registrar : Context := { holding 127 0xFE00000000000000 with priv := true }
/-- The mapped state with a record in the scratchpad and perhaps the tensor of id 5 registered. -/
def recorded4 (ws : List Word) (ts : List Tensor) : State :=
  let s := mapped registrar
  { mem := s.mem.apply (ws.zipIdx.map fun q => storeEdits (Config.scratchpadBase + 8 * q.2) 8 q.1.toNat).flatten
    dev := s.dev.onPart 0 fun p => { p with tensors := ts } }

/-- A record that names tensor 5, and one that drops it. -/
def named5 : List Word := [0, 0x600000005, 0x2000000020, 0]
def dropped5 : List Word := [0, 0x600000005, 0, 0]

/-- In turn: an invalid record, a tensor not registered, one registered, a tensor that overlaps another, one that may be registered
and one that may be dropped. -/
theorem witness_Translations_register :
    ∀ q ∈ [([0, 0, 0, 1], []), (dropped5, []), (named5, [tileTensor]), (named5, [{ tileTensor with id := 6 }]), (named5, []),
        (dropped5, [tileTensor])],
      let s := recorded4 q.1 q.2; let x := registrar;
      CanIssue s x [.g 127] [.g 0, .g 127] ∧ x.canTakeG true 127 ∧ Settled s x ∧ (x.getG 127).val.toNat % 8 = 0 ∧ q.1.length = 4 ∧
      Dwords s.mem x (tookDevice s x) (x.getG 127).val q.1 (tookDevice s x) ∧
      assocGet x.part (tookDevice s x).parts = some ((tookDevice s x).partAt x.part) ∧
      ((tookDevice s x).partAt x.part).tensors = q.2 := by
  intro q hq
  simp only [List.mem_cons, List.not_mem_nil, or_false] at hq
  rcases hq with rfl | rfl | rfl | rfl | rfl | rfl <;>
    exact ⟨canIssue_of (by decide +kernel), canTakeG_of (by decide +kernel) true, settled_of (by decide +kernel), by decide +kernel, rfl,
      dwords_at (by decide +kernel), rfl, rfl⟩

theorem witness_Translations_record :
    tensorRecord named5 0 0 = some (5, some tileTensor) ∧ tensorRecord dropped5 0 0 = some (5, none) ∧
    ({ tileTensor with id := 6 } : Tensor).base.toNat < tileTensor.base.toNat + tileTensor.footprint := by
  decide +kernel

/-- The one page of the tensor is an ordinary one whose frame nothing uses. -/
theorem witness_Translations_frames : let s := recorded4 named5 []; let d := tookDevice s registrar;
    tileTensor.pages = [0] ∧ (ordinaryFrame s.mem d 0 0 0).isSome = true ∧
    ∀ f ∈ tileTensor.pages.filterMap (fun a => ordinaryFrame s.mem d 0 0 a), busyFrame d f 65536 = false ∧ heldLines d f 65536 = [] := by
  decide +kernel

theorem tensors_of (ws : List Word) (ts : List Tensor) : ((recorded4 ws ts).dev.partAt 0).tensors = ts := rfl

/-- The partition holds as many tensors as it may. -/
theorem witness_Translations_full :
    let ts := List.replicate 4096 { tileTensor with id := 6 };
    ((recorded4 named5 ts).dev.partAt 0).tensors = ts ∧ (∀ t ∈ ts, t.id ≠ 5) ∧ 4096 ≤ ts.length := by
  intro ts
  refine ⟨tensors_of _ _, fun t h => ?_, ?_⟩
  · rw [List.eq_of_mem_replicate h]
    decide
  · simp only [ts, List.length_replicate, Nat.le_refl]

theorem witness_Translations_drop :
    ∀ vf ∈ [(0 : Word), 1], let x := { addressing 0xFFFF vf with priv := true }; let s := mapped x;
      CanIssue s x [.g 127, .g 126] [.g 127, .g 126] ∧ x.canTakeG true 127 ∧ Settled s x ∧ x.priv = true ∧
      CanIssue s x [] [.g 0] ∧ (∀ a ∈ s.dev.accesses, a.part = x.part → a.id < x.tlbMark → a.complete = true) ∧
      (∀ k ∈ s.dev.packets, (s.dev.vfAt k.vf).part = some x.part → k.rest = []) ∧
      ((s.dev.vfAt ((x.getG 126).val.toNat % 512)).part = if vf = 0 then some 0 else none) := by
  intro vf hv
  simp only [List.mem_cons, List.not_mem_nil, or_false] at hv
  rcases hv with rfl | rfl <;>
    exact ⟨canIssue_of (by decide +kernel), canTakeG_of (by decide +kernel) true, settled_of (by decide +kernel), rfl,
      canIssue_of (by decide +kernel), (fun _ h => by cases h), (fun _ h => by cases h), by decide +kernel⟩

/-- A context that migrates a page to a die, and the mapped state with a frame of die 1 in its pool. -/
def mover (page w : Word) : Context := { addressing page w with priv := true }
def pooled (x : Context) : State :=
  let s := mapped x
  { s with dev := s.dev.onPart 0 fun p => { p with pool := [(1, 2^42)] } }
/-- The frame of the mapped page and the key of its entry. -/
def mappedEntry : Word := 0x10000F

theorem witness_Migrations_issue :
    (∀ q ∈ [((0 : Word), (0x400 : Word)), (0, 8), (0x10000, 1), (0, 0x3F1)], let x := mover q.1 q.2; let s := pooled x;
      CanIssue s x [.g 127, .g 126] [.g 0, .g 127, .g 126] ∧ x.canTakeG true 127 ∧ Settled s x ∧ x.priv = true ∧ (x.getG 127).val = q.1 ∧
      (x.getG 126).val = q.2) ∧
    (let x := mover 0x10000 1; let s := pooled x; walk s.mem s.dev x.part x.vf 0x10000 = .fault 0) ∧
    (let x := mover 0 0x3F1; let s := pooled x;
      walk s.mem s.dev x.part x.vf 0 = .leaf 4 mappedEntry (tableFrame 4) ∧ mappedEntry.getLsbD 4 = false ∧
      mappedEntry.getLsbD 5 = false ∧ mappedEntry.getLsbD 11 = false ∧ (s.dev.partAt x.part).tileView x.vf 4 0 = false ∧
      ((s.dev.partAt x.part).pool.find? fun q => q.1 == 0x3F1 % 16) = some (0x3F1 % 16, 2^42) ∧ s.dev.waiters = [] ∧
      s.mem.wf = true) := by
  refine ⟨fun q hq => ?_, by decide +kernel, by decide +kernel⟩
  simp only [List.mem_cons, List.not_mem_nil, or_false] at hq
  rcases hq with rfl | rfl | rfl | rfl <;>
    exact ⟨canIssue_of (by decide +kernel), canTakeG_of (by decide +kernel) true, settled_of (by decide +kernel), rfl,
      by decide +kernel, by decide +kernel⟩

/-- The migration that such a MIGR starts. -/
def migration : Migration :=
  { part := 0, vf := 0, page := 0, entryKey := tableFrame 4, entry := mappedEntry ||| 0x800, source := codeFrame, target := 2^42
    sourceDie := 0, targetDie := 1, sem := some (0, 63), packet := none }
/-- The state in which it runs. -/
def migrating : State :=
  let s := pooled (mover 0 0)
  { mem := s.mem.apply (storeEdits (tableFrame 4) 8 (mappedEntry ||| 0x800).toNat), dev := { s.dev with migrations := [migration] } }

theorem witness_Migrations_complete : let s := migrating; let g := migration;
    s.dev.migrations[0]? = some g ∧ s.dev.lostDies = [] ∧ s.dev.lines = [] ∧ s.dev.accesses = [] ∧ s.dev.waiters = [] ∧
    (s.dev.partAt g.part).fqbase = 0 ∧ s.mem.wf = true ∧ s.mem.word g.entryKey = g.entry ∧ g.source % 65536 = 0 ∧
    g.target % 65536 = 0 ∧ g.source ≠ g.target ∧ g.entryKey + 8 ≤ g.source ∧ g.entryKey + 8 ≤ g.target :=
  ⟨rfl, rfl, rfl, rfl, rfl, by decide +kernel, by decide +kernel, by decide +kernel, by decide, by decide, by decide, by decide,
    by decide⟩

/-- A partition with a fault queue of two entries, one of them written. -/
def queueing : Partition :=
  { blocks := [0], channels := [(0, 0, 1)], fqbase := 0x100001, fqwr := 1, faults := [⟨some 0, [0, 0x10000]⟩] }

theorem witness_FaultQueues :
    (let h : Ahead := { regs := whole.regs, pages := [0x10001], stopped := true }
      let x := { whole with phase := .faulted 0 0x10000 needR h }; let s := inPartition queueing x;
      s.dev.ctxAt 0 0 = some x ∧ x.phase = .faulted 0 0x10000 needR h ∧ h.stopped = true ∧ h.pages.length ≤ 16 ∧
      s.dev.lines = [] ∧ s.dev.lostDies = [] ∧ (s.dev.partAt x.part).fqbase ≠ 0 ∧
      (∀ f ∈ (s.dev.partAt x.part).faults, f.index.isSome = true) ∧
      ((s.dev.partAt x.part).fqwr - (s.dev.partAt x.part).fqrd).toNat < 2^((s.dev.partAt x.part).fqbase.toNat % 16) ∧
      assocGet x.part s.dev.parts = some (s.dev.partAt x.part) ∧ s.dev.waiters = [] ∧ s.mem.wf = true) ∧
    (let x := { whole with phase := .faulted 0 0x10000 needR { regs := whole.regs, stopped := true } }
      let s := inPartition { queueing with fqwr := 2 } x;
      s.dev.ctxAt 0 0 = some x ∧ 2^((s.dev.partAt x.part).fqbase.toNat % 16) ≤ ((s.dev.partAt x.part).fqwr - (s.dev.partAt x.part).fqrd).toNat) ∧
    (let x := { whole with phase := .swept 0 }; let s := inPartition queueing x;
      assocGet 0 s.dev.parts = some queueing ∧ (queueing.faults.find? fun f => f.index == some 0) = some ⟨some 0, [0, 0x10000]⟩ ∧
      s.dev.ctxAt 0 0 = some x ∧ x.part = 0 ∧ (s.dev.coreAt 0).part = 0 ∧ x.phase = .swept 0) ∧
    (let p := { queueing with faults := [] }; let s := inPartition p whole;
      assocGet 0 s.dev.parts = some p ∧ s.dev.waiters = [] ∧ (p.fqwr - 1).toNat ≤ 2^(p.fqbase.toNat % 16) ∧
      (p.trwr - 0).toNat ≤ 2^(p.trbase.toNat % 32) ∧ p.held = [] ∧ (p.krwr - 0).toNat ≤ 2^(p.krbase.toNat % 32) ∧
      2^(p.fqbase.toNat % 16) < (p.fqwr - 2).toNat ∧ p.owns 0x100000 = true ∧ (dieOfPa 0x100000, 0x100000) ∉ p.pool) :=
  ⟨⟨rfl, rfl, rfl, by decide, rfl, rfl, by decide +kernel, by decide +kernel, by decide +kernel, rfl, rfl, rfl⟩, ⟨rfl, by decide +kernel⟩,
    ⟨rfl, rfl, rfl, rfl, rfl, rfl⟩, rfl, rfl, by decide, by decide, rfl, by decide, by decide, by decide +kernel, by decide⟩

/-- A context in run-ahead: g2 is unknown, g1 holds 5 in the shadow registers. -/
def runningAhead (n : Nat) : Context :=
  { whole with phase := .faulted 0 0x10000 needR { regs := (holding 1 5).regs, unknown := [.g 2, .v 3], pages := [0x10001], issued := n } }

/-- With a destination that was unknown, and with the 64th instruction. -/
theorem witness_FaultQueues_ahead :
    ∀ n ∈ [0, 63], let x := runningAhead n; let s := one x; let h : Ahead := { regs := (holding 1 5).regs, unknown := [.g 2, .v 3], pages := [0x10001], issued := n };
      s.dev.cur = some x ∧ x.phase = .faulted 0 0x10000 needR h ∧ h.stopped = false ∧ h.hidden = false ∧
      (∀ k, s.dev.me.bindingOf s.dev.slot (.g k) = none) ∧ (∀ r ∈ [Reg.g 2, Reg.g 1], x.inWindow r = true) ∧ Reg.g 1 ∉ h.unknown ∧
      let y : Context := { x with regs := h.regs, phase := .ready, pending := [] }
      (y.getG 1).poison = false := by
  intro n hn
  simp only [List.mem_cons, List.not_mem_nil, or_false] at hn
  rcases hn with rfl | rfl <;> exact ⟨rfl, rfl, rfl, rfl, fun k => no_binding 0 (.g k), by decide, by decide, by decide +kernel⟩

/-- In run-ahead ADD g2, g1, g1 writes a shadow register, which is known then, and nothing else (R354). -/
theorem test_run_ahead :
    (match exec (.add false 1 1 2) (one (runningAhead 0)) with
    | .next t => t.dev.cur.map fun x => (match x.phase with
      | .faulted _ _ _ h => ((h.regs.g[2]?).map GReg.val, h.unknown, h.issued)
      | _ => (none, [], 0), (x.getG 2).val, x.regs.pc)
    | _ => none) = some ((some 10, [.v 3], 1), 0, 0) := by
  decide +kernel

/-! Witnesses: tokens, links, landings and the mesh. -/

/-- A state with one line of memory that is not as reset left it, and one access to it, whose page the cluster has translated. -/
def onLine (l : LineState) (kind : AccessKind) : State :=
  { mem := {}, dev := { (one whole).dev with
    accesses := [accessOf kind 0x100000 (.slice 2 0x2000)], nextAccess := 1, lines := [(0x2000, l)]
    tlb := [{ cluster := 0, vf := 0, base := 0, level := 4, entry := 0x100007 }] } }
/-- The part of such an access. -/
def onLinePart : Piece := partAt 0x100000 (.slice 2 0x2000)

theorem witness_TokenRequests_ask :
    (let s := onLine { home := 1 } (.load true 8); let a := accessOf (.load true 8) 0x100000 (.slice 2 0x2000);
      s.dev.access 0 = some a ∧ needOf s.dev a = some (⟨0x2000, some 0, false⟩, onLinePart) ∧ s.dev.tokenReqs = [] ∧ s.dev.persist = [] ∧
      s.dev.missRoom 0x2000 = true ∧ s.dev.lostLine 0x2000 = false ∧ (s.dev.coreAt 0).l1 = [] ∧
      (missTag s.dev 0 a.vf onLinePart.tile (a.issued onLinePart) 0x2000).isSome = true ∧
      s.dev.linkState (dieOfCore 0) (dieOfLine 0x2000) = .active ∧ s.dev.armedOn 0x2000 < (s.dev.lineAt 0x2000).home) ∧
    (let s := onLine { home := 16382, holders := [(4, 1, false, true), (1024, 1, false, false)], directory := [1] } .store;
      let a := accessOf .store 0x100000 (.slice 2 0x2000);
      s.dev.access 0 = some a ∧ needOf s.dev a = some (⟨0x2000, none, true⟩, onLinePart) ∧ s.dev.tokenReqs = [] ∧ s.dev.persist = [] ∧
      s.dev.missRoom 0x2000 = true ∧ s.dev.lostLine 0x2000 = false ∧
      ∀ h ∈ (s.dev.lineAt 0x2000).holders, s.dev.linkState (dieOfCore h.1) (dieOfLine 0x2000) = .active) := by
  decide +kernel

/-- A write request of the home of a line, sent some number of times, and lastly at some instant. -/
def asked (tries sentAt : Nat) : TokenReq := { line := 0x2000, core := none, write := true, tries := tries, first := 0, sentAt := sentAt }
/-- A state at some wall instant with that request, where a core of die 1 holds a token over a link in some state. -/
def requesting (home tries sentAt ns : Nat) (link : LinkState) : State :=
  { mem := {}, dev := { lines := [(0x2000, { home := home, holders := [(1024, 1, false, false)] })], now := ns * 1000000
                        dieLinks := [{ a := 0, b := 1, state := link }], tokenReqs := [asked tries sentAt] } }
/-- An entry of the table of die 0. -/
def entered : PersistReq := { die := 0, line := 0x2000, core := some 0, write := false, active := true, admitted := true }

theorem witness_TokenRequests_retry :
    (∀ q ∈ [(16384, 0, 0, 0), (16383, 2, 500, 750), (16383, 0, 0, 249), (16383, 3, 750, 999), (16383, 3, 750, 1000)],
      let s := requesting q.1 q.2.1 q.2.2.1 q.2.2.2 .active; let r := asked q.2.1 q.2.2.1;
      s.dev.tokenReqs[0]? = some r ∧ satisfied s.dev r.line r.core r.write = decide (q.1 = 16384) ∧ s.dev.wall = q.2.2.2 ∧
      s.dev.persist = [] ∧ ∀ b ∈ [dieOfLine r.line, dieOfCore 1024],
        s.dev.linkState (requesterDie r.line r.core) b ≠ .asleep ∧ s.dev.linkState (requesterDie r.line r.core) b ≠ .waking) ∧
    (∀ q ∈ [LinkState.asleep, .waking], let s := requesting 16383 0 0 1000 q;
      s.dev.tokenReqs[0]? = some (asked 0 0) ∧ s.dev.linkState (requesterDie 0x2000 none) (dieOfCore 1024) = q) ∧
    (let q : PersistReq := { entered with core := some 4, active := false };
      let s : State := { mem := {}, dev := { persist := [entered, q] } };
      s.dev.persist = [entered, q] ∧ entered.active = true ∧ q.active = false ∧ q.die = entered.die ∧ q.line = entered.line ∧
      entered.closing = none ∧ q.closing = none ∧ entered.engine = false ∧ s.dev.accesses = []) ∧
    (let r : PersistReq := { entered with active := false, closing := some [1] }; let s : State := { mem := {}, dev := { persist := [r] } };
      s.dev.persist = [r] ∧ r.closing = some [1] ∧ ∀ b ∈ [1], s.dev.linkState b r.die = .active) := by
  decide +kernel

/-- A state with one token message on its way. -/
def sending (l : LineState) (m : TokenMsg) (writeBacks : List (Nat × Nat)) : State :=
  { mem := {}, dev := { lines := [(0x2000, l)], tokenMsgs := [m], writeBacks := writeBacks } }

/-- A partition whose one channel group holds the line. -/
def homed (l : LineState) (m : TokenMsg) (writeBacks : List (Nat × Nat)) : State :=
  let s := sending l m writeBacks
  { s with dev := { s.dev with parts := [(0, { blocks := [0], channels := [(0, 0, 1)] })] } }

theorem witness_TokenMessages_arrive :
    (∀ dirty ∈ [false, true], let m : TokenMsg := ⟨0x2000, 1, true, dirty, none, 0, none⟩;
      let s := sending { home := 16383, homeOwner := false } m [];
      s.dev.tokenMsgs[0]? = some m ∧ s.dev.persist = [] ∧ s.dev.linkState m.from_ (dieOfLine m.line) = .active ∧
      s.dev.sliceOf m.line = none) ∧
    (∀ n ∈ [15, 16], let m : TokenMsg := ⟨0x2000, 1, true, true, none, 0, some 0⟩; let s0 := homed { home := 16383, homeOwner := false } m [];
      let sl := (s0.dev.sliceOf 0x2000).getD 0; let s := homed { home := 16383, homeOwner := false } m (List.replicate n (sl, 1));
      s.dev.tokenMsgs[0]? = some m ∧ s.dev.persist = [] ∧ s.dev.linkState m.from_ (dieOfLine m.line) = .active ∧
      s.dev.sliceOf m.line = some sl ∧ (sl, m.line) ∉ s.dev.writeBacks ∧ (s.dev.writeBacks.filter fun q => q.1 == sl).length = n) ∧
    (∀ hs ∈ [[], [(4, 1, false, false)]], ∀ tags ∈ [[], [(⟨0, 0, 0x2000, false, 4, 7⟩ : L1Tag)]],
      let m : TokenMsg := ⟨0x2000, 1, true, false, some 4, 0, none⟩;
      let s0 := sending { home := 16382, homeOwner := false, holders := hs } m [];
      let s := { s0 with dev := { s0.dev with cores := [(4, { l1 := tags })] } };
      s.dev.tokenMsgs[0]? = some m ∧ s.dev.persist = [] ∧ s.dev.linkState m.from_ (dieOfCore 4) = .active ∧
      (∀ q ∈ (s.dev.coreAt 4).l1, q.line = m.line) ∧ ((s.dev.coreAt 4).l1 = [] ↔ tags = []) ∧
      ((s.dev.lineAt m.line).holders.filter fun h => h.1 == 4) = hs) := by
  decide +kernel

theorem witness_TokenMessages_return :
    (let s := sending { home := 16382, homeOwner := false, holders := [(0, 1, false, false), (1024, 1, true, true)], directory := [0, 1, 2] }
        ⟨1, 1, false, false, none, 0, none⟩ [(0, 0x2000)];
      let hs := (s.dev.lineAt 0x2000).holders; let s := { s with dev := { s.dev with hints := [(0x2000, 2), (0x2000, 1)] } };
      (0x2000, 0) ∉ s.dev.hints ∧ (0x2000, dieOfCore 2048) ∈ s.dev.hints ∧ (∀ h ∈ hs, dieOfCore h.1 ≠ dieOfCore 2048) ∧
      (0x2000, dieOfCore 1024) ∈ s.dev.hints ∧ (∃ h ∈ hs, dieOfCore h.1 = dieOfCore 1024) ∧
      hs = [(0, 1, false, false)] ++ (1024, 1, true, true) :: [] ∧
      (∀ h ∈ [(0, 1, false, false)] ++ ([] : List (Nat × Nat × Bool × Bool)), h.1 ≠ 1024) ∧
      s.dev.writeBacks = [] ++ (0, 0x2000) :: []) ∧
    (∀ dirty ∈ [false, true], let line := Config.hostBase / 128
      let s : State := { mem := {}, dev := { grants := [(line, 6)], lines := [(line, { homeDirty := dirty })] } };
      2^51 ≤ line ∧ (s.dev.lineAt line).home = Config.tokensPerLine ∧ (s.dev.lineAt line).holders = [] ∧
      (s.dev.lineAt line).homeDirty = dirty ∧ assocGet line s.dev.grants = some 6 ∧ s.dev.hostBusy line = false) := by
  decide +kernel

theorem witness_Links :
    (∀ q ∈ [LinkState.active, .asleep, .waking], let s : State := { mem := {}, dev := { dieLinks := [{ a := 0, b := 9, state := q }] } };
      (0 : Nat) ≠ 9 ∧ s.dev.persist = [] ∧ s.dev.linkState 0 9 = q) ∧
    (∀ w ∈ [0, 1], let s : State := { mem := {}, dev := { now := w * 1000000000, vfs := [(5, { used := [(0, 65), (100000, 64)], memLim := 1, fabLim := 1 })] } };
      (s.dev.vfAt 5).window ≠ 0 ∧ s.dev.wall / (1000 * (s.dev.vfAt 5).window) = w) ∧
    (let s : State := { mem := {}, dev := {} }; (0 : Nat) ∉ s.dev.lostDies ∧ 16 ≤ 31) := by
  decide +kernel

/-- A message from core 0 to a core of cluster 1 that waits at its port, or is on its way. -/
def flit (atPort : Option Nat) (injected due : Option Nat) : Message :=
  { from_ := 0, sender := 0, part := 0, to_ := 4, cls := 2, payload := 7, atPort := atPort, injected := injected, due := due }
/-- A state with messages in the mesh, and a partition that owns some slots. -/
def meshed (ms : List Message) (tdm : BitVec 64) : State :=
  { mem := {}, dev := { messages := ms, parts := [(0, { blocks := [0], tdm := [(0, tdm)] })] } }

theorem witness_Flits_inject :
    (∀ q ∈ [{ flit (some 1) none none with from_ := 0 }, { flit (some 0) none none with from_ := 1 }, { flit (some 0) none none with slot := 1 },
        flit none none none],
      ∀ ahead ∈ [0, 1], let m := { flit (some 0) none none with ahead := ahead }; let s := meshed [m, q] 1;
      s.dev.messages[0]? = some m ∧ clusterOf m.from_ = 0 ∧ m.injected = none ∧ m.atPort = some 0 ∧
      ((assocGet (0 / 256) (s.dev.partAt m.part).tdm).getD 0).getLsbD (s.dev.wall % 64) = true ∧
      (∀ r ∈ s.dev.messages, r.part = m.part ∧ r.injected ≠ some s.dev.wall) ∧
      ∀ at' ∈ q.atPort, 0 < at' ∨ 0 = at' ∧ (m.from_ < q.from_ ∨ m.from_ = q.from_ ∧ m.slot < q.slot)) ∧
    (let s := meshed [flit (some 0) none none] 0;
      ∀ m ∈ s.dev.messages, ((assocGet (0 / 256) (s.dev.partAt m.part).tdm).getD 0).getLsbD (s.dev.wall % 64) = false) ∧
    (let s := meshed [flit (some 0) none none, flit (some 0) (some 0) (some 2)] 1;
      ∃ m ∈ s.dev.messages, clusterOf m.from_ = 0 ∧ m.injected = some s.dev.wall) := by
  decide +kernel

theorem witness_Flits_deliver :
    (∀ due ∈ [0, 1], let s := meshed [flit (some 0) (some 0) (some due)] 0;
      s.dev.messages[0]? = some (flit (some 0) (some 0) (some due)) ∧ s.dev.linkState (dieOfCore 0) (dieOfCore 4) = .active ∧ s.dev.wall = 0) ∧
    (∀ q ∈ [LinkState.asleep, .waking, .lost], let m := { flit (some 0) (some 0) (some 0) with to_ := 1024 };
      let s : State := { mem := {}, dev := { messages := [m], dieLinks := [{ a := 0, b := 1, state := q }] } };
      s.dev.messages[0]? = some m ∧ m.due = some 0 ∧ s.dev.linkState (dieOfCore m.from_) (dieOfCore m.to_) = q) := by
  decide +kernel

/-- A launch on cores 0 and 1024, and its context on core 0 that is on its way to die 1. -/
def shipped (l : Landing) : State :=
  let la : Launch := { id := 0, part := 0, vf := 0, queue := 0, index := 0, prio := 0, trace := false, cores := [0, 1024] }
  { mem := {}, dev := { cores := [(0, coreWith whole), (1024, coreWith { whole with gCount := 8, vCount := 0 })], launches := [la], landings := [l] } }

theorem witness_Landings_request :
    (let q : Landing := { core := 0, slot := 0, die := 1, line := 2^43 / 128 }; let s := shipped q;
      s.dev.landings[0]? = some q ∧ q.arrived = false ∧ q.reserved = none ∧ s.dev.ctxAt q.core q.slot = some whole ∧
      s.dev.linkState (dieOfCore q.core) q.die = .active ∧ whole.wait?.isNone = true ∧ (s.dev.launchAt whole.part whole.launch).isSome = true) ∧
    (let q : Landing := { core := 0, slot := 0, die := 1, line := 0, arrived := true, reserved := some (1024, 15, 8, 0) }; let s := shipped q;
      s.dev.landings[0]? = some q ∧ s.dev.ctxAt q.core q.slot = some whole ∧ (s.dev.coreAt 0).halted = false ∧
      (s.dev.coreAt 1024).halted = false ∧ ((1024, 15) : Nat × Nat) ≠ (q.core, q.slot) ∧ 15 < (s.dev.coreAt 1024).slots.length ∧
      s.dev.linkState (dieOfCore q.core) q.die = .active ∧ ∀ g ∈ (s.dev.coreAt q.core).gens, g.keeps q.slot = false) := by
  decide +kernel

/-! Witnesses: launches and partition control. -/

/-- The bytes of words, least significant first. -/
def leBytes (n x : Nat) : List Nat := (List.range n).map fun i => x / 256^i % 256
/-- A linked file (R101, R102): no section, the absolute symbol 0x10000, and a launch record that names it with 8 G registers, 4 V
registers, no privilege, interval 1 and one field block. -/
def file : List Nat :=
  leBytes 4 0x01464F47 ++ leBytes 4 1 ++ leBytes 4 0 ++ leBytes 4 0 ++ leBytes 4 64 ++ leBytes 4 1 ++ leBytes 4 88 ++ leBytes 4 0 ++
  leBytes 4 88 ++ leBytes 4 1 ++ List.replicate 24 0 ++
  (List.replicate 16 0 ++ leBytes 8 0x10000) ++
  (leBytes 2 1 ++ leBytes 2 16 ++ leBytes 4 0 ++ [8, 4, 0, 1] ++ leBytes 2 1 ++ [0, 0])
/-- The launch packet of queue header 0xFE01000000000100 for field block 0 and that file at address 0x1000 (R342). -/
def packet : List Word := [0x10, 0x1000, 1, 0, 0, 0, 0, 0]
/-- The packet at the head of its queue. -/
def head : QueuedLaunch :=
  { vf := 0, queue := 0xFE01000000000100, index := 0, at_ := 0, words := packet, slotAddr := 0xFE01000000000200 }
/-- A partition of field block 0 with that head queued, and the file where the packet names it. -/
def launching : State :=
  { mem := Memory.apply {} (fetchTables ++ file.zipIdx.map fun q => .byte (codeFrame + 0x1000 + q.2) (BitVec.ofNat 8 q.1))
    dev := { parts := [(0, { blocks := [0], channels := [(0, 0, 1)], queued := [head] })]
             vfs := [(0, { part := some 0, root := BitVec.ofNat 64 (tableFrame 0) })] } }

/-- What a reading gave. -/
def okOf {α : Type} (l : Load α) : Option (α × Device) :=
  match l with
  | .ok x d => some (x, d)
  | _ => none

theorem ok_of {α : Type} {l : Load α} {x : α} {d : Device} (h : okOf l = some (x, d)) : l = .ok x d := by
  cases l <;> simp_all [okOf]

/-- The launch that the head makes. -/
def launched : Launch := launchOf launching 0 head ⟨[], ⟨0x10000, 8, 4, false, 1, 1⟩, [], [], [], []⟩ [0]
/-- Whether the head starts: its file is well formed, no check refuses it, and it loads. -/
def starts : Bool :=
  match okOf (readGof (dispatchAgent launching.dev 0 0) launching.mem (packet.getD 1 0) (packet.getD 4 0).toNat launching.dev) with
  | some (f, _) =>
    decide (f = ⟨[], ⟨0x10000, 8, 4, false, 1, 1⟩, [], [], [], []⟩) && (headCause launching.mem launching.dev 0 head f).isNone &&
      match okOf ((Work.start launching).load (dispatchAgent launching.dev 0 0) launched f) with
      | some (w, _) => w.d.waiters.isEmpty
      | none => false
  | none => false

theorem witness_LaunchesStart_load :
    ∃ f d1 w d2, (launching.dev.partAt 0).holding = false ∧ (launching.dev.partAt 0).queued = [head] ∧ launching.dev.launches = [] ∧
      launching.dev.saved = [] ∧ NoWaiters launching ∧ maskBlocks (launching.dev.partAt 0) (maskOf head.words) = [0] ∧
      packetMalformed head = false ∧
      readGof (dispatchAgent launching.dev 0 0) launching.mem (packet.getD 1 0) (packet.getD 4 0).toNat launching.dev = .ok f d1 ∧
      headCause launching.mem launching.dev 0 head f = none ∧
      (Work.start launching).load (dispatchAgent launching.dev 0 0) launched f = .ok w d2 ∧ launched = launchOf launching 0 head f [0] ∧
      w.d.waiters = [] := by
  have h : starts = true := by decide +kernel
  unfold starts at h
  split at h
  · next f d1 h1 =>
    simp only [Bool.and_eq_true, decide_eq_true_eq, Option.isNone_iff_eq_none] at h
    obtain ⟨⟨hf, hc⟩, h⟩ := h
    split at h
    · next w d2 h2 =>
      exact ⟨f, d1, w, d2, rfl, rfl, rfl, rfl, rfl, by decide +kernel, by decide +kernel, ok_of h1, hc, ok_of h2, by rw [hf]; rfl,
        List.isEmpty_iff.mp h⟩
    · cases h
  · cases h

/-- A launch on core 0. -/
def alone (ended : Option (Nat × Nat × Nat)) (preempted : Bool) : Launch :=
  { id := 0, part := 0, vf := 0, queue := 0xFE01000000000100, index := 0, prio := 0, slotAddr := 0xFE01000000000200, trace := false, cores := [0]
    ended := ended, preempted := preempted }
/-- A state with that launch, perhaps its context on core 0, perhaps an access of it, a reap deferred, and commands. -/
def running (l : Launch) (x : Option Context) (as : List Access) (deferred : List (Nat × Nat × Nat)) (cs : List Control) : State :=
  { mem := {}, dev := { parts := [(0, { blocks := [0] })], cores := [(0, ({} : Core).setCtx 0 x)], launches := [l], accesses := as
                        deferred := deferred, control := cs } }

/-- The other slots of its core are empty. -/
theorem no_others (l : Launch) (x : Option Context) (as : List Access) (s : State) (hs : s.dev.cores = (running l x as [] []).dev.cores) :
    ∀ i, i ≠ 0 → s.dev.ctxAt 0 i = none := by
  intro i hi
  have h : s.dev.ctxAt 0 i = (((List.replicate 16 (none : Option Context)).set 0 x)[i]?).join := by
    simp only [Device.ctxAt, Device.coreAt, hs]
    rfl
  rw [h, List.getElem?_set_ne (Ne.symm hi), List.getElem?_replicate]
  split <;> rfl

/-- And so are those of every other core. -/
theorem no_cores (l : Launch) (x : Option Context) (as : List Access) (s : State) (hs : s.dev.cores = (running l x as [] []).dev.cores) :
    ∀ c i, c ≠ 0 → s.dev.ctxAt c i = none := by
  intro c i hc
  have h : s.dev.ctxAt c i = ((List.replicate 16 (none : Option Context))[i]?).join := by
    simp only [Device.ctxAt, Device.coreAt, hs, running, assocGet]
    rw [if_neg (Ne.symm hc)]
    rfl
  rw [h, List.getElem?_replicate]
  split <;> rfl

theorem witness_LaunchesStart_resume : let l := alone none true; let s := running l none [] [] [];
    (s.dev.partAt 0).holding = false ∧ (s.dev.partAt 0).queued = [] ∧ s.dev.launches = [l] ∧ l.part = 0 ∧ l.preempted = true ∧
    l.ended = none ∧ s.dev.saved = [] ∧ NoWaiters s := by
  exact ⟨rfl, rfl, rfl, rfl, rfl, rfl, rfl, rfl⟩

theorem witness_LaunchesEnd_run :
    (let l := alone none false; let s := running l (some whole) [] [] [];
      s.dev.launchAt 0 0 = some l ∧ l.ended = none ∧ l.cores = [0] ∧ contextZero s.dev l 0 = some whole ∧ whole.isStopped = false ∧
      whole.phase = .ready) ∧
    (∀ how ∈ [(0 : BitVec 8), 3], let l := alone none false; let x := { whole with phase := .stopped how 7 0x0C };
      let a := accessOf .store lastKey (.scratchpad 0); let s := running l (some x) [a] [] [];
      s.dev.launchAt 0 0 = some l ∧ l.id = 0 ∧ l.part = 0 ∧ l.ended = none ∧ l.cores = [0] ∧ s.dev.ctxAt 0 0 = some x ∧ x.launch = 0 ∧
      x.part = 0 ∧ (∀ i, i ≠ 0 → s.dev.ctxAt 0 i = none) ∧ (∀ c i, c ≠ 0 → s.dev.ctxAt c i = none) ∧ s.dev.saved = [] ∧ reapable s.dev 0 0 = true ∧ s.dev.deferred = [] ∧
      NoWaiters s ∧ a ∈ s.dev.accesses ∧ a.launch = 0 ∧ a.part = 0 ∧ a.complete = false ∧ a.fault = none) := by
  refine ⟨⟨rfl, rfl, rfl, rfl, rfl, rfl⟩, fun how hh => ⟨rfl, rfl, rfl, rfl, rfl, rfl, rfl, rfl, no_others _ _ _ _ rfl, no_cores _ _ _ _ rfl, rfl, ?_, rfl, rfl, .head _, rfl, rfl,
    rfl, rfl⟩⟩
  · simp only [List.mem_cons, List.not_mem_nil, or_false] at hh
    rcases hh with rfl | rfl <;> decide +kernel

theorem witness_LaunchesEnd_close : ∃ w : Work, let l := alone (some (0, 0, 0)) false; let s := running l none [] [] [];
    s.dev.launchAt 0 0 = some l ∧ l.id = 0 ∧ l.part = 0 ∧ l.ended = some (0, 0, 0) ∧ (∀ c i, s.dev.ctxAt c i = none) ∧ settled s.dev l = true ∧
    launchFrames s.mem s.dev l = [] ∧
    (Work.start s).closePacket 0 l.vf l.queue l.index l.slotAddr (launchRecordWord 0 0 0 0) = some w ∧ w.d.waiters = [] := by
  have h : (((Work.start (running (alone (some (0, 0, 0)) false) none [] [] [])).closePacket 0 0 0xFE01000000000100 0 0xFE01000000000200
    (launchRecordWord 0 0 0 0)).map fun w => w.d.waiters.isEmpty) = some true := by decide +kernel
  obtain ⟨w, hw, h⟩ := Option.map_eq_some_iff.mp h
  exact ⟨w, rfl, rfl, rfl, rfl, fun c i => by
    rcases Nat.eq_zero_or_pos c with rfl | hc
    · rcases Nat.eq_zero_or_pos i with rfl | hi
      · rfl
      · exact no_others _ _ _ _ rfl i (Nat.ne_of_gt hi)
    · exact no_cores _ _ _ _ rfl c i (Nat.ne_of_gt hc), by decide +kernel, by decide +kernel, hw, List.isEmpty_iff.mp h⟩

theorem witness_LaunchesEnd_reap : let l := alone (some (0, 0, 0)) false; let a := accessOf .store lastKey (.scratchpad 0);
    let s := running l (some { whole with phase := .stopped 0 0 0 }) [a] [(0, 0, 0)] [];
    s.dev.deferred = (0, 0, 0) :: [] ∧ reapable s.dev 0 0 = true ∧ NoWaiters s ∧ s.dev.launchAt (s.dev.coreAt 0).part 0 = some l ∧ l.id = 0 ∧
    l.part = (s.dev.coreAt 0).part ∧ l.ended = some (0, 0, 0) ∧ a ∈ s.dev.accesses ∧ a.launch = 0 ∧ a.part = l.part ∧ a.complete = false ∧
    a.fault = none :=
  ⟨rfl, by decide +kernel, rfl, rfl, rfl, rfl, rfl, .head _, rfl, rfl, rfl, rfl⟩

theorem witness_LaunchesEnd_kill : ∀ q ∈ [((0 : Word), none), (1, none), (0, some (0, 0, 0))], let ws : List Word := [7, 0, 0, q.1, 0, 0, 0, 0];
    let l := alone q.2 false; let s := running l (some whole) [] [] [{ packet := ws }];
    controlHead s.dev 7 = some ws ∧ s.dev.launchAt (partId ws) ((ws.getD 3 0).toNat % 2^32) = (if q.1 = 0 then some l else none) ∧
    l.ended = q.2 ∧ s.dev.saved = [] := by
  intro q h
  simp only [List.mem_cons, List.not_mem_nil, or_false] at h
  rcases h with rfl | rfl | rfl <;> exact ⟨rfl, rfl, rfl, rfl⟩

/-- A state with a command at the head of the control queue, and a resource list at host address 0. -/
def commanded (ws : List Word) (list : List Nat) (ps : List (Nat × Partition)) : State :=
  { mem := Memory.apply {} ((list.zipIdx.map fun q => storeEdits (Config.hostBase + 8 * q.2) 8 q.1).flatten)
    dev := { control := [{ packet := ws }], parts := ps, grants := [(Config.hostBase / 128, 5)] } }
/-- Field block 0 of die 0, its TDM slot 0, and a channel of die 0, of R332's entries. -/
def blockEntry : List Nat := [1 + 2^32, 0]
def slotEntry : List Nat := [4, 1]
def channelEntry (n : Nat) : List Nat := [3 + n * 2^16 + 2^32, 0]
/-- A fair partition. -/
def small : Partition := { blocks := [0], tdm := [(0, 1)], channels := [(0, 0, 1), (0, 1, 1)] }

/-- What a list gives: its entries, and what the reshaping of a partition by them answers. -/
def sharesOf (s : State) (ws : List Word) : Option (List Share) := (okOf (commandShares s.mem s.dev ws)).map Prod.fst
def shapedBy (s : State) (ws : List Word) (p : Partition) (f : Device → Partition → Share → Except Nat Partition) : Option (Except Nat Partition) :=
  (okOf (commandShares s.mem s.dev ws)).map fun q => reshape p q.1 (f q.2)
/-- Whether an answer is a partition, and the STATUS of one that is not. -/
def statusOf (e : Except Nat Partition) : Option Nat :=
  match e with
  | .ok _ => none
  | .error c => some c

theorem shaped_of {s : State} {ws : List Word} {p : Partition} {f : Device → Partition → Share → Except Nat Partition}
    (h : (shapedBy s ws p f).map statusOf = some none) :
    ∃ es d q, commandShares s.mem s.dev ws = .ok es d ∧ reshape p es (f d) = .ok q := by
  simp only [shapedBy, Option.map_map] at h
  obtain ⟨⟨es, d⟩, h1, h2⟩ := Option.map_eq_some_iff.mp h
  refine ⟨es, d, ?_⟩
  cases hr : reshape p es (f d) with
  | ok q => exact ⟨q, ok_of h1, rfl⟩
  | error c => simp [hr, statusOf] at h2

theorem witness_Create :
    (let ws : List Word := [1, 0, 2, 0, 0, 0, 0, 0]; let s := commanded ws (blockEntry ++ slotEntry) [];
      controlHead s.dev 1 = some ws ∧ assocGet (partId ws) s.dev.parts = none ∧
      ∃ es d q, commandShares s.mem s.dev ws = .ok es d ∧ reshape {} es (addShare d (partId ws)) = .ok q) ∧
    (let ws : List Word := [1, 0, 1, 0, 0, 0, 0, 0]; let s := commanded ws blockEntry [];
      controlHead s.dev 1 = some ws ∧ assocGet (partId ws) s.dev.parts = none ∧
      (shapedBy s ws {} fun d => addShare d (partId ws)).map statusOf = some (some 5)) ∧
    (let ws : List Word := [1, 0, 0, 0, 0, 0, 0, 0]; let s := commanded ws [] [(0, small)];
      controlHead s.dev 1 = some ws ∧ (assocGet (partId ws) s.dev.parts).isSome = true ∧ sharesOf s ws = some []) :=
  ⟨⟨rfl, rfl, shaped_of (by decide +kernel)⟩, ⟨rfl, rfl, by decide +kernel⟩, rfl, rfl, by decide +kernel⟩

theorem witness_VfCommands :
    (∀ q ∈ [((5 : Word), some 0), (5, none), (5, some 1), (5 + 512, some 0)], let ws : List Word := [5, 0, 0, q.1, 0, 0, 0, 0];
      let s := commanded ws [] [(0, small)]; let s := { s with dev := { s.dev with vfs := [(5, { part := q.2 })] } };
      controlHead s.dev 5 = some ws ∧ (assocGet (partId ws) s.dev.parts).isSome = true ∧ (ws.getD 3 0).toNat % 2^9 = 5 ∧
      (s.dev.vfAt 5).part = q.2 ∧ (ws.getD 3 0).getLsbD 9 = decide (5 < q.1.toNat) ∧ s.dev.launches = []) ∧
    (let ws : List Word := [5 + 63 * 256, 0, 0, 0, 0, 0, 0, 0]; let s := commanded ws [] [(0, small)];
      controlHead s.dev 5 = some ws ∧ assocGet (partId ws) s.dev.parts = none) ∧
    (∀ q ∈ [((6 : Word), (0 : Word)), (6, 1), (6, 64), (6, 65), (6 + 2^14, 1)], let ws : List Word := [q.1, 0, 0, 511, 2^32 - 1, 0, q.2, 0];
      let s := commanded ws [] [(0, small)]; let s := { s with dev := { s.dev with vfs := [(511, { part := some 0 })] } };
      controlHead s.dev 6 = some ws ∧ (assocGet (partId ws) s.dev.parts).isSome = true ∧ (ws.getD 3 0).toNat < 2^9 ∧
      (ws.getD 4 0).toNat < 2^32 ∧ (ws.getD 5 0).toNat < 2^32 ∧ ((ws.getD 0 0).toNat / 2^14 % 2^34 = 0 ↔ q.1 = 6) ∧
      (s.dev.vfAt 511).part = some 0) := by
  refine ⟨fun q h => ?_, ⟨rfl, rfl⟩, fun q h => ?_⟩
  · simp only [List.mem_cons, List.not_mem_nil, or_false] at h
    rcases h with rfl | rfl | rfl | rfl <;> exact ⟨rfl, rfl, by decide, rfl, by decide, rfl⟩
  · simp only [List.mem_cons, List.not_mem_nil, or_false] at h
    rcases h with rfl | rfl | rfl | rfl | rfl <;> exact ⟨rfl, rfl, by decide, by decide, by decide, by decide, rfl⟩

theorem witness_PartitionShapes :
    (let ws : List Word := [2, 0, 1, 0, 0, 0, 0, 0]; let s := commanded ws (channelEntry 2) [(0, small)];
      controlHead s.dev 2 = some ws ∧ NoWaiters s ∧ s.mem.wf = true ∧ assocGet (partId ws) s.dev.parts = some small ∧
      ∃ es d q, commandShares s.mem s.dev ws = .ok es d ∧ reshape small es (addShare d (partId ws)) = .ok q) ∧
    (let ws : List Word := [3, 0, 1, 0, 0, 0, 0, 0]; let s := commanded ws (channelEntry 1) [(0, small)];
      controlHead s.dev 3 = some ws ∧ NoWaiters s ∧ s.mem.wf = true ∧ assocGet (partId ws) s.dev.parts = some small ∧ s.dev.launches = [] ∧
      s.dev.vfs = [] ∧ ∃ es d q, commandShares s.mem s.dev ws = .ok es d ∧ reshape small es dropShare = .ok q) ∧
    (∀ op ∈ [(4 : Word), 0x3F04], let ws : List Word := [op, 0, 0, 0, 0, 0, 0, 0]; let s := commanded ws [] [(0, small)];
      controlHead s.dev 4 = some ws ∧ NoWaiters s ∧ s.mem.wf = true ∧ s.dev.launches = [] ∧
      assocGet (partId ws) s.dev.parts = if op = 4 then some small else none) := by
  refine ⟨⟨rfl, rfl, by decide +kernel, rfl, shaped_of (f := fun d => addShare d 0) (by decide +kernel)⟩,
    ⟨rfl, rfl, by decide +kernel, rfl, rfl, rfl, shaped_of (f := fun _ => dropShare) (by decide +kernel)⟩, fun op h => ?_⟩
  simp only [List.mem_cons, List.not_mem_nil, or_false] at h
  rcases h with rfl | rfl <;> exact ⟨rfl, rfl, by decide, rfl, rfl⟩

/-- A partition whose granary is one GiB of die 0. -/
def granaried : Partition := { small with grbase := 0x40000001 }
/-- An image, of some shape, of a partition of which one dword was copied. -/
def imaged (shape : List (Nat × Nat)) : Image :=
  { part := 0, base := 2^30, wall := 0, shape := shape, blocks := [0], cores := [], launches := [], started := 3, tensors := [], engines := []
    copies := [(2^42, 8, 2^30 + 8192)], areas := [], size := 2^30 }
/-- The state with a RESTORE at the head, that image, and its granary, whose manifest has the copy's digest. -/
def kept (shape : List (Nat × Nat)) : State :=
  let s := commanded [9, 0, 0, 0, 0, 0, 0, 0] [] [(0, granaried)]
  let m := s.mem.apply [.byte (2^30 + 8192) 9]
  { mem := m.apply ((hashBytes (copyDigest m (imaged shape))).zipIdx.map fun b => .byte (2^30 + 32 + b.2) b.1)
    dev := { s.dev with images := [imaged shape] } }

theorem witness_Checkpoints :
    (∀ q ∈ [((8 : Word), 0, granaried), (8, 2, granaried), (8, 0, small)], let ws : List Word := [q.1, 0, 0, q.2.1, 0, 0, 0, 0];
      let s := commanded ws [] [(0, q.2.2)];
      controlHead s.dev 8 = some ws ∧ (ws.getD 3 0).getLsbD 0 = false ∧ assocGet (partId ws) s.dev.parts = some q.2.2 ∧
      granaryFits s.mem s.dev (partId ws) = decide (q.2.2 = granaried) ∧ s.dev.migrations = [] ∧ s.dev.launches = [] ∧ s.dev.packets = [] ∧
      s.dev.saved = [] ∧ NoWaiters s ∧ s.mem.wf = true ∧ ∀ c ∈ s.dev.control.head?, c.kept = none) ∧
    (∀ op ∈ [(8 : Word), 9], let ws : List Word := [op + 256, 0, 0, 0, 0, 0, 0, 0]; let s := commanded ws [] [(0, small)];
      controlHead s.dev op.toNat = some ws ∧ assocGet (partId ws) s.dev.parts = none) ∧
    (∀ q ∈ [([], 7), (shapeOf granaried, 0)], let ws : List Word := [9, 0, 0, 0, 0, 0, 0, 0];
      let s := kept q.1;
      controlHead s.dev 9 = some ws ∧ (ws.getD 3 0).getLsbD 0 = false ∧ assocGet (partId ws) s.dev.parts = some granaried ∧
      imageFor s.mem s.dev (partId ws) = some (imaged q.1) ∧ decide ((imaged q.1).shape = shapeOf granaried) = decide (q.2 = 0) ∧
      (imaged q.1).cores = [] ∧ (imaged q.1).launches = [] ∧ (imaged q.1).kept = [] ∧ s.dev.launches = [] ∧ NoWaiters s ∧ s.mem.wf = true ∧
      (∀ c ∈ (imaged q.1).copies, movedKey [0] granaried.ordered c.1 % 8 = 0 ∧ c.2.1 % 8 = 0 ∧ c.2.2 % 8 = 0)) ∧
    (let ws : List Word := [9, 0, 0, 0, 0, 0, 0, 0]; let s := commanded ws [] [(0, granaried)];
      controlHead s.dev 9 = some ws ∧ imageFor s.mem s.dev (partId ws) = none) := by
  refine ⟨fun q h => ?_, fun op h => ?_, fun q h => ?_, rfl, by decide +kernel⟩
  · simp only [List.mem_cons, List.not_mem_nil, or_false] at h
    rcases h with rfl | rfl | rfl <;>
      exact ⟨rfl, rfl, rfl, by decide +kernel, rfl, rfl, rfl, rfl, rfl, by decide, by simp [commanded]⟩
  · simp only [List.mem_cons, List.not_mem_nil, or_false] at h
    rcases h with rfl | rfl <;> exact ⟨rfl, rfl⟩
  · simp only [List.mem_cons, List.not_mem_nil, or_false] at h
    rcases h with rfl | rfl <;>
      exact ⟨rfl, rfl, rfl, by decide +kernel, by decide +kernel, rfl, rfl, rfl, rfl, rfl, by decide +kernel, by decide +kernel⟩

/-! Witnesses: pre-emption. -/

/-- The key at which an engine found a place. -/
def foundAt (r : Grab × Device) : Option Nat :=
  match r with
  | (.place p, _) => some p.key
  | _ => none

theorem found_of {r : Grab × Device} {key : Nat} (h : foundAt r = some key) : ∃ p d, r = (.place p, d) ∧ p.key = key := by
  obtain ⟨g, d⟩ := r
  cases g with
  | place p => exact ⟨p, d, rfl, by simpa [foundAt] using h⟩
  | _ => simp [foundAt] at h

theorem witness_SaveAreaHoldsContext : whole.gCount ≤ 128 ∧ whole.vCount ≤ 64 ∧ (5 : Nat) < 2^14 ∧ (15 : Nat) < 16 ∧
    ∀ q, some (1, cWAITLIM) = some q → 0 < q.1 ∧ q.1 < 2^64 :=
  ⟨by decide, by decide, by decide, by decide, fun q h => by obtain rfl := Option.some.inj h; decide⟩

/-- One page of 1 GiB at address 0 is mapped for an engine that no meter counts, and every line's tokens are home. -/
def Mapped (g : Agent) (d : Device) : Prop :=
  d.tlb = [⟨clusterOf g.core, g.vf, 0, 2, 7⟩] ∧ (d.partAt g.part).tensors = [] ∧ d.lostDies = [] ∧ d.lines = [] ∧ d.dieLinks = [] ∧
  g.l1 = false ∧ g.owner = none ∧ g.who = none

/-- An engine finds every byte of that page. -/
theorem find_mapped {g : Agent} {m : Memory} {d : Device} {a : Word} {need : BitVec 3} (h : Mapped g d) (ha : a.toNat < 2^30)
    (hn : need = needR ∨ need = needW) : ∃ p, g.find m d a need .plain = (.place p, d) ∧ p.kind = .device ∧ p.key = a.toNat := by
  obtain ⟨h1, h2, h3, h4, h5, h6, h7, -⟩ := h
  have hi : isWindow a = false := by simp only [isWindow, beq_eq_false_iff_ne]; omega
  have hc : canonical a = true := by
    have hm : (a.setWidth 57).msb = false := by
      rw [BitVec.msb_eq_false_iff_two_mul_lt, BitVec.toNat_setWidth]; omega
    simp only [canonical, beq_iff_eq]
    apply BitVec.eq_of_toNat_eq
    rw [BitVec.toNat_signExtend, hm, if_neg (by simp), BitVec.toNat_setWidth, BitVec.toNat_setWidth]
    omega
  have ht : translated m d g.core g.part g.vf g.l1 a need = (.ok 2 7, d) := by
    simp [translated, Machine.translate, h6, h1, TlbEntry.covers, pageSize, Nat.div_eq_of_lt ha, show a.toNat < 1073741824 from ha]
  have hv : (d.partAt g.part).tileView g.vf 2 a = false := by simp [Partition.tileView, h2]
  have hp : permits (7#64) need = true := by rcases hn with rfl | rfl <;> decide
  have hl : locate m d g.core g.part g.vf g.owner g.l1 a need .plain = (.at_ (entryPlace (d.partAt g.part) 2 false (7#64) a), d) := by
    simp [locate, hi, hc, ht, hv, hp, h7, entryPlace, show eBit (7#64) 4 = false from by decide, show eBit (7#64) 5 = false from by decide]
  have he : (entryPlace (d.partAt g.part) 2 false (7#64) a).kind = .device ∧ (entryPlace (d.partAt g.part) 2 false (7#64) a).key = a.toNat ∧
      (entryPlace (d.partAt g.part) 2 false (7#64) a).port.ownCore = none := by
    simp [entryPlace, show eBit (7#64) 4 = false from by decide, show frameOf (7#64) = 0 from by decide, pageSize, Port.ownCore]
    exact ha
  refine ⟨_, ?_, he.1, he.2.1⟩
  rw [Agent.find, hl]
  simp [he.2.2, Device.lostLine, Device.lineAt, h3, h4, h6, assocGet, linkUp, Device.linkState, h5]

/-- The units of a span lie in it. -/
theorem cuts_within (fuel : Nat) : ∀ (a : Word) (n : Nat), a.toNat + n < 2^64 → ∀ u ∈ cuts fuel a n, a.toNat ≤ u.1.toNat ∧ u.1.toNat < a.toNat + n := by
  induction fuel with
  | zero => intro a n _ u hu; simp [cuts] at hu
  | succ fuel ih =>
    intro a n ha u hu
    rw [cuts] at hu
    split at hu
    · simp at hu
    · next hn =>
      have hk : (a + BitVec.ofNat 64 (min n (64 - a.toNat % 64))).toNat = a.toNat + min n (64 - a.toNat % 64) := by
        rw [BitVec.toNat_add, BitVec.toNat_ofNat]; omega
      rcases List.mem_cons.mp hu with rfl | hu
      · simp only; omega
      · have := ih _ _ (by rw [hk]; omega) u hu
        rw [hk] at this
        omega

/-- The meters let every request pass that they do not count. -/
theorem pass_uncounted {g : Agent} {d : Device} (hg : g.who = none) (p : Place) (n : Nat) : g.pass d p n = (true, d) := by
  simp [Agent.pass, Agent.points, metersAdmit, metersAdd, hg]

/-- A span of that page can be written. -/
theorem targets_mapped {g : Agent} {m : Memory} {d : Device} (hg : Mapped g d) (l : List (Word × Nat)) :
    (∀ u ∈ l, u.1.toNat < 2^30) → ∀ acc, ∃ ts, g.targets m l d acc = (.ok ts, d) := by
  induction l with
  | nil => exact fun _ acc => ⟨acc, rfl⟩
  | cons u rest ih =>
    intro h acc
    obtain ⟨p, hp, hk, -⟩ := find_mapped (m := m) (need := needW) hg (h u (.head _)) (.inr rfl)
    obtain ⟨ts, ht⟩ := ih (fun u hu => h u (.tail _ hu)) (acc ++ [(p, u.2)])
    refine ⟨ts, ?_⟩
    rw [Agent.targets, hp]
    simp [hk, writeReady, Device.homeHas, Config.tokensPerLine, Device.lineAt, hg.2.2.2.1, assocGet, pass_uncounted hg.2.2.2.2.2.2.2, ht,
      show ((PlaceKind.device == PlaceKind.peer) = false) from rfl]

/-- The blocks of a core have places there, those of the area's bytes. -/
theorem blocks_mapped {g : Agent} {m : Memory} {d : Device} {need : BitVec 3} {core : Nat} (hg : Mapped g d) (hn : need = needR ∨ need = needW)
    (hb : ∀ q ∈ coreBlocks core, q.1 < 0x180000) : ∃ bs, blockPlaces g m d 0 need core = .ok bs := by
  unfold blockPlaces
  generalize coreBlocks core = l at hb
  induction l with
  | nil => exact ⟨[], rfl⟩
  | cons q rest ih =>
    obtain ⟨bs, h⟩ := ih fun q hq => hb q (.tail _ hq)
    have hq := hb q (.head _)
    obtain ⟨p, hp, -⟩ := find_mapped (g := g) (m := m) (d := d) (need := need) (a := 0 + BitVec.ofNat 64 q.1) hg
      (by rw [BitVec.toNat_add, BitVec.toNat_ofNat, show (0 : Word).toNat = 0 from rfl]; omega) hn
    refine ⟨(p.key, q.2) :: bs, ?_⟩
    rw [List.mapM_cons, hp]
    simp only [h]
    rfl

/-- An engine reads zeros from that page where nothing has written it. -/
theorem units_mapped {g : Agent} {d : Device} (hg : Mapped g d) (l : List (Word × Nat)) :
    (∀ u ∈ l, u.1.toNat < 2^30) → ∀ acc, g.units {} .plain l d acc = (.bytes (acc ++ List.replicate (l.map Prod.snd).sum 0), d) := by
  induction l with
  | nil => intro _ acc; simp [Agent.units]
  | cons u rest ih =>
    intro h acc
    obtain ⟨p, hp, hk, -⟩ := find_mapped (m := {}) (need := needR) hg (h u (.head _)) (.inl rfl)
    have hb : ({} : Memory).bytes p.key u.2 = List.replicate u.2 0 := by
      rw [Memory.bytes, show (fun i => ({} : Memory).byte (p.key + i)) = fun _ => 0 from rfl, List.map_const', List.length_range]
    have hf : firstPoison {} p.key u.2 = none := by simp [firstPoison]
    have hu : g.unit {} d u.1 u.2 .plain = (.bytes (List.replicate u.2 0), d) := by
      simp [Agent.unit, hp, hk, pass_uncounted hg.2.2.2.2.2.2.2, Device.homeHas, Config.tokensPerLine, Device.lineAt, hg.2.2.2.1, assocGet, hf, hb]
    rw [Agent.units, hu]
    simp only [ih (fun u hu => h u (.tail _ hu)), List.map_cons, List.sum_cons, List.append_assoc, List.replicate_append_replicate]

/-- The units of a span have its length. -/
theorem cuts_sum (fuel : Nat) : ∀ (a : Word) (n : Nat), n < fuel → ((cuts fuel a n).map Prod.snd).sum = n := by
  induction fuel with
  | zero => intro a n h; omega
  | succ fuel ih =>
    intro a n h
    rw [cuts]
    split
    · simp_all
    · simp only [List.map_cons, List.sum_cons]
      rw [ih _ _ (by omega)]
      omega

theorem read_mapped {g : Agent} {d : Device} {n : Nat} (hg : Mapped g d) (hn : n < 2^30) :
    g.read {} d 0 n .plain = (.bytes (List.replicate n 0), d) := by
  have h := units_mapped hg (cuts (n + 1) 0 n) (fun u hu => by
    have h := cuts_within (n + 1) 0 n (by simp; omega) u hu
    rw [show (0 : Word).toNat = 0 from rfl] at h
    omega) []
  rwa [List.nil_append, cuts_sum _ _ _ (by omega)] at h

/-- The blocks of core 0 lie within its area. -/
theorem core_blocks : ∀ q ∈ coreBlocks 0, q.1 < 0x180000 := by
  intro q hq
  simp only [coreBlocks, List.mem_flatten, List.mem_map] at hq
  obtain ⟨l, ⟨sp, hs, rfl⟩, hq⟩ := hq
  obtain ⟨i, hi, rfl⟩ := List.mem_map.mp hq
  have h1 : ∀ sp ∈ coreSpans 0, sp.1 + sp.2.2 ≤ 0x180000 := by decide
  have h2 := h1 sp hs
  have h3 := List.mem_range.mp hi
  simp only
  omega

theorem dwordBytes_length (ws : List Word) : (dwordBytes ws).length = 8 * ws.length := by
  simp [dwordBytes, List.length_flatten, Function.comp_def, Nat.mul_comm]

theorem bytesOf_length (x n : Nat) : (bytesOf x n).length = n := by
  simp [bytesOf]

theorem rows_length {α : Type} (f : α → Nat) (n : Nat) (l : List α) : (l.map fun i => bytesOf (f i) n).flatten.length = n * l.length := by
  simp [List.length_flatten, Function.comp_def, bytesOf_length, Nat.mul_comm]

/-- The parts of an area of core 0 lie in it. -/
theorem coreArea_fits : ∀ p ∈ coreArea {} 0 [] fun _ => 0, p.1 + p.2.length ≤ 0x180000 := by
  intro p hp
  simp only [coreArea, List.mem_append, List.mem_cons, List.not_mem_nil, or_false, List.mem_map] at hp
  rcases hp with ((((rfl | rfl | rfl | rfl | rfl | rfl) | ⟨i, hi, rfl⟩) | ⟨q, hq, rfl⟩) | ⟨r, hr, rfl⟩) | rfl | rfl
  · simp [dwordBytes_length]
  · simp [dwordBytes_length]
  · simp [dwordBytes_length]
  · simp [dwordBytes_length]
  · simp only [rows_length (fun x : BitVec 32 => x.toNat) 4 ({} : Core).sems]
    decide
  · rw [List.length_replicate]
    decide
  · have := List.mem_range.mp hi
    simp only [List.find?_nil, dwordBytes_length, emptyArea, List.length_replicate]
    omega
  · have : q.2 < 16 := List.snd_lt_of_mem_zipIdx hq
    simp only [List.length_append, bytesOf_length]
    omega
  · have := List.mem_range.mp hr
    simp only [bytesOf_length]
    omega
  · simp only [rows_length (fun i => ((assocGet i ({} : Core).scratch).getD 0).toNat) 4, List.length_range]
    omega
  · simp [dwordBytes_length]

/-- A command of the context in slot 1 of core 0, for slot 15 or for core 0, with its area at address 0. -/
def commandFor (save core : Bool) : Command :=
  { save := save, presel := if core then 0x40000 else 15, prearea := 0, core := 0, slot := 1, vf := 0, part := 0, after := 0 }
/-- A state with that command, a context perhaps in slot 15, whose turn it is, and what was saved. -/
def commanding (c : Command) (x : Option Context) (saved : Bool) (vs : List Saved) : State :=
  { mem := {}, dev := {
      slot := 15, parts := [(0, { blocks := [0] })], commands := [c], saved := vs, tlb := [⟨0, 0, 0, 2, 7⟩]
      cores := [(0, { ({} : Core).setCtx 15 x with saved := saved, semImage := if saved then some Config.dieScratchBase else none, cyc := 15 })] } }
/-- A context that stood alone in slot 15, and a core that stood empty, as they were saved. -/
def savedContext : Saved := { area := 8, core := 0, slot := 15, whole := false, ctx := some { whole with gCount := 8, vCount := 4 }, unit := none }
def savedCore : Saved := { area := 0, core := 0, slot := 0, whole := true, ctx := none, unit := some { rres := 5 } }

theorem commanding_mapped (save core : Bool) (x : Option Context) (saved : Bool) (vs : List Saved) :
    Mapped (commandFor save core).agent (commanding (commandFor save core) x saved vs).dev :=
  ⟨by simp [commanding, commandFor, Command.agent, clusterOf], rfl, rfl, rfl, rfl, rfl, rfl, rfl⟩

theorem commanding_runs (save core : Bool) (x : Option Context) (saved : Bool) (vs : List Saved) :
    Runs (commanding (commandFor save core) x saved vs) 0 save core (commandFor save core) :=
  ⟨rfl, rfl, by cases core <;> simp only [commandFor] <;> decide, fun _ h => by simp [commanding] at h, fun _ h => by simp [commandFor] at h,
    fun _ h => by simp [commanding] at h, fun _ h => by simp [commanding] at h⟩

theorem witness_SaveContext_reach : let c := commandFor true false; let s := commanding c (some whole) false [];
    Runs s 0 true false c ∧ s.dev.ctxAt c.target.1 c.target.2 = some whole :=
  ⟨commanding_runs .., rfl⟩

theorem witness_SaveContext : ∃ d1 e x ts, let c := { commandFor true false with reached := true }; let s := commanding c (some whole) false [];
    s.dev.savingOf s.dev.core s.dev.slot = some c ∧ c.target = (s.dev.core, s.dev.slot) ∧ c.presel.getLsbD 18 = false ∧
    s.dev.cur = some whole ∧ whole.part = c.part ∧ (s.dev.partAt c.part).hasCore s.dev.core = true ∧
    c.agent.targets s.mem (cuts 10241 (c.area + 8) 10232) s.dev [] = (.ok ts, s.dev) ∧
    takeContext s.dev s.dev.core s.dev.slot = some (d1, e) ∧ d1.ctxAt s.dev.core s.dev.slot = some x ∧ d1.waiters = [] := by
  have h : ((takeContext (commanding { commandFor true false with reached := true } (some whole) false []).dev 0 15).map fun q =>
      (q.1.ctxAt 0 15).isSome && q.1.waiters.isEmpty) = some true := by decide +kernel
  obtain ⟨⟨d1, e⟩, h1, h2⟩ := Option.map_eq_some_iff.mp h
  simp only [Bool.and_eq_true, List.isEmpty_iff] at h2
  obtain ⟨x, h9⟩ := Option.isSome_iff_exists.mp h2.1
  obtain ⟨ts, ht⟩ := targets_mapped (g := (commandFor true false).agent) (m := {}) (d := (commanding { commandFor true false with reached := true } (some whole) false []).dev)
    ⟨rfl, rfl, rfl, rfl, rfl, rfl, rfl, rfl⟩ (cuts 10241 8 10232) (fun u hu => by
      have h10 := cuts_within _ _ _ (by decide) u hu
      rw [show (8 : Word).toNat = 8 from rfl] at h10
      omega) []
  exact ⟨d1, e, x, ts, by decide +kernel, rfl, by decide, rfl, rfl, by decide +kernel, ht, h1, h9, h2.2⟩

/-- The RESTORE of that context, and the state in which it runs. -/
def restoring : Command := commandFor false false
def beforeRestore : State := commanding restoring none false [savedContext]

theorem restoring_read : restoring.agent.read beforeRestore.mem beforeRestore.dev restoring.area 10240 .plain =
    (.bytes (List.replicate 10240 0), beforeRestore.dev) :=
  read_mapped (commanding_mapped ..) (by decide)

theorem restoring_place : ∃ p d2, restoring.agent.find beforeRestore.mem beforeRestore.dev (restoring.area + 8) needR .plain = (.place p, d2) ∧
    p.key = 8 :=
  found_of (by decide +kernel)

/-- What that area, of zeros, gives back. -/
def fromZeros : Context := contextFrom (dwordsFrom (List.replicate 10240 0)) { whole with gCount := 8, vCount := 4 }

theorem witness_RestoreContext :
    Runs beforeRestore 0 false false restoring ∧ NoWaiters beforeRestore ∧ (beforeRestore.dev.coreAt restoring.target.1).halted = false ∧
    (beforeRestore.dev.partAt restoring.part).hasCore restoring.target.1 = true ∧
    beforeRestore.dev.ctxAt restoring.target.1 restoring.target.2 = none ∧
    reservedSlot beforeRestore.dev restoring.target.1 restoring.target.2 = false ∧
    restoring.target.2 < (beforeRestore.dev.coreAt restoring.target.1).slots.length ∧
    recordFor beforeRestore.dev restoring restoring.target.1 8 (dwordsFrom (List.replicate 10240 0)) = savedContext ∧
    savedContext.ctx = some { whole with gCount := 8, vCount := 4 } ∧ savedContext.tied = false ∧
    restoring.target.2 ∉ (beforeRestore.dev.coreAt restoring.target.1).tied ∧ (beforeRestore.dev.coreAt restoring.target.1).spill = [] ∧
    fromZeros.phase = .ready ∧ areaExpiry (dwordsFrom (List.replicate 10240 0)) savedContext.expiry = none ∧
    fitWindows beforeRestore.dev restoring.target.1 fromZeros.gCount fromZeros.vCount = some (0, 0) ∧
    badTag (dwordsFrom (List.replicate 10240 0)) fromZeros = none :=
  ⟨commanding_runs .., rfl, rfl, by decide +kernel, rfl, by decide +kernel, by decide +kernel, by decide +kernel, rfl, rfl, by decide +kernel, rfl,
    by decide +kernel, by decide +kernel, by decide +kernel, by decide +kernel⟩

theorem witness_SaveCore : ∃ d1 xs k ts bs, let c := commandFor true true; let s := commanding c (some whole) false [];
    Runs s 0 true true c ∧ (s.dev.partAt c.part).hasCore c.target.1 = true ∧ (s.dev.coreAt c.target.1).saved = false ∧
    c.area.toNat % 2^20 = 0 ∧ c.agent.targets s.mem (((coreArea {} c.target.1 [] fun _ => 0).map fun q =>
      cuts (q.2.length + 1) (c.area + BitVec.ofNat 64 q.1) q.2.length).flatten) (s.dev.reach c) [] = (.ok ts, s.dev.reach c) ∧
    blockPlaces c.agent s.mem s.dev c.area needW c.target.1 = .ok bs ∧
    takeCore (s.dev.reach c) c.target.1 = some (d1, xs, k) ∧ d1.waiters = [] := by
  have h : ((takeCore ((commanding (commandFor true true) (some whole) false []).dev.reach (commandFor true true)) 0).map fun q =>
      q.1.waiters.isEmpty) = some true := by decide +kernel
  obtain ⟨⟨d1, xs, k⟩, h1, h2⟩ := Option.map_eq_some_iff.mp h
  obtain ⟨ts, ht⟩ := targets_mapped (g := (commandFor true true).agent) (m := {})
    (d := (commanding (commandFor true true) (some whole) false []).dev.reach (commandFor true true)) ⟨rfl, rfl, rfl, rfl, rfl, rfl, rfl, rfl⟩
    (((coreArea {} 0 [] fun _ => 0).map fun q => cuts (q.2.length + 1) (0 + BitVec.ofNat 64 q.1) q.2.length).flatten)
    (fun u hu => by
      obtain ⟨l, hl, hu⟩ := List.mem_flatten.mp hu
      obtain ⟨q, hq, rfl⟩ := List.mem_map.mp hl
      have h9 := coreArea_fits q hq
      have e : ((0 : Word) + BitVec.ofNat 64 q.1).toNat = q.1 := by
        rw [BitVec.toNat_add, BitVec.toNat_ofNat, show (0 : Word).toNat = 0 from rfl]
        omega
      have h10 := cuts_within _ _ _ (by rw [e]; omega) u hu
      rw [e] at h10
      omega) []
  obtain ⟨bs, hb⟩ := blocks_mapped (g := (commandFor true true).agent) (m := {}) (need := needW) (core := 0)
    (commanding_mapped true true (some whole) false []) (.inr rfl) core_blocks
  exact ⟨d1, xs, k, ts, bs, commanding_runs .., by decide +kernel, rfl, by decide, ht, hb, h1, List.isEmpty_iff.mp h2⟩

/-- The RESTORE of that core, and the state in which it runs. -/
def restoringCore : Command := commandFor false true
def beforeCore : State := commanding restoringCore none true [savedCore]

/-- Every dword of bytes of zeros is zero. -/
theorem zero_dword (n i : Nat) : (dwordsFrom (List.replicate n 0)).getD i 0 = 0 := by
  simp only [dwordsFrom, List.getD_eq_getElem?_getD, List.getElem?_map]
  by_cases h : i < n / 8
  · have h2 : min 8 (n - 8 * i) = 8 := by omega
    simp [h, List.drop_replicate, List.take_replicate, h2]
    decide
  · simp [h]

/-- The state code of every context area of zeros is that of an empty slot. -/
theorem zero_state (n i : Nat) : (contextDwords (dwordsFrom (List.replicate n 0)) i).getD 4 0 = 0 := by
  have h := zero_dword n ((0x1000 + 0x2800 * i) / 8 + 4)
  rw [List.getD_eq_getElem?_getD] at h ⊢
  rw [contextDwords, List.getElem?_take_of_lt (by decide), List.getElem?_drop]
  exact h

theorem restoringCore_read : restoringCore.agent.read beforeCore.mem beforeCore.dev restoringCore.area 0xC4000 .plain =
    (.bytes (List.replicate 0xC4000 0), beforeCore.dev) ∧ ((dwordsFrom (List.replicate 0xC4000 0)).getD 1 0).toNat % 2^18 / 16 = 0 :=
  ⟨read_mapped (commanding_mapped ..) (by decide), by rw [zero_dword]; rfl⟩

theorem restoringCore_place : ∃ p d2, restoringCore.agent.find beforeCore.mem beforeCore.dev restoringCore.area needR .plain = (.place p, d2) ∧
    p.key = 0 :=
  found_of (by decide +kernel)

theorem restoringCore_blocks : ∃ blocks, blockPlaces restoringCore.agent beforeCore.mem beforeCore.dev restoringCore.area needR 0 = .ok blocks ∧
    ∀ q ∈ blocks, ∀ i, i < 64 → beforeCore.mem.isPoisoned (q.1 + i) = false :=
  have ⟨bs, h⟩ := blocks_mapped (commanding_mapped ..) (.inl rfl) core_blocks
  ⟨bs, h, fun _ _ _ _ => rfl⟩

theorem witness_RestoreCore :
    Runs beforeCore 0 false true restoringCore ∧ NoWaiters beforeCore ∧ (beforeCore.dev.coreAt restoringCore.target.1).halted = false ∧
    (beforeCore.dev.partAt restoringCore.part).hasCore restoringCore.target.1 = true ∧
    (∀ i, beforeCore.dev.ctxAt 0 i = none) ∧ restoringCore.area.toNat % 2^20 = 0 ∧ restoringCore.target.1 = 0 ∧
    (beforeCore.dev.saved.find? fun v => v.whole && v.core == 0 && v.area == 0) = some savedCore ∧
    savedCore.unit = some { rres := 5 } ∧
    areaContexts beforeCore.dev restoringCore 0 (dwordsFrom (List.replicate 0xC4000 0)) savedCore = [] ∧
    (beforeCore.dev.coreAt 0).saved = true ∧ (beforeCore.dev.coreAt 0).spill = [] := by
  refine ⟨commanding_runs .., rfl, rfl, by decide +kernel, fun i => ?_, by decide, rfl, rfl, rfl, ?_, rfl, rfl⟩
  · have h : beforeCore.dev.ctxAt 0 i = (((List.replicate 16 (none : Option Context)).set 15 none)[i]?).join := rfl
    rw [h, List.getElem?_set]
    split
    · split <;> rfl
    · rw [List.getElem?_replicate]; split <;> rfl
  · simp only [areaContexts, zero_state, if_pos rfl]
    decide

/-! Witnesses: the host port, host lines and peer links. -/

/-- A state of one partition, function 0 of which is the host's, with the words of memory from a key. -/
def hosted (key : Nat) (ws : List Nat) : State :=
  { mem := Memory.apply {} ((ws.zipIdx.map fun q => storeEdits (key + 8 * q.2) 8 q.1).flatten)
    dev := { parts := [(0, { blocks := [0] })], vfs := [(0, { part := some 0 })] } }

theorem witness_HostRequests :
    HostReady (hosted 0 []) ∧ (4 : BitVec 32).toNat ≤ 64 ∧ (64 : BitVec 32).toNat ≤ 64 ∧
    (∀ op ∈ [(1 : Word), 9, 10], let packet : List Word := [op, 0, 0, 0, 0, 0, 0, 0];
      ((hosted 0 []).dev.partAt (partId packet)).holding = false ∧ (packet.getD 0 0).toNat % 256 = op.toNat) ∧
    (∀ n ∈ [4095, 4096], let s : State := { hosted 0 [] with dev := { (hosted 0 []).dev with controlWr := n } };
      HostReady s ∧ (s.dev.controlWr - s.dev.controlRd < 2^s.dev.controlLog2n ↔ n = 4095)) ∧
    ((0 : Word) = 0 ∨ 4 < (0 : Word).toNat) ∧ ((5 : Word) = 0 ∨ 4 < (5 : Word).toNat) := by
  refine ⟨⟨rfl, rfl, rfl, fun _ h => by cases h⟩, by decide, by decide, fun op h => ?_, fun n h => ?_, by decide, by decide⟩
  · simp only [List.mem_cons, List.not_mem_nil, or_false] at h
    rcases h with rfl | rfl | rfl <;> exact ⟨rfl, by decide⟩
  · simp only [List.mem_cons, List.not_mem_nil, or_false] at h
    rcases h with rfl | rfl <;> exact ⟨⟨rfl, rfl, rfl, fun _ h => by cases h⟩, by decide⟩

/-- A queue header in cluster-shared memory, of a ring of two slots, with a WRIDX. -/
def headed (wr : Nat) : State := hosted (sharedPlace 0 0x100).key [wr, 0, 0xFE01000000000200, 1]

/-- Places of a span, and what was asked for them. -/
def placesOf (r : Except Grab (List (Place × Nat)) × Device) : Option (List (Place × Nat)) :=
  match r with
  | (.ok l, _) => some l
  | _ => none

theorem placesOf_some {r : Except Grab (List (Place × Nat)) × Device} {l : List (Place × Nat)} (h : placesOf r = some l) : r = (.ok l, r.2) := by
  obtain ⟨e, d⟩ := r
  cases e with
  | ok x => simp only [placesOf, Option.some.injEq] at h; rw [h]
  | error g => simp [placesOf] at h

theorem witness_HostPosts : ∀ wr ∈ [1, 2], let s := headed wr; let g := dispatchAgent s.dev 0 0; let p := sharedPlace 0 0x100;
    let q := sharedPlace 0 (0x200 + 64 * (wr % 2)); let d1 := (g.targets s.mem (cuts 65 0xFE01000000000100 64) s.dev []).2;
    let d2 := (g.targets s.mem (cuts 65 (0xFE01000000000200 + BitVec.ofNat 64 (64 * (wr % 2^1))) 64) d1 []).2;
    HostReady s ∧ s.mem.wf = true ∧ (s.dev.vfAt 0).part = some 0 ∧ (s.dev.partAt 0).holding = false ∧
    g.targets s.mem (cuts 65 0xFE01000000000100 64) s.dev [] = (.ok [(p, 64)], d1) ∧ queuePlace p = true ∧
    headerOf (s.dev.partAt 0) ((List.range 8).map fun i => s.mem.word (p.key + 8 * i)) = some (wr, 0, 0xFE01000000000200, 1, 0) ∧
    g.targets s.mem (cuts 65 (0xFE01000000000200 + BitVec.ofNat 64 (64 * (wr % 2^1))) 64) d1 [] = (.ok [(q, 64)], d2) ∧ queuePlace q = true ∧
    d2.waiters = [] ∧ p.key % 8 = 0 ∧ q.key % 8 = 0 ∧ s.mem.isPoisoned p.key = false ∧ (∀ i, i < 64 → s.mem.isPoisoned (q.key + i) = false) ∧
    (p.key + 8 ≤ q.key ∨ q.key + 64 ≤ p.key) ∧ ((2^1 : Nat) ≤ (wr + 2^64 - 0) % 2^64 ↔ wr = 2) ∧
    packet.length = 8 ∧ launchVf d2 0 0 0 p.key packet = some 0 ∧ (List.replicate 8 (0 : Word)).length = 8 ∧ launchVf d2 0 0 0 p.key (List.replicate 8 0) = none := by
  intro wr h
  simp only [List.mem_cons, List.not_mem_nil, or_false] at h
  rcases h with rfl | rfl <;>
    exact ⟨⟨rfl, rfl, rfl, fun _ h => by cases h⟩, by decide +kernel, rfl, rfl, placesOf_some (by decide +kernel), rfl, by decide +kernel,
      placesOf_some (by decide +kernel), rfl, by decide +kernel, by decide +kernel, by decide +kernel, by decide +kernel, fun _ _ => rfl,
      by decide +kernel, by decide, rfl, by decide +kernel, rfl, by decide +kernel⟩

/-- A host line, and a state with what the proxy holds of it and asked for. -/
def hostLine : Nat := Config.hostBase / 128
def granted (g : Option Nat) (treqs : List (Nat × Bool)) : State :=
  { mem := {}, dev := { grants := (g.map fun n => (hostLine, n)).toList, treqs := treqs, tlb := [⟨0, 5, 0x10000, 4, 0x10000F⟩] } }

/-- Grants before and after each HMRD_COMPLETION, with its address and the number of its bytes (R376, R378). -/
def completions : List (Nat × Word × Nat × Nat) :=
  [(1, 0, 128, 5), (2, 0, 128, 6), (33, 0, 64, 41), (34, 64, 64, 50), (41, 64, 64, 5), (42, 64, 64, 6), (49, 0, 64, 5), (50, 0, 64, 6)]

theorem witness_HostLines_grants :
    (let s := granted none [(hostLine, true)]; (hostLine, true) ∈ s.dev.treqs ∧ assocGet hostLine s.dev.grants = none) ∧
    (let s := granted (some 5) [(hostLine, true)]; (hostLine, true) ∈ s.dev.treqs ∧ assocGet hostLine s.dev.grants = some 5) ∧
    ∀ q ∈ completions, let s := granted (some q.1) []; let half := if q.2.1.toNat % 128 = 0 then 8 else 16;
      let data := List.replicate q.2.2.1 (7 : Byte); HostReady s ∧ s.mem.wf = true ∧
      assocGet ((Config.hostBase + q.2.1.toNat % 2^57) / 128) s.dev.grants = some q.1 ∧
      (q.2.1.toNat % 128 = 0 ∧ data.length = 128 ∧ (q.1 = 1 ∨ q.1 = 2) ∧ q.2.2.2 = q.1 + 4 ∨
        q.2.1.toNat % 64 = 0 ∧ data.length = 64 ∧ (q.1 = 33 ∨ q.1 = 34) ∧ q.2.2.2 = q.1 + half ∨
        q.2.1.toNat % 64 = 0 ∧ data.length = 64 ∧ (q.1 + half = 57 ∨ q.1 + half = 58) ∧ q.2.2.2 = q.1 % 4 + 4) :=
  ⟨by decide, by decide, fun q h => ⟨⟨rfl, rfl, rfl, fun _ h => by cases h⟩, rfl, by
    revert q; decide +kernel⟩⟩

theorem witness_HostLines_atomics :
    (let p : Piece := { port := .peer 0, key := Config.hostBase, bytes := 8, data := 3 };
      let a : Access := { accessOf (.amo 0 false 0) 0 (.peer 0) (some (.g 9)) with pieces := [p], hostPending := true };
      let s : State := { mem := {}, dev := { accesses := [a], nextAccess := 1 } };
      HostReady s ∧ s.mem.wf = true ∧ s.dev.access 0 = some a ∧ a.id = 0 ∧ a.pieces = [p] ∧ p.done = false ∧ a.hostPending = true ∧
      a.kind = .amo 0 false 0 ∧ amoNew 0 8 (0 : Word).toNat p.data.toNat (0 : Word).toNat = some 3 ∧
      amoNew 0 8 (5 : Word).toNat p.data.toNat (0 : Word).toNat = some 3 ∧ Config.hostBase ≤ p.key ∧
      p.key < Config.peerBase ∧ s.mem.word p.key = 0 ∧ s.mem.word p.key ≠ 5) :=
  ⟨⟨rfl, rfl, rfl, fun _ h => by cases h⟩, rfl, rfl, rfl, rfl, rfl, rfl, rfl, by decide, by decide, by decide, by decide, by decide +kernel, by decide +kernel⟩

/-- A state in which the proxy holds a host line, whose dirty copy may stand there, and an L1 may hold its tokens. -/
def held (g : Option Nat) (dirty : Bool) (away : Nat) : State :=
  { mem := {}, dev := { grants := (g.map fun n => (hostLine, n)).toList
                        lines := [(hostLine, { home := Config.tokensPerLine - away, holders := if away = 0 then [] else [(0, away, true, true)]
                                               homeDirty := dirty })] } }

theorem witness_HostLines_snoops :
    (let s := held none false 0; s.dev.snoops = [] ∧ assocGet hostLine s.dev.grants = none ∧ (s.dev.lineAt hostLine).homeDirty = false) ∧
    (∀ dirty ∈ [false, true], let s := held (some 6) dirty 0; let l := s.dev.lineAt hostLine;
      s.dev.snoops = [] ∧ assocGet hostLine s.dev.grants = some 6 ∧ l.homeDirty = dirty ∧ l.home = Config.tokensPerLine ∧ grantData 6 = true ∧
      2^51 ≤ hostLine ∧ s.dev.hostAtomic hostLine = false ∧ ∀ r ∈ s.dev.hostAsks, r.line ≠ hostLine) ∧
    (let s := held (some 6) false 16384; s.dev.snoops = [] ∧ assocGet hostLine s.dev.grants = some 6 ∧
      (s.dev.lineAt hostLine).home ≠ Config.tokensPerLine) := by
  decide +kernel

theorem witness_HostLines :
    (let s := granted none []; s.dev.xinvs.length < 64 ∧ s.dev.failedStep = 0 ∧ s.dev.railLost = false ∧ s.dev.accesses = [] ∧
      TlbEntry.named ⟨0, 5, 0x10000, 4, 0x10000F⟩ 5 0x1FFFF 0 = true) ∧
    (let s : State := { mem := {}, dev := { accesses := [accessOf .store lastKey (.scratchpad 0)], nextAccess := 1, xinvs := [(0, 1)] } };
      s.dev.xsyncs = [] ∧ s.dev.accesses ≠ [] ∧ ∀ a ∈ s.dev.accesses, a.complete = false ∧ a.fault = none ∧ ∀ x ∈ s.dev.xinvs, x.1 = a.vf ∧ a.id < x.2) ∧
    (let s : State := { mem := {}, dev := { accesses := [accessOf .store lastKey (.scratchpad 0)], nextAccess := 1, xinvs := [(5, 1)] } };
      s.dev.xsyncs = [] ∧ s.dev.packets = [] ∧
      ∀ a ∈ s.dev.accesses, a.complete = true ∨ a.fault ≠ none ∨ ∀ x ∈ s.dev.xinvs, ¬(x.1 = a.vf ∧ a.id < x.2)) ∧
    (let s : State := { mem := {}, dev := { accesses := [accessOf .store lastKey (.scratchpad 0)], nextAccess := 1, xinvs := [(0, 1)], xsyncs := [(7, 1)] } };
      s.dev.xsyncs = (7, 1) :: [] ∧ s.dev.accesses ≠ [] ∧
      ∀ a ∈ s.dev.accesses, a.complete = false ∧ a.fault = none ∧ ∀ x ∈ s.dev.xinvs.take 1, x.1 = a.vf ∧ a.id < x.2) := by
  exact ⟨by decide +kernel, by decide +kernel, by decide +kernel, by decide +kernel⟩

/-- A state with one peer link. -/
def linked (l : PeerLink) (ns : Nat) : State := { mem := {}, dev := { peers := [l], now := ns * 1000000 } }

theorem witness_PeerLinks :
    (let l : PeerLink := { id := 15, expect := 4095, sent := [⟨7, 0, none, 0⟩, ⟨8, 0, none, 0⟩] }; let s := linked l 0;
      (s.dev.peerAt 15).down = false ∧ s.dev.failedStep = 0 ∧ s.dev.railLost = false ∧ s.dev.lostDies = [] ∧ NoWaiters s ∧ s.dev.launches = [] ∧
      (∀ kind ∈ [(2 : Word), 3], let header : Word := 0xFFF0070000000005 + kind * 0x100000000;
        (BitVec.ofNat 12 (header.toNat / 2^52) : BitVec 12) = (s.dev.peerAt 15).expect ∧ header.toNat / 2^32 % 16 = kind.toNat) ∧
      (BitVec.ofNat 12 ((0xFFE0000000000000 : Word).toNat / 2^52) : BitVec 12) ≠ (s.dev.peerAt 15).expect ∧ linkOwner s.dev 15 = none ∧
      (s.dev.peerAt 15).sent = [] ++ ⟨7, 0, none, 0⟩ :: [⟨8, 0, none, 0⟩] ∧
      (∃ f ∈ (s.dev.peerAt 15).sent, f.seq = 7) ∧ (∀ f ∈ (s.dev.peerAt 15).sent, f.seq ≠ 9) ∧
      (0xFFF0070000000005 : Word).getLsbD 39 = false ∧ (0xFFF0078000000005 : Word).getLsbD 39 = true) ∧
    (let s := linked { id := 3, sent := [⟨7, 0, none, 9⟩] } 0; NoWaiters s ∧ ∃ q ∈ (s.dev.peerAt 3).sent, 9 ≤ q.fails) ∧
    (∀ ns ∈ [63999, 64000], let s := linked { id := 0 } ns;
      (s.dev.peerAt 0).down = false ∧ NoWaiters s ∧ s.dev.wall = ns ∧ (s.dev.peerAt 0).heard = 0 ∧ s.dev.accesses = []) := by
  refine ⟨⟨rfl, rfl, rfl, rfl, rfl, rfl, fun kind h => ?_, by decide +kernel, by decide +kernel, rfl, ⟨_, .head _, rfl⟩, by decide, by decide, by decide⟩, ⟨rfl, _, .head _, by decide⟩,
    fun ns h => ?_⟩
  · simp only [List.mem_cons, List.not_mem_nil, or_false] at h
    rcases h with rfl | rfl <;> decide +kernel
  simp only [List.mem_cons, List.not_mem_nil, or_false] at h
  rcases h with rfl | rfl <;> exact ⟨rfl, rfl, by decide +kernel, rfl, rfl⟩

/-! Witnesses: errors, lost dies and reset. -/

theorem witness_StorageErrors :
    (let s := one whole; Unpartitioned s ∧ s.dev.log = [] ∧ s.dev.ctxAt 0 0 = some whole ∧ whole.isStopped = false ∧
      (s.dev.coreAt 0).opSlots[15]? = some ({} : OpSlot) ∧ (∀ a ∈ s.dev.accesses, a.passed = false) ∧ s.mem.wf = true) ∧
    ∀ dirty ∈ [false, true], let s : State := { mem := {}, dev := { lines := [(7, { homeDirty := dirty })] } };
      Unpartitioned s ∧ s.dev.log = [] ∧ 896 < Config.hostBase ∧ (s.dev.lineAt (896 / 128)).homeDirty = dirty ∧
      (∀ a ∈ s.dev.accesses, a.passed = false) ∧ s.mem.wf = true :=
  ⟨⟨⟨rfl, rfl⟩, rfl, rfl, rfl, rfl, fun _ h => absurd h List.not_mem_nil, rfl⟩,
    fun _ _ => ⟨⟨rfl, rfl⟩, rfl, by decide, rfl, fun _ h => absurd h List.not_mem_nil, rfl⟩⟩

/-- A state at some wall instant, with lines, token messages and requests. -/
def losing (ns : Nat) (lines : List (Nat × LineState)) : State :=
  { mem := {}, dev := { now := ns * 1000000, lines := lines, heard := [(9, 1)], tokenMsgs := [⟨0x2000, 1, false, false, none, 0, none⟩]
                        hints := [(0x2000, 1)]
                        tokenReqs := [{ line := 0x2000, core := none, write := true, first := 0, sentAt := 0 }] } }

theorem witness_DieLost : ∀ ns ∈ [64000, 64001], let l : LineState := { home := 16383, holders := [(9216, 1, false, false)] };
    let s := losing ns [(0x2000, l)];
    Unpartitioned s ∧ (9 : Nat) ∉ s.dev.lostDies ∧ s.dev.packets = [] ∧ s.dev.launches = [] ∧ s.dev.peers = [] ∧ s.dev.accesses = [] ∧
    (assocGet 9 s.dev.heard).getD 0 + 64000 = 64001 ∧ s.dev.wall = ns ∧ (∀ h ∈ (s.dev.lineAt 0x2000).holders, dieOfCore h.1 = 9) ∧
    assocGet 0x2000 s.dev.lines = some (s.dev.lineAt 0x2000) := by
  intro ns h
  simp only [List.mem_cons, List.not_mem_nil, or_false] at h
  rcases h with rfl | rfl <;>
    exact ⟨⟨rfl, rfl⟩, by decide, rfl, rfl, rfl, rfl, rfl, by decide +kernel, by decide, rfl⟩

theorem witness_LostTokens : let s := losing 0 [];
    Unpartitioned s ∧ s.dev.tokenMsgs[0]? = some ⟨0x2000, 1, false, false, none, 0, none⟩ ∧
    s.dev.tokenReqs[0]? = some { line := 0x2000, core := none, write := true, first := 0, sentAt := 0 } ∧
    s.dev.hints = (0x2000, 1) :: [] ∧ ∀ a ∈ s.dev.accesses, a.passed = false :=
  ⟨⟨rfl, rfl⟩, rfl, rfl, rfl, fun _ h => absurd h List.not_mem_nil⟩

theorem witness_Recounts : ∀ owner ∈ [true, false],
    let l : LineState := { home := 5, homeOwner := owner, holders := [(0, 16378, false, false)], lost := true }; let s := losing 0 [(1, l)];
    Unpartitioned s ∧ (s.dev.lineAt 1).lost = true ∧ s.dev.lostDies = [] ∧ (∀ m ∈ s.dev.tokenMsgs, m.line ≠ 1) ∧
    (s.dev.lineAt 1).homeOwner = owner ∧ (∀ h ∈ (s.dev.lineAt 1).holders, h.2.2.1 = false) ∧
    (∀ a ∈ s.dev.accesses, a.passed = false) ∧ s.mem.wf = true :=
  fun _ _ => ⟨⟨rfl, rfl⟩, rfl, rfl, by simp [losing], rfl, by simp [losing, Device.lineAt, assocGet], fun _ h => absurd h List.not_mem_nil, rfl⟩

theorem witness_ResetAndPower :
    State.reset.mem.wf = true ∧ (List.replicate 4 (5 : BitVec 384)).length = 4 ∧ false ∈ [true, true, true, false] ∧
    State.reset.dev.lanes[3]? = some 64 :=
  ⟨rfl, rfl, by decide, rfl⟩

end Sys2Proof.Tests
end

section
/-! SUPPORT. The scalar instructions (R106 to R108): their arithmetic as the tables of the statements give it, and their
completion. -/
namespace Sys2Proof.Claims
open Sys2Proof.Machine

/-! The operations on words, as arithmetic. -/

theorem shiftLeft_eq_ofNat {w : Nat} (x : BitVec w) (n : Nat) : x <<< n = BitVec.ofNat w (x.toNat * 2^n) := by
  apply BitVec.eq_of_toNat_eq
  rw [BitVec.toNat_shiftLeft, BitVec.toNat_ofNat, Nat.shiftLeft_eq]

theorem ushiftRight_eq_ofNat {w : Nat} (x : BitVec w) (n : Nat) : x >>> n = BitVec.ofNat w (x.toNat / 2^n) := by
  apply BitVec.eq_of_toNat_eq
  rw [BitVec.toNat_ushiftRight, BitVec.toNat_ofNat, Nat.shiftRight_eq_div_pow,
    Nat.mod_eq_of_lt (lt_of_le_of_lt (Nat.div_le_self _ _) x.isLt)]

theorem sshiftRight_eq_ofInt {w : Nat} (x : BitVec w) (n : Nat) : x.sshiftRight n = BitVec.ofInt w (x.toInt / 2^n) := by
  rw [BitVec.sshiftRight, Int.shiftRight_eq_div_pow]
  norm_cast

theorem mul_eq_ofInt {w : Nat} (x y : BitVec w) : x * y = BitVec.ofInt w (x.toInt * y.toInt) := by
  rw [BitVec.ofInt_mul, BitVec.ofInt_toInt, BitVec.ofInt_toInt]

/-- Reading bits from the lowest on, each to the right of those before it, turns them round. -/
theorem testBit_foldl_bits (x : Word) (n j : Nat) :
    ((List.range n).foldl (fun acc i => 2 * acc + (x.getLsbD i).toNat) 0).testBit j =
      (decide (j < n) && x.getLsbD (n - 1 - j)) := by
  induction n generalizing j with
  | zero => simp
  | succ n ih =>
    rw [List.range_succ, List.foldl_append, List.foldl_cons, List.foldl_nil, ← Nat.bit_val]
    cases j with
    | zero => simp
    | succ j =>
      rw [Nat.testBit_bit_succ, ih, show n + 1 - 1 - (j + 1) = n - 1 - j by omega]
      simp

theorem opBrev_eq_reverse (x : Word) : opBrev x = x.reverse := by
  apply BitVec.eq_of_getLsbD_eq
  intro i hi
  rw [opBrev, BitVec.getLsbD_ofNat, testBit_foldl_bits, BitVec.getLsbD_reverse, BitVec.getMsbD]
  simp [hi]

theorem toInt_imm10 (i : BitVec 10) : (imm10 i).toInt = i.toInt := BitVec.toInt_signExtend_of_le (by decide)

theorem sh6_setWidth (n : BitVec 6) : sh6 (n.setWidth 64) = n.toNat := by
  rw [sh6, BitVec.toNat_setWidth_of_le (by decide)]
  exact Nat.mod_eq_of_lt n.isLt

theorem sh5_setWidth (n : BitVec 5) : sh5 (n.setWidth 64) = n.toNat := by
  rw [sh5, BitVec.toNat_setWidth_of_le (by decide)]
  exact Nat.mod_eq_of_lt n.isLt

/-- The shifts of the W forms by an amount n. -/
theorem sllw_eq (x : Word) (n : Nat) :
    (x.setWidth 32 <<< n).signExtend 64 = low32 (BitVec.ofNat 32 (x.toNat % 2^32 * 2^n)) := by
  rw [shiftLeft_eq_ofNat, BitVec.toNat_setWidth, low32]

theorem srlw_eq (x : Word) (n : Nat) :
    (x.setWidth 32 >>> n).signExtend 64 = low32 (BitVec.ofNat 32 (x.toNat % 2^32 / 2^n)) := by
  rw [ushiftRight_eq_ofNat, BitVec.toNat_setWidth, low32]

theorem sraw_eq (x : Word) (n : Nat) :
    ((x.setWidth 32).sshiftRight n).signExtend 64 = low32 (BitVec.ofInt 32 ((x.setWidth 32).toInt / 2^n)) := by
  rw [sshiftRight_eq_ofInt, low32]

/-! The machine's operations give the values of the tables (R106 to R108). -/

theorem opSll_value (x y : Word) : opSll x y = Binary.sll.value x y := shiftLeft_eq_ofNat x (sh6 y)

theorem opSrl_value (x y : Word) : opSrl x y = Binary.srl.value x y := ushiftRight_eq_ofNat x (sh6 y)

theorem opSra_value (x y : Word) : opSra x y = Binary.sra.value x y := sshiftRight_eq_ofInt x (sh6 y)

theorem opSllw_value (x y : Word) : opSllw x y = Binary.sllw.value x y := sllw_eq x (sh5 y)

theorem opSrlw_value (x y : Word) : opSrlw x y = Binary.srlw.value x y := srlw_eq x (sh5 y)

theorem opSraw_value (x y : Word) : opSraw x y = Binary.sraw.value x y := sraw_eq x (sh5 y)

theorem sextW_add_value (x y : Word) : sextW (x + y) = Binary.addw.value x y := by
  rw [sextW, BitVec.setWidth_add _ _ (by decide)]
  rfl

theorem sextW_sub_value (x y : Word) : sextW (x - y) = Binary.subw.value x y := by
  rw [sextW, BitVec.sub_eq_add_neg, BitVec.setWidth_add _ _ (by decide), BitVec.setWidth_neg_of_le (by decide),
    ← BitVec.sub_eq_add_neg]
  rfl

theorem sextW_mul_value (x y : Word) : sextW (x * y) = Binary.mulw.value x y := by
  rw [sextW, BitVec.setWidth_mul _ _ (by decide)]
  rfl

theorem opMin_value (x y : Word) : opMin x y = Binary.min.value x y := by
  simp only [opMin, Binary.value, BitVec.slt_iff_toInt_lt]

theorem opMax_value (x y : Word) : opMax x y = Binary.max.value x y := by
  simp only [opMax, Binary.value, BitVec.slt_iff_toInt_lt]

theorem opMinu_value (x y : Word) : opMinu x y = Binary.minu.value x y := by
  simp only [opMinu, Binary.value, BitVec.ult_iff_toNat_lt]

theorem opMaxu_value (x y : Word) : opMaxu x y = Binary.maxu.value x y := by
  simp only [opMaxu, Binary.value, BitVec.ult_iff_toNat_lt]

theorem zeroExtend_value (x : Word) : (x.setWidth 32).setWidth 64 = Unary.zexw.value x := by
  apply BitVec.eq_of_toNat_eq
  simp [Unary.value]

theorem slt_imm10_value (i : BitVec 10) (x : Word) : ofBool (x.slt (imm10 i)) = (Unary.slti i).value x := by
  rw [BitVec.slt, toInt_imm10]
  rfl

theorem opSll_imm_value (n : BitVec 6) (x : Word) : opSll x (n.setWidth 64) = (Unary.slli n).value x := by
  rw [opSll, sh6_setWidth, shiftLeft_eq_ofNat]
  rfl

theorem opSrl_imm_value (n : BitVec 6) (x : Word) : opSrl x (n.setWidth 64) = (Unary.srli n).value x := by
  rw [opSrl, sh6_setWidth, ushiftRight_eq_ofNat]
  rfl

theorem opSra_imm_value (n : BitVec 6) (x : Word) : opSra x (n.setWidth 64) = (Unary.srai n).value x := by
  rw [opSra, sh6_setWidth, sshiftRight_eq_ofInt]
  rfl

theorem opSllw_imm_value (n : BitVec 5) (x : Word) : opSllw x (n.setWidth 64) = (Unary.sllwi n).value x := by
  rw [opSllw, sh5_setWidth, sllw_eq]
  rfl

theorem opSrlw_imm_value (n : BitVec 5) (x : Word) : opSrlw x (n.setWidth 64) = (Unary.srlwi n).value x := by
  rw [opSrlw, sh5_setWidth, srlw_eq]
  rfl

theorem opSraw_imm_value (n : BitVec 5) (x : Word) : opSraw x (n.setWidth 64) = (Unary.srawi n).value x := by
  rw [opSraw, sh5_setWidth, sraw_eq]
  rfl

/-! The binary forms run one shared operation, with the value of the table. -/

theorem exec_binary_of {o : Binary} {sa : Bool} {b a d : BitVec 7} {s : State} {f : Word → Word → Word}
    (hf : ∀ x y, f x y = o.value x y) (hx : exec (o.instr sa b a d) s = scalar2 s (o.instr sa b a d) sa d a b f) :
    exec (o.instr sa b a d) s = scalar2 s (o.instr sa b a d) sa d a b o.value :=
  hx.trans (congrArg _ (funext₂ hf))

theorem exec_binary (o : Binary) (sa : Bool) (b a d : BitVec 7) (s : State) :
    exec (o.instr sa b a d) s = scalar2 s (o.instr sa b a d) sa d a b o.value := by
  cases o with
  | add => rfl
  | sub => rfl
  | and => rfl
  | or => rfl
  | xor => rfl
  | sll => exact exec_binary_of opSll_value rfl
  | srl => exact exec_binary_of opSrl_value rfl
  | sra => exact exec_binary_of opSra_value rfl
  | addw => exact exec_binary_of sextW_add_value rfl
  | subw => exact exec_binary_of sextW_sub_value rfl
  | sllw => exact exec_binary_of opSllw_value rfl
  | srlw => exact exec_binary_of opSrlw_value rfl
  | sraw => exact exec_binary_of opSraw_value rfl
  | slt => rfl
  | sltu => rfl
  | andn => rfl
  | min => exact exec_binary_of opMin_value rfl
  | max => exact exec_binary_of opMax_value rfl
  | minu => exact exec_binary_of opMinu_value rfl
  | maxu => exact exec_binary_of opMaxu_value rfl
  | mul => exact exec_binary_of mul_eq_ofInt rfl
  | mulh => rfl
  | mulhu => rfl
  | mulw => exact exec_binary_of sextW_mul_value rfl

theorem instrBytes_binary (o : Binary) (sa : Bool) (b a d : BitVec 7) : instrBytes (o.instr sa b a d) = 4 := by
  cases o <;> rfl

theorem binaryScalarResult : BinaryScalarResult := by
  intro o sa d a b s x h hs
  rw [exec_binary, scalar2_result h hs, instrBytes_binary]

/-! The forms of one operand and of an immediate. -/

theorem exec_unary_of {o : Unary} {sa : Bool} {a d : BitVec 7} {s : State} {f : Word → Word}
    (hf : ∀ x, f x = o.value x) (hx : exec (o.instr sa a d) s = scalar1 s (o.instr sa a d) sa d a f) :
    exec (o.instr sa a d) s = scalar1 s (o.instr sa a d) sa d a o.value :=
  hx.trans (congrArg _ (funext hf))

theorem exec_unary (o : Unary) (sa : Bool) (a d : BitVec 7) (s : State) :
    exec (o.instr sa a d) s = scalar1 s (o.instr sa a d) sa d a o.value := by
  cases o with
  | clz => rfl
  | ctz => rfl
  | popc => rfl
  | brev => exact exec_unary_of opBrev_eq_reverse rfl
  | sexb => rfl
  | sexh => rfl
  | sexw => rfl
  | zexw => exact exec_unary_of zeroExtend_value rfl
  | addi i => rfl
  | andi i => rfl
  | ori i => rfl
  | xori i => rfl
  | slti i => exact exec_unary_of (slt_imm10_value i) rfl
  | sltiu i => rfl
  | slli n => exact exec_unary_of (opSll_imm_value n) rfl
  | srli n => exact exec_unary_of (opSrl_imm_value n) rfl
  | srai n => exact exec_unary_of (opSra_imm_value n) rfl
  | sllwi n => exact exec_unary_of (opSllw_imm_value n) rfl
  | srlwi n => exact exec_unary_of (opSrlw_imm_value n) rfl
  | srawi n => exact exec_unary_of (opSraw_imm_value n) rfl

theorem instrBytes_unary (o : Unary) (sa : Bool) (a d : BitVec 7) : instrBytes (o.instr sa a d) = 4 := by
  cases o <;> rfl

theorem unaryScalarResult : UnaryScalarResult := by
  intro o sa d a s x h hs
  rw [exec_unary, scalar1_result h hs, instrBytes_unary]

/-- Settles O35: each form runs the shared operation of its operand count with the value of the table. -/
theorem scalarResults : Obligations.ScalarResults :=
  ⟨binaryScalarResult, unaryScalarResult⟩

end Sys2Proof.Claims
end

section
/-! SUPPORT. Constants, jumps and branches (R109 to R111): what an issue does that writes one register, or none, and goes on to
a target. -/
namespace Sys2Proof.Machine

@[simp] theorem Context.writeG_pc (x : Context) (n : Nat) (w : Word) : (x.writeG n w).regs.pc = x.regs.pc :=
  Context.putG_pc ..

@[simp] theorem Context.tookG_pc (x : Context) (sa : Bool) (a : BitVec 7) : (x.tookG sa a).regs.pc = x.regs.pc := by
  cases sa
  · rfl
  · exact Context.putG_pc ..

theorem passes_usesD (s : State) (x : Context) (d : BitVec 7) : Passes s x (usesD d) where
  reads := by simp [usesD]
  writes := by simp [usesD]
  sync := by simp [usesD]
  legal := rfl
  allowed := rfl
  tags := rfl
  binds := rfl
  idle := rfl
  settled := by simp [usesD]
  full := rfl

theorem passes_usesDA (s : State) {x : Context} {sa : Bool} (d : BitVec 7) {a : BitVec 7} (hs : x.canTakeG sa a) :
    Passes s x (usesDA sa d a) where
  reads := by simp [usesDA]
  writes := by simp [usesDA]
  sync := by cases sa <;> simp [usesDA]
  legal := rfl
  allowed := rfl
  tags := rfl
  binds := rfl
  idle := rfl
  settled := by simp [usesDA]
  full := syncEmpty_g hs

theorem passes_usesAB (s : State) (x : Context) (a b : BitVec 7) : Passes s x (usesAB false a b) where
  reads := by simp [usesAB]
  writes := by simp [usesAB]
  sync := by simp [usesAB]
  legal := rfl
  allowed := rfl
  tags := rfl
  binds := rfl
  idle := rfl
  settled := by simp [usesAB]
  full := rfl

/-- The body of an instruction that has no effect outside its registers runs as it is. -/
theorem issue_runs_inside {s : State} {x : Context} {i : Instr} {u : Uses} {body : Device → Context → List Val → Verdict}
    (h : CanIssue s x u.reads u.report) (hu : Passes s x u) (ho : u.outside = false) :
    issue s i u body = carryOut s s.dev x (instrBytes i) (takenBy s.dev.me s.dev.slot u) u.writes
      (body (s.dev.setCtx s.dev.core s.dev.slot (syncClear x u.sync)) (syncClear x u.sync) (u.reads.map x.peek)) := by
  rw [issue_runs h hu, if_neg (by simp [ho])]

/-- An instruction that reads nothing and writes gD completes, and may jump. -/
theorem issue_usesD {s : State} {x : Context} {i : Instr} {d : BitVec 7} (w : Context → Word) (target : Context → Option Word)
    (h : CanIssue s x [] [.g d.toNat]) :
    issue s i (usesD d) (fun dv y _ => .done (dv.putG d.toNat (w y)) [] (target y) none) =
      .next (s.withCur ((x.writeG d.toNat (w x)).movedTo ((target x).getD (x.regs.pc + instrBytes i)))) := by
  have hb : s.dev.me.bindingOf s.dev.slot (.g d.toNat) = none := h.unbound _ (by simp)
  rw [issue_runs_inside h (passes_usesD s x d) rfl]
  simp only [usesD, syncClear]
  rw [putG_unbound h.turn _ _ hb, carryOut_jump h.turn, Context.writeG_pc]

/-- An instruction that reads gA and writes gD completes, and may jump. -/
theorem issue_usesDA {s : State} {x : Context} {i : Instr} {sa : Bool} {d a : BitVec 7} (w : Context → Word)
    (target : Context → Word → Option Word) (h : CanIssue s x [.g a.toNat] [.g d.toNat, .g a.toNat]) (hs : x.canTakeG sa a) :
    issue s i (usesDA sa d a) (fun dv y vs => .done (dv.putG d.toNat (w y)) [] (target y (wordAt vs 0)) none) =
      .next (s.withCur (((x.tookG sa a).writeG d.toNat (w (x.tookG sa a))).movedTo
        ((target (x.tookG sa a) (x.getG a.toNat).val).getD (x.regs.pc + instrBytes i)))) := by
  have hb : s.dev.me.bindingOf s.dev.slot (.g d.toNat) = none := h.unbound _ (by simp)
  rw [issue_runs_inside h (passes_usesDA s d hs) rfl]
  simp only [usesDA, List.map_cons, List.map_nil, Context.peek, syncClear_g]
  rw [putG_unbound h.turn _ _ hb, carryOut_jump h.turn, Context.writeG_pc, Context.tookG_pc]
  rfl

/-- An instruction that reads gA and gB and writes nothing completes, and may jump. -/
theorem issue_usesAB {s : State} {x : Context} {i : Instr} {a b : BitVec 7} (target : Context → Word → Word → Option Word)
    (h : CanIssue s x [.g a.toNat, .g b.toNat] [.g a.toNat, .g b.toNat]) :
    issue s i (usesAB false a b) (fun dv y vs => .done dv [] (target y (wordAt vs 0) (wordAt vs 1)) none) =
      .next (s.withCur (x.movedTo ((target x (x.getG a.toNat).val (x.getG b.toNat).val).getD (x.regs.pc + instrBytes i)))) := by
  rw [issue_runs_inside h (passes_usesAB s x a b) rfl]
  exact carryOut_jump h.turn

end Sys2Proof.Machine

namespace Sys2Proof.Claims
open Sys2Proof.Machine

/-! The constants and offsets of the formats, as integers. -/

theorem imm18_shift (imm : BitVec 18) : imm.signExtend 64 <<< 10 = BitVec.ofInt 64 (imm.toInt * 1024) := by
  rw [BitVec.shiftLeft_eq_mul_twoPow, BitVec.ofInt_mul]
  rfl

theorem two_mul_signExtend {w : Nat} (off : BitVec w) : 2 * off.signExtend 64 = BitVec.ofInt 64 (2 * off.toInt) := by
  rw [BitVec.ofInt_mul]
  rfl

theorem exec_lui {s : State} {x : Context} (imm : BitVec 18) (d : BitVec 7) (h : CanIssue s x [] [.g d.toNat]) :
    exec (.lui imm d) s = .next (s.withCur ((x.writeG d.toNat (BitVec.ofInt 64 (imm.toInt * 1024))).past 4)) := by
  rw [← imm18_shift, Context.past, Context.writeG_pc]
  exact issue_usesD (fun _ => imm.signExtend 64 <<< 10) (fun _ => none) h

theorem exec_auipc {s : State} {x : Context} (imm : BitVec 18) (d : BitVec 7) (h : CanIssue s x [] [.g d.toNat]) :
    exec (.auipc imm d) s =
      .next (s.withCur ((x.writeG d.toNat (x.regs.pc + BitVec.ofInt 64 (imm.toInt * 1024))).past 4)) := by
  rw [← imm18_shift, Context.past, Context.writeG_pc]
  exact issue_usesD (fun y => y.regs.pc + (imm.signExtend 64 <<< 10)) (fun _ => none) h

theorem exec_jal {s : State} {x : Context} (imm : BitVec 18) (d : BitVec 7) (h : CanIssue s x [] [.g d.toNat]) :
    exec (.jal imm d) s = .next (s.withCur
      ((x.writeG d.toNat (x.regs.pc + 4)).movedTo (x.regs.pc + BitVec.ofInt 64 (2 * imm.toInt)))) := by
  rw [← two_mul_signExtend]
  exact issue_usesD (fun y => y.regs.pc + 4) (fun y => some (y.regs.pc + 2 * imm.signExtend 64)) h

theorem exec_jalr {s : State} {x : Context} (sa : Bool) (imm : BitVec 10) (a d : BitVec 7)
    (h : CanIssue s x [.g a.toNat] [.g d.toNat, .g a.toNat]) (hs : x.canTakeG sa a) :
    exec (.jalr sa imm a d) s = .next (s.withCur (((x.tookG sa a).writeG d.toNat (x.regs.pc + 4)).movedTo
      (((x.getG a.toNat).val + imm.signExtend 64) &&& ~~~1))) := by
  rw [← x.tookG_pc sa a]
  exact issue_usesDA (fun y => y.regs.pc + 4) (fun _ v => some ((v + imm10 imm) &&& ~~~1)) h hs

/-! The conditions of the branches (R111). -/

theorem bne_taken (x y : Word) : (x != y) = Branch.bne.taken x y := by
  rw [bne, beq_eq_decide, ← decide_not]
  rfl

theorem not_slt_taken (x y : Word) : (!x.slt y) = Branch.bge.taken x y := by
  rw [BitVec.slt, ← decide_not]
  exact decide_eq_decide.mpr Int.not_lt

theorem not_ult_taken (x y : Word) : (!x.ult y) = Branch.bgeu.taken x y := by
  rw [BitVec.ult, ← decide_not]
  exact decide_eq_decide.mpr Nat.not_lt

theorem exec_branch_of {o : Branch} {off : BitVec 11} {a b : BitVec 7} {s : State} {f : Word → Word → Bool}
    (hf : ∀ x y, f x y = o.taken x y) (hx : exec (o.instr off a b) s = branch s (o.instr off a b) off a b f) :
    exec (o.instr off a b) s = branch s (o.instr off a b) off a b o.taken :=
  hx.trans (congrArg _ (funext₂ hf))

theorem exec_branch (o : Branch) (off : BitVec 11) (a b : BitVec 7) (s : State) :
    exec (o.instr off a b) s = branch s (o.instr off a b) off a b o.taken := by
  cases o with
  | beq => rfl
  | bne => exact exec_branch_of bne_taken rfl
  | blt => rfl
  | bge => exact exec_branch_of not_slt_taken rfl
  | bltu => rfl
  | bgeu => exact exec_branch_of not_ult_taken rfl

theorem instrBytes_branch (o : Branch) (off : BitVec 11) (a b : BitVec 7) : instrBytes (o.instr off a b) = 4 := by
  cases o <;> rfl

theorem branch_result {s : State} {x : Context} (o : Branch) (off : BitVec 11) (a b : BitVec 7)
    (h : CanIssue s x [.g a.toNat, .g b.toNat] [.g a.toNat, .g b.toNat]) :
    exec (o.instr off a b) s = .next (s.withCur (x.movedTo
      (if o.taken (x.getG a.toNat).val (x.getG b.toNat).val then x.regs.pc + BitVec.ofInt 64 (2 * off.toInt)
       else x.regs.pc + 4))) := by
  rw [exec_branch, branch, issue_usesAB (fun y v w => if o.taken v w then some (y.regs.pc + 2 * off.signExtend 64) else none) h,
    instrBytes_branch, two_mul_signExtend]
  split <;> rfl

/-- Settles O7: each instruction is one issue whose body writes its constant or link and names its target. -/
theorem jumpsAndBranches : Obligations.JumpsAndBranches :=
  fun _ _ => ⟨fun imm d h => ⟨exec_lui imm d h, exec_auipc imm d h, exec_jal imm d h⟩, exec_jalr, branch_result⟩

end Sys2Proof.Claims
end

section
/-! SUPPORT. Divides (R113, R114): their values, what their issue leaves pending, and the arrival of their result. -/
namespace Sys2Proof.Claims
open Sys2Proof.Machine

/-! Quotient and remainder (R113). -/

/-- The pair whose quotient overflows fits R113's general formula: 2^63 and −2^63 are the same word. -/
theorem divide_signed {x y : Word} (h : y ≠ 0) :
    divide true x y = (BitVec.ofInt 64 (x.toInt.tdiv y.toInt), BitVec.ofInt 64 (x.toInt.tmod y.toInt)) := by
  rw [divide, if_neg h, if_pos rfl]
  split
  · rename_i hxy
    obtain ⟨rfl, rfl⟩ := hxy
    rfl
  · rfl

theorem divide_unsigned {x y : Word} (h : y ≠ 0) :
    divide false x y = (BitVec.ofNat 64 (x.toNat / y.toNat), BitVec.ofNat 64 (x.toNat % y.toNat)) := by
  rw [divide, if_neg h]
  rfl

theorem div_value (x y : Word) : (divide true x y).1 = Divide.div.value x y := by
  by_cases h : y = 0
  · subst h; rfl
  · rw [divide_signed h]
    exact (if_neg h).symm

theorem divu_value (x y : Word) : (divide false x y).1 = Divide.divu.value x y := by
  by_cases h : y = 0
  · subst h; rfl
  · rw [divide_unsigned h]
    exact (if_neg h).symm

theorem rem_value (x y : Word) : (divide true x y).2 = Divide.rem.value x y := by
  by_cases h : y = 0
  · subst h; rfl
  · rw [divide_signed h, Int.tmod_def]
    exact (if_neg h).symm

theorem remu_value (x y : Word) : (divide false x y).2 = Divide.remu.value x y := by
  by_cases h : y = 0
  · subst h; rfl
  · rw [divide_unsigned h, Nat.mod_eq_sub]
    exact (if_neg h).symm

theorem exec_divide_of {o : Divide} {la : BitVec 4} {b a d : BitVec 7} {s : State} {f : Word → Word → Word}
    (hf : ∀ x y, f x y = o.value x y) (hx : exec (o.instr la b a d) s = divideOp s (o.instr la b a d) la b a d f) :
    exec (o.instr la b a d) s = divideOp s (o.instr la b a d) la b a d o.value :=
  hx.trans (congrArg _ (funext₂ hf))

theorem exec_divide (o : Divide) (la : BitVec 4) (b a d : BitVec 7) (s : State) :
    exec (o.instr la b a d) s = divideOp s (o.instr la b a d) la b a d o.value := by
  cases o with
  | div => exact exec_divide_of div_value rfl
  | divu => exact exec_divide_of divu_value rfl
  | rem => exact exec_divide_of rem_value rfl
  | remu => exact exec_divide_of remu_value rfl

theorem instrBytes_divide (o : Divide) (la : BitVec 4) (b a d : BitVec 7) : instrBytes (o.instr la b a d) = 4 := by
  cases o <;> rfl

end Sys2Proof.Claims

namespace Sys2Proof.Machine

/-! The issue of a divide. -/

theorem passes_usesDAB (s : State) {x : Context} {sa : Bool} (d : BitVec 7) {a : BitVec 7} (b : BitVec 7) (hs : x.canTakeG sa a) :
    Passes s x (usesDAB sa d a b) where
  reads := by simp [usesDAB]
  writes := by simp [usesDAB]
  sync := by cases sa <;> simp [usesDAB]
  legal := rfl
  allowed := rfl
  tags := rfl
  binds := rfl
  idle := rfl
  settled := by simp [usesDAB]
  full := syncEmpty_g hs

theorem reservePlaces_unbound {d : Device} {r : Reg} (h : d.me.bindingOf d.slot r = none) : reservePlaces d [r] = (d, []) := by
  simp [reservePlaces, h]

/-- A context after a completed instruction that leaves a result pending. -/
def Context.pastWith (x : Context) (len : Word) (q : Pending) : Context :=
  { x.past len with pending := (x.past len).pending ++ [q] }

/-- A completed instruction that took a number for a result and leaves the result pending. -/
theorem carryOut_pending {s : State} {x0 x y : Context} {len : Word} {ts : List Taken} {ds : List Reg} {n : Nat} {q : Pending}
    (h : s.dev.cur = some x) :
    carryOut s s.dev x0 len ts ds (.done { s.dev.setCtx s.dev.core s.dev.slot y with nextAccess := n } [] none (some q)) =
      .next ⟨s.mem, { s.dev.setCtx s.dev.core s.dev.slot (y.pastWith len q) with nextAccess := n }⟩ := by
  have hy : ({ s.dev.setCtx s.dev.core s.dev.slot y with nextAccess := n } : Device).cur = some y := Device.cur_setCtx h y
  simp only [carryOut, finishEdits, conclude, settle_cur hy, Memory.apply_nil]
  exact congrArg (fun e : Device => Host.Outcome.next (⟨s.mem, { e with nextAccess := n }⟩ : State))
    (Device.setCtx_setCtx_self s.dev s.dev.core s.dev.slot y (y.pastWith len q))

/-- What a divide that issues leaves pending. -/
def dividePending (s : State) (la : BitVec 4) (d : BitVec 7) (w : Word) : Pending :=
  { id := s.dev.nextAccess, dests := [.g d.toNat], left := la.toNat, arrived := false, mayFault := false
    due := some (s.dev.me.cyc + 40, w), reserved := [] }

section
variable {s : State} {x : Context} {i : Instr} {la : BitVec 4} {d a b : BitVec 7} {f : Word → Word → Word}
  (h : CanIssue s x [.g a.toNat, .g b.toNat] [.g d.toNat, .g a.toNat, .g b.toNat])
include h

theorem divideOp_zero (hd : d.toNat = 0) : divideOp s i la b a d f = .next (s.withCur (x.past (instrBytes i))) := by
  rw [divideOp, issue_runs_inside h (passes_usesDAB s d b (by simp [Context.canTakeG])) rfl]
  simp only [hd, if_true]
  exact carryOut_ok h.turn

theorem divideOp_pending (hd : d.toNat ≠ 0) :
    divideOp s i la b a d f = .next ⟨s.mem,
      { s.dev.setCtx s.dev.core s.dev.slot
          (x.pastWith (instrBytes i) (dividePending s la d (f (x.getG a.toNat).val (x.getG b.toNat).val))) with
        nextAccess := s.dev.nextAccess + 1 }⟩ := by
  have hb : (s.dev.setCtx s.dev.core s.dev.slot x).me.bindingOf s.dev.slot (.g d.toNat) = none :=
    (bindingOf_me_setCtx ..).trans (h.unbound _ (by simp))
  rw [divideOp, issue_runs_inside h (passes_usesDAB s d b (by simp [Context.canTakeG])) rfl]
  have hc : (s.dev.setCtx s.dev.core s.dev.slot x).me.cyc = s.dev.me.cyc := by rw [Device.me_setCtx]; rfl
  simp only [hd, if_false, usesDAB, Bool.false_eq_true, syncClear, reservePlaces_unbound hb, hc]
  exact carryOut_pending h.turn

end

end Sys2Proof.Machine

namespace Sys2Proof.Claims
open Sys2Proof.Machine

theorem divideIssues : DivideIssues := by
  intro o la d a b s x h
  rw [exec_divide]
  constructor
  · rintro rfl
    rw [divideOp_zero h rfl, instrBytes_divide]
  · intro hd
    have hd' : d.toNat ≠ 0 := fun h0 => hd (BitVec.eq_of_toNat_eq h0)
    rw [divideOp_pending h hd', instrBytes_divide]
    exact ⟨_, _, _, rfl, rfl, Device.cur_setCtx h.turn _, rfl, rfl, rfl, rfl, rfl, rfl⟩

end Sys2Proof.Claims

namespace Sys2Proof.Machine

/-! The arrival of a result. -/

theorem Device.ctxAt_setCtx_self {d : Device} {c slot : Nat} {x : Context} (h : d.ctxAt c slot = some x) (y : Context) :
    (d.setCtx c slot y).ctxAt c slot = some y := by
  rw [Device.ctxAt, Device.setCtx, Device.onCore, Device.coreAt_setCore_self]
  exact Core.ctx_setCtx_self (Core.slot_exists h) _

theorem Device.onCtx_eq {d : Device} {c slot : Nat} {x : Context} (h : d.ctxAt c slot = some x) (f : Context → Context) :
    d.onCtx c slot f = d.setCtx c slot (f x) := by
  rw [Device.onCtx, h]

theorem Device.ctxAt_onCtx_self {d : Device} {c slot : Nat} {x : Context} (h : d.ctxAt c slot = some x) (f : Context → Context) :
    (d.onCtx c slot f).ctxAt c slot = some (f x) := by
  rw [Device.onCtx_eq h, Device.ctxAt_setCtx_self h]

theorem Device.ctxAt_onKept_self {d : Device} {c slot : Nat} {x : Context} (h : d.ctxAt c slot = some x) (n : Nat)
    (f : Context → Context) : (d.onKept c slot n f).ctxAt c slot = some (f x) := by
  rw [Device.onKept, h]
  exact Device.ctxAt_setCtx_self h (f x)

/-- A scalar result with no reserved place, in a cycle without a deposit, is an ordinary write (R18). -/
theorem Device.ctxAt_writeResult_g {d : Device} {c slot : Nat} {x : Context} (h : d.ctxAt c slot = some x)
    (hl : (d.coreAt c).lastDeposit = none) (id r : Nat) (v : Word) :
    (d.writeResult c slot id [] (.g r) (.w v)).ctxAt c slot = some (x.writeG r v) := by
  simp only [Device.writeResult, List.find?_nil, Core.justDeposited, hl]
  exact Device.ctxAt_onKept_self h _ _

theorem Context.shadowed_ready {x : Context} (h : x.phase = .ready) (n : Nat) (vs : List (Reg × Val)) : x.shadowed n vs = x := by
  rw [Context.shadowed, h]

/-- The pending results of a context once the one of a number has arrived: those whose windows are over are retired (R24). -/
def arrivedAll (id : Nat) (ps : List Pending) : List Pending :=
  (ps.map fun p => if p.id = id then { p with arrived := true, mayFault := false } else p).filter fun p => !(p.arrived && p.left == 0)

theorem arrivedAll_single (p : Pending) :
    arrivedAll p.id [p] = if p.left = 0 then [] else [{ p with arrived := true, mayFault := false }] := by
  by_cases h : p.left = 0 <;> simp [arrivedAll, h]

theorem Device.ctxAt_arrive_ready {d : Device} {c slot : Nat} {x : Context} (h : d.ctxAt c slot = some x) (hp : x.phase = .ready)
    (id : Nat) : (d.arrive c slot id).ctxAt c slot = some { x with pending := arrivedAll id x.pending } := by
  have h1 := Device.ctxAt_onCtx_self h fun y => { y with pending := arrivedAll id y.pending }
  simp only [arrivedAll] at h1 ⊢
  simp only [Device.arrive, h1, hp]

@[simp] theorem Context.writeG_phase (x : Context) (n : Nat) (w : Word) : (x.writeG n w).phase = x.phase := by
  unfold Context.writeG Context.putG; split <;> rfl

@[simp] theorem Context.writeG_pending (x : Context) (n : Nat) (w : Word) : (x.writeG n w).pending = x.pending := by
  unfold Context.writeG Context.putG; split <;> rfl

/-- A divide whose 40 cycles are over writes its register in a ready context and marks its result arrived (R114). -/
theorem ctxAt_divideDone {d : Device} {c slot r at_ : Nat} {x : Context} {p : Pending} {v : Word} (h : d.ctxAt c slot = some x)
    (hx : x.phase = .ready) (hd : p.dests = [.g r]) (hr : p.reserved = []) (hv : p.due = some (at_, v))
    (hc : at_ ≤ (d.coreAt c).cyc) (hl : (d.coreAt c).lastDeposit = none) :
    (divideDone d c slot p).ctxAt c slot = some { x.writeG r v with pending := arrivedAll p.id x.pending } := by
  have hy : (x.writeG r v).phase = .ready := (x.writeG_phase r v).trans hx
  have hw := Device.ctxAt_writeResult_g h hl p.id r v
  have hs := Device.ctxAt_onCtx_self hw fun y => y.shadowed p.id [(.g r, .w v)]
  rw [Context.shadowed_ready hy] at hs
  have ha := Device.ctxAt_arrive_ready hs hy p.id
  rw [Context.writeG_pending] at ha
  simpa only [divideDone, hv, hc, hd, hr, if_true, List.head?_cons] using ha

theorem execLongLatencyResult_divide {s : State} {n core slot : Nat} {p : Pending} (ha : s.dev.access n = none)
    (hd : dividing s.dev n = some (core, slot, p)) (hh : (s.dev.coreAt core).halted = false) :
    execLongLatencyResult n s = .next ⟨s.mem, divideDone s.dev core slot p⟩ := by
  simp only [execLongLatencyResult, ha, hd, hh]
  rfl

end Sys2Proof.Machine

namespace Sys2Proof.Claims
open Sys2Proof.Machine

theorem divideResultArrives : DivideResultArrives := by
  intro s core slot n x p r at_ v ha hdiv _ hx hready hpend hdests hres hdue hcyc hhalt hdep
  have hy := ctxAt_divideDone hx hready hdests hres hdue hcyc hdep
  refine ⟨_, _, execLongLatencyResult_divide ha hdiv hhalt, rfl, hy, rfl, (x.writeG_phase r v).trans hready, ?_⟩
  rw [hpend, arrivedAll_single]

/-- Settles O36: a divide's value is R113's, its issue leaves it pending, and its arrival writes and retires it. -/
theorem divides : Obligations.Divides :=
  ⟨divideIssues, divideResultArrives⟩

end Sys2Proof.Claims
end

section
/-! SUPPORT. Integer elements (R47, R148, R151): the element arithmetic of the machine as the statements define it, and what
saturation leaves. -/
namespace Sys2Proof.Claims
open Sys2Proof.Machine

/-- Every integer format has at least one bit (R55): the half range 2^(w − 1) is that of width w. -/
theorem width_pos_of_tagOf_int {c : BitVec 4} {signed : Bool} {w : Nat} (h : tagOf c = .int signed w) : 0 < w := by
  unfold tagOf at h
  split at h <;> cases h <;> decide

theorem exactVa_eq_vaInt (fn : VaFn) (x y z : Int) : exactVa fn x y z = vaInt fn x y z := by
  cases fn with
  | add | sub | mul | fma | fms => rfl
  | min | max | diff => simp only [exactVa, vaInt]; split <;> omega

theorem intRange_eq (signed : Bool) (w : Nat) : intRange signed w = (elementMin signed w, elementMax signed w) := by
  cases signed <;> rfl

theorem intVal_eq_elementInt {signed : Bool} {w x : Nat} (hw : 0 < w) (hx : x < 2^w) : intVal signed w x = elementInt signed w x := by
  cases signed with
  | false => rfl
  | true =>
    have htop : 2^(w - 1) ≤ x ↔ ¬ 2 * x < 2^w := by
      have hhalf : 2 * 2^(w - 1) = 2^w := mul_pow_sub_one hw.ne' 2
      omega
    simp only [intVal, elementInt, BitVec.toInt_eq_toNat_cond, BitVec.toNat_ofNat, Nat.mod_eq_of_lt hx, htop, Bool.true_and,
      decide_eq_true_eq, ite_not, if_true, Nat.cast_pow, Nat.cast_ofNat]

theorem elementMin_le_elementMax (signed : Bool) (w : Nat) : elementMin signed w ≤ elementMax signed w := by
  have hall : 0 < 2^w := Nat.two_pow_pos w
  have hhalf : 0 < 2^(w - 1) := Nat.two_pow_pos (w - 1)
  cases signed <;> simp only [elementMin, elementMax, Bool.false_eq_true, if_true, if_false] <;> omega

/-- An integer within the range is the value of its residue modulo 2^w. -/
theorem elementInt_emod {signed : Bool} {w : Nat} {v : Int} (hw : 0 < w) (hlo : elementMin signed w ≤ v) (hhi : v ≤ elementMax signed w) :
    elementInt signed w (v % (2^w : Nat)).toNat = v := by
  cases signed with
  | false =>
    simp only [elementMin, elementMax, elementInt, Bool.false_eq_true, if_false] at *
    rw [Int.emod_eq_of_lt hlo (by omega), Int.toNat_of_nonneg hlo]
  | true =>
    simp only [elementMin, elementMax, elementInt, if_true] at *
    rw [← BitVec.toNat_ofInt, BitVec.ofNat_toNat, BitVec.setWidth_eq]
    exact BitVec.toInt_ofInt_eq_self hw (by exact_mod_cast hlo) (by push_cast at hhi; omega)

section
variable {signed : Bool} {w : Nat} {v : Int} (hw : 0 < w)
include hw

theorem satInt_of_mem (hlo : elementMin signed w ≤ v) (hhi : v ≤ elementMax signed w) :
    elementInt signed w (satInt signed w v).1 = v ∧ (satInt signed w v).2 = 0 := by
  simp only [satInt, intRange_eq, min_eq_right hhi, max_eq_right hlo, if_true, and_true]
  exact elementInt_emod hw hlo hhi

theorem satInt_of_lt (h : v < elementMin signed w) :
    elementInt signed w (satInt signed w v).1 = elementMin signed w ∧ (satInt signed w v).2 = flagSAT := by
  have hr := elementMin_le_elementMax signed w
  simp only [satInt, intRange_eq, min_eq_right (h.le.trans hr), max_eq_left h.le]
  exact ⟨elementInt_emod hw le_rfl hr, if_neg h.ne'⟩

theorem satInt_of_gt (h : elementMax signed w < v) :
    elementInt signed w (satInt signed w v).1 = elementMax signed w ∧ (satInt signed w v).2 = flagSAT := by
  have hr := elementMin_le_elementMax signed w
  simp only [satInt, intRange_eq, min_eq_left h.le, max_eq_right hr]
  exact ⟨elementInt_emod hw hr le_rfl, if_neg h.ne⟩

end

/-- On an integer tag a VA element is the exact value of the function, saturated (R148, R151). -/
theorem vaElem_int (signed : Bool) {w : Nat} (fn : VaFn) (env : RoundEnv) (e : Nat) {x y z : Nat} (hw : 0 < w) (hx : x < 2^w)
    (hy : y < 2^w) (hz : z < 2^w) :
    vaElem (.int signed w) fn env e x y z =
      satInt signed w (exactVa fn (elementInt signed w x) (elementInt signed w y) (elementInt signed w z)) := by
  rw [vaElem, intVal_eq_elementInt hw hx, intVal_eq_elementInt hw hy, intVal_eq_elementInt hw hz, exactVa_eq_vaInt]

/-- Settles O13: the element is the exact value saturated, and saturation is exact within the range and clamps outside it. -/
theorem integerElementsSaturate : Obligations.IntegerElementsSaturate := by
  intro fn c signed w env e x y z hc hx hy hz
  have hw := width_pos_of_tagOf_int hc
  simp only [vaElem_int signed fn env e hw hx hy hz]
  exact ⟨satInt_of_mem hw, satInt_of_lt hw, satInt_of_gt hw⟩

end Sys2Proof.Claims
end
